-- ==== Sys2Proof/Word.lean ====
section
/-! DEFINITION. The word types: what the manual treats as bytes and bits, and the numbers of the module's units. -/

namespace Sys2Proof

/-- One byte. -/
abbrev Byte := BitVec 8

/-- A sequence of bytes, the first at the lowest address. -/
abbrev Bytes := List (BitVec 8)

/-- Tile number, 8 × row + column (R9). -/
abbrev TileId := Fin 64

/-- Partition index, P0 onward (R9). -/
abbrev PartId := Fin 8

/-- Ring port index (R242). -/
abbrev PortId := Fin 8

/-- Torus dimension: 0 X, 1 Y, 2 Z, 3 W (R297). -/
abbrev DimId := Fin 4

/-- Tile channel k (R165). -/
abbrev ChanId := Fin 4

/-- A coordinate field of 16 bits (R249). -/
abbrev Coord := BitVec 16

end Sys2Proof
end

