-- ==== Sys2Proof/Config.lean ====
section
/-! DEFINITION. What one module fixes for good or the manual leaves open: the contents of the messages whose bytes the
manual does not lay out, and the FREE VALUES, opaque constants that no proof can see into (assumption log, 1 and 10). -/

namespace Sys2Proof

/-- The contents of a VC2 message between two Jewels (R257, R254, R377, R411, R414, R534). The manual gives what each
holds and not its bytes: those are `Config.vc2Bytes` (log 10). -/
inductive JewelMsg where
  /-- R534: a member announces itself to the leader. -/
  | opened (job : BitVec 16) (coord : Coord)
  /-- R377 t0: a 64-byte nonce. -/
  | challenge (nonce : Bytes)
  /-- R377 t1: the member's report over that nonce. -/
  | report (rep : Bytes)
  /-- R377 t3: the AES-256-GCM ciphertext under the KSET key with its ML-KEM ciphertext, and (R378, R414) the rejoining
  member's last acknowledged era and SID ceilings. -/
  | keyset (kemct : Bytes) (iv : Bytes) (body : Bytes) (tag : Bytes) (era : Nat) (sidCeil : Nat)
  /-- R377 t4. -/
  | joined
  /-- R254: a raised era ceiling. -/
  | eraRaise (ceil : Nat)
  | eraAck (ceil : Nat)
  /-- R414: a raised SID ceiling. -/
  | sidRaise (ceil : Nat)
  | sidAck (ceil : Nat)
  /-- R411: (CKNO, STEP, CAPD, NARW). -/
  | restoreValues (ckno : BitVec 32) (step : BitVec 48) (capd : Bytes) (narw : Bool)
  | go (yes : Bool)
  deriving DecidableEq, Repr

/-- The contents of a VC3 message between two Fullers (R257, R402, R404, R406, R408): not laid out either. -/
inductive FullerMsg where
  /-- R404: chunk i of the log CKNO. -/
  | chunk (ckno : BitVec 32) (i : Nat) (last : Bool) (data : Bytes)
  /-- R402: the buddy has the trailer. -/
  | trailerAck (ckno : BitVec 32)
  /-- R406: the buddy refuses the log. -/
  | refusal (ckno : BitVec 32)
  /-- R408: a restoring member asks for a log. -/
  | logRequest (ckno : BitVec 32)
  /-- R408: the buddy returns chunk i of n. -/
  | logChunk (ckno : BitVec 32) (i : Nat) (n : Nat) (data : Bytes)
  deriving DecidableEq, Repr

/-- What a channel's pins deliver for one line read: the stored codeword with the symbols named here XORed (R169), or no
data after three tries (R176). -/
inductive LineIn where
  | data (errs : List (Nat × BitVec 8))
  | noData
  deriving DecidableEq, Repr

/-- A line that pouncing verifies, with what the pins deliver as it is read back and, once rewritten, read again (R381 step 6). -/
structure ReadBack where
  tile : TileId
  chan : ChanId
  line : Nat
  first : LineIn
  second : LineIn
  deriving DecidableEq, Repr

/-- Events of one escapement window of a tile (R421): issuing cycles of the array by the rows of R426; scratchpad accesses beside the
array's own, DMA granules, mesh beats, seal blocks; issuing cycles of the vector unit by R533; bank conflicts and engine waits (R386). -/
structure Activity where
  issue : List Nat
  sp : Nat
  dma : Nat
  mesh : Nat
  sealed : Nat
  vec32 : Nat
  vec16 : Nat
  vecFn : Nat
  epi : Nat
  epiAct : Nat
  bankcf : Nat
  ewait : Nat
  deriving DecidableEq, Repr

/-- Analogue telemetry values of R526, as the power stage measures them. -/
structure Analog where
  brev : BitVec 8
  vin : BitVec 16
  iin : BitVec 16
  pin : BitVec 16
  pmem : BitVec 16
  pperi : BitVec 16
  popt : BitVec 16
  senseOk : Bool
  icore : List (BitVec 16)
  coolIn : BitVec 16
  coolOut : BitVec 16
  deriving DecidableEq, Repr

namespace Config

/-- A byte of the Jewel's random draw number `n` (keys, nonces, secrets: R182, R183, R370, R371, R377, R467), or of any
other value the manual leaves open, read at the model's counter `free`. -/
opaque freeByte : Nat → Nat → BitVec 8

/-- The bytes of a VC2 message (not laid out by the manual). -/
opaque vc2Bytes : JewelMsg → Bytes

/-- What the receiving Jewel reads in a VC2 message. -/
opaque vc2Parse : Bytes → Option JewelMsg

/-- The bytes of a VC3 message. -/
opaque vc3Bytes : FullerMsg → Bytes

/-- What the receiving Fuller reads in a VC3 message. -/
opaque vc3Parse : Bytes → Option FullerMsg

/-- The ML-DSA-65 key pair that the ROM derives from an identity seed (R388): the private key, and byte i of the public one. -/
opaque idSecret : Bytes → Bytes
opaque idPublicByte : Bytes → Nat → BitVec 8

/-- The ML-DSA-65 signature under a private key, byte i (3,309 bytes, R372). -/
opaque signByte : Bytes → Bytes → Nat → BitVec 8

/-- ML-DSA-65 verification of a signature under a public key: key, message, signature (R469, R470). -/
opaque verifies : Bytes → Bytes → Bytes → Bool

/-- The Radejo firmware key in the ROM, under which RSIG verifies (R469). -/
opaque radejoKey : Bytes

/-- The ML-KEM-768 encapsulation key of a per-job or link key pair drawn at counter n, byte i (1,184 bytes). -/
opaque kemEkByte : Nat → Nat → BitVec 8

/-- ML-KEM-768 encapsulation to a key, with the draw at counter n: ciphertext byte i (1,088 bytes). -/
opaque kemCtByte : Bytes → Nat → Nat → BitVec 8

/-- The shared secret of that encapsulation, byte i (32 bytes). -/
opaque kemSsByte : Bytes → Nat → Nat → BitVec 8

/-- Counter block of the keystream of a deep pouncing (R381): tile, channel, line of the data window, 16-byte block. -/
opaque wipeBlock : Nat → Nat → Nat → Nat → Bytes

/-- A fuse step reads back as blown (R484): the attempt at the model's counter. -/
opaque fuseTakes : Nat → Bool

/-- Weights of R421 that the manual does not give, in units of 1/64 nJ: leakage for each cycle, and for each scratchpad access beside
the array's, DMA granule, mesh beat and seal block. -/
opaque leakWeight : Nat
opaque spWeight : Nat
opaque dmaWeight : Nat
opaque meshWeight : Nat
opaque sealWeight : Nat

/-- The Jewel ROM's contents, of which MROM is the digest (R474). -/
opaque romBytes : Bytes

end Config

end Sys2Proof
end

