-- ==== Sys2Proof/Syntax.lean ====
section
/-! DEFINITION. The commands and events of opcode_table.json, one constructor for each row, in the table's order. Every
operand is what comes from OUTSIDE the block with the command: bytes a DMA read returned, frames on a fibre, readings,
levels, verdicts on ML-DSA-65 signatures and shared secrets of ML-KEM-768 (log 11). -/

namespace Sys2Proof

/-- A PCI Express function: the physical function, or the virtual function of a partition (R493). -/
abbrev Fn := Option (Fin 8)

/-- The rows of the table. -/
inductive Instr where
  -- the command window and its sequencer (11)
  | slotTake (f : Fn) (urgent : Bool)
  | badslot (f : Fn) (urgent : Bool)
  | barWrite (f : Fn) (bar : Nat) (off : Nat) (data : Bytes)
  | jobOpen (p : PartId) (obj : Option Bytes) (sigOk : Bool)
  | jobClose (p : PartId)
  | keyRelease (p : PartId) (obj : Option Bytes) (sigOk : Bool) (kem : Option Bytes)
  | attest (f : Fn) (nonce : Option Bytes)
  | loadProgram (p : PartId) (obj : Option Bytes)
  | run (p : PartId)
  | copyIn (p : PartId)
  | copyOut (p : PartId)
  | bind (p : PartId)
  | unbind (p : PartId)
  | reduce (p : PartId)
  | checkpoint (p : PartId)
  | restore (p : PartId)
  | fence (p : PartId)
  | status (f : Fn)
  | abort (f : Fn)
  | nvmStage (obj : Option Bytes)
  | commandTimeout (f : Fn)
  | jewelWindow
  | jewelWatchdogExpiry
  -- tile programs (02, 05)
  | pass (t : TileId)
  | passComplete (t : TileId)
  | accumReplay (t : TileId)
  | epilogue (t : TileId)
  | vec (t : TileId)
  | dma (t : TileId)
  | dmaComplete (t : TileId) (i : Nat)
  | send (t : TileId)
  | recv (t : TileId)
  | meshTransferDone (src dst : TileId)
  | loop (t : TileId)
  | endProgram (t : TileId)
  | tileComplete (t : TileId)
  -- the seal and the channels (06, 07)
  | sealGranuleRead (t : TileId) (i : Nat) (lines : List LineIn)
  | counterMissFill (t : TileId) (i : Nat) (lines : List LineIn) (mirrors : List LineIn)
  | sealGranuleWrite (t : TileId) (i : Nat) (lines : List LineIn)
  | rootUpdate (t : TileId)
  | patrolRead (t : TileId) (k : ChanId) (line : LineIn)
  | refresh (t : TileId) (k : ChanId)
  | packageTempRead (pkg : Fin 64) (temp : Option Int)
  | dieSensorRead (i : Fin 68) (temp : Option Int)
  | tripCool
  | rootScrub (flips : BitVec 64)
  -- ring ports (09)
  | dataFrameReceive (port : PortId) (fecOk : Bool) (fecc : Nat) (wire : Bytes)
  | idleFrameReceive (port : PortId) (fecOk : Bool) (fecc : Nat) (wire : Bytes)
  | frameSlotSend (port : PortId)
  | replayTimeout (port : PortId)
  | ackStallRetrain (port : PortId)
  | laneSignalLoss (port : PortId) (back : Bool)
  | signalHoldExpiry (port : PortId)
  | laneLock (port : PortId)
  | hello (port : PortId) (coord : Coord) (nport : Nat) (nonce : Bytes) (digest : Bytes) (fecc : Nat)
  | evidenceDPlus (port : PortId) (chain report ek : Bytes) (authOk : Bool) (fecc : Nat)
  | evidenceDMinus (port : PortId) (chain report ct : Bytes) (authOk : Bool) (kem : Option Bytes) (fecc : Nat)
  | refusedRetry (port : PortId)
  | crsync (port : PortId) (fecOk : Bool) (fecc : Nat) (wire : Bytes) (loopPs : Nat)
  | opticalEngineFail (port : PortId)
  | hatbandOpen
  -- the carding engine (10)
  | cardingContribution (t : TileId)
  | partialMsg (p : PartId)
  | finalMsg (p : PartId)
  | gather (p : PartId)
  | mkup (p : PartId)
  | mkdn (p : PartId)
  | moveMsg (p : PartId)
  | bucketDelivery (p : PartId) (tag : BitVec 16)
  -- messages between members (09, 12, 13)
  | eraRaise (p : PartId)
  | eraAck (p : PartId)
  | opened (p : PartId)
  | challenge (p : PartId)
  | memberReport (p : PartId) (authOk : Bool)
  | keyset (p : PartId) (kem : Option Bytes)
  | joined (p : PartId)
  | sidCeilingRaise (p : PartId)
  | restoreAgreement (p : PartId)
  | goMsg (p : PartId)
  -- checkpoint (13)
  | tileMark (t : TileId)
  | heldGranuleWrite (t : TileId)
  | checkpointTrailer (p : PartId)
  | buddyChunk (p : PartId)
  | buddyTrailerAck (p : PartId)
  | buddyLogRequest (p : PartId)
  -- resets and pouncing (12, 15)
  | partitionReset (p : PartId) (bal : Option (Fin 7))
  | resetFlushDone (p : PartId)
  | flushTimeout (p : PartId)
  | selfTestDone (p : PartId) (fails : List (TileId × Nat))
  | recentreDone (p : PartId) (failed : List (TileId × ChanId))
  | resetOverrun (p : PartId)
  | pouncingDone (p : PartId) (reads : List ReadBack) (fails : List (TileId × Nat))
  | pouncingOverrun (p : PartId)
  | channelInitDone (t : TileId) (k : ChanId)
  | moduleRestart (code : Byte) (detail : BitVec 32)
  -- start-up (16)
  | powerGood (romOk certRead readA readB : Bool)
  | channelTrainingDone (t : TileId) (k : ChanId) (ok : Bool)
  | engineSelfTestDone (port : PortId) (ok : Bool)
  -- power and thermal (14)
  | escapementWindow (t : TileId) (a : Activity)
  | droopEvent (t : TileId)
  | rowMonitorSample (row : Fin 8) (ma : Nat)
  | coreRailOvercurrent (row : Fin 8)
  | pllLossOfLock (island : Fin 76)
  | oscillatorLoss
  | inputUndervoltage
  | inputOvervoltage
  | inputOvercurrent
  | inputRelease (tooHigh : Bool)
  | vauxFault
  -- the board (18)
  | inputPowerApplied (slotId : BitVec 5)
  | railsRise
  | startConditionLoss (removed : Bool)
  | modEnableDeassert (slotId : BitVec 5)
  | modEnableAssert
  | perstNAssert
  | perstNRelease
  | stormHoldEnd
  | railsRested
  | smbusBlockRead (addr : BitVec 7) (code : Byte) (a : Analog)
  | smbusWrite (addr : BitVec 7) (code : Byte) (data : Bytes)
  | smbusTimeout
  -- PCI Express (17)
  | functionLevelReset (p : PartId)
  | pfFunctionLevelReset
  | dlDown
  | vfEnable (numVfs : Option Nat) (enable : Bool)
  | busMasterEnable (f : Fn) (on : Bool)
  | hostDmaSlot (pf : Bool) (write : Bool)
  | dmaReadCompletion (id : Nat) (ok : Bool) (data : Bytes)
  | completionTimeout (id : Nat)
  | debugControlWrite (t : TileId) (v : Byte)
  | debugMemoryWrite (t : TileId) (off : Nat) (data : Bytes)
  | logEntryWrite (p : Option (Fin 8))
  | oscillatorRecovery
  | vauxRecovery
  | modEnableHeldLow
  | dlUp (rate width mps : Nat)
  | retrainLimitRelease (port : PortId)
  | vecComplete (t : TileId)
  | eraCeilingReceive (p : PartId)
  | sidCeilingReceive (p : PartId)
  | sidCeilingAck (p : PartId)
  | restoreLogChunk (p : PartId)
  | buddyRefusal (p : PartId)
  deriving DecidableEq, Repr

end Sys2Proof
end

