-- ==== Sys2Proof/Decode.lean ====
section
/-! DEFINITION. The command that a word spells by the table's bits. No row of opcode_table.json gives bits: commands and
events reach the block with their operands (log 21), so no word spells one. -/

namespace Sys2Proof

/-- The command of a word of `nbits` bits: none, because no row of the table gives bits. -/
def decodeTableWord (_nbits _w : Nat) : Option Instr := none

end Sys2Proof
end

