-- ==== Sys2Proof/Machine/Bits.lean ====
section
/-! DEFINITION. Bytes and bit fields, byte orders, CRC-32C, and byte memories kept in one canonical form. -/

namespace Sys2Proof.Machine

/-- The number a little-endian byte sequence holds. -/
def leNat : Bytes → Nat
  | [] => 0
  | b :: bs => b.toNat + 256 * leNat bs

/-- The n low bytes of v, least significant first. -/
def leBytes : Nat → Nat → Bytes
  | 0, _ => []
  | n + 1, v => BitVec.ofNat 8 v :: leBytes n (v / 256)

/-- The number a big-endian byte sequence holds. -/
def beNat (bs : Bytes) : Nat := leNat bs.reverse

/-- The n low bytes of v, most significant first. -/
def beBytes (n v : Nat) : Bytes := (leBytes n v).reverse

/-- `len` bytes of `bs` from `off`. -/
def sub (bs : Bytes) (off len : Nat) : Bytes := (bs.drop off).take len

/-- A little-endian field of a structure: `len` bytes at `off`. -/
def field (bs : Bytes) (off len : Nat) : Nat := leNat (sub bs off len)

/-- Byte `off` of a structure, as a number. -/
def byteAt (bs : Bytes) (off : Nat) : Nat := (bs.getD off 0).toNat

/-- Bits [hi:lo] of v. -/
def bits (v hi lo : Nat) : Nat := (v >>> lo) % 2 ^ (hi + 1 - lo)

/-- Bit i of v. -/
def bit (v i : Nat) : Bool := v.testBit i

/-- The two's-complement reading of an n-bit field. -/
def signed (n v : Nat) : Int := if v % 2 ^ n < 2 ^ (n - 1) then (v % 2 ^ n : Nat) else (v % 2 ^ n : Nat) - (2 ^ n : Nat)

/-- The n-bit two's-complement field of an integer. -/
def unsigned (n : Nat) (i : Int) : Nat := (i % (2 ^ n : Nat)).toNat

/-- Every byte of the range is zero (reserved fields). -/
def zeroRange (bs : Bytes) (off len : Nat) : Bool := (sub bs off len).all (· == 0)

/-- `n` zero bytes. -/
def zeros (n : Nat) : Bytes := List.replicate n 0

/-- `bs` cut or filled with zeros to n bytes. -/
def fit (n : Nat) (bs : Bytes) : Bytes := bs.take n ++ zeros (n - bs.length)

/-- The bytes with `ds` written at `off` (within the length). -/
def patch (bs : Bytes) (off : Nat) (ds : Bytes) : Bytes := bs.take off ++ ds ++ bs.drop (off + ds.length)

/-- ASCII bytes of a constant label. -/
def ascii (s : String) : Bytes := s.toList.map fun c => BitVec.ofNat 8 c.toNat

def ceilDiv (a b : Nat) : Nat := (a + b - 1) / b

/-- One step of CRC-32C over a bit, reflected form. -/
def crcBit (c : Nat) : Nat := if c % 2 = 1 then (c / 2) ^^^ 0x82F63B78 else c / 2

def crcByte (c : Nat) (b : Byte) : Nat := Nat.repeat crcBit 8 (c ^^^ b.toNat)

/-- CRC-32C of a byte sequence (R60, R226, R318). -/
def crc32c (bs : Bytes) : Nat := (bs.foldl crcByte 0xFFFFFFFF) ^^^ 0xFFFFFFFF

/-- Cut a sequence into blocks of n elements, the last one shorter. `fuel` bounds the number of blocks. -/
def chunksOf {α : Type} (n : Nat) : Nat → List α → List (List α)
  | 0, _ => []
  | _ + 1, [] => []
  | fuel + 1, x :: xs => (x :: xs).take n :: chunksOf n fuel ((x :: xs).drop n)

/-- A byte memory: cells in strictly rising address order; an address not listed reads as `d`, and no cell holds `d`. -/
abbrev Mem := List Host.Cell

namespace Mem

/-- One byte, where unlisted bytes read as `d`. -/
def getD (d : Byte) : Mem → Nat → Byte
  | [], _ => d
  | (a, b) :: m, x => if x = a then b else getD d m x

/-- Insert a cell in address order. -/
def insert : Mem → Nat → Byte → Mem
  | [], x, v => [(x, v)]
  | (a, b) :: m, x, v => if x < a then (x, v) :: (a, b) :: m else if x = a then (x, v) :: m else (a, b) :: insert m x v

/-- Drop the cells of an address. -/
def erase : Mem → Nat → Mem
  | [], _ => []
  | (a, b) :: m, x => if x = a then erase m x else (a, b) :: erase m x

/-- Write one byte. -/
def putD (d : Byte) (m : Mem) (x : Nat) (v : Byte) : Mem := if v = d then erase m x else insert m x v

def get (m : Mem) (x : Nat) : Byte := getD 0 m x

def put (m : Mem) (x : Nat) (v : Byte) : Mem := putD 0 m x v

/-- `n` bytes from address `x`. -/
def readD (d : Byte) (m : Mem) (x : Nat) : Nat → Bytes
  | 0 => []
  | n + 1 => getD d m x :: readD d m (x + 1) n

def read (m : Mem) (x n : Nat) : Bytes := readD 0 m x n

/-- Write consecutive bytes from address `x`. -/
def writeD (d : Byte) : Mem → Nat → Bytes → Mem
  | m, _, [] => m
  | m, x, b :: bs => writeD d (putD d m x b) (x + 1) bs

def write (m : Mem) (x : Nat) (bs : Bytes) : Mem := writeD 0 m x bs

/-- The canonical form: addresses strictly rising from `lo`, no cell equal to `d`. -/
def wfFrom (d : Byte) : Nat → Mem → Bool
  | _, [] => true
  | lo, (a, b) :: m => decide (lo ≤ a) && (b != d) && wfFrom d (a + 1) m

def wfD (d : Byte) (m : Mem) : Bool := wfFrom d 0 m

def wf (m : Mem) : Bool := wfD 0 m

end Mem

end Sys2Proof.Machine
end

