-- ==== Sys2Proof/Machine/Num.lean ====
section
/-! DEFINITION. The nine number formats (03_formats.md): exact values, decoding, the one rounding every conversion and
operation makes, encoding, and the IEEE 754-2019 operations of R78. -/

namespace Sys2Proof.Machine

/-- The formats of R74. -/
inductive Fmt where
  | b32 | b16 | zw16 | zw8e4 | zw8e5 | zw6 | zw4 | zw4b | zw6b
  deriving DecidableEq, Repr

/-- The rounding modes of R95. -/
inductive Rnd where
  | rne | rtz | rup | rdn | sr
  deriving DecidableEq, Repr

/-- An exact value: (-1)^neg × m × 2^e, an infinity, or a NaN. -/
inductive Num where
  | nan (signaling : Bool)
  | inf (neg : Bool)
  | fin (neg : Bool) (m : Nat) (e : Int)
  deriving DecidableEq, Repr

/-- The five IEEE 754 status flags (R82). -/
structure FpFlags where
  inv : Bool := false
  dz : Bool := false
  ovf : Bool := false
  unf : Bool := false
  inx : Bool := false
  deriving DecidableEq, Repr

def FpFlags.or (a b : FpFlags) : FpFlags :=
  ⟨a.inv || b.inv, a.dz || b.dz, a.ovf || b.ovf, a.unf || b.unf, a.inx || b.inx⟩

/-- Bits [4:0] as FSTORE writes them (R155). -/
def FpFlags.toNat (f : FpFlags) : Nat :=
  f.inv.toNat + 2 * f.dz.toNat + 4 * f.ovf.toNat + 8 * f.unf.toNat + 16 * f.inx.toNat

namespace Fmt

/-- The codes of R74; 00h and 0Ah-FFh are invalid. -/
def ofCode : Nat → Option Fmt
  | 1 => some b32 | 2 => some b16 | 3 => some zw16 | 4 => some zw8e4 | 5 => some zw8e5
  | 6 => some zw6 | 7 => some zw4 | 8 => some zw4b | 9 => some zw6b | _ => none

def code : Fmt → Nat
  | b32 => 1 | b16 => 2 | zw16 => 3 | zw8e4 => 4 | zw8e5 => 5 | zw6 => 6 | zw4 => 7 | zw4b => 8 | zw6b => 9

/-- Element width in bits. -/
def width : Fmt → Nat
  | b32 => 32 | b16 => 16 | zw16 => 16 | zw8e4 => 8 | zw8e5 => 8 | zw6 => 6 | zw4 => 4 | zw4b => 4 | zw6b => 6

/-- Fraction bits. -/
def fbits : Fmt → Nat
  | b32 => 23 | b16 => 10 | zw16 => 7 | zw8e4 => 3 | zw8e5 => 2 | zw6 => 2 | zw4 => 1 | zw4b => 1 | zw6b => 2

def bias : Fmt → Nat
  | b32 => 127 | b16 => 15 | zw16 => 127 | zw8e4 => 8 | zw8e5 => 16 | zw6 => 4 | zw4 => 1 | zw4b => 1 | zw6b => 4

def ebits (f : Fmt) : Nat := f.width - 1 - f.fbits

/-- Precision p, the implicit bit counted (R77). -/
def prec (f : Fmt) : Nat := f.fbits + 1

def emin (f : Fmt) : Int := 1 - (f.bias : Int)

/-- emax of R77. -/
def emax : Fmt → Int
  | b32 => 127 | b16 => 15 | zw16 => 127 | zw8e4 => 7 | zw8e5 => 15 | zw6 => 3 | zw4 => 2 | zw4b => 2 | zw6b => 3

def hasInf : Fmt → Bool
  | b32 => true | b16 => true | zw16 => true | _ => false

def hasNan : Fmt → Bool
  | zw6 => false | zw4 => false | zw4b => false | zw6b => false | _ => true

/-- Significand of the largest finite value, an integer of p bits at exponent emax - p + 1 (R77). -/
def maxSig : Fmt → Nat
  | zw8e4 => 14 | zw8e5 => 6 | f => 2 ^ f.prec - 1

/-- Shared exponents per 32 elements (R90). -/
def block : Fmt → Bool
  | zw4b => true | zw6b => true | _ => false

/-- The code of the largest finite value, or of a group's largest magnitude. -/
def maxCode (f : Fmt) (neg : Bool) : Nat :=
  let mag := match f with
    | b32 => 0x7F7FFFFF | b16 => 0x7BFF | zw16 => 0x7F7F | zw8e4 => 0x7E | zw8e5 => 0x7E
    | zw6 => 0x1F | zw6b => 0x1F | zw4 => 7 | zw4b => 7
  mag + neg.toNat * 2 ^ (f.width - 1)

/-- The canonical NaN (R81), or the +0 that stands for a NaN in a format without one (R99). -/
def nanCode : Fmt → Nat
  | b32 => 0x7FC00000 | b16 => 0x7E00 | zw16 => 0x7FC0 | zw8e4 => 0x7F | zw8e5 => 0x7F | _ => 0

def infCode (f : Fmt) (neg : Bool) : Nat :=
  (2 ^ f.ebits - 1) * 2 ^ f.fbits + neg.toNat * 2 ^ (f.width - 1)

def zeroCode (f : Fmt) (neg : Bool) : Nat := neg.toNat * 2 ^ (f.width - 1)

/-- R76, R84-R89: the value of an element code (before any shared exponent). -/
def decode (f : Fmt) (c : Nat) : Num :=
  let c := c % 2 ^ f.width
  let neg := c.testBit (f.width - 1)
  let e := (c / 2 ^ f.fbits) % 2 ^ f.ebits
  let fr := c % 2 ^ f.fbits
  let top := e = 2 ^ f.ebits - 1
  if f.hasInf && top && fr == 0 then .inf neg
  else if f.hasInf && top then .nan (!(fr.testBit (f.fbits - 1)))
  else if (f == zw8e4 || f == zw8e5) && top && fr == 2 ^ f.fbits - 1 then .nan false
  else if e = 0 then .fin neg fr (f.emin - f.fbits)
  else .fin neg (fr + 2 ^ f.fbits) ((e : Int) - f.bias - f.fbits)

/-- The format whose elements a block form packs. -/
def elem : Fmt → Fmt
  | zw4b => zw4 | zw6b => zw6 | f => f

end Fmt

namespace Num

def isNan : Num → Bool | .nan _ => true | _ => false
def isSnan : Num → Bool | .nan s => s | _ => false
def isInf : Num → Bool | .inf _ => true | _ => false
def isZero : Num → Bool | .fin _ 0 _ => true | _ => false
def isFin : Num → Bool | .fin _ _ _ => true | _ => false
def neg : Num → Bool | .nan _ => false | .inf s => s | .fin s _ _ => s
def zero : Num := .fin false 0 0
def one : Num := .fin false 1 0

/-- Multiplication by a power of two, exact and unbounded (R96 step 2). -/
def scale (x : Num) (k : Int) : Num := match x with | .fin s m e => .fin s m (e + k) | x => x

def flip : Num → Num
  | .nan s => .nan s | .inf s => .inf (!s) | .fin s m e => .fin (!s) m e

def abs : Num → Num
  | .nan s => .nan s | .inf _ => .inf false | .fin _ m e => .fin false m e

/-- The signed integer significand at exponent `q` at most the value's own. -/
def sigAt (x : Num) (q : Int) : Int :=
  match x with
  | .fin s m e => let v : Int := ((m <<< (e - q).toNat : Nat) : Int); if s then -v else v
  | _ => 0

def expOf : Num → Int | .fin _ _ e => e | _ => 0

/-- Exact sum; the sign of an exact zero follows IEEE 754 for the rounding mode. -/
def add (rnd : Rnd) (x y : Num) : Num :=
  match x, y with
  | .nan _, _ => .nan false
  | _, .nan _ => .nan false
  | .inf a, .inf b => if a = b then .inf a else .nan false
  | .inf a, _ => .inf a
  | _, .inf b => .inf b
  | .fin a m e, .fin b n f =>
    if m = 0 ∧ n = 0 then .fin (if a = b then a else decide (rnd = .rdn)) 0 0
    else if m = 0 then .fin b n f
    else if n = 0 then .fin a m e
    else
      let q := min e f
      let v := sigAt (.fin a m e) q + sigAt (.fin b n f) q
      if v = 0 then .fin (decide (rnd = .rdn)) 0 0 else .fin (decide (v < 0)) v.natAbs q

/-- Exact product. -/
def mul (x y : Num) : Num :=
  match x, y with
  | .nan _, _ => .nan false
  | _, .nan _ => .nan false
  | .inf a, .inf b => .inf (a != b)
  | .inf a, .fin b n _ => if n = 0 then .nan false else .inf (a != b)
  | .fin a m _, .inf b => if m = 0 then .nan false else .inf (a != b)
  | .fin a m e, .fin b n f => .fin (a != b) (m * n) (e + f)

/-- Invalid operation of a product: a signalling NaN, or zero times infinity. -/
def mulInvalid (x y : Num) : Bool :=
  x.isSnan || y.isSnan || (x.isZero && y.isInf) || (x.isInf && y.isZero)

def addInvalid (x y : Num) : Bool :=
  x.isSnan || y.isSnan || (x.isInf && y.isInf && x.neg != y.neg)

/-- x < y for numbers that are not NaN. -/
def lt (x y : Num) : Bool :=
  match x, y with
  | .nan _, _ => false
  | _, .nan _ => false
  | .inf a, .inf b => a && !b
  | .inf a, _ => a
  | _, .inf b => !b
  | .fin a m e, .fin b n f =>
    let q := min e f
    decide (sigAt (.fin a m e) q < sigAt (.fin b n f) q)

def eq (x y : Num) : Bool := !x.isNan && !y.isNan && !lt x y && !lt y x

def le (x y : Num) : Bool := lt x y || eq x y

end Num

/-- An integer significand `n` at exponent `q` with what was lost. -/
structure Rounded where
  n : Nat
  q : Int
  inexact : Bool
  deriving DecidableEq, Repr

/-- Bits of a number. -/
def bitLen (m : Nat) : Nat := if m = 0 then 0 else Nat.log2 m + 1

/-- Round the magnitude m × 2^e (plus, with `sticky`, something below one unit of m) to p significant bits, no finer than
the spacing of exponent `emin`, exponents unbounded above (R96). `u` is the draw of R97. -/
def roundMag (p : Nat) (emin : Int) (rnd : Rnd) (neg : Bool) (u : Nat) (m : Nat) (e : Int) (sticky : Bool) : Rounded :=
  let q := max ((bitLen m : Int) - 1 + e) emin - (p : Int) + 1
  if q ≤ e then
    let n := m <<< (e - q).toNat
    let up := sticky && (match rnd with | .rup => !neg | .rdn => neg | _ => false)
    ⟨if up then n + 1 else n, q, sticky⟩
  else
    let sh := min (q - e).toNat (bitLen m + 20)
    let n := m >>> sh
    let rem := m % 2 ^ sh
    let lost := rem != 0 || sticky
    let up := match rnd with
      | .rne => decide (2 * rem > 2 ^ sh) || (decide (2 * rem = 2 ^ sh) && (sticky || n % 2 == 1))
      | .rtz => false
      | .rup => lost && !neg
      | .rdn => lost && neg
      | .sr => decide (u < rem * 65536 / 2 ^ sh)
    ⟨if up then n + 1 else n, q, lost⟩

/-- Does n × 2^q exceed the largest finite value of f? -/
def exceeds (f : Fmt) (n : Nat) (q : Int) : Bool :=
  let qm := f.emax - f.prec + 1
  if n = 0 then false
  else if (bitLen n : Int) + q > f.emax + 2 then true
  else if (bitLen n : Int) + q < f.emax then false
  else if q ≤ qm then decide (n > f.maxSig <<< (qm - q).toNat) else decide (n <<< (q - qm).toNat > f.maxSig)

/-- The code of n × 2^q, in range, where n × 2^q is on f's grid. -/
def encodeMag (f : Fmt) (neg : Bool) (n : Nat) (q : Int) : Nat :=
  let s := neg.toNat * 2 ^ (f.width - 1)
  if n = 0 then s
  else
    let ex := (bitLen n : Int) - 1 + q
    if ex < f.emin then s + (n <<< (q - (f.emin - f.fbits)).toNat)
    else
      let d := q - (ex - f.fbits)
      let sig := if 0 ≤ d then n <<< d.toNat else n >>> (-d).toNat
      s + (ex + f.bias).toNat * 2 ^ f.fbits + (sig - 2 ^ f.fbits)

/-- What a conversion of one element gives. -/
structure Conv where
  code : Nat
  /-- a finite value's rounded magnitude exceeds the largest finite value (R98); `code` is then the saturated one -/
  ovf : Bool
  /-- an infinite source was saturated (R99) -/
  satInf : Bool
  isNan : Bool
  inexact : Bool
  deriving DecidableEq, Repr

/-- Convert an exact value (already scaled) into f: R96 step 3, R97, R98 with the saturated code, R99. -/
def convSticky (f : Fmt) (rnd : Rnd) (u : Nat) (x : Num) (sticky : Bool) : Conv :=
  match x with
  | .nan _ => ⟨f.nanCode, false, false, true, false⟩
  | .inf s => if f.hasInf then ⟨f.infCode s, false, false, false, false⟩ else ⟨f.maxCode s, false, true, false, false⟩
  | .fin s m e =>
    if m = 0 ∧ sticky = false then ⟨f.zeroCode s, false, false, false, false⟩
    else
      let r := roundMag f.prec f.emin rnd s u m e sticky
      let t := roundMag f.prec f.emin .rtz s u m e sticky
      let tooBig := exceeds f r.n r.q || (rnd == .sr && exceeds f (2 * t.n + t.inexact.toNat) (t.q - 1))
      if tooBig then ⟨f.maxCode s, true, false, false, true⟩
      else ⟨encodeMag f s r.n r.q, false, false, false, r.inexact⟩

def convert (f : Fmt) (rnd : Rnd) (u : Nat) (x : Num) : Conv := convSticky f rnd u x false

/-- Round an exact result into an IEEE-like format with its flags (R78, R82): overflow to the mode's result, tininess
after rounding. -/
def roundIeee (f : Fmt) (rnd : Rnd) (u : Nat) (x : Num) (sticky : Bool) : Nat × FpFlags :=
  match x with
  | .fin s m e =>
    let c := convSticky f rnd u x sticky
    if c.ovf then
      let toInf := match rnd with | .rtz => false | .rup => !s | .rdn => s | _ => true
      (if toInf then f.infCode s else f.maxCode s, { ovf := true, inx := true })
    else
      let r := roundMag f.prec (-100000000) rnd s u m e sticky
      let tiny := decide ((bitLen r.n : Int) - 1 + r.q < f.emin)
      (c.code, { unf := tiny && c.inexact && (m != 0 || sticky), inx := c.inexact })
  | x => ((convert f rnd u x).code, {})

def invalidFlag (b : Bool) : FpFlags := { inv := b }

namespace Ieee

def add (f : Fmt) (rnd : Rnd) (u : Nat) (x y : Num) : Nat × FpFlags :=
  let r := roundIeee f rnd u (Num.add rnd x y) false
  (r.1, r.2.or (invalidFlag (Num.addInvalid x y)))

def mul (f : Fmt) (rnd : Rnd) (u : Nat) (x y : Num) : Nat × FpFlags :=
  let r := roundIeee f rnd u (Num.mul x y) false
  (r.1, r.2.or (invalidFlag (Num.mulInvalid x y)))

/-- fusedMultiplyAdd; zero times infinity is invalid whatever z is (R78). -/
def fma (f : Fmt) (rnd : Rnd) (u : Nat) (x y z : Num) : Nat × FpFlags :=
  let p := Num.mul x y
  let r := roundIeee f rnd u (Num.add rnd p z) false
  (r.1, r.2.or (invalidFlag (Num.mulInvalid x y || z.isSnan || (!p.isNan && Num.addInvalid p z))))

/-- Integer square root by binary digits, from bit k - 1 down. -/
def isqrt (m : Nat) : Nat → Nat → Nat
  | 0, r => r
  | k + 1, r => let t := r + 2 ^ k; isqrt m k (if t * t ≤ m then t else r)

/-- Exact root with enough bits for one correct rounding: value and sticky. -/
def sqrtExact (m : Nat) (e : Int) : Num × Bool :=
  let grow := 200 + (if (e - 200) % 2 = 0 then 0 else 1)
  let mm := m <<< grow
  let r := isqrt mm (bitLen mm / 2 + 1) 0
  (.fin false r ((e - grow) / 2), r * r != mm)

def sqrt (f : Fmt) (rnd : Rnd) (u : Nat) (x : Num) : Nat × FpFlags :=
  match x with
  | .nan s => (f.nanCode, { inv := s })
  | .inf true => (f.nanCode, { inv := true })
  | .inf false => (f.infCode false, {})
  | .fin s m e =>
    if m = 0 then (f.zeroCode s, {})
    else if s then (f.nanCode, { inv := true })
    else let r := sqrtExact m e; roundIeee f rnd u r.1 r.2

/-- Code of an exact value already on f's grid (a minimum, maximum, negation). -/
def exactCode (f : Fmt) (x : Num) : Nat := (convert f .rne 0 x).code

/-- Order for minimum and maximum, where -0 is below +0. -/
def below (x y : Num) : Bool := x.lt y || (x.isZero && y.isZero && x.neg && !y.neg)

def minimum (f : Fmt) (x y : Num) : Nat × FpFlags :=
  if x.isNan || y.isNan then (f.nanCode, { inv := x.isSnan || y.isSnan })
  else (exactCode f (if below y x then y else x), {})

def maximum (f : Fmt) (x y : Num) : Nat × FpFlags :=
  if x.isNan || y.isNan then (f.nanCode, { inv := x.isSnan || y.isSnan })
  else (exactCode f (if below x y then y else x), {})

def numOf (op : Fmt → Num → Num → Nat × FpFlags) (f : Fmt) (x y : Num) : Nat × FpFlags :=
  let inv : FpFlags := { inv := x.isSnan || y.isSnan }
  if x.isNan && y.isNan then (f.nanCode, inv)
  else if x.isNan then (exactCode f y, inv)
  else if y.isNan then (exactCode f x, inv)
  else op f x y

/-- The quiet comparisons, 1.0 or +0 (R155). -/
def cmp (test : Num → Num → Bool) (f : Fmt) (x y : Num) : Nat × FpFlags :=
  (if test x y then exactCode f .one else 0, { inv := x.isSnan || y.isSnan })

def unordered (x y : Num) : Bool := x.isNan || y.isNan

end Ieee

-- binary32 operations under round-to-nearest-even on codes, as the epilogue, the partial sums and the carding engine
-- use them (R44, R137, R281).
namespace B32

def dec (c : Nat) : Num := Fmt.b32.decode c
def rnd (x : Num) : Nat := (roundIeee .b32 .rne 0 x false).1
def add (a b : Nat) : Nat := (Ieee.add .b32 .rne 0 (dec a) (dec b)).1
def mul (a b : Nat) : Nat := (Ieee.mul .b32 .rne 0 (dec a) (dec b)).1
def fma (a b c : Nat) : Nat := (Ieee.fma .b32 .rne 0 (dec a) (dec b) (dec c)).1
def sub (a b : Nat) : Nat := (Ieee.add .b32 .rne 0 (dec a) (dec b).flip).1
def negate (a : Nat) : Nat := a ^^^ 0x80000000
def isNan (a : Nat) : Bool := (dec a).isNan

end B32

end Sys2Proof.Machine
end

