-- ==== Sys2Proof/Machine/Types.lean ====
section
/-! DEFINITION. The pieces of state of the module's control: start, board, log, command windows, jobs, host interface. -/

namespace Sys2Proof.Machine

/-- MSTATE (R352). -/
inductive MState where
  | powering | booting | training | ready | tripped | restarting
  deriving DecidableEq, Repr

/-- The MSTATE byte (R352). -/
def MState.code : MState → Nat
  | .powering => 0 | .booting => 1 | .training => 2 | .ready => 3 | .tripped => 4 | .restarting => 5

/-- PSTATE (R352). -/
inductive PState where
  | off | idle | opening | running | resetting | scrubbing | failed
  deriving DecidableEq, Repr

/-- The PSTATE byte (R352). -/
def PState.code : PState → Nat
  | .off => 0 | .idle => 1 | .opening => 2 | .running => 3 | .resetting => 4 | .scrubbing => 5 | .failed => 6

/-- How far a start has gone (R478, R480, R481, R519). -/
inductive Phase where
  /-- No start is under way or done. -/
  | none
  /-- t2 reached; PERST_N low holds the start there (R519). -/
  | heldT2
  /-- t3 reached: the image is applied. -/
  | training
  /-- t6 reached. -/
  | ready
  | recovery
  | romHold
  deriving DecidableEq, Repr

/-- What an image fixes for one start (R469, R470, R474). -/
structure Image where
  dev : Bool
  npart : Nat
  track : Bool
  tsize : List Nat
  coord : BitVec 16
  dtmo : List Nat
  krng : List (Nat × Nat)
  sched : List Nat
  allow : List Nat
  roots : List Bytes
  rootsDigest : Bytes
  torusDigest : Bytes
  svn : Nat
  gen : Nat
  mfw : Bytes
  mimg : Bytes
  deriving DecidableEq, Repr

/-- An NVM_STAGE between its passes (R486): the command, and length and digest of the image it verified. -/
structure Stage where
  seq : Nat
  len : Nat
  digest : Bytes
  deriving DecidableEq, Repr

/-- Start-up, fuses and flash (16). -/
structure Boot where
  mstate : MState
  phase : Phase
  /-- The applied image (R478 t3); none before a start applies one. -/
  image : Option Image
  /-- The image chosen at t2 and not yet applied. -/
  chosen : Option Image
  /-- The active slot: 1 A, 2 B, 0 none (R477, R488). -/
  slot : Nat
  /-- In recovery: the slot an NVM_STAGE writes and the GEN it takes (R481). -/
  recSlot : Nat
  recGen : Nat
  reasonA : Nat
  reasonB : Nat
  mrom : Bytes
  /-- Serial NOR flash, erased bytes unlisted (R465). -/
  flash : Mem
  /-- Anti-rollback fuse steps, bit i blown (R483). -/
  fuses : BitVec 64
  fBefore : Nat
  /-- Steps of the advance under way that have been tried at this start (R484). -/
  fuseTried : Nat
  /-- The NVM_STAGE under way (R486). -/
  stage : Option Stage
  /-- Core voltage of each row in mV, fused at manufacture (R416). -/
  vcore : Vector Nat 8
  /-- The die's manufacturing-test fuse state is open (R53). -/
  testOpen : Bool
  /-- The fused identity seed (R388, R466). -/
  seed : Bytes
  /-- The module's ML-DSA-65 public key (R372), and the private key while the Jewel's SRAM holds it (R388). -/
  dpk : Bytes
  dsk : Option Bytes
  /-- The identity key has been derived since VAUX rose (R526 SERIAL). -/
  derived : Bool
  certChain : Bytes
  certOk : Bool
  scount : Nat
  ridx : Nat
  /-- Bytes 12-39 of the latest boot record in clear, and its RIDX (R526). -/
  lastRecord : Bytes
  lastRidx : Nat
  /-- CAUSE of the start under way or the last one, and of the next (R488). -/
  cause : Nat
  nextCause : Nat
  deriving DecidableEq, Repr

/-- One entry of an error log (R451). -/
structure LogEntry where
  code : Nat
  src : Nat
  ch : Nat
  pin : Bool
  abs : Bool
  drop : Bool
  eno : Nat
  epis : Nat
  detail : Nat
  cyc : Nat
  deriving DecidableEq, Repr

/-- An open handling episode (R447): its level and the commands that met its errors and have no record yet. -/
structure Episode where
  level : Nat
  cmds : List (Bool × Nat)
  deriving DecidableEq, Repr

/-- An entry waiting in the queue of a log, with what R452 needs of it. -/
structure LogWait where
  entry : LogEntry
  opens : Bool
  preempts : Bool
  deriving DecidableEq, Repr

/-- An error log of 64 entries with its queue (R451-R453). -/
structure ErrLog where
  entries : List (Nat × LogEntry)
  /-- Number of entries written to the rotating part, so that the next goes to 1 + n mod 63. -/
  written : Nat
  queue : List LogWait
  eno : Nat
  epis : Nat
  episode : Option Episode
  errCnt : Nat
  drop : Bool
  deriving DecidableEq, Repr

def ErrLog.empty : ErrLog := ⟨[], 0, [], 0, 0, none, 0, false⟩

/-- A row monitor (R428): HIGH and LOW, and the consecutive samples for and against each. -/
structure RowMon where
  high : Bool
  low : Bool
  hiFor : Nat
  hiNot : Nat
  loFor : Nat
  loNot : Nat
  deriving DecidableEq, Repr

def RowMon.fresh : RowMon := ⟨false, false, 0, 0, 0, 0⟩

/-- What the board and the VAUX domain keep (14, 18). -/
structure Board where
  inputPower : Bool
  vauxOk : Bool
  /-- VAUX has been out of regulation; the reset hold of R418 is on. -/
  vauxHold : Bool
  slotId : BitVec 5
  railCore : Vector Bool 8
  railMem : Vector Bool 8
  railPeri : Bool
  railOpt : Bool
  /-- The rails are up and PWR_GOOD is high. -/
  pwrGood : Bool
  modEnable : Bool
  perstN : Bool
  underVolt : Bool
  overVolt : Bool
  overCurrent : Bool
  /-- MOD_ENABLE has been validly deasserted since the latch was set (R517). -/
  ocReleased : Bool
  tripLatch : Bool
  tripKind : Nat
  tripIdx : Nat
  tripWait : Bool
  restartHold : Bool
  /-- The ROM hold (R480), and MOD_ENABLE validly deasserted since it was set. -/
  romHold : Bool
  romReleased : Bool
  perstReset : Bool
  stormHold : Bool
  railsRested : Bool
  oscLost : Bool
  /-- VAUX counts of the valid resets of the last second (R521). -/
  resetTimes : List Nat
  /-- VAUX counts of the module restarts of the last 600 s (R462). -/
  restartTimes : List Nat
  lastCause : Nat
  /-- The MFATAL code whose restart has not ended (t0 reached, t3 not yet). -/
  restarting : Option Nat
  /-- The restart or trip whose MRST entries are still to be written after pouncing (R453): cause code, trip flag. -/
  mrst : Option (Nat × Bool)
  dieTemp : Vector (Option Int) 68
  pkgTemp : Vector (Option Int) 64
  pkgUnread : Vector Nat 64
  pkgIgnored : Vector Bool 64
  /-- VAUX count of the last valid transition of MOD_ENABLE or PERST_N (R521). -/
  lastEdge : Nat
  rows : Vector RowMon 8
  /-- What the last SMBus transaction returned: data bytes and PEC, or none for a transaction not acknowledged. -/
  smbus : Option Bytes
  deriving DecidableEq, Repr

/-- Island counts that do not belong to one partition, tile or port (R19, R434). -/
structure Clocks where
  hostIf : Nat
  jewel : Nat
  carding : Nat
  phy : Nat
  /-- The spine island's count (R19). -/
  spine : Nat
  vaux : Nat
  deriving DecidableEq, Repr

/-- A command as its header lays it out (R322). -/
structure Cmd where
  seq : Nat
  opc : Nat
  tmo : Nat
  flags : Nat
  job : Nat
  tag : Nat
  wait : List Nat
  cpl : Nat
  arg0 : Nat
  arg1 : Nat
  arg2 : Nat
  arg3 : Nat
  deriving DecidableEq, Repr

/-- An entry of the in-flight table (R319). -/
structure InFlight where
  cmd : Cmd
  urgent : Bool
  /-- The sequencer count at which it started (R325). -/
  started : Option Nat
  /-- Highest class met so far (R335). -/
  cls : Nat
  /-- Some written data were poisoned (R335). -/
  poisoned : Bool
  /-- The status it will complete with at the end of a partition reset (R336). -/
  ends : Option Nat
  /-- Longest ring wait of its discarded bucket entry, for its record (R312, R332). -/
  maxw : Nat
  deriving DecidableEq, Repr

/-- The tag table's states (R329). -/
inductive TagState where
  | pending | done | failed
  deriving DecidableEq, Repr

/-- A command window with its sequencer's registers (R315, R316, R352). -/
structure Window where
  /-- Bytes 0-63,487: the slots, as the host last wrote them. -/
  slots : Mem
  mcur : Nat
  ucur : Nat
  mexp : Nat
  uexp : Nat
  mseq : Nat
  useq : Nat
  badSlot : Nat
  badSeq : Nat
  table : List InFlight
  tags : List (Nat × TagState)
  /-- Main commands completed with a status other than OK since the last FENCE or JOB_OPEN (R330). -/
  fenceCnt : Nat
  deriving DecidableEq, Repr

def Window.empty : Window := ⟨[], 0, 0, 1, 1, 0, 0, 0, 0, [], [], 0⟩

/-- A Jewel-class command in service: windows left, and its outcome once known (R363). -/
structure Service where
  seq : Nat
  opc : Nat
  left : Nat
  outcome : Option (Nat × Nat × Nat)
  deriving DecidableEq, Repr

/-- What a device-initiated write is, by the precedence of R497. -/
inductive ReqKind where
  | record | tag | other
  deriving DecidableEq, Repr

/-- Whose work a host request is. -/
inductive Owner where
  | command (urgent : Bool) (seq : Nat)
  | tileDma (t : TileId) (op : Nat)
  | copy (seq : Nat)
  | checkpoint
  | restore
  /-- The poisoning of a granule that a checkpoint has still to copy (R400). -/
  | poison
  | lossRecord (seq : Nat)
  deriving DecidableEq, Repr

/-- A command's own requests: the object it reads, what it writes. -/
def Owner.isCommand : Owner → Bool
  | .command _ _ => true
  | _ => false

/-- A posted write not yet issued. -/
structure HostWrite where
  kind : ReqKind
  addr : Nat
  data : Bytes
  owner : Owner
  /-- A chunk's ciphertext: its stream, with the EPOCH and HW the stream has once it is issued (R222). -/
  accept : Option (Nat × Nat × Nat)
  deriving DecidableEq, Repr

/-- A read request of the module: a whole chunk is a pair of them under one `chunk` (R223). -/
structure HostRead where
  id : Nat
  addr : Nat
  len : Nat
  owner : Owner
  chunk : Nat
  isTag : Bool
  /-- The request that carries it: tags of consecutive chunks share one (R497). -/
  issued : Option Nat
  got : Option Bytes
  deriving DecidableEq, Repr

/-- A function's DMA: Bus Master Enable, what waits to be issued, and a function-level reset in progress (R497-R502). -/
structure Dma where
  bme : Bool
  writes : List HostWrite
  reads : List HostRead
  /-- The function does not answer until t3 of its function-level reset. -/
  flr : Bool
  /-- The requester served last with a write and with a read: the next in turn follows it (R21, R240). -/
  lastW : Nat
  lastR : Nat
  deriving DecidableEq, Repr

def Dma.empty : Dma := ⟨false, [], [], false, 0, 0⟩

/-- What the module has put on the link, newest last. -/
inductive HostOut where
  | write (f : Fn) (addr : Nat) (data : Bytes)
  | read (f : Fn) (id : Nat) (addr len : Nat)
  deriving DecidableEq, Repr

/-- The host interface (17). -/
structure HostIf where
  linkUp : Bool
  rate : Nat
  width : Nat
  mps : Nat
  /-- Credit rate B, fixed at link-up (R496). -/
  credit : Nat
  numVfs : Nat
  vfEnable : Bool
  /-- Next write and read slot of the sequences, and of the physical function's own pacing; the count at link-up (R496, R497). -/
  wslot : Nat
  rslot : Nat
  pfWslot : Nat
  pfRslot : Nat
  upAt : Nat
  nextId : Nat
  out : List HostOut
  /-- The functions in D3hot; every other one is in D0 (R490). No row of the table changes it. -/
  d3hot : List Fn
  deriving DecidableEq, Repr

/-- An entry of the stream table (R221) with the KSRC and PRESET of its binding (R345, R352). -/
structure Stream where
  sid : Nat
  preset : Bool
  owner : Nat
  ksrc : Nat
  dbase : Nat
  tbase : Nat
  epoch : Nat
  hw : Nat
  limit : Nat
  /-- HW and EPOCH as the ranges of dispatched descriptors will leave them (R222, R233). -/
  hwD : Nat
  epochD : Nat
  /-- The epochs of the stream have run out (R222). -/
  ended : Bool
  deriving DecidableEq, Repr

/-- The leader's record of one member (R377, R534, R254, R414, R411). -/
structure MemberRec where
  coord : BitVec 16
  announced : Bool
  nonce : Option Bytes
  joined : Bool
  /-- A KEYSET has been sent to it: the next one is a rejoining member's (R378). -/
  keyed : Bool
  report : Bytes
  eraCeil : Nat
  sidCeil : Nat
  restore : Option (Nat × Nat × Bytes × Bool)
  deriving DecidableEq, Repr

/-- The open job of a partition (12). -/
structure Job where
  num : Nat
  compact : Bytes
  mcomp : Bytes
  mprog : Bytes
  mpeer : Bytes
  /-- The free-value counter at the draw of its ML-KEM key pair. -/
  kemDraw : Nat
  jr : Option Bytes
  link : Option Bytes
  imports : List (Nat × Bytes)
  released : List Nat
  keySet : Bool
  lossN : Nat
  /-- Drop-out key of the compact, when present (R145). -/
  dropKey : Option Bytes
  members : List MemberRec
  /-- A member repeats OPENED until it receives CHALLENGE (R534). -/
  announcing : Bool
  /-- The nonce of the last CHALLENGE, and whether its report is still to be sent (R377 t1). -/
  nonce : Option Bytes
  owesReport : Bool
  /-- A member's own ceilings: acknowledged era ceiling and the raise awaiting acknowledgement (R254). -/
  eraCeil : Nat
  eraAsked : Option Nat
  sidCeil : Nat
  sidAsked : Option Nat
  /-- Highest chunk SID bits [12:0] bound, plus one (R346). -/
  sidNext : Nat
  /-- ESEQ counts, at 8 × VC + port (R253). -/
  eseq : List Nat
  /-- A KEYSET opened and not yet installed: its body, era floor and SID ceiling (R377 t4). -/
  keyset : Option (Bytes × Nat × Nat)
  deriving DecidableEq, Repr

/-- The reset of a partition under way (R457). -/
structure Reset where
  /-- The last event reached, 0 to 5. -/
  ev : Nat
  prior : PState
  start : Nat
  failed : Bool
  /-- A function-level reset's: commands write no records, and t2, t3 of R501 follow. -/
  flr : Bool
  /-- A function-level reset arrived during another's reset: it takes effect at t6 (R463). -/
  flrAfter : Bool
  deriving DecidableEq, Repr

/-- Pouncing under way (R381). -/
structure Pounce where
  deep : Bool
  start : Nat
  /-- The JOB_CLOSE that completes with it. -/
  close : Option Nat
  /-- A module start's pouncing. -/
  atStart : Bool
  deriving DecidableEq, Repr

/-- A copy under way (R347). -/
structure Copy where
  seq : Nat
  toDevice : Bool
  sid : Nat
  keyid : Nat
  tile : TileId
  ofs : Nat
  /-- First chunk, next chunk to be formed, and the end. -/
  chunk0 : Nat
  chunk : Nat
  chunkEnd : Nat
  len : Nat
  /-- The stream's HW before chunk0 is written: chunk0, or 0 in a new epoch; and that epoch. -/
  epoch : Nat
  /-- COPY_OUT: plaintext read so far, by offset in the copy. -/
  buf : Mem
  /-- A write of it met a frozen leaf (R206). -/
  failed : Bool
  deriving DecidableEq, Repr

end Sys2Proof.Machine
end

