-- ==== Sys2Proof/Machine/TypesSeal.lean ====
section
/-! DEFINITION. The pieces of state of the memory channels and the seal slices. -/

namespace Sys2Proof.Machine

/-- One memory channel (06). Its lines are kept as 72 symbols each: the symbol of codeword position j of line n lies at
`72 * n + j` (R170). A symbol not listed reads as `Chan.baseLine` says: a line nothing has written since the channel was
initialised is the zero codeword (R532), a line pouncing rewrote is what pouncing put there (R216, R381). -/
structure Chan where
  mem : Mem
  /-- Tile, channel and tree secret of the last pouncing (R216); none before one. It stands for the metadata lines that
  pouncing wrote, nothing more. -/
  tree : Option (Nat × Nat × Bytes)
  /-- Tile, channel and throwaway key of the last deep pouncing (R381): it stands for the keystream in the data window, nothing more. -/
  wiped : Option (Nat × Nat × Bytes)
  trained : Bool
  /-- 0 not failed; else the DETAIL of CHANF (R450). -/
  failed : Nat
  selfRefresh : Bool
  /-- Initialised since its memory rail last rose (R532). -/
  init : Bool
  /-- Corrected lines since module start, saturating at 24 bits (R352). -/
  corr : Nat
  /-- Corrected lines per pin in the current patrol pass (R176). -/
  pins : List Nat
  corrLogged : Bool
  degraded : Bool
  /-- Lines reported UNCORR, with the PHY count of each report (R176). -/
  uncorr : List (Nat × Nat)
  /-- The next line of the patrol (R175). -/
  patrol : Nat
  /-- Per-bank refresh commands issued since module start (R178). -/
  refreshes : Nat
  deriving DecidableEq, Repr

def Chan.fresh : Chan := ⟨[], none, none, false, 0, false, false, 0, List.replicate 24 0, false, false, [], 0, 0⟩

/-- The metadata lines of a tile (R191, R192, R194): leaf L, node (l, i), the tag line of granules 8g to 8g + 7 of channel k,
and the leaf-tag line n of channel k. -/
inductive MetaId where
  | leaf (l : Nat)
  | node (level i : Nat)
  | tagLine (k g : Nat)
  | leafTag (k n : Nat)
  deriving DecidableEq, Repr

/-- A line of the counter cache (R198). -/
structure CLine where
  id : MetaId
  data : Bytes
  dirty : Bool
  deriving DecidableEq, Repr

/-- A granule access waiting at a seal slice. -/
structure SealReq where
  /-- Tile offset divided by 512. -/
  gran : Nat
  keyid : Nat
  owner : Owner
  /-- The bytes of the granule it covers, `lo` to `hi - 1`. -/
  lo : Nat
  hi : Nat
  /-- For a write, the bytes for that range; for a read, none. -/
  data : Option Bytes
  /-- For a write, the lines of the granule that come from poisoned scratchpad lines (R210). -/
  psn : List Nat
  /-- Where the bytes belong in the owner's transfer. -/
  dest : Nat
  /-- Its descriptor writes every granule of the leaf (R205). -/
  wholeLeaf : Bool
  /-- Held behind a checkpoint's copying (R400). -/
  held : Bool
  /-- First granule and number of the range over which its transfer is ordered: its granule, or its record's slot (R63, R232). -/
  slot : Nat × Nat
  deriving DecidableEq, Repr

/-- One seal slice (07). -/
structure Seal where
  /-- Oldest first. -/
  reqs : List SealReq
  /-- The counter cache, most recently used first. -/
  cache : List CLine
  /-- Root updates requested and not acknowledged: level-5 index, new counter (R202). -/
  rootReqs : List (Nat × Nat)
  /-- Granule tag lines and leaf-tag lines read as UNCORR: their granules are poisoned, their leaves repaired, as they are
  next read (R208). -/
  badTags : List (Nat × Nat)
  badLeafTags : List (Nat × Nat)
  /-- Lost nodes, whose subtrees read as poisoned (R212). -/
  lost : List (Nat × Nat)
  /-- A wrap by one descriptor: leaf, its owner, the granules it has still to write with MINOR = 0 (R205). -/
  skips : List (Nat × Owner × List Nat)
  /-- The command whose request the slice is serving; none between requests. Errors met are its own (R335). -/
  who : Option (Bool × Nat)
  /-- Lines that the access being served uses: they stay in the cache until it is done. -/
  inUse : List MetaId
  /-- Granules that a checkpoint has read and whose units have still to enter its log (R400, R407). -/
  copying : List Nat
  deriving DecidableEq, Repr

def Seal.empty : Seal := ⟨[], [], [], [], [], [], [], none, [], []⟩

/-- A root-store entry: its 56-bit counter, and the bits of the stored 64 now in error (R195). -/
structure Root where
  ctr : Nat
  flips : BitVec 64
  deriving DecidableEq, Repr

end Sys2Proof.Machine
end

