-- ==== Sys2Proof/Machine/TypesTile.lean ====
section
/-! DEFINITION. The pieces of state of a tile: sequencer, engine queues, array, vector unit, escapement, debug. -/

namespace Sys2Proof.Machine

/-- A matrix operand as the array holds it: exact values with the block exponents applied and SCALE apart (R41, R44). -/
structure Operand where
  rows : Nat
  cols : Nat
  vals : List (List Num)
  scale : Int
  /-- NANP, SAT, POIS, SKIP of its panels, OR-ed (R24). -/
  flags : Nat
  /-- The contributor slots its panels carry. -/
  contribs : List Nat
  deriving DecidableEq, Repr

/-- A loop under way (R67). -/
structure LoopFrame where
  slot : Nat
  body : Nat
  iter : Nat
  count : Nat
  fl : Bool
  pairs : List Bytes
  deriving DecidableEq, Repr

/-- The four engines of R61. -/
inductive Engine where
  | array | vector | dma | mesh
  deriving DecidableEq, Repr

/-- A dispatched descriptor, resolved: every loop advance applied. -/
structure Op where
  id : Nat
  slot : Nat
  engine : Engine
  desc : Bytes
  /-- The EPILOGUE descriptor it names (R141). -/
  epi : Option Bytes
  /-- Iteration numbers of the enclosing loops, innermost first (R147). -/
  iters : List Nat
  /-- FIRST and LAST as they apply on this iteration (R67). -/
  first : Bool
  last : Bool
  /-- Reserved scratchpad ranges, address and length (R62). -/
  reads : List (Nat × Nat)
  writes : List (Nat × Nat)
  /-- A PASS whose partial sums are written and whose epilogue is to run; a VEC whose epilogue has run. -/
  half : Bool
  /-- Weights a WKEEP pass was dispatched on, once it has run (R119). -/
  weights : Option Operand
  /-- What a logged load found in the ranges it writes, and which of their lines were poisoned: a replay starts from it (R118). -/
  saved : List (Nat × Bytes)
  savedPsn : List Nat
  /-- Scratchpad lines delivered poisoned to it so far. -/
  psn : List Nat
  /-- Bytes gathered of a stash record being read back, the granules or chunks still wanted, and whether one failed
  (R234, R236). -/
  buf : Mem
  wanted : List Nat
  bad : Bool
  badQuiet : Bool
  deriving DecidableEq, Repr

/-- A pass sequence from the dispatch of its first pass to the completion of its LAST pass: its PSUM, what its input panels
carry (R24, R45), whether it is a binary16 sequence, whether its LAST pass has been dispatched, and the number of its first
pass (R119). -/
structure PassSeq where
  psum : Nat
  flags : Nat
  contribs : List Nat
  acc16 : Bool
  closed : Bool
  firstId : Nat
  deriving DecidableEq, Repr

/-- The pass last dispatched in the RUN, as WKEEP compares it, with the extent of its weights (R66). -/
structure PrevPass where
  waddr : Nat
  wfmt : Nat
  acc : Nat
  w2 : Bool
  split : Nat
  wrows : Nat
  wcols : Nat
  deriving DecidableEq, Repr

/-- One tile. -/
structure Tile where
  /-- Scratchpad, instruction memory, regulator store (R54, R59, R105). -/
  sp : Mem
  imem : Mem
  reg : Mem
  /-- Lines of the scratchpad with their poison bit set, rising (R210). -/
  poison : List Nat
  /-- 64-bit words with one or two bits in error: scratchpad word, slot of instruction memory, regulator word (R56, R105). -/
  spErr : List (Nat × Nat)
  imErr : List (Nat × Nat)
  rgErr : List (Nat × Nat)
  -- sequencer
  running : Bool
  pc : Nat
  loops : List LoopFrame
  step : Nat
  atEnd : Bool
  reported : Bool
  stopped : Option Nat
  /-- Holds dispatch at a checkpoint mark (R393). -/
  marked : Bool
  /-- The mark descriptors dispatched and not reached, oldest first: number, and STEP and TENSOR of the panel (R393). -/
  mark : List (Nat × Nat × Nat)
  nextOp : Nat
  ops : List Op
  -- array
  /-- The active weight registers, and the shadow ones that hold the next pass's weights (R37). -/
  kept : Option Operand
  shadow : Option Operand
  prevPass : Option PrevPass
  seqs : List PassSeq
  /-- Resolved DMA loads and binary16 passes (R119). -/
  rlog : List Op
  /-- PSUMs of sequences that overflowed and wait for their replay, in order (R117, R121). -/
  overflowed : List Nat
  /-- PSUMs of open sequences replayed: their remaining passes run with ACC = 00h. -/
  replayed : List Nat
  -- vector unit
  flags : FpFlags
  /-- Regulated IDs converted in this RUN (R107, R110). -/
  regUsed : List Nat
  /-- Regulated IDs named by a dispatched descriptor of this RUN, with its output STEP (R110). -/
  regSteps : List (Nat × Nat)
  -- escapement (R421-R425, R435)
  n : Nat
  /-- Factor k of R429 in 1/256. -/
  k : Nat
  droops : Nat
  /-- Bubbles owed by droop events. -/
  droopBubbles : Nat
  /-- Frequency step: 0 1.0 GHz, 1 1.05, 2 1.10, 3 1.15 (R435). -/
  freq : Nat
  /-- Estimate units accumulated since the last sample of the row monitor (R427). -/
  estSum : Nat
  -- debug (R500)
  halt : Bool
  stepReq : Bool
  bubbles : Nat
  bankcf : Nat
  ccmiss : Nat
  ewait : Nat
  count : Nat
  slice : Seal
  chans : Vector Chan 4
  deriving DecidableEq, Repr

def Tile.fresh : Tile :=
  { sp := [], imem := [], reg := [], poison := [], spErr := [], imErr := [], rgErr := [], running := false, pc := 0,
    loops := [], step := 0, atEnd := false, reported := false, stopped := none, marked := false, mark := [], nextOp := 0, ops := [],
    kept := none, shadow := none, prevPass := none, seqs := [], rlog := [], overflowed := [], replayed := [], flags := {}, regUsed := [], regSteps := [],
    n := 1024, k := 256, droops := 0, droopBubbles := 0, freq := 0, estSum := 0, halt := false, stepReq := false,
    bubbles := 0, bankcf := 0, ccmiss := 0, ewait := 0, count := 0, slice := Seal.empty, chans := Vector.replicate 4 Chan.fresh }

end Sys2Proof.Machine
end

