-- ==== Sys2Proof/Machine/Panel.lean ====
section
/-! DEFINITION. Panels and the scratchpad: headers (R23), geometry and placement (R57, R58), packing (R94), poison (R210). -/

namespace Sys2Proof.Machine

/-- A panel header (R23). ROWS and COLS are the numbers of rows and columns themselves. -/
structure PHdr where
  fmt : Nat
  scale : Int
  tensor : Nat
  bucket : Nat
  rows : Nat
  cols : Nat
  flags : Nat
  contrib : Nat
  step : Nat
  deriving DecidableEq, Repr

namespace PHdr

def parse (b : Bytes) : PHdr :=
  { fmt := byteAt b 15, scale := signed 8 (byteAt b 14), tensor := field b 12 2, bucket := field b 10 2,
    rows := byteAt b 9 + 1, cols := byteAt b 8 + 1, flags := byteAt b 7, contrib := byteAt b 6, step := field b 0 6 }

def bytes (h : PHdr) : Bytes :=
  leBytes 6 h.step ++ leBytes 1 h.contrib ++ leBytes 1 h.flags ++ leBytes 1 (h.cols - 1) ++ leBytes 1 (h.rows - 1) ++
    leBytes 2 h.bucket ++ leBytes 2 h.tensor ++ leBytes 1 (unsigned 8 h.scale) ++ leBytes 1 h.fmt

end PHdr

-- FLAGS bits of R23, by their weight in the flags byte.
def flNanp : Nat := 1
def flSat : Nat := 2
def flPois : Nat := 4
def flSkip : Nat := 8
def flNarw : Nat := 16
def flComp : Nat := 32
def flMark : Nat := 64

/-- The flags that combine by OR (R24): NANP, SAT, POIS, SKIP. -/
def combFlags (f : Nat) : Nat := f % 16

/-- CONTRIB of a panel made from inputs with these slots (R24). -/
def combContrib (cs : List Nat) : Nat :=
  match cs with
  | [] => 0xFF
  | c :: rest => if rest.all (· == c) then c else 0xFF

def roundUp (n k : Nat) : Nat := ceilDiv n k * k

/-- Data bytes of a row of n elements (R94). -/
def rowBytes (f : Fmt) (n : Nat) : Nat := ceilDiv (f.width * n) 8

/-- Bytes of a row with its padding (R57). -/
def rowPitch (f : Fmt) (n : Nat) : Nat := roundUp (rowBytes f n) 64

/-- Bytes of a panel's block of shared exponents, without padding (R57, R90). -/
def expBytes (f : Fmt) (weight : Bool) (rows cols : Nat) : Nat :=
  if f.block then (if weight then ceilDiv rows 32 * cols else rows * ceilDiv cols 32) else 0

/-- Bytes of a panel's data lines (R57). -/
def dataBytes (f : Fmt) (weight : Bool) (rows cols : Nat) : Nat :=
  rows * rowPitch f cols + roundUp (expBytes f weight rows cols) 64

/-- Bytes of a panel with its header line. -/
def panelBytes (f : Fmt) (weight : Bool) (rows cols : Nat) : Nat := 64 + dataBytes f weight rows cols

/-- Element i of a packed row (R83, R84, R94). -/
def unpackElem (f : Fmt) (row : Bytes) (i : Nat) : Nat :=
  match f with
  | .b32 => field row (4 * i) 4
  | .b16 | .zw16 => field row (2 * i) 2
  | .zw8e4 | .zw8e5 => byteAt row i
  | .zw6 | .zw6b => bits (field row (3 * (i / 4)) 3) (6 * (i % 4) + 5) (6 * (i % 4))
  | .zw4 | .zw4b => (byteAt row (i / 2) >>> (4 * (i % 2))) % 16

/-- A packed row of elements, without padding. -/
def packRow (f : Fmt) (codes : List Nat) : Bytes :=
  match f with
  | .b32 => (codes.map (leBytes 4)).flatten
  | .b16 | .zw16 => (codes.map (leBytes 2)).flatten
  | .zw8e4 | .zw8e5 => (codes.map (leBytes 1)).flatten
  | .zw6 | .zw6b =>
    (((chunksOf 4 codes.length codes).map fun g => leBytes 3 (g.foldr (fun c a => c + 64 * a) 0)).flatten).take
      (rowBytes f codes.length)
  | .zw4 | .zw4b => ((chunksOf 2 codes.length codes).map fun g => leBytes 1 (g.foldr (fun c a => c + 16 * a) 0)).flatten

/-- A line of a sorted set of line numbers. -/
def setInsert (x : Nat) : List Nat → List Nat
  | [] => [x]
  | y :: ys => if x < y then x :: y :: ys else if x = y then y :: ys else y :: setInsert x ys

/-- Line numbers touched by a byte range. -/
def linesOf (addr len : Nat) : List Nat :=
  if len = 0 then [] else (List.range ((addr + len - 1) / 64 + 1 - addr / 64)).map (· + addr / 64)

namespace Tile

/-- Is a line of the range poisoned? -/
def poisoned (t : Tile) (addr len : Nat) : Bool :=
  if len = 0 then false else t.poison.any fun l => decide (addr / 64 ≤ l) && decide (l ≤ (addr + len - 1) / 64)

/-- Write scratchpad bytes: any write to a line clears its poison bit (R210). -/
def spWrite (t : Tile) (addr : Nat) (bs : Bytes) : Tile :=
  if bs.length = 0 then t else
  { t with sp := t.sp.write addr bs,
           poison := t.poison.filter fun l => decide (l < addr / 64) || decide ((addr + bs.length - 1) / 64 < l),
           spErr := t.spErr.filter fun e => decide (8 * e.1 + 8 ≤ addr) || decide (addr + bs.length ≤ 8 * e.1) }

/-- Deliver a poisoned range: zeros with the poison bit of every line set (R210). -/
def spPoison (t : Tile) (addr len : Nat) : Tile :=
  let t := t.spWrite addr (zeros len)
  { t with poison := (linesOf addr len).foldl (fun p l => setInsert l p) t.poison }

/-- Words in error within a range: corrected ones, uncorrectable ones (R56). -/
def spErrs (t : Tile) (rs : List (Nat × Nat)) (two : Bool) : List Nat :=
  (t.spErr.filter fun e => (decide (e.2 ≥ 2) == two) && rs.any fun r => decide (8 * e.1 < r.1 + r.2) && decide (r.1 < 8 * e.1 + 8)).map
    (fun e => 8 * e.1)

end Tile

/-- One panel of a grid as it lies in scratchpad; `hdr` is none where its header line is poisoned. -/
structure PanelAt where
  addr : Nat
  rows : Nat
  cols : Nat
  fmt : Fmt
  hdr : Option PHdr
  deriving DecidableEq, Repr

/-- Extents of the panels of a rows × cols operand, by rows of panels (R58). -/
def gridShape (rows cols : Nat) : List (Nat × Nat) :=
  ((List.range (ceilDiv rows 256)).map fun pr =>
    (List.range (ceilDiv cols 256)).map fun pc => (min 256 (rows - 256 * pr), min 256 (cols - 256 * pc))).flatten

/-- Place the panels of an operand; a readable header gives its own format, a poisoned one takes `dflt` (R531). -/
def walkGrid (t : Tile) (weight : Bool) (dflt : Fmt) : Nat → List (Nat × Nat) → List PanelAt
  | _, [] => []
  | addr, (r, c) :: rest =>
    let hdr := if t.poisoned addr 16 then none else some (PHdr.parse (t.sp.read addr 16))
    let f := (hdr.bind fun h => Fmt.ofCode h.fmt).getD dflt
    ⟨addr, r, c, f, hdr⟩ :: walkGrid t weight dflt (addr + panelBytes f weight r c) rest

/-- The operand's panels agree with its extent, in rows and in columns as far as readable headers or the descriptor give it
(`rows`, `cols`: R531), and carry valid formats, `fmt` where one is named (R66, R75, R154). -/
def gridOk (ps : List PanelAt) (fmt : Option Fmt) (rows cols : Bool := true) : Bool :=
  ps.all fun p => match p.hdr with
    | none => true
    | some h => (!rows || h.rows == p.rows) && (!cols || h.cols == p.cols) &&
        (match fmt with | some f => h.fmt == f.code | none => (Fmt.ofCode h.fmt).isSome)

/-- All readable panels of the operand carry one SCALE (R66). -/
def gridOneScale (ps : List PanelAt) : Bool :=
  match ps.filterMap (·.hdr) with
  | [] => true
  | h :: hs => hs.all (·.scale == h.scale)

def gridScale (ps : List PanelAt) : Int := match ps.filterMap (·.hdr) with | [] => 0 | h :: _ => h.scale

def gridHdrPoisoned (ps : List PanelAt) : Bool := ps.any (·.hdr.isNone)

/-- The range of a grid (R62). -/
def gridRange (weight : Bool) (ps : List PanelAt) : Nat × Nat :=
  match ps with
  | [] => (0, 0)
  | p :: _ => (p.addr, (ps.map fun q => panelBytes q.fmt weight q.rows q.cols).foldl (· + ·) 0)

/-- The place of a VEC source or auxiliary operand whose first headers may be poisoned: the format of its first readable
panel, or `dflt` (R531). -/
def walkFree (t : Tile) (dflt : Fmt) (addr rows cols : Nat) : List PanelAt :=
  let shape := gridShape rows cols
  let try1 (f : Fmt) : Option (List PanelAt) :=
    let ps := walkGrid t false f addr shape
    match ps.filterMap (·.hdr) with
    | h :: _ => if h.fmt == f.code then some ps else none
    | [] => none
  (([.b32, .b16, .zw16, .zw8e4, .zw8e5, .zw6, .zw4, .zw4b, .zw6b] : List Fmt).findSome? try1).getD (walkGrid t false dflt addr shape)

/-- The exact values of a panel, block exponents applied, SCALE not (R90, R41). -/
def panelVals (t : Tile) (weight : Bool) (p : PanelAt) : List (List Num) :=
  let pitch := rowPitch p.fmt p.cols
  let eb := t.sp.read (p.addr + 64 + p.rows * pitch) (expBytes p.fmt weight p.rows p.cols)
  (List.range p.rows).map fun i =>
    let row := t.sp.read (p.addr + 64 + i * pitch) (rowBytes p.fmt p.cols)
    (List.range p.cols).map fun j =>
      let v := p.fmt.elem.decode (unpackElem p.fmt row j)
      if p.fmt.block then v.scale (signed 8 (byteAt eb (if weight then (i / 32) * p.cols + j else i * ceilDiv p.cols 32 + j / 32)))
      else v

/-- Join panels' rows side by side: `acc` holds the rows of the panels to the left. -/
def besides (a b : List (List Num)) : List (List Num) := List.zipWith (· ++ ·) a b

/-- Values of a rows × cols grid: every element +0 where a header line is poisoned (R531). -/
def gridVals (t : Tile) (weight : Bool) (rows cols : Nat) (ps : List PanelAt) : List (List Num) :=
  if gridHdrPoisoned ps then List.replicate rows (List.replicate cols Num.zero)
  else
    ((chunksOf (ceilDiv cols 256) ps.length ps).map fun band =>
      match band.map (panelVals t weight) with
      | [] => []
      | v :: vs => vs.foldl besides v).flatten

/-- Element (i, j) of a matrix of values. -/
def at2 (vals : List (List Num)) (i j : Nat) : Num := (vals.getD i []).getD j Num.zero

/-- Flags of the operand's readable panels, with POIS where the grid touches poison (R24, R210, R531). -/
def gridFlags (t : Tile) (weight : Bool) (ps : List PanelAt) : Nat :=
  let f := (ps.filterMap (·.hdr)).foldl (fun a h => a ||| combFlags h.flags) 0
  let r := gridRange weight ps
  if t.poisoned r.1 r.2 then f ||| flPois else f

/-- CONTRIB slots of the operand's panels. A panel whose header line is poisoned gives no slot, so the common slot is that of
the readable ones (DESIGN CHOICE, log 42: R24 and R531 do not say what such a panel counts as). -/
def gridContribs (ps : List PanelAt) : List Nat := (ps.filterMap (·.hdr)).map (·.contrib)

/-- A plain array of n binary32 values (R139): their codes. -/
def readArray (t : Tile) (addr n : Nat) : List Nat :=
  let bs := t.sp.read addr (4 * n)
  (List.range n).map fun i => field bs (4 * i) 4

/-- The bytes of a panel: header line, padded rows, padded exponent block (R57). `exps` is in the order of the block. -/
def panelOut (h : PHdr) (f : Fmt) (rows : List (List Nat)) (exps : Bytes) : Bytes :=
  fit 64 h.bytes ++ (rows.map fun r => fit (rowPitch f r.length) (packRow f r)).flatten ++ fit (roundUp exps.length 64) exps

end Sys2Proof.Machine
end

