-- ==== Sys2Proof/Machine/Stash.lean ====
section
/-! DEFINITION. Stash records: the lossless codec of tile DMA (R225-R236). -/

namespace Sys2Proof.Machine

/-- Length of the run of zero bytes at the head. -/
def zeroRun : Bytes → Nat
  | 0 :: bs => zeroRun bs + 1
  | _ => 0

/-- Length of the literal stretch at the head: up to the next run of two or more zeros (R230). -/
def litRun : Bytes → Nat
  | [] => 0
  | 0 :: 0 :: _ => 0
  | _ :: bs => litRun bs + 1

/-- The zero-run code, greedy (R229, R230). -/
def zrEncode : Nat → Bytes → Bytes
  | 0, _ => []
  | _, [] => []
  | fuel + 1, bs =>
    let z := zeroRun bs
    if z ≥ 2 then
      let k := min z 65664
      (if k ≤ 128 then leBytes 1 (k + 0x7E) else leBytes 1 0xFF ++ leBytes 2 (k - 129)) ++ zrEncode fuel (bs.drop k)
    else
      let k := min (litRun bs) 128
      leBytes 1 (k - 1) ++ bs.take k ++ zrEncode fuel (bs.drop k)

def zrCode (bs : Bytes) : Bytes := zrEncode (bs.length + 1) bs

/-- Decode the zero-run code to exactly `n` bytes; none where it does not come out exactly (R235). -/
def zrDecode : Nat → Nat → Bytes → Option Bytes
  | _, 0, [] => some []
  | _, 0, _ :: _ => none
  | _, _ + 1, [] => none
  | 0, _, _ => none
  | fuel + 1, n + 1, t :: bs =>
    let t := t.toNat
    if t < 0x80 then
      if bs.length < t + 1 ∨ n + 1 < t + 1 then none
      else (zrDecode fuel (n - t) (bs.drop (t + 1))).map (bs.take (t + 1) ++ ·)
    else if t < 0xFF then
      let k := t - 0x7E
      if n + 1 < k then none else (zrDecode fuel (n + 1 - k) bs).map (zeros k ++ ·)
    else
      let k := field bs 0 2 + 129
      if bs.length < 2 ∨ n + 1 < k then none else (zrDecode fuel (n + 1 - k) (bs.drop 2)).map (zeros k ++ ·)

/-- Field widths of R228: exponent bits, exponent position, bytes of M. -/
def zreForm : Fmt → Option (Nat × Nat × Nat)
  | .b32 => some (8, 23, 3)
  | .b16 => some (5, 10, 2)
  | .zw16 => some (8, 7, 1)
  | _ => none

/-- E and M of an element (R228). -/
def zreSplit (w pos : Nat) (c : Nat) : Nat × Nat := ((c >>> pos) % 2 ^ w, c % 2 ^ pos + (c >>> (pos + w)) * 2 ^ pos)

def zreJoin (w pos : Nat) (e m : Nat) : Nat := m % 2 ^ pos + e * 2 ^ pos + (m >>> pos) * 2 ^ (pos + w)

/-- CMODE by format (R227). -/
def cmodeOf (f : Fmt) : Nat := if (zreForm f).isSome then 1 else 2

/-- Elements of a panel's data in row order (R228). -/
def dataElems (f : Fmt) (rows cols : Nat) (data : Bytes) : List (List Nat) :=
  (List.range rows).map fun i => (List.range cols).map fun j => unpackElem f (sub data (i * rowPitch f cols) (rowPitch f cols)) j

/-- Coded payload and the bytes of its exponent plane (R227-R230). -/
def codePanel (f : Fmt) (rows cols : Nat) (data : Bytes) : Bytes × Nat :=
  match zreForm f with
  | some (w, pos, mb) =>
    let es := (dataElems f rows cols data).map (·.map (zreSplit w pos))
    let plane : List (List Nat) := es.zipIdx.map fun (r, i) => r.zipIdx.map fun (x, j) =>
      let prev := if i = 0 then 0 else ((es.getD (i - 1) []).getD j (0, 0)).1
      (x.1 + 2 ^ w - prev) % 2 ^ w
    let a := zrCode (plane.flatten.map (BitVec.ofNat 8))
    let b := zrCode ((es.flatten.map fun x => leBytes mb x.2).flatten)
    (a ++ b, a.length)
  | none => (zrCode data, 0)

/-- A stash record (R226): `hdr` the 16 header bytes, `data` the data lines. -/
def stashRecord (hdr data : Bytes) : Bytes :=
  let h := PHdr.parse hdr
  let (mode, payload, elen) :=
    match Fmt.ofCode h.fmt with
    | none => (0, data, 0)
    | some f =>
      let c := codePanel f h.rows h.cols data
      if c.1.length > data.length then (0, data, 0) else (cmodeOf f, c.1, c.2)
  let h1 := { h with flags := h.flags ||| flComp }
  fit 64 (h1.bytes ++ leBytes 4 data.length ++ leBytes 4 payload.length ++ leBytes 4 elen ++ leBytes 1 mode ++ [0, 0, 0] ++
    leBytes 4 (crc32c data)) ++ payload

/-- The record of a poisoned source panel: its header alone (R236). -/
def stashPoisoned (hdr data : Bytes) : Bytes :=
  let h := PHdr.parse hdr
  let h1 := { h with flags := h.flags ||| flComp ||| flPois }
  fit 64 (h1.bytes ++ leBytes 4 data.length ++ zeros 8 ++ [0, 1, 0, 0] ++ leBytes 4 (crc32c data))

/-- What reading a record back gives (R234-R236): the range's bytes, or poison with or without a new error. -/
inductive Expanded where
  | bytes (bs : Bytes)
  | rpsn
  | failed
  deriving DecidableEq, Repr

/-- Bytes of the record that must be read: 64 + CLEN (R234), limited to the slot. -/
def stashNeed (rowlen : Nat) (hdr : Bytes) : Nat := min rowlen (64 + field hdr 20 4)

/-- Rebuild data lines from elements: padding and unused positions zero (R234). -/
def elemsData (f : Fmt) (rows : List (List Nat)) : Bytes :=
  (rows.map fun r => fit (rowPitch f r.length) (packRow f r)).flatten

/-- The data lines of a panel with row padding and unused element positions zero (R234, R94). -/
def cleanData (f : Fmt) (rows cols : Nat) (data : Bytes) : Bytes :=
  elemsData f (dataElems f rows cols data) ++ data.drop (rows * rowPitch f cols)

def undelta (w : Nat) : List Nat → List (List Nat) → List (List Nat)
  | _, [] => []
  | prev, r :: rest => let cur := (List.zipWith (fun p d => (p + d) % 2 ^ w) prev r); cur :: undelta w cur rest

def expandRecord (rowlen : Nat) (rec : Bytes) : Expanded :=
  let hb := sub rec 0 16
  let h := PHdr.parse hb
  let raw := field rec 16 4
  let clen := field rec 20 4
  let elen := field rec 24 4
  let mode := byteAt rec 28
  let rflg := byteAt rec 29
  let payload := sub rec 64 clen
  let clear := { h with flags := h.flags % 32 + (h.flags / 64) * 64 }
  if rflg = 1 then .rpsn
  else
    match Fmt.ofCode h.fmt with
    | none => .failed
    | some f =>
      if mode ≠ 0 ∧ mode ≠ cmodeOf f then .failed
      else if raw + 64 ≠ rowlen ∨ clen > raw ∨ elen > clen ∨ (mode ≠ 1 ∧ elen ≠ 0) then .failed
      else if rflg ≠ 0 ∨ !zeroRange rec 30 2 || !zeroRange rec 36 28 then .failed
      else if dataBytes f false h.rows h.cols ≠ raw ∧ dataBytes f true h.rows h.cols ≠ raw then .failed
      else
        let data : Option Bytes :=
          if mode = 0 then (if clen = raw then some payload else none)
          else if mode = 2 then zrDecode (raw + 1) raw payload
          else match zreForm f with
            | none => none
            | some (w, pos, mb) =>
              let n := h.rows * h.cols
              match zrDecode (n + 1) n (payload.take elen), zrDecode (n * mb + 1) (n * mb) (payload.drop elen) with
              | some ep, some mp =>
                let es := undelta w (List.replicate h.cols 0) ((chunksOf h.cols h.rows ep).map (·.map (·.toNat)))
                let ms := chunksOf h.cols h.rows ((chunksOf mb n mp).map leNat)
                some (elemsData f (List.zipWith (List.zipWith (zreJoin w pos)) es ms))
              | _, _ => none
        match data with
        | none => .failed
        | some d => if crc32c d = field rec 32 4 then .bytes (fit 64 clear.bytes ++ cleanData f h.rows h.cols d) else .failed

end Sys2Proof.Machine
end

