-- ==== Sys2Proof/Machine/Approx.lean ====
section
/-! DEFINITION. The correctly rounded functions of R143, R144 and R155. An irrational value is enclosed between two dyadic
numbers at growing precision until both round alike (log 12). -/

namespace Sys2Proof.Machine

/-- A dyadic number m × 2^e. -/
structure Dy where
  m : Int
  e : Int
  deriving DecidableEq, Repr

namespace Dy

def zero : Dy := ⟨0, 0⟩
def one : Dy := ⟨1, 0⟩

/-- Cut to P significant bits, downward or upward. -/
def cut (P : Nat) (up : Bool) (x : Dy) : Dy :=
  let b := bitLen x.m.natAbs
  if b ≤ P then x
  else
    let s := b - P
    let fl := x.m / ((2 ^ s : Nat) : Int)
    let fl := if up && fl * ((2 ^ s : Nat) : Int) != x.m then fl + 1 else fl
    ⟨fl, x.e + s⟩

def neg (x : Dy) : Dy := ⟨-x.m, x.e⟩

/-- Exponent just above the leading bit. -/
def top (x : Dy) : Int := (bitLen x.m.natAbs : Int) + x.e

/-- Sum rounded in one direction; a far smaller summand only nudges the larger one. -/
def add (P : Nat) (up : Bool) (x y : Dy) : Dy :=
  if x.m = 0 then cut P up y
  else if y.m = 0 then cut P up x
  else
    let (a, b) := if x.top < y.top then (y, x) else (x, y)
    let gap : Int := 2 * P + 8
    if b.top < min a.e (a.top - gap) - 1 then
      let s := (max 0 (a.e - (a.top - gap))).toNat
      let am := a.m * ((2 ^ s : Nat) : Int)
      let am := if up && decide (0 < b.m) then am + 1 else if !up && decide (b.m < 0) then am - 1 else am
      cut P up ⟨am, a.e - s⟩
    else
      let q := min a.e b.e
      cut P up ⟨a.m * ((2 ^ (a.e - q).toNat : Nat) : Int) + b.m * ((2 ^ (b.e - q).toNat : Nat) : Int), q⟩

def mul (P : Nat) (up : Bool) (x y : Dy) : Dy := cut P up ⟨x.m * y.m, x.e + y.e⟩

/-- x / y for y > 0, rounded in one direction. -/
def div (P : Nat) (up : Bool) (x y : Dy) : Dy :=
  let s := P + bitLen y.m.natAbs + 2
  let n := x.m * ((2 ^ s : Nat) : Int)
  let q := n / y.m
  cut P up ⟨if up && q * y.m != n then q + 1 else q, x.e - y.e - s⟩

def lt (x y : Dy) : Bool :=
  let d := add 64 false x y.neg
  decide (d.m < 0)

end Dy

/-- A closed interval of dyadic numbers that holds the exact value. -/
structure Ival where
  lo : Dy
  hi : Dy
  deriving DecidableEq, Repr

namespace Ival

def pt (x : Dy) : Ival := ⟨x, x⟩
def int (n : Int) : Ival := pt ⟨n, 0⟩
def neg (x : Ival) : Ival := ⟨x.hi.neg, x.lo.neg⟩
def add (P : Nat) (x y : Ival) : Ival := ⟨Dy.add P false x.lo y.lo, Dy.add P true x.hi y.hi⟩
def sub (P : Nat) (x y : Ival) : Ival := add P x y.neg

def minD (a b : Dy) : Dy := if Dy.lt b a then b else a
def maxD (a b : Dy) : Dy := if Dy.lt a b then b else a

/-- Product, by the signs of the ends. -/
def mul (P : Nat) (x y : Ival) : Ival :=
  let pos (d : Dy) := decide (0 ≤ d.m)
  let lo (a b : Dy) := Dy.mul P false a b
  let hi (a b : Dy) := Dy.mul P true a b
  if pos x.lo && pos y.lo then ⟨lo x.lo y.lo, hi x.hi y.hi⟩
  else if !pos x.hi && pos y.lo then ⟨lo x.lo y.hi, hi x.hi y.lo⟩
  else if pos x.lo && !pos y.hi then ⟨lo x.hi y.lo, hi x.lo y.hi⟩
  else if !pos x.hi && !pos y.hi then ⟨lo x.hi y.hi, hi x.lo y.lo⟩
  else
    ⟨minD (minD (lo x.lo y.lo) (lo x.lo y.hi)) (minD (lo x.hi y.lo) (lo x.hi y.hi)),
     maxD (maxD (hi x.lo y.lo) (hi x.lo y.hi)) (maxD (hi x.hi y.lo) (hi x.hi y.hi))⟩

/-- 1 / x for x > 0. -/
def recip (P : Nat) (x : Ival) : Ival := ⟨Dy.div P false .one x.hi, Dy.div P true .one x.lo⟩

def scale (x : Ival) (k : Int) : Ival := ⟨⟨x.lo.m, x.lo.e + k⟩, ⟨x.hi.m, x.hi.e + k⟩⟩

/-- Widen by ± 2^k. -/
def widen (P : Nat) (x : Ival) (k : Int) : Ival := ⟨Dy.add P false x.lo ⟨-1, k⟩, Dy.add P true x.hi ⟨1, k⟩⟩

/-- n terms of Σ 1 / ((2i + 1) d^(2i+1)), signs alternating or not, in units of 2^-W. -/
def oddSeries (alt : Bool) (W : Nat) (d : Nat) : Nat → Nat → Int → Int
  | 0, _, acc => acc
  | n + 1, i, acc =>
    let t : Int := ((2 ^ W / (d ^ (2 * i + 1) * (2 * i + 1)) : Nat) : Int)
    oddSeries alt W d n (i + 1) (if alt && i % 2 == 1 then acc - t else acc + t)

/-- ln 2 = 2 artanh (1/3). -/
def ln2 (P : Nat) : Ival :=
  let W := P + 24
  let n := W / 3 + 2
  let s := oddSeries false W 3 n 0 0
  ⟨⟨2 * s, -(W : Int)⟩, ⟨2 * (s + n + 2), -(W : Int)⟩⟩

/-- π = 16 arctan (1/5) - 4 arctan (1/239). -/
def pi (P : Nat) : Ival :=
  let W := P + 24
  let n := W / 4 + 3
  let s := 16 * oddSeries true W 5 n 0 0 - 4 * oddSeries true W 239 n 0 0
  ⟨⟨s - 20 * (n + 2), -(W : Int)⟩, ⟨s + 20 * (n + 2), -(W : Int)⟩⟩

/-- √(2/π). -/
def root2pi (P : Nat) : Ival :=
  let q := (recip (P + 8) (pi (P + 8))).scale 1
  let root (up : Bool) (d : Dy) : Dy :=
    let s : Int := 2 * P + 10
    let s := if (d.e - s) % 2 = 0 then s else s + 1
    let mm := d.m.natAbs <<< s.toNat
    let r := Ieee.isqrt mm (bitLen mm / 2 + 1) 0
    ⟨((if up then r + 1 else r : Nat) : Int), (d.e - s) / 2⟩
  ⟨root false q.lo, root true q.hi⟩

/-- Horner form of the Taylor sum Σ r^i / i! for i < n, from the innermost term outward. -/
def taylor (P : Nat) (r : Ival) : Nat → Ival → Ival
  | 0, acc => acc
  | n + 1, acc =>
    -- 1 + (r / (n + 1)) × acc
    let q := ⟨Dy.div P false r.lo ⟨n + 1, 0⟩, Dy.div P true r.hi ⟨n + 1, 0⟩⟩
    taylor P r n (add P (int 1) (mul P q acc))

/-- e^x for a dyadic x. -/
def expPt (P : Nat) (x : Dy) : Ival :=
  if x.m = 0 then int 1
  else if x.top > 20 then
    if 0 < x.m then ⟨⟨1, 2 ^ 18⟩, ⟨1, 2 ^ 400⟩⟩ else ⟨⟨1, -(2 ^ 400)⟩, ⟨1, -(2 ^ 18)⟩⟩
  else
    let Q := P + 40
    -- k near x / ln 2, by 1.442695 = 94548 / 65536
    let k : Int := let v := Dy.mul 60 false x ⟨94548, -16⟩
      if 0 ≤ v.e then v.m * ((2 ^ v.e.toNat : Nat) : Int) else if v.top < -4 then 0 else v.m / ((2 ^ (-v.e).toNat : Nat) : Int)
    let r := (sub Q (pt x) (mul Q (int k) (ln2 Q))).scale (-8)
    let n := Q / 7 + 4
    let t := (taylor Q r n (int 1)).widen Q (-(Q : Int) - 4)
    (Nat.repeat (fun v => mul Q v v) 8 t).scale k

def exp (P : Nat) (x : Ival) : Ival := ⟨(expPt P x.lo).lo, (expPt P x.hi).hi⟩

/-- ln x for a dyadic x > 0. -/
def logPt (P : Nat) (x : Dy) : Ival :=
  let Q := P + 40
  let b := bitLen x.m.natAbs
  -- x = f × 2^k with f in [3/4, 3/2)
  let k : Int := if 4 * x.m.natAbs < 3 * 2 ^ b then (b : Int) - 1 + x.e else (b : Int) + x.e
  let f : Dy := ⟨x.m, x.e - k⟩
  let z := mul Q (pt (Dy.add (2 * Q + b) false f ⟨-1, 0⟩)) (recip Q (pt (Dy.add (2 * Q + b) false f .one)))
  let z2 := mul Q z z
  let n := Q / 4 + 8
  let inv (i : Nat) : Ival := recip Q (int (2 * i + 1))
  let s := (List.range n).foldr (fun i acc => add Q (inv i) (mul Q z2 acc)) (int 0)
  let s := s.widen Q (-(Q : Int))
  add Q ((mul Q z s).scale 1) (mul Q (int k) (ln2 Q))

/-- σ(x) = 1 / (1 + e^-x). -/
def sigmoid (P : Nat) (x : Ival) : Ival := recip P (add P (int 1) (exp P x.neg))

def tanh (P : Nat) (x : Ival) : Ival :=
  sub P (int 1) ((recip P (add P (int 1) (exp P (x.scale 1)))).scale 1)

def silu (P : Nat) (x : Ival) : Ival := mul P x (sigmoid P x)

/-- 0.044715. -/
def c044 (P : Nat) : Ival := mul P (int 44715) (recip P (int 1000000))

/-- 2 √(2/π) (x + 0.044715 x³), so that GELU(x) = x σ(this). -/
def geluArg (P : Nat) (x : Ival) : Ival :=
  let x3 := mul P x (mul P x x)
  (mul P (root2pi P) (add P x (mul P (c044 P) x3))).scale 1

def gelu (P : Nat) (x : Ival) : Ival := mul P x (sigmoid P (geluArg P x))

/-- σ′(x) = σ(x) σ(-x). -/
def dsigmoid (P : Nat) (x : Ival) : Ival := mul P (sigmoid P x) (sigmoid P x.neg)

/-- SiLU′(x) = σ(x) (1 + x σ(-x)). -/
def dsilu (P : Nat) (x : Ival) : Ival :=
  mul P (sigmoid P x) (add P (int 1) (mul P x (sigmoid P x.neg)))

/-- tanh′(x) = 4 σ(2x) σ(-2x). -/
def dtanh (P : Nat) (x : Ival) : Ival := (dsigmoid P (x.scale 1)).scale 2

/-- GELU′(x) = σ(w) (1 + x σ(-w) w′) with w = 2√(2/π)(x + 0.044715x³). -/
def dgelu (P : Nat) (x : Ival) : Ival :=
  let w := geluArg P x
  let w' := (mul P (root2pi P) (add P (int 1) (mul P (int 3) (mul P (c044 P) (mul P x x))))).scale 1
  mul P (sigmoid P w) (add P (int 1) (mul P (mul P x (sigmoid P w.neg)) w'))

end Ival

namespace Approx

/-- The precisions tried in turn. -/
def precisions : List Nat := [64, 128, 256, 512, 1024, 2048, 4096]

def ofDy (x : Dy) : Num := .fin (decide (x.m < 0)) x.m.natAbs x.e

/-- Round an enclosed value: the first precision at which both ends round alike decides. -/
def ziv (f : Fmt) (rnd : Rnd) (u : Nat) (g : Nat → Ival) : List Nat → Nat
  | [] => 0
  | P :: Ps =>
    let v := g P
    let a := (roundIeee f rnd u (ofDy v.lo) false).1
    let b := (roundIeee f rnd u (ofDy v.hi) false).1
    if a = b then a else match Ps with | [] => a | _ => ziv f rnd u g Ps

def toDy : Num → Dy
  | .fin s m e => ⟨if s then -(m : Int) else m, e⟩
  | _ => .zero

/-- Is the code an infinity of f? -/
def infinite (f : Fmt) (c : Nat) : Bool := (f.decode c).isInf

/-- Flags of RCP, RSQRT, EXP and LOG by R82, for a finite non-zero operand. -/
def fnFlags (f : Fmt) (c : Nat) (inexact : Bool) : FpFlags :=
  if infinite f c then { ovf := true, inx := true } else { inx := inexact }

def rcp (f : Fmt) (rnd : Rnd) (u : Nat) (x : Num) : Nat × FpFlags :=
  match x with
  | .nan s => (f.nanCode, { inv := s })
  | .inf s => (f.zeroCode s, {})
  | .fin s m e =>
    if m = 0 then (f.infCode s, { dz := true })
    else
      let k := bitLen m + 200
      let r := roundIeee f rnd u (.fin s (2 ^ k / m) (-e - k)) (2 ^ k % m != 0)
      (r.1, fnFlags f r.1 r.2.inx)

def rsqrt (f : Fmt) (rnd : Rnd) (u : Nat) (x : Num) : Nat × FpFlags :=
  match x with
  | .nan s => (f.nanCode, { inv := s })
  | .inf s => if s then (f.nanCode, { inv := true }) else (0, {})
  | .fin s m e =>
    if m = 0 then (f.infCode s, { dz := true })
    else if s then (f.nanCode, { inv := true })
    else
      let (m, e) := if e % 2 = 0 then (m, e) else (2 * m, e - 1)
      let k := bitLen m + 200
      let v := 2 ^ (2 * k) / m
      let r0 := Ieee.isqrt v (bitLen v / 2 + 1) 0
      let r := roundIeee f rnd u (.fin false r0 (-(e / 2) - k)) (r0 * r0 * m != 2 ^ (2 * k))
      (r.1, fnFlags f r.1 r.2.inx)

def exp (f : Fmt) (rnd : Rnd) (u : Nat) (x : Num) : Nat × FpFlags :=
  match x with
  | .nan s => (f.nanCode, { inv := s })
  | .inf s => if s then (0, {}) else (f.infCode false, {})
  | .fin _ m _ =>
    if m = 0 then (Ieee.exactCode f .one, {})
    else
      let c := ziv f rnd u (fun P => Ival.expPt P (toDy x)) precisions
      (c, fnFlags f c true)

def log (f : Fmt) (rnd : Rnd) (u : Nat) (x : Num) : Nat × FpFlags :=
  match x with
  | .nan s => (f.nanCode, { inv := s })
  | .inf s => if s then (f.nanCode, { inv := true }) else (f.infCode false, {})
  | .fin s m e =>
    if m = 0 then (f.infCode true, { dz := true })
    else if s then (f.nanCode, { inv := true })
    else if x.eq .one then (0, {})
    else
      let c := ziv f rnd u (fun P => Ival.logPt P ⟨m, e⟩) precisions
      (c, fnFlags f c true)

/-- A function of one real, as the epilogue applies it: its enclosure, and its values at the points where the value is
rational or the argument infinite. -/
structure Fun1 where
  enc : Nat → Ival → Ival
  at0 : Num
  atPosInf : Num
  atNegInf : Num
  /-- From here on the function is x (1 - d) with 0 < d < 2^-250: SiLU and GELU. -/
  linear : Option Nat := none

def half : Num := .fin false 1 (-1)

def fSigmoid : Fun1 := ⟨Ival.sigmoid, half, .one, .zero, none⟩
def fTanh : Fun1 := ⟨Ival.tanh, .zero, .one, .fin true 1 0, none⟩
def fSilu : Fun1 := ⟨Ival.silu, .zero, .inf false, .zero, some 256⟩
def fGelu : Fun1 := ⟨Ival.gelu, .zero, .inf false, .zero, some 16⟩
def fDgelu : Fun1 := ⟨Ival.dgelu, half, .one, .zero, none⟩
def fDsilu : Fun1 := ⟨Ival.dsilu, half, .one, .zero, none⟩
def fDsigmoid : Fun1 := ⟨Ival.dsigmoid, .fin false 1 (-2), .zero, .zero, none⟩
def fDtanh : Fun1 := ⟨Ival.dtanh, .one, .zero, .zero, none⟩

/-- The exact value where it is rational or special (the zero of an odd function keeps the argument's sign). -/
def special (g : Fun1) (a : Num) : Option Num :=
  match a with
  | .nan _ => some (.nan false)
  | .inf s => some (if s then g.atNegInf else g.atPosInf)
  | .fin s m _ => if m = 0 then some (if g.at0.isZero then .fin s 0 0 else g.at0) else none

/-- f(a) rounded once into binary32. -/
def apply1 (g : Fun1) (a : Num) : Nat :=
  match special g a with
  | some v => B32.rnd v
  | none => ziv .b32 .rne 0 (fun P => g.enc (P + 16) (Ival.pt (toDy a))) precisions

/-- a lies where the function is x (1 - d) with a tiny d. -/
def nearLinear (g : Fun1) (a : Num) : Bool := g.linear.any fun n => Num.le (.fin false n 0) a

/-- Just below the magnitude of x: for an x of at most 64 bits, what x (1 - d) rounds to, 0 < d < 2^-250. -/
def justBelow (x : Num) : Nat :=
  match x with
  | .fin s m e => (roundIeee .b32 .rne 0 (.fin s (m * 2 ^ 180 - 1) (e - 180)) true).1
  | x => B32.rnd x

/-- f(a) × y rounded once into binary32 (R143: the exact value is that of the whole expression). -/
def applyMul (g : Fun1) (a y : Num) : Nat :=
  match special g a with
  | some v => B32.rnd (v.mul y)
  | none =>
    match y with
    | .nan _ => Fmt.b32.nanCode
    | .inf _ =>
      let v := g.enc 256 (Ival.pt (toDy a))
      B32.rnd ((ofDy v.lo).mul y)
    | .fin _ m _ =>
      if m = 0 then B32.rnd ((ofDy (g.enc 256 (Ival.pt (toDy a))).lo).mul y)
      else if nearLinear g a then justBelow (a.mul y)
      else ziv .b32 .rne 0 (fun P => Ival.mul (P + 16) (g.enc (P + 16) (Ival.pt (toDy a))) (Ival.pt (toDy y))) precisions

end Approx

/-- Stage 2 of the epilogue on binary32 codes: the activation codes of R142, with the auxiliary element. -/
def activation (act : Nat) (y a : Nat) : Nat :=
  let Y := B32.dec y
  let A := B32.dec a
  let gate (x : Num) : Nat := if x.isNan then Fmt.b32.nanCode else if Num.lt .zero x then B32.rnd Y else 0
  match act with
  | 0x00 => B32.rnd Y
  | 0x01 => gate Y
  | 0x02 => Approx.apply1 Approx.fGelu Y
  | 0x03 => Approx.apply1 Approx.fSilu Y
  | 0x04 => Approx.apply1 Approx.fSigmoid Y
  | 0x05 => Approx.apply1 Approx.fTanh Y
  | 0x10 => Approx.applyMul Approx.fSilu A Y
  | 0x11 => Approx.applyMul Approx.fGelu A Y
  | 0x81 => if Y.isNan then Fmt.b32.nanCode else gate A
  | 0x82 => Approx.applyMul Approx.fDgelu A Y
  | 0x83 => Approx.applyMul Approx.fDsilu A Y
  | 0x84 => Approx.applyMul Approx.fDsigmoid A Y
  | 0x85 => Approx.applyMul Approx.fDtanh A Y
  | _ => y

/-- The codes of R142. -/
def actValid (act : Nat) : Bool := [0, 1, 2, 3, 4, 5, 0x10, 0x11, 0x81, 0x82, 0x83, 0x84, 0x85].contains act

/-- The codes that read the auxiliary element. -/
def actAux (act : Nat) : Bool := [0x10, 0x11, 0x81, 0x82, 0x83, 0x84, 0x85].contains act

end Sys2Proof.Machine
end

