-- ==== Sys2Proof/Machine/Flags.lean ====
section
/-! DEFINITION. Conversion of an output panel with the flags it raises (R91, R92, R96-R100), and the scale regulator
(R103-R111). -/

namespace Sys2Proof.Machine

/-- The smallest integer X for which x ≤ g × 2^X, for a positive finite x. -/
def leastExp (g : Nat) (x : Num) : Int :=
  match x with
  | .fin _ m e =>
    let x0 : Int := (bitLen m : Int) + e - bitLen g - 1
    if Num.le x (.fin false g x0) then x0
    else if Num.le x (.fin false g (x0 + 1)) then x0 + 1
    else if Num.le x (.fin false g (x0 + 2)) then x0 + 2
    else x0 + 3
  | _ => 0

/-- The larger of two magnitudes. -/
def maxNum (a b : Num) : Num := if Num.lt a b then b else a

/-- The largest finite magnitude, or zero. -/
def maxFinite (xs : List Num) : Num := (xs.filter (·.isFin)).foldl (fun a x => maxNum a x.abs) .zero

/-- G of R91. -/
def groupMax : Fmt → Nat
  | .zw4b => 6
  | _ => 14

/-- The exponent of one group (R91). -/
def groupExp (f : Fmt) (xs : List Num) : Int :=
  let m := maxFinite xs
  if m.isZero then 0 else max (-128) (min 127 (leastExp (groupMax f) m))

/-- What converting the elements of one output panel gives. -/
structure PanelConv where
  rows : List (List Nat)
  exps : Bytes
  /-- A source element is a NaN (R100). -/
  nan : Bool
  /-- An infinity was saturated (R99). -/
  satInf : Bool
  /-- A finite element overflowed (R98). -/
  ovf : Bool
  /-- Flags of a VEC conversion (R98). -/
  fp : FpFlags
  deriving DecidableEq, Repr

/-- Convert one element, already scaled: with `ieee`, by the VEC row of R98. -/
def convElem (f : Fmt) (rnd : Rnd) (ieee : Bool) (u : Nat) (x : Num) : Conv × FpFlags :=
  let c := convert f rnd u x
  if ieee && f.hasInf then
    let r := roundIeee f rnd u x false
    ({ c with code := r.1, ovf := false }, r.2.or (invalidFlag x.isSnan))
  else (c, {})

/-- Convert a row of one block format by groups of 32 (R91, R92). `us` are the draws. -/
def convBlockRow (f : Fmt) (rnd : Rnd) (us : List Nat) (xs : List Num) : List Conv × List Int :=
  let gs := chunksOf 32 xs.length (xs.zip us)
  let one (g : List (Num × Nat)) : List Conv × Int :=
    let X := groupExp f (g.map (·.1))
    (g.map fun p =>
      let y := p.1.scale (-X)
      let c := convert f.elem rnd p.2 y
      if decide (X = 127) && y.isFin && Num.lt (.fin false (groupMax f) 0) y.abs then
        { c with code := f.elem.maxCode y.neg, ovf := true } else c, X)
  let rs := gs.map one
  ((rs.map (·.1)).flatten, rs.map (·.2))

/-- Convert a panel's values at SCALE S (R96). `u i j` is the draw of element (i, j). -/
def convPanel (f : Fmt) (rnd : Rnd) (ieee : Bool) (S : Int) (u : Nat → Nat → Nat) (vals : List (List Num)) : PanelConv :=
  let rows : List (List (Conv × FpFlags) × List Int) := vals.zipIdx.map fun ((r, i) : List Num × Nat) =>
    let xs : List Num := r.map fun (x : Num) => x.scale (-S)
    let us := (List.range r.length).map (u i)
    if f.block then
      let b := convBlockRow f rnd us xs
      (b.1.map fun c => (c, ({} : FpFlags)), b.2)
    else ((xs.zip us).map fun p => convElem f rnd ieee p.2 p.1, [])
  let cs := (rows.map (·.1)).flatten
  { rows := rows.map fun r => r.1.map (·.1.code)
    exps := (rows.map fun r => r.2.map fun X => BitVec.ofNat 8 (unsigned 8 X)).flatten
    nan := vals.any (·.any (·.isNan)), satInf := cs.any (·.1.satInf), ovf := cs.any (·.1.ovf)
    fp := cs.foldl (fun a c => a.or c.2) {} }

/-- An entry of the regulator store (R105). -/
structure RegEntry where
  hist : List Nat
  cur : Nat
  last : Nat
  scale : Int
  nhist : Nat
  blvl : Nat
  bcnt : Nat
  ovf : Bool
  used : Bool
  deriving DecidableEq, Repr

namespace RegEntry

def parse (b : Bytes) : RegEntry :=
  { hist := (List.range 16).map fun i => field b (4 * i) 4, cur := field b 64 4, last := field b 68 6,
    scale := signed 8 (byteAt b 74), nhist := byteAt b 75, blvl := byteAt b 76, bcnt := byteAt b 77,
    ovf := bit (byteAt b 78) 0, used := bit (byteAt b 78) 1 }

def bytes (e : RegEntry) : Bytes :=
  fit 128 ((e.hist.map (leBytes 4)).flatten ++ leBytes 4 e.cur ++ leBytes 6 e.last ++ leBytes 1 (unsigned 8 e.scale) ++
    leBytes 1 e.nhist ++ leBytes 1 e.blvl ++ leBytes 1 e.bcnt ++ leBytes 1 (e.ovf.toNat + 2 * e.used.toNat))

/-- L of R104. -/
def limit : Fmt → Option Nat
  | .b32 | .zw16 => none
  | .b16 => some 65504 | .zw8e4 => some 224 | .zw8e5 => some 49152 | .zw6 => some 14 | .zw4 => some 6
  | .zw6b => some 3584 | .zw4b => some 1536

/-- `choose()` of R107. -/
def choose (e : RegEntry) (f : Fmt) : Int :=
  match limit f with
  | none => 0
  | some L =>
    let a := (e.hist.take e.nhist).foldl max 0
    if a = 0 then 0
    else max (-128) (min 127 (leastExp L ((B32.dec a).scale (2 + e.blvl))))

/-- The advance of R107 to step s, with L from target f. -/
def advance (e : RegEntry) (f : Fmt) (s : Nat) : RegEntry :=
  if !e.used then
    let e := { e with used := true, nhist := 0, blvl := 0, bcnt := 0, cur := 0, ovf := false, last := s }
    { e with scale := e.choose f }
  else if s ≠ e.last then
    let (bl, bc) := if e.ovf then (min (e.blvl + 1) 6, 64)
      else if e.bcnt > 0 then (if e.bcnt = 1 then 0 else e.blvl, e.bcnt - 1) else (e.blvl, e.bcnt)
    let e := { e with hist := (e.cur :: e.hist).take 16, nhist := min (e.nhist + 1) 16, blvl := bl, bcnt := bc,
                      cur := 0, ovf := false, last := s }
    { e with scale := e.choose f }
  else e

end RegEntry

/-- A regulated tensor ID (R103). -/
def regulated (id : Nat) : Bool := decide (1 ≤ id) && decide (id ≤ 0x3FF)

def Tile.regEntry (t : Tile) (id : Nat) : RegEntry := RegEntry.parse (t.reg.read (128 * id) 128)

def Tile.setRegEntry (t : Tile) (id : Nat) (e : RegEntry) : Tile := { t with reg := t.reg.write (128 * id) e.bytes }

/-- The SCALEs a conversion tries, in order, in recompute mode (R113). -/
def recomputeScales (S : Int) : List Int := [S, S + 2, S + 4].filter (· ≤ 127)

/-- Convert in recompute mode: the first SCALE without overflow, else the last one tried, saturated (R113). -/
def convRetry (go : Int → PanelConv) : Int → List Int → Int × PanelConv
  | S, [] => (S, go S)
  | S, S' :: rest => let c := go S; if c.ovf then convRetry go S' rest else (S, c)

/-- The epilogue conversion of one output tile (R103-R108, R113): the new tile, the SCALE and the codes. `z` are binary32
codes. SAT is `satInf || ovf` of the conversion. -/
def epilogueConvert (t : Tile) (id step : Nat) (f : Fmt) (rnd : Rnd) (recompute : Bool) (u : Nat → Nat → Nat)
    (z : List (List Nat)) : Tile × Int × PanelConv :=
  let vals := z.map (·.map B32.dec)
  let go (S : Int) := convPanel f rnd false S u vals
  if regulated id then
    let e := t.regEntry id
    let e := if t.regUsed.contains id then e else e.advance f step
    let top := ((z.flatten.filter fun c => (B32.dec c).isFin).map (· % 2 ^ 31)).foldl max 0
    let e := { e with cur := max e.cur top }
    let fixed := (RegEntry.limit f).isNone
    let S := if fixed then 0 else e.scale
    let first := go S
    let r := if recompute && !fixed then
        (match recomputeScales S with | [] => (S, first) | S0 :: rest => convRetry go S0 rest) else (S, first)
    let e := { e with ovf := e.ovf || first.ovf }
    ({ t.setRegEntry id e with regUsed := setInsert id t.regUsed }, r.1, r.2)
  else (t, 0, go 0)

end Sys2Proof.Machine
end

