-- ==== Sys2Proof/Machine/ArrayMath.lean ====
section
/-! DEFINITION. What the matrix array computes in one pass (R41-R50). -/

namespace Sys2Proof.Machine

/-- Fused chain of exact products in ascending k, each rounded once into the accumulator format (R42). -/
def chain (acc : Fmt) : Option Nat → List Num → Nat
  | none, [] => 0
  | some r, [] => r
  | none, x :: xs => chain acc (some (roundIeee acc .rne 0 x false).1) xs
  | some r, x :: xs => chain acc (some (roundIeee acc .rne 0 (Num.add .rne (acc.decode r) x) false).1) xs

/-- Column j of a matrix. -/
def colOf (m : List (List Num)) (j : Nat) : List Num := m.map fun r => r.getD j .zero

/-- The ZW16 pieces of a binary32 element (R49). -/
def pieces (x : Num) : Num × Num × Num :=
  match x with
  | .fin _ _ _ =>
    let r16 (y : Num) : Num := Fmt.zw16.decode (convert .zw16 .rne 0 y).code
    let a0 := r16 x
    let d1 := Num.add .rne x a0.flip
    let a1 := r16 d1
    let d2 := Num.add .rne d1 a1.flip
    (a0, a1, r16 d2)
  | .nan _ => (.nan false, .zero, .zero)
  | x => (x, .zero, .zero)

def piece (i : Nat) (x : Num) : Num :=
  let p := pieces x
  match i with | 0 => p.1 | 1 => p.2.1 | _ => p.2.2

/-- Piece passes of a split mode, in order (R50); one whole pass for 00h. -/
def splitOrder : Nat → List (Nat × Nat)
  | 1 => [(1, 0), (0, 1), (0, 0)]
  | 2 => [(2, 0), (1, 1), (0, 2), (1, 0), (0, 1), (0, 0)]
  | 3 => [(2, 2), (2, 1), (1, 2), (2, 0), (1, 1), (0, 2), (1, 0), (0, 1), (0, 0)]
  | _ => []

/-- A product of piece pass (i, j): a product with an infinity or NaN is formed whole in (0, 0) and is +0 elsewhere (R49). -/
def pieceProduct (i j : Nat) (a w : Num) : Num :=
  if a.isFin && w.isFin then Num.mul (piece i a) (piece j w)
  else if i = 0 ∧ j = 0 then Num.mul a w else .zero

/-- One accumulated value widened to an exact number, scaled by 2^(SA + SW), combined into a partial sum (R44). -/
def combine (first : Bool) (acc : Fmt) (s : Int) (r p : Nat) : Nat :=
  let t := (acc.decode r).scale s
  if first then B32.rnd t else B32.rnd (Num.add .rne (B32.dec p) t)

/-- One element of a pass: activation row a, weight column w, old partial sum p. Answers the new partial sum and whether a
binary16 accumulator overflowed (R116). -/
def passElem (acc16 : Bool) (split : Nat) (s : Int) (first : Bool) (a w : List Num) (p : Nat) : Nat × Bool :=
  if split = 0 then
    let acc : Fmt := if acc16 then .b16 else .b32
    let r := chain acc none (List.zipWith Num.mul a w)
    let v := acc.decode r
    let ov := acc16 && (v.isInf || (v.isNan && !(a.any (·.isNan) || w.any (·.isNan))))
    (combine first acc s r p, ov)
  else
    let step (st : Bool × Nat) (ij : Nat × Nat) : Bool × Nat :=
      (false, combine st.1 .b32 s (chain .b32 none (List.zipWith (pieceProduct ij.1 ij.2) a w)) st.2)
    (((splitOrder split).foldl step (first, p)).2, false)

/-- All elements of a pass. `old m n` is the partial sum before. -/
def passElems (acc16 : Bool) (split : Nat) (first : Bool) (a w : Operand) (old : Nat → Nat → Nat) : List (List (Nat × Bool)) :=
  (List.range a.rows).map fun m => (List.range w.cols).map fun n =>
    passElem acc16 split (a.scale + w.scale) first (a.vals.getD m []) (colOf w.vals n) (old m n)

end Sys2Proof.Machine
end

