-- ==== Sys2Proof/Machine/Crypto.lean ====
section
/-! DEFINITION. The named cryptographic primitives (AES-256 of FIPS 197, GHASH and AES-256-GCM of NIST SP 800-38D,
SHAKE256 of FIPS 202), on byte sequences, and the Reed-Solomon line code of R170. -/

namespace Sys2Proof.Machine

namespace Aes

/-- The S-box of FIPS 197, entry x at bits [8x+7:8x]. -/
def sboxTable : Nat :=
  0x16bb54b00f2d99416842e6bf0d89a18cdf2855cee9871e9b948ed9691198f8e19e1dc186b95735610ef6034866b53e708a8bbd4b1f74dde8c6b4a61c2e2578ba08ae7a65eaf4566ca94ed58d6d37c8e779e4959162acd3c25c2406490a3a32e0db0b5ede14b8ee4688902a22dc4f816073195d643d7ea7c41744975fec130ccdd2f3ff1021dab6bcf5389d928f40a351a89f3c507f02f94585334d43fbaaefd0cf584c4a39becb6a5bb1fc20ed00d153842fe329b3d63b52a05a6e1b1a2c830975b227ebe28012079a059618c323c7041531d871f1e5a534ccf73f362693fdb7c072a49cafa2d4adf04759fa7dc982ca76abd7fe2b670130c56f6bf27b777c63

def sbox (x : Nat) : Nat := (sboxTable >>> (8 * x)) % 256

def xtime (x : Nat) : Nat := if x < 128 then 2 * x else (2 * x) % 256 ^^^ 0x1b

def subWord (w : List Nat) : List Nat := w.map sbox

def rotWord : List Nat → List Nat
  | [] => []
  | a :: as => as ++ [a]

def xorL (a b : List Nat) : List Nat := List.zipWith (· ^^^ ·) a b

/-- Key expansion: words kept newest first; `i` is the index of the next word. -/
def expandFrom : Nat → Nat → Nat → List (List Nat) → List (List Nat)
  | 0, _, _, ws => ws
  | n + 1, i, rcon, ws =>
    let prev := ws.headD []
    let old := ws.getD 7 []
    if i % 8 = 0 then
      let t := subWord (rotWord prev)
      let t := match t with | [] => [] | a :: as => (a ^^^ rcon) :: as
      expandFrom n (i + 1) (xtime rcon) (xorL old t :: ws)
    else if i % 8 = 4 then expandFrom n (i + 1) rcon (xorL old (subWord prev) :: ws)
    else expandFrom n (i + 1) rcon (xorL old prev :: ws)

/-- The 15 round keys of 16 bytes. -/
def roundKeys (key : Bytes) : List (List Nat) :=
  let k := (fit 32 key).map BitVec.toNat
  let ws := (expandFrom 52 8 1 (chunksOf 4 8 k).reverse).reverse
  (chunksOf 4 15 ws).map List.flatten

/-- ShiftRows: byte r + 4c takes the byte of column c + r. -/
def shiftRows (s : List Nat) : List Nat :=
  [0, 5, 10, 15, 4, 9, 14, 3, 8, 13, 2, 7, 12, 1, 6, 11].map fun i => s.getD i 0

def mixColumn : List Nat → List Nat
  | [a, b, c, d] =>
    [xtime a ^^^ (xtime b ^^^ b) ^^^ c ^^^ d, a ^^^ xtime b ^^^ (xtime c ^^^ c) ^^^ d,
     a ^^^ b ^^^ xtime c ^^^ (xtime d ^^^ d), (xtime a ^^^ a) ^^^ b ^^^ c ^^^ xtime d]
  | l => l

def mixColumns (s : List Nat) : List Nat := ((chunksOf 4 4 s).map mixColumn).flatten

def rounds : List (List Nat) → List Nat → List Nat
  | [], s => s
  | [k], s => xorL (shiftRows (subWord s)) k
  | k :: ks, s => rounds ks (xorL (mixColumns (shiftRows (subWord s))) k)

/-- AES-256 of one 16-byte block under expanded round keys. -/
def blockWith (ks : List (List Nat)) (b : Bytes) : Bytes :=
  match ks with
  | [] => b
  | k :: ks => (rounds ks (xorL ((fit 16 b).map BitVec.toNat) k)).map (BitVec.ofNat 8)

/-- AES-256 of one 16-byte block. -/
def block (key b : Bytes) : Bytes := blockWith (roundKeys key) b

end Aes

/-- XOR of two byte sequences, as long as the shorter. -/
def xorB (a b : Bytes) : Bytes := List.zipWith (· ^^^ ·) a b

namespace Ghash

/-- Multiplication in GF(2^128) of SP 800-38D, on blocks read most significant byte first. -/
def mulStep : Nat → Nat → Nat → Nat → Nat
  | 0, _, _, z => z
  | n + 1, x, v, z =>
    mulStep n x (if v % 2 = 1 then (v / 2) ^^^ (0xE1 <<< 120) else v / 2) (if x.testBit n then z ^^^ v else z)

def mul (x h : Nat) : Nat := mulStep 128 x h 0

/-- GHASH under key h over a sequence of 16-byte blocks. -/
def run (h : Bytes) (blocks : List Bytes) : Bytes :=
  beBytes 16 (blocks.foldl (fun y b => mul (y ^^^ beNat (fit 16 b)) (beNat h)) 0)

end Ghash

namespace Gcm

/-- The keystream blocks 2, 3, ... of a 96-bit IV. -/
def stream (ks : List (List Nat)) (iv : Bytes) : Nat → Nat → Bytes
  | 0, _ => []
  | n + 1, c => Aes.blockWith ks (fit 12 iv ++ beBytes 4 c) ++ stream ks iv n (c + 1)

def crypt (key iv text : Bytes) : Bytes :=
  xorB text (stream (Aes.roundKeys key) iv (ceilDiv text.length 16) 2)

/-- The 16-byte tag over additional data and ciphertext. -/
def tag (key iv aad ct : Bytes) : Bytes :=
  let ks := Aes.roundKeys key
  let h := Aes.blockWith ks (zeros 16)
  let cut (b : Bytes) := chunksOf 16 (b.length + 1) b
  let g := Ghash.run h (cut aad ++ cut ct ++ [beBytes 8 (8 * aad.length) ++ beBytes 8 (8 * ct.length)])
  xorB g (Aes.blockWith ks (fit 12 iv ++ beBytes 4 1))

/-- AES-256-GCM encryption: ciphertext and full tag. -/
def encrypt (key iv aad pt : Bytes) : Bytes × Bytes :=
  let ct := crypt key iv pt
  (ct, tag key iv aad ct)

/-- AES-256-GCM decryption, checking the leading `taglen` bytes of the tag. -/
def openN (taglen : Nat) (key iv aad ct t : Bytes) : Option Bytes :=
  if (tag key iv aad ct).take taglen = t then some (crypt key iv ct) else none

def decrypt (key iv aad ct t : Bytes) : Option Bytes := openN 16 key iv aad ct t

end Gcm

namespace Keccak

def rotl (x n : Nat) : Nat := ((x <<< n) ||| (x >>> (64 - n))) % 2 ^ 64

def rots : List Nat := [0, 1, 62, 28, 27, 36, 44, 6, 55, 20, 3, 10, 43, 25, 39, 41, 45, 15, 21, 8, 18, 2, 61, 56, 14]

def consts : List Nat :=
  [0x1, 0x8082, 0x800000000000808a, 0x8000000080008000, 0x808b, 0x80000001, 0x8000000080008081, 0x8000000000008009,
   0x8a, 0x88, 0x80008009, 0x8000000a, 0x8000808b, 0x800000000000008b, 0x8000000000008089, 0x8000000000008003,
   0x8000000000008002, 0x8000000000000080, 0x800a, 0x800000008000000a, 0x8000000080008081, 0x8000000000008080,
   0x80000001, 0x8000000080008008]

def ix (x y : Nat) : Nat := x % 5 + 5 * (y % 5)

/-- One round of Keccak-f[1600] on 25 lanes, lane (x, y) at x + 5y. -/
def round (a : List Nat) (rc : Nat) : List Nat :=
  let g (l : List Nat) (i : Nat) := l.getD i 0
  let c := (List.range 5).map fun x => g a x ^^^ g a (x + 5) ^^^ g a (x + 10) ^^^ g a (x + 15) ^^^ g a (x + 20)
  let d := (List.range 5).map fun x => g c ((x + 4) % 5) ^^^ rotl (g c ((x + 1) % 5)) 1
  let e := (List.range 25).map fun i => rotl (g a i ^^^ g d (i % 5)) (g rots i)
  -- pi: lane (x, y) takes lane (x + 3y, x)
  let f := (List.range 25).map fun i => g e (ix (i % 5 + 3 * (i / 5)) (i % 5))
  let h := (List.range 25).map fun i =>
    g f i ^^^ ((g f (ix (i % 5 + 1) (i / 5)) ^^^ 0xFFFFFFFFFFFFFFFF) &&& g f (ix (i % 5 + 2) (i / 5)))
  match h with
  | [] => []
  | x :: xs => (x ^^^ rc) :: xs

def perm (a : List Nat) : List Nat := consts.foldl round a

def absorb (st : List Nat) (blk : Bytes) : List Nat :=
  perm (List.zipWith (· ^^^ ·) st ((List.range 25).map fun i => field blk (8 * i) 8))

def squeeze : Nat → List Nat → Bytes
  | 0, _ => []
  | n + 1, st => (st.map (leBytes 8)).flatten.take 136 ++ squeeze n (perm st)

end Keccak

/-- SHAKE256 with an output of n bytes. -/
def shake256 (n : Nat) (msg : Bytes) : Bytes :=
  let padLen := 136 - msg.length % 136
  let pad : Bytes := if padLen = 1 then [0x9F] else 0x1F :: zeros (padLen - 2) ++ [0x80]
  let full := msg ++ pad
  let st := (chunksOf 136 (full.length / 136) full).foldl Keccak.absorb (List.replicate 25 0)
  (Keccak.squeeze (ceilDiv n 136) st).take n

-- The Reed-Solomon code of R170: 72 symbols of GF(2^8), position j the coefficient of x^(71 - j).
namespace Rs

def mulStep : Nat → Nat → Nat → Nat → Nat
  | 0, _, _, r => r
  | n + 1, a, b, r =>
    mulStep n (if a < 128 then 2 * a else (2 * a) ^^^ 0x11D) (b / 2) (if b % 2 = 1 then r ^^^ a else r)

/-- Multiplication modulo x^8 + x^4 + x^3 + x^2 + 1. -/
def mul (a b : Nat) : Nat := mulStep 8 a b 0

def powa (n : Nat) : Nat := Nat.repeat (mul 2) (n % 255) 1

def inv (a : Nat) : Nat := Nat.repeat (fun r => mul (mul r r) a) 7 1 |> fun r => mul r r

/-- The generator polynomial, product of (x - α^i) for i = 0 to 5, highest coefficient first. -/
def genPoly : List Nat :=
  (List.range 6).foldl (fun g i => List.zipWith (· ^^^ ·) (g ++ [0]) (0 :: g.map (mul (powa i)))) [1]

/-- Remainder of division by the generator, one information symbol at a time. -/
def checkStep (rem : List Nat) (s : Nat) : List Nat :=
  let f := rem.headD 0 ^^^ s
  List.zipWith (· ^^^ ·) (rem.tail ++ [0]) (genPoly.tail.map (mul f))

/-- The six check symbols of 66 information symbols. -/
def check (info : List Nat) : List Nat := info.foldl checkStep (List.replicate 6 0)

def encode (info : List Nat) : List Nat := info ++ check info

/-- Syndromes at α^0 to α^5. -/
def syndromes (cw : List Nat) : List Nat :=
  (List.range 6).map fun i => cw.foldl (fun acc s => mul acc (powa i) ^^^ s) 0

/-- Solve a linear system over GF(2^8) by Gaussian elimination: rows hold the augmented matrix. -/
def solve : Nat → List (List Nat) → Option (List Nat)
  | 0, _ => some []
  | n + 1, rows =>
    match rows.find? (fun r => r.headD 0 != 0) with
    | none => none
    | some p =>
      let pi := inv (p.headD 0)
      let pn := p.map (mul pi)
      let rest := (rows.erase p).map fun r =>
        (List.zipWith (fun a b => a ^^^ mul (r.headD 0) b) r pn).tail
      match solve n rest with
      | none => none
      | some xs =>
        let rhs := pn.getLastD 0
        let acc := (List.zipWith mul pn.tail xs).foldl (· ^^^ ·) 0
        some ((rhs ^^^ acc) :: xs)

/-- Error values at given positions that explain the syndromes, if any. -/
def valuesAt (ps : List Nat) (syn : List Nat) : Option (List Nat) :=
  let n := ps.length
  let rows := (List.range n).map fun i => ps.map (fun j => powa (i * (71 - j))) ++ [syn.getD i 0]
  match solve n rows with
  | none => none
  | some vs =>
    let ok := (List.range 6).all fun i =>
      (List.zipWith (fun j v => mul v (powa (i * (71 - j)))) ps vs).foldl (· ^^^ ·) 0 == syn.getD i 0
    if ok then some vs else none

/-- Roots of the error locator of n errors: coefficients λ_1 .. λ_n, position j a root at α^-(71 - j). -/
def locate (lam : List Nat) : List Nat :=
  (List.range 72).filter fun j =>
    let x := powa (255 - (71 - j))
    (lam.foldr (fun c acc => c ^^^ mul acc x) 0 |> fun tail => mul tail x ^^^ 1) == 0

/-- Error positions for exactly n errors (Peterson's equations). -/
def positions (n : Nat) (syn : List Nat) : Option (List Nat) :=
  let rows := (List.range n).map fun i =>
    (List.range n).map (fun j => syn.getD (i + n - 1 - j) 0) ++ [syn.getD (i + n) 0]
  match solve n rows with
  | none => none
  | some lam => let ps := locate lam; if ps.length = n then some ps else none

def applyErrs (cw : List Nat) (ps vs : List Nat) : List Nat :=
  (List.zip ps vs).foldl (fun c pv => c.set pv.1 (c.getD pv.1 0 ^^^ pv.2)) cw

def tryN (n : Nat) (cw syn : List Nat) : Option (List Nat × Nat) :=
  match positions n syn with
  | none => none
  | some ps =>
    match valuesAt ps syn with
    | none => none
    | some vs => if vs.all (· != 0) then some (applyErrs cw ps vs, n) else none

/-- Decode a line of 72 symbols: the codeword and the number of symbols corrected, at most three (R173). -/
def decode (cw : List Nat) : Option (List Nat × Nat) :=
  let syn := syndromes cw
  if syn.all (· == 0) then some (cw, 0)
  else (tryN 1 cw syn).or ((tryN 2 cw syn).or (tryN 3 cw syn))

end Rs

end Sys2Proof.Machine
end

