-- ==== Sys2Proof/Machine/Chain.lean ====
section
/-! DEFINITION. The fused output chain (R136-R142) and the generator (R145-R149). -/

namespace Sys2Proof.Machine

/-- The generator's draw of element index e in a stream (R146, R147). -/
def genDraw (key : Bytes) (layer step stream e : Nat) : Nat :=
  let input := beBytes 2 layer ++ beBytes 4 (step % 2 ^ 32) ++ beBytes 6 (e / 8 * 8) ++ beBytes 1 stream ++ zeros 3
  bits (beNat (Aes.block key input)) (16 * (e % 8) + 15) (16 * (e % 8))

/-- The fields of an EPILOGUE descriptor (R141). -/
structure EpiDesc where
  scl : Bool
  bias : Bool
  res : Bool
  ovm : Bool
  dmode : Nat
  act : Nat
  rnd : Nat
  scaddr : Nat
  baddr : Nat
  qaddr : Nat
  xaddr : Nat
  layer : Nat
  keep : Nat
  dinv : Nat
  ibase : Nat
  ipitch : Nat
  iinc : List Int
  deriving DecidableEq, Repr

def EpiDesc.parse (d : Bytes) : EpiDesc :=
  let fl := byteAt d 1
  { scl := bit fl 0, bias := bit fl 1, res := bit fl 2, ovm := bit fl 3, dmode := bits fl 5 4, act := byteAt d 2,
    rnd := byteAt d 3, scaddr := field d 4 4, baddr := field d 8 4, qaddr := field d 12 4, xaddr := field d 16 4,
    layer := field d 20 2, keep := field d 22 2, dinv := field d 24 4, ibase := field d 28 6, ipitch := field d 36 4,
    iinc := [signed 32 (field d 40 4), signed 32 (field d 44 4), signed 32 (field d 48 4), signed 32 (field d 52 4)] }

/-- The element index of R147. -/
def elemIndex (e : EpiDesc) (iters : List Nat) (m n : Nat) : Nat :=
  unsigned 48 ((e.ibase : Int) + (List.zipWith (fun (i : Nat) (inc : Int) => (i : Int) * inc) iters e.iinc).foldl (· + ·) 0 +
    (m * e.ipitch + n : Nat))

/-- The rounding mode of a code (R95). -/
def rndOf : Nat → Rnd
  | 0 => .rne | 1 => .rtz | 2 => .rup | 3 => .rdn | _ => .sr

/-- The operands an epilogue reads for one element, as binary32 codes. -/
structure EpiIn where
  p : Nat
  c : Nat
  b : Nat
  a : Nat
  q : Nat
  deriving DecidableEq, Repr

def isNan32 (c : Nat) : Bool := (B32.dec c).isNan

/-- Stages 1 to 4 for one element (R136): z, and whether a NaN entered any stage (R138). `kept` is the DROP decision. -/
def chainElem (e : EpiDesc) (kept : Bool) (x : EpiIn) : Nat × Bool :=
  let y1 := if e.scl && e.bias then B32.fma x.p x.c x.b else if e.scl then B32.mul x.p x.c
    else if e.bias then B32.add x.p x.b else x.p
  let y := if e.act = 0 then y1 else activation e.act y1 x.a
  let z3 := if e.res then B32.add y x.q else y
  let z := if e.dmode = 1 then (if kept then B32.mul z3 e.dinv else 0)
    else if e.dmode = 2 then (if kept then B32.fma y e.dinv x.q else x.q) else z3
  let nan := isNan32 x.p || (e.scl && isNan32 x.c) || (e.bias && isNan32 x.b) || (actAux e.act && isNan32 x.a) ||
    (e.res && isNan32 x.q) || isNan32 y1 || isNan32 y || isNan32 z3 || isNan32 z
  (z, nan)

/-- Values of a grid with each panel's own SCALE applied (R139, R154). -/
def gridScaled (t : Tile) (rows cols : Nat) (ps : List PanelAt) : List (List Num) :=
  if gridHdrPoisoned ps then List.replicate rows (List.replicate cols Num.zero)
  else
    ((chunksOf (ceilDiv cols 256) ps.length ps).map fun band =>
      let vs := band.map fun p => (panelVals t false p).map (·.map (·.scale ((p.hdr.map (·.scale)).getD 0)))
      match vs with
      | [] => []
      | v :: vs => vs.foldl besides v).flatten

/-- What the chain needs beside the descriptor. -/
structure EpiCtx where
  tensor : Nat
  bucket : Nat
  ofmt : Fmt
  oaddr : Nat
  step : Nat
  iters : List Nat
  key : Bytes
  /-- Flags and contributor slots of the descriptor's other input panels (R24). -/
  flags : Nat
  contribs : List Nat
  /-- CONTRIB forced to FFh: a RAND output (R155). -/
  noInput : Bool
  deriving DecidableEq, Repr

/-- Write the output panels of one grid, each an output tile converted by itself (R113). -/
def epiPanels (e : EpiDesc) (x : EpiCtx) (flags contrib : Nat) (z : List (List (Nat × Bool))) :
    Tile → Nat → Nat → List (Nat × Nat × Nat × Nat) → Tile
  | t, _, _, [] => t
  | t, addr, k, (r0, c0, r, c) :: rest =>
    let part := ((z.drop r0).take r).map fun row => (row.drop c0).take c
    let u (i j : Nat) : Nat := if e.rnd = 4 then genDraw x.key e.layer x.step 1 (elemIndex e x.iters (r0 + i) (c0 + j)) else 0
    let (t, S, pc) := epilogueConvert t x.tensor x.step x.ofmt (rndOf e.rnd) e.ovm u (part.map (·.map (·.1)))
    let fl := flags ||| (if pc.nan || part.any (·.any (·.2)) then flNanp else 0) ||| (if pc.satInf || pc.ovf then flSat else 0)
    let h : PHdr := ⟨x.ofmt.code, S, x.tensor, x.bucket, r, c, fl, contrib, x.step⟩
    let t := t.spWrite addr (panelOut h x.ofmt pc.rows pc.exps)
    epiPanels e x flags contrib z t (addr + panelBytes x.ofmt false r c) (k + 1) rest

/-- Position and extent of each panel of a grid. -/
def gridPlaces (rows cols : Nat) : List (Nat × Nat × Nat × Nat) :=
  ((List.range (ceilDiv rows 256)).map fun pr =>
    (List.range (ceilDiv cols 256)).map fun pc => (256 * pr, 256 * pc, min 256 (rows - 256 * pr), min 256 (cols - 256 * pc))).flatten

/-- Run the fused output chain over partial sums `p` (rows × cols) and write the output panels (R136). -/
def runEpilogue (t : Tile) (e : EpiDesc) (x : EpiCtx) (p : List (List Nat)) : Tile :=
  let rows := p.length
  let cols := (p.headD []).length
  let cs := if e.scl then readArray t e.scaddr cols else []
  let bs := if e.bias then readArray t e.baddr cols else []
  let qg := if e.res then walkGrid t false .b32 e.qaddr (gridShape rows cols) else []
  let ag := if actAux e.act then walkFree t .b32 e.xaddr rows cols else []
  let qv := if e.res then gridScaled t rows cols qg else []
  let av := if actAux e.act then gridScaled t rows cols ag else []
  let arrPois := (e.scl && t.poisoned e.scaddr (4 * cols)) || (e.bias && t.poisoned e.baddr (4 * cols))
  let z := p.zipIdx.map fun (row, m) => row.zipIdx.map fun (pv, n) =>
    let kept := if e.dmode = 0 then true else decide (genDraw x.key e.layer x.step 0 (elemIndex e x.iters m n) < e.keep)
    chainElem e kept ⟨pv, cs.getD n 0, bs.getD n 0, B32.rnd (at2 av m n), B32.rnd (at2 qv m n)⟩
  let flags := x.flags ||| gridFlags t false qg ||| gridFlags t false ag ||| (if arrPois then flPois else 0)
  let contrib := if x.noInput then 0xFF else combContrib (x.contribs ++ gridContribs qg ++ gridContribs ag)
  epiPanels e x flags contrib z t x.oaddr 0 (gridPlaces rows cols)

end Sys2Proof.Machine
end

