-- ==== Sys2Proof/Machine/VecOps.lean ====
section
/-! DEFINITION. The vector unit's operations (R152-R161): values and status flags. -/

namespace Sys2Proof.Machine

/-- The fields of a VEC descriptor (R152). -/
structure VecDesc where
  rnd : Nat
  caus : Bool
  vop : Nat
  vfmt : Nat
  xaddr : Nat
  yaddr : Nat
  zaddr : Nat
  oaddr : Nat
  epi : Nat
  tensor : Nat
  bucket : Nat
  ofmt : Nat
  oscale : Int
  param0 : Nat
  param1 : Nat
  stepofs : Int
  vstream : Nat
  rows : Nat
  cols : Nat
  deriving DecidableEq, Repr

def VecDesc.parse (d : Bytes) : VecDesc :=
  { rnd := bits (byteAt d 1) 2 0, caus := bit (byteAt d 1) 3, vop := byteAt d 2, vfmt := byteAt d 3, xaddr := field d 4 4,
    yaddr := field d 8 4, zaddr := field d 12 4, oaddr := field d 16 4, epi := field d 20 2, tensor := field d 22 2,
    bucket := field d 24 2, ofmt := byteAt d 26, oscale := signed 8 (byteAt d 27), param0 := field d 28 4,
    param1 := field d 32 4, stepofs := signed 16 (field d 36 2), vstream := byteAt d 38, rows := field d 40 2 + 1,
    cols := field d 42 2 + 1 }

-- Flagged values: an operation's code with the flags raised so far (R82).
abbrev FV := Nat × FpFlags

def fvPair (a : FV) (f : FpFlags) : FV := (a.1, a.2.or f)

/-- A source element rounded into the compute format (R154). -/
def vecSource (f : Fmt) (x : Num) : FV := fvPair (roundIeee f .rne 0 x false) (invalidFlag x.isSnan)

/-- One element-wise operation of R155 on codes of the compute format. -/
def vecElem (vop : Nat) (f : Fmt) (rnd : Rnd) (u : Nat) (xc yc zc : Nat) : FV :=
  let x := f.decode xc
  let y := f.decode yc
  let z := f.decode zc
  match vop with
  | 0x01 => Ieee.add f rnd u x y
  | 0x02 => Ieee.mul f rnd u x y
  | 0x03 => Ieee.fma f rnd u x y z
  | 0x04 => Ieee.sqrt f rnd u x
  | 0x05 => Ieee.minimum f x y
  | 0x06 => Ieee.maximum f x y
  | 0x07 => Ieee.numOf Ieee.minimum f x y
  | 0x08 => Ieee.numOf Ieee.maximum f x y
  | 0x09 => Ieee.cmp Num.eq f x y
  | 0x0A => Ieee.cmp Num.lt f x y
  | 0x0B => Ieee.cmp Num.le f x y
  | 0x0C => Ieee.cmp Ieee.unordered f x y
  | 0x0D => (if x.isNan then f.nanCode else Ieee.exactCode f x.flip, {})
  | 0x0E => (if x.isNan then f.nanCode else Ieee.exactCode f x.abs, {})
  | 0x10 => Approx.rcp f rnd u x
  | 0x11 => Approx.rsqrt f rnd u x
  | 0x12 => Approx.exp f rnd u x
  | 0x13 => Approx.log f rnd u x
  | 0x26 => Ieee.mul f rnd u x y
  | _ => (xc, {})

/-- Codes of element-wise operations (R155). -/
def vecElementwise (vop : Nat) : Bool := (decide (1 ≤ vop) && decide (vop ≤ 0x13)) || vop == 0x26

/-- Valid VOPs (R155). -/
def vecValid (vop : Nat) : Bool :=
  (decide (1 ≤ vop) && decide (vop ≤ 0x13)) || [0x20, 0x21, 0x22, 0x24, 0x25, 0x26, 0x28, 0x30, 0x31].contains vop

/-- Panel sources and array sources of a VOP: X, Y, Z as panels; Y, Z as arrays. -/
def vecPanels (vop : Nat) : Bool × Bool × Bool :=
  if vop = 0x30 ∨ vop = 0x31 then (false, false, false)
  else if vop = 3 then (true, true, true)
  else if vop = 1 ∨ vop = 2 ∨ (5 ≤ vop ∧ vop ≤ 0xC) ∨ vop = 0x25 then (true, true, false)
  else (true, false, false)

def vecArrays (vop : Nat) : Bool × Bool :=
  if vop = 0x21 then (true, true) else if vop = 0x20 ∨ vop = 0x26 then (true, false) else (false, false)

/-- Output extent (R155). -/
def vecOut (d : VecDesc) : Nat × Nat := if d.vop = 0x24 ∨ d.vop = 0x25 then (d.rows, 1) else (d.rows, d.cols)

-- binary32 operations with round-to-nearest-even, gathering flags.
def vAdd (a b : FV) : FV := fvPair (Ieee.add .b32 .rne 0 (B32.dec a.1) (B32.dec b.1)) (a.2.or b.2)
def vMul (a b : FV) : FV := fvPair (Ieee.mul .b32 .rne 0 (B32.dec a.1) (B32.dec b.1)) (a.2.or b.2)
def vFma (a b c : FV) : FV := fvPair (Ieee.fma .b32 .rne 0 (B32.dec a.1) (B32.dec b.1) (B32.dec c.1)) (a.2.or (b.2.or c.2))
def vNeg (a : FV) : FV := (if isNan32 a.1 then Fmt.b32.nanCode else Ieee.exactCode .b32 (B32.dec a.1).flip, a.2)
def vMax (a b : FV) : FV := fvPair (Ieee.maximum .b32 (B32.dec a.1) (B32.dec b.1)) (a.2.or b.2)
def vRsqrt (a : FV) : FV := fvPair (Approx.rsqrt .b32 .rne 0 (B32.dec a.1)) a.2
def vRcp (a : FV) : FV := fvPair (Approx.rcp .b32 .rne 0 (B32.dec a.1)) a.2
def vExp (a : FV) : FV := fvPair (Approx.exp .b32 .rne 0 (B32.dec a.1)) a.2
def vOf (c : Nat) : FV := (c, {})

def addPairs : List FV → List FV
  | a :: b :: rest => vAdd a b :: addPairs rest
  | l => l

/-- The combination T(0, 128) of the lane results (R158). -/
def laneTree (l : List FV) : FV := ((Nat.repeat addPairs 7 l).headD (vOf 0))

/-- Lane results: value i goes into lane i mod 128 by `step`, each lane from +0 (R158). -/
def lanes (step : FV → Nat → FV) (n : Nat) : List FV :=
  (List.range 128).map fun lane => ((List.range n).filter (· % 128 = lane)).foldl step (vOf 0)

/-- The ordered sum of a row (R158). -/
def ordSum (v : List FV) : FV := laneTree (lanes (fun a i => vAdd a (v.getD i (vOf 0))) v.length)

/-- The ordered sum of products, by fused multiply-add into the lanes (R158). -/
def ordDot (v w : List FV) : FV :=
  laneTree (lanes (fun a i => vFma (v.getD i (vOf 0)) (w.getD i (vOf 0)) a) v.length)

/-- All flags of a list of values. -/
def flagsOf (l : List FV) : FpFlags := l.foldl (fun a x => a.or x.2) {}

def clean (l : List FV) : List FV := l.map fun x => vOf x.1

/-- The binary32 value nearest to 1/n (R158). -/
def recipNear (n : Nat) : Nat := (Approx.rcp .b32 .rne 0 (.fin false n 0)).1

def rmsnormRow (p0 : Nat) (g x : List FV) : List FV :=
  let s := ordDot x x
  let r := vRsqrt (vAdd (vMul s (vOf (recipNear x.length))) (vOf p0))
  List.zipWith (fun a b => vMul (vMul a r) b) x g

def layernormRow (p0 : Nat) (g b x : List FV) : List FV :=
  let k := vOf (recipNear x.length)
  let mu := vNeg (vMul (ordSum x) k)
  let d := x.map fun a => vAdd a mu
  let r := vRsqrt (vAdd (vMul (ordDot d d) k) (vOf p0))
  (List.zipWith (fun a gb => (a, gb)) d (g.zip b)).map fun x => vFma (vMul x.1 r) x.2.1 x.2.2

/-- One row of SOFTMAX (R159): element n of row m is masked when n > m + d. A masked element of a row with live ones is +0 and
raises the flags of its source rounding (R154) and of x × PARAM0, which step 1 forms for every element. -/
def softmaxRow (p0 : Nat) (caus : Bool) (d : Int) (m : Nat) (x : List FV) : List FV :=
  let live (n : Nat) : Bool := !caus || decide ((n : Int) ≤ (m : Int) + d)
  let xs := x.zipIdx.map fun (a, n) => (vMul a (vOf p0), live n)
  let un := (xs.filter (·.2)).map (·.1)
  match un with
  | [] => x.map fun _ => vOf 0
  | a :: rest =>
    if un.all (fun v => B32.dec v.1 == .inf true) then x.map fun _ => vOf 0
    else
      let mx := vNeg (rest.foldl vMax a)
      let e := xs.map fun p => if p.2 then vExp (vAdd p.1 mx) else vOf 0
      let r := vRcp (ordSum e)
      List.zipWith (fun a p => if p.2 then vMul a r else (0, p.1.2)) e xs

/-- Modified Gram-Schmidt over columns (R160): `qs` the finished columns, oldest first. -/
def orthoCols (p0 : Nat) : List (List FV) → List (List FV) → List (List FV)
  | qs, [] => qs
  | qs, v :: rest =>
    let v := qs.foldl (fun v q => let dneg := vNeg (ordDot q v); List.zipWith (fun a b => vFma dneg a b) q v) v
    let nn := ordDot v v
    let q := if Num.lt (B32.dec nn.1) (B32.dec p0) then v.map fun _ => vOf 0
      else let r := vRsqrt nn; v.map fun a => vMul a r
    orthoCols p0 (qs ++ [q]) rest

/-- Transpose a matrix of n columns. -/
def transpose {α : Type} (n : Nat) (m : List (List α)) (d : α) : List (List α) :=
  (List.range n).map fun j => m.map fun r => r.getD j d

/-- Every flag a whole-row operation's intermediate values carry is raised; a row of SOFTMAX written as +0 throughout
carries none (R159). The result of a VEC on its decoded sources: codes of the compute format, with flags. -/
def vecCompute (d : VecDesc) (f : Fmt) (u : Nat → Nat → Nat) (x y z : List (List FV)) (ya za : List FV) : List (List FV) :=
  let el (i j : Nat) : FV :=
    let g (m : List (List FV)) : FV := (m.getD i []).getD j (vOf 0)
    let b := if d.vop = 0x26 then ya.getD i (vOf 0) else g y
    let c := g z
    fvPair (vecElem d.vop f (rndOf d.rnd) (u i j) (g x).1 b.1 c.1) ((g x).2.or (b.2.or c.2))
  if vecElementwise d.vop then (List.range d.rows).map fun i => (List.range d.cols).map fun j => el i j
  else match d.vop with
    | 0x20 => x.map (rmsnormRow d.param0 ya)
    | 0x21 => x.map (layernormRow d.param0 ya za)
    | 0x22 => x.zipIdx.map fun (r, m) => softmaxRow d.param0 d.caus (signed 32 d.param1) m r
    | 0x24 => x.map fun r => [ordSum r]
    | 0x25 => List.zipWith (fun a b => [ordDot a b]) x y
    | 0x28 => transpose d.rows (orthoCols d.param0 [] (transpose d.cols x (vOf 0))) (vOf 0)
    | _ => []

end Sys2Proof.Machine
end

