-- ==== Sys2Proof/Machine/Operands.lean ====
section
/-! DEFINITION. Every operand form of the tile's descriptors: layouts, loop advances, and the checks before dispatch
(R60, R64-R73, R139, R141, R151-R161, R225). -/

namespace Sys2Proof.Machine

/-- What the checks need of the partition: the tile, its KEYID range, its tiles, the drop-out key, its streams. -/
structure DispCtx where
  tile : Nat
  keyLo : Nat
  keyCount : Nat
  firstTile : Nat
  tileCount : Nat
  dropKey : Option Bytes
  streams : List (Nat × Stream)
  /-- Common-form mode is honoured (R53). -/
  cf : Bool
  deriving DecidableEq, Repr

def kindOf (d : Bytes) : Nat := byteAt d 0

/-- A scratchpad address (R54). -/
def spAddrOk (a : Nat) : Bool := a % 64 == 0 && decide (a < 4194304)

/-- A range that lies in scratchpad whole. One that begins there and runs past 3FFFFFh makes its descriptor invalid
(DESIGN CHOICE, log 42: R64 names the address alone). -/
def spRangeOk (a len : Nat) : Bool := spAddrOk a && decide (a + len ≤ 4194304)

/-- ONLAST of a descriptor that has it (R69). -/
def onLast (d : Bytes) : Nat := if [1, 2, 4, 5].contains (kindOf d) then bits (byteAt d 1) 7 6 else 0

/-- Lane class width of a format (R35). -/
def laneBits : Fmt → Nat
  | .b32 => 32 | .b16 | .zw16 => 16 | .zw8e4 | .zw8e5 => 8 | .zw6 | .zw6b => 6 | .zw4 | .zw4b => 4

/-- K-block of a lane class (R35). -/
def kBlock (lane : Nat) : Nat := match lane with | 8 => 256 | 6 => 256 | 4 => 512 | _ => 128

/-- Output columns N (R35). -/
def nCols (acc16 : Bool) : Nat := if acc16 then 256 else 128

/-- The fields of a PASS descriptor (R66). -/
structure PassDesc where
  first : Bool
  last : Bool
  wkeep : Bool
  cf : Bool
  w2 : Bool
  wfmt : Nat
  afmt : Nat
  acc : Nat
  split : Nat
  mrows : Nat
  waddr : Nat
  aaddr : Nat
  psum : Nat
  ppitch : Nat
  stepofs : Int
  epi : Nat
  tensor : Nat
  bucket : Nat
  ofmt : Nat
  oaddr : Nat
  deriving DecidableEq, Repr

def PassDesc.parse (d : Bytes) : PassDesc :=
  let fl := byteAt d 1
  { first := bit fl 0, last := bit fl 1, wkeep := bit fl 2, cf := bit fl 3, w2 := bit fl 4, wfmt := byteAt d 2, afmt := byteAt d 3, acc := byteAt d 4,
    split := byteAt d 5, mrows := field d 6 2 + 1, waddr := field d 8 4, aaddr := field d 12 4, psum := field d 16 4,
    ppitch := field d 20 2, stepofs := signed 16 (field d 22 2), epi := field d 24 2, tensor := field d 26 2,
    bucket := field d 28 2, ofmt := byteAt d 30, oaddr := field d 32 4 }

/-- The fields of a DMA descriptor (R70). -/
structure DmaDesc where
  out : Bool
  comp : Bool
  host : Bool
  saddr : Nat
  daddr : Nat
  sid : Nat
  chunk : Nat
  rowlen : Nat
  nrows : Nat
  sstride : Nat
  dstride : Nat
  deriving DecidableEq, Repr

def DmaDesc.parse (d : Bytes) : DmaDesc :=
  let fl := byteAt d 1
  { out := bit fl 0, comp := bit fl 1, host := bit fl 2, saddr := field d 4 4, daddr := field d 8 8, sid := field d 8 4,
    chunk := field d 12 4, rowlen := field d 16 4, nrows := field d 20 2 + 1, sstride := field d 24 4, dstride := field d 28 8 }

/-- The fields of SEND and RECV (R72). -/
structure MeshDesc where
  peer : Nat
  addr : Nat
  len : Nat
  deriving DecidableEq, Repr

def MeshDesc.parse (d : Bytes) : MeshDesc := ⟨byteAt d 2, field d 4 4, field d 8 4⟩

/-- Place and length of an address field by the kind and field code of an increment pair (R68, R153). -/
def fieldPlace (kind code : Nat) : Option (Nat × Nat) :=
  match kind, code with
  | 1, 0 => some (8, 4) | 1, 1 => some (12, 4) | 1, 2 => some (16, 4) | 1, 3 => some (32, 4)
  | 2, 0 => some (4, 4) | 2, 4 => some (8, 8)
  | 3, 0 => some (4, 4) | 3, 1 => some (8, 4) | 3, 2 => some (12, 4) | 3, 3 => some (16, 4)
  | 4, 0 => some (4, 4)
  | 5, 1 => some (4, 4)
  | _, _ => none

/-- Is the descriptor a DMA with HOST set? -/
def hostDma (d : Bytes) : Bool := kindOf d == 2 && bit (byteAt d 1) 2

/-- The place of field code `code` in descriptor d, with the unit of INC in bytes or chunks (R68). -/
def advancePlace (d : Bytes) (code : Nat) : Option (Nat × Nat × Nat) :=
  if hostDma d && code == 4 then some (12, 4, 1)
  else (fieldPlace (kindOf d) code).map fun p => (p.1, p.2, 64)

/-- The advance of one increment pair on iteration i (R68). -/
def pairAdvance (pair : Bytes) (iter unit : Nat) : Int :=
  signed 32 (field pair 4 4) * (if byteAt pair 1 = 0 then (iter : Int) else ((iter % 2 : Nat) : Int)) * unit

/-- One field of d after the advances of every enclosing loop (R69). -/
def advanced (d : Bytes) (slot : Nat) (loops : List LoopFrame) (code : Nat) : Option (Nat × Nat × Int) :=
  (advancePlace d code).map fun p =>
    let delta := (loops.map fun l =>
      ((l.pairs.filter fun pr => byteAt pr 0 == 8 * (slot - l.slot - 1) + code).map fun pr => pairAdvance pr l.iter p.2.2).foldl
        (· + ·) 0).foldl (· + ·) 0
    (p.1, p.2.1, (field d p.1 p.2.1 : Int) + delta)

/-- The descriptor with every loop advance applied; none where a field leaves its width (R68, R69). -/
def resolve (d : Bytes) (slot : Nat) (loops : List LoopFrame) : Option Bytes :=
  ([0, 1, 2, 3, 4].filterMap (advanced d slot loops)).foldl
    (fun (acc : Option Bytes) (p : Nat × Nat × Int) => acc.bind fun b => if (0 : Int) ≤ p.2.2 ∧ p.2.2 < ((2 ^ (8 * p.2.1) : Nat) : Int) then some (patch b p.1 (leBytes p.2.1 p.2.2.toNat)) else none)
    (some d)

/-- DCHK (R60). -/
def dchkOk (d : Bytes) : Bool := field d 60 4 == crc32c (d.take 60)

/-- A loop iteration is its last (R69). -/
def LoopFrame.atLast (l : LoopFrame) : Bool := l.iter + 1 == l.count

/-- ONLAST names an enclosing loop, and whether the descriptor executes on this iteration (R69). -/
def onLastExec (d : Bytes) (loops : List LoopFrame) : Option Bool :=
  match onLast d with
  | 0 => some true
  | n => (loops[n - 1]?).map (·.atLast)

def fmtOk (c : Nat) : Bool := (Fmt.ofCode c).isSome

/-- Formats of a pass's weight and activation operands. -/
def PassDesc.fmts (p : PassDesc) : Option (Fmt × Fmt) :=
  match Fmt.ofCode p.wfmt, Fmt.ofCode p.afmt with
  | some w, some a => some (w, a)
  | _, _ => none

/-- The lane class of a pass: that of the wider of its operands (R35, R52). -/
def passLane (f : Fmt × Fmt) : Nat := max (laneBits f.1) (laneBits f.2)

/-- The formats a pass takes: one format, or in common form, where it is honoured, any two of 02h to 09h with binary32
accumulation and no split (R52, R53). -/
def cfOk (x : DispCtx) (p : PassDesc) (f : Fmt × Fmt) : Bool :=
  if p.cf then x.cf && f.1 != .b32 && f.2 != .b32 && p.acc == 0 && p.split == 0 else f.1 == f.2

/-- Checks of a PASS that depend on no loop advance (R36, R47, R50-R53, R66). On a pass that uses no epilogue, an EPI of
1000h-FFFEh is invalid and OFMT may be any byte (DESIGN CHOICE, log 42: R66 says only that the tile does not use them). -/
def passStatic (x : DispCtx) (d : Bytes) : Bool :=
  let p := PassDesc.parse d
  match p.fmts with
  | none => false
  | some f =>
    cfOk x p f && !bit (byteAt d 1) 5 && decide (p.acc ≤ 1) && decide (p.split ≤ 3) &&
    decide (p.mrows ≤ 2048) && (p.acc == 0 || decide (passLane f ≤ 8)) &&
    (if p.split = 0 then f.1 != .b32 else f.1 == .b32 && p.acc == 0) && (!p.w2 || passLane f == 4) && (!p.wkeep || p.split == 0) &&
    decide (nCols (p.acc == 1) * 4 ≤ p.ppitch * 64) && (p.epi == 0xFFFF || decide (p.epi < 4096)) &&
    zeroRange d 31 1 && zeroRange d 36 24

/-- Checks of a DMA that depend on no loop advance (R70, R71, R225). -/
def dmaStatic (d : Bytes) : Bool :=
  let p := DmaDesc.parse d
  bits (byteAt d 1) 5 3 == 0 && zeroRange d 2 2 && zeroRange d 22 2 && zeroRange d 36 24 && p.rowlen % 64 == 0 &&
  decide (64 ≤ p.rowlen) && decide (p.rowlen ≤ 4194304) && p.sstride % 64 == 0 && p.dstride % 64 == 0 &&
  (!p.host || p.dstride == 0) && (!p.comp || (p.nrows == 1 && p.sstride == 0 && p.dstride == 0))

/-- Checks of SEND and RECV that depend on no loop advance (R72). -/
def meshStatic (x : DispCtx) (d : Bytes) : Bool :=
  let p := MeshDesc.parse d
  bits (byteAt d 1) 5 0 == 0 && zeroRange d 3 1 && zeroRange d 12 48 && p.len % 64 == 0 && decide (64 ≤ p.len) &&
  decide (p.len ≤ 4194304) &&
  (p.peer == 0x40 || (p.peer != x.tile && decide (x.firstTile ≤ p.peer) && decide (p.peer < x.firstTile + x.tileCount)))

/-- Checks of a VEC on its fields as written (R95, R152-R155, R161). FSTORE takes any OFMT (DESIGN CHOICE, log 42: R155 and
R161 ask only that its XADDR, YADDR and ZADDR be zero). -/
def vecStatic (d : Bytes) : Bool :=
  let p := VecDesc.parse d
  vecValid p.vop && decide (p.rnd ≤ 4) && bits (byteAt d 1) 7 4 == 0 && [1, 2, 3].contains p.vfmt &&
  (vecElementwise p.vop || p.vfmt == 1) && !(p.rnd == 4 && p.epi == 0xFFFF) && (p.epi == 0xFFFF || decide (p.epi < 4096)) &&
  zeroRange d 39 1 && zeroRange d 44 16 &&
  (if p.vop = 0x30 then p.epi != 0xFFFF && decide (3 ≤ p.vstream) && decide (p.vstream ≤ 0xEF) else p.vstream == 0) &&
  (!(p.vop == 0x30 || p.vop == 0x31) || zeroRange d 4 12) &&
  (if p.vop = 0x31 then p.rows == 1 && p.cols == 1 else fmtOk p.ofmt) &&
  (p.vop != 0x28 || (decide (p.rows ≤ 16384) && decide (p.cols ≤ 256) && decide (0 < p.param0) && decide (p.param0 ≤ 0x7F800000)))

/-- Increment pairs of a LOOP (R67). -/
def loopPairs (d : Bytes) : List Bytes := (List.range (byteAt d 3)).map fun i => sub d (8 + 8 * i) 8

/-- Checks of a LOOP at its slot (R67, R68). `kindAt` gives the descriptor at a slot. -/
def loopOk (d : Bytes) (slot : Nat) (loops : List LoopFrame) (descAt : Nat → Bytes) : Bool :=
  let body := byteAt d 2
  let np := byteAt d 3
  byteAt d 1 / 2 == 0 && decide (1 ≤ body) && decide (body ≤ 32) && decide (np ≤ 6) && field d 4 4 != 0 && zeroRange d 56 4 &&
  zeroRange d (8 + 8 * np) (48 - 8 * np) && decide (slot + body ≤ 4095) && decide (loops.length < 4) &&
  loops.all (fun l => decide (slot + body ≤ l.slot + l.body)) &&
  (loopPairs d).all fun pr =>
    let pos := byteAt pr 0 / 8
    decide (pos < body) && decide (byteAt pr 0 % 8 ≤ 4) && decide (byteAt pr 1 ≤ 1) && zeroRange pr 2 2 &&
    (fieldPlace (kindOf (descAt (slot + 1 + pos))) (byteAt pr 0 % 8)).isSome

/-- Checks of an EPILOGUE descriptor (R139, R141, R151). -/
def epiStatic (x : DispCtx) (d : Bytes) : Bool :=
  let e := EpiDesc.parse d
  dchkOk d && kindOf d == 7 && bits (byteAt d 1) 7 6 == 0 && e.dmode != 3 && actValid e.act && (e.rnd == 0 || e.rnd == 4) &&
  zeroRange d 34 2 && zeroRange d 56 4 && (e.dmode == 0 || e.keep != 0) && (e.dmode != 2 || e.res) &&
  (!e.scl || spAddrOk e.scaddr) && (!e.bias || spAddrOk e.baddr) && (!e.res || spAddrOk e.qaddr) &&
  (!actAux e.act || spAddrOk e.xaddr) && ((e.dmode == 0 && e.rnd == 0) || x.dropKey.isSome)

/-- Two ranges overlap. -/
def overlaps (a b : Nat × Nat) : Bool := decide (a.1 < b.1 + b.2) && decide (b.1 < a.1 + a.2)

/-- Bytes of an output grid (R58). -/
def outBytes (f : Fmt) (rows cols : Nat) : Nat := ((gridShape rows cols).map fun p => panelBytes f false p.1 p.2).foldl (· + ·) 0

/-- What the checks found: the ranges a descriptor's operands take, the panels whose headers were read, and whether every rule
holds. -/
structure Reads where
  ranges : List (Nat × Nat)
  panels : List PanelAt
  ok : Bool
  deriving DecidableEq, Repr

/-- Ranges an epilogue reads over a rows × cols output, and whether its operands keep R139 (R62). -/
def epiReads (t : Tile) (e : EpiDesc) (rows cols : Nat) : Reads :=
  let shape := gridShape rows cols
  let qg := walkGrid t false .b32 e.qaddr shape
  let ag := walkFree t .b32 e.xaddr rows cols
  let qg0 := if e.res then qg else []
  let ag0 := if actAux e.act then ag else []
  let qok := !e.res || (gridOk qg (some .b32) && (qg.filterMap (·.hdr)).all (·.scale == 0))
  let aok := !actAux e.act || (gridOk ag none && (ag.filterMap (·.hdr)).all fun h => [1, 2, 3].contains h.fmt)
  let rs := (if e.scl then [(e.scaddr, roundUp (4 * cols) 64)] else []) ++ (if e.bias then [(e.baddr, roundUp (4 * cols) 64)] else []) ++
    (if e.res then [gridRange false qg] else []) ++ (if actAux e.act then [gridRange false ag] else [])
  ⟨rs, qg0 ++ ag0, qok && aok && rs.all fun r => spRangeOk r.1 r.2⟩

/-- The weight and activation grids of a pass (R58, R66, R531): rows and columns of the weight operand, its panels, the
activation panels, and whether the headers agree. For a WKEEP pass the active weights give the extent. -/
structure PassGrids where
  wrows : Nat
  wcols : Nat
  wps : List PanelAt
  aps : List PanelAt
  ok : Bool
  deriving DecidableEq, Repr

def passGrids (t : Tile) (p : PassDesc) (fs : Fmt × Fmt) (kept : Option (Nat × Nat)) : PassGrids :=
  let whdr (a : Nat) : Option PHdr := if t.poisoned a 16 then none else some (PHdr.parse (t.sp.read a 16))
  let h0 := whdr p.waddr
  -- columns of the activation operand from its first row of panels, when readable
  let kb := kBlock (passLane fs)
  let dfltRows := if passLane fs = 4 ∧ !p.w2 then 256 else kb
  let aHdr (a : Nat) : Option PHdr := whdr a
  let acols : Option Nat :=
    (aHdr p.aaddr).bind fun a0 =>
      if a0.cols < 256 ∨ dfltRows ≤ 256 then some a0.cols
      else
        let second := p.aaddr + panelBytes fs.2 false (min 256 p.mrows) 256
        match aHdr second with
        | some a1 => if p.w2 then some (256 + a1.cols) else some 256
        | none => none
  let wc := (kept.map (·.2)).getD ((h0.map (·.cols)).getD (nCols (p.acc == 1)))
  let secondAddr := p.waddr + panelBytes fs.1 true 256 wc
  let wr := (kept.map (·.1)).getD <|
    if p.w2 then
      match h0, whdr secondAddr with
      | some _, some h1 => 256 + h1.rows
      | _, _ => acols.getD kb
    else match h0 with
      | some h => h.rows
      | none => acols.getD dfltRows
  -- whether readable headers give the weight operand's rows and columns; the first of two stacked panels holds 256 rows (R58)
  let rowsKnown := kept.isSome || acols.isSome || (h0.isSome && (!p.w2 || (whdr secondAddr).isSome))
  let wps := if kept.isSome then [] else walkGrid t true fs.1 p.waddr (gridShape wr wc)
  let aps := walkGrid t false fs.2 p.aaddr (gridShape p.mrows wr)
  let ok := gridOk (if p.w2 then wps.take 1 else []) none true false && gridOk wps (some fs.1) rowsKnown h0.isSome &&
    (wps.filterMap (·.hdr)).all (fun h => decide (h.cols ≤ nCols (p.acc == 1))) && gridOk aps (some fs.2) true rowsKnown &&
    gridOneScale wps && gridOneScale aps && decide (1 ≤ wr) &&
    decide (wr ≤ kb) && decide (wc ≤ nCols (p.acc == 1)) && (!p.w2 || decide (256 < wr)) && (p.w2 || decide (wr ≤ 256))
  ⟨wr, wc, wps, aps, ok && (kept.isSome || spRangeOk p.waddr (gridRange true wps).2) && spRangeOk p.aaddr (gridRange false aps).2⟩

/-- The operand of a grid, poison and flags included. -/
def operandOf (t : Tile) (weight : Bool) (rows cols : Nat) (ps : List PanelAt) : Operand :=
  { rows := rows, cols := cols, vals := gridVals t weight rows cols ps, scale := gridScale ps, flags := gridFlags t weight ps,
    contribs := gridContribs ps }

/-- Device-address checks (R71, R168): key in range, own tile, inside the data window. -/
def devRangeOk (x : DispCtx) (daddr len : Nat) : Bool :=
  bits daddr 55 41 == 0 && bits daddr 40 35 == x.tile && decide (bits daddr 34 0 + len ≤ 0x7DB000000) &&
  decide (x.keyLo ≤ daddr / 2 ^ 56) && decide (daddr / 2 ^ 56 < x.keyLo + x.keyCount)

/-- Chunks a HOST transfer of n bytes covers (R71). -/
def chunksFor (n : Nat) : Nat := ceilDiv n 4096

/-- Rows of a plain transfer as scratchpad address, device address (R70). -/
def dmaRows (p : DmaDesc) : List (Nat × Nat) :=
  (List.range p.nrows).map fun r => (p.saddr + r * p.sstride, p.daddr + r * p.dstride)

end Sys2Proof.Machine
end

