-- ==== Sys2Proof/Machine/TypesRing.lean ====
section
/-! DEFINITION. The pieces of state of the ring ports (09), of the carding engine (10) and of checkpoint and restore (13). -/

namespace Sys2Proof.Machine

/-- States of a port (R273). -/
inductive PortSt where
  | unused | bypassed | down | hold | train | attest | up | refused
  deriving DecidableEq, Repr

/-- The PSTATE byte of a port status record (R273). -/
def PortSt.code : PortSt → Nat
  | .unused => 0 | .bypassed => 1 | .down => 2 | .hold => 3 | .train => 4 | .attest => 5 | .up => 6 | .refused => 7

/-- A DATA frame as a port holds it: what stays the same from hop to hop (R247, R251). -/
structure Frame where
  part : Nat
  vc : Nat
  som : Bool
  eom : Bool
  hop : Bool
  dst : Nat
  src : Nat
  sport : Nat
  job : Nat
  /-- Given when the frame is first sent by its source (R253). -/
  eseq : Option Nat
  /-- In clear where it waits at its source or destination, or is sealed hop by hop; as received in transit. -/
  payload : Bytes
  ptag : Bytes
  /-- A payload sealed hop by hop whose tag failed at an earlier hop. -/
  badTag : Bool
  /-- SEQ of the command that injected it; 0 for none (R253). -/
  own : Nat
  deriving DecidableEq, Repr

/-- A frame of the replay buffer with its FSEQ and SLOT (R261). -/
structure Replay where
  fseq : Nat
  slot : Nat
  frame : Frame
  deriving DecidableEq, Repr

/-- A frame of a receive buffer (R259): held until it passes on. -/
structure RxFrame where
  frame : Frame
  poisoned : Bool
  deriving DecidableEq, Repr

/-- The link keys as this end uses them (R272). -/
structure LinkKeys where
  txHdr : Bytes
  rxHdr : Bytes
  txPay : Bytes
  rxPay : Bytes
  deriving DecidableEq, Repr

/-- What an end has received during attestation (R270): the HELLO, and the digest of the neighbour's public key once its
evidence has come. -/
structure Greeting where
  pk : Bytes
  coord : Nat
  nport : Nat
  peerNonce : Bytes
  deriving DecidableEq, Repr

/-- One ring port. Per-partition, per-VC counts are at index 4 × partition + VC. -/
structure Port where
  state : PortSt
  count : Nat
  /-- Injected frames waiting, oldest first. -/
  txq : List Frame
  replay : List Replay
  /-- FSEQs still to be resent in a go-back under way (R261). -/
  resend : List Nat
  nextF : Nat
  acked : Nat
  ackCount : Nat
  rxF : Nat
  /-- A frame has failed and the expected one has not come yet (R260). -/
  bad : Bool
  nak : Bool
  txc : Nat
  rxc : Nat
  /-- Frames sent and not yet freed; the last CRET seen; frames freed here. -/
  spent : List Nat
  cretSeen : List Nat
  freed : List Nat
  rxq : List RxFrame
  /-- Per partition, the next of VC0, VC1, VC3 in rotation; per partition and VC, whether a transit frame goes next (R258, R357). -/
  rot : List Nat
  transitNext : List Bool
  keys : Option LinkKeys
  /-- Own nonce of the HELLO under way, and what the neighbour said. -/
  nonce : Option Bytes
  greeting : Option Greeting
  /-- The D+ end's evidence has been sent with the encapsulation key drawn at this counter. -/
  ekDraw : Option Nat
  /-- Last attested neighbour: coordinates and public-key digest (R275). -/
  peer : Option (Nat × Bytes)
  /-- The neighbour of this attestation differs from the last one (R275). -/
  differs : Bool
  crSent : List Nat
  crGot : List Nat
  loopOk : Bool
  neighbour : Nat
  ndist : Nat
  wrap : Bool
  refusal : Nat
  refusedAt : Nat
  /-- Port counts of the retrain starts of the last second, and of hop integrity events (R262, R274). -/
  starts : List Nat
  hops : List Nat
  /-- Frames dropped: all of them, and those of each partition (R256, R264, R267, R360). -/
  drops : Nat
  partDrops : List Nat
  fecc : Nat
  gobk : Nat
  hopint : Nat
  /-- Bytes of its HELLO and evidence still to go out in TRAIN frames (R270). -/
  say : Bytes
  /-- Last frame put on the fibre, as the eight lanes carry it (R244). -/
  wire : List Bytes
  deriving DecidableEq, Repr

def Port.fresh : Port :=
  { state := .bypassed, count := 0, txq := [], replay := [], resend := [], nextF := 0, acked := 4095, ackCount := 0, rxF := 4095,
    bad := false, nak := false, txc := 0, rxc := 0, spent := List.replicate 32 0, cretSeen := List.replicate 32 0,
    freed := List.replicate 32 0, rxq := [], rot := List.replicate 8 0, transitNext := List.replicate 32 false, keys := none, nonce := none,
    greeting := none, ekDraw := none, peer := none, differs := false, crSent := [], crGot := [], loopOk := false, neighbour := 0,
    ndist := 0, wrap := false, refusal := 0, refusedAt := 0, starts := [], hops := [], drops := 0, partDrops := List.replicate 8 0, fecc := 0,
    gobk := 0, hopint := 0, say := [], wire := [] }

/-- A message being reassembled, or reassembled, by (SRC, VC) within its partition (R257). -/
structure Msg where
  src : Nat
  vc : Nat
  job : Nat
  data : Bytes
  /-- Frames whose payload is poisoned, by number. -/
  bad : List Nat
  frames : Nat
  whole : Bool
  /-- Nothing of it is kept: it is dropped frame by frame to its end. -/
  skip : Bool
  /-- 64-bit words of the engine's store or buffer that hold it with one or two bits in error (R281). -/
  errs : List (Nat × Nat)
  deriving DecidableEq, Repr

/-- An element in the engine: its code in the wire format and the MFLAGS of every input that contributed to it (R297). -/
abbrev Elem := Nat × Nat

/-- Consecutive elements of the bucket matrix at one SCALE. -/
structure Piece where
  first : Nat
  scale : Int
  elems : List Elem
  deriving DecidableEq, Repr

/-- What one tile has contributed so far: rows of widened binary32 values with their flags; for MOVE, bytes, with length and flags
of each panel in `vals`. -/
structure Contribution where
  tile : Nat
  /-- SCALE of its first panel. -/
  scale : Int
  rows : Nat
  vals : List Elem
  bytes : Bytes
  /-- 64-bit words of the engine's buffer that hold it with one or two bits in error (R281): two values, or 8 bytes of a MOVE. -/
  errs : List (Nat × Nat)
  deriving DecidableEq, Repr

/-- BSTATE of an entry (R284). -/
inductive BState where
  | waiting | folding | gathering | marking | failed
  deriving DecidableEq, Repr

/-- An entry of the bucket table (R284). -/
structure Bucket where
  tag : Nat
  job : Nat
  bkind : Nat
  bstate : BState
  wfmt : Nat
  whead : Nat
  step : Nat
  att : Nat
  dims : Nat
  /-- Member coordinates along each dimension of the group, X to W, and this member's position there (R288). -/
  ring : List (List Nat)
  pos : List Nat
  tensor : Nat
  cols : Nat
  group : Nat
  trows : Nat
  cmask : Nat
  rmask : Nat
  peer : Nat
  npol : Nat
  maxw : Nat
  expc : Nat
  arrc : Nat
  /-- The REDUCE that installed it. -/
  seq : Nat
  contribs : List Contribution
  /-- The member's values entering reduce stage i, i = 0 the local fold (R292, R294). -/
  stages : List (List Piece)
  /-- The finished values it holds. -/
  result : List Piece
  /-- Slice messages already sent: stage kind (0 PARTIAL, 1 FINAL, 2 GATHER), dimension, first element. -/
  sent : List (Nat × Nat × Nat)
  /-- MOVE: bytes moved so far at a destination, and the MFLAGS they came with. -/
  moved : Bytes
  movedFl : Nat
  /-- A held result of a restore (R412): the deliveries as bytes per tile, and whether they read as poisoned. -/
  held : Option (List (Nat × Bytes × Bool))
  /-- Bytes delivered to each receiving tile; the tiles done; the tiles whose delivery stopped (R299). -/
  given : List (Nat × Nat)
  gone : List Nat
  cut : List Nat
  mkup : List Nat
  mkdn : List Nat
  /-- Captured at a freeze, with the CAP records written (R395). -/
  captured : Bool
  /-- Engine count since which it waits on the ring (R312). -/
  since : Option Nat
  /-- 64-bit words of its table row with one or two bits in error (R281). -/
  errs : List (Nat × Nat)
  deriving DecidableEq, Repr

/-- A partition's share of the engine. -/
structure Carding where
  /-- Live entries in the order of their installation. -/
  table : List Bucket
  /-- Messages in reassembly and waiting, VC0 and VC1; those with no live entry are the parked ones (R303). -/
  msgs : List Msg
  /-- The last 64 discarded keys: JOB, TAG, STEP, ATT. -/
  dead : List (Nat × Nat × Nat × Nat)
  deriving DecidableEq, Repr

def Carding.empty : Carding := ⟨[], [], []⟩

/-- A unit of a checkpoint log with its index entry (R397, R398). -/
structure CkUnit where
  ent : Bytes
  data : Bytes
  deriving DecidableEq, Repr

/-- A region of a tile's plan (R390). -/
structure Region where
  kidx : Nat
  rclass : Nat
  gidx : Nat
  ofs : Nat
  len : Nat
  deriving DecidableEq, Repr

/-- A tile's plan (R390). -/
structure Plan where
  regions : List Region
  bmofs : Nat
  bmlen : Nat
  capofs : Nat
  caplen : Nat
  budofs : Nat
  budlen : Nat
  deriving DecidableEq, Repr

/-- A STASH region being read for narrowing (R407): the granules read so far; `base` is the place of its first granule in the
tile's plan order. -/
structure Narrowing where
  tile : TileId
  region : Region
  base : Nat
  got : List (Nat × Option Bytes)
  deriving DecidableEq, Repr

/-- A CHECKPOINT under way (R393-R406). -/
structure Ckpt where
  seq : Nat
  ckno : Nat
  step : Nat
  narrow : Bool
  /-- The buddy's coordinates, or none for the host stream `sid`. -/
  buddy : Option Nat
  sid : Nat
  /-- Started under R328. -/
  started : Bool
  frozen : Bool
  entry : Nat
  pland : Bytes
  lossn : Nat
  /-- Units in the chunk being filled, chunks formed, units in use. -/
  units : List CkUnit
  chunks : Nat
  nunit : Nat
  /-- Granules still to be copied per tile, and stash slots being read. -/
  left : Nat
  narrowing : List Narrowing
  /-- Captured keys, BTAG and BKIND, and how many CAP records have still to come. -/
  caps : List (Nat × Nat)
  capsLeft : List (Nat × Nat)
  /-- Granules written so far of each tile's capture offsets, for OFS of CAP records. -/
  capOfs : List (Nat × Nat)
  /-- The copy bitmap of each tile: tile and BMOFS (R390, R400); the tile whose granule was copied last (R399). -/
  bms : List (Nat × Nat)
  turn : Nat
  trailerSent : Bool
  deriving DecidableEq, Repr

/-- What a trailer says (R401). -/
structure Trailer where
  job : Nat
  ckno : Nat
  step : Nat
  coord : Nat
  pidx : Nat
  narw : Bool
  buddy : Bool
  entry : Nat
  nchunk : Nat
  nunit : Nat
  lossn : Nat
  mcomp : Bytes
  capd : Bytes
  pland : Bytes
  deriving DecidableEq, Repr

/-- A record of units being gathered at a restore: its first index entry and bytes so far. -/
structure RestRec where
  ent : Bytes
  data : Bytes
  deriving DecidableEq, Repr

/-- A RESTORE under way (R408-R412). -/
structure Restore where
  seq : Nat
  ckno : Nat
  step : Nat
  buddy : Option Nat
  sid : Nat
  nchunk : Nat
  trailer : Option Trailer
  /-- Next chunk in order. -/
  next : Nat
  record : Option RestRec
  /-- CAP records: BTAG, BKIND, tile, offset in granules, bytes. -/
  caps : List (Nat × Nat × Nat × Nat × Nat)
  /-- The values have gone to the leader (R411). -/
  reported : Bool
  deriving DecidableEq, Repr

/-- A held result (R412): BTAG, STEP, BKIND, and per tile its delivery in the capture area. -/
structure HeldResult where
  tag : Nat
  step : Nat
  bkind : Nat
  tiles : List (Nat × Nat × Nat)
  deriving DecidableEq, Repr

/-- A buddy's client (R404): its area, the log being received per parity with its stored count, the last committed CKNO. -/
structure Client where
  coord : Nat
  area : Nat
  logs : List (Nat × Nat)
  committed : Option Nat
  /-- The log being received: its CKNO and the next chunk. -/
  recv : Option (Nat × Nat)
  deriving DecidableEq, Repr

/-- A partition's checkpoint state. -/
structure Fuller where
  ckpt : Option Ckpt
  /-- Marks reached and not released: tile, STEP and TENSOR of the mark panel. -/
  marks : List (TileId × Nat × Nat)
  restore : Option Restore
  heldRes : List HeldResult
  clients : List Client
  deriving DecidableEq, Repr

def Fuller.empty : Fuller := ⟨none, [], none, [], []⟩

end Sys2Proof.Machine
end

