-- ==== Sys2Proof/Machine/State.lean ====
section
/-! DEFINITION. The state of the module, the reasons a step can stop, and the state at reset. -/

namespace Sys2Proof.Machine

/-- A partition with its sequencer (11, 12, 15). -/
structure Part where
  pstate : PState
  win : Window
  /-- The partition sequencer's count (R19). -/
  count : Nat
  /-- Main and urgent slot at the cursor: the count at which it was first found bad (R318). -/
  badMain : Option Nat
  badUrg : Option Nat
  job : Option Job
  /-- Slot secrets of the KEYIDs of the range, and the tree secret (R182, R183). -/
  slotSecrets : List (Nat × Bytes)
  treeSecret : Option Bytes
  integ : Nat
  ilock : Bool
  vbase : Nat
  pwrDis : Bool
  pwrLogged : Bool
  log : ErrLog
  reset : Option Reset
  pounce : Option Pounce
  /-- The Jewel-class command in service (R363). -/
  service : Option Service
  /-- The RUN in progress: its SEQ, and tile and slot of the lowest-numbered stop (R343). -/
  run : Option Nat
  runStop : Option (Nat × Nat)
  /-- The RUN's status, class, result and flags while its loss record waits to be written (R380, R400). -/
  runEnd : Option (Nat × Nat × Nat × Nat)
  regAtRun : Mem
  copies : List Copy
  streams : List (Nat × Stream)
  dma : Dma
  card : Carding
  fuller : Fuller
  /-- VC2 and VC3 messages in reassembly, and those waiting for the Jewel and for Fuller, with their source: a message
  for Fuller with a poisoned payload is none. -/
  asm : List Msg
  inbox2 : List (Nat × JewelMsg)
  inbox3 : List (Nat × Option FullerMsg)
  deriving DecidableEq, Repr

def Part.fresh : Part :=
  { pstate := .off, win := Window.empty, count := 0, badMain := none, badUrg := none, job := none, slotSecrets := [],
    treeSecret := none, integ := 0, ilock := false, vbase := 0, pwrDis := false, pwrLogged := false, log := ErrLog.empty,
    reset := none, pounce := none, service := none, run := none, runStop := none, runEnd := none, regAtRun := [], copies := [], streams := [],
    dma := Dma.empty, card := Carding.empty, fuller := Fuller.empty, asm := [], inbox2 := [], inbox3 := [] }

/-- The Jewel (07, 12) beside what the partitions hold. -/
structure Jewel where
  window : Nat
  roots : Vector Root 2048
  /-- The entry after the one last scrubbed (R213). -/
  scrub : Nat
  /-- The secret of key slot 00h, the Jewel's own: none before a start draws it (R182). -/
  slot0 : Option Bytes
  /-- The module log of the physical function, in the VAUX domain (R453). -/
  log : ErrLog
  deriving DecidableEq, Repr

/-- The physical function's window (R494, R495). -/
structure Pf where
  win : Window
  count : Nat
  badMain : Option Nat
  badUrg : Option Nat
  service : Option Service
  dma : Dma
  deriving DecidableEq, Repr

structure State where
  boot : Boot
  board : Board
  clocks : Clocks
  host : HostIf
  parts : Vector Part 8
  pf : Pf
  tiles : Vector Tile 64
  jewel : Jewel
  ports : Vector Port 8
  /-- The four hatband switches: true is closed (R277). -/
  hatband : Vector Bool 4
  /-- Self-test of each port's optical engine at this start: none before it, and the engines that failed since (R278, R280). -/
  engines : Vector (Option Bool) 8
  /-- The model's counter at which free values are read (log 1); no statement rests on its value. -/
  free : Nat
  /-- Commands and events waiting, oldest first. -/
  pending : List Instr
  deriving DecidableEq, Repr

/-- Reasons a step stops with a fault. No command of this block stops: every error of the manual is an effect on the state. -/
inductive Fault where
  /-- Raised by nothing; kept so that the type is inhabited. Safe: no step answers it. -/
  | none
  deriving DecidableEq, Repr

/-- Reasons a command is refused. -/
inductive Refusal where
  /-- The command has no meaning in this model yet. Safe: the run stops. -/
  | notModelled (mnemonic : String)
  deriving DecidableEq, Repr

def Boot.fresh : Boot :=
  { mstate := .powering, phase := .none, image := none, chosen := none, slot := 0, recSlot := 1, recGen := 1, reasonA := 0,
    reasonB := 0, mrom := zeros 64, flash := [], fuses := 0, fBefore := 0, fuseTried := 0, stage := none,
    vcore := Vector.replicate 8 750, testOpen := false, seed := zeros 32, dpk := zeros 1952, dsk := none, derived := false,
    certChain := [], certOk := false, scount := 0, ridx := 0, lastRecord := zeros 28, lastRidx := 0, cause := 0, nextCause := 1 }

def Board.fresh : Board :=
  { inputPower := false, vauxOk := false, vauxHold := false, slotId := 31, railCore := Vector.replicate 8 false,
    railMem := Vector.replicate 8 false, railPeri := false, railOpt := false, pwrGood := false, modEnable := false,
    perstN := false, underVolt := false, overVolt := false, overCurrent := false, ocReleased := false, tripLatch := false,
    tripKind := 0, tripIdx := 0, tripWait := false, restartHold := false, romHold := false, romReleased := false, perstReset := false,
    stormHold := false, railsRested := true, oscLost := false, resetTimes := [], restartTimes := [], lastCause := 0,
    restarting := none, mrst := none, dieTemp := Vector.replicate 68 none, pkgTemp := Vector.replicate 64 none,
    pkgUnread := Vector.replicate 64 0, pkgIgnored := Vector.replicate 64 false, lastEdge := 0,
    rows := Vector.replicate 8 RowMon.fresh, smbus := none }

/-- The module with its input power removed: nothing mated, every rail off, no start run. -/
def State.reset : State :=
  { boot := Boot.fresh, board := Board.fresh, clocks := ⟨0, 0, 0, 0, 0, 0⟩,
    host := ⟨false, 0, 0, 0, 0, 0, false, 0, 0, 0, 0, 0, 0, [], []⟩,
    parts := Vector.replicate 8 Part.fresh,
    pf := ⟨Window.empty, 0, none, none, none, Dma.empty⟩,
    tiles := Vector.replicate 64 Tile.fresh,
    jewel := ⟨0, Vector.replicate 2048 ⟨0, 0⟩, 0, none, ErrLog.empty⟩,
    ports := Vector.replicate 8 Port.fresh, hatband := Vector.replicate 4 true, engines := Vector.replicate 8 none,
    free := 0, pending := [] }

end Sys2Proof.Machine
end

