-- ==== Sys2Proof/Machine/Ops.lean ====
section
/-! DEFINITION. The operations the commands share: access to the pieces of state, partitions and tiles, error handling
(R446-R453), completion of commands (R329-R335), the start of a partition reset (R336, R457 t0), draws, host requests. -/

namespace Sys2Proof.Machine

/-- Change one element of a vector. -/
def vmod {α : Type} {n : Nat} (v : Vector α n) (i : Fin n) (f : α → α) : Vector α n := v.set i (f v[i])

namespace State

def modPart (s : State) (p : PartId) (f : Part → Part) : State := { s with parts := vmod s.parts p f }

def modTile (s : State) (t : TileId) (f : Tile → Tile) : State := { s with tiles := vmod s.tiles t f }

def modChan (s : State) (t : TileId) (k : ChanId) (f : Chan → Chan) : State :=
  s.modTile t fun x => { x with chans := vmod x.chans k f }

def modSlice (s : State) (t : TileId) (f : Seal → Seal) : State := s.modTile t fun x => { x with slice := f x.slice }

/-- Partitions of the applied image; 0 before one is applied. -/
def npart (s : State) : Nat := (s.boot.image.map (·.npart)).getD 0

/-- The partition that owns a row (R9). -/
def partOfRow (s : State) (row : Nat) : Option PartId :=
  let k := s.npart
  if k = 0 then none else
    let p := row / (8 / k)
    if h : p < 8 then some ⟨p, h⟩ else none

def partOf (s : State) (t : TileId) : Option PartId := s.partOfRow (t.val / 8)

def allTiles : List TileId := List.finRange 64

def allParts : List PartId := List.finRange 8

/-- The tiles of a partition, ascending. -/
def tilesOf (s : State) (p : PartId) : List TileId := allTiles.filter fun t => s.partOf t == some p

/-- The partitions of the image. -/
def partsUsed (s : State) : List PartId := allParts.filter fun p => decide (p.val < s.npart)

/-- The partition's KEYIDs: first and count (R370, R470). -/
def keyRange (s : State) (p : PartId) : Nat × Nat := (s.boot.image.map fun i => i.krng.getD p.val (0, 0)).getD (0, 0)

def dev (s : State) : Bool := (s.boot.image.map (·.dev)).getD false

def coord (s : State) : BitVec 16 := (s.boot.image.map (·.coord)).getD 0

/-- The window, count and DMA of a function. -/
def win (s : State) (f : Fn) : Window := match f with | none => s.pf.win | some p => s.parts[p].win

def modWin (s : State) (f : Fn) (g : Window → Window) : State :=
  match f with
  | none => { s with pf := { s.pf with win := g s.pf.win } }
  | some p => s.modPart p fun x => { x with win := g x.win }

def seqCount (s : State) (f : Fn) : Nat := match f with | none => s.pf.count | some p => s.parts[p].count

def dma (s : State) (f : Fn) : Dma := match f with | none => s.pf.dma | some p => s.parts[p].dma

def modDma (s : State) (f : Fn) (g : Dma → Dma) : State :=
  match f with
  | none => { s with pf := { s.pf with dma := g s.pf.dma } }
  | some p => s.modPart p fun x => { x with dma := g x.dma }

/-- The function exists: the physical one, or a virtual one of the image while VF Enable is set with NumVFs = NPART (R493). -/
def fnLive (s : State) (f : Fn) : Bool :=
  match f with | none => true | some p => s.host.vfEnable && s.host.numVfs == s.npart && decide (p.val < s.npart)

/-- A draw of n random bytes (log 1). -/
def draw (s : State) (n : Nat) : Bytes × State :=
  ((List.range n).map (Config.freeByte s.free), { s with free := s.free + 1 })

end State

/-- A 32-bit counter that saturates. -/
def satInc (n : Nat) : Nat := if n < 0xFFFFFFFF then n + 1 else n

namespace ErrLog

/-- Class of a code (R450). -/
def clsOf (code : Nat) : Nat := code / 16 + 1

/-- The entry may lose its place to one that is never dropped (R452): it is CORRECTED or has ABS set, and neither opens nor
pre-empts an episode, for then it is never dropped itself. -/
def LogWait.yields (w : LogWait) : Bool := (clsOf w.entry.code == 1 || w.entry.abs) && !w.opens && !w.preempts

/-- Put an entry that is never dropped into a full queue (R452): it takes the place of the newest entry that may lose it, and
so one is dropped; where none may, the queue grows and none is dropped. -/
def displace (q : List LogWait) (w : LogWait) : List LogWait × Bool :=
  match q.reverse.findIdx? LogWait.yields with
  | none => (q ++ [w], false)
  | some i => (q.set (q.length - 1 - i) w, true)

/-- Put an error into the log's queue (R447, R448, R451, R452). `count` is the island's count; `absorb` says that a
partition reset is under way; `cmd` the command that met it; `least` the class from which an error opens an episode: CMDFAIL
in a partition, MFATAL in the module. -/
def add (l : ErrLog) (count code src ch detail : Nat) (cmd : Option (Bool × Nat)) (absorb : Bool) (least : Nat := 2) : ErrLog :=
  let cls := clsOf code
  let opens := l.episode.isNone && decide (least ≤ cls)
  let level := (l.episode.map (·.level)).getD 0
  let preempts := l.episode.isSome && decide (level < cls) && !absorb
  let epis := if opens then l.epis + 1 else l.epis
  let inEpis := opens || l.episode.isSome
  let entry : LogEntry :=
    { code := code, src := src, ch := ch, pin := false, abs := absorb || (l.episode.isSome && decide (cls ≤ level)), drop := false,
      eno := (l.eno + 1) % 65536, epis := if inEpis then epis % 65536 else 0, detail := detail % 2 ^ 32,
      cyc := bits count 41 10 }
  let cmds := if 2 ≤ cls then cmd.toList else []
  let episode := match l.episode with
    | none => if opens then some ⟨cls, cmds⟩ else none
    | some e => some ⟨if preempts then cls else e.level, e.cmds ++ cmds.filter fun c => !e.cmds.contains c⟩
  let l : ErrLog := { l with eno := l.eno + 1, epis := epis, episode := episode, errCnt := satInc l.errCnt }
  let w : LogWait := ⟨entry, opens, preempts⟩
  if l.queue.length < 32 then { l with queue := l.queue ++ [w] }
  else if opens || preempts then
    let q := displace l.queue w
    { l with queue := q.1, drop := l.drop || q.2 }
  else { l with drop := true }

/-- The entry MRST, written first into a partition's log after a restart or the release of a trip (R453). -/
def addMrst (l : ErrLog) (count src cause : Nat) : ErrLog :=
  { l with eno := l.eno + 1,
           queue := l.queue ++ [⟨⟨0x5F, src, 0, false, false, false, (l.eno + 1) % 65536, 0, cause, bits count 41 10⟩, true, false⟩] }

/-- Write the oldest waiting entry (R452). -/
def write (l : ErrLog) : ErrLog :=
  match l.queue with
  | [] => l
  | w :: rest =>
    let e := { w.entry with drop := l.drop }
    let put (es : List (Nat × LogEntry)) (i : Nat) (x : LogEntry) : List (Nat × LogEntry) :=
      es.filter (fun p => decide (p.1 < i)) ++ (i, x) :: es.filter (fun p => decide (i < p.1))
    let es := put l.entries (1 + l.written % 63) e
    { l with entries := if w.opens then put es 0 { e with pin := true } else es, written := l.written + 1, queue := rest, drop := false }

end ErrLog

/-- The 16 bytes of a log entry (R451). -/
def LogEntry.bytes (e : LogEntry) : Bytes :=
  leBytes 1 e.code ++ leBytes 1 (ErrLog.clsOf e.code) ++ leBytes 1 e.src ++
    leBytes 1 (e.pin.toNat + 2 * e.abs.toNat + 4 * e.drop.toNat + 8 * (e.ch % 4)) ++ leBytes 2 e.eno ++ leBytes 2 e.epis ++
    leBytes 4 e.detail ++ leBytes 4 e.cyc

/-- Entry i of a log, zero where never written. -/
def ErrLog.entryBytes (l : ErrLog) (i : Nat) : Bytes :=
  match l.entries.find? (·.1 == i) with
  | some p => p.2.bytes
  | none => zeros 16

-- STATUS codes of R334.
def stOk : Nat := 0x00
def stInvalid : Nat := 0x01
def stDepfail : Nat := 0x02
def stAborted : Nat := 0x03
def stTimeout : Nat := 0x04
def stCut : Nat := 0x05
def stRejected : Nat := 0x06
def stDescfail : Nat := 0x07
def stPoisoned : Nat := 0x08
def stRefused : Nat := 0x09
def stNores : Nat := 0x0A
def stNotaborted : Nat := 0x0B
def stLockout : Nat := 0x0C
def stFailed : Nat := 0x0D

/-- The least CLASS a status carries (R335). -/
def statusCls (st : Nat) : Nat := if st = 0 then 0 else if st = stTimeout then 4 else if st = stLockout then 3 else 2

/-- A completion record (R332). -/
def recordBytes (c : Cmd) (urgent : Bool) (status cls flags cycle result maxw : Nat) : Bytes :=
  leBytes 4 c.seq ++ leBytes 1 status ++ leBytes 1 cls ++ leBytes 2 (flags + 4 * urgent.toNat) ++ leBytes 2 c.tag ++ zeros 2 ++
    leBytes 8 cycle ++ leBytes 8 result ++ leBytes 4 maxw

/-- What a command completes with (R332). -/
structure Result where
  status : Nat
  cls : Nat := 0
  result : Nat := 0
  flags : Nat := 0
  maxw : Nat := 0
  deriving DecidableEq, Repr

/-- Set a tag's entry (R329). -/
def setTag (tags : List (Nat × TagState)) (tag : Nat) (st : TagState) : List (Nat × TagState) :=
  if tag = 0 then tags
  else tags.filter (fun p => decide (p.1 < tag)) ++ (tag, st) :: tags.filter (fun p => decide (tag < p.1))

/-- Index of a partition's VC among a port's counts. -/
def pvIdx (p vc : Nat) : Nat := 4 * p + vc

/-- Frames of partition p go from a port: those waiting for injection, those waiting for delivery here, and with `all` those in
transit. Buffers are freed; `count` says that the frames count in the partition's DROPS (R264). -/
def Port.discard (o : Port) (p me : Nat) (count all : Bool) : Port :=
  let gone := o.rxq.filter fun r => r.frame.part == p && (all || r.frame.dst == me)
  { o with
    txq := o.txq.filter fun f => f.part != p
    rxq := o.rxq.filter fun r => !(r.frame.part == p && (all || r.frame.dst == me))
    freed := gone.foldl (fun fs r => fs.modify (pvIdx p r.frame.vc) (· + 1)) o.freed
    drops := if count then o.drops + gone.length else o.drops
    partDrops := if count then o.partDrops.modify p (· + gone.length) else o.partDrops }

/-- The key of a bucket entry: JOB, TAG, STEP, ATT (R284). -/
def Bucket.key (b : Bucket) : Nat × Nat × Nat × Nat := (b.job, b.tag, b.step, b.att)

/-- The entry's wait for the ring, if one was running, ends (R312). -/
def Bucket.endWait (b : Bucket) (now : Nat) : Bucket :=
  match b.since with
  | none => b
  | some c => { b with since := none, maxw := min 0xFFFFFFFF (max b.maxw ((now - c) / 1024)) }

namespace State

/-- The entry of the in-flight table with this SEQ. -/
def inFlight (s : State) (f : Fn) (urgent : Bool) (seq : Nat) : Option InFlight :=
  (s.win f).table.find? fun e => e.urgent == urgent && e.cmd.seq == seq

def modInFlight (s : State) (f : Fn) (urgent : Bool) (seq : Nat) (g : InFlight → InFlight) : State :=
  s.modWin f fun w => { w with table := w.table.map fun e => if e.urgent == urgent && e.cmd.seq == seq then g e else e }

/-- The log of the partition, or of the module for the physical function. -/
def modLog (s : State) (f : Fn) (g : ErrLog → ErrLog) : State :=
  match f with
  | none => { s with jewel := { s.jewel with log := g s.jewel.log } }
  | some p => s.modPart p fun x => { x with log := g x.log }

/-- A command has had its record written, or writes none: its episode waits for it no longer (R447). -/
def episodeForget (s : State) (f : Fn) (urgent : Bool) (seq : Nat) : State :=
  s.modLog f fun l => { l with episode := l.episode.map fun e => { e with cmds := e.cmds.filter (· != (urgent, seq)) } }

/-- Close the partition's episode when nothing of it is left (R447). -/
def episodeClose (s : State) (p : PartId) : State :=
  s.modPart p fun x =>
    match x.log.episode with
    | some e => if e.cmds.isEmpty && x.reset.isNone then { x with log := { x.log with episode := none } } else x
    | none => x

/-- Queue the posted writes of a record: bytes 4-31 first, then bytes 0-3 (R333). -/
def postRecord (s : State) (f : Fn) (urgent : Bool) (c : Cmd) (bs : Bytes) : State :=
  s.modDma f fun d => { d with writes := d.writes ++
    [⟨.record, c.cpl + 4, bs.drop 4, .command urgent c.seq, none⟩, ⟨.record, c.cpl, bs.take 4, .command urgent c.seq, none⟩] }

/-- Complete a command of the in-flight table, whatever a partition reset has in store for it: the table entry is freed, its tag
set, the FENCE count kept, its record queued (R319, R329, R330, R332-R335). `record` is false where no record is ever written
(R33, R501). -/
def completeNow (s : State) (f : Fn) (urgent : Bool) (seq : Nat) (r : Result) (record : Bool := true) : State :=
  match s.inFlight f urgent seq with
  | none => s
  | some e =>
    let ok := r.status == stOk || r.status == stPoisoned
    let s := s.modWin f fun w =>
      { w with table := w.table.filter (fun x => !(x.urgent == urgent && x.cmd.seq == seq)),
               tags := setTag w.tags e.cmd.tag (if ok then .done else .failed),
               fenceCnt := if urgent || r.status == stOk then w.fenceCnt else w.fenceCnt + 1 }
    if record && e.cmd.cpl != 0 then
      s.postRecord f urgent e.cmd
        (recordBytes e.cmd urgent r.status (max (max e.cls r.cls) (statusCls r.status)) r.flags (s.seqCount f) r.result (max r.maxw e.maxw))
    else
      let s := s.episodeForget f urgent seq
      match f with | some p => s.episodeClose p | none => s

/-- A command has done its work: it completes, unless a partition reset under way has already decided with which status it
will (R336). -/
def complete (s : State) (f : Fn) (urgent : Bool) (seq : Nat) (r : Result) : State :=
  if (s.inFlight f urgent seq).any (·.ends.isSome) then s else s.completeNow f urgent seq r

/-- Mark the commands a partition reset ends: each keeps the status it will complete with (R336). -/
def markEnds (s : State) (p : PartId) : State :=
  s.modWin (some p) fun w => { w with table := w.table.map fun e => { e with ends := some (e.ends.getD stCut) } }

/-- t0 of a partition reset (R457), unless one is under way: then only its ending changes (R448, R456). -/
def startReset (s : State) (p : PartId) (failed flr : Bool) : State :=
  let x := s.parts[p]
  match x.reset with
  | some r => s.modPart p fun x => { x with reset := some { r with failed := r.failed || failed, flrAfter := r.flrAfter || (flr && !r.flr) } }
  | none =>
    match x.pstate with
    | .idle | .opening | .running =>
      (s.markEnds p).modPart p fun x =>
        { x with pstate := .resetting,
                 reset := some { ev := 0, prior := x.pstate, start := s.clocks.jewel, failed := failed, flr := flr, flrAfter := false } }
    | _ => s

/-- MRST becomes the first entry of a partition's log where the start under way follows a restart or a trip (R453, log 44). -/
def logMrst (s : State) (p : PartId) : State :=
  match s.board.mrst with
  | some m => s.modLog (some p) fun l => l.addMrst s.parts[p].count (if m.2 then 0x50 else 0x43) m.1
  | none => s

/-- A counter-cache miss of a tile: counted in development mode alone (R385, R386). -/
def countMiss (s : State) (t : TileId) : State := if s.dev then s.modTile t fun x => { x with ccmiss := x.ccmiss + 1 } else s

/-- Frames of a partition leave every port (R264, R460). -/
def discardFrames (s : State) (p : PartId) (count all : Bool) : State :=
  { s with ports := s.ports.map fun o => o.discard p.val s.coord.toNat count all }

/-- Discard every entry and every parked message of a partition (R303, R313, R408): the keys join the last 64, and each entry's
longest wait stays with its REDUCE for its record (R312). -/
def discardBuckets (s : State) (p : PartId) : State :=
  let bs := s.parts[p].card.table
  let s := bs.foldl (fun s b => s.modInFlight (some p) false b.seq fun e => { e with maxw := max e.maxw (b.endWait s.clocks.carding).maxw }) s
  s.modPart p fun x =>
    let dead := x.card.dead ++ bs.map (·.key)
    { x with card := { x.card with table := [], dead := dead.drop (dead.length - 64), msgs := [] } }

/-- A mark at this step acts: some CHECKPOINT of the table has its step and has not frozen (R393). -/
def markActs (s : State) (p : PartId) (step : Nat) : Bool :=
  s.parts[p].win.table.any fun e => !e.urgent && e.cmd.opc == 0x40 && e.ends.isNone && e.cmd.arg2 == step &&
    !(s.parts[p].fuller.ckpt.any fun c => c.seq == e.cmd.seq && c.frozen)

/-- The mark the tile has reached and that acts (R393): its descriptor and every one dispatched before it have completed. -/
def reachedMark (s : State) (p : PartId) (t : TileId) : Option (Nat × Nat × Nat) :=
  s.tiles[t].mark.find? fun m => s.tiles[t].ops.all (fun o => decide (m.1 < o.id)) && s.markActs p m.2.1

/-- Release every tile of the partition from its mark (R394, R406). -/
def releaseMarks (s : State) (p : PartId) : State :=
  let s := (s.tilesOf p).foldl (fun s t => s.modTile t fun x => { x with marked := false }) s
  s.modPart p fun x => { x with fuller := { x.fuller with marks := [] } }

/-- A CHECKPOINT ends before it has started: tiles held at its mark are released, unless another one holds them (R393, R406). -/
def unmark (s : State) (p : PartId) (c : Cmd) : State :=
  if c.opc ≠ 0x40 ∨ s.parts[p].win.table.any (fun e => e.cmd.opc == 0x40 && e.cmd.seq != c.seq && e.cmd.arg2 == c.arg2) then s
  else
    let s := (s.parts[p].fuller.marks.filter (·.2.1 == c.arg2)).foldl (fun s m => s.modTile m.1 fun x => { x with marked := false }) s
    s.modPart p fun x => { x with fuller := { x.fuller with marks := x.fuller.marks.filter (·.2.1 != c.arg2) } }

/-- End the work of a CHECKPOINT or RESTORE: no tile is held at a mark, no granule behind a copy, nothing more is read or
written for it. -/
def dropFuller (s : State) (p : PartId) : State :=
  let mine (o : Owner) : Bool := o == .checkpoint || o == .restore
  let s := (s.tilesOf p).foldl (fun s t => s.modTile t fun x =>
    { x with slice := { x.slice with copying := [], reqs := (x.slice.reqs.filter fun r => !mine r.owner).map fun r => { r with held := false } } }) s
  (s.releaseMarks p).modPart p fun x =>
    { x with fuller := { x.fuller with ckpt := none, restore := none },
             dma := { x.dma with writes := x.dma.writes.filter fun w => !mine w.owner, reads := x.dma.reads.filter fun r => !mine r.owner } }

/-- What FAILED does at once (R460): the tiles are held in reset, the channels in self-refresh but for a failed one, and the
partition's frames are dropped. -/
def failNow (s : State) (p : PartId) : State :=
  let s := (s.tilesOf p).foldl (fun s t => s.modTile t fun x =>
    { x with running := false, chans := x.chans.map fun c => { c with selfRefresh := c.failed == 0 } }) s
  (s.discardFrames p true true).modPart p fun x => { x with pounce := none, reset := none, pstate := .failed }

/-- A PFATAL error's action (R446, R448, R463): partition reset ending in FAILED; pouncing or a start stops in FAILED (R480). -/
def pfatal (s : State) (p : PartId) : State :=
  match s.parts[p].pounce with
  | some po =>
    let s := s.failNow p
    match po.close with
    | some q => s.completeNow (some p) false q { status := stFailed, cls := 5 }
    | none => s
  | none =>
    match s.parts[p].pstate with
    | .scrubbing | .off => s.failNow p
    | _ => s.startReset p true false

/-- Commands that integrity lockout ends: all but STATUS, ABORT and JOB_CLOSE (R215, R327). -/
def lockoutEnds (e : InFlight) : Bool := !([0x51, 0x52, 0x02].contains e.cmd.opc)

/-- Enter integrity lockout (R215): tiles stop dispatch, the engine and Fuller stop their work for the partition, every running
and waiting command completes as LOCKOUT. -/
def lockout (s : State) (p : PartId) : State :=
  let s := (s.discardBuckets p).dropFuller p
  let s := s.modPart p fun x => { x with ilock := true, run := none, runStop := none, runEnd := none, copies := [] }
  let s := (s.tilesOf p).foldl (fun s t => s.modTile t fun x => { x with running := false }) s
  let s := s.modLog (some p) fun l => l.add s.parts[p].count 0x26 0xFF 0 16 none false
  ((s.parts[p].win.table.filter lockoutEnds).map fun e => (e.urgent, e.cmd.seq)).foldl
    (fun s c => s.completeNow (some p) c.1 c.2 { status := stLockout, cls := 3 }) s

/-- Sixteen integrity failures bring lockout; in a partition reset, at its end (R215, R449). -/
def tryLockout (s : State) (p : PartId) : State :=
  let x := s.parts[p]
  if 16 ≤ x.integ ∧ x.job.isSome ∧ !x.ilock ∧ x.reset.isNone then s.lockout p else s

/-- Count an integrity failure (R214). -/
def countInteg (s : State) (p : PartId) : State :=
  if s.parts[p].job.isNone then s else (s.modPart p fun x => { x with integ := satInc x.integ }).tryLockout p

/-- Raise the class a command has met (R335). -/
def meetClass (s : State) (p : PartId) (cmd : Option (Bool × Nat)) (cls : Nat) : State :=
  match cmd with
  | none => s
  | some c => s.modInFlight (some p) c.1 c.2 fun e => { e with cls := max e.cls cls }

/-- An error in a resource of partition p: logged, counted, its class's action taken (R446-R449, R453); a TIMEOUT in an episode of
its level takes none (R448). `src` by R451. -/
def raise (s : State) (p : PartId) (code src ch detail : Nat) (cmd : Option (Bool × Nat) := none) : State :=
  let cls := ErrLog.clsOf code
  let level : Nat := (s.parts[p].log.episode.map (·.level)).getD 0
  let s := s.meetClass p cmd cls
  let s := s.modLog (some p) fun l => l.add s.parts[p].count code src ch detail cmd s.parts[p].reset.isSome
  let s := if cls = 3 then s.countInteg p else if cls = 5 then s.pfatal p else if cls = 4 ∧ level < 4 then s.startReset p false false else s
  s.episodeClose p

/-- An error in a resource that no partition owns: the module log alone (R453), whose episode only an MFATAL error opens (R447). -/
def raiseModule (s : State) (code src detail : Nat) : State :=
  s.modLog none fun l => l.add s.clocks.jewel code src 0 detail none false 6

/-- The RUN of a partition as the command that meets its tiles' errors. -/
def runCmd (s : State) (p : PartId) : Option (Bool × Nat) := s.parts[p].run.map fun q => (false, q)

/-- An error of a tile: logged under its partition, met by the RUN in progress. -/
def raiseTile (s : State) (t : TileId) (code ch detail : Nat) : State :=
  match s.partOf t with
  | some p => s.raise p code t.val ch detail (s.runCmd p)
  | none => s

end State

end Sys2Proof.Machine
end

