-- ==== Sys2Proof/Machine/Clock.lean ====
section
/-! DEFINITION. The tick of an empty queue: one cycle of every island's count (R19, R434; log 22). -/

namespace Sys2Proof.Machine

namespace Clocks

def tick (c : Clocks) : Clocks := ⟨c.hostIf + 1, c.jewel + 1, c.carding + 1, c.phy + 1, c.spine + 1, c.vaux + 1⟩

end Clocks

namespace State

/-- One cycle of every count. -/
def tick (s : State) : State :=
  { s with clocks := s.clocks.tick,
           parts := s.parts.map fun p => { p with count := p.count + 1 },
           pf := { s.pf with count := s.pf.count + 1 },
           tiles := s.tiles.map fun t => { t with count := t.count + 1 },
           ports := s.ports.map fun p => { p with count := p.count + 1 } }

end State

end Sys2Proof.Machine
end

