-- ==== Sys2Proof/Machine/Compact.lean ====
section
/-! DEFINITION. The compact's layout and the checks of form on it (R364-R367), the box and its groups (R288), coordinates
(R249) and routes (R266). -/

namespace Sys2Proof.Machine

/-- Coordinate of dimension d, 0 X to 3 W, of a coordinate field (R249). -/
def coordDim (c d : Nat) : Nat := if d = 3 then bits c 14 12 else bits c (4 * d + 3) (4 * d)

/-- A coordinate field with one dimension replaced. -/
def coordSet (c d x : Nat) : Nat := c - coordDim c d * 16 ^ d + x * 16 ^ d

def coordOf (xs : List Nat) : Nat := xs.getD 0 0 + 16 * xs.getD 1 0 + 256 * xs.getD 2 0 + 4096 * xs.getD 3 0

def dims4 : List Nat := [0, 1, 2, 3]

namespace Compact

def ncon (c : Bytes) : Nat := byteAt c 12
def nprog (c : Bytes) : Nat := byteAt c 13
def ngrp (c : Bytes) : Nat := byteAt c 14
def nrel (c : Bytes) : Nat := byteAt c 15
def job (c : Bytes) : Nat := field c 6 2
def clen (c : Bytes) : Nat := field c 8 4
def npol (c : Bytes) : Nat := byteAt c 16
def flag (c : Bytes) (i : Nat) : Bool := bit (byteAt c 17) i
def narw (c : Bytes) : Bool := flag c 0
def ckhost (c : Bytes) : Bool := flag c 1
def ckbuddy (c : Bytes) : Bool := flag c 2
def drop (c : Bytes) : Bool := flag c 3
def hloss (c : Bytes) : Bool := flag c 4
def devok (c : Bytes) : Bool := flag c 5
def leader (c : Bytes) : Nat := field c 20 2
def cust (c : Bytes) : Nat := byteAt c 22
def lkidx (c : Bytes) : Nat := byteAt c 23
def lrec (c : Bytes) : Nat := field c 24 8
def lossofs (c : Bytes) : Nat := field c 32 4
def losscnt (c : Bytes) : Nat := field c 36 2
def minsvn (c : Bytes) : Nat := field c 40 8
def dropkey (c : Bytes) : Option Bytes := if drop c then some (sub c 64 32) else none

/-- Contributor entry i (R365). -/
def con (c : Bytes) (i : Nat) : Bytes := sub c (128 + 1960 * i) 1960
def cons (c : Bytes) : List Bytes := (List.range (ncon c)).map (con c)
def prog (c : Bytes) (i : Nat) : Bytes := sub c (128 + 1960 * ncon c + 64 * i) 64
def progs (c : Bytes) : List Bytes := (List.range (nprog c)).map (prog c)
def grp (c : Bytes) (i : Nat) : Bytes := sub c (128 + 1960 * ncon c + 64 * nprog c + 16 * i) 16
def grps (c : Bytes) : List Bytes := (List.range (ngrp c)).map (grp c)
def rel (c : Bytes) (i : Nat) : Bytes := sub c (128 + 1960 * ncon c + 64 * nprog c + 16 * ngrp c + 16 * i) 16
def rels (c : Bytes) : List Bytes := (List.range (nrel c)).map (rel c)

/-- The contributor entry of a slot. -/
def conOf (c : Bytes) (slot : Nat) : Option Bytes := (cons c).find? fun e => byteAt e 0 == slot

/-- The contributor must release an import secret (R365, R366). -/
def mustImport (c : Bytes) (e : Bytes) : Bool := bit (byteAt e 1) 0 || byteAt e 0 == cust c

def boxlo (c : Bytes) (d : Nat) : Nat := byteAt c (48 + d)
def boxsz (c : Bytes) (d : Nat) : Nat := byteAt c (52 + d)
def bxcl (c : Bytes) (d : Nat) : Nat := field c (56 + 2 * d) 2

/-- Coordinate x is a member coordinate of a span in dimension d (R364). -/
def inSpan (c : Bytes) (d lo sz x : Nat) : Bool := decide (lo ≤ x) && decide (x < lo + sz) && !bit (bxcl c d) x

/-- Member coordinates of the box in dimension d, ascending. -/
def line (c : Bytes) (d : Nat) : List Nat := (List.range 16).filter (inSpan c d (boxlo c d) (boxsz c d))

/-- Member coordinates of a group in dimension d. -/
def grpLine (c g : Bytes) (d : Nat) : List Nat :=
  (line c d).filter fun x => decide (byteAt g d ≤ x) && decide (x < byteAt g d + byteAt g (4 + d))

def member (c : Bytes) (coord : Nat) : Bool := dims4.all fun d => (line c d).contains (coordDim coord d)

def grpMember (c g : Bytes) (coord : Nat) : Bool := dims4.all fun d => (grpLine c g d).contains (coordDim coord d)

def grpOf (c : Bytes) (gidx : Nat) : Option Bytes := (grps c).find? fun g => byteAt g 8 == gidx

/-- Every member's coordinates, ascending. -/
def members (c : Bytes) : List Nat :=
  ((line c 3).map fun w => ((line c 2).map fun z => ((line c 1).map fun y => (line c 0).map fun x =>
    coordOf [x, y, z, w]).flatten).flatten).flatten

/-- Gaps of a run are of at most 3 coordinates (R268). -/
def gapsOk : List Nat → Bool
  | a :: b :: rest => decide (b ≤ a + 4) && gapsOk (b :: rest)
  | _ => true

/-- A span is well formed: within `lim`, its ends member coordinates, its gaps short (R268, R288, R364, R366). -/
def spanOk (c : Bytes) (d lo sz lim : Nat) : Bool :=
  decide (1 ≤ sz) && decide (lo + sz ≤ lim) && inSpan c d lo sz lo && inSpan c d lo sz (lo + sz - 1) &&
    gapsOk ((List.range 16).filter (inSpan c d lo sz))

/-- The box keeps R364 in a torus of these sizes. -/
def boxOk (c : Bytes) (tsize : List Nat) : Bool :=
  dims4.all fun d =>
    spanOk c d (boxlo c d) (boxsz c d) (tsize.getD d 0) &&
      (List.range 16).all fun x => !bit (bxcl c d) x || (decide (boxlo c d ≤ x) && decide (x < boxlo c d + boxsz c d))

/-- A group keeps R366: its span lies in the box's. -/
def grpOk (c g : Bytes) : Bool :=
  zeroRange g 9 7 && dims4.all fun d =>
    decide (boxlo c d ≤ byteAt g d) && decide (byteAt g d + byteAt g (4 + d) ≤ boxlo c d + boxsz c d) &&
      spanOk c d (byteAt g d) (byteAt g (4 + d)) 16

/-- Every slot appears once. -/
def distinct : List Nat → Bool
  | [] => true
  | x :: xs => !xs.contains x && distinct xs

/-- Counts, lengths, reserved fields and ranges (R338, R364-R367). -/
def formOk (c : Bytes) : Bool :=
  sub c 0 4 == ascii "EZCP" && field c 4 2 == 1 && clen c == c.length && decide (1 ≤ ncon c) && decide (ncon c ≤ 64) &&
  decide (1 ≤ nprog c) && decide (nprog c ≤ 64) && decide (1 ≤ ngrp c) && decide (ngrp c ≤ 16) && decide (nrel c ≤ 64) &&
  c.length == 128 + 1960 * ncon c + 64 * nprog c + 16 * ngrp c + 16 * nrel c + 3309 && decide (npol c ≤ 1) &&
  bits (byteAt c 17) 7 6 == 0 && decide (byteAt c 19 ≤ 7) && decide (leader c < 32768) && lossofs c % 512 == 0 &&
  decide (1 ≤ losscnt c) && decide (losscnt c ≤ 4096) && zeroRange c 38 2 && zeroRange c 96 32 &&
  (drop c || zeroRange c 64 32) && distinct ((cons c).map fun e => byteAt e 0) && distinct ((grps c).map fun g => byteAt g 8) &&
  (cons c).all (fun e => decide (byteAt e 0 ≤ 63) && byteAt e 1 / 2 == 0 && zeroRange e 2 6) &&
  (rels c).all (fun r => zeroRange r 1 7)

end Compact

/-- Steps from coordinate a to coordinate b of a dimension without wrapping: the D+ direction when b is above (R266). -/
def plusWards (a b : Nat) : Bool := decide (a < b)

/-- The port of a dimension and direction (R242). -/
def portOf (d : Nat) (plus : Bool) : PortId := ⟨(2 * d + (!plus).toNat) % 8, Nat.mod_lt _ (by decide)⟩

def portDim (q : PortId) : Nat := q.val / 2

def portPlus (q : PortId) : Bool := q.val % 2 == 0

/-- The first dimension, of W, Z, Y, X, in which two coordinates differ (R266). -/
def routeDim (at_ dst : Nat) : Option Nat := [3, 2, 1, 0].find? fun d => coordDim at_ d != coordDim dst d

/-- The port a frame for `dst` takes from this module (R266). -/
def routePort (at_ dst : Nat) : Option PortId :=
  (routeDim at_ dst).map fun d => portOf d (plusWards (coordDim at_ d) (coordDim dst d))

namespace State

/-- The compact of a partition's job. -/
def compact (s : State) (p : PartId) : Bytes := ((s.parts[p].job).map (·.compact)).getD []

def me (s : State) : Nat := s.coord.toNat

/-- This module is the job's key leader. -/
def isLeader (s : State) (p : PartId) : Bool := s.parts[p].job.isSome && Compact.leader (s.compact p) == s.me

/-- KEYID of a key index (R370); none where it lies outside the range. -/
def keyidOf (s : State) (p : PartId) (k : Nat) : Option Nat :=
  let r := s.keyRange p
  if k < r.2 then some (r.1 + k) else none

end State

end Sys2Proof.Machine
end

