-- ==== Sys2Proof/Machine/Mirror.lean ====
section
/-! DEFINITION. Port status records (R276), the status mirrors (R352, R495) and the STATUS dump (R350). -/

namespace Sys2Proof.Machine

def sat (bits n : Nat) : Nat := min n (2 ^ bits - 1)

/-- 1 s in counts of a ring port's island (log 14). -/
def portSecond : Nat := 1000000000

/-- Retrain starts of the last second (R274). -/
def Port.recentStarts (q : Port) : List Nat := q.starts.filter fun c => decide (q.count < c + portSecond)

/-- The reasons bits of PFLAGS (R276). -/
def Port.pflags (q : Port) : Nat :=
  (match q.state with | .unused | .up => 0 | _ => 1) + 2 * q.wrap.toNat + (if q.state = .refused then q.refusal * 4 else 0)

/-- A port status record with the given DROPS (R276, R360). -/
def Port.record (q : Port) (drops : Nat) : Bytes :=
  let up := q.state == .up
  leBytes 1 q.state.code ++ leBytes 1 (if up then q.ndist else 0) ++ leBytes 2 (if up then q.neighbour else 0) ++ leBytes 1 q.pflags ++
    leBytes 1 (sat 8 q.recentStarts.length) ++ leBytes 2 (sat 16 drops) ++ leBytes 4 (sat 32 q.fecc) ++ leBytes 2 (sat 16 q.gobk) ++
    leBytes 2 (sat 16 q.hopint)

/-- An entry of the stream view (R352). -/
def Stream.view (st : Stream) : Bytes :=
  leBytes 4 st.sid ++ leBytes 4 st.epoch ++ leBytes 4 st.hw ++ leBytes 1 (1 + 2 * st.preset.toNat) ++ leBytes 1 st.owner ++
    leBytes 1 st.ksrc ++ [0]

/-- The pin with the highest count of the patrol pass: the first of equals. -/
def Chan.topPin (c : Chan) : Nat :=
  (c.pins.zipIdx.foldl (fun (a : Nat × Nat) x => if a.1 < x.1 then x else a) (0, 0)).2

/-- A channel record of the mirror (R352). -/
def Chan.record (c : Chan) : Bytes :=
  leBytes 4 (c.corr + c.topPin * 2 ^ 24 + (if c.failed ≠ 0 then 2 else c.degraded.toNat) * 2 ^ 29)

namespace State

def modeByte (s : State) : Nat := s.dev.toNat

/-- The status mirror of a partition (R352). -/
def mirror (s : State) (p : PartId) : Bytes :=
  let x := s.parts[p]
  let w := x.win
  fit 64 (leBytes 4 w.mseq ++ leBytes 4 w.useq ++ leBytes 1 x.pstate.code ++ leBytes 1 s.boot.mstate.code ++ leBytes 1 s.modeByte ++
    leBytes 1 (x.ilock.toNat + 2 * x.pwrDis.toNat) ++ leBytes 4 (sat 32 w.badSlot) ++ leBytes 4 w.badSeq ++ leBytes 4 w.table.length ++
    leBytes 4 x.integ ++ leBytes 2 ((x.job.map (·.num)).getD 0) ++ leBytes 2 x.vbase ++ leBytes 8 x.count ++ leBytes 4 x.log.errCnt) ++
  (s.ports.toList.map fun q => q.record (q.partDrops.getD p.val 0)).flatten ++
  ((List.range 32).map fun i => match x.streams.find? (·.1 == x.vbase + i) with
    | some e => e.2.view
    | none => zeros 16).flatten ++
  fit 1344 (((s.tilesOf p).map fun t => (s.tiles[t].chans.toList.map Chan.record).flatten).flatten)

/-- The module status mirror (R495). -/
def moduleMirror (s : State) : Bytes :=
  let w := s.pf.win
  fit 64 (leBytes 4 w.mseq ++ leBytes 4 w.useq ++ leBytes 1 s.boot.mstate.code ++ leBytes 1 s.modeByte ++ leBytes 1 s.npart ++
    leBytes 1 (s.host.rate + 16 * s.host.width) ++ leBytes 2 s.host.credit ++ leBytes 1 s.host.mps ++ [0] ++
    (allParts.map fun p => leBytes 1 (if p.val < s.npart then s.parts[p].pstate.code else 0)).flatten ++ leBytes 8 s.pf.count ++
    leBytes 4 (sat 32 w.badSlot) ++ leBytes 4 w.badSeq ++ leBytes 8 ((s.boot.image.map (·.svn)).getD 0) ++
    leBytes 1 ((List.range 64).filter fun i => s.boot.fuses.getLsbD i).length) ++
  fit 1984 ((s.ports.toList.map fun q => q.record q.drops).flatten)

/-- The 4 KiB dump of a STATUS (R350). -/
def statusDump (s : State) (f : Fn) : Bytes :=
  let log := match f with | none => s.jewel.log | some p => s.parts[p].log
  fit 4096 ((match f with | none => s.moduleMirror | some p => s.mirror p) ++ ((List.range 64).map log.entryBytes).flatten)

end State

end Sys2Proof.Machine
end

