-- ==== Sys2Proof/Machine/Restart.lean ====
section
/-! DEFINITION. Module-wide events (R33): what every one of them ends and loses, rails off, and a module-fatal error
(R461, R462). -/

namespace Sys2Proof.Machine

/-- A partition after a module-wide event: no key, job, command, stream or log is left (R33, R458); its windows start
afresh over the slots they hold (R316, R458). -/
def Part.lost (p : Part) : Part := { Part.fresh with win := { Window.empty with slots := p.win.slots } }

/-- A channel through a module-wide event: its memory as it is, held in self-refresh or off until it trains again (R181). -/
def Chan.lost (c : Chan) : Chan := { Chan.fresh with mem := c.mem, tree := c.tree, wiped := c.wiped, init := c.init, selfRefresh := true }

/-- A tile through a module-wide event: scratchpad, instruction memory and tables are zeroed before any use (R458). -/
def Tile.lost (t : Tile) : Tile := { Tile.fresh with chans := t.chans.map Chan.lost }

namespace State

/-- What a module-wide event does at once (R33): every activity ends without a record, every key is lost, the link goes
down, the next start finds fresh windows and counts. -/
def preempt (s : State) : State :=
  { s with
    boot := { s.boot with phase := .none, image := none, chosen := none, slot := 0, dsk := none, fuseTried := 0, stage := none }
    clocks := { s.clocks with hostIf := 0, jewel := 0, carding := 0, phy := 0, spine := 0 }
    host := { s.host with linkUp := false, rate := 0, width := 0, credit := 0, mps := 0, numVfs := 0, vfEnable := false, wslot := 0, rslot := 0 }
    parts := s.parts.map Part.lost
    pf := ⟨{ Window.empty with slots := s.pf.win.slots }, 0, none, none, none, Dma.empty⟩
    tiles := s.tiles.map Tile.lost
    ports := s.ports.map fun _ => Port.fresh
    hatband := Vector.replicate 4 true
    engines := Vector.replicate 8 none
    jewel := { s.jewel with window := 0, scrub := 0, slot0 := none } }

/-- A window whose memory has lost its power: no slot is left. -/
def unpowerWin (w : Window) : Window := { w with slots := [] }

/-- Every rail but VAUX goes off (R516): memory contents are undefined until the next start initialises them (R532), and the
command slots are gone. -/
def railsOff (s : State) : State :=
  { s with
    board := { s.board with railCore := Vector.replicate 8 false, railMem := Vector.replicate 8 false, railPeri := false,
                            railOpt := false, railsRested := if s.board.pwrGood then false else s.board.railsRested, pwrGood := false }
    tiles := s.tiles.map fun t => { t with chans := t.chans.map fun c => { c with init := false } }
    parts := s.parts.map fun p => { p with win := unpowerWin p.win }
    pf := { s.pf with win := unpowerWin s.pf.win } }

/-- MSTATE of a module that is off: TRIPPED while the trip is latched, RESTARTING in a restart hold or without the oscillator (R436),
BOOTING in a ROM hold. -/
def offState (b : Board) : MState :=
  if b.tripLatch then .tripped else if b.restartHold || b.oscLost then .restarting else if b.romHold then .booting else .powering

/-- A start condition ceases to hold (R516, R33): the module goes off. A restart under way ends without its MRST entries; a
latched trip keeps them for its release. -/
def moduleOff (s : State) : State :=
  let s := s.preempt.railsOff
  let s := s.modLog none fun l => { l with episode := none }
  { s with boot := { s.boot with mstate := offState s.board },
           board := { s.board with restarting := none, mrst := if s.board.tripLatch || s.board.tripWait then s.board.mrst else none } }

/-- An error of the power and thermal logic in a row: in its partition's log. -/
def raiseRow (s : State) (row : Fin 8) (code src detail : Nat) : State :=
  match s.partOfRow row.val with
  | some p => s.raise p code src 0 detail
  | none => s

/-- Module restarts of the last 600 s of the VAUX count, this one included (R462). -/
def restartsNow (s : State) : List Nat :=
  s.clocks.vaux :: s.board.restartTimes.filter fun x => decide (s.clocks.vaux < x + 600000000000)

/-- A module-fatal error (R446, R461 t0 to t2): logged in the module log under the module episode, every activity ended,
the module RESTARTING; at the fourth within 600 s the restart hold, rails off (R462). A module with its rails off meets none but the
loss of the oscillator (R436); a trip and a ROM hold govern until they are released (R440, R480). -/
def mfatal (s : State) (code src detail : Nat) : State :=
  if (!s.board.pwrGood && code != 0x52) || s.board.tripLatch || s.board.tripWait || s.board.romHold then s
  else
    let s := s.modLog none fun l => l.add s.clocks.jewel code src 0 detail none false
    let times := s.restartsNow
    let s := { s.preempt with board := { s.board with restartTimes := times, lastCause := code, restarting := some code, mrst := some (code, false) } }
    let s := { s with boot := { s.boot with mstate := .restarting, nextCause := 3 } }
    if times.length ≥ 4 then
      let s := s.railsOff
      { s with board := { s.board with restartHold := true } }
    else s

end State

end Sys2Proof.Machine
end

