-- ==== Sys2Proof/Machine/BoardRows.lean ====
section
/-! DEFINITION. Supplies and sideband inputs (R418, R514-R523), latches and holds, SMBus telemetry (R524-R527). -/

namespace Sys2Proof.Machine

/-- 1 s and 2 s of the VAUX count (R521; log 14). -/
def vauxSecond : Nat := 1000000000

namespace State

/-- Every start condition of R517 holds. -/
def mayStart (s : State) : Bool :=
  let b := s.board
  b.inputPower && b.vauxOk && !b.vauxHold && !b.underVolt && !b.overVolt && !b.overCurrent && !b.tripLatch && !b.tripWait && !b.restartHold &&
    !b.romHold && b.modEnable && !b.perstReset && !b.stormHold && b.railsRested

/-- Record why the next start happens (R488); the release of a trip stays the cause until that start. -/
def cause (s : State) (c : Nat) : State :=
  if s.board.tripLatch || s.board.tripWait then s else { s with boot := { s.boot with nextCause := c } }

/-- The module goes off as on loss of input power: the next start is a power-on. -/
def inputFault (s : State) (f : Board → Board) : State := (({ s with board := f s.board } : State).moduleOff).cause 1

/-- A valid reset of R521: more than eight within 1 s enter the storm hold. -/
def countReset (s : State) : State :=
  let now := s.clocks.vaux
  let ts := now :: s.board.resetTimes.filter fun c => decide (now < c + vauxSecond)
  let s := { s with board := { s.board with resetTimes := ts, lastEdge := now } }
  if 8 < ts.length ∧ s.board.stormHold = false then
    ({ s with board := { s.board with stormHold := true } } : State).moduleOff
  else s

-- Telemetry (R526).

/-- FAULT_N is low (R524). -/
def faultLow (s : State) : Bool :=
  let b := s.board
  b.vauxOk && (b.overVolt || b.overCurrent || b.restarting.isSome || b.restartHold || b.oscLost || b.romHold || s.boot.phase == .recovery || b.stormHold)

/-- A signed temperature field in 1/16 °C; 8000h where none has been read. -/
def tempField (ts : List (Option Int)) : Bytes :=
  match ts.filterMap id with
  | [] => leBytes 2 0x8000
  | x :: xs => leBytes 2 (unsigned 16 (xs.foldl max x))

def pageIdent (s : State) (a : Analog) : Bytes :=
  leBytes 2 0xC4E1 ++ leBytes 2 0x6410 ++ [a.brev] ++ leBytes 1 s.board.slotId.toNat ++ zeros 2 ++
    (if s.boot.derived then (shake256 64 s.boot.dpk).take 8 else zeros 8)

def holdByte (s : State) : Nat :=
  let b := s.board
  (!b.modEnable).toNat + 2 * (b.perstReset || s.boot.phase == .heldT2).toNat + 4 * b.stormHold.toNat + 8 * b.restartHold.toNat +
    16 * b.romHold.toNat + 32 * b.overCurrent.toNat + 64 * (b.underVolt || b.overVolt).toNat + 128 * b.tripWait.toNat

def outsByte (s : State) : Nat :=
  s.board.tripLatch.toNat + 2 * s.faultLow.toNat + 4 * s.board.pwrGood.toNat +
    (((List.finRange 4).map fun d => s.hatband[d].toNat * 2 ^ (3 + d.val)).foldl (· + ·) 0)

/-- Module restarts of the last 600 s (R462). -/
def restartCount (s : State) : Nat := (s.board.restartTimes.filter fun x => decide (s.clocks.vaux < x + 600000000000)).length

def pageState (s : State) : Bytes :=
  leBytes 1 s.boot.mstate.code ++ leBytes 1 s.holdByte ++ leBytes 1 s.outsByte ++ leBytes 1 s.board.tripKind ++ leBytes 1 s.board.tripIdx ++
    leBytes 1 s.restartCount ++ leBytes 1 s.board.lastCause ++ [0]

def word2 (x : BitVec 16) : Bytes := leBytes 2 x.toNat

def pagePower (a : Analog) : Bytes :=
  word2 a.vin ++ word2 a.iin ++ word2 a.pin ++ word2 a.pmem ++ word2 a.pperi ++ word2 a.popt ++ leBytes 1 a.senseOk.toNat ++ zeros 3

def pageTemps (s : State) (a : Analog) : Bytes :=
  let die := s.board.dieTemp.toList
  tempField die ++ tempField s.board.pkgTemp.toList ++
    ((List.range 8).map fun r => tempField ((die.drop (8 * r)).take 8)).flatten ++
    ((List.range 4).map fun i => tempField ((die.drop (64 + i)).take 1)).flatten ++ word2 a.coolIn ++ word2 a.coolOut

/-- Entry 0 and the newest rotating entry of the module log. -/
def pageMlog (s : State) : Bytes :=
  let l := s.jewel.log
  l.entryBytes 0 ++ (if l.written = 0 then zeros 16 else l.entryBytes (1 + (l.written - 1) % 63))

/-- A page of R526; none for a command code not in it. -/
def page (s : State) (code : Nat) (a : Analog) : Option Bytes :=
  match code with
  | 0 => some (s.pageIdent a)
  | 1 => some s.pageState
  | 2 => some (pagePower a)
  | 3 => some (fit 16 ((a.icore.map word2).flatten))
  | 4 => some (s.pageTemps a)
  | 5 => some (leBytes 4 s.boot.lastRidx ++ fit 28 s.boot.lastRecord)
  | 6 => some ((s.ports.toList.map fun q => leBytes 1 q.state.code).flatten)
  | 7 => some s.pageMlog
  | _ => none

end State

/-- One step of the SMBus packet error code: CRC-8, x^8 + x^2 + x + 1. -/
def pecByte (c : Nat) (b : Byte) : Nat :=
  Nat.repeat (fun c => if 128 ≤ c then (2 * c) % 256 ^^^ 7 else 2 * c) 8 (c ^^^ b.toNat)

/-- What a Block Read returns (R525): byte count, data, PEC over the whole transaction. -/
def blockRead (addr : Nat) (code : Byte) (data : Bytes) : Bytes :=
  let body := leBytes 1 data.length ++ data
  body ++ leBytes 1 ((leBytes 1 (2 * addr) ++ [code] ++ leBytes 1 (2 * addr + 1) ++ body).foldl pecByte 0)

open State

/-- INPUT_POWER_APPLIED (R514, R515 t0 to t2): VAUX is in regulation and SLOT_ID is sampled. -/
def execInputPowerApplied (slotId : BitVec 5) (s : State) : Host.Outcome State Fault Refusal :=
  if s.board.inputPower then .next s
  else
    .next { s with board := { s.board with inputPower := true, vauxOk := true, vauxHold := false, slotId := slotId },
                   boot := { s.boot with mstate := .powering, nextCause := 1 }, clocks := ⟨0, 0, 0, 0, 0, 0⟩ }

/-- RAILS_RISE (R515 t3 to t5, R517): with every start condition the rails rise and PWR_GOOD with them. -/
def execRailsRise (s : State) : Host.Outcome State Fault Refusal :=
  if !s.mayStart || s.board.pwrGood then .next s
  else
    .next { s with board := { s.board with railCore := Vector.replicate 8 true, railMem := Vector.replicate 8 true, railPeri := true,
                                           railOpt := true, pwrGood := true } }

/-- What removal of the input power leaves of the board: the levels of the sideband inputs, rails that have not rested, and the wait
for cool sensors that follows a trip whichever way its latch clears (R440). -/
def Board.unpowered (b : Board) : Board :=
  { Board.fresh with modEnable := b.modEnable, perstN := b.perstN, slotId := b.slotId, railsRested := b.railsRested,
                     tripWait := b.tripWait || b.tripLatch }

/-- START_CONDITION_LOSS (R33, R516): the module goes off; with the input power removed, VAUX and all it keeps are lost too
(R418, R440, R453, R462). -/
def execStartConditionLoss (removed : Bool) (s : State) : Host.Outcome State Fault Refusal :=
  if !s.board.inputPower then .next s
  else
    let s := (s.moduleOff).cause 1
    if removed then
      .next { s with board := s.board.unpowered, boot := { s.boot with mstate := .powering, derived := false, nextCause := 1 },
                     clocks := ⟨0, 0, 0, 0, 0, 0⟩, jewel := { s.jewel with log := ErrLog.empty } }
    else .next s

/-- INPUT_UNDERVOLTAGE (R418). -/
def execInputUndervoltage (s : State) : Host.Outcome State Fault Refusal :=
  if s.board.vauxOk then .next (s.inputFault fun b => { b with underVolt := true }) else .next s

/-- INPUT_OVERVOLTAGE (R418): as for undervoltage; FAULT_N is asserted. -/
def execInputOvervoltage (s : State) : Host.Outcome State Fault Refusal :=
  if s.board.vauxOk then .next (s.inputFault fun b => { b with overVolt := true }) else .next s

/-- INPUT_OVERCURRENT (R418): latched until MOD_ENABLE is deasserted and reasserted. -/
def execInputOvercurrent (s : State) : Host.Outcome State Fault Refusal :=
  if s.board.vauxOk then .next (s.inputFault fun b => { b with overCurrent := true, ocReleased := false }) else .next s

/-- INPUT_RELEASE (R418): the input has been above 49.0 V for 100 ms, or with `tooHigh` below 60.0 V. -/
def execInputRelease (tooHigh : Bool) (s : State) : Host.Outcome State Fault Refusal :=
  .next { s with board := { s.board with underVolt := s.board.underVolt && tooHigh, overVolt := s.board.overVolt && !tooHigh } }

/-- VAUX_FAULT (R33, R418): the module is held in reset, the hatband closed. -/
def execVauxFault (s : State) : Host.Outcome State Fault Refusal :=
  if !s.board.vauxOk then .next s
  else
    let s := s.inputFault fun b => { b with vauxHold := true }
    .next { s with boot := { s.boot with derived := false }
                   board := { s.board with vauxOk := false, dieTemp := Vector.replicate 68 none, pkgTemp := Vector.replicate 64 none, smbus := none } }

/-- VAUX_RECOVERY (R418). -/
def execVauxRecovery (s : State) : Host.Outcome State Fault Refusal :=
  if s.board.inputPower && s.board.vauxHold then .next { s with board := { s.board with vauxOk := true, vauxHold := false } } else .next s

/-- MOD_ENABLE_DEASSERT (R516, R520-R522): the module goes off, SLOT_ID is sampled, the reset counts. -/
def execModEnableDeassert (slotId : BitVec 5) (s : State) : Host.Outcome State Fault Refusal :=
  if !s.board.vauxOk || !s.board.modEnable then .next s
  else
    let b := s.board
    let s := { s with board := { b with modEnable := false, slotId := slotId, ocReleased := b.overCurrent, romReleased := b.romHold } }
    .next (((s.moduleOff).cause 2).countReset)

/-- MOD_ENABLE_ASSERT (R418, R517, R520): the rails may rise; the overcurrent latch and the ROM hold are released. -/
def execModEnableAssert (s : State) : Host.Outcome State Fault Refusal :=
  if !s.board.vauxOk || s.board.modEnable then .next s
  else
    let b := s.board
    let s := { s with board := { b with modEnable := true, overCurrent := b.overCurrent && !b.ocReleased, ocReleased := false,
                                        romHold := b.romHold && !b.romReleased, romReleased := false, lastEdge := s.clocks.vaux } }
    .next { s with boot := { s.boot with mstate := if s.boot.phase == .none && !s.board.pwrGood then offState s.board else s.boot.mstate } }

/-- MOD_ENABLE_HELD_LOW (R440, R462, R520): 10 ms low clear the trip latch and end a restart hold. -/
def execModEnableHeldLow (s : State) : Host.Outcome State Fault Refusal :=
  if !s.board.vauxOk || s.board.modEnable then .next s
  else
    let b := s.board
    let s1 := { s with board := { b with tripLatch := false, tripWait := b.tripWait || b.tripLatch, restartHold := false,
                                         restartTimes := if b.restartHold then [] else b.restartTimes } }
    .next { s1 with boot := { s1.boot with mstate := offState s1.board, nextCause := if b.tripLatch then 4 else s1.boot.nextCause } }

/-- PERST_N_ASSERT (R516, R519, R521): after t2 of a start a PERST_N reset. -/
def execPerstNAssert (s : State) : Host.Outcome State Fault Refusal :=
  if !s.board.vauxOk || !s.board.perstN then .next s
  else
    let late := match s.boot.phase with | .training | .ready | .recovery => true | _ => false
    let s := { s with board := { s.board with perstN := false } }
    let s := if late then (({ s with board := { s.board with perstReset := true } } : State).moduleOff).cause 2 else s
    .next s.countReset

/-- STORM_HOLD_END (R521): 2 s without a valid transition; the count starts from zero. -/
def execStormHoldEnd (s : State) : Host.Outcome State Fault Refusal :=
  if s.board.stormHold && decide (s.board.lastEdge + 2 * vauxSecond ≤ s.clocks.vaux) then
    .next { s with board := { s.board with stormHold := false, resetTimes := [] } }
  else .next s

/-- RAILS_RESTED (R517): 100 ms after the last rail went off. -/
def execRailsRested (s : State) : Host.Outcome State Fault Refusal :=
  if s.board.pwrGood then .next s else .next { s with board := { s.board with railsRested := true } }

/-- SMBUS_BLOCK_READ (R525, R526): a page's snapshot and its PEC; nothing where the address or the code is not acknowledged. -/
def execSmbusBlockRead (addr : BitVec 7) (code : Byte) (a : Analog) (s : State) : Host.Outcome State Fault Refusal :=
  if !s.board.vauxOk || addr.toNat != 0x40 + s.board.slotId.toNat then .next s
  else .next { s with board := { s.board with smbus := (s.page code.toNat a).map (blockRead addr.toNat code) } }

/-- SMBUS_WRITE (R525): not acknowledged past the command code; it changes nothing. -/
def execSmbusWrite (addr : BitVec 7) (_code : Byte) (_data : Bytes) (s : State) : Host.Outcome State Fault Refusal :=
  if !s.board.vauxOk || addr.toNat != 0x40 + s.board.slotId.toNat then .next s
  else .next { s with board := { s.board with smbus := none } }

/-- SMBUS_TIMEOUT (R525): the interface resets. -/
def execSmbusTimeout (s : State) : Host.Outcome State Fault Refusal := .next { s with board := { s.board with smbus := none } }

end Sys2Proof.Machine
end

