-- ==== Sys2Proof/Machine/Tree.lean ====
section
/-! DEFINITION. The seal's keys, pads and tags (R182-R187, R196), the layout of leaves and nodes (R191-R194) and the
metadata region (R197). -/

namespace Sys2Proof.Machine

-- Keys (R182, R183): AES key and GHASH key of a slot, and of a tile's tree.
def sealKeys (secret : Bytes) (keyid : Nat) : Bytes × Bytes :=
  let d := shake256 48 (secret ++ ascii "EZM6410 SEAL" ++ leBytes 1 keyid)
  (d.take 32, d.drop 32)

def treeKeys (secret : Bytes) (tile : Nat) : Bytes × Bytes :=
  let d := shake256 48 (secret ++ ascii "EZM6410 TREE" ++ leBytes 1 tile)
  (d.take 32, d.drop 32)

/-- The AES input of a keystream block or a granule tag pad (R185). -/
def padInput (dom keyid gaddr line blk minor major : Nat) : Bytes :=
  beBytes 16 (dom * 2 ^ 124 + keyid * 2 ^ 116 + gaddr * 2 ^ 84 + line * 2 ^ 81 + blk * 2 ^ 79 + minor * 2 ^ 72 + major * 2 ^ 16)

/-- GADDR of a tile's granule (R185). -/
def gaddrOf (tile gran : Nat) : Nat := tile * 2 ^ 26 + gran

/-- Encrypt or decrypt a granule's 8 lines (R185). -/
def granuleCrypt (kenc : Bytes) (keyid gaddr minor major : Nat) (data : Bytes) : Bytes :=
  ((List.range 32).map fun i =>
    xorB (sub data (16 * i) 16) (Aes.block kenc (padInput 0 keyid gaddr (i / 4) (i % 4) minor major))).flatten

/-- A tag: the first 8 bytes of GHASH over the blocks and the pad input, XOR the pad (R187, R196). -/
def tagOver (kaes hkey data pad : Bytes) : Bytes :=
  (xorB (Ghash.run hkey (chunksOf 16 (data.length / 16 + 1) data ++ [pad])) (Aes.block kaes pad)).take 8

/-- A granule's tag over its ciphertext (R187). -/
def granuleTag (keys : Bytes × Bytes) (keyid gaddr minor major : Nat) (ct : Bytes) : Bytes :=
  tagOver keys.1 keys.2 ct (padInput 1 keyid gaddr 0 0 minor major)

/-- The tag of a leaf or node line under its counter (R196). For a node, `line` has TAG zero. -/
def metaTag (keys : Bytes × Bytes) (isNode : Bool) (level tile index ctr : Nat) (line : Bytes) : Bytes :=
  tagOver keys.1 keys.2 line
    (beBytes 16 ((if isNode then 3 else 2) * 2 ^ 124 + level * 2 ^ 120 + tile * 2 ^ 114 + index * 2 ^ 94 + ctr % 2 ^ 56))

-- Leaf lines (R191).
def leafMajor (d : Bytes) : Nat := bits (leNat d) 55 0
def leafMinor (d : Bytes) (j : Nat) : Nat := bits (leNat d) (56 + 7 * j + 6) (56 + 7 * j)
def leafFrz (d : Bytes) : Bool := bit (leNat d) 504

/-- Replace bits [hi:lo] of a little-endian value. -/
def setBits (v hi lo x : Nat) : Nat := v - bits v hi lo * 2 ^ lo + (x % 2 ^ (hi + 1 - lo)) * 2 ^ lo

def leafSetMinor (d : Bytes) (j m : Nat) : Bytes := leBytes 64 (setBits (leNat d) (56 + 7 * j + 6) (56 + 7 * j) m)

/-- A leaf with every minor zero. -/
def leafOf (major : Nat) (frz : Bool) : Bytes := leBytes 64 (major % 2 ^ 56 + frz.toNat * 2 ^ 504)

def leafFreeze (d : Bytes) : Bytes := leBytes 64 (setBits (leNat d) 504 504 1)

-- Node lines (R192).
def nodeCnt (d : Bytes) (j : Nat) : Nat := field d (7 * j) 7
def nodeSetCnt (d : Bytes) (j c : Nat) : Bytes := patch d (7 * j) (leBytes 7 c)
def nodeTag (d : Bytes) : Bytes := sub d 56 8
def nodeClear (d : Bytes) : Bytes := patch d 56 (zeros 8)

-- Placement (R194, R197): line numbers of the channel.
def tagArrayLine : Nat := 0x1F6C00000 / 64
def leafArrayLine : Nat := 0x1FE9B0000 / 64
def leafTagLine : Nat := 0x1FF966000 / 64
def nodeLine : Nat := 0x1FFB5CC00 / 64

/-- BASE of a node level. -/
def nodeBase : Nat → Nat | 1 => 0 | 2 => 64352 | 3 => 72396 | 4 => 73402 | _ => 73528

/-- Tile channel and line of a metadata line; of a node, its primary copy. -/
def MetaId.place : MetaId → Nat × Nat
  | .leaf l => (l % 4, leafArrayLine + l / 4)
  | .node lv i => (2 * (i % 2), nodeLine + nodeBase lv + i / 2)
  | .tagLine k g => (k, tagArrayLine + g)
  | .leafTag k n => (k, leafTagLine + n)

/-- The set of the counter cache a line belongs to: its line number within the metadata region mod 104; none for the lines
reserved for levels 4 and 5 (R198). -/
def MetaId.set : MetaId → Option Nat
  | .node lv i => if lv ≥ 4 then none else some (((MetaId.node lv i).place.2 - tagArrayLine) % 104)
  | m => some ((m.place.2 - tagArrayLine) % 104)

/-- The line that holds a line's counter (R193). -/
def MetaId.parent : MetaId → Option MetaId
  | .leaf l => some (.node 1 (l / 8))
  | .node lv i => if lv < 5 then some (.node (lv + 1) (i / 8)) else none
  | _ => none

/-- Level of a line in the tree: 0 for leaves and for the lines that have no counter (R193). -/
def MetaId.level : MetaId → Nat
  | .node lv _ => lv
  | _ => 0

/-- The nodes above a line, lowest first (R193). -/
def MetaId.ancestors : MetaId → List MetaId
  | .leaf l => [1, 2, 3, 4, 5].map fun lv => .node lv (l / 8 ^ lv)
  | .node lv i => ([1, 2, 3, 4, 5].filter (lv < ·)).map fun m => .node m (i / 8 ^ (m - lv))
  | _ => []

def chanFin (k : Nat) : ChanId := ⟨k % 4, Nat.mod_lt _ (by decide)⟩

-- A granule's places: its leaf, its position there, its channel and line, its tag line (R193, R167).
def leafOfGran (g : Nat) : Nat := g / 64
def granChan (g : Nat) : ChanId := chanFin g
def granLine (g : Nat) : Nat := 8 * (g / 4)
def granTagId (g : Nat) : MetaId := .tagLine (g % 4) (g / 4 / 8)
def granTagPos (g : Nat) : Nat := g / 4 % 8

/-- Nodes of a level per tile (R193). -/
def nodeItems : Nat → Nat | 1 => 128704 | 2 => 16088 | 3 => 2011 | 4 => 252 | _ => 32

/-- The node whose copy lies at a node slot of a channel (R194), if there is one. -/
def nodeAt (k slot : Nat) : Option (Nat × Nat) :=
  ((([5, 4, 3, 2, 1] : List Nat).find? fun lv => decide (nodeBase lv ≤ slot)).map fun lv =>
    (lv, 2 * (slot - nodeBase lv) + k / 2)).filter fun n => decide (n.2 < nodeItems n.1)

/-- The line lies among those pouncing rewrites: leaves, leaf tags, node copies (R216). -/
def pouncedLine (k line : Nat) : Bool :=
  (decide (leafArrayLine ≤ line) && decide (line < leafArrayLine + 257408)) ||
    (decide (leafTagLine ≤ line) && decide (line < leafTagLine + 32176)) ||
    (decide (nodeLine ≤ line) && (nodeAt k (line - nodeLine)).isSome)

/-- What pouncing leaves in a metadata line of tile `tile`, channel k, under a tree secret (R216): zero counters with their
tags. -/
def pouncedData (tile k : Nat) (secret : Bytes) (line : Nat) : Bytes :=
  let keys := treeKeys secret tile
  if leafTagLine ≤ line ∧ line < leafTagLine + 32176 then
    ((List.range 8).map fun j => metaTag keys false 0 tile (4 * (8 * (line - leafTagLine) + j) + k) 0 (zeros 64)).flatten
  else if nodeLine ≤ line then
    match nodeAt k (line - nodeLine) with
    | some n => zeros 56 ++ metaTag keys true n.1 tile n.2 0 (zeros 64)
    | none => zeros 64
  else zeros 64

/-- What a deep pounce leaves in a line of the data window (R381): AES-256 keystream under its throwaway key. The counter blocks are
not laid out (log 48). -/
def wipeData (tile k : Nat) (key : Bytes) (line : Nat) : Bytes :=
  ((List.range 4).map fun b => Aes.block key (Config.wipeBlock tile k line b)).flatten

/-- What a granule read gave: its plaintext with the lines delivered poisoned; or that the whole granule is poisoned. -/
structure GranuleOut where
  data : Bytes
  psn : List Nat
  deriving DecidableEq, Repr

def allLines : List Nat := List.range 8

def poisonedOut : GranuleOut := ⟨zeros 512, allLines⟩

namespace Chan

/-- The 72 symbols of a line that nothing has written since the channel was initialised, or, of a line pouncing rewrites,
since the last pouncing. -/
def baseLine (c : Chan) (line : Nat) : Bytes :=
  let fresh (data : Bytes) : Bytes := (Rs.encode ((fit 64 data).map (·.toNat) ++ [0, 0])).map (BitVec.ofNat 8)
  if line < tagArrayLine then
    match c.wiped with
    | none => zeros 72
    | some (tile, k, key) => fresh (wipeData tile k key line)
  else
    match c.tree with
    | none => zeros 72
    | some (tile, k, secret) => if pouncedLine k line then fresh (pouncedData tile k secret line) else zeros 72

/-- The 72 symbols stored for a line. -/
def stored (c : Chan) (line : Nat) : List Nat :=
  let b := c.baseLine line
  (List.range 72).map fun j => (c.mem.getD (b.getD j 0) (72 * line + j)).toNat

/-- Store the symbols of a line. -/
def storeLine (c : Chan) (line : Nat) (cw : List Nat) : Chan :=
  let b := c.baseLine line
  { c with mem := (List.range 72).foldl (fun m j => m.putD (b.getD j 0) (72 * line + j) (BitVec.ofNat 8 (cw.getD j 0))) c.mem }

/-- Write a whole line as a fresh codeword (R171, R174). -/
def writeLine (c : Chan) (line : Nat) (data : Bytes) (kchk : Nat) (psn : Bool) : Chan :=
  c.storeLine line (Rs.encode ((fit 64 data).map (·.toNat) ++ [kchk, psn.toNat]))

/-- Pouncing rewrites the metadata lines (R216). -/
def pounce (c : Chan) (tile k : Nat) (secret : Bytes) : Chan :=
  { c with tree := some (tile, k, secret), mem := c.mem.filter fun x => !pouncedLine k (x.1 / 72) }

/-- A deep pounce overwrites the data window under a throwaway key (R381 step 5): nothing of it is left. -/
def wipe (c : Chan) (tile k : Nat) (key : Bytes) : Chan :=
  { c with wiped := some (tile, k, key), mem := c.mem.filter fun x => decide (72 * tagArrayLine ≤ x.1) }

end Chan

end Sys2Proof.Machine
end

