-- ==== Sys2Proof/Machine/Channels.lean ====
section
/-! DEFINITION. Memory channels: the line code (R169-R173), corrected and uncorrectable lines (R176). -/

namespace Sys2Proof.Machine

/-- The outcome of a line read (R172), or no data after retry (R176). -/
inductive Outcome6 where
  | clean | corr | uncorr | poison | keymis | noData
  deriving DecidableEq, Repr

/-- A line as the controller delivers it. -/
structure LineOut where
  outcome : Outcome6
  data : Bytes
  kchk : Nat
  deriving DecidableEq, Repr

/-- The pin of codeword position j: 0-11 sub-channel A, 12-23 B (R169, R352). -/
def pinOf (j : Nat) : Nat :=
  if j < 64 then (j % 32) % 12 + 12 * (j / 32)
  else match j with
    | 64 => 8 | 65 => 9 | 66 => 10 | 67 => 11 | 68 => 20 | 69 => 21 | 70 => 22 | _ => 23

/-- Flip the symbols of an error pattern. -/
def flipSyms (cw : List Nat) (errs : List (Nat × BitVec 8)) : List Nat :=
  errs.foldl (fun cw e => cw.modify e.1 (· ^^^ e.2.toNat)) cw

/-- Decode 72 symbols as received (R172): the line, its corrected codeword, and the positions corrected. KCHK is compared
with `keyid` where one is given. -/
def decodeLine (cw : List Nat) (keyid : Option Nat) : LineOut × List Nat × List Nat :=
  match Rs.decode cw with
  | none => (⟨.uncorr, zeros 64, 0⟩, cw, [])
  | some (w, _) =>
    let lflg := w.getD 65 0
    if lflg / 2 ≠ 0 then (⟨.uncorr, zeros 64, 0⟩, cw, [])
    else
      let bad := (List.range 72).filter fun j => w.getD j 0 != cw.getD j 0
      let kchk := w.getD 64 0
      let oc : Outcome6 := if lflg % 2 = 1 then .poison else if keyid.isSome && keyid != some kchk then .keymis
        else if bad.isEmpty then .clean else .corr
      (⟨oc, (w.take 64).map (BitVec.ofNat 8), kchk⟩, w, bad)

/-- 1 s of the PHY clock in its counts (R176; log 14). -/
def phySecond : Nat := 1000000000

namespace State

/-- An error of a channel: met by the command whose request its slice serves. -/
def raiseChan (s : State) (t : TileId) (code ch detail : Nat) : State :=
  match s.partOf t with
  | some p => s.raise p code t.val ch detail s.tiles[t].slice.who
  | none => s

/-- A channel fails (R176): logged as CHANF, partition-fatal. -/
def failChannel (s : State) (t : TileId) (k : ChanId) (why : Nat) : State :=
  if s.tiles[t].chans[k].failed ≠ 0 then s
  else (s.modChan t k fun c => { c with failed := why }).raiseChan t 0x40 k.val why

/-- Count a corrected line and its pins (R176). -/
def countCorr (s : State) (t : TileId) (k : ChanId) (line : Nat) (bad : List Nat) : State :=
  let c := s.tiles[t].chans[k]
  let hit := (bad.map pinOf).eraseDups
  let pins := c.pins.zipIdx.map fun x => if hit.contains x.2 then x.1 + 1 else x.1
  let pinOver := pins.findIdx? (decide <| 1024 < ·)
  let s1 := s.modChan t k fun c =>
    { c with corr := min (c.corr + 1) 0xFFFFFF, pins := pins, corrLogged := true, degraded := c.degraded || pinOver.isSome }
  let s1 := if c.corrLogged then s1 else s1.raiseChan t 0x02 k.val line
  match pinOver with
  | some pin => if c.degraded then s1 else s1.raiseChan t 0x03 k.val pin
  | none => s1

/-- Count an uncorrectable line: 64 distinct ones within 1 s fail the channel (R176). -/
def countUncorr (s : State) (t : TileId) (k : ChanId) (line : Nat) : State :=
  let now := s.clocks.phy
  let c := s.tiles[t].chans[k]
  let us := (line, now) :: c.uncorr.filter fun u => u.1 != line && decide (now < u.2 + phySecond)
  let s := s.modChan t k fun c => { c with uncorr := us }
  if us.length ≥ 64 then s.failChannel t k 2 else s

/-- Read one line (R172-R176): what is delivered, and the controller's counts. -/
def readLine (s : State) (t : TileId) (k : ChanId) (line : Nat) (inp : LineIn) (keyid : Option Nat) : LineOut × State :=
  match inp with
  | .noData => (⟨.noData, zeros 64, 0⟩, s.failChannel t k 3)
  | .data errs =>
    let cw := flipSyms (s.tiles[t].chans[k].stored line) errs
    let d := decodeLine cw keyid
    let s := if d.1.outcome = .corr then s.countCorr t k line d.2.2 else s
    let s := if d.1.outcome = .uncorr then s.countUncorr t k line else s
    (d.1, s)

end State

end Sys2Proof.Machine
end

