-- ==== Sys2Proof/Machine/Seal.lean ====
section
/-! DEFINITION. The memory seal: keys, keystream and tags (R182-R187), the arbor tree (R191-R197), the counter cache
(R198, R202), reads, writes, wraps and failures of granules (R188-R212). -/

namespace Sys2Proof.Machine

namespace Seal

def find (x : Seal) (m : MetaId) : Option CLine := x.cache.find? (·.id == m)

def cached (x : Seal) (m : MetaId) : Bool := (x.find m).isSome

/-- Move a line to the most recently used place, with new contents. -/
def put (x : Seal) (l : CLine) : Seal := { x with cache := l :: x.cache.filter (·.id != l.id) }

/-- Mark a line used. -/
def touch (x : Seal) (m : MetaId) : Seal := match x.find m with | some l => x.put l | none => x

/-- A dirty line has this line above it: its parent stays in the cache, and so do the parent's own ancestors, which its
write-back makes dirty in turn (R198, R202; log 34). -/
def pinsParent (x : Seal) (m : MetaId) : Bool := x.cache.any fun l => l.dirty && l.id.ancestors.contains m

/-- The line a fill of its set evicts when 12 are there: the least recently used of those the access does not use that is no
parent of a dirty line; where there is none, the least recently used of those it does not use. -/
def victim (x : Seal) (set : Nat) : Option CLine :=
  let ls := x.cache.filter fun l => l.id.set == some set && !x.inUse.contains l.id
  if (x.cache.filter fun l => l.id.set == some set).length < 12 then none
  else ((ls.filter fun l => !x.pinsParent l.id).getLast?).orElse fun _ => ls.getLast?

/-- Dirty lines below a line, leaves first (R198, R202). -/
def dirtyBelow (x : Seal) (m : MetaId) : List MetaId :=
  let ds := (x.cache.filter fun l => l.dirty && l.id.ancestors.contains m).map (·.id)
  ([0, 1, 2, 3, 4] : List Nat).flatMap fun lv => ds.filter fun d => d.level == lv

/-- Set a counter of a cached node: a use of its line. -/
def setCount (m : MetaId) (j ctr : Nat) (x : Seal) : Seal :=
  match x.find m with
  | some p => x.put { p with data := nodeSetCnt p.data j ctr, dirty := true }
  | none => x

/-- The lost node above a leaf, if any (R212). -/
def lostAbove (x : Seal) (leaf : Nat) : Option (Nat × Nat) := x.lost.find? fun n => leaf / 8 ^ n.1 == n.2

end Seal

namespace State

/-- The keys a tile's slice holds for a KEYID of its partition; none where no job owns the slot (R182). -/
def slotKeys (s : State) (t : TileId) (keyid : Nat) : Option (Bytes × Bytes) :=
  (s.partOf t).bind fun p => (s.parts[p].slotSecrets.find? (·.1 == keyid)).map fun x => sealKeys x.2 keyid

def tileTreeKeys (s : State) (t : TileId) : Option (Bytes × Bytes) :=
  (s.partOf t).bind fun p => s.parts[p].treeSecret.map fun x => treeKeys x t.val

def rootIdx (t : TileId) (i : Nat) : Fin 2048 := ⟨(32 * t.val + i % 32) % 2048, Nat.mod_lt _ (by decide)⟩

/-- The counter of a level-5 node as the slice knows it: the newest update it has requested, else the root (R193, R202). -/
def rootCtr (s : State) (t : TileId) (i : Nat) : Nat :=
  match (s.tiles[t].slice.rootReqs.filter (·.1 == i)).getLast? with
  | some r => r.2
  | none => s.jewel.roots[rootIdx t i].ctr

/-- The counter of a line as its cached parent, or the root, holds it. -/
def metaCtr (s : State) (t : TileId) (m : MetaId) : Nat :=
  match m with
  | .leaf l => ((s.tiles[t].slice.find (.node 1 (l / 8))).map fun p => nodeCnt p.data (l % 8)).getD 0
  | .node lv i => if lv ≥ 5 then s.rootCtr t i else ((s.tiles[t].slice.find (.node (lv + 1) (i / 8))).map fun p => nodeCnt p.data (i % 8)).getD 0
  | _ => 0

/-- Write a metadata line to its channel, KCHK 00h and PSN clear (R171). -/
def writeMeta (s : State) (t : TileId) (k line : Nat) (data : Bytes) : State :=
  s.modChan t (chanFin k) fun c => c.writeLine line data 0 false

/-- The bytes stored in a line, without error handling: the read half of a partial metadata update. -/
def rawLine (s : State) (t : TileId) (k line : Nat) : Bytes :=
  (((s.tiles[t].chans[chanFin k].stored line).take 64).map (BitVec.ofNat 8))

/-- Put a leaf's tag into its leaf-tag line: in the cache where it is there, else in memory (R194). -/
def putLeafTag (s : State) (t : TileId) (l : Nat) (tag : Bytes) : State :=
  let m := MetaId.leafTag (l % 4) (l / 4 / 8)
  let pos := 8 * (l / 4 % 8)
  match s.tiles[t].slice.find m with
  | some c => s.modSlice t fun x => x.put { c with data := patch c.data pos tag, dirty := true }
  | none => s.writeMeta t m.place.1 m.place.2 (patch (s.rawLine t m.place.1 m.place.2) pos tag)

/-- Write a dirty line back (R202): its counter in the parent advances, its tag is formed, line and tag are issued. -/
def writeBack (s : State) (t : TileId) (c : CLine) : State :=
  let keys := (s.tileTreeKeys t).getD ([], [])
  let s := s.modSlice t fun x => { x with cache := x.cache.map fun l => if l.id == c.id then { l with dirty := false } else l }
  match c.id with
  | .tagLine _ _ | .leafTag _ _ => s.writeMeta t c.id.place.1 c.id.place.2 c.data
  | .leaf l =>
    let ctr := (s.metaCtr t c.id + 1) % 2 ^ 56
    let s := s.modSlice t (Seal.setCount (.node 1 (l / 8)) (l % 8) ctr)
    (s.writeMeta t c.id.place.1 c.id.place.2 c.data).putLeafTag t l (metaTag keys false 0 t.val l ctr c.data)
  | .node lv i =>
    let ctr := (s.metaCtr t c.id + 1) % 2 ^ 56
    let s := if lv < 5 then s.modSlice t (Seal.setCount (.node (lv + 1) (i / 8)) (i % 8) ctr)
      else s.modSlice t (fun x => { x with rootReqs := x.rootReqs ++ [(i, ctr)] })
    let body := nodeClear c.data
    let line := patch body 56 (metaTag keys true lv t.val i ctr body)
    let s := s.modSlice t fun x => { x with cache := x.cache.map fun p => if p.id == c.id then { p with data := line } else p }
    (s.writeMeta t c.id.place.1 c.id.place.2 line).writeMeta t (c.id.place.1 + 1) c.id.place.2 line

/-- Write a line back if it is cached and dirty. -/
def cleanLine (s : State) (t : TileId) (m : MetaId) : State :=
  match s.tiles[t].slice.find m with
  | some c => if c.dirty then s.writeBack t c else s
  | none => s

/-- Evict a line: the dirty lines below it are written back first, then it is, if dirty (R198, R202). -/
def evict (s : State) (t : TileId) (m : MetaId) : State :=
  let s := ((s.tiles[t].slice.dirtyBelow m).foldl (fun s d => s.cleanLine t d) s).cleanLine t m
  s.modSlice t fun x => { x with cache := x.cache.filter (·.id != m) }

/-- Bring a line into the cache, evicting one of its set's 12 as needed (R198, R202). -/
def cacheFill (s : State) (t : TileId) (c : CLine) : State :=
  let s := match c.id.set with
    | none => s
    | some set =>
      if s.tiles[t].slice.cached c.id then s
      else match s.tiles[t].slice.victim set with
        | none => s
        | some v => s.evict t v.id
  s.modSlice t fun x => x.put c

/-- A line is used (R198). -/
def useLine (s : State) (t : TileId) (m : MetaId) : State := s.modSlice t fun x => x.touch m

/-- Do `f` while its lines stay in the cache. -/
def holding (s : State) (t : TileId) (ms : List MetaId) (f : State → State) : State :=
  let old := s.tiles[t].slice.inUse
  (f (s.modSlice t fun x => { x with inUse := old ++ ms })).modSlice t fun x => { x with inUse := old }

/-- The lines an access to a granule uses: its leaf with the nodes above it and its leaf-tag line, and its tag line. -/
def granLines (g : Nat) : List MetaId :=
  let l := leafOfGran g
  [.leaf l, .leafTag (l % 4) (l / 4 / 8), granTagId g] ++ (MetaId.leaf l).ancestors

/-- The lines a wrap or a repair of a leaf uses. -/
def leafLines (l : Nat) : List MetaId :=
  [.leaf l, .leafTag (l % 4) (l / 4 / 8)] ++ (MetaId.leaf l).ancestors ++ ((List.range 64).map fun j => granTagId (64 * l + j)).eraseDups

def nextLine : List LineIn → LineIn × List LineIn
  | [] => (.data [], [])
  | l :: ls => (l, ls)

/-- Is a metadata line as read usable? UNCORR and POISON are not; KEYMIS is not acted on by itself (R208). -/
def metaReadOk (o : LineOut) : Bool := match o.outcome with | .uncorr | .poison | .noData => false | _ => true

/-- Check the root entry before its use (R195, R208, R213): one flipped bit is corrected; two are module-fatal; three or
more read as whatever the check makes of them, a free value. -/
def readRoot (s : State) (t : TileId) (i : Nat) : State :=
  let ix := rootIdx t i
  let r := s.jewel.roots[ix]
  let n := (List.range 64).countP fun b => r.flips.getLsbD b
  let set (x : Root) (s : State) : State := { s with jewel := { s.jewel with roots := s.jewel.roots.set ix x } }
  if n = 0 then s
  else if n = 1 then
    let s := set { r with flips := 0 } s
    match s.partOf t with
    | some p => s.raise p 0x05 0x43 0 (32 * (t.val - (s.tilesOf p).headD t) + i)
    | none => s
  else if n = 2 then s.mfatal 0x50 0x43 ix.val
  else
    let d := s.draw 7
    set { ctr := leNat d.1 % 2 ^ 56, flips := 0 } d.2

/-- A node copy read from memory: verified contents, or the way it failed (true: a tag mismatch). -/
def readNodeCopy (s : State) (t : TileId) (mirror : Bool) (lv i ctr : Nat) (inp : LineIn) : State × Except Bool Bytes :=
  let pl := (MetaId.node lv i).place
  let r := s.readLine t (chanFin (pl.1 + mirror.toNat)) pl.2 inp (some 0)
  if !metaReadOk r.1 then (r.2, .error false)
  else
    let keys := (s.tileTreeKeys t).getD ([], [])
    if nodeTag r.1.data == metaTag keys true lv t.val i ctr (nodeClear r.1.data) then (r.2, .ok r.1.data) else (r.2, .error true)

/-- Fetch and verify a node (R200, R208): one bad copy is written over from the other; two lose the subtree (R212). -/
def fetchNode (s : State) (t : TileId) (lv i : Nat) (a b : LineIn) : State :=
  let s := if lv < 5 then s.useLine t (.node (lv + 1) (i / 8)) else s
  let ctr := s.metaCtr t (.node lv i)
  let pl := (MetaId.node lv i).place
  let det := lv * 2 ^ 24 + i
  let r := s.readNodeCopy t false lv i ctr a
  match r.2 with
  | .ok d => r.1.cacheFill t ⟨.node lv i, d, false⟩
  | .error mis1 =>
    let r2 := r.1.readNodeCopy t true lv i ctr b
    match r2.2 with
    | .ok d =>
      let s := r2.1.raiseChan t (if mis1 then 0x22 else 0x04) (pl.1) det
      (s.writeMeta t pl.1 pl.2 d).cacheFill t ⟨.node lv i, d, false⟩
    | .error mis2 =>
      let s := r2.1.raiseChan t (if mis1 || mis2 then 0x22 else 0x16) pl.1 det
      s.modSlice t fun x => { x with lost := x.lost ++ [(lv, i)] }

end State

/-- Ancestors of a leaf that are not cached, lowest first (R200). -/
def missingAncestors (x : Seal) (leaf : Nat) : List (Nat × Nat) :=
  let up := [1, 2, 3, 4, 5].map fun lv => (lv, leaf / 8 ^ lv)
  up.takeWhile fun n => !x.cached (.node n.1 n.2)

namespace State

/-- Before a leaf becomes dirty every node above it is in the cache: those evicted since the leaf was fetched are fetched
again, top down (R198; log 34). -/
def pinChain (s : State) (t : TileId) (leaf : Nat) : State :=
  let miss := (([5, 4, 3, 2, 1] : List Nat).map fun lv => (lv, leaf / 8 ^ lv)).filter fun n => !s.tiles[t].slice.cached (.node n.1 n.2)
  let s := if miss.any (·.1 == 5) then s.readRoot t (leaf / 8 ^ 5) else s
  miss.foldl (fun s n => if (s.tiles[t].slice.lostAbove leaf).isSome then s else s.fetchNode t n.1 n.2 (.data []) (.data [])) s

/-- Encrypt and issue a granule under its current pair, its tag into the cached tag line (R201 steps 3 to 5). With no job's key
in the slot only poison is written, as lines of zeros that carry PSN (R209, R211). -/
def issueGranule (s : State) (t : TileId) (g keyid : Nat) (data : Bytes) (psn : List Nat) : State :=
  let keys := s.slotKeys t keyid
  match s.tiles[t].slice.find (.leaf (leafOfGran g)) with
  | none => s
  | some leaf =>
    if keys.isNone ∧ psn.length ≠ 8 then s else
    let minor := leafMinor leaf.data (g % 64)
    let major := leafMajor leaf.data
    let gaddr := gaddrOf t.val g
    let ct := match keys with | some k => granuleCrypt k.1 keyid gaddr minor major (fit 512 data) | none => zeros 512
    let tag := match keys with | some k => granuleTag k keyid gaddr minor major ct | none => zeros 8
    let s := s.modChan t (granChan g) fun c =>
      allLines.foldl (fun c i => c.writeLine (granLine g + i) (sub ct (64 * i) 64) keyid (psn.contains i)) c
    s.modSlice t fun x =>
      match x.find (granTagId g) with
      | some tl => x.put { tl with data := patch tl.data (8 * granTagPos g) tag, dirty := true }
      | none => x

/-- Read the 8 lines of a granule with its tag checked under (minor, major): plaintext, poisoned lines, and the error found
(none, UNCORR, or a mismatch). -/
def openGranule (s : State) (t : TileId) (g keyid : Nat) (minor major : Nat) (lines : List LineIn) :
    State × List LineIn × GranuleOut × Option Bool :=
  let gaddr := gaddrOf t.val g
  let rd := allLines.foldl (fun (acc : State × List LineIn × List LineOut) i =>
    let n := nextLine acc.2.1
    let r := acc.1.readLine t (granChan g) (granLine g + i) n.1 (some keyid)
    (r.2, n.2, acc.2.2 ++ [r.1])) (s, lines, [])
  let outs := rd.2.2
  let psn := (outs.zipIdx.filter fun x => x.1.outcome == .poison).map (·.2)
  let unc := outs.any fun o => o.outcome == .uncorr || o.outcome == .noData
  let mis := outs.any fun o => o.outcome == .keymis
  let ct := (outs.map (·.data)).flatten
  let tagOk : Bool := match s.slotKeys t keyid, s.tiles[t].slice.find (granTagId g) with
    | some keys, some tl => sub tl.data (8 * granTagPos g) 8 == granuleTag keys keyid gaddr minor major ct
    | _, _ => false
  let pt := match s.slotKeys t keyid with
    | some keys => granuleCrypt keys.1 keyid gaddr minor major ct
    | none => zeros 512
  let whole := psn.length == 8
  let bad := if unc then some false else if mis || (!tagOk && !whole) then some true else none
  (rd.1, rd.2.1, ⟨((chunksOf 64 8 pt).zipIdx.map fun x => if psn.contains x.2 then zeros 64 else x.1).flatten, psn⟩, bad)

/-- Log a granule's failure (R208): MEMUE for uncorrectable data, GTAG for a mismatch or KEYMIS. -/
def logGranule (s : State) (t : TileId) (g : Nat) (mis : Bool) : State :=
  s.raiseChan t (if mis then 0x20 else 0x12) (granChan g).val g

/-- The granule tag line was read as UNCORR: its granules are poisoned as they are read (R208). -/
def tagLineBad (x : Seal) (g : Nat) : Bool := x.badTags.contains (g % 4, g / 4 / 8)

/-- The granule's tag was lost with its tag line and nothing has written the granule since. -/
def tagLost (x : Seal) (g : Nat) : Bool :=
  tagLineBad x g && (sub (((x.find (granTagId g)).map (·.data)).getD []) (8 * granTagPos g) 8 == zeros 8)

/-- Set a leaf in the cache. -/
def setLeaf (s : State) (t : TileId) (l : Nat) (d : Bytes) : State :=
  s.modSlice t fun x => x.put ⟨.leaf l, d, true⟩

/-- Write back the leaf at once (R204 step 5, R211 step 2). -/
def flushLeaf (s : State) (t : TileId) (l : Nat) : State :=
  match s.tiles[t].slice.find (.leaf l) with
  | some c => s.writeBack t c
  | none => s

/-- Fetch a tag line into the cache (R200, R208). One that is lost is held as zeros, dirty, so that its granules stay lost
until they are written. -/
def fetchTagLine (s : State) (t : TileId) (g : Nat) (inp : LineIn) : State :=
  let m := granTagId g
  let pl := m.place
  let r := s.readLine t (chanFin pl.1) pl.2 inp (some 0)
  if metaReadOk r.1 then r.2.cacheFill t ⟨m, r.1.data, false⟩
  else
    let s := if tagLineBad s.tiles[t].slice g then r.2 else
      (r.2.raiseChan t 0x13 pl.1 (g / 32 * 32 + g % 4)).modSlice t fun x => { x with badTags := x.badTags ++ [(g % 4, g / 4 / 8)] }
    s.cacheFill t ⟨m, zeros 64, true⟩

/-- The granules of a leaf. -/
def granulesOf (l : Nat) : List Nat := (List.range 64).map (64 * l + ·)

/-- Make sure every tag line of a leaf's granules is cached. -/
def fetchLeafTags (s : State) (t : TileId) (l : Nat) (lines : List LineIn) : State × List LineIn :=
  (granulesOf l).foldl (fun (acc : State × List LineIn) g =>
    if acc.1.tiles[t].slice.cached (granTagId g) then acc
    else let n := nextLine acc.2; (acc.1.fetchTagLine t g n.1, n.2)) (s, lines)

/-- The KEYID a granule's lines carry, when all 8 agree and it lies in the partition's range (R204). -/
def storedKeyid (s : State) (t : TileId) (g : Nat) : Option Nat :=
  let ks := allLines.map fun i => (decodeLine (s.tiles[t].chans[granChan g].stored (granLine g + i)) none).1.kchk
  match s.partOf t with
  | none => none
  | some p =>
    let r := s.keyRange p
    match ks with
    | k :: rest => if rest.all (· == k) && decide (r.1 ≤ k) && decide (k < r.1 + r.2) then some k else none
    | [] => none

/-- Read and verify one granule of a wrap (R204 step 2): the KEYID it is rewritten under, its contents. -/
def wrapRead (s : State) (t : TileId) (g keyid : Nat) (leaf : Bytes) (lines : List LineIn) :
    State × List LineIn × Nat × GranuleOut :=
  let minor := leafMinor leaf (g % 64)
  let major := leafMajor leaf
  if minor = 0 ∧ major = 0 then (s, lines, keyid, ⟨zeros 512, []⟩)
  else
    match s.storedKeyid t g with
    | none => (s.logGranule t g true, lines, keyid, poisonedOut)
    | some k =>
      if tagLost s.tiles[t].slice g then (s, lines, k, poisonedOut)
      else
        let r := s.openGranule t g k minor major lines
        match r.2.2.2 with
        | none => (r.1, r.2.1, k, r.2.2.1)
        | some mis => (r.1.logGranule t g mis, r.2.1, k, poisonedOut)

/-- End of the major counter (R206): the leaf is frozen, written back, and the error logged once. -/
def freezeLeaf (s : State) (t : TileId) (l : Nat) (leaf : Bytes) : State :=
  (((s.pinChain t l).setLeaf t l (leafFreeze leaf)).flushLeaf t l).raiseChan t 0x17 (l % 4) l

/-- A minor wrap (R204): every granule of the leaf but `g` read and rewritten under the next major, `g` with its new data. -/
def wrapLeaf (s : State) (t : TileId) (g keyid : Nat) (data : Bytes) (psn : List Nat) (leaf : Bytes) (lines : List LineIn) : State :=
  let l := leafOfGran g
  let major := leafMajor leaf
  if major + 1 ≥ 2 ^ 56 then s.freezeLeaf t l leaf
  else
    let ft := s.fetchLeafTags t l lines
    let rd := (granulesOf l).foldl (fun (acc : State × List LineIn × List (Nat × Nat × GranuleOut)) h =>
      if h = g then (acc.1, acc.2.1, acc.2.2 ++ [(h, keyid, ⟨data, psn⟩)])
      else
        let r := acc.1.wrapRead t h keyid leaf acc.2.1
        (r.1, r.2.1, acc.2.2 ++ [(h, r.2.2.1, r.2.2.2)])) (ft.1, ft.2, [])
    let s := rd.1.setLeaf t l (leafOf (major + 1) false)
    let s := rd.2.2.foldl (fun s x => s.issueGranule t x.1 x.2.1 x.2.2.data x.2.2.psn) s
    s.flushLeaf t l

/-- Write a granule whole (R201), wrapping its leaf where its minor would pass 127 (R204). Dropped where the leaf is frozen
(R206). -/
def writeGranule (s : State) (t : TileId) (g keyid : Nat) (data : Bytes) (psn : List Nat) (lines : List LineIn) : State :=
  let l := leafOfGran g
  match s.tiles[t].slice.find (.leaf l) with
  | none => s
  | some c =>
    if leafFrz c.data then s
    else s.holding t (if leafMinor c.data (g % 64) < 127 then granLines g else leafLines l) fun s =>
      let s := s.pinChain t l
      let minor := leafMinor c.data (g % 64)
      if (s.tiles[t].slice.lostAbove l).isSome then s
      else if minor < 127 then (s.setLeaf t l (leafSetMinor c.data (g % 64) (minor + 1))).issueGranule t g keyid data psn
      else s.wrapLeaf t g keyid data psn c.data lines

/-- Poison a granule (R209). -/
def poisonGranule (s : State) (t : TileId) (g keyid : Nat) (lines : List LineIn) : State :=
  s.writeGranule t g keyid (zeros 512) allLines lines

/-- Repair a lost leaf (R211): a new major above every counter it can have had, every granule poisoned. -/
def repairLeaf (s : State) (t : TileId) (l keyid : Nat) (lines : List LineIn) : State :=
  s.holding t (leafLines l) fun s =>
    let s := s.pinChain t l
    let s := s.cacheFill t ⟨.leaf l, leafOf (s.metaCtr t (.leaf l) + 1) false, true⟩
    let s := s.flushLeaf t l
    let s := (s.fetchLeafTags t l lines).1
    (granulesOf l).foldl (fun s g => s.poisonGranule t g keyid []) s

/-- Bring a leaf's leaf-tag line into the cache (R200, R208). One that is lost is held as zeros, dirty, so that its leaves stay
lost until they are repaired or written back. -/
def fetchLeafTag (s : State) (t : TileId) (l : Nat) (inp : LineIn) : State :=
  let lt := MetaId.leafTag (l % 4) (l / 4 / 8)
  let ltk := (l % 4, l / 4 / 8)
  let k := chanFin l
  match s.tiles[t].slice.find lt with
  | some _ => s
  | none =>
    let q := s.readLine t k lt.place.2 inp (some 0)
    if metaReadOk q.1 then q.2.cacheFill t ⟨lt, q.1.data, false⟩
    else
      let s := if s.tiles[t].slice.badLeafTags.contains ltk then q.2 else
        (q.2.raiseChan t 0x15 k.val (l / 32 * 32 + l % 4)).modSlice t fun x => { x with badLeafTags := x.badLeafTags ++ [ltk] }
      s.cacheFill t ⟨lt, zeros 64, true⟩

/-- A leaf as read carries the tag that its cached leaf-tag line holds (R196). -/
def leafTagOk (s : State) (t : TileId) (l : Nat) (data : Bytes) : Bool :=
  match s.tiles[t].slice.find (.leafTag (l % 4) (l / 4 / 8)), s.tileTreeKeys t with
  | some c, some keys => sub c.data (8 * (l / 4 % 8)) 8 == metaTag keys false 0 t.val l (s.metaCtr t (.leaf l)) data
  | _, _ => false

/-- The leaf's tag was lost with its leaf-tag line and the leaf has not been written back since. -/
def leafTagLost (s : State) (t : TileId) (l : Nat) : Bool :=
  let x := s.tiles[t].slice
  x.badLeafTags.contains (l % 4, l / 4 / 8) &&
    (sub (((x.find (.leafTag (l % 4) (l / 4 / 8))).map (·.data)).getD []) (8 * (l / 4 % 8)) 8 == zeros 8)

/-- Fetch the leaf and its leaf-tag line, verify, repair where lost (R200, R208). -/
def fetchLeaf (s : State) (t : TileId) (l keyid : Nat) (a b : LineIn) : State :=
  let k := chanFin l
  let r := s.readLine t k (MetaId.leaf l).place.2 a (some 0)
  let s := r.2
  let s := s.fetchLeafTag t l b
  let s := (s.useLine t (.node 1 (l / 8))).useLine t (.leafTag (l % 4) (l / 4 / 8))
  if !metaReadOk r.1 then (s.raiseChan t 0x14 k.val l).repairLeaf t l keyid []
  else if s.leafTagOk t l r.1.data then s.cacheFill t ⟨.leaf l, r.1.data, false⟩
  else if s.leafTagLost t l then s.repairLeaf t l keyid []
  else (s.raiseChan t 0x21 k.val l).repairLeaf t l keyid []

/-- The granule's leaf is cached and holds (0, 0) for it (R190). -/
def neverWritten (s : State) (t : TileId) (g : Nat) : Bool :=
  (s.tiles[t].slice.find (.leaf (leafOfGran g))).any fun c => leafMinor c.data (g % 64) == 0 && leafMajor c.data == 0

/-- A counter-cache miss of granule g (R200): the leaf line, its leaf-tag line, the missing ancestors lowest first, and the
tag line, from `lines` in that order; `mirrors` are the second copies of nodes, in the order they are needed, top down. The tag
line of a granule never written is not accessed to read it (R190). -/
def fillMiss (s : State) (t : TileId) (g keyid : Nat) (write : Bool) (lines mirrors : List LineIn) : State :=
  s.holding t (granLines g) fun s =>
  let l := leafOfGran g
  let x := s.tiles[t].slice
  let needLeaf := !x.cached (.leaf l)
  let needLt := needLeaf && !x.cached (.leafTag (l % 4) (l / 4 / 8))
  let anc := if needLeaf then missingAncestors x l else []
  let n1 := if needLeaf then nextLine lines else (.data [], lines)
  let n2 := if needLt then nextLine n1.2 else (.data [], n1.2)
  let ancIn := anc.zipIdx.map fun a => (a.1, n2.2.getD a.2 (.data []))
  let rest := n2.2.drop anc.length
  -- top down
  let s := if anc.any (·.1 == 5) then s.readRoot t (l / 8 ^ 5) else s
  let up := ancIn.reverse.foldl (fun (acc : State × List LineIn) a =>
    if (acc.1.tiles[t].slice.lostAbove l).isSome then acc
    else
      let m := nextLine acc.2
      (acc.1.fetchNode t a.1.1 a.1.2 a.2 m.1, if (acc.1.readNodeCopy t false a.1.1 a.1.2 (acc.1.metaCtr t (.node a.1.1 a.1.2)) a.2).2.isOk then acc.2 else m.2))
    (s, mirrors)
  let s := up.1
  if (s.tiles[t].slice.lostAbove l).isSome then s
  else
    let s := if needLeaf then s.fetchLeaf t l keyid n1.1 n2.1 else s
    if s.tiles[t].slice.cached (granTagId g) || (!write && s.neverWritten t g) then s else s.fetchTagLine t g (nextLine rest).1

/-- A checkpoint has still to copy the granule (R400). -/
def uncopied (x : Seal) (g : Nat) : Bool := x.copying.contains g || x.reqs.any fun r => r.owner == .checkpoint && r.gran == g

/-- Poison a granule that failed, or hold the poisoning while a checkpoint has still to copy the granule (R209, R400). -/
def poisonFailed (s : State) (t : TileId) (g keyid : Nat) (lines : List LineIn) : State :=
  if uncopied s.tiles[t].slice g then
    s.modSlice t fun x => { x with reqs := x.reqs ++ [⟨g, keyid, .poison, 0, 512, some (zeros 512), allLines, 0, false, true, (g, 1)⟩] }
  else s.poisonGranule t g keyid lines

/-- A whole granule through the slice (R188, R190, R208): its contents, poisoned where it is or fails. -/
def readGranule (s : State) (t : TileId) (g keyid : Nat) (lines : List LineIn) : State × List LineIn × GranuleOut :=
  let x := s.tiles[t].slice
  let locked := match s.partOf t with | some p => s.parts[p].ilock | none => true
  if locked || (x.lostAbove (leafOfGran g)).isSome then (s, lines, poisonedOut)
  else match x.find (.leaf (leafOfGran g)) with
    | none => (s, lines, poisonedOut)
    | some c =>
      let minor := leafMinor c.data (g % 64)
      let major := leafMajor c.data
      let s := s.modSlice t fun x => (x.touch (.leaf (leafOfGran g))).touch (granTagId g)
      if minor = 0 ∧ major = 0 then (s, lines, ⟨zeros 512, []⟩)
      else if tagLost x g then
        (s.poisonFailed t g keyid lines, lines, poisonedOut)
      else
        let r := s.openGranule t g keyid minor major lines
        match r.2.2.2 with
        | none => (r.1, r.2.1, r.2.2.1)
        | some mis => ((r.1.logGranule t g mis).poisonFailed t g keyid r.2.1, r.2.1, poisonedOut)

/-- A write of bytes lo to hi - 1 of a granule: whole, or merged after a verified read (R188, R209, R210). -/
def mergeWrite (s : State) (t : TileId) (g keyid lo hi : Nat) (data : Bytes) (psn : List Nat) (lines : List LineIn) : State :=
  let locked := match s.partOf t with | some p => s.parts[p].ilock | none => true
  if locked || (s.tiles[t].slice.lostAbove (leafOfGran g)).isSome then s
  else if lo = 0 ∧ hi = 512 then s.writeGranule t g keyid data psn lines
  else
    let r := s.readGranule t g keyid lines
    let keep := r.2.2.psn.filter fun i => decide (64 * i < lo) || decide (hi < 64 * i + 64)
    r.1.writeGranule t g keyid (patch (fit 512 r.2.2.data) lo data) (keep ++ psn) r.2.1

end State

end Sys2Proof.Machine
end

