-- ==== Sys2Proof/Machine/Streams.lean ====
section
/-! DEFINITION. Job secrets (R371), sealed chunks (R219, R220), and the host requests that carry them (R223, R332, R497). -/

namespace Sys2Proof.Machine

/-- A secret derived from another by a 12-character label (R371). -/
def derived (secret : Bytes) (label : String) : Bytes := shake256 32 (secret ++ ascii label)

/-- The key of a stream's chunks in an epoch (R219). -/
def chunkKey (secret : Bytes) (sid epoch : Nat) : Bytes :=
  shake256 32 (secret ++ ascii "EZM6410 STRM" ++ beBytes 4 sid ++ beBytes 4 epoch)

def chunkIv (sid i : Nat) : Bytes := beBytes 4 sid ++ beBytes 8 i

def chunkAad (sid epoch i : Nat) : Bytes := beBytes 4 sid ++ beBytes 4 epoch ++ beBytes 8 i

/-- Seal a chunk, filled with zeros to 4,096 bytes: ciphertext and tag (R219). -/
def sealChunk (secret : Bytes) (sid epoch i : Nat) (plain : Bytes) : Bytes × Bytes :=
  Gcm.encrypt (chunkKey secret sid epoch) (chunkIv sid i) (chunkAad sid epoch i) (fit 4096 plain)

/-- Open a chunk; none where its check fails (R223). -/
def openChunk (secret : Bytes) (sid epoch i : Nat) (ct tag : Bytes) : Option Bytes :=
  Gcm.decrypt (chunkKey secret sid epoch) (chunkIv sid i) (chunkAad sid epoch i) ct tag

namespace State

/-- The partition's entry for a SID: its index and itself. -/
def stream (s : State) (p : PartId) (sid : Nat) : Option (Nat × Stream) := s.parts[p].streams.find? (·.2.sid == sid)

def modStream (s : State) (p : PartId) (sid : Nat) (f : Stream → Stream) : State :=
  s.modPart p fun x => { x with streams := x.streams.map fun e => if e.2.sid == sid then (e.1, f e.2) else e }

/-- The secret of a key source (R346): the job stream secret, or a contributor's import secret. -/
def ksrcSecret (s : State) (p : PartId) (ksrc : Nat) : Option Bytes :=
  s.parts[p].job.bind fun j =>
    if ksrc = 0 then j.jr.map (derived · "EZM6410 JSTR") else (j.imports.find? (·.1 + 1 == ksrc)).map (·.2)

/-- Put a write in a function's queue. -/
def postWrite (s : State) (f : Fn) (w : HostWrite) : State := s.modDma f fun d => { d with writes := d.writes ++ [w] }

/-- Put the writes of chunk i of a stream in the queue: ciphertext, then tag (R220); the stream stands at `accept` once the
ciphertext is issued. -/
def postChunk (s : State) (p : PartId) (st : Stream) (epoch i : Nat) (plain : Bytes) (owner : Owner) (hw : Nat) : State :=
  match s.ksrcSecret p st.ksrc with
  | none => s
  | some secret =>
    let c := sealChunk secret st.sid epoch i plain
    (s.postWrite (some p) ⟨.other, st.dbase + 4096 * i, c.1, owner, some (st.sid, epoch, hw)⟩).postWrite (some p)
      ⟨.tag, st.tbase + 16 * i, c.2, owner, none⟩

/-- Ask for chunk i of a stream: a pair of reads under one chunk number (R223). -/
def askChunk (s : State) (p : PartId) (st : Stream) (i : Nat) (owner : Owner) : State :=
  let id := s.host.nextId
  let s := { s with host := { s.host with nextId := id + 2 } }
  s.modDma (some p) fun d => { d with reads := d.reads ++
    [⟨id, st.dbase + 4096 * i, 4096, owner, i, false, none, none⟩, ⟨id + 1, st.tbase + 16 * i, 16, owner, i, true, none, none⟩] }

/-- Cut a read of host memory into requests of 4,096 bytes at most that cross no 4 KiB boundary. -/
def cutReads : Nat → Nat → Nat → List (Nat × Nat)
  | 0, _, _ => []
  | n + 1, a, len =>
    if len = 0 then [] else
      let k := min len (4096 - a % 4096)
      (a, k) :: cutReads n (a + k) (len - k)

/-- Ask for the object that a command names in host memory: its reads go out in the partition's read slots (R497). -/
def askObject (s : State) (f : Fn) (seq addr len : Nat) : State :=
  let rs := (cutReads (len / 4096 + 2) addr len).zipIdx
  let id := s.host.nextId
  let s := { s with host := { s.host with nextId := id + rs.length } }
  s.modDma f fun d => { d with reads := d.reads ++ rs.map fun x => ⟨id + x.2, x.1.1, x.1.2, .command false seq, x.2, false, none, none⟩ }

/-- Bytes of one posted write at most (R495 MPSC, R496). -/
def maxPayload (s : State) : Nat := 128 * 2 ^ min 3 s.host.mps

/-- The posted writes that carry bytes to an address: none longer than the payload size or across a 4 KiB boundary. -/
def cutWrites (m : Nat) : Nat → Nat → Bytes → List (Nat × Bytes)
  | 0, _, _ => []
  | n + 1, a, bs =>
    if bs.isEmpty then []
    else
      let k := min m (4096 - a % 4096)
      (a, bs.take k) :: cutWrites m n (a + k) (bs.drop k)

/-- Issue a write whole: its posted writes go out, and an accepted chunk counts in its stream (R222). -/
def issue (s : State) (f : Fn) (w : HostWrite) : State :=
  let ws := cutWrites s.maxPayload (w.data.length + 1) w.addr w.data
  let s := { s with host := { s.host with out := s.host.out ++ ws.map fun x => .write f x.1 x.2 } }
  match f, w.accept with
  | some p, some a => s.modStream p a.1 fun st => { st with epoch := a.2.1, hw := a.2.2 }
  | _, _ => s

/-- Requests of an owner still queued or unanswered. -/
def hostBusy (s : State) (f : Fn) (o : Owner) : Bool :=
  (s.dma f).writes.any (·.owner == o) || (s.dma f).reads.any (·.owner == o)

/-- Withdraw an owner's requests. -/
def dropRequests (s : State) (f : Fn) (o : Owner) : State :=
  s.modDma f fun d => { d with writes := d.writes.filter (·.owner != o), reads := d.reads.filter (·.owner != o) }

end State

end Sys2Proof.Machine
end

