-- ==== Sys2Proof/Machine/Transfer.lean ====
section
/-! DEFINITION. Transfers: granules read and written at once by the module's own engines, what a served granule or chunk brings
to its owner, and the progress of copies (R189, R210, R223, R234-R236, R347). -/

namespace Sys2Proof.Machine

/-- The lines of a granule that a byte range lo to hi - 1 touches. -/
def touched (lo hi : Nat) : List Nat := allLines.filter fun i => decide (64 * i < hi) && decide (lo < 64 * i + 64)

/-- The granule pieces of a range of tile offsets: granule, first and end byte within it, place within the range. -/
def granulePieces (ofs len : Nat) : List (Nat × Nat × Nat × Nat) :=
  if len = 0 then []
  else (List.range ((ofs + len - 1) / 512 + 1 - ofs / 512)).map fun j =>
    let g := ofs / 512 + j
    let lo := if j = 0 then ofs % 512 else 0
    (g, lo, min 512 (ofs + len - 512 * g), 512 * g + lo - ofs)

/-- Pieces of a byte sequence laid out in rows (R71): place in the sequence, scratchpad address, length. -/
def rowPieces (saddr rowlen sstride pos len : Nat) : List (Nat × Nat × Nat) :=
  if len = 0 ∨ rowlen = 0 then []
  else (List.range ((pos + len - 1) / rowlen + 1 - pos / rowlen)).map fun j =>
    let r := pos / rowlen + j
    let a := max pos (r * rowlen)
    let b := min (pos + len) ((r + 1) * rowlen)
    (a, saddr + r * sstride + (a - r * rowlen), b - a)

namespace Tile

def modOp (t : Tile) (id : Nat) (f : Op → Op) : Tile := { t with ops := t.ops.map fun o => if o.id == id then f o else o }

/-- Bytes arrive at scratchpad for a transfer: `bad` are the addresses and lengths within them that arrive poisoned (R210). A
line once delivered poisoned to the transfer stays so. -/
def arrive (t : Tile) (id addr : Nat) (bs : Bytes) (bad : List (Nat × Nat)) : Tile :=
  let lines := (bad.map fun b => linesOf b.1 b.2).flatten
  let t := (t.spWrite addr bs).modOp id fun o => { o with psn := o.psn ++ lines.filter fun l => !o.psn.contains l }
  let mine := ((t.ops.find? (·.id == id)).map (·.psn)).getD lines
  ((linesOf addr bs.length).filter (mine.contains ·)).foldl (fun t l => t.spPoison (64 * l) 64) t

end Tile

namespace State

/-- Run `f` with the slice of t serving a command's request. -/
def asCmd (s : State) (t : TileId) (who : Option (Bool × Nat)) (f : State → State) : State :=
  (f (s.modSlice t fun x => { x with who := who })).modSlice t fun x => { x with who := none }

/-- One granule read through the slice in one step, its metadata fetched as needed with no error on the lines. -/
def readNow (s : State) (t : TileId) (g keyid : Nat) (who : Option (Bool × Nat)) : State × GranuleOut :=
  let s := (s.modSlice t fun x => { x with who := who }).fillMiss t g keyid false [] []
  let r := s.readGranule t g keyid []
  (r.1.modSlice t fun x => { x with who := none }, r.2.2)

/-- Bytes lo to hi - 1 of one granule written through the slice in one step. -/
def writeNow (s : State) (t : TileId) (g keyid lo hi : Nat) (data : Bytes) (psn : List Nat) (who : Option (Bool × Nat)) : State :=
  s.asCmd t who fun s => (s.fillMiss t g keyid true [] []).mergeWrite t g keyid lo hi data psn []

/-- A range of tile offsets read in one step: its bytes, and whether any of it is poisoned. -/
def readRange (s : State) (t : TileId) (keyid ofs len : Nat) (who : Option (Bool × Nat)) : State × Bytes × Bool :=
  (granulePieces ofs len).foldl (fun (acc : State × Bytes × Bool) x =>
    let r := acc.1.readNow t x.1 keyid who
    (r.1, acc.2.1 ++ sub r.2.data x.2.1 (x.2.2.1 - x.2.1), acc.2.2 || (touched x.2.1 x.2.2.1).any (r.2.psn.contains ·)))
    (s, [], false)

/-- A range of tile offsets written in one step. -/
def writeRange (s : State) (t : TileId) (keyid ofs : Nat) (data : Bytes) (who : Option (Bool × Nat)) : State :=
  (granulePieces ofs data.length).foldl (fun s x =>
    s.writeNow t x.1 keyid x.2.1 x.2.2.1 (sub data x.2.2.2 (x.2.2.1 - x.2.1)) [] who) s

/-- The leaf of a granule is frozen in the cache (R206). -/
def frozenAt (s : State) (t : TileId) (g : Nat) : Bool :=
  ((s.tiles[t].slice.find (.leaf (leafOfGran g))).map fun c => leafFrz c.data).getD false

def op (s : State) (t : TileId) (id : Nat) : Option Op := s.tiles[t].ops.find? (·.id == id)

/-- Add requests at the end of a slice's list. -/
def addReqs (s : State) (t : TileId) (rs : List SealReq) : State := s.modSlice t fun x => { x with reqs := x.reqs ++ rs }

/-- A part of a stash record has come in (R234): once its header is known, only what 64 + CLEN needs is read on. -/
def stashArrive (s : State) (t : TileId) (id pos : Nat) (bs : Bytes) (bad : Bool) : State :=
  match s.op t id with
  | none => s
  | some o =>
    let p := DmaDesc.parse o.desc
    let s := s.modTile t fun x => x.modOp id fun o => { o with buf := o.buf.write pos bs, badQuiet := o.badQuiet || bad }
    if pos ≠ 0 then s
    else
      let need := if bad then 0 else stashNeed p.rowlen (bs.take 64)
      let own := Owner.tileDma t id
      if p.host then
        match s.partOf t with
        | none => s
        | some q =>
          match s.stream q p.sid with
          | none => s
          | some st => ((List.range (ceilDiv need 4096)).drop 1).foldl (fun s j => s.askChunk q st.2 (p.chunk + j) own) s
      else s.modSlice t fun x => { x with reqs := x.reqs.filter fun r => r.owner != own || decide (r.dest < need) }

/-- A granule read for a tile DMA has its verdict (R189, R210). -/
def dmaArrive (s : State) (t : TileId) (id : Nat) (r : SealReq) (g : GranuleOut) : State :=
  match s.op t id with
  | none => s
  | some o =>
    let p := DmaDesc.parse o.desc
    let bs := sub g.data r.lo (r.hi - r.lo)
    let badLines := (touched r.lo r.hi).filter (g.psn.contains ·)
    if p.comp then s.stashArrive t id r.dest bs (!badLines.isEmpty)
    else
      s.modTile t fun x => x.arrive id r.dest bs
        (badLines.map fun i => (r.dest + max r.lo (64 * i) - r.lo, min r.hi (64 * i + 64) - max r.lo (64 * i)))

/-- A chunk read for a tile DMA has arrived; none where it failed (R71, R223). -/
def dmaChunk (s : State) (t : TileId) (id chunk : Nat) (plain : Option Bytes) : State :=
  match s.op t id with
  | none => s
  | some o =>
    let p := DmaDesc.parse o.desc
    let pos := 4096 * (chunk - p.chunk)
    if p.comp then s.stashArrive t id pos (plain.getD (zeros 4096)) plain.isNone
    else
      let len := min 4096 (p.rowlen * p.nrows - pos)
      (rowPieces p.saddr p.rowlen p.sstride pos len).foldl (fun s x =>
        s.modTile t fun y => y.arrive id x.2.1 (sub (plain.getD (zeros 4096)) (x.1 - pos) x.2.2)
          (if plain.isNone then [(x.2.1, x.2.2)] else [])) s

-- Copies (R347).

def copy (s : State) (p : PartId) (seq : Nat) : Option Copy := s.parts[p].copies.find? (·.seq == seq)

def modCopy (s : State) (p : PartId) (seq : Nat) (f : Copy → Copy) : State :=
  s.modPart p fun x => { x with copies := x.copies.map fun c => if c.seq == seq then f c else c }

/-- Note that some data of a command were poisoned (R335). -/
def notePoison (s : State) (p : PartId) (seq : Nat) : State := s.modInFlight (some p) false seq fun e => { e with poisoned := true }

/-- A slice still has requests of a copy whose place lies below `upTo`. -/
def copyPending (s : State) (t : TileId) (seq upTo : Nat) : Bool :=
  s.tiles[t].slice.reqs.any fun r => r.owner == .copy seq && decide (r.dest < upTo)

/-- Form the chunks of a COPY_OUT whose granules have all been read, in order; the first one once it is the stream's HW, so that
chunks are issued in the order of their indices (R222). -/
def copyForm (s : State) (p : PartId) (seq : Nat) : Nat → State
  | 0 => s
  | n + 1 =>
    match s.copy p seq with
    | none => s
    | some c =>
      let pos := 4096 * (c.chunk - c.chunk0)
      if c.toDevice || decide (c.chunkEnd ≤ c.chunk) || s.copyPending c.tile seq (pos + 4096) then s
      else
        match s.stream p c.sid with
        | none => s
        | some st =>
          if c.chunk == c.chunk0 && st.2.hw != c.chunk0 then s else
          let s := s.postChunk p st.2 c.epoch c.chunk (c.buf.read pos (min 4096 (c.len - pos))) (.copy seq) (c.chunk + 1)
          copyForm (s.modCopy p seq fun c => { c with chunk := c.chunk + 1 }) p seq n

/-- Complete a copy once nothing of it is left (R335, R347). -/
def copyDone (s : State) (p : PartId) (seq : Nat) : State :=
  match s.copy p seq with
  | none => s
  | some c =>
    if s.copyPending c.tile seq c.len || s.hostBusy (some p) (.copy seq) || ((!c.toDevice) && decide (c.chunk < c.chunkEnd)) then s
    else
      let pois := ((s.inFlight (some p) false seq).map (·.poisoned)).getD false
      let s := s.modPart p fun x => { x with copies := x.copies.filter (·.seq != seq) }
      s.complete (some p) false seq
        { status := if c.failed then stFailed else if pois then stPoisoned else stOk, cls := if pois then 2 else 0,
          result := if c.toDevice then 0 else c.chunkEnd - c.chunk0 }

/-- Everything a copy can do at once. -/
def copyStep (s : State) (p : PartId) (seq : Nat) : State :=
  (s.copyForm p seq (((s.copy p seq).map fun c => c.chunkEnd - c.chunk).getD 0)).copyDone p seq

/-- Every copy of the partition goes on: a chunk has been issued, or a copy has ended. -/
def copiesStep (s : State) (p : PartId) : State := (s.parts[p].copies.map (·.seq)).foldl (fun s q => s.copyStep p q) s

/-- A granule read for a COPY_OUT: 512 zero bytes where it is poisoned. -/
def copyArrive (s : State) (p : PartId) (seq : Nat) (r : SealReq) (g : GranuleOut) : State :=
  let s := if g.psn.isEmpty then s.modCopy p seq fun c => { c with buf := c.buf.write r.dest g.data } else s.notePoison p seq
  s.copyStep p seq

/-- A chunk read for a COPY_IN: its granules are written, poisoned where the chunk failed. -/
def copyChunk (s : State) (p : PartId) (seq chunk : Nat) (plain : Option Bytes) : State :=
  match s.copy p seq with
  | none => s
  | some c =>
    let pos := 4096 * (chunk - c.chunk0)
    let s := if plain.isNone then s.notePoison p seq else s
    let base := ((s.copy p seq).map (·.ofs)).getD 0
    let rs := (List.range ((min 4096 (c.len - pos)) / 512)).map fun j =>
      (⟨(base + pos) / 512 + j, c.keyid, .copy seq, 0, 512, some (sub (plain.getD (zeros 4096)) (512 * j) 512),
        if plain.isNone then allLines else [], pos + 512 * j, false, false, ((base + pos) / 512 + j, 1)⟩ : SealReq)
    (s.addReqs c.tile rs).copyStep p seq

end State

end Sys2Proof.Machine
end

