-- ==== Sys2Proof/Machine/Regulator.lean ====
section
/-! DEFINITION. One scale across a partition: the merge of the regulator copies (R109-R111). -/

namespace Sys2Proof.Machine

namespace State

/-- The partition's first tile. -/
def firstTile (s : State) (p : PartId) : TileId := (s.tilesOf p).headD 0

/-- Tiles of p that used an entry in this RUN. -/
def regUsers (s : State) (p : PartId) (id : Nat) : List TileId := (s.tilesOf p).filter fun t => s.tiles[t].regUsed.contains id

/-- The merge of one entry: none where its users disagree on STEP (R110). Its other fields are those of the lowest-numbered
tile that used it (DESIGN CHOICE, log 42: R109 allows any). -/
def regMergeOne (s : State) (p : PartId) (id : Nat) : Option RegEntry :=
  let es := (s.regUsers p id).map fun t => s.tiles[t].regEntry id
  match es with
  | [] => some (s.tiles[s.firstTile p].regEntry id)
  | e :: rest =>
    if rest.all (·.last == e.last) then
      some { e with cur := rest.foldl (fun a x => max a x.cur) e.cur, ovf := e.ovf || rest.any (·.ovf) }
    else none

/-- Entries used in this RUN by any tile of p. -/
def regUsedIds (s : State) (p : PartId) : List Nat :=
  (s.tilesOf p).foldl (fun a t => s.tiles[t].regUsed.foldl (fun a x => setInsert x a) a) []

/-- Entries on which the users disagree. -/
def regSplit (s : State) (p : PartId) : List Nat := (s.regUsedIds p).filter fun id => (s.regMergeOne p id).isNone

/-- An entry's 128 bytes after the merge; as at the start of the RUN where the users disagree. -/
def regMerged (s : State) (p : PartId) (id : Nat) : Bytes :=
  if s.regUsers p id |>.isEmpty then s.tiles[s.firstTile p].reg.read (128 * id) 128
  else match s.regMergeOne p id with
    | some e => e.bytes
    | none => s.parts[p].regAtRun.read (128 * id) 128

/-- Write the merged entries to every tile's copy and forget which were used. -/
def regMerge (s : State) (p : PartId) : State :=
  let new := (s.regUsedIds p).map fun id => (id, s.regMerged p id)
  (s.tilesOf p).foldl (fun s' t =>
    s'.modTile t fun x => { x with reg := new.foldl (fun m e => m.write (128 * e.1) e.2) x.reg, regUsed := [], regSteps := [] }) s

/-- The merge as at a RUN's completion (R109-R111): entries whose users disagree on STEP are logged (R450). -/
def regMergeLogged (s : State) (p : PartId) (cmd : Option (Bool × Nat)) : State :=
  (s.regSplit p).foldl (fun s id => s.raise p 0x1C 0xFF 0 id cmd) (s.regMerge p)

end State

end Sys2Proof.Machine
end

