-- ==== Sys2Proof/Machine/Sequencer.lean ====
section
/-! DEFINITION. The tile sequencer: fetch, the checks and hazards before dispatch, loops, and the stop of a tile
(R59-R73, R141, R154-R161, R225, R233, R237, R343). -/

namespace Sys2Proof.Machine

/-- What the checks before dispatch find: an invalid descriptor, one that must wait, or what it resolves to. -/
inductive Judged (α : Type) where
  | invalid
  | wait
  | ok (x : α)
  deriving DecidableEq, Repr

/-- Row ranges of a strided region; one range where the rows adjoin. -/
def rowRanges (base pitch len n : Nat) : List (Nat × Nat) :=
  if pitch = len then [(base, n * len)] else (List.range n).map fun r => (base + r * pitch, len)

/-- Where the sequencer goes after the descriptor at `slot`, and the loops still under way (R67, R69). -/
def leave (slot : Nat) : List LoopFrame → Nat × List LoopFrame
  | [] => (slot + 1, [])
  | l :: ls =>
    if slot = l.slot + l.body then
      if l.iter + 1 < l.count then (l.slot + 1, { l with iter := l.iter + 1 } :: ls) else leave slot ls
    else (slot + 1, l :: ls)

namespace Tile

def descAt (t : Tile) (slot : Nat) : Bytes := t.imem.read (64 * slot) 64

/-- Words of a slot with two bits in error (R56). -/
def imBad (t : Tile) (slot : Nat) : Bool := t.imErr.any fun e => e.1 == slot && decide (2 ≤ e.2)

/-- Pass over EPILOGUE descriptors (R60, R141), as far as their slots read without error (R56). One that is passed over is
not checked (DESIGN CHOICE, log 42: R69 checks what the sequencer fetches to dispatch). -/
def skipEpi (t : Tile) : Nat → Nat × List LoopFrame → Nat × List LoopFrame
  | 0, x => x
  | n + 1, x =>
    if x.1 < 4096 ∧ kindOf (t.descAt x.1) = 7 ∧ (t.imErr.any (·.1 == x.1)) = false then t.skipEpi n (leave x.1 x.2) else x

/-- Go to a place in the program. -/
def goto (t : Tile) (x : Nat × List LoopFrame) : Tile :=
  let y := t.skipEpi 8192 x
  { t with pc := y.1, loops := y.2 }

/-- Go on past the descriptor at the program counter. -/
def advance (t : Tile) : Tile := { t.goto (leave t.pc t.loops) with stepReq := false }

/-- A header line lies in a range that an uncompleted descriptor still writes. -/
def stale (t : Tile) (a len : Nat) : Bool := t.ops.any fun o => o.writes.any (overlaps (a, len))

def panelsStale (t : Tile) (ps : List PanelAt) : Bool := ps.any fun p => t.stale p.addr 64

/-- The hazards of R62. -/
def conflicts (t : Tile) (reads writes : List (Nat × Nat)) : Bool :=
  t.ops.any fun o => o.writes.any (fun w => (reads ++ writes).any (overlaps w)) || o.reads.any fun r => writes.any (overlaps r)

/-- The engine's queue has no place left (R61): the descriptor it is executing counts (DESIGN CHOICE, log 42). -/
def queueFull (t : Tile) (e : Engine) : Bool :=
  decide ((match e with | .array => 4 | .vector => 4 | .dma => 16 | .mesh => 8) ≤
    (t.ops.filter fun o => o.engine == e && !(e == .array && o.half)).length)

/-- A binary16 sequence is open: its FIRST pass has been dispatched and its LAST has not (R119). -/
def open16 (t : Tile) : Bool := t.seqs.any fun q => q.acc16 && !q.closed

/-- Entries of the replay log that count against its 1,024: those from the FIRST pass of the earliest open sequence on
(R119). What is open is fixed by dispatch alone, so no timing decides what is invalid (R20). -/
def logCount (t : Tile) : Nat :=
  match (t.seqs.filter fun q => q.acc16 && !q.closed).map (·.firstId) with
  | [] => 0
  | i :: is => (t.rlog.filter fun o => decide (is.foldl min i ≤ o.id)).length

/-- A descriptor would overwrite what a replay of a binary16 sequence still needs: its LAST pass is dispatched and not yet
complete, and one of its logged passes reads there. Such a descriptor waits, so that no timing decides what a replay reads
(DEDUCED from R118 and R126, log 43). -/
def replayHolds (t : Tile) (writes : List (Nat × Nat)) : Bool :=
  t.seqs.any fun q => q.acc16 && q.closed && !t.replayed.contains q.psum && t.rlog.any fun l =>
    l.engine == .array && decide (q.firstId ≤ l.id) && (PassDesc.parse l.desc).psum == q.psum && l.reads.any fun r => writes.any (overlaps r)

/-- Contents of ranges, and their poisoned lines. -/
def saveRanges (t : Tile) (rs : List (Nat × Nat)) : List (Nat × Bytes) × List Nat :=
  (rs.map fun r => (r.1, t.sp.read r.1 r.2), t.poison.filter fun l => rs.any fun r => overlaps r (64 * l, 64))

/-- Put saved contents back. -/
def putRanges (t : Tile) (x : List (Nat × Bytes) × List Nat) : Tile :=
  let t := x.1.foldl (fun t r => t.spWrite r.1 r.2) t
  { t with poison := x.2.foldl (fun ps l => setInsert l ps) t.poison }

/-- STEP of output panels (R66). -/
def outStep (t : Tile) (ofs : Int) : Nat := unsigned 48 ((t.step : Int) + ofs)

/-- A descriptor would write a second STEP under a regulated ID (R110). -/
def stepClash (t : Tile) (id step : Nat) : Bool := regulated id && t.regSteps.any fun e => e.1 == id && e.2 != step

def noteStep (t : Tile) (id step : Nat) : Tile :=
  if regulated id && !t.regSteps.any (·.1 == id) then { t with regSteps := t.regSteps ++ [(id, step)] } else t

/-- An operation at the program counter. -/
def newOp (t : Tile) (d : Bytes) (e : Engine) (reads writes : List (Nat × Nat)) : Op :=
  { id := t.nextOp, slot := t.pc, engine := e, desc := d, epi := none, iters := t.loops.map (·.iter), first := false,
    last := false, reads := reads, writes := writes, half := false, weights := none, saved := [], savedPsn := [], psn := [], buf := [], wanted := [],
    bad := false, badQuiet := false }

end Tile

/-- What an EPILOGUE descriptor adds to the descriptor that names it. -/
structure EpiPlan where
  desc : Bytes
  reads : List (Nat × Nat)
  out : Nat × Nat
  deriving DecidableEq, Repr

/-- The checks of a named EPILOGUE (R139, R141, R151, R110). `avoid` are ranges the output must not overlap. -/
def judgeEpi (x : DispCtx) (t : Tile) (slot tensor ofmt oaddr step rows cols : Nat) (avoid : List (Nat × Nat)) : Judged EpiPlan :=
  let eb := t.descAt slot
  match Fmt.ofCode ofmt with
  | none => .invalid
  | some f =>
    let out := (oaddr, outBytes f rows cols)
    if t.imBad slot || !epiStatic x eb || !spRangeOk out.1 out.2 || t.stepClash tensor step then .invalid
    else
      let r := epiReads t (EpiDesc.parse eb) rows cols
      if t.panelsStale r.panels then .wait
      else if !r.ok || (avoid ++ r.ranges).any (overlaps out) then .invalid
      else .ok ⟨eb, r.ranges, out⟩

/-- The checks of a PASS that executes on this iteration (R66, R67, R119). -/
def judgePass (x : DispCtx) (t : Tile) (d : Bytes) : Judged Op :=
  let p := PassDesc.parse d
  match p.fmts with
  | none => .invalid
  | some f =>
    let first := p.first && t.loops.all fun l => !l.fl || l.iter == 0
    let last := p.last && t.loops.all fun l => !l.fl || l.atLast
    let prevOk := t.prevPass.any fun q =>
      q.waddr == p.waddr && q.wfmt == p.wfmt && q.acc == p.acc && q.w2 == p.w2 && q.split == 0
    let logs := p.acc == 1 && decide (1024 ≤ t.logCount)
    if !(spAddrOk p.waddr && spAddrOk p.aaddr && spAddrOk p.psum) || (p.wkeep && !prevOk) || logs then .invalid
    else
      let g := passGrids t p f (if p.wkeep then t.prevPass.map (fun q => (q.wrows, q.wcols)) else none)
      if t.panelsStale (g.wps ++ g.aps) then .wait
      else
        let psum := rowRanges p.psum (64 * p.ppitch) (roundUp (4 * g.wcols) 64) p.mrows
        if !g.ok || !psum.all fun r => spRangeOk r.1 r.2 then .invalid
        else
          let reads := (if p.wkeep then [] else [gridRange true g.wps]) ++ [gridRange false g.aps] ++ (if first then [] else psum)
          let o := { t.newOp d .array reads psum with first := first, last := last }
          if last && p.epi != 0xFFFF then
            match judgeEpi x t p.epi p.tensor p.ofmt p.oaddr (t.outStep p.stepofs) p.mrows g.wcols psum with
            | .invalid => .invalid
            | .wait => .wait
            | .ok e => .ok { o with epi := some e.desc, reads := reads ++ e.reads ++ psum, writes := psum ++ [e.out] }
          else .ok o

/-- A panel source of a VEC. -/
structure VecSrc where
  ps : List PanelAt
  range : Nat × Nat
  fmt : Nat
  deriving DecidableEq, Repr

def vecSrc (t : Tile) (dflt : Fmt) (addr rows cols : Nat) : VecSrc :=
  let ps := walkFree t dflt addr rows cols
  ⟨ps, gridRange false ps, ((ps.map (·.fmt.code)).headD 0)⟩

/-- Panel sources of a VEC in the order X, Y, Z, those it has. -/
def vecSources (t : Tile) (p : VecDesc) (f : Fmt) : List VecSrc :=
  let u := vecPanels p.vop
  (if u.1 then [vecSrc t f p.xaddr p.rows p.cols] else []) ++ (if u.2.1 then [vecSrc t f p.yaddr p.rows p.cols] else []) ++
    (if u.2.2 then [vecSrc t f p.zaddr p.rows p.cols] else [])

/-- Ranges of the array sources. -/
def vecArrayRanges (p : VecDesc) : List (Nat × Nat) :=
  let n := roundUp (4 * (if p.vop = 0x26 then p.rows else p.cols)) 64
  (if (vecArrays p.vop).1 then [(p.yaddr, n)] else []) ++ (if (vecArrays p.vop).2 then [(p.zaddr, n)] else [])

/-- The checks of a VEC (R152-R161). -/
def judgeVec (x : DispCtx) (t : Tile) (d : Bytes) : Judged Op :=
  let p := VecDesc.parse d
  match Fmt.ofCode p.vfmt with
  | none => .invalid
  | some f =>
    let u := vecPanels p.vop
    let addrOk := (!u.1 || spAddrOk p.xaddr) && (!(u.2.1 || (vecArrays p.vop).1) || spAddrOk p.yaddr) &&
      (!(u.2.2 || (vecArrays p.vop).2) || spAddrOk p.zaddr) && spAddrOk p.oaddr
    if !addrOk || ((p.rnd == 4 || p.vop == 0x30) && x.dropKey.isNone) then .invalid
    else
      let srcs := vecSources t p f
      if srcs.any fun v => t.panelsStale v.ps then .wait
      else
        let arrs := vecArrayRanges p
        let srcOk := srcs.all fun v => gridOk v.ps (if p.vop = 0x28 then some .b32 else none) && spRangeOk v.range.1 v.range.2
        let out := vecOut p
        let step := t.outStep p.stepofs
        let reads := srcs.map (·.range) ++ arrs
        let outRange := if p.vop = 0x31 then (p.oaddr, 64) else (p.oaddr, ((Fmt.ofCode p.ofmt).map fun g => outBytes g out.1 out.2).getD 0)
        let clash := srcs.any (fun v => overlaps outRange v.range && !(vecElementwise p.vop && p.oaddr == v.range.1 && p.ofmt == v.fmt)) ||
          arrs.any (overlaps outRange)
        if !srcOk || clash || !arrs.all (fun r => spRangeOk r.1 r.2) || !spRangeOk outRange.1 outRange.2 then .invalid
        else if p.epi = 0xFFFF ∨ p.vop = 0x31 then .ok (t.newOp d .vector reads [outRange])
        else
          match judgeEpi x t p.epi p.tensor p.ofmt p.oaddr step out.1 out.2 [] with
          | .invalid => .invalid
          | .wait => .wait
          | .ok e => .ok { t.newOp d .vector (reads ++ e.reads) [e.out] with epi := some e.desc }

/-- A HOST transfer's first chunk against the stream (R222, R233, R237): invalid, waiting, or the epoch and expected index it
leaves. `busy` are the stream's uncompleted operations. -/
def judgeHost (p : DmaDesc) (st : Stream) (n : Nat) (busy : List Op) : Judged (Nat × Nat) :=
  if p.out then
    let newEpoch := p.chunk = 0 ∧ 0 < st.hwD
    if st.preset || st.ksrc != 0 || st.ended || !(p.chunk == st.hwD || p.chunk == 0) || decide (st.limit < p.chunk + n) then .invalid
    else if newEpoch then
      if !busy.isEmpty then .wait
      else if st.epochD = 0xFFFFFFFF then .invalid else .ok (st.epochD + 1, n)
    else .ok (st.epochD, p.chunk + n)
  else if decide (st.hwD < p.chunk + n) then .invalid
  else if busy.any fun o =>
      let q := DmaDesc.parse o.desc
      q.out && overlaps (q.chunk, chunksFor (q.rowlen * q.nrows)) (p.chunk, n) then .wait
  else .ok (st.epochD, st.hwD)

/-- Panel size at SADDR for a compressed write (R225); not asked of a panel whose header line is poisoned (R236). -/
def stashSizeOk (t : Tile) (p : DmaDesc) : Bool :=
  let h := PHdr.parse (t.sp.read p.saddr 16)
  match Fmt.ofCode h.fmt with
  | none => false
  | some f => p.rowlen == panelBytes f false h.rows h.cols || p.rowlen == panelBytes f true h.rows h.cols

/-- The checks of a DMA (R70, R71, R119, R168, R225, R233). -/
def judgeDma (x : DispCtx) (t : Tile) (d : Bytes) : Judged Op :=
  let p := DmaDesc.parse d
  let sp := rowRanges p.saddr p.sstride p.rowlen p.nrows
  if !spAddrOk p.saddr || !sp.all (fun r => spRangeOk r.1 r.2) then .invalid
  else if p.comp && p.out && t.stale p.saddr 64 then .wait
  else if p.comp && p.out && !t.poisoned p.saddr 64 && !stashSizeOk t p then .invalid
  else
    let o := t.newOp d .dma (if p.out then sp else []) (if p.out then [] else sp)
    if p.host then
      if t.open16 then .invalid
      else
        match x.streams.find? fun e => e.2.sid == p.sid with
        | none => .invalid
        | some e =>
          if e.2.owner != x.tile then .invalid
          else
            let busy := t.ops.filter fun q => hostDma q.desc && (DmaDesc.parse q.desc).sid == p.sid
            match judgeHost p e.2 (chunksFor (p.rowlen * p.nrows)) busy with
            | .invalid => .invalid
            | .wait => .wait
            | .ok _ => .ok o
    else
      let rows := if p.comp then [(p.saddr, p.daddr)] else dmaRows p
      let len := if p.comp then roundUp p.rowlen 512 else p.rowlen
      if !rows.all (fun r => devRangeOk x r.2 len) || (p.comp && p.daddr % 512 != 0) then .invalid
      else if !p.out && decide (1024 ≤ t.logCount) then .invalid
      else .ok o

/-- The checks of SEND and RECV (R72). -/
def judgeMesh (t : Tile) (d : Bytes) : Judged Op :=
  let p := MeshDesc.parse d
  if !spRangeOk p.addr p.len then .invalid
  else if kindOf d = 4 then .ok (t.newOp d .mesh [(p.addr, p.len)] []) else .ok (t.newOp d .mesh [] [(p.addr, p.len)])

/-- Field codes of the scratchpad addresses of the kinds that may skip an iteration (R66-R72), but for OADDR, which only an
epilogue uses. -/
def addrCodes (d : Bytes) : List Nat :=
  match kindOf d with
  | 1 => [0, 1, 2]
  | 2 | 4 => [0]
  | 5 => [1]
  | _ => []

/-- Some pair of an enclosing loop advances the field (R68). -/
def loopAdvances (slot : Nat) (loops : List LoopFrame) (code : Nat) : Bool :=
  loops.any fun l => l.pairs.any fun pr => byteAt pr 0 == 8 * (slot - l.slot - 1) + code

/-- Scratchpad addresses that no loop advances are in range as written, on every iteration (R69). A device address or KEYID
that no loop advances is checked where the descriptor executes, not on an iteration it skips (DESIGN CHOICE, log 42). -/
def addrsAsWritten (d : Bytes) (slot : Nat) (loops : List LoopFrame) : Bool :=
  (addrCodes d).all fun c => loopAdvances slot loops c || (advancePlace d c).all fun p => spAddrOk (field d p.1 p.2.1)

/-- Checks that depend on no loop advance, by kind (R64, R69). -/
def staticOk (x : DispCtx) (t : Tile) (d : Bytes) : Bool :=
  dchkOk d && (onLastExec d t.loops).isSome && addrsAsWritten d t.pc t.loops &&
    match kindOf d with
    | 1 => passStatic x d
    | 2 => dmaStatic d
    | 3 => vecStatic d
    | 4 | 5 => meshStatic x d
    | 6 => loopOk d t.pc t.loops t.descAt
    | 15 => zeroRange d 1 59
    | _ => false

/-- The checks of the descriptor that executes, hazards and queues included (R61, R62, R64). -/
def judge (x : DispCtx) (t : Tile) (d0 : Bytes) : Judged Op :=
  match resolve d0 t.pc t.loops with
  | none => .invalid
  | some d =>
    let j := match kindOf d with
      | 1 => judgePass x t d
      | 2 => judgeDma x t d
      | 3 => judgeVec x t d
      | _ => judgeMesh t d
    match j with
    | .ok o => if t.conflicts o.reads o.writes || t.queueFull o.engine || t.replayHolds o.writes then .wait else .ok o
    | j => j

namespace State

/-- What the checks need of a tile's partition. -/
def dispCtx (s : State) (p : PartId) (t : TileId) : DispCtx :=
  { tile := t.val, keyLo := (s.keyRange p).1, keyCount := (s.keyRange p).2, firstTile := (s.firstTile p).val,
    tileCount := (s.tilesOf p).length, dropKey := (s.parts[p].job).bind (·.dropKey), streams := s.parts[p].streams,
    cf := s.boot.testOpen }

/-- The tile may dispatch (R59, R117, R215, R343, R393, R500). -/
def canDispatch (s : State) (p : PartId) (t : TileId) : Bool :=
  let x := s.tiles[t]
  let q := s.parts[p]
  x.running && !x.atEnd && x.stopped.isNone && !x.marked && (s.reachedMark p t).isNone && x.overflowed.isEmpty && (!x.halt || x.stepReq) && !q.ilock &&
    q.pstate == .running && q.run.isSome && q.runStop.isNone

/-- Mesh operations of tile t whose partner can no longer post (R343), and every unfinished one with the carding engine. -/
def cutMesh (s : State) (t : TileId) : List Nat :=
  let mine := s.tiles[t].ops.filter (·.engine == .mesh)
  (mine.zipIdx.filter fun x =>
    let m := MeshDesc.parse x.1.desc
    let k := kindOf x.1.desc
    if m.peer = 0x40 then true
    else
      let before := ((mine.take x.2).filter fun o => kindOf o.desc == k && (MeshDesc.parse o.desc).peer == m.peer).length
      let theirs := (s.tiles[(⟨m.peer % 64, Nat.mod_lt _ (by decide)⟩ : TileId)].ops.filter fun o =>
        o.engine == .mesh && kindOf o.desc == 9 - k && (MeshDesc.parse o.desc).peer == t.val).length
      decide (theirs ≤ before)).map (·.1.id)

/-- A tile stops on an invalid descriptor: logged, and the whole RUN stops dispatch (R64, R343). -/
def stopTile (s : State) (p : PartId) (t : TileId) (slot : Nat) : State :=
  let s := s.raise p 0x10 t.val 0 slot (s.runCmd p)
  let s := s.modTile t fun x => { x with stopped := some slot, stepReq := false }
  let s := s.modPart p fun x =>
    { x with runStop := match x.runStop with
        | none => some (t.val, slot)
        | some r => if t.val < r.1 then some (t.val, slot) else some r }
  let cuts := (s.tilesOf p).map fun t => (t, s.cutMesh t)
  cuts.foldl (fun s c => s.modTile c.1 fun x => { x with ops := x.ops.filter fun o => !c.2.contains o.id }) s

/-- Bit errors met by a dispatched operation's reads, word by word: single ones corrected and logged, double ones logged once
and read as poisoned lines (R56, R105). -/
def spEcc (s : State) (p : PartId) (t : TileId) (o : Op) : State :=
  let x := s.tiles[t]
  let one := x.spErrs o.reads false
  let two := x.spErrs o.reads true
  let s := one.foldl (fun s a => s.raise p 0x01 t.val 0 a (s.runCmd p)) s
  let s := two.foldl (fun s a => s.raise p 0x11 t.val 0 a (s.runCmd p)) s
  s.modTile t fun x =>
    { x with spErr := x.spErr.filter fun e => !(one ++ two).contains (8 * e.1),
             poison := two.foldl (fun ps a => setInsert (a / 64) ps) x.poison }

/-- The same for the regulator entry an operation's conversions use, met as the operation is dispatched: each word in error is
logged with its address in the store, under the scratchpad's codes (DESIGN CHOICE, log 42: R105 and R450 give the store none). -/
def rgEcc (s : State) (p : PartId) (t : TileId) (o : Op) (tensor : Nat) : State :=
  if o.epi.isNone || !regulated tensor then s
  else
    let mine := s.tiles[t].rgErr.filter fun e => e.1 / 16 == tensor
    let s := mine.foldl (fun s e => s.raise p (if e.2 < 2 then 0x01 else 0x11) t.val 0 (8 * e.1) (s.runCmd p)) s
    let bad := mine.any fun e => decide (2 ≤ e.2)
    s.modTile t fun x => { (x.modOp o.id fun q => { q with bad := q.bad || bad }) with rgErr := x.rgErr.filter fun e => e.1 / 16 != tensor }

/-- Put an operation in its engine's queue, the reads of its operands checked, and go on. -/
def enqueue (s : State) (p : PartId) (t : TileId) (o : Op) (tensor : Nat) : State :=
  let s := s.modTile t fun x =>
    { x with ops := x.ops ++ [o], nextOp := x.nextOp + 1, mark := x.mark.filter fun m => x.ops.any fun q => decide (q.id ≤ m.1) }
  ((s.spEcc p t o).rgEcc p t o tensor).modTile t Tile.advance

/-- The state of its sequence that a dispatched pass opens, goes on with or closes (R45, R119). -/
def seqDispatch (t : Tile) (o : Op) : Tile :=
  let p := PassDesc.parse o.desc
  let old := t.seqs.find? (·.psum == p.psum)
  let a16 := p.acc == 1
  let q : PassSeq := match old, o.first with
    | some q, false => { q with acc16 := q.acc16 || a16, closed := q.closed || o.last }
    | _, _ => ⟨p.psum, 0, [], a16, o.last, o.id⟩
  let t := { t with seqs := t.seqs.filter (·.psum != p.psum) ++ [q], replayed := if o.first then t.replayed.filter (· != p.psum) else t.replayed }
  if a16 then { t with rlog := t.rlog ++ [o] } else t

/-- Dispatch of a PASS. -/
def dispatchPass (s : State) (p : PartId) (t : TileId) (o : Op) : State :=
  let d := PassDesc.parse o.desc
  let x := s.tiles[t]
  let g := passGrids x d (d.fmts.getD (.b32, .b32)) (if d.wkeep then x.prevPass.map (fun q => (q.wrows, q.wcols)) else none)
  let s := s.modTile t fun x =>
    let x := { seqDispatch x o with prevPass := some ⟨d.waddr, d.wfmt, d.acc, d.w2, d.split, g.wrows, g.wcols⟩ }
    if o.epi.isSome then x.noteStep d.tensor (x.outStep d.stepofs) else x
  s.enqueue p t o d.tensor

/-- Dispatch of a VEC. -/
def dispatchVec (s : State) (p : PartId) (t : TileId) (o : Op) : State :=
  let d := VecDesc.parse o.desc
  let s := s.modTile t fun x => if o.epi.isSome then x.noteStep d.tensor (x.outStep d.stepofs) else x
  s.enqueue p t o d.tensor

/-- Lines lo to hi - 1 of a granule whose source bytes, at `src` onward, are poisoned. -/
def psnLines (t : Tile) (lo hi src : Nat) : List Nat :=
  (touched lo hi).filter fun i => t.poisoned (src + max lo (64 * i) - lo) (min hi (64 * i + 64) - max lo (64 * i))

/-- Mark the writes of a descriptor that writes every granule of a leaf (R205). -/
def markWhole (rs : List SealReq) : List SealReq :=
  let whole := (rs.filter fun r => r.lo == 0 && r.hi == 512).map (·.gran)
  let full := (whole.filter fun g => g % 64 == 0 && (granulesOf (g / 64)).all (whole.contains ·)).map (· / 64)
  rs.map fun r => { r with wholeLeaf := full.contains (r.gran / 64) }

/-- The granule requests of a plain transfer with device memory (R71, R188, R201, R210). -/
def plainReqs (t : Tile) (id : Nat) (p : DmaDesc) : List SealReq :=
  let row (src dev len : Nat) : List SealReq :=
    (granulePieces (bits dev 34 0) len).map fun x =>
      ⟨x.1, dev / 2 ^ 56, .tileDma ⟨bits dev 40 35 % 64, Nat.mod_lt _ (by decide)⟩ id, x.2.1, x.2.2.1,
        if p.out then some (t.sp.read (src + x.2.2.2) (x.2.2.1 - x.2.1)) else none,
        if p.out then psnLines t x.2.1 x.2.2.1 (src + x.2.2.2) else [], src + x.2.2.2, false, false, (x.1, 1)⟩
  let rs := if p.sstride = p.rowlen ∧ p.dstride = p.rowlen then row p.saddr p.daddr (p.rowlen * p.nrows)
    else ((dmaRows p).map fun r => row r.1 r.2 p.rowlen).flatten
  if p.out then markWhole rs else rs

/-- The record of a compressed write, and whether its source is poisoned (R226, R236). -/
def recordOf (t : Tile) (p : DmaDesc) : Bytes × Bool :=
  let hdr := t.sp.read p.saddr 16
  let data := t.sp.read (p.saddr + 64) (p.rowlen - 64)
  if t.poisoned p.saddr p.rowlen then (stashPoisoned hdr data, true) else (stashRecord hdr data, false)

/-- The granule requests of a compressed transfer with device memory (R232, R234): ordered over the whole slot. The record of a
poisoned panel is written in lines that carry PSN (R236). -/
def compReqs (t : Tile) (tile : TileId) (id : Nat) (p : DmaDesc) : List SealReq :=
  let g0 := bits p.daddr 34 0 / 512
  let rec_ := recordOf t p
  let n := if p.out then ceilDiv rec_.1.length 512 else ceilDiv p.rowlen 512
  let rs : List SealReq := (List.range n).map fun j =>
    ⟨g0 + j, p.daddr / 2 ^ 56, .tileDma tile id, 0, 512, if p.out then some (fit 512 (sub rec_.1 (512 * j) 512)) else none,
      if p.out && rec_.2 then allLines else [], 512 * j, false, false, (g0, ceilDiv p.rowlen 512)⟩
  if p.out then markWhole rs else rs

/-- The plaintext of a HOST write (R71). -/
def hostBytes (t : Tile) (p : DmaDesc) : Bytes :=
  if p.comp then (recordOf t p).1 else (((List.range p.nrows).map fun r => t.sp.read (p.saddr + r * p.sstride) p.rowlen).flatten)

/-- The chunk writes or reads of a HOST transfer (R71, R233, R234). -/
def hostReqs (s : State) (q : PartId) (t : TileId) (o : Op) (p : DmaDesc) (st : Stream) : State :=
  let own := Owner.tileDma t o.id
  let n := chunksFor (p.rowlen * p.nrows)
  if p.out then
    let epoch := if p.chunk = 0 ∧ 0 < st.hwD then st.epochD + 1 else st.epochD
    let s := s.modStream q p.sid fun st => { st with hwD := p.chunk + n, epochD := epoch }
    let bs := hostBytes s.tiles[t] p
    let m := chunksFor bs.length
    (List.range m).foldl (fun s j =>
      s.postChunk q st epoch (p.chunk + j) (sub bs (4096 * j) 4096) own (if j + 1 = m then p.chunk + n else p.chunk + j + 1)) s
  else (List.range (if p.comp then 1 else n)).foldl (fun s j => s.askChunk q st (p.chunk + j) own) s

/-- Dispatch of a DMA: a mark descriptor is noted (R393), a load within a binary16 sequence is logged (R119). -/
def dispatchDma (s : State) (q : PartId) (t : TileId) (o : Op) : State :=
  let p := DmaDesc.parse o.desc
  let s := s.enqueue q t o 0
  let x := s.tiles[t]
  let h := PHdr.parse (x.sp.read p.saddr 16)
  let isMark := p.out && !p.host && h.fmt == 1 && h.rows == 1 && h.cols == 1 && bit h.flags 6 && !x.poisoned p.saddr 64
  let s := if isMark then s.modTile t fun x => { x with mark := x.mark ++ [(o.id, h.step, h.tensor)] } else s
  let s := if !p.out && !p.host && x.open16 then
      let old := x.saveRanges o.writes
      s.modTile t fun x => { x with rlog := x.rlog ++ [{ o with saved := old.1, savedPsn := old.2 }] }
    else s
  if p.host then
    match s.stream q p.sid with
    | none => s
    | some e => s.hostReqs q t o p e.2
  else s.addReqs t (if p.comp then compReqs x t o.id p else plainReqs x o.id p)

/-- Dispatch of a LOOP: its body begins, or, all of EPILOGUE descriptors, is passed over. -/
def beginLoop (t : Tile) (d : Bytes) : Tile :=
  let body := byteAt d 2
  if (List.range body).all fun i => kindOf (t.descAt (t.pc + 1 + i)) == 7 then
    { t.goto (leave (t.pc + body) t.loops) with stepReq := false }
  else
    { t.goto (t.pc + 1, ⟨t.pc, body, 0, field d 4 4, bit (byteAt d 1) 0, loopPairs d⟩ :: t.loops) with stepReq := false }

/-- Slots the sequencer reads with the descriptor at its program counter: its own, and that of the EPILOGUE it names. -/
def slotsRead (x : Tile) : List Nat :=
  let d := x.descAt x.pc
  let epi := match kindOf d with
    | 1 => if (PassDesc.parse d).last && x.loops.all (fun l => !l.fl || l.atLast) then [(PassDesc.parse d).epi] else []
    | 3 => [(VecDesc.parse d).epi]
    | _ => []
  x.pc :: epi.filter fun e => decide (e < 4096) && e != x.pc

/-- Correct single-bit errors of the slots being read (R56). -/
def imEcc (s : State) (p : PartId) (t : TileId) : State :=
  let x := s.tiles[t]
  let hit := (slotsRead x).filter fun a => x.imErr.any fun e => e.1 == a && decide (e.2 < 2)
  hit.foldl (fun s a => (s.raise p 0x01 t.val 0 (64 * a) (s.runCmd p)).modTile t fun x =>
    { x with imErr := x.imErr.filter fun e => e.1 != a || decide (2 ≤ e.2) }) s

/-- A tile's write that would pass the last epoch is refused, and its stream accepts no further writes (R222). -/
def endStream (s : State) (p : PartId) (t : TileId) (d : Bytes) : State :=
  let m := DmaDesc.parse d
  if hostDma d && m.out && m.chunk == 0 then
    s.modStream p m.sid fun st => if st.owner == t.val && !st.preset && decide (0 < st.hwD) && st.epochD == 0xFFFFFFFF then { st with ended := true } else st
  else s

/-- Dispatch a judged operation. -/
def dispatchOp (s : State) (p : PartId) (t : TileId) (o : Op) : State :=
  match o.engine with
  | .array => s.dispatchPass p t o
  | .vector => s.dispatchVec p t o
  | .dma => s.dispatchDma p t o
  | .mesh => s.enqueue p t o 0

/-- The sequencer takes the descriptor at its program counter, whose KIND is one of `kinds` or is none of R60's: it is
dispatched, skipped by ONLAST, waits, or stops the tile (R60-R64, R69). -/
def fetchDispatch (s : State) (t : TileId) (kinds : List Nat) : State :=
  match s.partOf t with
  | none => s
  | some p =>
    if !s.canDispatch p t then s
    else
      let x := s.tiles[t]
      let k := kindOf (x.descAt x.pc)
      if 4096 ≤ x.pc then s.stopTile p t 4095
      else if x.imBad x.pc then s.stopTile p t x.pc
      else if !kinds.contains k && [1, 2, 3, 4, 5, 6, 15].contains k then s
      else
        let s := s.imEcc p t
        let x := s.tiles[t]
        let d := x.descAt x.pc
        let c := s.dispCtx p t
        if k = 7 then s.modTile t fun x => x.goto (x.pc, x.loops)
        else if !staticOk c x d then s.stopTile p t x.pc
        else if onLastExec d x.loops == some false then s.modTile t Tile.advance
        else if k = 6 then s.modTile t fun x => beginLoop x d
        else if k = 15 then s.modTile t fun x => { x with atEnd := true, stepReq := false }
        else
          match judge c x d with
          | .invalid => (s.endStream p t d).stopTile p t x.pc
          | .wait => s
          | .ok o => s.dispatchOp p t o

end State

end Sys2Proof.Machine
end

