-- ==== Sys2Proof/Machine/Engines.lean ====
section
/-! DEFINITION. What the tile's engines do: passes and their replay (R41-R50, R116-R121), epilogues and VEC work (R135-R161),
the end of a DMA (R189, R234-R236), mesh transfers (R73). -/

namespace Sys2Proof.Machine

/-- What one pass computes. -/
structure PassOut where
  w : Operand
  flags : Nat
  contribs : List Nat
  rows : List (List Nat)
  ovf : Bool
  deriving DecidableEq, Repr

namespace Tile

/-- Addresses of the partial-sum rows of a pass (R47). -/
def psumAddr (p : PassDesc) (m : Nat) : Nat := p.psum + m * p.ppitch * 64

/-- A pass on the operands as they lie in scratchpad; `kept` are weights already in the array's registers (R37, R42-R45, R66). -/
def passOut (t : Tile) (o : Op) (acc16 : Bool) (kept : Option Operand) : PassOut :=
  let p := PassDesc.parse o.desc
  let g := passGrids t p (p.fmts.getD (.b32, .b32)) (kept.map fun w => (w.rows, w.cols))
  let w := kept.getD (operandOf t true g.wrows g.wcols g.wps)
  let a := operandOf t false p.mrows w.rows g.aps
  let old (m n : Nat) : Nat := field (t.sp.read (psumAddr p m + 4 * n) 4) 0 4
  let es := passElems acc16 p.split o.first a w old
  let psn := !o.first && (List.range p.mrows).any fun m => t.poisoned (psumAddr p m) (4 * w.cols)
  ⟨w, a.flags ||| w.flags ||| (if psn then flPois else 0), a.contribs ++ w.contribs, es.map (·.map (·.1)), es.any (·.any (·.2))⟩

/-- Write a pass's partial sums. -/
def writeSums (t : Tile) (p : PassDesc) (rows : List (List Nat)) : Tile :=
  rows.zipIdx.foldl (fun t r => t.spWrite (psumAddr p r.2) ((r.1.map (leBytes 4)).flatten)) t

def seqOf (t : Tile) (psum : Nat) : Option PassSeq := t.seqs.find? (·.psum == psum)

/-- A pass adds what its input panels carry to its sequence (R24). -/
def seqAdd (t : Tile) (psum flags : Nat) (cs : List Nat) : Tile :=
  { t with seqs := t.seqs.map fun q =>
      if q.psum == psum then { q with flags := q.flags ||| flags, contribs := q.contribs ++ cs } else q }

/-- Entries older than the first pass of the earliest open binary16 sequence leave the log (R119). -/
def pruneLog (t : Tile) : Tile :=
  match (t.seqs.filter (·.acc16)).map (·.firstId) with
  | [] => { t with rlog := [] }
  | i :: is => { t with rlog := t.rlog.filter fun o => decide (is.foldl min i ≤ o.id) }

/-- A sequence ends with its LAST pass. -/
def endSeq (t : Tile) (psum : Nat) : Tile :=
  { t with seqs := t.seqs.filter (·.psum != psum), replayed := t.replayed.filter (· != psum) }.pruneLog

def dropOp (t : Tile) (id : Nat) : Tile := { t with ops := t.ops.filter (·.id != id) }

/-- The fused output chain of a LAST pass over its partial sums (R46, R136). -/
def passEpilogue (t : Tile) (o : Op) (cols : Nat) (eb key : Bytes) : Tile :=
  let p := PassDesc.parse o.desc
  let q := t.seqOf p.psum
  let x : EpiCtx :=
    { tensor := p.tensor, bucket := p.bucket, ofmt := (Fmt.ofCode p.ofmt).getD .b32, oaddr := p.oaddr, step := t.outStep p.stepofs,
      iters := o.iters, key := key, flags := ((q.map (·.flags)).getD 0) ||| (if o.bad then flPois else 0),
      contribs := (q.map (·.contribs)).getD [], noInput := false }
  runEpilogue t (EpiDesc.parse eb) x ((List.range p.mrows).map fun m => readArray t (psumAddr p m) cols)

/-- The weights already loaded for a pass: the active ones it keeps, or those in the shadow registers (R37, R66). -/
def loaded (t : Tile) (o : Op) : Option Operand := if (PassDesc.parse o.desc).wkeep then t.kept else t.shadow

/-- While pass `id` streams, the weights of the next dispatched pass go into the shadow registers (R37). -/
def loadShadow (t : Tile) (id : Nat) : Option Operand :=
  (t.ops.find? fun o => o.engine == .array && !o.half && o.id != id).bind fun o =>
    let p := PassDesc.parse o.desc
    if p.wkeep then none
    else
      let g := passGrids t p (p.fmts.getD (.b32, .b32)) none
      some (operandOf t true g.wrows g.wcols g.wps)

/-- The oldest pass of the array completes (R44-R46, R117): its sums are written, or discarded where an accumulator
overflowed. -/
def completePass (t : Tile) (o : Op) : Tile :=
  let p := PassDesc.parse o.desc
  let acc16 := p.acc == 1 && !t.replayed.contains p.psum
  let r := t.passOut o acc16 (t.loaded o)
  let t := { t with kept := some r.w, shadow := t.loadShadow o.id }
  let t := if p.wkeep then { t with rlog := t.rlog.map fun l => if l.id == o.id then { l with weights := some r.w } else l } else t
  let t := if r.ovf then { t with overflowed := if t.overflowed.contains p.psum then t.overflowed else t.overflowed ++ [p.psum] }
    else (t.writeSums p r.rows).seqAdd p.psum r.flags r.contribs
  if t.overflowed.contains p.psum then t.dropOp o.id
  else if o.epi.isSome then t.modOp o.id fun q => { q with half := true, weights := some { r.w with vals := [] } }
  else (if o.last then t.endSeq p.psum else t).dropOp o.id

/-- The epilogue of a completed LAST pass. -/
def finishPass (t : Tile) (o : Op) (eb key : Bytes) : Tile :=
  let p := PassDesc.parse o.desc
  ((t.passEpilogue o ((o.weights.map (·.cols)).getD 0) eb key).endSeq p.psum).dropOp o.id

-- VEC (R152-R161).

/-- A panel source in the compute format (R154). -/
def vecPanel (t : Tile) (f : Fmt) (rows cols : Nat) (v : VecSrc) : List (List FV) :=
  (gridScaled t rows cols v.ps).map (·.map (vecSource f))

/-- An array source in the compute format. -/
def vecArray (t : Tile) (f : Fmt) (addr n : Nat) : List FV := (readArray t addr n).map fun c => vecSource f (B32.dec c)

/-- Flags its input panels give a VEC's output (R24, R210). -/
def vecFlags (t : Tile) (o : Op) (p : VecDesc) (srcs : List VecSrc) : Nat :=
  srcs.foldl (fun a v => a ||| gridFlags t false v.ps) 0 |||
    (if o.bad || (vecArrayRanges p).any (fun r => t.poisoned r.1 r.2) then flPois else 0)

/-- The draws of a VEC (R97, R147, R148). -/
def vecDraw (o : Op) (key : Bytes) (step stream i j : Nat) : Nat :=
  match o.epi with
  | none => 0
  | some eb => let e := EpiDesc.parse eb; genDraw key e.layer step stream (elemIndex e o.iters i j)

/-- The values of a VEC before conversion, as codes of the compute format with flags. -/
def vecValues (t : Tile) (o : Op) (key : Bytes) : List (List FV) :=
  let p := VecDesc.parse o.desc
  let f := (Fmt.ofCode p.vfmt).getD .b32
  let step := t.outStep p.stepofs
  if p.vop = 0x30 then
    (List.range p.rows).map fun i => (List.range p.cols).map fun j =>
      (Ieee.exactCode f (.fin false (vecDraw o key step p.vstream i j) (-16)), {})
  else
    let u := vecPanels p.vop
    let src (b : Bool) (a : Nat) : List (List FV) := if b then t.vecPanel f p.rows p.cols (vecSrc t f a p.rows p.cols) else []
    let arr (b : Bool) (a : Nat) : List FV := if b then t.vecArray f a (if p.vop = 0x26 then p.rows else p.cols) else []
    let draw (i j : Nat) : Nat := if p.rnd = 4 then vecDraw o key step 2 i j else 0
    vecCompute p f draw (src u.1 p.xaddr) (src u.2.1 p.yaddr) (src u.2.2 p.zaddr) (arr (vecArrays p.vop).1 p.yaddr)
      (arr (vecArrays p.vop).2 p.zaddr)

/-- Write the output panels of a VEC without EPI (R156). -/
def vecPanelsOut (p : VecDesc) (f g : Fmt) (flags contrib step : Nat) (v : List (List FV)) :
    Tile → Nat → List (Nat × Nat × Nat × Nat) → Tile
  | t, _, [] => t
  | t, addr, (r0, c0, r, c) :: rest =>
    let part := ((v.drop r0).take r).map fun row => ((row.drop c0).take c).map fun x => f.decode x.1
    let pc := convPanel g (rndOf p.rnd) true p.oscale (fun _ _ => 0) part
    let fl := flags ||| (if pc.nan then flNanp else 0) ||| (if pc.satInf || pc.ovf then flSat else 0)
    let h : PHdr := ⟨g.code, p.oscale, p.tensor, p.bucket, r, c, fl, contrib, step⟩
    let t := { t.spWrite addr (panelOut h g pc.rows pc.exps) with flags := t.flags.or pc.fp }
    vecPanelsOut p f g flags contrib step v t (addr + panelBytes g false r c) rest

/-- Run a VEC to its output: FSTORE, its own conversion, or the epilogue it names (R155, R156). -/
def runVec (t : Tile) (o : Op) (key : Bytes) : Tile :=
  let p := VecDesc.parse o.desc
  if p.vop = 0x31 then { t.spWrite p.oaddr (fit 64 [BitVec.ofNat 8 t.flags.toNat]) with flags := {} }
  else
    let f := (Fmt.ofCode p.vfmt).getD .b32
    let v := t.vecValues o key
    let srcs := vecSources t p f
    let flags := t.vecFlags o p srcs
    let cs := (srcs.map fun s => gridContribs s.ps).flatten
    let t := { t with flags := t.flags.or (flagsOf v.flatten) }
    let g := (Fmt.ofCode p.ofmt).getD .b32
    let step := t.outStep p.stepofs
    match o.epi with
    | none => vecPanelsOut p f g flags (combContrib cs) step v t p.oaddr (gridPlaces (vecOut p).1 (vecOut p).2)
    | some eb =>
      let x : EpiCtx :=
        { tensor := p.tensor, bucket := p.bucket, ofmt := g, oaddr := p.oaddr, step := step, iters := o.iters, key := key,
          flags := flags, contribs := cs, noInput := p.vop == 0x30 }
      runEpilogue t (EpiDesc.parse eb) x (v.map (·.map fun c => B32.rnd (f.decode c.1)))

/-- Work of the vector unit in program order: VECs, and LAST passes that name an epilogue (R135). -/
def vectorWork (t : Tile) : List Op := t.ops.filter fun o => o.engine == .vector || (o.engine == .array && o.epi.isSome)

/-- The array's next pass. -/
def nextPass (t : Tile) : Option Op := t.ops.find? fun o => o.engine == .array && !o.half

end Tile

namespace State

/-- The drop-out key of the tile's job. -/
def dropKey (s : State) (t : TileId) : Bytes :=
  (((s.partOf t).bind fun p => (s.parts[p].job).bind (·.dropKey))).getD []

/-- A stash record read at once: its first granule, then what 64 + CLEN needs (R234). -/
def readRecord (s : State) (t : TileId) (key ofs rowlen : Nat) (who : Option (Bool × Nat)) : State × Bytes × Bool :=
  let a := s.readRange t key ofs 512 who
  let need := if a.2.2 then 0 else ceilDiv (stashNeed rowlen (a.2.1.take 64)) 512
  let b := a.1.readRange t key (ofs + 512) (512 * (need - 1)) who
  (b.1, a.2.1 ++ b.2.1, a.2.2 || b.2.2)

/-- A logged load of device memory, done again at once (R117): plain rows, or a stash record. -/
def replayLoad (s : State) (t : TileId) (o : Op) : State :=
  let p := DmaDesc.parse o.desc
  let who := (s.partOf t).bind s.runCmd
  let key := p.daddr / 2 ^ 56
  if p.comp then
    let r := s.readRecord t key (bits p.daddr 34 0) p.rowlen who
    if r.2.2 then r.1.modTile t fun x => x.spPoison p.saddr p.rowlen
    else
      match expandRecord p.rowlen r.2.1 with
      | .bytes bs => r.1.modTile t fun x => x.spWrite p.saddr bs
      | .rpsn => r.1.modTile t fun x => x.spPoison p.saddr p.rowlen
      | .failed => (r.1.modTile t fun x => x.spPoison p.saddr p.rowlen).raiseTile t 0x18 (p.daddr % 2 ^ 41 / 512 % 4) (p.daddr % 2 ^ 41 / 512)
  else
    (dmaRows p).foldl (fun s row =>
      (granulePieces (bits row.2 34 0) p.rowlen).foldl (fun s x =>
        let g := s.readNow t x.1 key who
        let bad := (touched x.2.1 x.2.2.1).filter (g.2.psn.contains ·)
        g.1.modTile t fun y => bad.foldl (fun y i =>
          y.spPoison (row.1 + x.2.2.2 + max x.2.1 (64 * i) - x.2.1) (min x.2.2.1 (64 * i + 64) - max x.2.1 (64 * i)))
          (y.spWrite (row.1 + x.2.2.2) (sub g.2.data x.2.1 (x.2.2.1 - x.2.1)))) s) s

/-- A logged pass, done again with binary32 accumulation, its epilogue with it (R117, R118). -/
def replayPass (s : State) (t : TileId) (o : Op) : State :=
  let key := s.dropKey t
  s.modTile t fun x =>
    let p := PassDesc.parse o.desc
    let r := x.passOut o false o.weights
    let x := (x.writeSums p r.rows).seqAdd p.psum r.flags r.contribs
    match o.epi, o.last with
    | some eb, true => x.passEpilogue o r.w.cols eb key
    | _, _ => x

/-- The replay of one overflowed sequence (R117, R121). It begins from what the logged loads found where they wrote, so that
its sums are those R118 states, and leaves in their ranges, but for what the replayed passes write, what stood there before
it (DEDUCED from R118 and R126, log 43). -/
def replay (s : State) (t : TileId) (psum : Nat) : State :=
  let x := s.tiles[t]
  let from_ := ((x.seqOf psum).map (·.firstId)).getD 0
  let log : List Op := x.rlog.filter fun (o : Op) => decide (from_ ≤ o.id)
  let mine (o : Op) : Bool := o.engine == .array && (PassDesc.parse o.desc).psum == psum
  let loads := log.filter (·.engine == .dma)
  let was := x.saveRanges (loads.map (·.writes)).flatten
  let s := s.modTile t fun x =>
    { loads.reverse.foldl (fun x o => x.putRanges (o.saved, o.savedPsn)) x with
      seqs := x.seqs.map fun q => if q.psum == psum then { q with flags := 0, contribs := [] } else q }
  let s := log.foldl (fun (s : State) (o : Op) => if o.engine == .dma then s.replayLoad t o else if mine o then s.replayPass t o else s) s
  s.modTile t fun x =>
    let x := (x.putRanges was).putRanges (x.saveRanges ((log.filter mine).map (·.writes)).flatten)
    let x := { x with overflowed := x.overflowed.filter (· != psum), kept := s.tiles[t].kept }
    if log.any fun o => mine o && o.last then x.endSeq psum else { x with replayed := x.replayed ++ [psum] }

/-- The end of a compressed read: the record's panel, or poison (R234-R236). -/
def endExpand (s : State) (t : TileId) (o : Op) (p : DmaDesc) : State :=
  let poison (s : State) : State := s.modTile t fun x => x.spPoison p.saddr p.rowlen
  if o.badQuiet then poison s
  else
    match expandRecord p.rowlen (o.buf.read 0 p.rowlen) with
    | .bytes bs => s.modTile t fun x => x.spWrite p.saddr bs
    | .rpsn => poison s
    | .failed => (poison s).raiseTile t 0x18 (if p.host then 0 else p.daddr % 2 ^ 41 / 512 % 4) (if p.host then p.chunk * 8 else p.daddr % 2 ^ 41 / 512)

/-- Nothing of an operation waits at its slice or at the host interface. -/
def dmaIdle (s : State) (p : PartId) (t : TileId) (id : Nat) : Bool :=
  !(s.tiles[t].slice.reqs.any fun r => r.owner == .tileDma t id) && !s.hostBusy (some p) (.tileDma t id)

/-- A DMA completes and its reservations are released (R189). -/
def endDma (s : State) (t : TileId) (o : Op) : State :=
  let p := DmaDesc.parse o.desc
  (if p.comp && !p.out then s.endExpand t o p else s).modTile t fun x => x.dropOp o.id

/-- The first uncompleted mesh operation of a kind with a peer. -/
def meshHead (s : State) (t : TileId) (kind peer : Nat) : Option Op :=
  s.tiles[t].ops.find? fun o => o.engine == .mesh && kindOf o.desc == kind && (MeshDesc.parse o.desc).peer == peer

/-- A matched transfer moves its bytes, line by line with their poison (R73, R210). -/
def meshMove (s : State) (src dst : TileId) (a b : MeshDesc) : State :=
  let x := s.tiles[src]
  let bs := x.sp.read a.addr a.len
  let bad := (linesOf a.addr a.len).filter (x.poison.contains ·)
  s.modTile dst fun y => bad.foldl (fun y l => y.spPoison (b.addr + 64 * l - a.addr) 64) (y.spWrite b.addr bs)

/-- LOSS and LTILE of a RUN, LADDR, STEP (R343). -/
def runArgs (s : State) (p : PartId) (q : Nat) : Option Cmd := (s.inFlight (some p) false q).map (·.cmd)

def runLoss (c : Cmd) : Bool := bit c.arg2 0

def runLtile (c : Cmd) : TileId := ⟨bits c.arg2 13 8 % 64, Nat.mod_lt _ (by decide)⟩

/-- The granule of the loss ring that the next loss record takes (R380), with its KEYID. -/
def lossPlace (s : State) (p : PartId) (c : Cmd) : TileId × Nat × Nat :=
  let k := s.compact p
  let n := ((s.parts[p].job).map (·.lossN)).getD 0
  (runLtile c, Compact.lossofs k / 512 + n % Compact.losscnt k, (s.keyRange p).1 + Compact.lkidx k)

def lossRecord (s : State) (p : PartId) (c : Cmd) (loss : Nat) : Bytes :=
  fit 512 (leBytes 6 c.arg1 ++ leBytes 2 (((s.parts[p].job).map (·.num)).getD 0) ++ leBytes 4 c.seq ++ leBytes 4 loss)

/-- The RUN's record is written and the partition's tiles stand idle (R343). -/
def endRun (s : State) (p : PartId) (q : Nat) (r : Result) : State :=
  let s := s.modPart p fun x => { x with run := none, runStop := none, runEnd := none, fuller := { x.fuller with marks := [] } }
  let s := (s.tilesOf p).foldl (fun s t => s.modTile t fun x => { x with running := false, marked := false, mark := [] }) s
  s.complete (some p) false q r

/-- What a RUN completes with (R110, R343, R344). -/
def runResult (s : State) (p : PartId) (c : Cmd) (loss : Nat) (split : Bool) : Result :=
  let tell := runLoss c && Compact.hloss (s.compact p)
  match s.parts[p].runStop with
  | some r => { status := stDescfail, cls := 2, result := r.1 + r.2 * 65536 }
  | none => { status := if split then stFailed else stOk, cls := if split then 2 else 0, result := if tell then loss else 0,
              flags := if tell then 2 else 0 }

/-- The last tile has reported: the regulator copies merge, the loss is read, the record of it is written, the RUN completes
(R65, R109, R110, R343, R344, R380). -/
def finishRun (s : State) (p : PartId) (q : Nat) : State :=
  let bad := s.regSplit p
  let s := s.regMergeLogged p (some (false, q))
  match s.runArgs p q with
  | none => s.endRun p q { status := stOk }
  | some c =>
    let loss := field (s.tiles[runLtile c].sp.read (c.arg3 % 2 ^ 22) 4) 0 4
    let r := s.runResult p c loss !bad.isEmpty
    if runLoss c then
      let at_ := s.lossPlace p c
      let bs := s.lossRecord p c loss
      let s := s.modPart p fun x => { x with job := x.job.map fun j => { j with lossN := j.lossN + 1 } }
      if uncopied s.tiles[at_.1].slice at_.2.1 then
        (s.addReqs at_.1 [⟨at_.2.1, at_.2.2, .lossRecord q, 0, 512, some bs, [], 0, false, true, (at_.2.1, 1)⟩]).modPart p fun x =>
          { x with runEnd := some (r.status, r.cls, r.result, r.flags) }
      else (s.writeNow at_.1 at_.2.1 at_.2.2 0 512 bs [] (some (false, q))).endRun p q r
    else s.endRun p q r

/-- A tile reports completion; the last one ends the RUN (R65). -/
def tileReport (s : State) (p : PartId) (t : TileId) : State :=
  let s := s.modTile t fun x => { x with reported := true }
  match s.parts[p].run with
  | none => s
  | some q =>
    if (s.tilesOf p).all (fun t => s.tiles[t].reported) && s.parts[p].runEnd.isNone then s.finishRun p q else s

end State

end Sys2Proof.Machine
end

