-- ==== Sys2Proof/Machine/Commands.lean ====
section
/-! DEFINITION. The command window and its sequencer: slots and their checks (R316-R324), states (R327), order (R328-R330),
timeouts (R325, R454). -/

namespace Sys2Proof.Machine

/-- Ordering classes (R326). -/
inductive CmdClass where
  | jewel | tile | copy | reduce | fuller | fence | none
  deriving DecidableEq, Repr

/-- The class of an opcode; none where it is unknown (R326). -/
def opClass (opc : Nat) : Option CmdClass :=
  match opc with
  | 0x01 | 0x02 | 0x03 | 0x04 | 0x60 => some .jewel
  | 0x10 | 0x11 | 0x41 => some .tile
  | 0x20 | 0x21 => some .copy
  | 0x30 => some .reduce
  | 0x40 => some .fuller
  | 0x50 => some .fence
  | 0x51 | 0x52 => some .none
  | _ => none

namespace Cmd

/-- A slot's 64 bytes as a command (R322). -/
def parse (b : Bytes) : Cmd :=
  { seq := field b 0 4, opc := byteAt b 4, tmo := byteAt b 5, flags := field b 6 2, job := field b 8 2, tag := field b 10 2,
    wait := [field b 12 2, field b 14 2, field b 16 2, field b 18 2], cpl := field b 20 8, arg0 := field b 28 8,
    arg1 := field b 36 8, arg2 := field b 44 8, arg3 := field b 52 8 }

/-- HCHK of a slot (R322). -/
def hchkOk (b : Bytes) : Bool := field b 60 4 == crc32c (b.take 60)

/-- Checks of the header alone (R321-R323). -/
def formOk (c : Cmd) (urgent : Bool) : Bool :=
  (opClass c.opc).isSome && (c.tmo == 0 || (decide (4 ≤ c.tmo) && decide (c.tmo ≤ 34))) && decide (c.flags ≤ 1) && c.cpl % 32 == 0 &&
    (if urgent then c.opc == 0x51 || c.opc == 0x52 else c.opc != 0x52)

/-- MODE of a COPY_IN or COPY_OUT (R345). -/
def mode (c : Cmd) : Nat := bits c.arg3 1 0

/-- Ranges and reserved bits of the arguments (R323, R338-R351). -/
def argsOk (c : Cmd) : Bool :=
  match c.opc with
  | 0x01 => decide (1 ≤ c.arg1) && decide (c.arg1 ≤ 262144) && c.arg2 == 0 && c.arg3 == 0
  | 0x02 => decide (c.arg0 ≤ 1) && c.arg1 == 0 && c.arg2 == 0 && c.arg3 == 0
  | 0x03 => decide (1 ≤ c.arg1) && decide (c.arg1 ≤ 16384) && decide (c.arg2 ≤ 63) && c.arg3 == 0
  | 0x04 => c.arg3 == 0
  | 0x10 => c.arg2 == 0 && c.arg3 == 0
  | 0x11 => decide (c.arg0 < 4096) && decide (c.arg1 < 2 ^ 48) && bits c.arg2 7 1 == 0 && decide (c.arg2 < 2 ^ 14) &&
      decide (c.arg3 < 2 ^ 22) && c.arg3 % 4 == 0
  | 0x20 | 0x21 =>
    match c.mode with
    | 0 => decide (c.arg2 < 2 ^ 32) && c.arg3 == 0
    | 1 => decide (c.arg0 < 2 ^ 49) && bits c.arg3 31 2 == 0 && c.arg1 % 4096 == 0 && c.arg2 % 16 == 0
    | 2 => decide (c.arg0 < 2 ^ 32) && c.arg1 == 0 && c.arg2 == 0 && c.arg3 == 2
    | _ => false
  | 0x30 => true
  | 0x40 | 0x41 => decide (bits c.arg0 1 0 ≤ 1) && bits c.arg0 31 3 == 0 && decide (c.arg1 < if bits c.arg0 1 0 = 0 then 2 ^ 32 else 2 ^ 16) &&
      decide (c.arg2 < 2 ^ 48) && c.arg3 == 0
  | 0x50 => c.arg0 == 0 && c.arg1 == 0 && c.arg2 == 0 && c.arg3 == 0
  | 0x51 => c.arg0 % 64 == 0 && bits c.arg1 15 11 == 0 && decide (c.arg1 < 2 ^ 17) && c.arg2 == 0 && c.arg3 == 0
  | 0x52 => decide (c.arg0 < 2 ^ 32) && c.arg1 == 0 && c.arg2 == 0 && c.arg3 == 0
  | 0x60 => decide (c.arg1 ≤ 33554432) && c.arg2 == 0 && c.arg3 == 0
  | _ => false

/-- The DTMO byte of an opcode (R471); none for the commands without a timeout (R325). -/
def dtmoIdx (opc : Nat) : Option Nat :=
  match opc with
  | 0x10 => some 0 | 0x11 => some 1 | 0x20 | 0x21 => some 2 | 0x30 => some 3 | 0x40 => some 4 | 0x41 => some 5 | 0x50 => some 6
  | 0x01 | 0x03 | 0x04 | 0x60 => some 7
  | _ => none

end Cmd

/-- The next SEQ of a queue: it wraps past 0 (R316). -/
def nextSeq (n : Nat) : Nat := if n = 0xFFFFFFFF then 1 else n + 1

namespace State

/-- Bytes of the slot at a queue's cursor. -/
def slotAt (s : State) (f : Fn) (urgent : Bool) : Bytes :=
  let w := s.win f
  w.slots.read (if urgent then 61440 + 64 * w.ucur else 64 * w.mcur) 64

/-- The slot at the cursor holds the expected SEQ (R316). -/
def slotValid (s : State) (f : Fn) (urgent : Bool) : Bool :=
  let w := s.win f
  field (s.slotAt f urgent) 0 4 == (if urgent then w.uexp else w.mexp)

/-- The sequencer examines slots of the queue (R316, R327, R479, R481). -/
def examines (s : State) (f : Fn) (urgent : Bool) : Bool :=
  match f with
  | none => s.boot.phase == .ready || s.boot.phase == .recovery
  | some p => s.boot.phase == .ready && s.parts[p].pstate != .off && (urgent || s.parts[p].pstate != .resetting)

/-- The in-flight table has room (R319). -/
def hasRoom (s : State) (f : Fn) (urgent : Bool) : Bool :=
  let n := ((s.win f).table.filter fun e => e.urgent == urgent).length
  decide (n < if urgent then 32 else match f with | none => 8192 | some _ => 8192 / max 1 s.npart)

/-- Move a queue past the slot at its cursor (R316, R319). -/
def passSlot (s : State) (f : Fn) (urgent : Bool) : State :=
  s.modWin f fun w =>
    if urgent then { w with ucur := (w.ucur + 1) % 32, useq := w.uexp, uexp := nextSeq w.uexp }
    else { w with mcur := (w.mcur + 1) % 960, mseq := w.mexp, mexp := nextSeq w.mexp }

def badAt (s : State) (f : Fn) (urgent : Bool) : Option Nat :=
  match f with
  | none => if urgent then s.pf.badUrg else s.pf.badMain
  | some p => if urgent then s.parts[p].badUrg else s.parts[p].badMain

def setBad (s : State) (f : Fn) (urgent : Bool) (b : Option Nat) : State :=
  match f with
  | none => { s with pf := if urgent then { s.pf with badUrg := b } else { s.pf with badMain := b } }
  | some p => s.modPart p fun x => if urgent then { x with badUrg := b } else { x with badMain := b }

/-- The status with which the partition state ends a command at once (R327, R351, R481, R495). -/
def gate (s : State) (f : Fn) (opc : Nat) : Option Nat :=
  match f with
  | none =>
    if (if s.boot.phase = .recovery then [0x51, 0x60] else [0x04, 0x51, 0x52, 0x60]).contains opc then none else some stRejected
  | some p =>
    let x := s.parts[p]
    if opc = 0x60 then some stRejected
    else if x.pstate = .running ∧ x.ilock ∧ !([0x51, 0x52, 0x02].contains opc) then some stLockout
    else
      let runs := match x.pstate with
        | .idle => [0x01, 0x04, 0x51, 0x50].contains opc
        | .opening => [0x03, 0x04, 0x51, 0x50, 0x52, 0x02].contains opc
        | .running => opc != 0x01
        | .failed => opc == 0x51 || opc == 0x02
        | .resetting | .scrubbing => opc == 0x51
        | .off => false
      if runs then none else some stRejected

/-- The open job's number; 0 where none is open. -/
def jobNum (s : State) (f : Fn) : Nat := match f with | none => 0 | some p => ((s.parts[p].job).map (·.num)).getD 0

/-- JOB of a command (R324). -/
def jobOk (s : State) (f : Fn) (c : Cmd) : Bool :=
  if c.opc = 0x01 then c.job != 0 else c.job == s.jobNum f || (c.job == 0 && (c.opc == 0x04 || c.opc == 0x51))

/-- The TAG is held by an uncompleted command, of the main queue or urgent (R323). -/
def tagHeld (s : State) (f : Fn) (c : Cmd) : Bool := c.tag != 0 && (s.win f).table.any fun e => e.cmd.tag == c.tag

/-- Every wait tag has been used since JOB_OPEN (R323). -/
def waitsKnown (s : State) (f : Fn) (c : Cmd) : Bool := c.wait.all fun t => t == 0 || (s.win f).tags.any (·.1 == t)

/-- A tile of the function's partition. -/
def ownTile (s : State) (f : Fn) (t : Nat) : Bool := match f with | none => false | some p => (s.tilesOf p).any (·.val == t)

/-- Arguments that the partition's extent bounds: LTILE of a RUN that reports a loss, OWNER of a BIND (R343, R346). -/
def extentOk (s : State) (f : Fn) (c : Cmd) : Bool :=
  match c.opc with
  | 0x11 => !bit c.arg2 0 || s.ownTile f (bits c.arg2 13 8)
  | 0x20 | 0x21 => if c.mode = 1 then bits c.arg0 39 32 == 0xFF || s.ownTile f (bits c.arg0 39 32) else true
  | _ => true

/-- The status a command taken now ends with at once; none where it goes on (R321, R323, R324, R327). -/
def refusal (s : State) (f : Fn) (urgent : Bool) (c : Cmd) : Option Nat :=
  if !c.formOk urgent then some stInvalid
  else
    match s.gate f c.opc with
    | some st => some st
    | none =>
      if s.jobOk f c && !s.tagHeld f c && s.waitsKnown f c && c.argsOk && s.extentOk f c then none else some stInvalid

/-- End a command that never enters the in-flight table: its record, its tag, the FENCE count (R323, R327, R329, R330). -/
def refuse (s : State) (f : Fn) (urgent : Bool) (c : Cmd) (st : Nat) : State :=
  let held := s.tagHeld f c
  let s := s.modWin f fun w =>
    { w with tags := if held then w.tags else setTag w.tags c.tag .failed, fenceCnt := if urgent then w.fenceCnt else w.fenceCnt + 1 }
  if c.cpl ≠ 0 ∧ c.cpl % 32 = 0 then s.postRecord f urgent c (recordBytes c urgent st (statusCls st) 0 (s.seqCount f) 0 0) else s

/-- The state of a command's waits (R329): some false pending, some true all settled, none where it ends as DEPFAIL. -/
def waitState (s : State) (f : Fn) (c : Cmd) : Option Bool :=
  let st := (c.wait.filter (· != 0)).map fun t => ((((s.win f).tags.find? (·.1 == t)).map (·.2)).getD .done)
  if st.contains .pending then some false else if st.contains .failed && !bit c.flags 0 then none else some true

def clsOf (e : InFlight) : CmdClass := (opClass e.cmd.opc).getD .none

/-- Main commands of the table, in SEQ order. -/
def mains (s : State) (f : Fn) : List InFlight := (s.win f).table.filter fun e => !e.urgent

/-- The command of a class whose turn it is by R328 and R330: the first that has not started; of the class that nothing orders,
the first that waits for no tag. -/
def headOf (s : State) (f : Fn) (k : CmdClass) : Option InFlight :=
  let ms := s.mains f
  match ms.findIdx? fun e => clsOf e == k && e.started.isNone && e.ends.isNone && (k != .none || s.waitState f e.cmd != some false) with
  | none => none
  | some i =>
    let before := ms.take i
    let running := (ms.filter fun e => clsOf e == k && e.started.isSome).length
    let room := match k with
      | .jewel | .tile | .fuller => running == 0
      | .copy => decide (running < 4)
      | .fence => before.isEmpty
      | .reduce | .none => true
    if room && !(before.any fun e => clsOf e == .fence) then ms[i]? else none

/-- The status with which a command whose turn has come ends without starting: DEPFAIL, or the state's refusal. -/
def endsUnstarted (s : State) (f : Fn) (e : InFlight) : Option Nat :=
  match s.waitState f e.cmd with
  | none => some stDepfail
  | some false => none
  | some true => s.gate f e.cmd.opc

/-- The first urgent command of an opcode that has not started and waits for no tag (R321, R329). -/
def urgentHead (s : State) (f : Fn) (ok : Nat → Bool) : Option InFlight :=
  (s.win f).table.find? fun e => e.urgent && ok e.cmd.opc && e.started.isNone && e.ends.isNone && s.waitState f e.cmd != some false

/-- The next command that ends without starting, urgent ones first, and its status. -/
def nextUnstarted (s : State) (f : Fn) : Option (InFlight × Nat) :=
  match (s.urgentHead f fun _ => true).bind fun e => (s.endsUnstarted f e).map fun st => (e, st) with
  | some x => some x
  | none =>
    ([.jewel, .tile, .copy, .reduce, .fuller, .fence, .none] : List CmdClass).findSome? fun k =>
      (s.headOf f k).bind fun e => (s.endsUnstarted f e).map fun st => (e, st)

/-- A command ends without having started. -/
def endUnstarted (s : State) (f : Fn) (e : InFlight) (status : Nat) : State :=
  (match f with | some p => s.unmark p e.cmd | none => s).complete f e.urgent e.cmd.seq { status := status }

/-- End every command that ends without starting (R327, R329). -/
def settle (s : State) (f : Fn) : Nat → State
  | 0 => s
  | n + 1 =>
    match s.nextUnstarted f with
    | none => s
    | some x => (s.endUnstarted f x.1 x.2).settle f n

def settled (s : State) (f : Fn) : State := s.settle f (s.win f).table.length

/-- The command of class k that may start now. -/
def startable (s : State) (f : Fn) (k : CmdClass) : Option InFlight :=
  (s.headOf f k).bind fun e => if s.waitState f e.cmd == some true && (s.gate f e.cmd.opc).isNone then some e else none

/-- Start a command: its timeout runs from here (R325). -/
def start (s : State) (f : Fn) (urgent : Bool) (seq : Nat) : State :=
  s.modInFlight f urgent seq fun e => { e with started := some (s.seqCount f) }

/-- Take the slot at a cursor (R318, R319): the command is refused at once, or waits in the in-flight table. -/
def takeSlot (s : State) (f : Fn) (urgent : Bool) : State :=
  let b := s.slotAt f urgent
  if Cmd.hchkOk b then
    let c := Cmd.parse b
    let s := (s.passSlot f urgent).setBad f urgent none
    match s.refusal f urgent c with
    | some st => s.refuse f urgent c st
    | none =>
      (s.modWin f fun w =>
        { w with table := w.table ++ [⟨c, urgent, none, 0, false, none, 0⟩], tags := setTag w.tags c.tag .pending }).settled f
  else s.setBad f urgent (some ((s.badAt f urgent).getD (s.seqCount f)))

/-- The timeout of a started command in cycles of its sequencer (R322, R325, R471). -/
def timeoutOf (s : State) (c : Cmd) : Option Nat :=
  (Cmd.dtmoIdx c.opc).bind fun i =>
    (if c.tmo = 0 then s.boot.image.map (·.dtmo.getD i 0) else some c.tmo).map fun n => 1000 * 2 ^ n

/-- The command's timeout has expired (R454): the sequencer's cycle of expiry has passed. -/
def expired (s : State) (f : Fn) (e : InFlight) : Bool :=
  match e.started, s.timeoutOf e.cmd, e.ends with
  | some c0, some n, none => decide (c0 + n < s.seqCount f)
  | _, _, _ => false

/-- The queue's cursor stands at a slot that the sequencer can take now. -/
def takable (s : State) (f : Fn) (urgent : Bool) : Bool := s.examines f urgent && s.slotValid f urgent && s.hasRoom f urgent

/-- A main slot waits while a valid urgent slot can be taken: that one is taken first (R321). -/
def urgentFirst (s : State) (f : Fn) (urgent : Bool) : Bool := !urgent && s.takable f true && Cmd.hchkOk (s.slotAt f true)

/-- A function answers memory requests (R479, R490, R501, R504). -/
def answers (s : State) (f : Fn) : Bool :=
  s.host.linkUp && s.fnLive f && !(s.dma f).flr && !s.host.d3hot.contains f && (s.boot.phase == .ready || (s.boot.phase == .recovery && f.isNone))

/-- A cursor whose slot no longer holds the expected SEQ has no bad slot to wait out (R318). -/
def forgetBad (s : State) (f : Fn) (urgent : Bool) : State := if s.slotValid f urgent then s else s.setBad f urgent none

/-- The work of a started command stops where no partition reset will stop it: what runs for it is withdrawn. -/
def stopWork (s : State) (p : PartId) (e : InFlight) : State :=
  let s := (s.dropRequests (some p) (.command e.urgent e.cmd.seq)).dropRequests (some p) (.copy e.cmd.seq)
  match e.cmd.opc with
  | 0x11 => (s.tilesOf p).foldl (fun s t => s.modTile t fun x => { x with running := false })
      (s.modPart p fun x => { x with run := none, runStop := none, runEnd := none })
  | 0x20 | 0x21 => s.modPart p fun x => { x with copies := x.copies.filter (·.seq != e.cmd.seq) }
  | 0x30 => s.modPart p fun x =>
      let gone := x.card.table.filter (·.seq == e.cmd.seq)
      let dead := x.card.dead ++ gone.map (·.key)
      { x with card := { x.card with table := x.card.table.filter (·.seq != e.cmd.seq), dead := dead.drop (dead.length - 64) } }
  | 0x40 | 0x41 => s.dropFuller p
  | _ => s.modPart p fun x => { x with service := x.service.filter (·.seq != e.cmd.seq) }

end State

open State

/-- SLOT_TAKE (R316-R324): the valid slot at the main or urgent cursor is taken, an urgent one first. -/
def execSlotTake (f : Fn) (urgent : Bool) (s : State) : Host.Outcome State Fault Refusal :=
  if s.takable f urgent && !s.urgentFirst f urgent then .next (s.takeSlot f urgent) else .next s

/-- BADSLOT (R318): a slot whose HCHK has failed for 10 µs is taken without action. -/
def execBadslot (f : Fn) (urgent : Bool) (s : State) : Host.Outcome State Fault Refusal :=
  match s.badAt f urgent with
  | none => .next s
  | some c0 =>
    if s.examines f urgent && s.slotValid f urgent && !Cmd.hchkOk (s.slotAt f urgent) && decide (c0 + 10000 ≤ s.seqCount f) then
      let seq := field (s.slotAt f urgent) 0 4
      .next (((s.passSlot f urgent).setBad f urgent none).modWin f fun w => { w with badSlot := satInc w.badSlot, badSeq := seq })
    else .next s

/-- BAR_WRITE (R315, R494): bytes of the slots are stored, every other byte is discarded. -/
def execBarWrite (f : Fn) (bar off : Nat) (data : Bytes) (s : State) : Host.Outcome State Fault Refusal :=
  if bar = 0 ∧ s.answers f ∧ off < 63488 then
    .next (((s.modWin f fun w => { w with slots := w.slots.write off (data.take (63488 - off)) }).forgetBad f false).forgetBad f true)
  else .next s

/-- FENCE (R330): every earlier main command has completed; RESULT counts those not OK. -/
def execFence (p : PartId) (s : State) : Host.Outcome State Fault Refusal :=
  let s := s.settled (some p)
  match s.startable (some p) .fence with
  | none => .next s
  | some e =>
    let n := s.parts[p].win.fenceCnt
    .next ((s.modWin (some p) fun w => { w with fenceCnt := 0 }).complete (some p) false e.cmd.seq { status := stOk, result := n })

/-- The STATUS that runs next: an urgent one whose waits are over, else a main one whose turn it is. -/
def State.nextStatus (s : State) (f : Fn) : Option InFlight :=
  match s.urgentHead f (· == 0x51) with
  | some e => some e
  | none => s.startable f .none

/-- STATUS (R350): SETV sets the stream view, and a dump is written where ARG0 asks for one. -/
def execStatus (f : Fn) (s : State) : Host.Outcome State Fault Refusal :=
  let s := s.settled f
  match s.nextStatus f with
  | none => .next s
  | some e =>
    let c := e.cmd
    let s := s.start f e.urgent c.seq
    let s := match f with
      | some p => if bit c.arg1 16 then s.modPart p fun x => { x with vbase := bits c.arg1 10 0 } else s
      | none => s
    if c.arg0 = 0 then .next (s.complete f e.urgent c.seq { status := stOk })
    else .next (s.postWrite f ⟨.other, c.arg0, s.statusDump f, .command e.urgent c.seq, none⟩)

/-- The effect of an ABORT on its target, and the ABORT's own completion (R331). -/
def State.abortTarget (s : State) (f : Fn) (a : InFlight) : State :=
  let fin (s : State) (st code : Nat) : State := s.complete f true a.cmd.seq { status := st, result := code }
  match s.inFlight f false a.cmd.arg0 with
  | none => fin s stNotaborted 4
  | some t =>
    if t.started.isNone then fin (s.endUnstarted f t stAborted) stOk 1
    else
      match f, [0x11, 0x30, 0x20, 0x21, 0x40, 0x41, 0x50].contains t.cmd.opc with
      | some p, true =>
        (fin (s.modInFlight f false t.cmd.seq fun e => { e with ends := some stAborted }) stOk 2).startReset p false false
      | _, _ => fin s stNotaborted 3

/-- ABORT (R331): the oldest urgent ABORT acts on its target. -/
def execAbort (f : Fn) (s : State) : Host.Outcome State Fault Refusal :=
  let s := s.settled f
  match s.urgentHead f (· == 0x52) with
  | none => .next s
  | some a => .next (s.abortTarget f a)

/-- COMMAND_TIMEOUT (R325, R336, R454): every expired command will complete as TIMEOUT, and a partition reset starts. Where an
episode of that level is still open no reset starts (R448): the command completes and its work stops. A command of the physical
function completes at once. -/
def execCommandTimeout (f : Fn) (s : State) : Host.Outcome State Fault Refusal :=
  let es := (s.win f).table.filter (s.expired f)
  match f with
  | none =>
    .next (es.foldl (fun s e =>
      let s := { s with pf := { s.pf with service := s.pf.service.filter (·.seq != e.cmd.seq) } }
      ((s.raiseModule 0x30 0xFF e.cmd.seq).dropRequests none (.command e.urgent e.cmd.seq)).complete none e.urgent e.cmd.seq
        { status := stTimeout, cls := 4 }) s)
  | some p =>
    let s := es.foldl (fun s e => s.modInFlight f e.urgent e.cmd.seq fun x => { x with ends := some stTimeout }) s
    let s := es.foldl (fun s e => s.raise p 0x30 0xFF 0 e.cmd.seq (some (e.urgent, e.cmd.seq))) s
    if s.parts[p].reset.isSome then .next s
    else .next (es.foldl (fun s e => (s.stopWork p e).completeNow (some p) e.urgent e.cmd.seq { status := stTimeout, cls := 4 }) s)

end Sys2Proof.Machine
end

