-- ==== Sys2Proof/Machine/Inject.lean ====
section
/-! DEFINITION. Messages put into the ports for the ring (R257, R266): frames of 256 bytes waiting for injection. -/

namespace Sys2Proof.Machine

/-- The payloads of a message: 256 bytes each, the last filled with zeros; at least one. -/
def payloadsOf (bs : Bytes) : List Bytes :=
  (List.range (max 1 (ceilDiv bs.length 256))).map fun i => fit 256 (sub bs (256 * i) 256)

namespace State

def modPort (s : State) (q : PortId) (f : Port → Port) : State := { s with ports := vmod s.ports q f }

/-- Put a message of partition p for member `dst` into the port its route takes; `own` is the SEQ of the command it serves. -/
def inject (s : State) (p : PartId) (vc : Nat) (hop : Bool) (dst own : Nat) (bs : Bytes) : State :=
  match routePort s.me dst with
  | none => s
  | some q =>
    let ps := payloadsOf bs
    let job := ((s.parts[p].job).map (·.num)).getD 0
    let fs := ps.zipIdx.map fun x =>
      (⟨p.val, vc, x.2 == 0, x.2 + 1 == ps.length, hop, dst, s.me, q.val, job, none, x.1, [], false, own⟩ : Frame)
    s.modPort q fun o => { o with txq := o.txq ++ fs }

/-- A message between two Jewels (VC2). -/
def sendJewel (s : State) (p : PartId) (dst : Nat) (m : JewelMsg) : State := s.inject p 2 true dst 0 (Config.vc2Bytes m)

/-- A message between two Fullers (VC3). -/
def sendFuller (s : State) (p : PartId) (dst own : Nat) (m : FullerMsg) : State := s.inject p 3 false dst own (Config.vc3Bytes m)

end State

end Sys2Proof.Machine
end

