-- ==== Sys2Proof/Machine/Jobs.lean ====
section
/-! DEFINITION. Jobs: the compact's checks (R338, R364-R369), reports (R372), key packages (R374, R375), pouncing (R381),
programs (R341, R342), copies and stream bindings (R345-R347). -/

namespace Sys2Proof.Machine

/-- Sealed program image (R341): its form, and the length the command names. -/
def programFormOk (b : Bytes) (len : Nat) : Bool :=
  sub b 0 4 == ascii "EZPG" && field b 4 2 == 1 && decide (1 ≤ field b 6 2) && decide (field b 6 2 ≤ 64) && zeroRange b 12 4 &&
    zeroRange b 92 36 && b.length == 144 + field b 8 4 && len == b.length

/-- One segment of a program in clear (R341): its tiles, its first slot and its descriptors. -/
structure Segment where
  tmask : Nat
  first : Nat
  body : Bytes
  deriving DecidableEq, Repr

/-- The segments of a body: those read before one breaks R341, and whether all of them are well formed. -/
def segmentsOf : Nat → Bytes → List Segment × Bool
  | 0, b => ([], b.isEmpty)
  | n + 1, b =>
    let first := field b 8 2
    let nslot := field b 10 2
    if b.length < 16 + 64 * nslot ∨ zeroRange b 12 4 = false ∨ 4096 < first + nslot then ([], false)
    else
      let r := segmentsOf n (b.drop (16 + 64 * nslot))
      (⟨field b 0 8, first, sub b 16 (64 * nslot)⟩ :: r.1, r.2)

/-- An ML-DSA-65 signature under a private key (log 11). -/
def signature (dsk msg : Bytes) : Bytes := (List.range 3309).map (Config.signByte dsk msg)

/-- The encapsulation key drawn at a counter. -/
def ekOf (draw : Nat) : Bytes := (List.range 1184).map (Config.kemEkByte draw)

namespace State

/-- The tiles a mask names. -/
def maskHas (mask : Nat) (t : TileId) : Bool := bit mask t.val

/-- Blown anti-rollback steps F (R483). -/
def fused (s : State) : Nat := ((List.range 64).filter fun i => s.boot.fuses.getLsbD i).length

/-- The Jewel signs under the module's identity key (R372, R388). -/
def sign (s : State) (msg : Bytes) : Bytes := signature (s.boot.dsk.getD []) msg

/-- The attestation report of a function over a nonce (R372). `free` are the bytes the manual does not give for the physical
function, which has no partition. -/
def report (s : State) (f : Fn) (nonce free : Bytes) : Bytes :=
  let job := f.bind fun p => s.parts[p].job
  let chain := if s.boot.certOk then s.boot.certChain else []
  let im := s.boot.image
  let lead := match f with | some p => s.isLeader p | none => false
  let lock := match f with | some p => s.parts[p].ilock | none => false
  let body := ascii "EZAR" ++ leBytes 2 1 ++ zeros 2 ++ leBytes 4 (3620 + chain.length + 3309) ++ leBytes 1 s.modeByte ++
    (match f with | some p => leBytes 1 s.parts[p].pstate.code ++ leBytes 1 p.val | none => fit 2 free) ++ leBytes 1 s.npart ++
    leBytes 2 s.me ++ leBytes 2 ((job.map (·.num)).getD 0) ++ leBytes 8 ((im.map (·.svn)).getD 0) ++ leBytes 1 s.fused ++
    leBytes 1 ((decide (s.fused = 64)).toNat + 2 * lead.toNat + 4 * lock.toNat + 8 * ((job.map (·.keySet)).getD false).toNat) ++
    zeros 2 ++ fit 64 nonce ++ s.boot.mrom ++ ((im.map (·.mfw)).getD (zeros 64)) ++ ((im.map (·.mimg)).getD (zeros 64)) ++
    ((job.map (·.mcomp)).getD (zeros 64)) ++ ((job.map (·.mprog)).getD (zeros 64)) ++
    (if lead then (job.map (·.mpeer)).getD (zeros 64) else zeros 64) ++ s.boot.dpk ++
    ((job.map fun j => ekOf j.kemDraw).getD (zeros 1184)) ++ leBytes 4 chain.length ++ chain
  body ++ s.sign body

/-- One ring of this member keeps R268: each port that faces another member along the run is UP with that member. -/
def ringOk (s : State) (c : Bytes) (d : Nat) : Bool :=
  let line := Compact.line c d
  let x := coordDim s.me d
  let whole := Compact.boxsz c d == ((s.boot.image.map (·.tsize)).getD []).getD d 0
  let up := (line.filter (decide <| x < ·)).head?
  let down := (line.filter (decide <| · < x)).getLast?
  let next (plus : Bool) : Option Nat :=
    if plus then (match up with | some y => some y | none => if whole then line.head? else none)
    else (match down with | some y => some y | none => if whole then line.getLast? else none)
  [true, false].all fun plus =>
    match next plus with
    | none => true
    | some y => y == x || (let q := s.ports[portOf d plus]; q.state == .up && q.neighbour == coordSet s.me d y)

/-- Every check of JOB_OPEN on the compact (R338, R364-R367, R268). -/
def compactOk (s : State) (p : PartId) (cmd : Cmd) (c : Bytes) (sigOk : Bool) : Bool :=
  match s.boot.image with
  | none => false
  | some im =>
    let keys := (s.keyRange p).2
    Compact.formOk c && cmd.arg1 == c.length && sigOk && decide (byteAt c 19 < im.roots.length) && Compact.job c == cmd.job &&
    Compact.boxOk c im.tsize && (Compact.grps c).all (Compact.grpOk c) && byteAt c 18 == p.val && Compact.member c s.me &&
    Compact.member c (Compact.leader c) && (Compact.conOf c (Compact.cust c)).isSome &&
    (Compact.rels c).all (fun r => decide (byteAt r 0 < keys)) && decide (Compact.lkidx c < keys) && decide (Compact.minsvn c ≤ im.svn) &&
    (!im.dev || Compact.devok c) && dims4.all (s.ringOk c)

/-- Draws of a slot secret for every KEYID of the range (R370). -/
def drawSlots (s : State) (p : PartId) : List (Nat × Bytes) × State :=
  let r := s.keyRange p
  (List.range r.2).foldl (fun (acc : List (Nat × Bytes) × State) i =>
    let d := acc.2.draw 32
    (acc.1 ++ [(r.1 + i, d.1)], d.2)) ([], s)

/-- Open the job (R338, R370, R111, R145, R329). -/
def openJob (s : State) (p : PartId) (c : Bytes) : State :=
  let d := s.drawSlots p
  let s := { d.2 with free := d.2.free + 1 }
  let recs := (Compact.members c).map fun m => (⟨BitVec.ofNat 16 m, false, none, m == s.me, false, [], 1, 0, none⟩ : MemberRec)
  let j : Job :=
    { num := Compact.job c, compact := c, mcomp := shake256 64 c, mprog := zeros 64, mpeer := zeros 64, kemDraw := d.2.free,
      jr := none, link := none, imports := [], released := [], keySet := false, lossN := 0, dropKey := Compact.dropkey c,
      members := recs, announcing := Compact.leader c != s.me, nonce := none, owesReport := false, eraCeil := 1, eraAsked := none,
      sidCeil := 0, sidAsked := none, sidNext := 0, eseq := List.replicate 32 0, keyset := none }
  let s := s.modPart p fun x =>
    { x with job := some j, slotSecrets := d.1, pstate := .opening, integ := 0, ilock := false, pwrLogged := false,
             win := { x.win with tags := [], fenceCnt := 0 }, log := { x.log with errCnt := 0 } }
  (s.tilesOf p).foldl (fun s t => s.modTile t fun x => { x with reg := [], rgErr := [], regUsed := [], regSteps := [] }) s

/-- Retire the job's keys, release its streams, discard its buckets, whose keys join the last 64 (R313, R339). -/
def retire (s : State) (p : PartId) : State :=
  ((s.discardBuckets p).discardFrames p false true).modPart p fun x =>
    { x with job := none, slotSecrets := [], streams := [], card := { Carding.empty with dead := x.card.dead }, fuller := Fuller.empty, integ := 0, ilock := false,
             copies := [], run := none, runStop := none, runEnd := none, asm := [], inbox2 := [], inbox3 := [] }

/-- A tile through pouncing (R381 step 3): all but its channels is zeroed. -/
def scrubTile (x : Tile) : Tile :=
  { Tile.fresh with n := x.n, k := x.k, freq := x.freq, droops := x.droops, estSum := x.estSum, count := x.count,
                    halt := x.halt, bubbles := x.bubbles, bankcf := x.bankcf, ccmiss := x.ccmiss, ewait := x.ewait, chans := x.chans }

/-- The tree of a tile is reset under the partition's tree secret (R216), and under a deep pounce its data are overwritten under a
throwaway key (R381 step 5). -/
def resetTree (s : State) (t : TileId) (secret : Bytes) (key : Option Bytes) : State :=
  let s := s.modTile t fun x =>
    { x with chans := Vector.ofFn fun k : ChanId =>
        let c := x.chans[k].pounce t.val k.val secret
        match key with
        | some b => c.wipe t.val k.val b
        | none => c }
  { s with jewel := { s.jewel with roots := Vector.ofFn fun i : Fin 2048 => if i.val / 32 = t.val then ⟨0, 0⟩ else s.jewel.roots[i] } }

/-- Steps 1 to 5 of pouncing (R381); MRST is the first entry of the log that start pouncing clears (R453, log 44). -/
def beginPounce (s : State) (p : PartId) (deep : Bool) (close : Option Nat) (atStart : Bool) : State :=
  let s := s.retire p
  let d := s.draw 32
  let k := if deep then (let e := d.2.draw 32; (some e.1, e.2)) else (none, d.2)
  let s := k.2.modPart p fun x =>
    { x with pstate := .scrubbing, treeSecret := some d.1, reset := none, log := ErrLog.empty, win := { x.win with tags := [] },
             pounce := some { deep := deep, start := s.clocks.jewel, close := close, atStart := atStart } }
  let s := if atStart then s.logMrst p else s
  (s.tilesOf p).foldl (fun s t => (s.modTile t scrubTile).resetTree t d.1 k.1) s

/-- The write belongs to a command that runs on: one that no partition reset ends, as an urgent STATUS taken since its start. -/
def runsOn (s : State) (f : Fn) (w : HostWrite) : Bool :=
  match w.owner with
  | .command u q => (s.inFlight f u q).any (·.ends.isNone)
  | _ => false

/-- Host requests of a function whose data nobody waits for: all but completion records and what a command that runs on still
writes (R339, R350, R457). -/
def dropData (s : State) (f : Fn) : State :=
  s.modDma f fun d => { d with writes := d.writes.filter fun w => w.kind == .record || s.runsOn f w, reads := [] }

/-- End every uncompleted command but one (R339), its bucket entries discarded (R313). -/
def cutOthers (s : State) (p : PartId) (keep : Nat) : State :=
  ((s.parts[p].win.table.filter fun e => e.urgent || e.cmd.seq != keep).map fun e => (e.urgent, e.cmd.seq)).foldl
    (fun s c => s.completeNow (some p) c.1 c.2 { status := stCut }) (s.discardBuckets p)

-- Keys (R374-R376).

/-- A key package keeps R374 and R375, its body opened under the shared secret: the import secret and the root secret. -/
def openPackage (s : State) (p : PartId) (cmd : Cmd) (b : Bytes) (sigOk : Bool) (kem : Option Bytes) : Option (Option Bytes × Option Bytes) :=
  match s.parts[p].job, kem with
  | some j, some ss =>
    let slot := byteAt b 6
    let fl := byteAt b 7
    match Compact.conOf j.compact slot with
    | none => none
    | some e =>
      let cust := slot == Compact.cust j.compact
      let ok := s.isLeader p && b.length == 4569 && cmd.arg1 == b.length && sub b 0 4 == ascii "EZKP" && field b 4 2 == 1 &&
        slot == cmd.arg2 && decide (fl < 4) && zeroRange b 10 6 && sigOk && field b 8 2 == j.num && sub b 16 64 == j.mcomp &&
        bit fl 1 == cust && (!Compact.mustImport j.compact e || bit fl 0) && !j.released.contains slot
      if !ok then none
      else
        let key := shake256 32 (ss ++ ascii "EZM6410 KPKG" ++ b.take 80)
        (Gcm.decrypt key (sub b 1168 12) (b.take 80) (sub b 1180 64) (sub b 1244 16)).map fun body =>
          (if bit fl 0 then some (body.take 32) else none, if bit fl 1 then some (body.drop 32) else none)
  | _, _ => none

/-- JR and every import secret that the compact requires are here (R376). -/
def keysComplete (j : Job) : Bool :=
  j.jr.isSome && ((Compact.cons j.compact).filter (Compact.mustImport j.compact)).all fun e => j.imports.any (·.1 == byteAt e 0)

/-- Every member of the box has joined: MPEER is set from the reports the leader has verified, and its partition runs
(R377 t5). -/
def checkJoined (s : State) (p : PartId) : State :=
  match s.parts[p].job with
  | none => s
  | some j =>
    if s.isLeader p && j.keySet && j.members.all (·.joined) && s.parts[p].pstate == .opening then
      s.modPart p fun x =>
        { x with pstate := .running, job := some { j with mpeer := shake256 64 (((j.members.filter (·.coord != s.coord)).map fun m => shake256 64 m.report).flatten) } }
    else s

/-- An accepted package (R375, R376). -/
def takePackage (s : State) (p : PartId) (slot : Nat) (imp root : Option Bytes) : State :=
  let s := s.modPart p fun x =>
    { x with job := x.job.map fun j =>
        { j with released := j.released ++ [slot], imports := j.imports ++ (imp.map fun b => (slot, b)).toList, jr := root.orElse fun _ => j.jr } }
  match s.parts[p].job with
  | none => s
  | some j =>
    if keysComplete j && !j.keySet then
      let d := s.draw 32
      (d.2.modPart p fun x => { x with job := some { j with keySet := true, link := some d.1 } }).checkJoined p
    else s

-- Programs (R341, R342).

/-- Write a segment's descriptors, or zeros in their place. -/
def putSegment (s : State) (p : PartId) (g : Segment) (zero : Bool) : State :=
  ((s.tilesOf p).filter (maskHas g.tmask)).foldl (fun s t => s.modTile t fun x =>
    { x with imem := x.imem.write (64 * g.first) (if zero then zeros g.body.length else g.body),
             imErr := x.imErr.filter fun e => decide (e.1 < g.first) || decide (g.first + g.body.length / 64 ≤ e.1) }) s

/-- The segment names tiles of the partition alone. -/
def segmentIn (s : State) (p : PartId) (g : Segment) : Bool := allTiles.all fun t => !maskHas g.tmask t || s.partOf t == some p

/-- Load a program image (R342): the new state and whether it was accepted. -/
def loadImage (s : State) (p : PartId) (cmd : Cmd) (b : Bytes) : State × Bool :=
  match s.parts[p].job with
  | none => (s, false)
  | some j =>
    match j.jr with
    | none => (s, false)
    | some jr =>
      if !programFormOk b cmd.arg1 then (s, false)
      else
        let key := derived (derived jr "EZM6410 PSEC") "EZM6410 PROG"
        let n := field b 8 4
        let ct := sub b 128 n
        let plain := (Gcm.encrypt key (sub b 80 12) [] ct).1
        let segs := segmentsOf (field b 6 2) plain
        let good := segs.1.takeWhile (s.segmentIn p)
        let meas := shake256 64 plain
        let ok := (Gcm.decrypt key (sub b 80 12) (b.take 128) ct (sub b (128 + n) 16)).isSome && meas == sub b 16 64 &&
          (Compact.progs j.compact).contains meas && segs.2 && good.length == segs.1.length
        let s := good.foldl (fun s g => s.putSegment p g (!ok)) s
        if ok then (s.modPart p fun x => { x with job := some { j with mprog := shake256 64 (j.mprog ++ meas) } }, true) else (s, false)

/-- Start every tile of the partition at the entry slot (R59, R343). -/
def startRun (s : State) (p : PartId) (c : Cmd) : State :=
  let s := s.modPart p fun x => { x with run := some c.seq, runStop := none, runEnd := none, regAtRun := s.tiles[s.firstTile p].reg }
  (s.tilesOf p).foldl (fun s t => s.modTile t fun x =>
    ({ x with running := true, loops := [], step := c.arg1, atEnd := false, reported := false, stopped := none, marked := false,
              mark := [], nextOp := 0, ops := [], kept := none, prevPass := none, seqs := [], rlog := [], overflowed := [],
              replayed := [], regUsed := [], regSteps := [] } : Tile).goto (c.arg0, [])) s

-- Copies and bindings (R345-R347, R379).

/-- A COPY's device address and length (R347). -/
def copyPlaceOk (s : State) (p : PartId) (c : Cmd) : Bool :=
  let a := c.arg1
  let len := c.arg2
  let r := s.keyRange p
  a % 512 == 0 && bits a 55 41 == 0 && decide (r.1 ≤ a / 2 ^ 56) && decide (a / 2 ^ 56 < r.1 + r.2) && len % 512 == 0 && decide (512 ≤ len) &&
    s.ownTile (some p) (bits a 40 35) && decide (bits a 34 0 + len ≤ 0x7DB000000)

/-- The compact releases a key index to contributor slot c (R379). -/
def releasedTo (k : Bytes) (kidx c : Nat) : Bool :=
  (Compact.rels k).any (fun r => byteAt r 0 == kidx && bit (field r 8 8) c) || (kidx == Compact.lkidx k && bit (Compact.lrec k) c)

/-- A COPY of the partition is under way on the stream, or another of its transfers. -/
def streamBusy (s : State) (p : PartId) (sid : Nat) : Bool :=
  s.parts[p].copies.any (·.sid == sid) ||
    (s.tilesOf p).any (fun t => s.tiles[t].ops.any fun o => hostDma o.desc && (DmaDesc.parse o.desc).sid == sid) ||
    (s.parts[p].fuller.ckpt.any fun c => c.buddy.isNone && c.sid == sid) ||
    (s.parts[p].fuller.restore.any fun c => c.buddy.isNone && c.sid == sid)

/-- A copy's first record. -/
def newCopy (c : Cmd) (toDevice : Bool) (epoch : Nat) : Copy :=
  let n := ceilDiv c.arg2 4096
  let i := c.arg0 / 2 ^ 32
  { seq := c.seq, toDevice := toDevice, sid := c.arg0 % 2 ^ 32, keyid := c.arg1 / 2 ^ 56,
    tile := ⟨bits c.arg1 40 35 % 64, Nat.mod_lt _ (by decide)⟩, ofs := bits c.arg1 34 0, chunk0 := i, chunk := i, chunkEnd := i + n,
    len := c.arg2, epoch := epoch, buf := [], failed := false }

/-- COPY_IN starts (R347): its chunks are asked for. -/
def startCopyIn (s : State) (p : PartId) (c : Cmd) (st : Stream) : State :=
  let k := newCopy c true st.epoch
  let s := s.modPart p fun x => { x with copies := x.copies ++ [k] }
  (List.range (k.chunkEnd - k.chunk0)).foldl (fun s j => s.askChunk p st (k.chunk0 + j) (.copy c.seq)) s

/-- COPY_OUT starts (R347): its granules are read. One that writes chunk 0 while HW is above 0 has waited for every earlier copy
of the stream, and opens the new epoch here (R222, R223). -/
def startCopyOut (s : State) (p : PartId) (c : Cmd) (st : Stream) : State :=
  let opens : Bool := decide (c.arg0 / 2 ^ 32 = 0 ∧ 0 < st.hwD)
  let epoch := if opens then st.epochD + 1 else st.epochD
  let k := newCopy c false epoch
  let s := s.modPart p fun x => { x with copies := x.copies ++ [k] }
  let s := s.modStream p k.sid fun st =>
    { st with hwD := k.chunkEnd, epochD := epoch, epoch := if opens then epoch else st.epoch, hw := if opens then 0 else st.hw }
  (s.addReqs k.tile ((List.range (k.len / 512)).map fun j => ⟨k.ofs / 512 + j, k.keyid, .copy c.seq, 0, 512, none, [], 512 * j, false, false, (k.ofs / 512 + j, 1)⟩))

/-- The next Copy-class command of one MODE and, for a COPY, one opcode. -/
def nextCopy (s : State) (p : PartId) (mode : Nat) (opc : Option Nat) : Option InFlight :=
  (s.startable (some p) .copy).filter fun e => e.cmd.mode == mode && (opc.isNone || opc == some e.cmd.opc)

/-- Start a command and end it at once. -/
def endNow (s : State) (p : PartId) (seq : Nat) (r : Result) : State := (s.start (some p) false seq).complete (some p) false seq r

/-- The BINDs or UNBINDs that have started and wait, in SEQ order. -/
def waitingBinds (s : State) (p : PartId) (mode : Nat) : List InFlight :=
  (s.mains (some p)).filter fun e => clsOf e == .copy && e.cmd.mode == mode && e.started.isSome && e.ends.isNone

/-- The BIND or UNBIND to go on with: the first of those waiting that need wait no longer, else the one whose turn it is to
start, up to 4 copies running (R328). -/
def nextBind (s : State) (p : PartId) (mode : Nat) (ready : InFlight → Bool) : Option InFlight :=
  match (s.waitingBinds p mode).find? ready with
  | some e => some e
  | none => s.nextCopy p mode none

/-- A BIND's SID keeps R346 and R414. -/
def sidOk (s : State) (p : PartId) (c : Cmd) (j : Job) : Bool :=
  let sid := c.arg0 % 2 ^ 32
  sid / 2 ^ 16 == s.me && bits sid 15 13 == p.val && (s.stream p sid).isNone && decide (bits c.arg0 47 40 ≤ 0x40) &&
    (bit c.arg0 48 || decide (j.sidNext ≤ sid % 2 ^ 13))

/-- The ceiling a BIND needs, where it lies above the one in force (R414). -/
def sidNeeds (c : Cmd) (j : Job) : Option Nat :=
  let n := c.arg0 % 2 ^ 13
  if bit c.arg0 48 || decide (n < j.sidCeil) then none else some ((n / 1024 + 1) * 1024)

/-- The lowest free index of the partition's share of the stream table (R221). -/
def freeStream (s : State) (p : PartId) : Option Nat :=
  (List.range (2048 / max 1 s.npart)).find? fun i => !s.parts[p].streams.any (·.1 == i)

/-- Bind a stream-table entry (R345, R346). -/
def bindStream (s : State) (p : PartId) (c : Cmd) (j : Job) : State :=
  let sid := c.arg0 % 2 ^ 32
  let ksrc := bits c.arg0 47 40
  let preset := bit c.arg0 48
  let fin (s : State) (r : Result) : State := s.complete (some p) false c.seq r
  if ksrc ≠ 0 ∧ (j.imports.any (·.1 + 1 == ksrc)) = false then fin s { status := stRefused }
  else
    match s.freeStream p with
    | none => fin s { status := stNores }
    | some i =>
      let lim := c.arg3 / 2 ^ 32
      let hw := if preset then lim else 0
      let st : Stream :=
        { sid := sid, preset := preset, owner := bits c.arg0 39 32, ksrc := ksrc, dbase := c.arg1, tbase := c.arg2, epoch := 0,
          hw := hw, limit := lim, hwD := hw, epochD := 0, ended := false }
      let s := s.modPart p fun x =>
        { x with streams := x.streams.filter (decide <| ·.1 < i) ++ (i, st) :: x.streams.filter (decide <| i < ·.1),
                 job := x.job.map fun j => { j with sidNext := max j.sidNext (sid % 2 ^ 13 + 1) } }
      fin s { status := stOk, result := i }

end State

end Sys2Proof.Machine
end

