-- ==== Sys2Proof/Machine/Fuller.lean ====
section
/-! DEFINITION. The checkpoint engine: plans, the log, the copy, the trailer, and the end of a checkpoint (R390-R407). -/

namespace Sys2Proof.Machine

/-- Parse a plan (R390); none where MAGIC, NREG, BUDLEN or a reserved field is wrong (R391). -/
def Plan.parse (b : Bytes) : Option Plan :=
  let n := byteAt b 4
  let ent (i : Nat) : Bytes := sub b (64 + 16 * i) 16
  let regs := (List.range n).map ent
  if sub b 0 4 == ascii "EZCK" && decide (1 ≤ n) && decide (n ≤ 252) && zeroRange b 5 3 && zeroRange b 32 32 && field b 28 4 % 8 == 0 &&
      regs.all (fun e => decide (byteAt e 1 ≤ 2) && zeroRange e 3 1 && zeroRange e 12 4 && decide (1 ≤ field e 8 4) &&
        (byteAt e 1 == 1 || byteAt e 2 == 0)) then
    some { regions := regs.map fun e => ⟨byteAt e 0, byteAt e 1, byteAt e 2, field e 4 4, field e 8 4⟩
           bmofs := field b 8 4, bmlen := field b 12 4, capofs := field b 16 4, caplen := field b 20 4
           budofs := field b 24 4, budlen := field b 28 4 }
  else none

/-- Granules of a tile's data window (R168). -/
def windowGranules : Nat := 0x7DB000000 / 512

/-- No two of these ranges overlap. -/
def apart : List (Nat × Nat) → Bool
  | [] => true
  | r :: rs => rs.all (fun q => !overlaps r q) && apart rs

/-- This member's part of a REPL region: first granule within it and number (R392). -/
def replPart (c : Bytes) (me : Nat) (r : Region) : Nat × Nat :=
  match Compact.grpOf c r.gidx with
  | none => (0, 0)
  | some g =>
    let n (d : Nat) : Nat := (Compact.grpLine c g d).length
    let pos (d : Nat) : Nat := ((Compact.grpLine c g d).filter (decide <| · < coordDim me d)).length
    let rank := pos 0 + n 0 * (pos 1 + n 1 * (pos 2 + n 2 * pos 3))
    let q := ceilDiv r.len (n 0 * n 1 * n 2 * n 3)
    (rank * q, min ((rank + 1) * q) r.len - rank * q)

/-- What a tile copies of a region: first granule and number (R392). -/
def copyPart (c : Bytes) (me : Nat) (host : Bool) (r : Region) : Nat × Nat :=
  if host && r.rclass == 1 then let x := replPart c me r; (r.ofs + x.1, x.2) else (r.ofs, r.len)

/-- R391 but for the form of the fields. -/
def Plan.ok (pl : Plan) (c : Bytes) (me keys : Nat) (host : Bool) : Bool :=
  let rs := (pl.regions.map fun r => (r.ofs, r.len)) ++ [(pl.bmofs, pl.bmlen), (0, 8)] ++
    (if pl.caplen = 0 then [] else [(pl.capofs, pl.caplen)]) ++ (if pl.budlen = 0 then [] else [(pl.budofs, pl.budlen)])
  rs.all (fun r => decide (r.1 + r.2 ≤ windowGranules)) && apart (rs.filter (·.2 != 0)) &&
    pl.regions.all (fun r => decide (r.kidx < keys) &&
      (r.rclass != 1 || match Compact.grpOf c r.gidx with | some g => Compact.grpMember c g me | none => false)) &&
    decide (ceilDiv ((pl.regions.map fun r => (copyPart c me host r).2).foldl (· + ·) 0) 4096 ≤ pl.bmlen)

-- Index entries (R398).
def ckEnt (type kidx tile ofs bytes btag bkind : Nat) : Bytes :=
  leBytes 1 type ++ leBytes 1 kidx ++ leBytes 1 tile ++ [0] ++ leBytes 4 ofs ++ leBytes 4 bytes ++ leBytes 2 btag ++ leBytes 1 bkind ++ [0]

/-- The units of a record (R397). -/
def recordUnits (type kidx tile ofs btag bkind : Nat) (bs : Bytes) : List CkUnit :=
  (List.range (ceilDiv bs.length 512)).map fun i =>
    ⟨if i = 0 then ckEnt type kidx tile ofs bs.length btag bkind else ckEnt 4 kidx tile ofs 0 0 0, fit 512 (sub bs (512 * i) 512)⟩

/-- A chunk of the log: seven index entries, then seven units (R396). -/
def ckChunk (us : List CkUnit) : Bytes :=
  let seven := us ++ List.replicate (7 - us.length) ⟨zeros 16, zeros 512⟩
  (seven.map (·.ent)).flatten ++ zeros 400 ++ (seven.map (·.data)).flatten

/-- The panel of a stash record converted to ZW16 as a VEC conversion (R407): the new record. -/
def narrowRecord (full : Bytes) : Bytes :=
  let h := PHdr.parse full
  let vals := (dataElems .b32 h.rows h.cols (full.drop 64)).map (·.map B32.dec)
  let pc := convPanel .zw16 .rne true 0 (fun _ _ => 0) vals
  let h1 := { h with fmt := Fmt.zw16.code, flags := h.flags ||| flNarw ||| (if pc.ovf || pc.satInf || pc.fp.ovf then flSat else 0) }
  stashRecord h1.bytes ((panelOut h1 .zw16 pc.rows []).drop 64)

/-- Insert a pair in ascending order of its first part. -/
def insPair (x : Nat × Nat) : List (Nat × Nat) → List (Nat × Nat)
  | [] => [x]
  | y :: ys => if x.1 ≤ y.1 then x :: y :: ys else y :: insPair x ys

/-- Digest of the captured keys (R401), in ascending BTAG. -/
def capDigest (caps : List (Nat × Nat)) : Bytes :=
  shake256 64 (((caps.foldr insPair []).map fun c => leBytes 2 c.1 ++ leBytes 1 c.2).flatten)

/-- The trailer chunk (R401). -/
def Trailer.bytes (t : Trailer) : Bytes :=
  fit 4096 (ascii "EZCT" ++ leBytes 2 1 ++ leBytes 2 t.job ++ leBytes 4 t.ckno ++ leBytes 6 t.step ++ leBytes 2 t.coord ++
    leBytes 1 t.pidx ++ leBytes 1 (t.narw.toNat + 2 * t.buddy.toNat) ++ leBytes 2 t.entry ++ leBytes 8 t.nchunk ++ leBytes 8 t.nunit ++
    leBytes 8 t.lossn ++ t.mcomp ++ t.capd ++ t.pland)

def Trailer.parse (b : Bytes) : Option Trailer :=
  if sub b 0 4 == ascii "EZCT" && field b 4 2 == 1 then
    some { job := field b 6 2, ckno := field b 8 4, step := field b 12 6, coord := field b 18 2, pidx := byteAt b 20
           narw := bit (byteAt b 21) 0, buddy := bit (byteAt b 21) 1, entry := field b 22 2, nchunk := field b 24 8
           nunit := field b 32 8, lossn := field b 40 8, mcomp := sub b 48 64, capd := sub b 112 64, pland := sub b 176 64 }
  else none

namespace State

def modFuller (s : State) (p : PartId) (f : Fuller → Fuller) : State := s.modPart p fun x => { x with fuller := f x.fuller }

def modCkpt (s : State) (p : PartId) (f : Ckpt → Ckpt) : State := s.modFuller p fun x => { x with ckpt := x.ckpt.map f }

/-- KEYID of key index 0. -/
def key0 (s : State) (p : PartId) : Nat := (s.keyRange p).1

/-- Discard a checkpoint's copy state: held writes go on, the tiles are released (R406). -/
def dropCkpt (s : State) (p : PartId) : State :=
  let s := (s.tilesOf p).foldl (fun s t => s.modSlice t fun x =>
    { x with copying := [], reqs := (x.reqs.filter (·.owner != .checkpoint)).map fun r => { r with held := false } }) s
  let s := (s.dropRequests (some p) .checkpoint).releaseMarks p
  s.modFuller p fun f => { f with ckpt := none }

/-- End a checkpoint before its trailer (R405, R406). -/
def failCkpt (s : State) (p : PartId) (status : Nat) : State :=
  match s.parts[p].fuller.ckpt with
  | none => s
  | some c => (s.dropCkpt p).complete (some p) false c.seq { status := status }

/-- The CHECKPOINT is done: its command completes with NCHUNK (R402). -/
def endCkpt (s : State) (p : PartId) (c : Ckpt) : State :=
  (s.modFuller p fun f => { f with ckpt := none }).complete (some p) false c.seq { status := stOk, result := c.chunks + 1 }

/-- A host checkpoint whose trailer has been issued is done (R402). -/
def trailerIssued (s : State) (p : PartId) : State :=
  match s.parts[p].fuller.ckpt with
  | some c => if c.trailerSent && c.buddy.isNone && !s.hostBusy (some p) .checkpoint then s.endCkpt p c else s
  | none => s

/-- Send one whole chunk of the log on its way; the log fails at LIMIT (R403). -/
def emitChunk (s : State) (p : PartId) (bs : Bytes) : State :=
  match s.parts[p].fuller.ckpt with
  | none => s
  | some c =>
    match c.buddy with
    | some b => (s.sendFuller p b c.seq (.chunk (BitVec.ofNat 32 c.ckno) c.chunks false bs)).modCkpt p fun c => { c with chunks := c.chunks + 1 }
    | none =>
      match s.stream p c.sid with
      | none => s.failCkpt p stFailed
      | some st =>
        if st.2.limit ≤ c.chunks then s.failCkpt p stFailed
        else
          ((s.postChunk p st.2 st.2.epoch c.chunks bs .checkpoint (c.chunks + 1)).modStream p c.sid fun x => { x with hwD := x.hwD + 1 }).modCkpt p
            fun c => { c with chunks := c.chunks + 1 }

/-- Units enter the log; every seven make a chunk (R396). -/
def addUnits (s : State) (p : PartId) : List CkUnit → State
  | [] => s
  | u :: us =>
    match s.parts[p].fuller.ckpt with
    | none => s
    | some c =>
      let seven := c.units ++ [u]
      let s := s.modCkpt p fun c => { c with nunit := c.nunit + 1, units := if seven.length = 7 then [] else seven }
      addUnits (if seven.length = 7 then s.emitChunk p (ckChunk seven) else s) p us

/-- Every unit of the log has entered it. -/
def allIn (c : Ckpt) : Bool := c.frozen && c.left == 0 && c.narrowing.isEmpty && c.capsLeft.isEmpty

/-- Once every unit is in, the last chunk goes out, its unused units EMPTY. -/
def flushUnits (s : State) (p : PartId) : State :=
  match s.parts[p].fuller.ckpt with
  | none => s
  | some c =>
    if allIn c && !c.units.isEmpty then (s.modCkpt p fun c => { c with units := [] }).emitChunk p (ckChunk c.units) else s

/-- The unit of one granule (R398, R399). -/
def granUnit (kidx tile g : Nat) (d : Option Bytes) : CkUnit :=
  match d with
  | some bs => ⟨ckEnt 1 kidx tile g 0 0 0, fit 512 bs⟩
  | none => ⟨ckEnt 2 kidx tile g 0 0 0, zeros 512⟩

/-- The units of a STASH region once all of it is read (R407). -/
def stashUnits (n : Narrowing) : List CkUnit :=
  let r := n.region
  let grans := (List.range r.len).map fun j => (r.ofs + j, ((n.got.find? (·.1 == r.ofs + j)).map (·.2)).getD none)
  let plain := grans.map fun x => granUnit r.kidx n.tile.val x.1 x.2
  let bytes := (grans.map fun x => x.2.getD (zeros 512)).flatten
  let need := ceilDiv (stashNeed (512 * r.len) bytes) 512
  if (grans.take (max 1 need)).any (·.2.isNone) || byteAt bytes 15 != Fmt.b32.code || bit (byteAt bytes 29) 0 then plain
  else
    match expandRecord (64 + field bytes 16 4) bytes with
    | .bytes full => let rec' := narrowRecord full; recordUnits 3 r.kidx n.tile.val r.ofs 0 0 rec'
    | _ => grans.map fun x => granUnit r.kidx n.tile.val x.1 none

/-- Set bit i of a tile's copy bitmap (R400). -/
def setBit (s : State) (p : PartId) (t : TileId) (seq bm i : Nat) : State :=
  let who := some (false, seq)
  let at_ := 512 * bm + i / 8
  let r := s.readRange t (s.key0 p) at_ 1 who
  r.1.writeRange t (s.key0 p) at_ (leBytes 1 (byteAt r.2.1 0 ||| 2 ^ (i % 8))) who

/-- Units enter the log, and with them granules first to first + n - 1 of the tile's plan order: their bits are set, and writes to
them are held no longer (R400). -/
def enterLog (s : State) (p : PartId) (t : TileId) (c : Ckpt) (us : List CkUnit) (first n gran : Nat) : State :=
  let bm := ((c.bms.find? (·.1 == t.val)).map (·.2)).getD 0
  let s := (List.range n).foldl (fun s j => s.setBit p t c.seq bm (first + j)) s
  let s := s.modSlice t fun x => { x with copying := x.copying.filter fun g => !(decide (gran ≤ g) && decide (g < gran + n)) }
  (s.addUnits p us).flushUnits p

/-- Fuller has read a granule: its unit enters the log (R399), or it joins the stash slot being read (R407). -/
def ckGranule (s : State) (p : PartId) (t : TileId) (r : SealReq) (g : GranuleOut) : State :=
  match s.parts[p].fuller.ckpt with
  | none => s
  | some c =>
    let d := if g.psn.isEmpty then some g.data else none
    let s := s.modCkpt p fun c => { c with left := c.left - 1, turn := t.val }
    match c.narrowing.find? fun n => n.tile == t && decide (n.region.ofs ≤ r.gran) && decide (r.gran < n.region.ofs + n.region.len) with
    | none => s.enterLog p t c [granUnit (r.keyid - s.key0 p) t.val r.gran d] r.dest 1 r.gran
    | some n =>
      let n1 : Narrowing := { n with got := (r.gran, d) :: n.got }
      if n1.got.length < n.region.len then
        (s.modCkpt p fun c => { c with narrowing := c.narrowing.map fun m => if m == n then n1 else m }).modSlice t fun x =>
          { x with copying := x.copying ++ [r.gran] }
      else
        (s.modCkpt p fun c => { c with narrowing := c.narrowing.filter (· != n) }).enterLog p t c (stashUnits n1) n.base n.region.len n.region.ofs

/-- A tile's checkpoint requests wait behind a granule that a write is held for. -/
def heldFirst (x : Seal) : Option SealReq :=
  x.reqs.find? fun r => r.owner == .checkpoint && x.reqs.any fun q => q.held && q.gran == r.gran

/-- The tile whose granule Fuller copies next: round-robin by ascending number (R399). -/
def copyTile (s : State) (p : PartId) (last : Nat) : Option TileId :=
  let ts := (s.tilesOf p).filter fun t => s.tiles[t].slice.reqs.any (·.owner == .checkpoint)
  match ts.find? fun t => decide (last < t.val) with
  | some t => some t
  | none => ts.head?

/-- It is the turn of request i of a slice, where it is a checkpoint's (R399, R400): granules that a write is held for come
first, then the tiles in turn, each in plan order. -/
def copyTurn (s : State) (t : TileId) (i : Nat) (r : SealReq) : Bool :=
  if r.owner != .checkpoint then true
  else
    match s.partOf t with
    | none => true
    | some p =>
      let x := s.tiles[t].slice
      let anyHeld := (s.tilesOf p).any fun t => (heldFirst s.tiles[t].slice).isSome
      if anyHeld then heldFirst x == some r
      else
        s.copyTile p ((s.parts[p].fuller.ckpt.map (·.turn)).getD 64) == some t &&
          x.reqs.findIdx? (·.owner == .checkpoint) == some i

/-- The plans of a partition's tiles, as they lie in memory (R390), with the bytes. -/
def readPlans (s : State) (p : PartId) (who : Option (Bool × Nat)) : State × List (TileId × Bytes × Option Plan) :=
  (s.tilesOf p).foldl (fun (acc : State × List (TileId × Bytes × Option Plan)) t =>
    let r := acc.1.readRange t (s.key0 p) 0 4096 who
    (r.1, acc.2 ++ [(t, r.2.1, if r.2.2 then none else Plan.parse r.2.1)])) (s, [])

def planDigest (pls : List (TileId × Bytes × Option Plan)) : Bytes := shake256 64 ((pls.map fun x => x.2.1).flatten)

end State

/-- Tiles of a mask. -/
def maskTiles (m : Nat) : List Nat := (List.range 64).filter (bit m ·)

namespace Bucket

/-- Some contribution of this member has started (R395). -/
def started (b : Bucket) : Bool := b.contribs.any fun c => decide (0 < c.rows) || !c.bytes.isEmpty

/-- Every contribution from this member's CMASK tiles is complete (R289, R395). -/
def complete (b : Bucket) : Bool :=
  if b.bkind = 3 then b.cmask == 0 || (b.contribs.map (·.bytes.length)).foldl (· + ·) 0 == 64 * b.trows
  else (maskTiles b.cmask).all fun t => b.contribs.any fun c => c.tile == t && c.rows == b.trows

/-- Delivered to every tile of RMASK. -/
def delivered (b : Bucket) : Bool := (maskTiles b.rmask).all (b.gone.contains ·)

end Bucket

end Sys2Proof.Machine
end

