-- ==== Sys2Proof/Machine/Fold.lean ====
section
/-! DEFINITION. The arithmetic and the order of the carding engine (R288-R300): slices, folds, messages, deliveries. -/

namespace Sys2Proof.Machine

/-- Elements of the largest message, and bytes of the largest MOVE message (R257, R298). -/
def msgElems : Nat := 524272
def msgMoveBytes : Nat := 1048544

-- Values (R291).

/-- Widening w: an element at a SCALE as a binary32 code. -/
def widen (f : Fmt) (S : Int) (code : Nat) : Nat := B32.rnd ((f.decode code).scale S)

/-- Narrowing of a binary32 code to the wire format at SCALE S, with the flags of what went into it. -/
def narrowTo (f : Fmt) (S : Int) (y fl : Nat) : Elem :=
  let c := convert f .rne 0 ((B32.dec y).scale (-S))
  (c.code, fl ||| (if c.isNan then flNanp else 0) ||| (if c.ovf then flSat else 0))

/-- One ring addition of R294. -/
def foldElem (f : Fmt) (Sp Sv : Int) (a b : Elem) : Elem :=
  narrowTo f (max Sp Sv) (B32.add (widen f Sp a.1) (widen f Sv b.1)) (a.2 ||| b.2)

def orFlags (es : List Elem) : Nat := es.foldl (fun a e => a ||| e.2) 0

-- Pieces of the bucket matrix.

/-- Elements a to a + n - 1, where the pieces hold them all, with their SCALE. -/
def takeRange (ps : List Piece) (a n : Nat) : Option (Int × List Elem) :=
  let parts := ps.filterMap fun p =>
    let lo := max a p.first
    let hi := min (a + n) (p.first + p.elems.length)
    if lo < hi then some (p.scale, (p.elems.drop (lo - p.first)).take (hi - lo)) else none
  let es := (parts.map (·.2)).flatten
  if es.length = n then some ((parts.map (·.1)).headD 0, es) else none

/-- Put a piece among the others, ascending; one already held stays. -/
def addPiece (ps : List Piece) (p : Piece) : List Piece :=
  if (takeRange ps p.first p.elems.length).isSome then ps
  else ps.filter (fun q => decide (q.first < p.first)) ++ p :: ps.filter (fun q => decide (p.first < q.first))

/-- Raise flags on every element of a range. -/
def raiseRange (ps : List Piece) (a n fl : Nat) : List Piece :=
  ps.map fun p => { p with elems := p.elems.zipIdx.map fun e =>
    if a ≤ p.first + e.2 ∧ p.first + e.2 < a + n then (e.1.1, e.1.2 ||| fl) else e.1 }

-- Slices (R293, R298).

/-- Slice k of n of a range. -/
def sliceOf (r : Nat × Nat) (n k : Nat) : Nat × Nat :=
  let q := ceilDiv r.2 (128 * n) * 128
  let a := r.1 + k * q
  (a, min (r.1 + r.2) (a + q) - a)

/-- The messages of a slice: first element and count, ascending. -/
def messagesOf (r : Nat × Nat) : List (Nat × Nat) :=
  (List.range (ceilDiv r.2 msgElems)).map fun i => (r.1 + msgElems * i, min msgElems (r.2 - msgElems * i))

namespace Bucket

def wire (b : Bucket) : Fmt := (Fmt.ofCode b.wfmt).getD .b32

def nmem (b : Bucket) (d : Nat) : Nat := (b.ring.getD d []).length

def posIn (b : Bucket) (d : Nat) : Nat := b.pos.getD d 0

/-- Dimensions of the reduce stages in their order (R292). -/
def stageDims (b : Bucket) : List Nat := [3, 2, 1, 0].filter (bit b.dims ·)

def total (b : Bucket) : Nat := b.trows * b.cols

/-- The member's range before each stage, and after the last (R293). -/
def ranges (b : Bucket) : List (Nat × Nat) :=
  b.stageDims.foldl (fun rs d => rs ++ [sliceOf (rs.getLastD (0, 0)) (b.nmem d) (b.posIn d)]) [(0, b.total)]

def range (b : Bucket) (i : Nat) : Nat × Nat := b.ranges.getD i (0, 0)

/-- The member at position k of this member's ring of dimension d. -/
def coordAt (b : Bucket) (me d k : Nat) : Nat := coordSet me d ((b.ring.getD d []).getD k 0)

/-- Contributions expected (R294). -/
def expected (b : Bucket) : Nat :=
  (maskTiles b.cmask).length + (b.stageDims.zipIdx.map fun x =>
    if b.posIn x.1 = 0 then 0
    else ((List.range (b.nmem x.1)).filter fun s => decide (0 < (sliceOf (b.range x.2) (b.nmem x.1) s).2)).length).foldl (· + ·) 0

/-- The local fold (R290): contributions in ascending tile order, narrowed at S_L. -/
def localFold (b : Bucket) : Piece :=
  let cs := (maskTiles b.cmask).filterMap fun t => b.contribs.find? (·.tile == t)
  match cs with
  | [] => ⟨0, 0, []⟩
  | c :: rest =>
    let S := min 127 (c.scale + b.whead)
    let sum := rest.foldl (fun a c => List.zipWith (fun (x y : Elem) => (B32.add x.1 y.1, x.2 ||| y.2)) a c.vals) c.vals
    ⟨0, S, sum.map fun e => narrowTo b.wire S e.1 e.2⟩

/-- A message of the engine (R297). -/
def message (b : Bucket) (mtype dim slice : Nat) (scale : Int) (mflags first count wfmt : Nat) (body : Bytes) : Bytes :=
  leBytes 2 b.tag ++ leBytes 1 mtype ++ leBytes 1 dim ++ leBytes 1 slice ++ leBytes 1 b.att ++ leBytes 1 (unsigned 8 scale) ++
    leBytes 1 mflags ++ leBytes 6 b.step ++ leBytes 1 wfmt ++ [0] ++ leBytes 4 first ++ leBytes 4 count ++ zeros 8 ++ body

def elemMessage (b : Bucket) (mtype dim slice first : Nat) (scale : Int) (es : List Elem) : Bytes :=
  b.message mtype dim slice scale (orFlags es % 8) first es.length b.wfmt ((es.map fun e => leBytes 2 e.1).flatten)

def marker (b : Bucket) (mtype dim : Nat) : Bytes := b.message mtype dim 0 0 0 0 0 0 []

/-- Final values enter the member's range after stage i, and after the last stage the result. -/
def putStage (b : Bucket) (i : Nat) (p : Piece) : Bucket :=
  let b := { b with stages := b.stages.modify i (addPiece · p) }
  if i = b.stageDims.length then { b with result := addPiece b.result p } else b

/-- PARTIALs of position 0 that can go (R294). -/
def sendPartials (b : Bucket) (me : Nat) : Bucket × List (Nat × Bytes) :=
  (b.stageDims.zipIdx.filter fun x => b.posIn x.1 == 0).foldl (fun (acc : Bucket × List (Nat × Bytes)) x =>
    let d := x.1
    let i := x.2
    let ms := (List.range (b.nmem d)).flatMap fun sl => (messagesOf (sliceOf (b.range i) (b.nmem d) sl)).map fun m => (sl, m)
    ms.foldl (fun (acc : Bucket × List (Nat × Bytes)) y =>
      if acc.1.sent.contains (0, d, y.2.1) then acc
      else
        match takeRange (acc.1.stages.getD i []) y.2.1 y.2.2 with
        | none => acc
        | some v =>
          ({ acc.1 with sent := acc.1.sent ++ [(0, d, y.2.1)] }, acc.2 ++ [(b.coordAt me d 1, b.elemMessage 1 d y.1 y.2.1 v.1 v.2)])) acc)
    (b, [])

/-- GATHERs of the slices this member owns that can go (R295), X first. -/
def sendGathers (b : Bucket) (me : Nat) : Bucket × List (Nat × Bytes) :=
  b.stageDims.zipIdx.reverse.foldl (fun (acc : Bucket × List (Nat × Bytes)) x =>
    let d := x.1
    let k := b.posIn d
    (messagesOf (b.range (x.2 + 1))).foldl (fun (acc : Bucket × List (Nat × Bytes)) m =>
      if acc.1.sent.contains (2, d, m.1) then acc
      else
        match takeRange acc.1.result m.1 m.2 with
        | none => acc
        | some v =>
          let msg := b.elemMessage 3 d k m.1 v.1 v.2
          ({ acc.1 with sent := acc.1.sent ++ [(2, d, m.1)], result := raiseRange acc.1.result m.1 m.2 (orFlags v.2 % 8) },
            acc.2 ++ (if k + 1 < b.nmem d then [(b.coordAt me d (k + 1), msg)] else []) ++
              (if 0 < k then [(b.coordAt me d (k - 1), msg)] else []))) acc) (b, [])

-- Deliveries (R299, R300, R308, R310).

/-- Result panels of a matrix of elements. -/
def resultPanels (b : Bucket) (f : Fmt) (scale : Int) (es : List Elem) : List Bytes :=
  (List.range (ceilDiv b.trows 256)).map fun i =>
    let n := min 256 (b.trows - 256 * i)
    let part := (es.drop (256 * i * b.cols)).take (n * b.cols)
    let h : PHdr := ⟨f.code, scale, b.tensor, b.tag, n, b.cols, orFlags part % 8, 0xFF, b.step⟩
    panelOut h f (chunksOf b.cols n (part.map (·.1))) []

/-- The flags of a status panel: SKIP under SKIPSTEP where NANP or POIS is set (R300). -/
def statusFlags (b : Bucket) (fl : Nat) : Nat :=
  let fl := fl % 8
  if b.npol = 1 ∧ (bit fl 0 ∨ bit fl 2) then fl + flSkip else fl

def statusPanel (b : Bucket) (fl : Nat) : Bytes :=
  fit 128 (PHdr.bytes ⟨Fmt.b32.code, 0, b.tensor, b.tag, 1, 1, b.statusFlags fl, 0xFF, b.step⟩)

end Bucket

/-- Cut a run of panels laid out one after another into panels. A block format's panel may be laid out as an activation or as a
weight panel (R57): the first reading that divides the whole run is taken. -/
def cutPanels : Nat → Bytes → Option (List Bytes)
  | 0, bs => if bs.isEmpty then some [] else none
  | n + 1, bs =>
    if bs.isEmpty then some []
    else
      let h := PHdr.parse bs
      match Fmt.ofCode h.fmt with
      | none => none
      | some f =>
        let try_ (size : Nat) : Option (List Bytes) :=
          if bs.length < size then none else (cutPanels n (bs.drop size)).map fun r => bs.take size :: r
        let a := panelBytes f false h.rows h.cols
        let w := panelBytes f true h.rows h.cols
        (try_ a).orElse fun _ => if a = w then none else try_ w

def panelsIn (bs : Bytes) : List Bytes := (cutPanels (bs.length / 64 + 1) bs).getD [bs]

namespace Bucket

/-- What the bucket delivers to a tile, once it holds all of it: panels, the status panel last; and whether it is poisoned. -/
def delivery (b : Bucket) (tile : Nat) : Option (List Bytes × Bool) :=
  match b.held with
  | some h =>
    match h.find? (·.1 == tile) with
    | some x => some (panelsIn x.2.1, x.2.2)
    | none => some ([], false)
  | none =>
    if b.bkind = 3 then
      if b.moved.length = 64 * b.trows then
        some ((panelsIn b.moved).map (fun p => patch p 6 [0xFF]) ++ [b.statusPanel b.movedFl], false)
      else none
    else
      (takeRange b.result 0 b.total).map fun v =>
        (b.resultPanels (if b.bkind = 2 then .b32 else b.wire) v.1 v.2 ++ [b.statusPanel (orFlags v.2)], false)

/-- The SKIP a REDUCE reports (R302, R412). -/
def skips (b : Bucket) : Bool :=
  match b.held with
  | some h => h.any fun x => !x.2.2 && bit (byteAt (x.2.1.drop (x.2.1.length - 128)) 7) 3
  | none =>
    if b.bkind = 3 then false
    else match takeRange b.result 0 b.total with
      | some v => bit (b.statusFlags (orFlags v.2)) 3
      | none => false

/-- Everything received and folded: BSTATE (R284). -/
def stateNow (b : Bucket) : BState :=
  if b.bstate == .failed then .failed
  else if (maskTiles b.rmask).all (b.gone.contains ·) && b.rmask != 0 then .marking
  else if b.bkind == 1 && (takeRange b.result (b.range b.stageDims.length).1 (b.range b.stageDims.length).2).isSome &&
      (b.stages.getLastD []) != [] then .gathering
  else if b.contribs.isEmpty && b.arrc == 0 && b.moved.isEmpty then .waiting
  else .folding

/-- Markers that can go now (R301). -/
def sendMarkers (b : Bucket) (me : Nat) : Bucket × List (Nat × Bytes) :=
  if b.bkind ≠ 1 ∨ !b.delivered then (b, [])
  else
    b.stageDims.foldl (fun (acc : Bucket × List (Nat × Bytes)) d =>
      let k := b.posIn d
      let n := b.nmem d
      if acc.1.sent.contains (3, d, 0) then acc
      else if k = 0 then ({ acc.1 with sent := acc.1.sent ++ [(3, d, 0)] }, acc.2 ++ [(b.coordAt me d 1, b.marker 4 d)])
      else if !acc.1.mkup.contains d then acc
      else if k + 1 < n then ({ acc.1 with sent := acc.1.sent ++ [(3, d, 0)] }, acc.2 ++ [(b.coordAt me d (k + 1), b.marker 4 d)])
      else
        ({ acc.1 with sent := acc.1.sent ++ [(3, d, 0)], mkdn := acc.1.mkdn ++ [d] }, acc.2 ++ [(b.coordAt me d (k - 1), b.marker 5 d)]))
      (b, [])

/-- The bytes of a MOVE source in the order they go (R310), and the length and flags of its panels. -/
def moveBytes (b : Bucket) : Bytes × List Elem :=
  let cs := (maskTiles b.cmask).filterMap fun t => b.contribs.find? (·.tile == t)
  ((cs.map (·.bytes)).flatten, (cs.map (·.vals)).flatten)

/-- MFLAGS of the bytes a to a + n - 1 of a move: those of every panel they touch. -/
def moveFlags (ps : List Elem) (a n : Nat) : Nat :=
  (ps.foldl (fun (acc : Nat × Nat) p =>
    (acc.1 + p.1, if acc.1 < a + n ∧ a < acc.1 + p.1 then acc.2 ||| p.2 else acc.2)) (0, 0)).2 % 8

/-- The messages of a MOVE source, once all its bytes are here. -/
def sendMoves (b : Bucket) : Bucket × List (Nat × Bytes) :=
  if b.bkind ≠ 3 ∨ b.cmask = 0 ∨ b.held.isSome ∨ b.sent.contains (5, 0, 0) ∨ !b.complete then (b, [])
  else
    let m := b.moveBytes
    ({ b with sent := b.sent ++ [(5, 0, 0)] },
      (List.range (ceilDiv m.1.length msgMoveBytes)).map fun i =>
        let a := msgMoveBytes * i
        let bs := sub m.1 a msgMoveBytes
        (b.peer, b.message 6 0 0 0 (moveFlags m.2 a bs.length) a bs.length 0 bs))

/-- Everything the entry can do without another input: the local fold, and what it sends (R296). -/
def work (b : Bucket) (me : Nat) : Bucket × List (Nat × Bytes) :=
  let b := if b.bkind = 1 ∧ b.held.isNone ∧ b.complete ∧ (b.stages.getD 0 []).isEmpty then b.putStage 0 b.localFold else b
  let a := b.sendPartials me
  let g := a.1.sendGathers me
  let m := g.1.sendMoves
  let k := m.1.sendMarkers me
  ({ k.1 with bstate := k.1.stateNow }, a.2 ++ g.2 ++ m.2 ++ k.2)

/-- The entry has work outstanding and waits for the ring (R312): not for its own tiles' SENDs and RECVs. -/
def waitsRing (b : Bucket) : Bool :=
  b.held.isNone && b.bkind != 2 && b.complete &&
    (if b.bkind = 3 then decide (b.rmask = 0) || b.moved.length != 64 * b.trows
     else (takeRange b.result 0 b.total).isNone || (b.delivered && b.dims != 0))

/-- Words of its buffers in error, with the number of bits (R281). -/
def bufErrs (b : Bucket) : List (Nat × Nat) := (b.contribs.map (·.errs)).flatten

end Bucket

/-- Words with more than one bit in error: SECDED cannot correct them (R281). -/
def uncorrectable (errs : List (Nat × Nat)) : List Nat := (errs.filter fun e => decide (2 ≤ e.2)).map (·.1)

/-- A contribution as its buffer gives it (R281, R306): what an uncorrectable word holds is +0, or zero bytes, with POIS. -/
def Contribution.read (c : Contribution) (move : Bool) : Contribution :=
  let dead := uncorrectable c.errs
  if move then
    { c with errs := [], bytes := c.bytes.zipIdx.map fun x => if dead.contains (x.2 / 8) then 0 else x.1,
             vals := (c.vals.foldl (fun (acc : Nat × List Elem) v =>
               (acc.1 + v.1, acc.2 ++ [if dead.any fun w => decide (8 * w < acc.1 + v.1) && decide (acc.1 < 8 * w + 8) then (v.1, v.2 ||| flPois) else v]))
               (0, [])).2 }
  else { c with errs := [], vals := c.vals.zipIdx.map fun x => if dead.contains (x.2 / 2) then (0, x.1.2 ||| flPois) else x.1 }

namespace State

/-- A frame that the entry must send has no credit (R312). -/
def noCredit (s : State) (p : Nat) (b : Bucket) : Bool :=
  s.ports.toList.any fun o => o.txq.any fun f => f.part == p && f.own == b.seq && decide (64 ≤ o.spent.getD (pvIdx p f.vc) 0)

/-- The entry waits (R312): for an input from the ring, or for the credit of a frame it must send. -/
def bucketWaits (s : State) (p : Nat) (b : Bucket) : Bool := b.waitsRing || s.noCredit p b

/-- Waits begin and end as frames go and credits come back (R312). -/
def refreshWaits (s : State) : State :=
  { s with parts := Vector.ofFn fun p : PartId =>
      let x := s.parts[p]
      { x with card := { x.card with table := x.card.table.map fun b =>
          match b.since, s.bucketWaits p.val b with
          | none, true => { b with since := some s.clocks.carding }
          | some _, false => b.endWait s.clocks.carding
          | _, _ => b } } }

end State

end Sys2Proof.Machine
end

