-- ==== Sys2Proof/Machine/Ring.lean ====
section
/-! DEFINITION. Frames of the ring ports (R244-R276): their layout and seals, sending in slots, credits, replay, reception,
reassembly and parking. -/

namespace Sys2Proof.Machine

/-- The fields of a route header (R247). -/
structure Hdr where
  kind : Nat
  vc : Nat
  som : Bool
  eom : Bool
  nak : Bool
  hop : Bool
  dst : Nat
  src : Nat
  part : Nat
  sport : Nat
  slot : Nat
  job : Nat
  fseq : Nat
  ack : Nat
  cret : List Nat
  eseq : Nat
  deriving DecidableEq, Repr

namespace Hdr

/-- The 24 header bytes in clear. -/
def bytes (h : Hdr) : Bytes :=
  leBytes 1 h.kind ++ leBytes 1 (h.vc + 4 * h.som.toNat + 8 * h.eom.toNat + 16 * h.nak.toNat + 32 * h.hop.toNat) ++ leBytes 2 h.dst ++
    leBytes 2 h.src ++ leBytes 1 (h.part + 8 * h.sport) ++ leBytes 1 h.slot ++ leBytes 2 h.job ++ leBytes 3 (h.fseq + 4096 * h.ack) ++
    ((List.range 4).map fun v => BitVec.ofNat 8 (h.cret.getD v 0)) ++ leBytes 7 h.eseq

def parse (b : Bytes) : Hdr :=
  let fl := byteAt b 1
  { kind := byteAt b 0, vc := fl % 4, som := bit fl 2, eom := bit fl 3, nak := bit fl 4, hop := bit fl 5, dst := field b 2 2,
    src := field b 4 2, part := byteAt b 6 % 8, sport := byteAt b 6 / 8 % 8, slot := byteAt b 7, job := field b 8 2,
    fseq := field b 10 3 % 4096, ack := field b 10 3 / 4096, cret := (List.range 4).map fun v => byteAt b (13 + v), eseq := field b 17 7 }

end Hdr

/-- The eight lane slices of a frame (R244): lane i carries bytes 38i to 38i + 37. -/
def laneSlices (frame : Bytes) : List Bytes := (List.range 8).map fun i => sub frame (38 * i) 38

/-- The IV of a frame sent from the D+ end (or the D- end) as frame n of its direction (R250). -/
def linkIv (plusEnd : Bool) (n : Nat) : Bytes := [if plusEnd then 0 else 1, 0, 0, 0] ++ beBytes 8 n

/-- Key, IV and additional data of an end-to-end payload (R251). -/
def ringKey (link : Bytes) (job : Nat) : Bytes := shake256 32 (link ++ ascii "EZM6410 RING" ++ beBytes 2 job)

def endIv (src pinfo vc eseq : Nat) : Bytes := beBytes 2 src ++ beBytes 1 pinfo ++ beBytes 1 vc ++ beBytes 7 eseq ++ [0]

def endAad (dst src pinfo flags job eseq : Nat) : Bytes :=
  beBytes 2 dst ++ beBytes 2 src ++ beBytes 1 pinfo ++ beBytes 1 flags ++ beBytes 2 job ++ beBytes 7 eseq ++ [0]

namespace Frame

def pinfo (f : Frame) : Nat := f.part + 8 * f.sport

def low (f : Frame) : Nat := f.vc + 4 * f.som.toNat + 8 * f.eom.toNat

/-- Seal an injected frame end to end at its source (R251, R255); a hop-sealed one stays in clear here. -/
def sealed (f : Frame) (link : Bytes) (eseq : Nat) : Frame :=
  if f.hop then { f with eseq := some eseq }
  else
    let c := Gcm.encrypt (ringKey link f.job) (endIv f.src f.pinfo f.vc eseq) (endAad f.dst f.src f.pinfo f.low f.job eseq) f.payload
    { f with eseq := some eseq, payload := c.1, ptag := c.2 }

/-- Open an end-to-end payload at its destination; none where PTAG fails. -/
def opened (f : Frame) (link : Bytes) : Option Bytes :=
  let e := f.eseq.getD 0
  Gcm.decrypt (ringKey link f.job) (endIv f.src f.pinfo f.vc e) (endAad f.dst f.src f.pinfo f.low f.job e) f.payload f.ptag

end Frame

/-- The key of a VC0 or VC1 message (R285, R297): JOB, TAG, STEP, ATT. -/
def Msg.key (m : Msg) : Nat × Nat × Nat × Nat := (m.job, field m.data 0 2, field m.data 8 6, byteAt m.data 5)

namespace Carding

def live (c : Carding) (k : Nat × Nat × Nat × Nat) : Bool := c.table.any (·.key == k)

/-- Frames in the parking store (R303). -/
def parked (c : Carding) : Nat :=
  ((c.msgs.filter fun m => !m.skip && !c.live m.key).map (·.frames)).foldl (· + ·) 0

/-- A frame of VC0 or VC1 is taken, if there is room for it (R257, R303). A message whose first frame is poisoned has no
readable key and is dropped, as is one of a discarded key. -/
def take (c : Carding) (cap : Nat) (f : Frame) (bad : Bool) : Option Carding :=
  let rest := c.msgs.filter fun m => !(m.src == f.src && m.vc == f.vc && !m.whole)
  let put (m : Msg) : Carding := { c with msgs := if m.whole && m.skip then rest else rest ++ [m] }
  match (c.msgs.find? fun m => m.src == f.src && m.vc == f.vc && !m.whole).filter fun _ => !f.som with
  | some m =>
    if m.skip then some (put { m with whole := f.eom })
    else if !c.live m.key && decide (cap < c.parked + 1) then none
    else some (put { m with data := m.data ++ f.payload, bad := if bad then m.bad ++ [m.frames] else m.bad, frames := m.frames + 1,
                            whole := f.eom })
  | none =>
    if !f.som then some c
    else
      let m : Msg := ⟨f.src, f.vc, f.job, f.payload, [], 1, f.eom, false, []⟩
      if bad || c.dead.contains m.key then some (put { m with skip := true })
      else if !c.live m.key && decide (cap < c.parked + 1) then none
      else some (put m)

end Carding

namespace Part

/-- A whole message for the Jewel or for Fuller: what its parser reads. One with a poisoned payload brings the Jewel nothing, and
reaches Fuller as poisoned. -/
def hand (x : Part) (m : Msg) : Part :=
  if m.vc = 2 then
    { x with inbox2 := if m.bad.isEmpty then x.inbox2 ++ ((Config.vc2Parse m.data).map fun j => (m.src, j)).toList else x.inbox2 }
  else if !m.bad.isEmpty then { x with inbox3 := x.inbox3 ++ [(m.src, none)] }
  else { x with inbox3 := x.inbox3 ++ ((Config.vc3Parse m.data).map fun j => (m.src, some j)).toList }

/-- A frame for this member is taken by its consumer (R257), if there is room. -/
def takeFrame (x : Part) (cap : Nat) (f : Frame) (bad : Bool) : Option Part :=
  if f.vc < 2 then (x.card.take cap f bad).map fun c => { x with card := c }
  else
    let mine (m : Msg) : Bool := m.src == f.src && m.vc == f.vc
    let old := if f.som then none else x.asm.find? mine
    let rest := x.asm.filter fun m => !mine m
    match old, f.som with
    | none, false => some { x with asm := rest }
    | _, _ =>
      let m := old.getD ⟨f.src, f.vc, f.job, [], [], 0, false, false, []⟩
      let m := { m with data := m.data ++ f.payload, bad := if bad then m.bad ++ [m.frames] else m.bad, frames := m.frames + 1 }
      some (if f.eom then ({ x with asm := rest } : Part).hand m else { x with asm := rest ++ [m] })

end Part

namespace Port

def free (o : Port) (p vc : Nat) : Port := { o with freed := o.freed.modify (pvIdx p vc) (· + 1) }

/-- A frame dropped by R256 or R264: counted for the module and in its partition's mirror (R360, R495). -/
def dropFrame (o : Port) (p : Nat) : Port := { o with drops := o.drops + 1, partDrops := o.partDrops.modify p (· + 1) }

/-- Frames leave the receive buffer. -/
def lose (lost : Frame → Bool) (o : Port) : Port :=
  (o.rxq.filter fun r => lost r.frame).foldl (fun o r => o.free r.frame.part r.frame.vc)
    { o with rxq := o.rxq.filter fun r => !lost r.frame }

/-- Frames of the replay buffer in order, for a go-back (R261). -/
def goBack (o : Port) : Port :=
  if o.replay.isEmpty then o else { o with resend := o.replay.map (·.fseq), gobk := o.gobk + 1 }

/-- A received ACK (R261): everything up to it leaves the replay buffer. -/
def gotAck (o : Port) (ack : Nat) : Port :=
  match o.replay.findIdx? (·.fseq == ack) with
  | none => o
  | some i =>
    let rest := o.replay.drop (i + 1)
    { o with replay := rest, resend := o.resend.filter fun f => rest.any (·.fseq == f), acked := ack, ackCount := o.count }

/-- Frames of a VC that a received cumulative count reports freed since the last one. -/
def newlyFreed (o : Port) (p v : Nat) (cret : List Nat) : Nat := (cret.getD v 0 + 256 - o.cretSeen.getD (pvIdx p v) 0 % 256) % 256

/-- More credits come back than were spent: the sum of R29 is out of balance (R31). -/
def overReturned (o : Port) (p : Nat) (cret : List Nat) : Bool :=
  (List.range 4).any fun v => decide (o.spent.getD (pvIdx p v) 0 < o.newlyFreed p v cret)

/-- Received cumulative counts for a partition (R259): the frames they report freed return their credits. -/
def gotCret (o : Port) (p : Nat) (cret : List Nat) : Port :=
  (List.range 4).foldl (fun o v =>
    { o with spent := o.spent.modify (pvIdx p v) (· - o.newlyFreed p v cret), cretSeen := o.cretSeen.set (pvIdx p v) (cret.getD v 0) }) o

/-- A frame fails (R260): NAK once for the episode. -/
def frameFailed (o : Port) : Port := if o.bad then o else { o with bad := true, nak := true }

/-- The start of training, where the limit of R274 allows one; else the port waits in HOLD. -/
def startTrain (o : Port) : Port :=
  let o := { o with keys := none, greeting := none, nonce := none, ekDraw := none, crSent := [], crGot := [], loopOk := false, resend := [], say := [] }
  if o.recentStarts.length < 4 then { o with state := .train, starts := o.count :: o.recentStarts } else { o with state := .hold }

/-- Hop integrity events of the last second. -/
def recentHops (o : Port) : List Nat := o.hops.filter fun c => decide (o.count < c + portSecond)

/-- A hop integrity event (R262): sixteen within a second retrain the port, past DOWN and HOLD. -/
def hopEvent (o : Port) : Port :=
  let o := { o with hopint := o.hopint + 1, hops := o.count :: o.recentHops }
  if o.hops.length ≥ 16 then { o.startTrain with hops := [] } else o

/-- A frame is sent for the first time (R259, R261). -/
def record1 (o : Port) (f : Frame) (slot : Nat) : Port :=
  { o with replay := o.replay ++ [⟨o.nextF, slot, f⟩], nextF := (o.nextF + 1) % 4096,
           ackCount := if o.replay.isEmpty then o.count else o.ackCount, spent := o.spent.modify (pvIdx f.part f.vc) (· + 1) }

end Port

namespace State

/-- The slot schedule's entry for a slot: a partition index, or none (R263). -/
def slotPart (s : State) (slot : Nat) : Option Nat :=
  let e := (s.boot.image.map fun i => i.sched.getD slot 15).getD 15
  if e < 8 then some e else none

/-- Partition p has this job open or opening, or in a reset (R256, R264). -/
def holdsJob (s : State) (p : PartId) (job : Nat) : Bool :=
  (match s.parts[p].pstate with | .opening | .running | .resetting => true | _ => false) && (s.parts[p].job.any (·.num == job))

/-- The next hop on port q passes the target coordinate of `dst` (R267). -/
def passes (s : State) (q : PortId) (dst : Nat) : Bool :=
  let o := s.ports[q]
  let x := coordDim s.me (portDim q)
  let y := coordDim dst (portDim q)
  o.state == .up && decide (max x y - min x y < o.ndist)

/-- Frames whose next hop on q would pass their target are dropped (R267). -/
def dropPassed (s : State) (q : PortId) : State :=
  let lost (f : Frame) : Bool := f.dst != s.me && routePort s.me f.dst == some q && s.passes q f.dst
  let gone := ((s.ports.toList.map fun o => (o.rxq.filter fun r => lost r.frame).map (·.frame)).flatten) ++ s.ports[q].txq.filter lost
  if gone.isEmpty then s
  else
    let s := { s with ports := s.ports.map (Port.lose lost) }
    s.modPort q fun o => gone.foldl (fun (o : Port) (f : Frame) => o.dropFrame f.part) { o with txq := o.txq.filter fun f => !lost f }

/-- Parking frames of a partition (R282). -/
def parkCap (s : State) : Nat := 4096 / max 1 s.npart

/-- Frames for this member in port q's receive buffer go to their consumers; one that cannot be taken holds back what follows
it from its source on its VC (R257, R303). -/
def drainPort (s : State) (p : PartId) (q : PortId) : State :=
  let r := s.ports[q].rxq.foldl (fun (a : Part × List RxFrame × List (Nat × Nat) × List Nat) f =>
    let k := (f.frame.src, f.frame.vc)
    if f.frame.part ≠ p.val ∨ f.frame.dst ≠ s.me ∨ a.2.2.1.contains k then (a.1, a.2.1 ++ [f], a.2.2.1, a.2.2.2)
    else
      match a.1.takeFrame s.parkCap f.frame f.poisoned with
      | some x => (x, a.2.1, a.2.2.1, f.frame.vc :: a.2.2.2)
      | none => (a.1, a.2.1 ++ [f], k :: a.2.2.1, a.2.2.2)) (s.parts[p], [], [], [])
  (s.modPart p fun _ => r.1).modPort q fun o => r.2.2.2.foldl (fun o v => o.free p.val v) { o with rxq := r.2.1 }

def drainRx (s : State) (p : PartId) : State := (List.finRange 8).foldl (fun s q => s.drainPort p q) s

/-- Partition index as a partition. -/
def partIx (n : Nat) : PartId := ⟨n % 8, Nat.mod_lt _ (by decide)⟩

-- Sending (R258).

/-- The first frame of a partition's VC in transit through port q: the port that holds it and its place there. -/
def transitHead (s : State) (q : PortId) (p vc : Nat) : Option (PortId × Nat × RxFrame) :=
  (List.finRange 8).findSome? fun r =>
    let is := s.ports[r].rxq.zipIdx.filter fun x =>
      x.1.frame.part == p && x.1.frame.vc == vc && x.1.frame.dst != s.me && routePort s.me x.1.frame.dst == some q
    is.head?.map fun x => (r, x.2, x.1)

/-- The count of ESEQ a frame injected here would take (R253). -/
def eseqOf (s : State) (p : PartId) (vc sport : Nat) : Nat := ((s.parts[p].job).map fun j => j.eseq.getD (8 * vc + sport) 0).getD 0

/-- Its count has reached the era ceiling, and it waits for a raised one (R254): of frames sealed end to end. Past the last era
the count itself ends (R253). -/
def eraHeld (s : State) (p : PartId) (f : Frame) : Bool :=
  !f.hop && match s.parts[p].job with
    | none => false
    | some j => decide (j.eraCeil < 256) && decide (j.eraCeil * 2 ^ 48 ≤ s.eseqOf p f.vc f.sport)

/-- The first frame of a VC waiting here for injection. -/
def injectHead (s : State) (q : PortId) (p vc : Nat) : Option Frame :=
  (s.ports[q].txq.find? fun f => f.part == p && f.vc == vc).filter fun f => !s.eraHeld (partIx p) f

/-- A new DATA frame of partition p may go out in this slot for this VC (R258, R259, R261). -/
def vcReady (s : State) (q : PortId) (p slot vc : Nat) : Bool :=
  let o := s.ports[q]
  decide (o.spent.getD (pvIdx p vc) 0 < 64) && decide ((o.replay.filter (·.slot == slot)).length < 4) &&
    ((s.transitHead q p vc).isSome || (s.injectHead q p vc).isSome)

/-- The VC a slot of partition p serves: VC2, else VC0, VC1 and VC3 in the partition's own rotation (R258; per partition, so that
no other one's frames change the choice, R357). -/
def slotVc (s : State) (q : PortId) (p slot : Nat) : Option Nat :=
  let rot := s.ports[q].rot.getD p 0
  ([2] ++ (List.range 3).map fun i => [0, 1, 3].getD ((rot + i) % 3) 0).find? (s.vcReady q p slot)

/-- An ESEQ count past 2^56 - 1 stops its source (R253): the injecting command completes as command-failed, its bucket entry is
discarded, and what is parked for that entry with it (R303). -/
def stopSource (s : State) (q : PortId) (p : PartId) (f : Frame) : State :=
  let s := s.modPort q fun o => { o with txq := o.txq.filter fun g => !(g.part == f.part && g.vc == f.vc) }
  if f.own = 0 then s
  else if s.parts[p].fuller.ckpt.any (·.seq == f.own) then s.failCkpt p stFailed
  else
    let mine := s.parts[p].card.table.filter fun b => b.seq == f.own
    let maxw := (mine.map fun b => (b.endWait s.clocks.carding).maxw).foldl max 0
    (s.modPart p fun x =>
      let dead := x.card.dead ++ mine.map (·.key)
      { x with card := { x.card with table := x.card.table.filter fun b => b.seq != f.own, dead := dead.drop (dead.length - 64),
                                     msgs := x.card.msgs.filterMap fun m =>
                                       if !(mine.map (·.key)).contains m.key then some m else if m.whole then none else some { m with skip := true } } }).complete
      (some p) false f.own { status := stFailed, cls := 2, maxw := maxw }

/-- Take the frame that goes out first on a VC: the state without it, and the frame as it stays from hop to hop. -/
def takeOut (s : State) (q : PortId) (p vc : Nat) : State × Option Frame :=
  let o := s.ports[q]
  let tr := s.transitHead q p vc
  let inj := s.injectHead q p vc
  let useTr := tr.isSome && (inj.isNone || o.transitNext.getD (pvIdx p vc) false)
  let s := s.modPort q fun o =>
    { o with transitNext := o.transitNext.set (pvIdx p vc) (!useTr),
             rot := if vc = 2 then o.rot else o.rot.set p ((([0, 1, 3].findIdx (· == vc)) + 1) % 3) }
  match tr, inj, useTr with
  | some t, _, true => (s.modPort t.1 fun o => ({ o with rxq := o.rxq.eraseIdx t.2.1 } : Port).free p vc, some t.2.2.frame)
  | _, some f, _ =>
    let pp := partIx p
    let e := s.eseqOf pp vc f.sport
    if 2 ^ 56 ≤ e then (s.stopSource q pp f, none)
    else
      let s := s.modPort q fun o => { o with txq := o.txq.erase f }
      let link := ((s.parts[pp].job).bind (·.link)).getD []
      let s := s.modPart pp fun x => { x with job := x.job.map fun j => { j with eseq := j.eseq.set (8 * vc + f.sport) (e + 1) } }
      (s, some (f.sealed link e))
  | _, _, _ => (s, none)

/-- Put a frame on the fibre: header and, where sealed hop by hop, payload sealed under the frame's place in its direction
(R250, R252). -/
def emit (s : State) (q : PortId) (h : Hdr) (hopSealed : Bool) (payload ptag : Bytes) (badTag : Bool) : State :=
  let o := s.ports[q]
  match o.keys with
  | none => s
  | some k =>
    let iv := linkIv (portPlus q) o.txc
    let c := Gcm.encrypt k.txHdr iv [] h.bytes
    let b := if hopSealed then Gcm.encrypt k.txPay iv h.bytes payload else (payload, ptag)
    let d := if badTag then s.draw 16 else ([], s)
    d.2.modPort q fun o =>
      { o with wire := laneSlices (c.1 ++ c.2.take 8 ++ b.1 ++ (if badTag then d.1 else b.2)), txc := o.txc + 1, nak := false }

/-- The counts a header carries back: ACK, NAK and CRET (R247, R260). -/
def backHdr (s : State) (q : PortId) (kind slot : Nat) : Hdr :=
  let o := s.ports[q]
  { kind := kind, vc := 0, som := false, eom := false, nak := o.nak, hop := false, dst := 0, src := 0,
    part := (s.slotPart slot).getD 0, sport := 0, slot := slot, job := 0, fseq := 0, ack := o.rxF,
    cret := (List.range 4).map fun v => match s.slotPart slot with | some p => o.freed.getD (pvIdx p v) 0 % 256 | none => 0, eseq := 0 }

/-- Send a DATA frame with its FSEQ in this slot. -/
def emitData (s : State) (q : PortId) (slot fseq : Nat) (f : Frame) : State :=
  let h := s.backHdr q 1 slot
  s.emit q { h with vc := f.vc, som := f.som, eom := f.eom, hop := f.hop, dst := f.dst, src := f.src, part := f.part, sport := f.sport,
                    job := f.job, fseq := fseq, eseq := f.eseq.getD 0 } f.hop f.payload f.ptag f.badTag

def emitIdle (s : State) (q : PortId) (slot : Nat) : State := s.emit q (s.backHdr q 2 slot) true (zeros 256) [] false

/-- The slots of partition p carry its frames (R264). -/
def slotsOpen (s : State) (p : Nat) : Bool :=
  match s.parts[partIx p].pstate with | .opening | .running | .resetting => true | _ => false

/-- One frame slot of a port that is UP (R258, R261, R264). A go-back resends every frame of the replay buffer in its own slot, also
one whose partition has closed since it was sent, for the frames of the others follow it in FSEQ order (R261, R275, R357: log 32). -/
def sendSlot (s : State) (q : PortId) : State :=
  let s := s.dropPassed q
  let o := s.ports[q]
  let slot := o.txc % 64
  match o.resend with
  | f :: rest =>
    match o.replay.find? fun r => r.fseq == f && r.slot == slot with
    | some r => (s.modPort q fun o => { o with resend := rest }).emitData q slot f r.frame
    | none => s.emitIdle q slot
  | [] =>
    match (s.slotPart slot).filter s.slotsOpen with
    | none => s.emitIdle q slot
    | some p =>
      match s.slotVc q p slot with
      | none => s.emitIdle q slot
      | some vc =>
        match s.takeOut q p vc with
        | (s, none) => s.emitIdle q slot
        | (s, some f) =>
          let n := s.ports[q].nextF
          ((s.modPort q fun o => o.record1 f slot)).emitData q slot n f

-- Receiving (R256, R260).

/-- An accepted DATA frame (R256). -/
def accepted (s : State) (q : PortId) (k : LinkKeys) (n : Nat) (h : Hdr) (clear body tag : Bytes) : State :=
  let p := partIx h.part
  let hopPt := if h.hop then Gcm.decrypt k.rxPay (linkIv (!portPlus q) n) clear body tag else none
  let f : Frame :=
    { part := h.part, vc := h.vc, som := h.som, eom := h.eom, hop := h.hop, dst := h.dst, src := h.src, sport := h.sport, job := h.job,
      eseq := some h.eseq, payload := if h.hop then hopPt.getD (zeros 256) else body, ptag := if h.hop then [] else tag,
      badTag := h.hop && hopPt.isNone, own := 0 }
  if !s.holdsJob p h.job then s.modPort q fun o => (o.dropFrame h.part).free h.part h.vc
  else if h.dst = s.me then
    if s.parts[p].pstate = .resetting then
      s.modPort q fun o => (o.dropFrame h.part).free h.part h.vc
    else
      let pt := if h.hop then hopPt else f.opened (((s.parts[p].job).bind (·.link)).getD [])
      let s := if pt.isNone then s.raise p 0x24 (0x48 + q.val) 0 q.val else s
      (s.modPort q fun o => { o with rxq := o.rxq ++ [⟨{ f with payload := pt.getD (zeros 256) }, pt.isNone⟩] }).drainRx p
  else
    let s := s.modPort q fun o => { o with rxq := o.rxq ++ [⟨f, false⟩] }
    match routePort s.me h.dst with
    | some r => s.dropPassed r
    | none => s

/-- A frame that the FEC decoded and whose header seal holds: its header and clear bytes. -/
def openHdr (k : LinkKeys) (q : PortId) (n : Nat) (wire : Bytes) : Option Bytes :=
  Gcm.openN 8 k.rxHdr (linkIv (!portPlus q) n) [] (wire.take 24) (sub wire 24 8)

/-- Both directions have settled every assigned slot: the port enters UP (R270 t6, R275). -/
def tryUp (s : State) (q : PortId) : State :=
  let o := s.ports[q]
  let slots := (List.range 64).filter fun i => (s.slotPart i).isSome
  if o.state == .attest && o.keys.isSome && o.loopOk && slots.all (fun i => o.crSent.contains i && o.crGot.contains i) then
    s.modPort q fun o =>
      { o with state := .up, bad := false, nak := false, resend := o.replay.map (·.fseq), ackCount := o.count,
               peer := o.greeting.map fun g => (g.coord, g.pk) }
  else s

/-- The first CRSYNC from another neighbour: both replay buffers are discarded and credits start anew (R275). -/
def newNeighbour (s : State) (q : PortId) (ack : Nat) : State :=
  let lost := (s.ports[q].replay.map (·.frame.part)).eraseDups
  let s := s.modPort q fun o =>
    { o with replay := [], resend := [], nextF := (ack + 1) % 4096, acked := ack, spent := List.replicate 32 0, differs := false,
             cretSeen := List.replicate 32 256 }
  lost.foldl (fun s p => s.raise (partIx p) 0x1A (0x48 + q.val) 0 q.val) s

/-- A CRSYNC frame (R275): the slot's ACK and CRET are settled. -/
def gotCrsync (s : State) (q : PortId) (h : Hdr) : State :=
  let s := if s.ports[q].differs then s.newNeighbour q h.ack else s
  s.modPort q fun o =>
    let o := o.gotAck h.ack
    let o := match s.slotPart h.slot with
      | some p =>
        let fresh := o.cretSeen.getD (pvIdx p 0) 0 == 256
        if fresh then { o with cretSeen := (List.range 4).foldl (fun c v => c.set (pvIdx p v) (h.cret.getD v 0)) o.cretSeen } else o.gotCret p h.cret
      | none => o
    { o with crGot := if o.crGot.contains h.slot then o.crGot else o.crGot ++ [h.slot] }

/-- Codewords that the FEC corrected in a frame (R276). -/
def countFec (s : State) (q : PortId) (n : Nat) : State := s.modPort q fun o => { o with fecc := o.fecc + n }

/-- Credits of R29 for partition p, by the counts of a frame in its slot: more of them back than were spent is an imbalance (R31). -/
def checkCredits (s : State) (q : PortId) (part : Option Nat) (cret : List Nat) : State :=
  match part with
  | none => s
  | some p =>
    let tooMany := s.ports[q].overReturned p cret
    let s := s.modPort q fun o => o.gotCret p cret
    if tooMany then s.raise (partIx p) 0x44 (0x48 + q.val) 0 1 else s

/-- A frame arrives at a port (R250, R256, R260, R262). -/
def receive (s : State) (q : PortId) (fecOk : Bool) (fecc : Nat) (wire : Bytes) : State :=
  let o := s.ports[q]
  let s := s.countFec q fecc
  match o.keys with
  | none => s
  | some k =>
    let n := o.rxc
    let s := s.modPort q fun o => { o with rxc := o.rxc + 1 }
    if !fecOk then s.modPort q Port.frameFailed
    else
      match openHdr k q n wire with
      | none => s.modPort q fun o => o.frameFailed.hopEvent
      | some clear =>
        let h := Hdr.parse clear
        let part := s.slotPart (n % 64)
        if h.slot ≠ n % 64 ∨ ((part.isSome ∨ h.kind = 1) ∧ part ≠ some h.part) ∨ (h.kind ≠ 1 ∧ h.kind ≠ 2 ∧ h.kind ≠ 3) then
          s.modPort q fun o => o.frameFailed.hopEvent
        else if h.kind = 3 then (s.gotCrsync q h).tryUp q
        else
          let s := (s.modPort q fun o => let o := o.gotAck h.ack; if h.nak then o.goBack else o).checkCredits q part h.cret
          if h.kind = 2 then s
          else if h.fseq ≠ (s.ports[q].rxF + 1) % 4096 then s.modPort q Port.frameFailed
          else (s.modPort q fun o => { o with rxF := h.fseq, bad := false }).accepted q k n h clear (sub wire 32 256) (sub wire 288 16)

/-- A TRAIN frame (R248, R270): header and payload in clear, HTAG zero; the payload is the next bytes of what this end has to say,
and beyond them free values. -/
def sendTrain (s : State) (q : PortId) : State :=
  let d := s.draw 272
  let m := s.ports[q].say.take 256
  d.2.modPort q fun o => { o with wire := laneSlices ([4] ++ zeros 31 ++ m ++ d.1.drop m.length), say := o.say.drop 256 }

end State

open State

/-- DATA_FRAME_RECEIVE (R256, R260). -/
def execDataFrameReceive (port : PortId) (fecOk : Bool) (fecc : Nat) (wire : Bytes) (s : State) : Host.Outcome State Fault Refusal :=
  .next (s.receive port fecOk fecc wire).refreshWaits

/-- IDLE_FRAME_RECEIVE (R259, R260): cumulative ACK and CRET. -/
def execIdleFrameReceive (port : PortId) (fecOk : Bool) (fecc : Nat) (wire : Bytes) (s : State) : Host.Outcome State Fault Refusal :=
  .next (s.receive port fecOk fecc wire).refreshWaits

/-- FRAME_SLOT_SEND (R244, R258): a frame of the slot's partition or IDLE; CRSYNC while credits settle; TRAIN frames until this end
has said its part of the attestation, and filler where refused, whose contents are free values. -/
def execFrameSlotSend (port : PortId) (s : State) : Host.Outcome State Fault Refusal :=
  let o := s.ports[port]
  match o.state with
  | .up => .next (s.sendSlot port).refreshWaits
  | .train | .attest =>
    if o.keys.isSome ∧ o.say = [] then
      let slot := o.txc % 64
      let s := s.emit port (s.backHdr port 3 slot) true (zeros 256) [] false
      .next ((s.modPort port fun o => { o with crSent := if o.crSent.contains slot then o.crSent else o.crSent ++ [slot] }).tryUp port)
    else .next (s.sendTrain port)
  | .refused =>
    let d := s.draw 304
    .next (d.2.modPort port fun o => { o with wire := laneSlices d.1 })
  | _ => .next s

/-- REPLAY_TIMEOUT (R261): frames outstanding and no ACK advance for 2 µs. -/
def execReplayTimeout (port : PortId) (s : State) : Host.Outcome State Fault Refusal :=
  let o := s.ports[port]
  if o.state = .up ∧ !o.replay.isEmpty ∧ o.resend.isEmpty ∧ o.ackCount + 2000 ≤ o.count then .next (s.modPort port Port.goBack) else .next s

/-- ACK_STALL_RETRAIN (R262): frames outstanding and no ACK advance for 10 ms. -/
def execAckStallRetrain (port : PortId) (s : State) : Host.Outcome State Fault Refusal :=
  let o := s.ports[port]
  if o.state = .up ∧ !o.replay.isEmpty ∧ o.ackCount + 10000000 ≤ o.count then .next (s.modPort port Port.startTrain) else .next s

end Sys2Proof.Machine
end

