-- ==== Sys2Proof/Machine/Carding.lean ====
section
/-! DEFINITION. The carding engine's commands (10): REDUCE, CARDING_CONTRIBUTION, PARTIAL, FINAL, GATHER, MKUP, MKDN, MOVE,
BUCKET_DELIVERY. -/

namespace Sys2Proof.Machine

/-- What a message means to the entry it is for (R294, R295, R301, R310): the stage, the slice and the range it carries. -/
inductive MsgUse where
  | partialSum (stage slice first count : Nat)
  | finalSum (stage first count : Nat)
  | gather (dim from_ first count : Nat)
  | mkup (dim : Nat)
  | mkdn (dim : Nat)
  | move
  deriving DecidableEq, Repr

namespace Msg

def mtype (m : Msg) : Nat := byteAt m.data 2
def dim (m : Msg) : Nat := byteAt m.data 3
def slice (m : Msg) : Nat := byteAt m.data 4
def scale (m : Msg) : Int := signed 8 (byteAt m.data 6)
def mflags (m : Msg) : Nat := byteAt m.data 7
def wfmt (m : Msg) : Nat := byteAt m.data 14
def first (m : Msg) : Nat := field m.data 16 4
def count (m : Msg) : Nat := field m.data 20 4

/-- Its frames hold the elements its header counts, and no more. -/
def lengthOk (m : Msg) (bytes : Nat) : Bool := m.frames == max 1 (ceilDiv (32 + bytes) 256)

/-- The header's reserved fields are zero. -/
def formOk (m : Msg) : Bool := decide (m.mflags < 8) && zeroRange m.data 15 1 && zeroRange m.data 24 8

/-- Byte n of the message is poisoned: its frame came so, or the word of the store that holds it is uncorrectable (R256, R281, R306). -/
def lost (m : Msg) (n : Nat) : Bool := m.bad.contains (n / 256) || (uncorrectable m.errs).contains (n / 8)

/-- Element j as it arrives: +0 with POIS where it is poisoned (R306). -/
def elem (m : Msg) (j : Nat) : Elem :=
  if m.lost (32 + 2 * j) then (0, m.mflags ||| flPois) else (field m.data (32 + 2 * j) 2, m.mflags)

/-- An uncorrectable word lies in its header: nothing of it can be read. -/
def headLost (m : Msg) : Bool := (uncorrectable m.errs).any fun w => decide (w < 4)

def piece (m : Msg) : Piece := ⟨m.first, m.scale, (List.range m.count).map m.elem⟩

end Msg

/-- A marker's header (R297). -/
def markerOk (m : Msg) : Bool := m.slice == 0 && m.scale == 0 && m.first == 0 && m.count == 0 && m.wfmt == 0 && m.lengthOk 0

/-- Judge a message by its key's definition and its sender's position (R298); none where they do not match. -/
def judgeMsg (b : Bucket) (me : Nat) (m : Msg) : Option MsgUse :=
  let d := m.dim
  let k := b.posIn d
  let n := b.nmem d
  let from_ (j : Nat) : Bool := m.src == b.coordAt me d j
  let carries (r : Nat × Nat) : Bool := (messagesOf r).contains (m.first, m.count) && m.lengthOk (2 * m.count) && m.wfmt == b.wfmt
  if !m.formOk then none
  else if b.bkind = 1 ∧ b.held.isNone then
    match b.stageDims.findIdx? (· == d) with
    | none => none
    | some i =>
      match m.mtype with
      | 1 =>
        if decide (0 < k) && from_ (k - 1) && decide (m.slice < n) && carries (sliceOf (b.range i) n m.slice) then
          some (.partialSum i m.slice m.first m.count) else none
      | 2 => if decide (k + 1 < n) && from_ (n - 1) && m.slice == k && carries (b.range (i + 1)) then some (.finalSum i m.first m.count) else none
      | 3 =>
        let up := decide (0 < k) && from_ (k - 1) && decide (m.slice < k)
        let down := decide (k + 1 < n) && from_ (k + 1) && decide (k < m.slice) && decide (m.slice < n)
        if (up || down) && carries (sliceOf (b.range i) n m.slice) then some (.gather d (if up then k - 1 else k + 1) m.first m.count) else none
      | 4 => if decide (0 < k) && from_ (k - 1) && markerOk m then some (.mkup d) else none
      | 5 => if decide (k + 1 < n) && from_ (k + 1) && markerOk m then some (.mkdn d) else none
      | _ => none
  else if b.bkind = 3 ∧ b.held.isNone then
    if m.src ≠ b.peer ∨ d ≠ 0 ∨ m.slice ≠ 0 ∨ m.wfmt ≠ 0 then none
    else if m.mtype = 6 ∧ b.rmask ≠ 0 then
      if m.first = b.moved.length ∧ 0 < m.count ∧ m.first + m.count ≤ 64 * b.trows ∧ m.lengthOk m.count then some .move else none
    else if m.mtype = 5 ∧ b.cmask ≠ 0 ∧ b.sent.contains (5, 0, 0) ∧ markerOk m then some (.mkdn 0)
    else none
  else none

/-- Messages matching a test go; those still in reassembly are dropped to their end. -/
def Carding.purge (c : Carding) (f : Msg → Bool) : Carding :=
  { c with msgs := (c.msgs.filter fun m => !(m.whole && f m)).map fun m => if f m then { m with skip := true } else m }

/-- The entry has nothing left to do. -/
def Bucket.done (b : Bucket) : Bool :=
  if b.held.isSome ∨ b.bkind = 2 then b.delivered
  else if b.bkind = 3 then (if b.cmask ≠ 0 then b.mkdn.contains 0 else b.delivered)
  else b.delivered && b.stageDims.all (b.mkdn.contains ·)

namespace State

def modCard (s : State) (p : PartId) (f : Carding → Carding) : State := s.modPart p fun x => { x with card := f x.card }

def bucket (s : State) (p : PartId) (tag : Nat) : Option Bucket := s.parts[p].card.table.find? (·.tag == tag)

def setBucket (s : State) (p : PartId) (b : Bucket) : State :=
  s.modCard p fun c => { c with table := c.table.map fun x => if x.tag == b.tag then b else x }

/-- Discard an entry (R303, R306, R313): its key joins the last 64. -/
def discardBucket (s : State) (p : PartId) (b : Bucket) : State :=
  s.modCard p fun c =>
    let dead := c.dead ++ [b.key]
    let c := { c with table := c.table.filter (·.tag != b.tag), dead := dead.drop (dead.length - 64) }
    c.purge fun m => m.key == b.key

/-- An entry fails (R306): logged once, its REDUCE completes as command-failed. -/
def failBucket (s : State) (p : PartId) (b : Bucket) : State :=
  ((s.raise p 0x19 0x40 0 b.tag (some (false, b.seq))).discardBucket p b).complete (some p) false b.seq
    { status := stFailed, cls := 2, maxw := (b.endWait s.clocks.carding).maxw }

/-- A completed entry is freed (R301, R302, R308, R310, R412). -/
def freeBucket (s : State) (p : PartId) (b : Bucket) : State :=
  let s := s.modCard p fun c => { c with table := c.table.filter (·.tag != b.tag) }
  s.complete (some p) false b.seq { status := stOk, flags := b.skips.toNat, maxw := (b.endWait s.clocks.carding).maxw }

/-- Words of the engine's storage in error, as they are read (R281, R306): a single bit is corrected and logged, an uncorrectable word
is logged as command-failed. -/
def engErrs (s : State) (p : PartId) (errs : List (Nat × Nat)) (tag : Nat) (cmd : Option (Bool × Nat)) : State :=
  errs.foldl (fun s e => if 2 ≤ e.2 then s.raise p 0x1D 0x40 0 tag cmd else s.raise p 0x06 0x40 0 0) s

/-- Let an entry do what it can (R296), and free it when it is done. -/
def advanceBucket (s : State) (p : PartId) (b : Bucket) : State :=
  let now := s.clocks.carding
  let r := (b.endWait now).work s.me
  let vc := if r.1.bkind = 3 then 1 else 0
  let s := r.2.foldl (fun s m => s.inject p vc false m.1 r.1.seq m.2) s
  let b : Bucket := { r.1 with since := if s.bucketWaits p.val r.1 then some now else none }
  let s := s.setBucket p b
  if b.done then
    let s := if b.bkind = 3 ∧ b.rmask ≠ 0 ∧ b.held.isNone then s.inject p 1 false b.peer b.seq (b.marker 5 0) else s
    s.freeBucket p b
  else s

/-- An entry goes on (R296). Its row and buffers are read first: an uncorrectable word of the row fails it (R281, R306). -/
def progress (s : State) (p : PartId) (b : Bucket) : State :=
  let s := s.engErrs p (b.errs ++ b.bufErrs) b.tag (some (false, b.seq))
  if uncorrectable b.errs ≠ [] then s.failBucket p b
  else s.advanceBucket p { b with errs := [], contribs := b.contribs.map fun c => if c.errs.isEmpty then c else c.read (b.bkind == 3) }

-- REDUCE (R285, R286, R348).

/-- The entry a REDUCE asks for, but for what a held result brings. -/
def newBucket (s : State) (p : PartId) (c : Cmd) : Bucket :=
  let kind := bits c.arg1 63 60
  let k := s.compact p
  let g := (Compact.grpOf k (bits c.arg0 63 56)).getD []
  let sum := kind == 1
  let ring := dims4.map fun d => if sum then Compact.grpLine k g d else [coordDim s.me d]
  let dims := if sum then (dims4.filter fun d => decide (2 ≤ (ring.getD d []).length)).foldl (fun a d => a + 2 ^ d) 0 else 0
  let b : Bucket :=
    { tag := c.tag, job := c.job, bkind := kind, bstate := .waiting, wfmt := if sum then bits c.arg1 55 48 else 0,
      whead := if sum then bits c.arg1 59 56 else 0, step := bits c.arg0 47 0, att := bits c.arg0 55 48, dims := dims, ring := ring,
      pos := dims4.map fun d => ((ring.getD d []).filter (decide <| · < coordDim s.me d)).length,
      tensor := if kind = 3 then 0 else bits c.arg1 47 32, cols := bits c.arg1 31 24 + 1, group := bits c.arg0 63 56,
      trows := bits c.arg1 23 0 + 1, cmask := c.arg2, rmask := c.arg3, peer := if kind = 3 then bits c.arg1 47 32 else 0,
      npol := Compact.npol k, maxw := 0, expc := 0, arrc := 0, seq := c.seq, contribs := [], stages := [], result := [], sent := [], moved := [],
      movedFl := 0, held := none, given := [], gone := [], cut := [], mkup := [], mkdn := [], captured := false, since := none, errs := [] }
  { b with expc := if sum then b.expected else 0, stages := List.replicate (b.stageDims.length + 1) [] }

/-- R286 but for the room in the table. -/
def bucketOk (s : State) (p : PartId) (b : Bucket) (wfmt : Nat) : Bool :=
  let k := s.compact p
  let mine (m : Nat) : Bool := (maskTiles m).all fun t => s.ownTile (some p) t
  b.tag != 0 && (s.bucket p b.tag).isNone && decide (1 ≤ b.bkind) && decide (b.bkind ≤ 3) && mine b.cmask && mine b.rmask &&
    decide (b.trows * b.cols < 2 ^ 32) &&
    match b.bkind with
    | 1 => (wfmt == 2 || wfmt == 3) && b.cmask != 0 && b.rmask != 0 &&
        (match Compact.grpOf k b.group with | some g => Compact.grpMember k g s.me | none => false)
    | 2 => b.cmask == 0 && b.rmask != 0 && (Compact.dropkey k).isSome
    | _ => (b.cmask == 0) != (b.rmask == 0) && b.peer != s.me && Compact.member k b.peer

/-- The matrix a SEED draws (R308). -/
def seedPiece (b : Bucket) (key : Bytes) : Piece :=
  ⟨0, 0, (List.range b.total).map fun e =>
    (Ieee.exactCode .b32 ((Num.fin false (genDraw key b.tensor b.step 0xF0 e) (-15)).add .rne (.fin true 1 0)), 0)⟩

/-- The captured deliveries of a held result, read from the capture areas (R412). -/
def readHeld (s : State) (p : PartId) (h : HeldResult) (seq : Nat) : State × List (Nat × Bytes × Bool) :=
  h.tiles.foldl (fun (acc : State × List (Nat × Bytes × Bool)) x =>
    let t : TileId := ⟨x.1 % 64, Nat.mod_lt _ (by decide)⟩
    let r := acc.1.readRange t (acc.1.key0 p) x.2.1 x.2.2 (some (false, seq))
    (r.1, acc.2 ++ [(x.1, r.2.1, r.2.2)])) (s, [])

/-- Install an entry: parked messages of its JOB and TAG with another STEP or ATT are discarded, the rest reach it (R303). -/
def installBucket (s : State) (p : PartId) (b : Bucket) : State :=
  let s := s.modCard p fun c =>
    ({ c with table := c.table ++ [b] } : Carding).purge fun m => m.job == b.job && field m.data 0 2 == b.tag && m.key != b.key
  (s.drainRx p).progress p b

-- Contributions (R289, R306, R310).

/-- The entry a tile's SEND goes to: the first that names the tile and whose contribution from it is not complete. -/
def sendEntry (s : State) (p : PartId) (t : Nat) : Option Bucket :=
  s.parts[p].card.table.find? fun b =>
    b.bkind != 2 && b.held.isNone && bit b.cmask t &&
      (if b.bkind = 3 then !b.complete else !(b.contribs.any fun c => c.tile == t && c.rows == b.trows))

end State

/-- Read a SUM contribution's panels from a SEND's bytes (R289, R306): rows read so far, values, and the SCALE of the first panel;
none where a rule is broken. `psn` are poisoned lines of the range; `left` the rows still to come. -/
def readContribution (b : Bucket) (psn : Nat → Bool) (bs : Bytes) : Nat → Nat → Nat → Option (Nat × List Elem × Option Int)
  | 0, _, _ => none
  | fuel + 1, off, left =>
    if bs.length ≤ off then some (0, [], none)
    else if psn (off / 64) then some (left, List.replicate (left * b.cols) (0, flPois), none)
    else
      let h := PHdr.parse (bs.drop off)
      let f := (Fmt.ofCode h.fmt).getD .b32
      let size := panelBytes f false h.rows h.cols
      if !([1, 2, 3].contains h.fmt) || h.bucket != b.tag || h.step != b.step || h.cols != b.cols || decide (left < h.rows) ||
          decide (bs.length < off + size) then none
      else
        let rows := dataElems f h.rows h.cols (sub bs (off + 64) (size - 64))
        let pitch := rowPitch f h.cols
        let vals := (rows.zipIdx.map fun r => r.1.zipIdx.map fun e =>
          if psn ((off + 64 + r.2 * pitch + f.width / 8 * e.2) / 64) then (0, h.flags % 8 ||| flPois)
          else (widen f h.scale e.1, h.flags % 8)).flatten
        (readContribution b psn bs fuel (off + size) (left - h.rows)).map fun r => (r.1 + h.rows, vals ++ r.2.1, some h.scale)

/-- Read a MOVE contribution's panels: bytes, with length and flags of each panel; a poisoned header line takes the rest. -/
def readMove (psn : Nat → Bool) (bs : Bytes) : Option (Bytes × List Elem × Bool) :=
  match cutPanels (bs.length / 64 + 1) bs with
  | some ps =>
    let r := ps.foldl (fun (acc : Nat × List Elem × Option Nat) x =>
      let bad := (List.range (x.length / 64)).any fun l => psn (acc.1 / 64 + l)
      let stop := match acc.2.2 with | some o => some o | none => if psn (acc.1 / 64) then some acc.1 else none
      (acc.1 + x.length, if stop.isSome then acc.2.1 else acc.2.1 ++ [(x.length, ((PHdr.parse x).flags % 8) ||| (if bad then flPois else 0))], stop))
      (0, [], none)
    match r.2.2 with
    | none => some (bs, r.2.1, false)
    | some o => some (bs.take o, r.2.1, true)
  | none => if (List.range (bs.length / 64)).any psn then some ([], [], true) else none

namespace State

/-- Put what a tile sent into its contribution. -/
def putContribution (b : Bucket) (c : Contribution) : Bucket :=
  { b with contribs := b.contribs.filter (·.tile != c.tile) ++ [c],
           arrc := if b.bkind = 1 ∧ c.rows = b.trows then b.arrc + 1 else b.arrc }

/-- A tile's SEND to the carding engine with the entry it matches (R289, R310): the entry with the contribution, and the state
with any free value drawn for the SCALE of a poisoned first panel; none where the SEND is invalid. -/
def contribute (s : State) (t : TileId) (b : Bucket) (m : MeshDesc) : Option (Bucket × State) :=
  let x := s.tiles[t]
  let bs := x.sp.read m.addr m.len
  let psn (l : Nat) : Bool := x.poison.contains (m.addr / 64 + l)
  let old := (b.contribs.find? (·.tile == t.val)).getD ⟨t.val, 0, 0, [], [], []⟩
  if b.bkind = 3 then
    match readMove psn bs with
    | none => none
    | some r =>
      let have_ := (b.contribs.map (·.bytes.length)).foldl (· + ·) 0
      if 64 * b.trows < have_ + bs.length then none
      else
        let pad := if r.2.2 then 64 * b.trows - have_ - r.1.length else 0
        let vals := r.2.1 ++ (if pad = 0 then [] else [(pad, flPois)])
        some (putContribution b { old with bytes := old.bytes ++ r.1 ++ zeros pad, vals := old.vals ++ vals }, s)
  else
    match readContribution b psn bs (m.len / 64 + 1) 0 (b.trows - old.rows) with
    | none => none
    | some r =>
      let d := if old.rows = 0 ∧ r.2.2.isNone then s.draw 1 else ([], s)
      let sc : Int := if old.rows = 0 then r.2.2.getD (signed 8 (leNat d.1)) else old.scale
      some (putContribution b { old with scale := sc, rows := old.rows + r.1, vals := old.vals ++ r.2.1 }, d.2)

-- Messages.

/-- The message can be worked on now: a PARTIAL needs this member's own values of its range (R294). -/
def usable (s : State) (b : Bucket) (m : Msg) : Bool :=
  match judgeMsg b s.me m with
  | none => true
  | some (.partialSum i _ a n) => (takeRange (b.stages.getD i []) a n).isSome
  | some _ => true

/-- The first whole message of these types that its live entry can work on. -/
def nextMsg (s : State) (p : PartId) (types : Nat → Bool) : Option (Bucket × Msg) :=
  s.parts[p].card.msgs.findSome? fun m =>
    if m.whole && !m.skip && types m.mtype then
      (s.parts[p].card.table.find? fun b => b.key == m.key && s.usable b m).map fun b => (b, m)
    else none

/-- ARRC counts a slice when its last message is in (R294). -/
def countSlice (b : Bucket) (i sl a n : Nat) : Bucket :=
  let r := sliceOf (b.range i) (b.nmem (b.stageDims.getD i 0)) sl
  if a + n = r.1 + r.2 then { b with arrc := b.arrc + 1 } else b

/-- A PARTIAL is added and passed on, sent to its owner, or kept (R294). -/
def usePartial (s : State) (p : PartId) (b : Bucket) (m : Msg) (i sl a n : Nat) : State :=
  match takeRange (b.stages.getD i []) a n with
  | none => s
  | some v =>
    let d := b.stageDims.getD i 0
    let k := b.posIn d
    let pc := m.piece
    let S := max m.scale v.1
    let es := List.zipWith (foldElem b.wire m.scale v.1) pc.elems v.2
    let b := countSlice b i sl a n
    let send (mt to_ : Nat) : State := (s.inject p 0 false (b.coordAt s.me d to_) b.seq (b.elemMessage mt d sl a S es)).progress p b
    if k + 1 < b.nmem d then send 1 (k + 1) else if sl ≠ k then send 2 sl else s.progress p (b.putStage (i + 1) ⟨a, S, es⟩)

/-- A message is taken and used (R294-R301, R310); one that does not match fails its entry (R298), and one whose header the store has
lost is dropped (log 49). -/
def useMsg (s : State) (p : PartId) (b : Bucket) (m : Msg) : State :=
  let s := (s.modCard p fun c => { c with msgs := c.msgs.erase m }).engErrs p m.errs (if m.headLost then 0 else b.tag) (some (false, b.seq))
  if m.headLost then s
  else match judgeMsg b s.me m with
  | none => s.failBucket p b
  | some (.partialSum i sl a n) => s.usePartial p b m i sl a n
  | some (.finalSum i _ _) => s.progress p (b.putStage (i + 1) m.piece)
  | some (.gather d from_ _ _) =>
    let k := b.posIn d
    let to_ := if from_ < k then k + 1 else k - 1
    let s := if (from_ < k ∧ b.nmem d ≤ k + 1) ∨ (k < from_ ∧ k = 0) then s
      else s.inject p 0 false (b.coordAt s.me d to_) b.seq (b.elemMessage 3 d m.slice m.first m.scale m.piece.elems)
    s.progress p { b with result := addPiece b.result m.piece }
  | some (.mkup d) => s.progress p { b with mkup := b.mkup ++ [d] }
  | some (.mkdn d) =>
    let s := if b.bkind = 1 ∧ 0 < b.posIn d then s.inject p 0 false (b.coordAt s.me d (b.posIn d - 1)) b.seq (b.marker 5 d) else s
    s.progress p { b with mkdn := b.mkdn ++ [d] }
  | some .move =>
    let byte (j : Nat) : Byte := if m.lost (32 + j) then 0 else m.data.getD (32 + j) 0
    s.progress p { b with moved := b.moved ++ (List.range m.count).map byte,
                          movedFl := b.movedFl ||| m.mflags ||| (if m.bad.isEmpty ∧ uncorrectable m.errs = [] then 0 else flPois) }

/-- The next message of these types is used, if there is one. -/
def useNext (s : State) (p : PartId) (types : Nat → Bool) : State :=
  match s.nextMsg p types with
  | none => s
  | some x => s.useMsg p x.1 x.2

-- Deliveries (R299, R395).

/-- The CAP record of a captured bucket's delivery to a tile (R395, R398). A poisoned delivery, or a capture area without room for
it, is an error in the capture (R406). -/
def capRecord (s : State) (p : PartId) (b : Bucket) (t : Nat) (bs : Bytes) (bad : Bool) : State :=
  match s.parts[p].fuller.ckpt with
  | none => s
  | some c =>
    if !b.captured || !c.capsLeft.contains (b.tag, t) then s
    else
      let ofs := ((c.capOfs.find? (·.1 == t)).map (·.2)).getD 0
      let n := ceilDiv bs.length 512
      let tid : TileId := ⟨t % 64, Nat.mod_lt _ (by decide)⟩
      let plan := Plan.parse (s.readRange tid (s.key0 p) 0 4096 (some (false, c.seq))).2.1
      if bad ∨ (plan.map (·.caplen)).getD 0 < ofs + n then s.failCkpt p stFailed
      else
        let s := s.modCkpt p fun c =>
          { c with capsLeft := c.capsLeft.erase (b.tag, t), capOfs := (t, ofs + n) :: c.capOfs.filter (·.1 != t) }
        (s.addUnits p (recordUnits 6 0 t ofs b.tag b.bkind bs)).flushUnits p

/-- The entry a tile's next RECV takes from: the first undelivered one that names it. -/
def recvEntry (s : State) (p : PartId) (t : Nat) : Option Bucket :=
  s.parts[p].card.table.find? fun b => bit b.rmask t && !b.gone.contains t

/-- A tile's oldest RECV from the carding engine takes whole panels of the bucket's delivery (R299): the state after it, or none
where nothing can be taken yet. -/
def deliverOne (s : State) (p : PartId) (tag : Nat) (t : TileId) : Option State :=
  match s.recvEntry p t.val, s.meshHead t 5 0x40 with
  | some b, some o =>
    if b.tag ≠ tag ∨ b.cut.contains t.val then none
    else
      match b.delivery t.val with
      | none => none
      | some dl =>
        let m := MeshDesc.parse o.desc
        let all := dl.1.flatten
        let done := ((b.given.find? (·.1 == t.val)).map (·.2)).getD 0
        let ends := dl.1.foldl (fun (acc : List Nat) x => acc ++ [acc.getLastD 0 + x.length]) [0]
        if !ends.contains (done + m.len) then
          some (((s.setBucket p { b with cut := b.cut ++ [t.val] }).modTile t fun x => x.dropOp o.id).stopTile p t o.slot)
        else
          let bs := sub all done m.len
          let fin := done + m.len == all.length
          let b := { b with given := (t.val, done + m.len) :: b.given.filter (·.1 != t.val), gone := if fin then b.gone ++ [t.val] else b.gone }
          let s := s.modTile t fun x => (if dl.2 then x.spPoison m.addr m.len else x.spWrite m.addr bs).dropOp o.id
          let s := s.setBucket p b
          some (if fin then s.capRecord p b t.val all dl.2 else s)
  | _, _ => none

/-- Everything posted for one tile. -/
def deliverTile (s : State) (p : PartId) (tag : Nat) (t : TileId) : Nat → State
  | 0 => s
  | n + 1 =>
    match s.deliverOne p tag t with
    | none => s
    | some s => deliverTile s p tag t n

end State

open State

/-- REDUCE (R285, R286, R348, R412): the entry is installed, or refused. -/
def execReduce (p : PartId) (s : State) : Host.Outcome State Fault Refusal :=
  let s := s.settled (some p)
  match s.startable (some p) .reduce with
  | none => .next s
  | some e =>
    let c := e.cmd
    let b := s.newBucket p c
    if !s.bucketOk p b (bits c.arg1 55 48) then .next (s.endNow p c.seq { status := stInvalid, cls := 2 })
    else if 4096 / max 1 s.npart ≤ s.parts[p].card.table.length then .next (s.endNow p c.seq { status := stNores, cls := 2 })
    else
      let s := s.start (some p) false c.seq
      match s.parts[p].fuller.heldRes.find? fun h => h.tag == b.tag && h.step == b.step && h.bkind == b.bkind with
      | some h =>
        let r := s.readHeld p h c.seq
        let s := r.1.modFuller p fun f => { f with heldRes := f.heldRes.erase h }
        .next (s.installBucket p { b with held := some r.2, dims := 0, expc := 0 })
      | none =>
        let b := if b.bkind = 2 then { b with result := [seedPiece b ((Compact.dropkey (s.compact p)).getD [])] } else b
        .next (s.installBucket p b)

/-- CARDING_CONTRIBUTION (R289): a tile's oldest SEND to the engine, where an entry takes it. -/
def execCardingContribution (t : TileId) (s : State) : Host.Outcome State Fault Refusal :=
  match s.partOf t, s.meshHead t 4 0x40 with
  | some p, some o =>
    match s.sendEntry p t.val with
    | none => .next s
    | some b =>
      let s1 := s.modTile t fun x => x.dropOp o.id
      match s.contribute t b (MeshDesc.parse o.desc) with
      | none => .next ((s1.failBucket p b).stopTile p t o.slot)
      | some r => .next (({ s1 with free := r.2.free } : State).progress p r.1)
  | _, _ => .next s

/-- PARTIAL (R294). A message of an invalid MTYPE fails its entry here. -/
def execPartialMsg (p : PartId) (s : State) : Host.Outcome State Fault Refusal :=
  .next (s.useNext p fun n => n == 1 || n == 0 || decide (6 < n))

/-- FINAL (R295). -/
def execFinalMsg (p : PartId) (s : State) : Host.Outcome State Fault Refusal := .next (s.useNext p (· == 2))

/-- GATHER (R295). -/
def execGather (p : PartId) (s : State) : Host.Outcome State Fault Refusal := .next (s.useNext p (· == 3))

/-- MKUP (R301). -/
def execMkup (p : PartId) (s : State) : Host.Outcome State Fault Refusal := .next (s.useNext p (· == 4))

/-- MKDN (R301, R310). -/
def execMkdn (p : PartId) (s : State) : Host.Outcome State Fault Refusal := .next (s.useNext p (· == 5))

/-- MOVE (R310). -/
def execMoveMsg (p : PartId) (s : State) : Host.Outcome State Fault Refusal := .next (s.useNext p (· == 6))

/-- BUCKET_DELIVERY (R299, R301): the posted RECVs of its RMASK tiles take what they can, and the entry goes on. -/
def execBucketDelivery (p : PartId) (tag : BitVec 16) (s : State) : Host.Outcome State Fault Refusal :=
  match s.bucket p tag.toNat with
  | none => .next s
  | some b =>
    let s := ((s.tilesOf p).filter fun t => bit b.rmask t.val).foldl (fun s t => s.deliverTile p tag.toNat t s.tiles[t].ops.length) s
    match s.bucket p tag.toNat with
    | none => .next s
    | some b1 => if b1 = b then .next s else .next (s.progress p b1)

end Sys2Proof.Machine
end

