-- ==== Sys2Proof/Machine/Checkpoint.lean ====
section
/-! DEFINITION. Checkpoint and restore (13): CHECKPOINT, TILE_MARK, CHECKPOINT_TRAILER, BUDDY_TRAILER_ACK, BUDDY_REFUSAL,
BUDDY_CHUNK, BUDDY_LOG_REQUEST, RESTORE, RESTORE_LOG_CHUNK, RESTORE_AGREEMENT, GO. -/

-- What a message is.

def Sys2Proof.JewelMsg.isOpened (m : Sys2Proof.JewelMsg) : Bool := match m with | .opened .. => true | _ => false

def Sys2Proof.JewelMsg.isChallenge (m : Sys2Proof.JewelMsg) : Bool := match m with | .challenge _ => true | _ => false

def Sys2Proof.JewelMsg.isReport (m : Sys2Proof.JewelMsg) : Bool := match m with | .report _ => true | _ => false

def Sys2Proof.JewelMsg.isKeyset (m : Sys2Proof.JewelMsg) : Bool := match m with | .keyset .. => true | _ => false

def Sys2Proof.JewelMsg.isJoined (m : Sys2Proof.JewelMsg) : Bool := match m with | .joined => true | _ => false

def Sys2Proof.JewelMsg.isEraRaise (m : Sys2Proof.JewelMsg) : Bool := match m with | .eraRaise _ => true | _ => false

def Sys2Proof.JewelMsg.isEraAck (m : Sys2Proof.JewelMsg) : Bool := match m with | .eraAck _ => true | _ => false

def Sys2Proof.JewelMsg.isSidRaise (m : Sys2Proof.JewelMsg) : Bool := match m with | .sidRaise _ => true | _ => false

def Sys2Proof.JewelMsg.isSidAck (m : Sys2Proof.JewelMsg) : Bool := match m with | .sidAck _ => true | _ => false

def Sys2Proof.JewelMsg.isRestoreValues (m : Sys2Proof.JewelMsg) : Bool := match m with | .restoreValues .. => true | _ => false

def Sys2Proof.JewelMsg.isGo (m : Sys2Proof.JewelMsg) : Bool := match m with | .go _ => true | _ => false

def Sys2Proof.FullerMsg.isTrailerAck (m : Sys2Proof.FullerMsg) : Bool := match m with | .trailerAck _ => true | _ => false

def Sys2Proof.FullerMsg.isRefusal (m : Sys2Proof.FullerMsg) : Bool := match m with | .refusal _ => true | _ => false

def Sys2Proof.FullerMsg.isChunk (m : Sys2Proof.FullerMsg) : Bool := match m with | .chunk .. => true | _ => false

def Sys2Proof.FullerMsg.isLogRequest (m : Sys2Proof.FullerMsg) : Bool := match m with | .logRequest _ => true | _ => false

def Sys2Proof.FullerMsg.isLogChunk (m : Sys2Proof.FullerMsg) : Bool := match m with | .logChunk .. => true | _ => false

namespace Sys2Proof.Machine

/-- The zero trailer position, and what a plan gives of its tile. -/
def Plan.parts (pl : Plan) (c : Bytes) (me : Nat) (host : Bool) : List (Region × Nat × Nat) :=
  pl.regions.map fun r => (r, copyPart c me host r)

namespace State

/-- A CHECKPOINT or RESTORE whose turn it is, each in its own class (R326, R328). -/
def nextFuller (s : State) (p : PartId) (opc : Nat) : Option InFlight := 
  (s.startable (some p) ((opClass opc).getD .none)).filter (·.cmd.opc == opc)

/-- The bound stream a checkpoint to the host may write (R403). -/
def ckStreamOk (s : State) (p : PartId) (sid : Nat) : Bool :=
  match s.stream p sid with
  | none => false
  | some e => e.2.owner == 0xFF && e.2.ksrc == 0 && !e.2.preset && e.2.hw == 0 && !s.streamBusy p sid

/-- The status with which a CHECKPOINT ends at its start (R405). -/
def ckRefusal (s : State) (p : PartId) (c : Cmd) : Option Nat :=
  let k := s.compact p
  let buddy := bits c.arg0 1 0 = 1
  let whom := c.arg1 % 65536
  if buddy ∧ (whom = s.me ∨ !Compact.member k whom) then some stInvalid
  else if !buddy ∧ !s.ckStreamOk p (c.arg1 % 2 ^ 32) then some stInvalid
  else if (!buddy ∧ !Compact.ckhost k) ∨ (buddy ∧ !Compact.ckbuddy k) ∨ (bit c.arg0 2 ∧ !Compact.narw k) then some stRefused
  else none

-- The freeze (R394, R395).

/-- How a live entry stands to the cut (R395): captured, or not; none where the CHECKPOINT fails. -/
def cutOf (b : Bucket) : Option Bool :=
  let complete := b.held.isSome || b.complete
  if b.bkind = 2 then some false
  else if complete then some !b.delivered
  else if b.started then none
  else some false

/-- Every capture is admissible, and its step is the checkpoint's. -/
def capturesOk (s : State) (p : PartId) (step : Nat) : Bool :=
  s.parts[p].card.table.all fun b => match cutOf b with
    | none => false
    | some true => b.step == step
    | some false => true

/-- The REG record: entries 0001h to 03FFh of the merged table (R398). -/
def regTable (s : State) (p : PartId) : Bytes := ((List.range 1023).map fun i => s.regMerged p (i + 1)).flatten

/-- The parts of a tile's copy with the place in plan order at which each begins (R399). -/
def placed (parts : List (Region × Nat × Nat)) : List (Nat × Region × Nat × Nat) :=
  parts.zipIdx.map fun x => (((parts.take x.2).map (·.2.2)).foldl (· + ·) 0, x.1)

/-- The reads of a tile's copy, in plan order (R399). -/
def copyReqs (s : State) (p : PartId) (parts : List (Region × Nat × Nat)) : List SealReq :=
  ((placed parts).map fun x => (List.range x.2.2.2).map fun j =>
    (⟨x.2.2.1 + j, s.key0 p + x.2.1.kidx, .checkpoint, 0, 512, none, [], x.1 + j, false, false, (x.2.2.1 + j, 1)⟩ : SealReq)).flatten

/-- Zero a tile's copy bitmap (R394). -/
def zeroBitmap (s : State) (p : PartId) (t : TileId) (pl : Plan) (who : Option (Bool × Nat)) : State :=
  s.writeRange t (s.key0 p) (512 * pl.bmofs) (zeros (512 * pl.bmlen)) who

/-- The freeze goes through (R394 t1 to t2): bitmaps zero, the table merged, captures recorded, the copying set up, the tiles
released. -/
def freezeNow (s : State) (p : PartId) (c : Ckpt) (entry : Nat) (plans : List (TileId × Plan)) (pland : Bytes) : State :=
  let who := some (false, c.seq)
  let host := c.buddy.isNone
  let k := s.compact p
  let reg := s.regTable p
  let works := plans.map fun x => (x.1, x.2, x.2.parts k s.me host)
  let s := works.foldl (fun s x => s.zeroBitmap p x.1 x.2.1 who) s
  let reqs := works.map fun x => (x.1, s.copyReqs p x.2.2)
  let s := reqs.foldl (fun s x => s.addReqs x.1 x.2) s
  let narrowing : List Narrowing := if c.narrow then
    (works.map fun x => ((placed x.2.2).filter fun y => y.2.1.rclass == 2).map fun y => (⟨x.1, y.2.1, y.1, []⟩ : Narrowing)).flatten else []
  let caught := s.parts[p].card.table.filter fun b => cutOf b == some true
  let s := s.modCard p fun x => { x with table := x.table.map fun b => if cutOf b == some true then { b with captured := true } else b }
  let s := s.modCkpt p fun c =>
    { c with frozen := true, entry := entry, pland := pland, lossn := ((s.parts[p].job).map (·.lossN)).getD 0,
             bms := works.map fun x => (x.1.val, x.2.1.bmofs), turn := 64,
             left := (reqs.map fun x => x.2.length).foldl (· + ·) 0, narrowing := narrowing,
             caps := caught.map fun b => (b.tag, b.bkind),
             capsLeft := (caught.map fun b => (maskTiles b.rmask).map fun t => (b.tag, t)).flatten }
  let s := s.releaseMarks p
  let s := s.addUnits p (recordUnits 5 0 0 0 0 0 reg)
  let s := caught.foldl (fun s b => b.gone.foldl (fun s t => s.capRecord p { b with captured := true } t
    (((b.delivery t).map fun d => d.1.flatten).getD []) ((b.delivery t).any (·.2))) s) s
  s.flushUnits p

/-- The freeze, once every tile stands at its mark and the CHECKPOINT has started (R394). -/
def tryFreeze (s : State) (p : PartId) : State :=
  match s.parts[p].fuller.ckpt with
  | none => s
  | some c =>
    let ts := s.tilesOf p
    if c.frozen || !(ts.all fun t => s.tiles[t].marked) then s
    else
      let r := s.readPlans p (some (false, c.seq))
      let s := r.1
      let plans := r.2.filterMap fun x => x.2.2.map fun pl => (x.1, pl)
      let host := c.buddy.isNone
      let marks := s.parts[p].fuller.marks
      let first := (marks.head?.map (·.2)).getD (0, 0)
      if plans.length = ts.length ∧ plans.all (fun x => x.2.ok (s.compact p) s.me (s.keyRange p).2 host) ∧
          marks.all (fun m => m.2 == first) ∧ first.1 = c.step ∧ first.2 < 4096 ∧ s.capturesOk p c.step then
        s.freezeNow p c first.2 plans (planDigest r.2)
      else s.failCkpt p stFailed

/-- Start a CHECKPOINT (R393, R396). -/
def startCkpt (s : State) (p : PartId) (c : Cmd) : State :=
  let k : Ckpt :=
    { seq := c.seq, ckno := c.arg0 / 2 ^ 32, step := c.arg2, narrow := bit c.arg0 2,
      buddy := if bits c.arg0 1 0 = 1 then some (c.arg1 % 65536) else none, sid := c.arg1 % 2 ^ 32, started := true, frozen := false,
      entry := 0, pland := [], lossn := 0, units := [], chunks := 0, nunit := 0, left := 0, narrowing := [], caps := [], capsLeft := [],
      capOfs := [], bms := [], turn := 64, trailerSent := false }
  (s.modFuller p fun f => { f with ckpt := some k }).tryFreeze p

-- The trailer (R401, R402).

def trailerOf (s : State) (p : PartId) (c : Ckpt) : Trailer :=
  { job := s.jobNum (some p), ckno := c.ckno, step := c.step, coord := s.me, pidx := p.val, narw := c.narrow, buddy := c.buddy.isSome,
    entry := c.entry, nchunk := c.chunks + 1, nunit := c.nunit, lossn := c.lossn,
    mcomp := ((s.parts[p].job).map (·.mcomp)).getD (zeros 64), capd := capDigest c.caps, pland := c.pland }

/-- The trailer joins the host stream's writes, after every other chunk has been issued (R402); it goes out in the partition's
DMA slots like them (R240, R403). The log fails at LIMIT. -/
def hostTrailer (s : State) (p : PartId) (c : Ckpt) : State :=
  match s.stream p c.sid with
  | none => s.failCkpt p stFailed
  | some st =>
    if st.2.limit ≤ c.chunks ∨ (s.ksrcSecret p st.2.ksrc).isNone then s.failCkpt p stFailed
    else
      ((s.postChunk p st.2 st.2.epoch c.chunks (s.trailerOf p c).bytes .checkpoint (c.chunks + 1)).modStream p c.sid fun x =>
        { x with hwD := x.hwD + 1 }).modCkpt p fun c => { c with trailerSent := true }

-- Messages between Fullers.

/-- Take the first message for Fuller that a test accepts. -/
def takeInbox3 (s : State) (p : PartId) (f : Nat → Option FullerMsg → Bool) : Option (Nat × Option FullerMsg × State) :=
  match s.parts[p].inbox3.findIdx? fun m => f m.1 m.2 with
  | none => none
  | some i => (s.parts[p].inbox3[i]?).map fun m => (m.1, m.2, s.modPart p fun x => { x with inbox3 := x.inbox3.eraseIdx i })

/-- Take the first message for the Jewel that a test accepts. -/
def takeInbox2 (s : State) (p : PartId) (f : Nat → JewelMsg → Bool) : Option (Nat × JewelMsg × State) :=
  match s.parts[p].inbox2.findIdx? fun m => f m.1 m.2 with
  | none => none
  | some i => (s.parts[p].inbox2[i]?).map fun m => (m.1, m.2, s.modPart p fun x => { x with inbox2 := x.inbox2.eraseIdx i })

-- The buddy (R404).

def client (s : State) (p : PartId) (coord : Nat) : Option Client := s.parts[p].fuller.clients.find? (·.coord == coord)

def setClient (s : State) (p : PartId) (c : Client) : State :=
  s.modFuller p fun f => { f with clients := f.clients.filter (·.coord != c.coord) ++ [c] }

/-- The lowest-numbered free client area of the four. -/
def freeArea (s : State) (p : PartId) : Option Nat := (List.range 4).find? fun a => !s.parts[p].fuller.clients.any (·.area == a)

/-- Tile and tile offset of chunk i of a log in a client area (R404); none where it does not fit, or the tile's plan is not
readable. -/
def buddyPlace (s : State) (p : PartId) (area ckno i : Nat) : Option (TileId × Nat) :=
  let ts := s.tilesOf p
  match ts[i % max 1 ts.length]? with
  | none => none
  | some t =>
    let r := s.readRange t (s.key0 p) 0 4096 none
    match if r.2.2 then none else Plan.parse r.2.1 with
    | none => none
    | some pl =>
      let half := 512 * (pl.budlen / 8)
      let at_ := 4096 * (i / max 1 ts.length)
      if at_ + 4096 ≤ half then some (t, 512 * pl.budofs + area * (512 * (pl.budlen / 4)) + (ckno % 2) * half + at_) else none

/-- Store one chunk, poisoned where its message was. -/
def storeChunk (s : State) (p : PartId) (pl : TileId × Nat) (data : Option Bytes) : State :=
  match data with
  | some d => s.writeRange pl.1 (s.key0 p) pl.2 (fit 4096 d) none
  | none => (List.range 8).foldl (fun s j => s.writeNow pl.1 (pl.2 / 512 + j) (s.key0 p) 0 512 (zeros 512) allLines none) s

/-- The buddy refuses a member's log (R404, R406). -/
def refuseLog (s : State) (p : PartId) (src ckno : Nat) : State :=
  let s := match s.client p src with
    | some c => s.setClient p { c with recv := none }
    | none => s
  s.sendFuller p src 0 (.refusal (BitVec.ofNat 32 ckno))

/-- The first chunk of a log: a client area, the parity rule, and the old trailer of that half zeroed. -/
def openLog (s : State) (p : PartId) (src ckno : Nat) : Option State :=
  let c? := (s.client p src).orElse fun _ => (s.freeArea p).map fun a => ⟨src, a, [], none, none⟩
  match c? with
  | none => none
  | some c =>
    if c.committed.any fun n => n % 2 == ckno % 2 then none
    else
      let old := (c.logs.find? (·.1 == ckno % 2)).bind fun l => s.buddyPlace p c.area ckno (l.2 - 1)
      let s := match old with | some pl => s.storeChunk p pl (some (zeros 4096)) | none => s
      some (s.setClient p { c with logs := c.logs.filter (·.1 != ckno % 2), recv := some (ckno, 0) })

/-- Store chunk i of the log being received from a member; with the trailer the log is committed and acknowledged (R402, R404). -/
def takeChunk (s : State) (p : PartId) (src : Nat) (i : Nat) (last : Bool) (data : Option Bytes) : State :=
  match s.client p src with
  | none => s
  | some c =>
    match c.recv with
    | none => s
    | some (ckno, n) =>
      if i ≠ n then s
      else
        match s.buddyPlace p c.area ckno i with
        | none => s.refuseLog p src ckno
        | some pl =>
          let s := s.storeChunk p pl data
          if last then
            (s.setClient p { c with logs := (ckno % 2, i + 1) :: c.logs, committed := some ckno, recv := none }).sendFuller p src 0
              (.trailerAck (BitVec.ofNat 32 ckno))
          else s.setClient p { c with recv := some (ckno, i + 1) }

/-- Chunks of a stored log go back to its member: the trailer first, then in order (R408). A log that ends early, at a poisoned
chunk or for want of its place, ends with a refusal (R410; log 46). -/
def returnLog (s : State) (p : PartId) (src ckno n : Nat) (c : Client) : List Nat → State
  | [] => s
  | i :: is =>
    let refusal : FullerMsg := .refusal (BitVec.ofNat 32 ckno)
    match s.buddyPlace p c.area ckno i with
    | none => s.sendFuller p src 0 refusal
    | some pl =>
      let r := s.readRange pl.1 (s.key0 p) pl.2 4096 none
      if r.2.2 then r.1.sendFuller p src 0 refusal
      else returnLog (r.1.sendFuller p src 0 (.logChunk (BitVec.ofNat 32 ckno) i n r.2.1)) p src ckno n c is

-- Restore (R408-R412).

def modRestore (s : State) (p : PartId) (f : Restore → Restore) : State := s.modFuller p fun x => { x with restore := x.restore.map f }

/-- End a RESTORE. -/
def endRestore (s : State) (p : PartId) (r : Result) : State :=
  match s.parts[p].fuller.restore with
  | none => s
  | some x =>
    ((s.dropRequests (some p) .restore).modFuller p fun f => { f with restore := none }).complete (some p) false x.seq r

def failRestore (s : State) (p : PartId) : State := s.endRestore p { status := stFailed, cls := 2 }

/-- The trailer agrees with the command, the job and the plans (R409). -/
def trailerOk (s : State) (p : PartId) (x : Restore) (t : Trailer) (n : Nat) (pland : Bytes) : Bool :=
  t.job == s.jobNum (some p) && some t.mcomp == (s.parts[p].job).map (·.mcomp) && t.ckno == x.ckno && t.step == x.step && t.coord == s.me &&
    t.pidx == p.val && t.nchunk == n && t.pland == pland

/-- Ask for the next chunk of a host log. -/
def askNext (s : State) (p : PartId) (sid i : Nat) : State :=
  match s.stream p sid with
  | some st => s.askChunk p st.2 i .restore
  | none => s

/-- A record is whole (R397): written to its place; false where it is invalid (R410). -/
def restoreRecord (s : State) (p : PartId) (x : Restore) (ent data : Bytes) : State × Bool :=
  let who := some (false, x.seq)
  let t : TileId := ⟨byteAt ent 2 % 64, Nat.mod_lt _ (by decide)⟩
  let key := s.key0 p + byteAt ent 1
  let ofs := field ent 4 4
  match byteAt ent 0 with
  | 3 =>
    match expandRecord (64 + field data 16 4) data with
    | .bytes full =>
      let h := PHdr.parse full
      if h.fmt ≠ 3 then (s, false)
      else
        let rows := (dataElems .zw16 h.rows h.cols (full.drop 64)).map (·.map fun c => widen .zw16 0 c)
        let hb := ({ h with fmt := Fmt.b32.code } : PHdr).bytes
        let rec' := stashRecord hb (elemsData .b32 rows)
        (s.writeRange t key (512 * ofs) (fit (512 * ceilDiv rec'.length 512) rec') who, true)
    | _ => (s, false)
  | 5 => ((s.tilesOf p).foldl (fun s t => s.modTile t fun y => { y with reg := y.reg.write 128 data, rgErr := [] }) s, true)
  | _ =>
    let pr := s.readRange t (s.key0 p) 0 4096 who
    match Plan.parse pr.2.1 with
    | none => (pr.1, false)
    | some pl =>
      if pl.caplen < ofs + ceilDiv data.length 512 then (pr.1, false)
      else
        ((pr.1.writeRange t (s.key0 p) (512 * (pl.capofs + ofs)) (fit (512 * ceilDiv data.length 512) data) who).modRestore p fun x =>
          { x with caps := x.caps ++ [(field ent 12 2, byteAt ent 14, t.val, 512 * (pl.capofs + ofs), data.length)] }, true)

/-- An index entry is valid for its type (R398, R410). -/
def entOk (s : State) (p : PartId) (ent : Bytes) : Bool :=
  let ty := byteAt ent 0
  let tile := s.ownTile (some p) (byteAt ent 2)
  let key := decide (byteAt ent 1 < (s.keyRange p).2)
  zeroRange ent 3 1 && zeroRange ent 15 1 &&
    match ty with
    | 0 => zeroRange ent 0 16
    | 1 | 2 => tile && key && zeroRange ent 8 7 && decide (field ent 4 4 < windowGranules)
    | 3 => tile && key && zeroRange ent 12 3 && field ent 8 4 != 0 && decide (field ent 4 4 < windowGranules)
    | 4 => zeroRange ent 8 7
    | 5 => zeroRange ent 12 3 && field ent 8 4 == 130944
    | 6 => tile && field ent 8 4 != 0
    | _ => false

/-- One unit of a restored chunk; false where it is invalid. -/
def restoreUnit (s : State) (p : PartId) (ent data : Bytes) : State × Bool :=
  match s.parts[p].fuller.restore with
  | none => (s, false)
  | some x =>
    let ty := byteAt ent 0
    if !s.entOk p ent then (s, false)
    else
      match x.record, ty with
      | some r, 4 =>
        let bs := r.data ++ data
        let len := field r.ent 8 4
        if len ≤ bs.length then (s.modRestore p fun x => { x with record := none }).restoreRecord p x r.ent (bs.take len)
        else (s.modRestore p fun x => { x with record := some { r with data := bs } }, true)
      | some _, _ => (s, false)
      | none, 4 => (s, false)
      | none, 0 => (s, true)
      | none, 1 | none, 2 =>
        let t : TileId := ⟨byteAt ent 2 % 64, Nat.mod_lt _ (by decide)⟩
        (s.writeNow t (field ent 4 4) (s.key0 p + byteAt ent 1) 0 512 data (if ty = 2 then allLines else []) (some (false, x.seq)), true)
      | none, _ =>
        let len := field ent 8 4
        if len ≤ 512 then s.restoreRecord p x ent (data.take len)
        else (s.modRestore p fun x => { x with record := some ⟨ent, data⟩ }, true)

/-- The seven units of a chunk, up to an invalid one. -/
def restoreUnits (s : State) (p : PartId) (chunk : Bytes) : List Nat → State × Bool
  | [] => (s, true)
  | u :: us =>
    let r := s.restoreUnit p (sub chunk (16 * u) 16) (sub chunk (512 + 512 * u) 512)
    if r.2 then restoreUnits r.1 p chunk us else r

/-- The members' values agree (R411). -/
def valuesAgree (j : Job) : Bool :=
  match j.members.map (·.restore) with
  | [] => true
  | v :: vs => vs.all (· == v)

/-- GO or NOGO completes a member's RESTORE (R411, R412). -/
def restoreGo (s : State) (p : PartId) (yes : Bool) : State :=
  match s.parts[p].fuller.restore with
  | none => s
  | some x =>
    if !x.reported then s
    else if yes then
      let t := x.trailer
      s.endRestore p { status := stOk, result := ((t.map (·.entry)).getD 0) % 4096 + 65536 * ((t.map (·.narw)).getD false).toNat }
    else s.endRestore p { status := stRefused, cls := 2 }

/-- When every member has reported, the leader answers all of them (R411). -/
def decideRestore (s : State) (p : PartId) : State :=
  match s.parts[p].job with
  | none => s
  | some j =>
    if !s.isLeader p || !(j.members.all (·.restore.isSome)) then s
    else
      let yes := valuesAgree j
      let s1 := s.modPart p fun x => { x with job := some { j with members := j.members.map fun m => { m with restore := none } } }
      let s2 := (j.members.filter fun m => m.coord != s.coord).foldl (fun s m => s.sendJewel p m.coord.toNat (.go yes)) s1
      s2.restoreGo p yes

/-- A member's values at the leader. -/
def noteRestore (s : State) (p : PartId) (src : Nat) (v : Nat × Nat × Bytes × Bool) : State :=
  (s.modPart p fun x => { x with job := x.job.map fun j =>
    { j with members := j.members.map fun m => if m.coord.toNat == src then { m with restore := some v } else m } }).decideRestore p

/-- The whole log has been read (R408 steps 4 to 6). -/
def logRead (s : State) (p : PartId) (x : Restore) (t : Trailer) : State :=
  if x.record.isSome then s.failRestore p
  else
    let keys := (x.caps.map fun c => (c.1, c.2.1)).eraseDups
    let held := keys.map fun k =>
      (⟨k.1, t.step, k.2, (x.caps.filter fun c => c.1 == k.1 && c.2.1 == k.2).map fun c => (c.2.2.1, c.2.2.2.1, c.2.2.2.2)⟩ : HeldResult)
    let s := s.modPart p fun q => { q with job := q.job.map fun j => { j with lossN := t.lossn } }
    let s := (s.modFuller p fun f => { f with heldRes := held }).modRestore p fun x => { x with reported := true }
    if s.isLeader p then s.noteRestore p s.me (x.ckno, x.step, t.capd, t.narw)
    else s.sendJewel p (Compact.leader (s.compact p)) (.restoreValues (BitVec.ofNat 32 x.ckno) (BitVec.ofNat 48 x.step) t.capd t.narw)

/-- A chunk of the log being restored has arrived; none where it failed (R408-R410). `n` is LIMIT or the buddy's count. -/
def restoreChunk (s : State) (p : PartId) (chunk n : Nat) (plain : Option Bytes) : State :=
  match s.parts[p].fuller.restore with
  | none => s
  | some x =>
    match plain with
    | none => s.failRestore p
    | some bs =>
      match x.trailer with
      | none =>
        let pl := s.readPlans p (some (false, x.seq))
        match Trailer.parse bs with
        | some t =>
          if !pl.1.trailerOk p x t n (planDigest pl.2) then pl.1.endRestore p { status := stRefused, cls := 2 }
          else
            let s := pl.1.modRestore p fun x => { x with trailer := some t, nchunk := n }
            if n ≤ 1 then s.logRead p x t else if x.buddy.isNone then s.askNext p x.sid 0 else s
        | none => pl.1.endRestore p { status := stRefused, cls := 2 }
      | some t =>
        if chunk ≠ x.next then s.failRestore p
        else
          let r := s.restoreUnits p bs (List.range 7)
          if !r.2 then r.1.failRestore p
          else
            let s := r.1.modRestore p fun x => { x with next := x.next + 1 }
            match s.parts[p].fuller.restore with
            | none => s
            | some x =>
              if x.next + 1 ≥ x.nchunk then s.logRead p x t else if x.buddy.isNone then s.askNext p x.sid x.next else s

/-- A RESTORE's log is there to be read (R408): a PRESET stream of the job's own key, or a member as buddy. -/
def restoreFrom (s : State) (p : PartId) (c : Cmd) : Bool :=
  if bits c.arg0 1 0 = 1 then c.arg1 % 65536 != s.me && Compact.member (s.compact p) (c.arg1 % 65536)
  else match s.stream p (c.arg1 % 2 ^ 32) with
    | some e => e.2.preset && e.2.ksrc == 0 && e.2.owner == 0xFF && decide (1 ≤ e.2.limit)
    | none => false

/-- Every CHECKPOINT of the partition that has been taken ends as CUT (R406). -/
def cutCkpts (s : State) (p : PartId) : State :=
  ((s.mains (some p)).filter fun e => e.cmd.opc == 0x40 && e.started.isNone && e.ends.isNone).foldl
    (fun s e => s.endUnstarted (some p) e stCut) (s.failCkpt p stCut)

/-- Start a RESTORE (R406, R408): every CHECKPOINT of the partition ends as CUT; entries, parked messages and held results go; the
trailer is asked for. -/
def startRestore (s : State) (p : PartId) (c : Cmd) : State :=
  let buddy := if bits c.arg0 1 0 = 1 then some (c.arg1 % 65536) else none
  let sid := c.arg1 % 2 ^ 32
  let n := ((s.stream p sid).map (·.2.limit)).getD 0
  let s := ((s.cutCkpts p).discardBuckets p).modFuller p fun f =>
    { f with heldRes := [], restore := some { seq := c.seq, ckno := c.arg0 / 2 ^ 32, step := c.arg2, buddy := buddy, sid := sid,
                                              nchunk := n, trailer := none, next := 0, record := none, caps := [], reported := false } }
  let s := s.drainRx p
  match buddy with
  | some b => s.sendFuller p b c.seq (.logRequest (BitVec.ofNat 32 (c.arg0 / 2 ^ 32)))
  | none => s.askNext p sid (n - 1)

end State

open State

/-- CHECKPOINT (R349, R394, R405). -/
def execCheckpoint (p : PartId) (s : State) : Host.Outcome State Fault Refusal :=
  let s := s.settled (some p)
  match s.nextFuller p 0x40 with
  | none => .next s
  | some e =>
    match s.ckRefusal p e.cmd with
    | some st => .next (s.endNow p e.cmd.seq { status := st, cls := 2 })
    | none => .next ((s.start (some p) false e.cmd.seq).startCkpt p e.cmd)

/-- TILE_MARK (R393, R394): the mark descriptor and all before it have completed; the tile holds dispatch, and the last tile's mark
brings the freeze. -/
def execTileMark (t : TileId) (s : State) : Host.Outcome State Fault Refusal :=
  match s.partOf t with
  | none => .next s
  | some p =>
    match s.reachedMark p t with
    | none => .next s
    | some m =>
      if s.tiles[t].marked then .next s
      else
        .next (((s.modTile t fun x => { x with marked := true, mark := x.mark.filter fun k => decide (m.1 < k.1) }).modFuller p fun f =>
          { f with marks := f.marks ++ [(t, m.2.1, m.2.2)] }).tryFreeze p)

/-- CHECKPOINT_TRAILER (R401, R402): every other chunk has been issued, and the trailer is formed and sent on its way: to the host
in the partition's DMA slots, to a buddy over VC3. -/
def execCheckpointTrailer (p : PartId) (s : State) : Host.Outcome State Fault Refusal :=
  match s.parts[p].fuller.ckpt with
  | none => .next s
  | some c =>
    if !allIn c || !c.units.isEmpty || c.trailerSent then .next s
    else
      match c.buddy with
      | some b =>
        .next ((s.sendFuller p b c.seq (.chunk (BitVec.ofNat 32 c.ckno) c.chunks true (s.trailerOf p c).bytes)).modCkpt p fun c =>
          { c with trailerSent := true })
      | none =>
        if s.hostBusy (some p) .checkpoint then .next s else .next (s.hostTrailer p c)

/-- BUDDY_TRAILER_ACK (R402). -/
def execBuddyTrailerAck (p : PartId) (s : State) : Host.Outcome State Fault Refusal :=
  match s.takeInbox3 p fun _ m => m.any (·.isTrailerAck) with
  | some (src, some (.trailerAck n), s) =>
    match s.parts[p].fuller.ckpt with
    | some c => if c.trailerSent && c.buddy == some src && c.ckno == n.toNat then .next (s.endCkpt p c) else .next s
    | none => .next s
  | _ => .next s

/-- The buddy refuses a log: the CHECKPOINT that writes it, or the RESTORE that reads it, fails (R406, R410). -/
def State.refusedLog (s : State) (p : PartId) (src ckno : Nat) : State :=
  if s.parts[p].fuller.ckpt.any fun c => c.buddy == some src && c.ckno == ckno then s.failCkpt p stFailed
  else if s.parts[p].fuller.restore.any fun x => x.buddy == some src && x.ckno == ckno && !x.reported then s.failRestore p
  else s

/-- BUDDY_REFUSAL (R406, R410). -/
def execBuddyRefusal (p : PartId) (s : State) : Host.Outcome State Fault Refusal :=
  match s.takeInbox3 p fun _ m => m.any (·.isRefusal) with
  | some (src, some (.refusal n), s) => .next (s.refusedLog p src n.toNat)
  | _ => .next s

/-- BUDDY_CHUNK (R404): a chunk of a member's log is stored in its client area, or the log is refused. A poisoned one is stored as
poisoned. -/
def execBuddyChunk (p : PartId) (s : State) : Host.Outcome State Fault Refusal :=
  match s.takeInbox3 p fun src m => m.any (·.isChunk) || (m.isNone && (s.client p src).isSome) with
  | some (src, some (.chunk n i last d), s) =>
    if i = 0 then
      match s.openLog p src n.toNat with
      | some s => .next (s.takeChunk p src 0 last (some d))
      | none => .next (s.refuseLog p src n.toNat)
    else if (s.client p src).any fun c => c.recv == some (n.toNat, i) then .next (s.takeChunk p src i last (some d))
    else .next s
  | some (src, none, s) =>
    match (s.client p src).bind (·.recv) with
    | some r => .next (s.takeChunk p src r.2 false none)
    | none => .next s
  | _ => .next s

/-- BUDDY_LOG_REQUEST (R404, R408): the stored log of that number goes back to its member. -/
def execBuddyLogRequest (p : PartId) (s : State) : Host.Outcome State Fault Refusal :=
  match s.takeInbox3 p fun _ m => m.any (·.isLogRequest) with
  | some (src, some (.logRequest n), s) =>
    match s.client p src with
    | some c =>
      match c.logs.find? (·.1 == n.toNat % 2) with
      | some l => .next (s.returnLog p src n.toNat l.2 c ((l.2 - 1) :: List.range (l.2 - 1)))
      | none => .next (s.sendFuller p src 0 (.refusal n))
    | none => .next (s.sendFuller p src 0 (.refusal n))
  | _ => .next s

/-- RESTORE (R328, R408): a Tile-class command, it starts only when no other one is running. -/
def execRestore (p : PartId) (s : State) : Host.Outcome State Fault Refusal :=
  let s := s.settled (some p)
  match s.nextFuller p 0x41 with
  | none => .next s
  | some e =>
    if !s.restoreFrom p e.cmd then .next (s.endNow p e.cmd.seq { status := stInvalid, cls := 2 })
    else .next ((s.start (some p) false e.cmd.seq).startRestore p e.cmd)

/-- RESTORE_LOG_CHUNK (R408, R410): the next chunk from the buddy; a poisoned one stops the restore. -/
def execRestoreLogChunk (p : PartId) (s : State) : Host.Outcome State Fault Refusal :=
  let buddy := (s.parts[p].fuller.restore).bind (·.buddy)
  match s.takeInbox3 p fun src m => m.any (·.isLogChunk) || (m.isNone && buddy == some src) with
  | some (src, some (.logChunk n i count d), s) =>
    if buddy == some src && (s.parts[p].fuller.restore.any fun x => x.ckno == n.toNat) then .next (s.restoreChunk p i count (some d)) else .next s
  | some (src, none, s) => if buddy == some src then .next (s.restoreChunk p 0 0 none) else .next s
  | _ => .next s

/-- RESTORE_AGREEMENT (R411): a member's values reach the leader. -/
def execRestoreAgreement (p : PartId) (s : State) : Host.Outcome State Fault Refusal :=
  match s.takeInbox2 p fun _ m => m.isRestoreValues with
  | some (src, .restoreValues ckno step capd narw, s) =>
    if s.isLeader p then .next (s.noteRestore p src (ckno.toNat, step.toNat, capd, narw)) else .next s
  | _ => .next s

/-- GO (R411): the leader's answer completes the RESTORE. -/
def execGoMsg (p : PartId) (s : State) : Host.Outcome State Fault Refusal :=
  match s.takeInbox2 p fun _ m => m.isGo with
  | some (src, .go yes, s) => if src = Compact.leader (s.compact p) then .next (s.restoreGo p yes) else .next s
  | _ => .next s

end Sys2Proof.Machine
end

