-- ==== Sys2Proof/Machine/Image.lean ====
section
/-! DEFINITION. The flash (R465-R467), the configuration image (R468-R476) and the boot record (R488). -/

namespace Sys2Proof.Machine

/-- Header key and body key of the flash (R466). -/
def nvmKeys (seed : Bytes) : Bytes × Bytes :=
  let d := shake256 64 (seed ++ ascii "EZM6410 NVMK")
  (d.take 32, d.drop 32)

/-- Flash addresses of the slots (1 A, 2 B), of the certificate store and of the log area; entries of the log (R465). -/
def slotBase (slot : Nat) : Nat := if slot = 2 then 0x2000000 else 0
def certBase : Nat := 0x4000000
def logBase : Nat := 0x4100000
def logEntries : Nat := 245760
def slotBytes : Nat := 0x2000000

/-- An erased flash byte. -/
def erased : Byte := 0xFF

/-- A usable header of a slot (R467): its nonce, generation and image length. -/
structure SlotHdr where
  nonce : Bytes
  gen : Nat
  ilen : Nat
  deriving DecidableEq, Repr

/-- Read a slot header; none where code 02h applies (R473). -/
def readHdr (hkey : Bytes) (b : Bytes) : Option SlotHdr :=
  (Gcm.decrypt hkey (sub b 0 12) [] (sub b 16 32) (sub b 48 16)).bind fun pt =>
    if sub pt 0 4 == ascii "EZSL" && decide (1 ≤ field pt 12 4) && decide (field pt 12 4 ≤ 33554368) then
      some ⟨sub b 0 16, field pt 4 8, field pt 12 4⟩
    else none

/-- A slot header in flash (R467). -/
def writeHdr (hkey nonce : Bytes) (gen ilen : Nat) : Bytes :=
  let e := Gcm.encrypt hkey (nonce.take 12) [] (ascii "EZSL" ++ leBytes 8 gen ++ leBytes 4 ilen ++ zeros 16)
  nonce ++ e.1 ++ e.2

/-- Image bytes in and out of the flash (R467): XOR with the body key's keystream. -/
def imageCrypt (bkey nonce b : Bytes) : Bytes :=
  let ks := Aes.roundKeys bkey
  (((chunksOf 16 (b.length / 16 + 1) b).zipIdx).map fun x =>
    xorB x.1 ((Aes.blockWith ks (nonce.take 8 ++ beBytes 8 x.2)).take x.1.length)).flatten

-- The parts of an image (R468-R470).
def fwLen (b : Bytes) : Nat := field b 16 4
def cfwLen (b : Bytes) : Nat := field b 20 4
/-- The Radejo block without RSIG, and the owner block. -/
def radejoLen (b : Bytes) : Nat := 64 + fwLen b + cfwLen b
def ownerOf (b : Bytes) : Bytes := b.drop (radejoLen b + 3309)
def nroot (o : Bytes) : Nat := byteAt o 12
def tsizeOf (o : Bytes) : List Nat := (List.range 4).map fun i => byteAt o (16 + i)
def krngOf (o : Bytes) : List (Nat × Nat) := (List.range 8).map fun i => (byteAt o (32 + 2 * i), byteAt o (33 + 2 * i))
def schedOf (o : Bytes) : List Nat := (List.range 64).map fun i => byteAt o (48 + i)
def allowOf (o : Bytes) : List Nat := (List.range 64).map fun i => byteAt o (112 + i)
def dtmoOf (o : Bytes) : List Nat := (List.range 8).map fun i => byteAt o (24 + i)
def rootsOf (o : Bytes) : Bytes := sub o 256 (1952 * nroot o)

/-- Code 03h: magics, versions, lengths, reserved fields, codes. -/
def imageForm (b : Bytes) : Bool :=
  let o := ownerOf b
  sub b 0 4 == ascii "EZFW" && field b 4 2 == 1 && zeroRange b 6 2 && decide (4096 ≤ fwLen b) && decide (fwLen b ≤ 1835008) &&
    fwLen b % 16 == 0 && decide (cfwLen b ≤ 29360128) && zeroRange b 24 40 && sub o 0 4 == ascii "EZCF" && field o 4 2 == 1 &&
    decide (byteAt o 6 ≤ 1) && [1, 2, 4, 8].contains (byteAt o 7) && decide (1 ≤ nroot o) && decide (nroot o ≤ 8) &&
    decide (byteAt o 13 ≤ 1) && zeroRange o 14 2 && zeroRange o 22 2 && zeroRange o 240 16 &&
    field o 8 4 == 256 + 1952 * (nroot o + 1) + 3309 && b.length == radejoLen b + 3309 + field o 8 4

/-- No two key ranges of the partitions overlap. -/
def rangesApart : List (Nat × Nat) → Bool
  | [] => true
  | r :: rs => rs.all (fun q => decide (r.1 + r.2 ≤ q.1) || decide (q.1 + q.2 ≤ r.1)) && rangesApart rs

/-- Code 09h: the field rules of R475. -/
def imageFields (o : Bytes) : Bool :=
  let n := byteAt o 7
  let ts := tsizeOf o
  let c := field o 20 2
  let xs := [c % 16, c / 16 % 16, c / 256 % 16, c / 4096]
  ts.all (fun t => decide (1 ≤ t) && decide (t ≤ 16)) && decide (ts.getD 3 0 ≤ 8) &&
    (List.range 4).all (fun d => decide (xs.getD d 0 < ts.getD d 0)) &&
    (schedOf o).all (fun e => decide (e < n) || e == 15) && (List.range n).all (fun p => (schedOf o).contains p) &&
    ((krngOf o).take n).all (fun r => decide (1 ≤ r.2) && decide (1 ≤ r.1) && decide (r.1 + r.2 ≤ 256)) &&
    ((krngOf o).drop n).all (fun r => r == (0, 0)) && rangesApart ((krngOf o).take n) &&
    (dtmoOf o).all (fun d => decide (4 ≤ d) && decide (d ≤ 34)) && (allowOf o).all (fun a => decide (a ≤ 64))

/-- The sums of R420 hold: 4.00 W + 0.25 W × code a tile, at most 130 W a row and 1,062 W in all. -/
def imagePower (o : Bytes) : Bool :=
  let a := allowOf o
  let w (xs : List Nat) : Nat := xs.foldl (fun n c => n + 16 + c) 0
  (List.range 8).all (fun r => decide (w ((a.drop (8 * r)).take 8) ≤ 520)) && decide (w a ≤ 4248)

/-- The owner's policy key of an owner block (R470). -/
def ownKeyOf (o : Bytes) : Bytes := sub o (256 + 1952 * nroot o) 1952

/-- RSIG verifies under the ROM's key, over every earlier byte of the Radejo block (R469). -/
def rsigOk (b : Bytes) : Bool := Config.verifies Config.radejoKey (b.take (radejoLen b)) (sub b (radejoLen b) 3309)

/-- OSIG verifies under the image's own OWNKEY, over every earlier byte of the image (R470, R472). -/
def osigOk (b : Bytes) : Bool := Config.verifies (ownKeyOf (ownerOf b)) (b.take (b.length - 3309)) (b.drop (b.length - 3309))

/-- Verify an image by R473, codes 03h to 0Bh in their order: 00h where every check passes. `f` is the fuse count. -/
def verifyImage (b dpk : Bytes) (f : Nat) : Nat :=
  let o := ownerOf b
  let svn := field b 8 8
  if !imageForm b then 3
  else if !rsigOk b then 4
  else if !osigOk b then 5
  else if svn < f then 6
  else if 64 < svn then 7
  else if sub o 176 64 != shake256 64 dpk then 8
  else if !imageFields o then 9
  else if !imagePower o then 10
  else if byteAt o 6 = 0 ∧ byteAt o 13 = 1 then 11
  else 0

/-- What a verified image fixes (R470, R474, R476). -/
def Image.parse (b : Bytes) (gen : Nat) : Image :=
  let o := ownerOf b
  let digest := shake256 64 (rootsOf o)
  { dev := byteAt o 6 == 1, npart := byteAt o 7, track := byteAt o 13 == 1, tsize := tsizeOf o, coord := BitVec.ofNat 16 (field o 20 2),
    dtmo := dtmoOf o, krng := krngOf o, sched := schedOf o, allow := allowOf o,
    roots := (List.range (nroot o)).map fun i => sub o (256 + 1952 * i) 1952, rootsDigest := digest,
    torusDigest := (shake256 64 (sub o 16 4 ++ sub o 7 1 ++ sub o 48 64 ++ digest)).take 32, svn := field b 8 8, gen := gen,
    mfw := shake256 64 (b.take (radejoLen b)),
    mimg := shake256 64 (b.take (radejoLen b) ++ o.take (o.length - 3309)) }

/-- Bytes 12-47 of a boot record in clear (R488). -/
def bootBody (b : Boot) (outcome : Nat) : Bytes :=
  let im := b.image
  leBytes 4 b.scount ++ leBytes 1 b.cause ++ leBytes 1 outcome ++ leBytes 1 b.slot ++ leBytes 1 b.reasonA ++ leBytes 1 b.reasonB ++
    leBytes 1 b.fBefore ++ leBytes 1 b.certOk.toNat ++ [0] ++ leBytes 8 ((im.map (·.svn)).getD 0) ++ leBytes 8 ((im.map (·.gen)).getD 0) ++
    zeros 8

namespace Boot

/-- Write the boot record of a start (R488): the ring's next entry, its sector erased first once the ring has wrapped. -/
def record (b : Boot) (outcome : Nat) (nonce : Bytes) : Boot :=
  let body := bootBody b outcome
  let at_ := logBase + 64 * (b.ridx % logEntries)
  let flash := if logEntries ≤ b.ridx ∧ at_ % 4096 = 0 then b.flash.filter fun c => decide (c.1 < at_) || decide (at_ + 4096 ≤ c.1) else b.flash
  let head := beBytes 4 b.ridx ++ nonce
  let e := Gcm.encrypt (nvmKeys b.seed).1 head [] body
  { b with flash := Mem.writeD erased flash at_ (head ++ e.1 ++ e.2), lastRecord := body.take 28, lastRidx := b.ridx, ridx := b.ridx + 1 }

/-- Blown steps F (R483). -/
def blown (b : Boot) : Nat := ((List.range 64).filter fun i => b.fuses.getLsbD i).length

/-- The next fuse step of an advance to SVN (R484): the lowest unblown one not yet tried at this start, while F is below SVN. -/
def nextFuse (b : Boot) (svn : Nat) : Option Nat :=
  if b.blown < svn then (List.range 64).find? fun i => decide (b.fuseTried ≤ i) && !b.fuses.getLsbD i else none

/-- Blow one step; whether it reads back as blown is `took` (R484). -/
def blow (b : Boot) (i : Nat) (took : Bool) : Boot :=
  { b with fuseTried := i + 1, fuses := if took then b.fuses ||| BitVec.ofNat 64 (2 ^ i) else b.fuses }

/-- The header of a slot as the flash holds it; none where it is not usable. -/
def header (b : Boot) (base : Nat) : Option SlotHdr := readHdr (nvmKeys b.seed).1 (Mem.readD erased b.flash base 64)

/-- The image behind a usable header. -/
def imageAt (b : Boot) (base : Nat) (h : SlotHdr) : Bytes :=
  imageCrypt (nvmKeys b.seed).2 h.nonce (Mem.readD erased b.flash (base + 64) h.ilen)

/-- The usable header and image of a slot with the reason code of R473 it gives. -/
def judge (b : Boot) (slot : Nat) (readOk : Bool) : Option SlotHdr × Nat :=
  if !readOk then (none, 1)
  else
    match b.header (slotBase slot) with
    | none => (none, 2)
    | some h => (some h, verifyImage (b.imageAt (slotBase slot) h) b.dpk b.blown)

/-- Choose the image of a start (R477, R481): usable slots by GEN, A first of equals. -/
def choose (b : Boot) (readA readB : Bool) : Boot :=
  let a := b.judge 1 readA
  let c := b.judge 2 readB
  let genA : Nat := (a.1.map (·.gen)).getD 0
  let genB : Nat := (c.1.map (·.gen)).getD 0
  let aFirst := a.1.isSome && (c.1.isNone || decide (genB ≤ genA))
  let okA := a.1.isSome && a.2 == 0
  let okB := c.1.isSome && c.2 == 0
  let take (slot : Nat) (h : Option SlotHdr) : Option Image := h.map fun h => Image.parse (b.imageAt (slotBase slot) h) h.gen
  let useA := okA && (aFirst || !okB)
  let useB := okB && !useA
  -- A slot below the one that passed is not tried.
  let reasonA := if useB && !aFirst && a.1.isSome then 0 else a.2
  let reasonB := if useA && aFirst && c.1.isSome then 0 else c.2
  { b with slot := if useA then 1 else if useB then 2 else 0,
           chosen := if useA then take 1 a.1 else if useB then take 2 c.1 else none,
           reasonA := reasonA, reasonB := reasonB,
           recSlot := if a.1.isNone then (if c.1.isNone then 1 else 2) else if c.1.isNone then 1 else if genB < genA then 2 else 1,
           recGen := if a.1.isNone && c.1.isNone then 1 else max genA genB + 1 }

end Boot

end Sys2Proof.Machine
end

