-- ==== Sys2Proof/Machine/Ready.lean ====
section
/-! DEFINITION. READY: the end of a start (R478 t6), its boot record and the advance of the fuses (R484, R488). -/

namespace Sys2Proof.Machine

namespace State

/-- Size of a dimension of the torus. -/
def tsize (s : State) (d : Nat) : Nat := (s.boot.image.map fun i => i.tsize.getD d 1).getD 1

/-- Write the boot record of this start with an outcome (R488). -/
def bootRecord (s : State) (outcome : Nat) : State :=
  let d := s.draw 8
  { d.2 with boot := d.2.boot.record outcome d.1 }

/-- t4 of a start: every channel has trained or failed. -/
def channelsDone (s : State) : Bool := s.tiles.toList.all fun t => t.chans.toList.all fun c => c.trained || c.failed != 0

/-- t5 of a start: every engine pair in use has its verdict, and the switches of the passing pairs have opened. -/
def switchesDone (s : State) : Bool :=
  (List.finRange 4).all fun d =>
    decide (s.tsize d.val ≤ 1) ||
      match s.engines[portOf d.val true], s.engines[portOf d.val false] with
      | some true, some true => !s.hatband[d]
      | some false, _ | _, some false => true
      | _, _ => false

/-- READY once t4 and t5 have passed (R478 t6): the boot record is written, and the advance of the fuses begins. -/
def tryReady (s : State) : State :=
  match s.boot.image with
  | none => s
  | some _ =>
    if s.boot.phase == .training && s.channelsDone && s.switchesDone then
      let s := s.bootRecord 1
      { s with boot := { s.boot with mstate := .ready, phase := .ready, fuseTried := 0 }, board := { s.board with restarting := none } }
    else s

/-- One step of the advance that READY begins (R484): the step is blown and read back, and tried once more where it does not read
back. One step in each window of the Jewel (log 30). -/
def advanceFuse (s : State) : State :=
  match s.boot.image.filter fun _ => s.boot.phase == .ready with
  | none => s
  | some im =>
    match s.boot.nextFuse im.svn with
    | none => s
    | some i => { s with boot := s.boot.blow i (Config.fuseTakes s.free || Config.fuseTakes (s.free + 1)), free := s.free + 2 }

/-- t4 of a module restart (R447, R453, R461): every partition has been pounced, and is IDLE or
FAILED. -/
def endRestart (s : State) : State :=
  if s.boot.image.isNone || (s.partsUsed.any fun p => s.parts[p].pounce.isSome || s.parts[p].pstate == .off || s.parts[p].pstate == .scrubbing) then s
  else
    match s.board.mrst with
    | none => s
    | some m =>
      let s := { s with board := { s.board with mrst := none } }
      if m.2 then s
      else s.modLog none fun l =>
        { l with eno := l.eno + 1, episode := none,
                 queue := l.queue ++ [⟨⟨0x5F, 0x43, 0, false, false, false, (l.eno + 1) % 65536, l.epis % 65536, m.1,
                                        bits s.clocks.jewel 41 10⟩, false, false⟩] }

end State

end Sys2Proof.Machine
end

