-- ==== Sys2Proof/Machine/JobRows.lean ====
section
/-! DEFINITION. The job commands: JOB_OPEN, JOB_CLOSE, KEY_RELEASE, ATTEST, LOAD_PROGRAM, RUN, COPY_IN, COPY_OUT, BIND, UNBIND,
JEWEL_WINDOW, JEWEL_WATCHDOG_EXPIRY, and the SID ceiling (11, 12, R414). -/

namespace Sys2Proof.Machine

/-- Windows of a padded Jewel command (R363); 0 for one that is not padded. -/
def windowsOf (opc : Nat) : Nat := match opc with | 0x01 => 4 | 0x03 => 2 | 0x04 => 2 | _ => 0

namespace State

def service (s : State) (f : Fn) : Option Service := match f with | none => s.pf.service | some p => s.parts[p].service

def setService (s : State) (f : Fn) (v : Option Service) : State :=
  match f with | none => { s with pf := { s.pf with service := v } } | some p => s.modPart p fun x => { x with service := v }

/-- The Jewel command in service whose work is still to be done, if it has this opcode. -/
def serving (s : State) (f : Fn) (opc : Nat) : Option Cmd :=
  (s.service f).bind fun v => if v.opc = opc ∧ v.outcome.isNone then (s.inFlight f false v.seq).map (·.cmd) else none

/-- Note a Jewel command's outcome: the object it read is in, and its record waits for the end of its windows (R363). -/
def outcome (s : State) (f : Fn) (st cls result : Nat) : State :=
  let s := s.setService f ((s.service f).map fun v => { v with outcome := some (st, cls, result) })
  match s.service f with
  | some v => s.modDma f fun d => { d with reads := d.reads.filter fun r => r.owner != .command false v.seq }
  | none => s

/-- The object in host memory that a Jewel command reads: compact, key package, or nonce (R338, R340). -/
def objectOf (c : Cmd) : Nat × Nat :=
  match c.opc with
  | 0x01 | 0x03 => (c.arg0, c.arg1)
  | 0x04 => (c.arg0, 64)
  | _ => (0, 0)

/-- The leader challenges up to 8 announced members that have not joined, in ascending order (R377 t0, R534). -/
def challenge (s : State) (p : PartId) : State :=
  match s.parts[p].job with
  | none => s
  | some j =>
    if !(s.isLeader p && j.keySet) then s
    else
      let due := (j.members.filter fun m => m.announced && !m.joined && m.nonce.isNone).take 8
      due.foldl (fun s m =>
        let d := s.draw 64
        (d.2.modPart p fun x => { x with job := x.job.map fun j =>
          { j with members := j.members.map fun r => if r.coord == m.coord then { r with nonce := some d.1 } else r } }).sendJewel p
            m.coord.toNat (.challenge d.1)) s

/-- A member announces itself (R534). -/
def announce (s : State) (p : PartId) : State :=
  match s.parts[p].job with
  | none => s
  | some j => if j.announcing then s.sendJewel p (Compact.leader j.compact) (.opened (BitVec.ofNat 16 j.num) s.coord) else s

/-- A challenged member answers with its report (R377 t1). -/
def answer (s : State) (p : PartId) : State :=
  match s.parts[p].job with
  | none => s
  | some j =>
    match j.nonce, j.owesReport with
    | some n, true =>
      (s.sendJewel p (Compact.leader j.compact) (.report (s.report (some p) n []))).modPart p fun x =>
        { x with job := some { j with owesReport := false } }
    | _, _ => s

/-- The contributors that a KEYSET's body names as released, and the import secrets it holds. -/
def ksetReleased (b : Bytes) : List Nat := (List.range 64).filter (bit (field b 64 8) ·)

def ksetImports (b : Bytes) : List (Nat × Bytes) :=
  ((ksetReleased b).zipIdx.map fun x => (x.1, sub b (72 + 32 * x.2) 32)).filter fun x => x.2 != zeros 32

/-- In its next window a member installs the secrets of a KEYSET, goes to RUNNING and answers (R377 t4, R254, R414). The ESEQ
counts go on from the opening; a rejoining member's start at its era floor (R253). -/
def installKeys (s : State) (p : PartId) : State :=
  match s.parts[p].job with
  | none => s
  | some j =>
    match j.keyset with
    | none => s
    | some (body, era, sidCeil) =>
      let j := { j with jr := some (sub body 0 32), link := some (sub body 32 32), imports := ksetImports body, released := ksetReleased body,
                        keySet := true, eraCeil := max 1 era, eraAsked := none, sidCeil := sidCeil, sidAsked := none, sidNext := sidCeil,
                        eseq := if era = 0 then j.eseq else List.replicate 32 (era * 2 ^ 48), keyset := none }
      (s.modPart p fun x => { x with pstate := .running, job := some j }).sendJewel p (Compact.leader j.compact) .joined

/-- The end of a window of a function: its padded command counts it, and completes with the last one (R363). -/
def endWindow (s : State) (f : Fn) : State :=
  match s.service f with
  | none => s
  | some v =>
    if 1 < v.left then s.setService f (some { v with left := v.left - 1 })
    else
      match v.outcome with
      | none => s
      | some r =>
        if s.hostBusy f (.command false v.seq) then s
        else
          let s := (s.setService f none).complete f false v.seq { status := r.1, cls := r.2.1, result := r.2.2 }
          match f with
          | some p => if v.opc = 0x01 ∧ r.1 = stOk then s.announce p else s
          | none => s

/-- The start of a window: the next Jewel command starts (R363). -/
def beginService (s : State) (f : Fn) (opcs : List Nat) : State :=
  let s := s.settled f
  if (s.service f).isSome then s
  else
    match s.startable f .jewel with
    | none => s
    | some e =>
      if opcs.contains e.cmd.opc then
        ((s.start f false e.cmd.seq).setService f (some ⟨e.cmd.seq, e.cmd.opc, windowsOf e.cmd.opc, none⟩)).askObject f e.cmd.seq
          (objectOf e.cmd).1 (objectOf e.cmd).2
      else s

/-- What the Jewel does in a window for the messages of a partition's job. -/
def windowMessages (s : State) (p : PartId) : State :=
  let opening := (s.service (some p)).any fun v => v.opc == 0x01
  (((if opening then s else s.announce p).answer p).installKeys p).challenge p

end State

open State

/-- 10 ms of the Jewel's count: one window (R362). -/
def windowCycles : Nat := 10000000

/-- JEWEL_WINDOW (R362, R363, R461 t4): at its moment of the Jewel's count a window ends and the next begins, for the next
partition; a restart whose last partition has left pouncing ends; an advance of the fuses goes on by a step (R484). -/
def execJewelWindow (s : State) : Host.Outcome State Fault Refusal :=
  let w := s.jewel.window
  if s.clocks.jewel < windowCycles * w then .next s else
  let k := s.npart
  let part (i : Nat) : PartId := ⟨i % 8, Nat.mod_lt _ (by decide)⟩
  let s1 := if k = 0 ∨ w = 0 then s else s.endWindow (some (part ((w - 1) % k)))
  let s2 := (if w = 0 then s1 else s1.endWindow none).beginService none [0x04]
  let s3 := if k = 0 then s2 else (s2.beginService (some (part (w % k))) [0x01, 0x02, 0x03, 0x04]).windowMessages (part (w % k))
  .next ({ s3 with jewel := { s3.jewel with window := w + 1 } } : State).endRestart.advanceFuse

/-- JEWEL_WATCHDOG_EXPIRY (R455): module-fatal. -/
def execJewelWatchdogExpiry (s : State) : Host.Outcome State Fault Refusal := .next (s.mfatal 0x54 0x43 0)

/-- JOB_OPEN (R338, R364-R370): the compact in service is read and checked. -/
def execJobOpen (p : PartId) (obj : Option Bytes) (sigOk : Bool) (s : State) : Host.Outcome State Fault Refusal :=
  match s.serving (some p) 0x01 with
  | none => .next s
  | some c =>
    match obj with
    | none => .next (s.outcome (some p) stFailed 2 0)
    | some b =>
      if s.parts[p].pstate == .idle && s.compactOk p c b sigOk then .next ((s.openJob p b).outcome (some p) stOk 0 0)
      else .next (s.outcome (some p) stRefused 2 0)

/-- JOB_CLOSE (R339): every other command ends as CUT, the job is retired, and the partition pounces unless it is FAILED. -/
def execJobClose (p : PartId) (s : State) : Host.Outcome State Fault Refusal :=
  match s.serving (some p) 0x02 with
  | none => .next s
  | some c =>
    let s := (((s.cutOthers p c.seq).dropData (some p)).setService (some p) none)
    if s.parts[p].pstate = .failed then .next ((s.retire p).complete (some p) false c.seq { status := stOk })
    else .next (s.beginPounce p (bit c.arg0 0) (some c.seq) false)

/-- KEY_RELEASE (R374-R376): the package in service is checked and taken, or refused. -/
def execKeyRelease (p : PartId) (obj : Option Bytes) (sigOk : Bool) (kem : Option Bytes) (s : State) : Host.Outcome State Fault Refusal :=
  match s.serving (some p) 0x03 with
  | none => .next s
  | some c =>
    match obj with
    | none => .next (s.outcome (some p) stFailed 2 0)
    | some b =>
      match s.openPackage p c b sigOk kem with
      | some r => .next ((s.takePackage p (byteAt b 6) r.1 r.2).outcome (some p) stOk 0 0)
      | none => .next (s.outcome (some p) stRefused 2 0)

/-- ATTEST (R340, R372): the report over the caller's nonce is written to its buffer, if it fits. -/
def execAttest (f : Fn) (nonce : Option Bytes) (s : State) : Host.Outcome State Fault Refusal :=
  match s.serving f 0x04 with
  | none => .next s
  | some c =>
    match nonce with
    | none => .next (s.outcome f stFailed 2 0)
    | some n =>
      let d := if f.isNone then s.draw 2 else ([], s)
      let r := s.report f n d.1
      if c.arg2 < r.length then .next (d.2.outcome f stInvalid 2 0)
      else .next ((d.2.postWrite f ⟨.other, c.arg1, r, .command false c.seq, none⟩).outcome f stOk 0 r.length)

/-- LOAD_PROGRAM (R342): the image is decrypted into the tiles it names and measured, or refused. -/
def execLoadProgram (p : PartId) (obj : Option Bytes) (s : State) : Host.Outcome State Fault Refusal :=
  let s := s.settled (some p)
  match (s.startable (some p) .tile).filter fun e => e.cmd.opc == 0x10 with
  | none => .next s
  | some e =>
    match obj with
    | none => .next (s.endNow p e.cmd.seq { status := stFailed, cls := 2 })
    | some b =>
      let r := s.loadImage p e.cmd b
      .next (r.1.endNow p e.cmd.seq { status := if r.2 then stOk else stRefused, cls := if r.2 then 0 else 2 })

/-- RUN (R343): every tile of the partition starts at the entry slot. -/
def execRun (p : PartId) (s : State) : Host.Outcome State Fault Refusal :=
  let s := s.settled (some p)
  match (s.startable (some p) .tile).filter fun e => e.cmd.opc == 0x11 with
  | none => .next s
  | some e => .next ((s.start (some p) false e.cmd.seq).startRun p e.cmd)

/-- COPY_IN (R347): the next copy of the class, where it moves chunks to device memory. -/
def execCopyIn (p : PartId) (s : State) : Host.Outcome State Fault Refusal :=
  let s := s.settled (some p)
  match s.nextCopy p 0 (some 0x20) with
  | none => .next s
  | some e =>
    let c := e.cmd
    match s.stream p (c.arg0 % 2 ^ 32) with
    | none => .next (s.endNow p c.seq { status := stInvalid, cls := 2 })
    | some st =>
      if st.2.owner = 0xFF ∧ s.copyPlaceOk p c ∧ c.arg0 / 2 ^ 32 + ceilDiv c.arg2 4096 ≤ st.2.hw then
        .next ((s.start (some p) false c.seq).startCopyIn p c st.2)
      else .next (s.endNow p c.seq { status := stInvalid, cls := 2 })

/-- COPY_OUT (R347, R379): the next copy of the class, where it moves device memory to chunks. -/
def execCopyOut (p : PartId) (s : State) : Host.Outcome State Fault Refusal :=
  let s := s.settled (some p)
  match s.nextCopy p 0 (some 0x21) with
  | none => .next s
  | some e =>
    let c := e.cmd
    let inv := s.endNow p c.seq { status := stInvalid, cls := 2 }
    match s.stream p (c.arg0 % 2 ^ 32) with
    | none => .next inv
    | some st =>
      let st := st.2
      let i := c.arg0 / 2 ^ 32
      let kidx := c.arg1 / 2 ^ 56 - (s.keyRange p).1
      if st.owner ≠ 0xFF ∨ s.copyPlaceOk p c = false ∨ st.preset ∨ (i ≠ st.hwD ∧ i ≠ 0) ∨ st.limit < i + ceilDiv c.arg2 4096 then .next inv
      else if st.ksrc ≠ 0 ∧ releasedTo (s.compact p) kidx (st.ksrc - 1) = false then
        .next (s.endNow p c.seq { status := stRefused, cls := 2 })
      else if i = 0 ∧ 0 < st.hwD ∧ s.parts[p].copies.any (·.sid == st.sid) then .next s
      else if st.ended ∨ (i = 0 ∧ 0 < st.hwD ∧ st.epochD = 0xFFFFFFFF) then
        .next ((s.modStream p st.sid fun st => { st with ended := true }).endNow p c.seq { status := stFailed, cls := 2 })
      else .next ((s.start (some p) false c.seq).startCopyOut p c st)

/-- A started BIND need wait no longer: its SID is refused, or lies below the ceiling (R346, R414). -/
def State.bindReady (s : State) (p : PartId) (e : InFlight) : Bool :=
  s.parts[p].job.any fun j => !s.sidOk p e.cmd j || (sidNeeds e.cmd j).isNone

/-- A started UNBIND need wait no longer (R345). -/
def State.unbindReady (s : State) (p : PartId) (e : InFlight) : Bool :=
  (s.stream p (e.cmd.arg0 % 2 ^ 32)).isNone || !s.streamBusy p (e.cmd.arg0 % 2 ^ 32)

/-- BIND (R345, R346, R414): a stream-table entry is bound; one whose SID would reach the ceiling waits for it. -/
def execBind (p : PartId) (s : State) : Host.Outcome State Fault Refusal :=
  let s := s.settled (some p)
  match s.nextBind p 1 (s.bindReady p), s.parts[p].job with
  | some e, some j =>
    let s := if e.started.isSome then s else s.start (some p) false e.cmd.seq
    if !s.sidOk p e.cmd j then .next (s.complete (some p) false e.cmd.seq { status := stInvalid, cls := 2 })
    else if (sidNeeds e.cmd j).isSome then .next s
    else .next (s.bindStream p e.cmd j)
  | _, _ => .next s

/-- SID_CEILING_RAISE (R414): the waiting BIND's ceiling is asked of the leader, or noted by the leader itself. -/
def execSidCeilingRaise (p : PartId) (s : State) : Host.Outcome State Fault Refusal :=
  match s.nextBind p 1 (fun e => !s.bindReady p e), s.parts[p].job with
  | some e, some j =>
    match sidNeeds e.cmd j with
    | none => .next s
    | some n =>
      if s.isLeader p then .next (s.modPart p fun x => { x with job := some { j with sidCeil := n } })
      else if j.sidAsked = some n then .next s
      else .next ((s.modPart p fun x => { x with job := some { j with sidAsked := some n } }).sendJewel p (Compact.leader j.compact) (.sidRaise n))
  | _, _ => .next s

/-- UNBIND (R345): the entry is released once its transfers have completed. -/
def execUnbind (p : PartId) (s : State) : Host.Outcome State Fault Refusal :=
  let s := s.settled (some p)
  match s.nextBind p 2 (s.unbindReady p) with
  | none => .next s
  | some e =>
    let sid := e.cmd.arg0 % 2 ^ 32
    let s := if e.started.isSome then s else s.start (some p) false e.cmd.seq
    if (s.stream p sid).isNone then .next (s.complete (some p) false e.cmd.seq { status := stInvalid, cls := 2 })
    else if s.streamBusy p sid then .next s
    else .next ((s.modPart p fun x => { x with streams := x.streams.filter (·.2.sid != sid) }).complete (some p) false e.cmd.seq { status := stOk })

end Sys2Proof.Machine
end

