-- ==== Sys2Proof/Machine/Join.lean ====
section
/-! DEFINITION. Messages between the Jewels of a job's members: joining the job (R377, R378, R534), era ceilings (R254) and SID
ceilings (R414). -/

namespace Sys2Proof.Machine

/-- The key of a KEYSET (R377 t3). -/
def ksetKey (ss nonce : Bytes) : Bytes := shake256 32 (ss ++ ascii "EZM6410 KSET" ++ nonce)

/-- What a KEYSET holds in clear (R377 t3): JR, the link secret, the mask of released contributors, and for each of them in
ascending order its import secret, zeros where it released none (the manual lays out no bytes: log 10). -/
def ksetBody (j : Job) : Bytes :=
  let slots := (List.range 64).filter (j.released.contains ·)
  j.jr.getD (zeros 32) ++ j.link.getD (zeros 32) ++ leBytes 8 ((slots.map (2 ^ ·)).foldl (· + ·) 0) ++
    (slots.map fun i => ((j.imports.find? (·.1 == i)).map (·.2)).getD (zeros 32)).flatten

namespace State

def modJob (s : State) (p : PartId) (f : Job → Job) : State := s.modPart p fun x => { x with job := x.job.map f }

def modMember (s : State) (p : PartId) (src : Nat) (f : MemberRec → MemberRec) : State :=
  s.modJob p fun j => { j with members := j.members.map fun m => if m.coord.toNat == src then f m else m }

/-- The leader's record of a member. -/
def memberRec (s : State) (p : PartId) (src : Nat) : Option MemberRec :=
  s.parts[p].job.bind fun j => j.members.find? (·.coord.toNat == src)

/-- The checks of R377 t2 on a member's report over a nonce. -/
def reportOk (s : State) (p : PartId) (src : Nat) (r : Bytes) (authOk : Bool) : Bool :=
  authOk && byteAt r 12 == s.modeByte && sub r 96 64 == s.boot.mrom && some (sub r 160 64) == s.boot.image.map (·.mfw) &&
    decide (Compact.minsvn (s.compact p) ≤ field r 20 8) && some (sub r 288 64) == (s.parts[p].job).map (·.mcomp) &&
    field r 18 2 == s.jobNum (some p) && field r 16 2 == src

/-- KEYSET to a member that passed (R377 t3, R378, R414): encapsulated to the EK of its report. -/
def sendKeyset (s : State) (p : PartId) (m : MemberRec) (nonce r : Bytes) : State :=
  match s.parts[p].job with
  | none => s
  | some j =>
    let ek := sub r 2432 1184
    let n := s.free
    let ct := (List.range 1088).map (Config.kemCtByte ek n)
    let ss := (List.range 32).map (Config.kemSsByte ek n)
    let d := ({ s with free := n + 1 } : State).draw 12
    let e := Gcm.encrypt (ksetKey ss nonce) d.1 [] (ksetBody j)
    (d.2.modMember p m.coord.toNat fun m => { m with report := r, keyed := true }).sendJewel p m.coord.toNat
      (.keyset ct d.1 e.1 e.2 (if m.keyed then m.eraCeil else 0) (if m.keyed then m.sidCeil else 0))

/-- A member's report at the leader (R377 t2, t3). -/
def judgeReport (s : State) (p : PartId) (src : Nat) (r : Bytes) (authOk : Bool) : State :=
  match s.memberRec p src with
  | none => s
  | some m =>
    match m.nonce with
    | none => s
    | some n =>
      if sub r 32 64 ≠ n then s
      else if s.reportOk p src r authOk then s.sendKeyset p m n r
      else
        (s.modMember p src fun m => { m with announced := false, nonce := none }).raise p 0x1B 0x43 0 src

/-- Some ESEQ count of the member stands at its era ceiling (R254). -/
def eraDue (j : Job) : Bool := decide (j.eraCeil < 256) && j.eseq.any fun n => decide (j.eraCeil * 2 ^ 48 ≤ n)

end State

open State

/-- OPENED (R534): the leader records a member's announcement. One from a member that has joined is a rejoin (R378). -/
def execOpened (p : PartId) (s : State) : Host.Outcome State Fault Refusal :=
  match s.takeInbox2 p fun _ m => m.isOpened with
  | some (src, .opened job coord, s) =>
    if s.isLeader p && job.toNat == s.jobNum (some p) && coord.toNat == src then
      .next (s.modMember p src fun m => { m with announced := true, joined := false, nonce := none })
    else .next s
  | _ => .next s

/-- CHALLENGE (R377 t0, t1, R534): the member stops announcing itself and owes its report. -/
def execChallenge (p : PartId) (s : State) : Host.Outcome State Fault Refusal :=
  match s.takeInbox2 p fun _ m => m.isChallenge with
  | some (src, .challenge n, s) =>
    if src = Compact.leader (s.compact p) ∧ s.parts[p].pstate = .opening ∧ s.isLeader p = false then
      .next (s.modJob p fun j => { j with nonce := some (fit 64 n), owesReport := true, announcing := false })
    else .next s
  | _ => .next s

/-- MEMBER_REPORT (R377 t2, t3). -/
def execMemberReport (p : PartId) (authOk : Bool) (s : State) : Host.Outcome State Fault Refusal :=
  match s.takeInbox2 p fun _ m => m.isReport with
  | some (src, .report r, s) => if s.isLeader p then .next (s.judgeReport p src r authOk) else .next s
  | _ => .next s

/-- KEYSET (R377 t3, t4): opened under the shared secret that the member's KEM key gives; the member installs it in its next
window. -/
def execKeyset (p : PartId) (kem : Option Bytes) (s : State) : Host.Outcome State Fault Refusal :=
  match s.takeInbox2 p fun _ m => m.isKeyset with
  | some (src, .keyset _ iv body tag era sidCeil, s) =>
    match kem, (s.parts[p].job).bind (·.nonce) with
    | some ss, some n =>
      if src = Compact.leader (s.compact p) ∧ s.parts[p].pstate = .opening then
        match Gcm.decrypt (ksetKey ss n) iv [] body tag with
        | some b => .next (s.modJob p fun j => { j with keyset := some (b, era, sidCeil) })
        | none => .next s
      else .next s
    | _, _ => .next s
  | _ => .next s

/-- JOINED (R377 t5). -/
def execJoined (p : PartId) (s : State) : Host.Outcome State Fault Refusal :=
  match s.takeInbox2 p fun _ m => m.isJoined with
  | some (src, .joined, s) =>
    if s.isLeader p && (s.memberRec p src).any (·.keyed) then .next ((s.modMember p src fun m => { m with joined := true }).checkJoined p)
    else .next s
  | _ => .next s

/-- ERA_RAISE (R254): a member whose count stands at its ceiling asks the leader for the next; the leader raises its own. -/
def execEraRaise (p : PartId) (s : State) : Host.Outcome State Fault Refusal :=
  match s.parts[p].job with
  | none => .next s
  | some j =>
    if !eraDue j || j.eraAsked == some (j.eraCeil + 1) then .next s
    else if s.isLeader p then
      .next ((s.modJob p fun j => { j with eraCeil := j.eraCeil + 1 }).modMember p s.me fun m => { m with eraCeil := j.eraCeil + 1 })
    else
      .next ((s.modJob p fun j => { j with eraAsked := some (j.eraCeil + 1) }).sendJewel p (Compact.leader j.compact)
        (.eraRaise (j.eraCeil + 1)))

/-- ERA_CEILING_RECEIVE (R254): the leader records a member's raised ceiling and acknowledges it. -/
def execEraCeilingReceive (p : PartId) (s : State) : Host.Outcome State Fault Refusal :=
  match s.takeInbox2 p fun _ m => m.isEraRaise with
  | some (src, .eraRaise n, s) =>
    if s.isLeader p && (s.memberRec p src).isSome then
      .next ((s.modMember p src fun m => { m with eraCeil := max m.eraCeil n }).sendJewel p src (.eraAck n))
    else .next s
  | _ => .next s

/-- ERA_ACK (R254): the ceiling asked for is acknowledged; the held frames may go. -/
def execEraAck (p : PartId) (s : State) : Host.Outcome State Fault Refusal :=
  match s.takeInbox2 p fun _ m => m.isEraAck with
  | some (src, .eraAck n, s) =>
    if src = Compact.leader (s.compact p) ∧ (s.parts[p].job).bind (·.eraAsked) = some n then
      .next (s.modJob p fun j => { j with eraCeil := n, eraAsked := none })
    else .next s
  | _ => .next s

/-- SID_CEILING_RECEIVE (R414): the leader records a member's raised ceiling and acknowledges it. -/
def execSidCeilingReceive (p : PartId) (s : State) : Host.Outcome State Fault Refusal :=
  match s.takeInbox2 p fun _ m => m.isSidRaise with
  | some (src, .sidRaise n, s) =>
    if s.isLeader p && (s.memberRec p src).isSome then
      .next ((s.modMember p src fun m => { m with sidCeil := max m.sidCeil n }).sendJewel p src (.sidAck n))
    else .next s
  | _ => .next s

/-- SID_CEILING_ACK (R414): the ceiling a BIND waits for is acknowledged. -/
def execSidCeilingAck (p : PartId) (s : State) : Host.Outcome State Fault Refusal :=
  match s.takeInbox2 p fun _ m => m.isSidAck with
  | some (src, .sidAck n, s) =>
    if src = Compact.leader (s.compact p) ∧ (s.parts[p].job).bind (·.sidAsked) = some n then
      .next (s.modJob p fun j => { j with sidCeil := n, sidAsked := none })
    else .next s
  | _ => .next s

end Sys2Proof.Machine
end

