-- ==== Sys2Proof/Machine/SealRows.lean ====
section
/-! DEFINITION. The commands of the seal slices and the channels: SEAL_GRANULE_READ, COUNTER_MISS_FILL, SEAL_GRANULE_WRITE,
ROOT_UPDATE, PATROL_READ, REFRESH, ROOT_SCRUB, HELD_GRANULE_WRITE (06, 07, R400). -/

namespace Sys2Proof.Machine

namespace State

/-- The command whose work a request is. -/
def ownerCmd (s : State) (t : TileId) (o : Owner) : Option (Bool × Nat) :=
  (s.partOf t).bind fun p =>
    match o with
    | .command u q => some (u, q)
    | .tileDma _ _ => s.runCmd p
    | .copy q => some (false, q)
    | .checkpoint => s.parts[p].fuller.ckpt.map fun c => (false, c.seq)
    | .restore => s.parts[p].fuller.restore.map fun c => (false, c.seq)
    | _ => none

/-- The slice refuses every access to the granule: lockout, or a lost node above it (R212, R215). -/
def refused (s : State) (t : TileId) (g : Nat) : Bool :=
  (match s.partOf t with | some p => s.parts[p].ilock | none => true) || (s.tiles[t].slice.lostAbove (leafOfGran g)).isSome

/-- The granule's leaf and tag line are in the counter cache, or none is needed; the read of a granule never written needs no
tag line (R190). -/
def ready (s : State) (t : TileId) (g : Nat) (write : Bool) : Bool :=
  s.refused t g || (s.tiles[t].slice.cached (.leaf (leafOfGran g)) &&
    (s.tiles[t].slice.cached (granTagId g) || (!write && s.neverWritten t g)))

/-- Two requests are ordered: they meet in a granule, or in the slot of a record (R63, R232). -/
def ordered (q r : SealReq) : Bool := q.gran == r.gran || (q.owner != r.owner && overlaps q.slot r.slot)

/-- Request i must wait: an earlier request ordered with it conflicts (R63), or a wrap of its leaf by another descriptor is not
finished (R205). A checkpoint's read waits for no write: one that has not reached the slice is a later write than the cut
(R394, R400). -/
def mustWait (x : Seal) (i : Nat) (r : SealReq) : Bool :=
  (r.owner != .checkpoint && (x.reqs.take i).any fun q =>
    ordered q r && (q.data.isSome || (r.data.isSome && q.owner != .checkpoint))) ||
    x.skips.any fun k => k.1 == leafOfGran r.gran && k.2.1 != r.owner

/-- A part of a stash record beyond the header waits for it (R234). -/
def recordHeld (s : State) (t : TileId) (r : SealReq) : Bool :=
  match r.owner with
  | .tileDma _ id => (((s.op t id).map fun o => (DmaDesc.parse o.desc).comp).getD false) && decide (0 < r.dest) &&
      s.tiles[t].slice.reqs.any fun q => q.owner == r.owner && q.dest == 0
  | _ => false

/-- What a granule read brings to its owner. -/
def served (s : State) (t : TileId) (r : SealReq) (g : GranuleOut) : State :=
  match r.owner, s.partOf t with
  | .tileDma _ id, _ => s.dmaArrive t id r g
  | .copy q, some p => s.copyArrive p q r g
  | .checkpoint, some p => s.ckGranule p t r g
  | _, _ => s

/-- Take request i out of a slice's list. -/
def dropReq (s : State) (t : TileId) (i : Nat) : State := s.modSlice t fun x => { x with reqs := x.reqs.eraseIdx i }

/-- The first write of a descriptor that writes the whole leaf and would wrap it (R205); not where a checkpoint has still to
copy some of the leaf, whose granules are then read as R204 says. -/
def skipsWrap (s : State) (t : TileId) (r : SealReq) : Bool :=
  let x := s.tiles[t].slice
  r.wholeLeaf && !s.refused t r.gran && !s.frozenAt t r.gran &&
    (((x.find (.leaf (leafOfGran r.gran))).map fun c => leafMinor c.data (r.gran % 64) == 127).getD false) &&
    (granulesOf (leafOfGran r.gran)).all fun g => !uncopied x g && x.reqs.any fun q => q.owner == r.owner && q.gran == g && q.data.isSome

/-- Start such a wrap: a new MAJOR, every minor 0, no read; the leaf is written back (R205, R207). -/
def startSkip (s : State) (t : TileId) (r : SealReq) (data : Bytes) : State :=
  let l := leafOfGran r.gran
  match s.tiles[t].slice.find (.leaf l) with
  | none => s
  | some c =>
    if leafMajor c.data + 1 ≥ 2 ^ 56 then s.freezeLeaf t l c.data
    else
      let s := (((s.pinChain t l).setLeaf t l (leafOf (leafMajor c.data + 1) false)).issueGranule t r.gran r.keyid data r.psn).flushLeaf t l
      s.modSlice t fun x => { x with skips := x.skips ++ [(l, r.owner, (granulesOf l).filter (· != r.gran))] }

/-- One granule of a wrap of R205: written with MINOR = 0; a slice that refuses the access writes nothing (R212, R215). -/
def skipWrite (s : State) (t : TileId) (r : SealReq) (data : Bytes) : State :=
  let l := leafOfGran r.gran
  (if s.refused t r.gran then s else s.issueGranule t r.gran r.keyid data r.psn).modSlice t fun x =>
    { x with skips := (x.skips.map fun k => if k.1 == l then (k.1, k.2.1, k.2.2.filter (· != r.gran)) else k).filter fun k => !k.2.2.isEmpty }

/-- A granule write, by R201, R204, R205 or R206. -/
def writeReq (s : State) (t : TileId) (r : SealReq) (data : Bytes) (lines : List LineIn) : State :=
  if s.tiles[t].slice.skips.any fun k => k.1 == leafOfGran r.gran && k.2.2.contains r.gran then s.skipWrite t r data
  else if s.skipsWrap t r then s.startSkip t r data
  else s.mergeWrite t r.gran r.keyid r.lo r.hi data r.psn lines

/-- The owner of a granule write that a frozen leaf refused fails (R206, R334). -/
def writeRefused (s : State) (t : TileId) (r : SealReq) : State :=
  match r.owner, s.partOf t with
  | .tileDma _ _, some p => s.meetClass p (s.runCmd p) 2
  | .copy q, some p => s.modCopy p q fun c => { c with failed := true }
  | _, _ => s

/-- After a write its copy may be done; a RUN whose loss record waited completes. -/
def writeServed (s : State) (t : TileId) (r : SealReq) : State :=
  match r.owner, s.partOf t with
  | .copy q, some p => s.copyStep p q
  | .lossRecord q, some p =>
    match s.parts[p].runEnd with
    | some e => s.endRun p q { status := e.1, cls := e.2.1, result := e.2.2.1, flags := e.2.2.2 }
    | none => s
  | _, _ => s

/-- Perform the write of request i. -/
def doWrite (s : State) (t : TileId) (i : Nat) (r : SealReq) (data : Bytes) (lines : List LineIn) : State :=
  let s1 := s.asCmd t (s.ownerCmd t r.owner) fun s => s.writeReq t r data lines
  let s1 := s1.dropReq t i
  (if !s.refused t r.gran && s1.frozenAt t r.gran then s1.writeRefused t r else s1).writeServed t r

/-- A poisoning of the granule is held for its copying (R400). -/
def poisonHeld (x : Seal) (g : Nat) : Bool := x.reqs.any fun q => q.gran == g && q.owner == .poison

/-- Perform the read of request i. -/
def doRead (s : State) (t : TileId) (i : Nat) (r : SealReq) (lines : List LineIn) : State :=
  if poisonHeld s.tiles[t].slice r.gran then (s.dropReq t i).served t r poisonedOut
  else
    let s := (s.dropReq t i).modSlice t fun x => { x with who := s.ownerCmd t r.owner }
    let q := s.readGranule t r.gran r.keyid lines
    (q.1.modSlice t fun x => { x with who := none }).served t r q.2.2

/-- The patrol found a node copy bad whose node the cache holds (R198, R208): a dirty node is written back with both copies, a
clean one over the bad copy. -/
def rewriteNode (s : State) (t : TileId) (k line : Nat) (c : CLine) : State :=
  if c.dirty then s.holding t c.id.ancestors fun s => s.writeBack t c else s.writeMeta t k line c.data

/-- The patrol found a leaf, tag or leaf-tag line bad that the cache holds: the line in the cache is trusted and is written over
the bad one (R198, R208; log 45). -/
def rewriteCached (s : State) (t : TileId) (m : MetaId) : State :=
  match m with
  | .leaf l => s.holding t (leafLines l) fun s =>
      let s := s.pinChain t l
      match s.tiles[t].slice.find m with
      | some c => s.writeBack t c
      | none => s
  | _ =>
    match s.tiles[t].slice.find m with
    | some c => s.writeBack t { c with dirty := true }
    | none => s

/-- A data line read as UNCORR by the patrol: its granule is poisoned (R208, R209). -/
def patrolData (s : State) (t : TileId) (g key : Nat) : State :=
  let s := s.fillMiss t g key true [] []
  match s.tiles[t].slice.find (.leaf (leafOfGran g)) with
  | none => s
  | some _ =>
    if s.neverWritten t g ∨ s.refused t g then s
    else (s.logGranule t g false).poisonFailed t g ((s.storedKeyid t g).getD key) []

/-- A tag line read as UNCORR by the patrol: a cached one is written again, another fetched (R208). -/
def patrolTag (s : State) (t : TileId) (k : ChanId) (g : Nat) (inp : LineIn) : State :=
  if s.tiles[t].slice.cached (granTagId g) then (s.raiseChan t 0x13 k.val g).rewriteCached t (granTagId g) else s.fetchTagLine t g inp

/-- The same of a leaf. -/
def patrolLeaf (s : State) (t : TileId) (k : ChanId) (l key : Nat) (inp : LineIn) : State :=
  if s.tiles[t].slice.cached (.leaf l) then (s.raiseChan t 0x14 k.val l).rewriteCached t (.leaf l)
  else s.fillMiss t (64 * l) key false [inp] []

/-- The same of the leaf-tag line of leaf l, the channel's n-th. -/
def patrolLeafTag (s : State) (t : TileId) (k : ChanId) (l n : Nat) (inp : LineIn) : State :=
  if s.tiles[t].slice.cached (.leafTag k.val n) then (s.raiseChan t 0x15 k.val l).rewriteCached t (.leafTag k.val n)
  else s.fetchLeafTag t l inp

/-- The same of a node, of level `n.1`, index `n.2`. -/
def patrolNode (s : State) (t : TileId) (k : ChanId) (line : Nat) (n : Nat × Nat) (key : Nat) : State :=
  let s := if s.tiles[t].slice.cached (.node n.1 n.2) then s else s.fillMiss t (64 * (n.2 * 8 ^ n.1)) key false [] []
  match s.tiles[t].slice.find (.node n.1 n.2) with
  | none => s
  | some c => (s.raiseChan t 0x04 k.val (n.1 * 2 ^ 24 + n.2)).rewriteNode t k.val line c

/-- What the slice does about line n of a channel that the patrol read as UNCORR (R175, R197, R208). -/
def patrolFail (s : State) (t : TileId) (k : ChanId) (line : Nat) (inp : LineIn) : State :=
  match s.partOf t with
  | none => s
  | some p =>
    if line < tagArrayLine then s.patrolData t (4 * (line / 8) + k.val) (s.key0 p)
    else if line < leafArrayLine then s.patrolTag t k (32 * (line - tagArrayLine) + k.val) inp
    else if line < leafTagLine then s.patrolLeaf t k (4 * (line - leafArrayLine) + k.val) (s.key0 p) inp
    else if line < nodeLine then s.patrolLeafTag t k (32 * (line - leafTagLine) + k.val) (line - leafTagLine) inp
    else
      match nodeAt k.val (line - nodeLine) with
      | none => s
      | some n => s.patrolNode t k line n (s.key0 p)

/-- The slice fetches for a request: for a DMA descriptor no further than 256 KiB of tile offsets ahead of its transfer (R199). -/
def ahead (x : Seal) (r : SealReq) : Bool :=
  match r.owner with
  | .tileDma _ _ => (x.reqs.find? (·.owner == r.owner)).all fun q => decide (r.gran < q.gran + 512)
  | _ => true

end State

open State

/-- SEAL_GRANULE_READ (R188, R190, R208, R209): request i of the tile's slice is read, and its verdict given to its owner. -/
def execSealGranuleRead (t : TileId) (i : Nat) (lines : List LineIn) (s : State) : Host.Outcome State Fault Refusal :=
  match s.tiles[t].slice.reqs[i]? with
  | some r =>
    if r.data.isNone && !mustWait s.tiles[t].slice i r && s.ready t r.gran false && !s.recordHeld t r && s.copyTurn t i r then .next (s.doRead t i r lines)
    else .next s
  | none => .next s

/-- COUNTER_MISS_FILL (R199, R200): the metadata lines that request i misses arrive and are verified. -/
def execCounterMissFill (t : TileId) (i : Nat) (lines mirrors : List LineIn) (s : State) : Host.Outcome State Fault Refusal :=
  match s.tiles[t].slice.reqs[i]? with
  | some r =>
    if s.ready t r.gran r.data.isSome || !ahead s.tiles[t].slice r then .next s
    else .next ((s.asCmd t (s.ownerCmd t r.owner) fun s => s.fillMiss t r.gran r.keyid r.data.isSome lines mirrors).countMiss t)
  | none => .next s

/-- SEAL_GRANULE_WRITE (R201, R204-R206): request i is written; one to a granule a checkpoint has still to copy is held
(R400). -/
def execSealGranuleWrite (t : TileId) (i : Nat) (lines : List LineIn) (s : State) : Host.Outcome State Fault Refusal :=
  match s.tiles[t].slice.reqs[i]? with
  | some r =>
    match r.data with
    | none => .next s
    | some d =>
      if uncopied s.tiles[t].slice r.gran then
        .next (s.modSlice t fun x => { x with reqs := x.reqs.modify i fun q => { q with held := true } })
      else if r.held || mustWait s.tiles[t].slice i r || !s.ready t r.gran true then .next s
      else .next (s.doWrite t i r d lines)
  | none => .next s

/-- HELD_GRANULE_WRITE (R400): the first held write whose granule has been copied proceeds. -/
def execHeldGranuleWrite (t : TileId) (s : State) : Host.Outcome State Fault Refusal :=
  let x := s.tiles[t].slice
  match x.reqs.findIdx? fun r => r.held && !uncopied x r.gran with
  | some i => .next (s.modSlice t fun x => { x with reqs := x.reqs.modify i fun q => { q with held := false } })
  | none => .next s

/-- ROOT_UPDATE (R202): the Jewel writes the entry of the slice's oldest request with fresh check bits and acknowledges. -/
def execRootUpdate (t : TileId) (s : State) : Host.Outcome State Fault Refusal :=
  match s.tiles[t].slice.rootReqs with
  | [] => .next s
  | r :: rest =>
    .next ({ s with jewel := { s.jewel with roots := s.jewel.roots.set (rootIdx t r.1) ⟨r.2, 0⟩ } }.modSlice t fun x => { x with rootReqs := rest })

/-- The channels of a FAILED partition are left as they are: in self-refresh, or idle (R460). -/
def State.tended (s : State) (t : TileId) : Bool := (s.partOf t).all fun p => s.parts[p].pstate != .failed

/-- The partition of the tile is in no reset: its patrol stops at the reset's start (R180). -/
def State.patrols (s : State) (t : TileId) : Bool := (s.partOf t).all fun p => s.parts[p].reset.isNone

/-- Lines of a channel (R175). -/
def channelLines : Nat := 134217728

/-- PATROL_READ (R175, R176): the next line is read and decoded; a corrected line is written back, an uncorrectable one goes to
the seal slice. -/
def execPatrolRead (t : TileId) (k : ChanId) (line : LineIn) (s : State) : Host.Outcome State Fault Refusal :=
  let c := s.tiles[t].chans[k]
  if c.trained && c.init && !c.selfRefresh && s.tended t && s.patrols t then
    let n := c.patrol
    let r := s.readLine t k n line none
    let s1 := match r.1.outcome, line with
      | .corr, .data errs => r.2.modChan t k fun c => c.storeLine n (decodeLine (flipSyms (c.stored n) errs) none).2.1
      | .uncorr, _ => r.2.patrolFail t k n line
      | _, _ => r.2
    let last := n + 1 = channelLines
    .next (s1.modChan t k fun c => { c with patrol := if last then 0 else n + 1, corrLogged := c.corrLogged && !decide last,
                                            pins := if last then List.replicate 24 0 else c.pins })
  else .next s

/-- REFRESH (R178): the channel's next per-bank refresh command, on its own fixed schedule. -/
def execRefresh (t : TileId) (k : ChanId) (s : State) : Host.Outcome State Fault Refusal :=
  let c := s.tiles[t].chans[k]
  if c.trained && !c.selfRefresh && s.tended t then .next (s.modChan t k fun c => { c with refreshes := c.refreshes + 1 }) else .next s

/-- The root-store entry whose scrub falls on the Jewel's present cycle: entry i at cycle 1,000,000 m + 488 i (R213). -/
def State.scrubDue (s : State) : Option (Fin 2048) :=
  let c := s.clocks.jewel % 1000000
  if h : c % 488 = 0 ∧ c / 488 < 2048 then some ⟨c / 488, h.2⟩ else none

/-- ROOT_SCRUB (R213): the root-store entry that is due is checked; `flips` are the bits in error since it was last checked. -/
def execRootScrub (flips : BitVec 64) (s : State) : Host.Outcome State Fault Refusal :=
  if s.boot.image.isNone then .next s
  else
    match s.scrubDue with
    | none => .next s
    | some ix =>
      let r := s.jewel.roots[ix]
      let s := { s with jewel := { s.jewel with roots := s.jewel.roots.set ix { r with flips := r.flips ^^^ flips }, scrub := (ix.val + 1) % 2048 } }
      .next (s.readRoot ⟨ix.val / 32 % 64, Nat.mod_lt _ (by decide)⟩ (ix.val % 32))

end Sys2Proof.Machine
end

