-- ==== Sys2Proof/Machine/Resets.lean ====
section
/-! DEFINITION. Partition resets (R336, R456-R460, R463), function-level resets (R501), the end of pouncing (R381, R382, R453),
the writing of the logs (R452). -/

namespace Sys2Proof.Machine

/-- The unit whose quantity of R29 is out of balance, as SRC has it (R451). -/
def balSrc (row : Nat) : Nat := match row with | 2 => 0x40 | 6 => 0x42 | _ => 0xFF

/-- 20 ms, 5 s and 240 s of the Jewel's count (R382, R455). -/
def resetLimit : Nat := 20000000
def pounceLimit (deep : Bool) : Nat := if deep then 240000000000 else 5000000000

/-- A tile at t1 of a partition reset: dispatch stopped, everything begun or waiting in its engines dropped; its slice keeps only
the writes already under way (R203): the rest of a wrap, and poisonings. -/
def Tile.halted (t : Tile) : Tile :=
  { t with running := false, ops := [], loops := [], marked := false, mark := [], stepReq := false, seqs := [], rlog := [], overflowed := [],
           replayed := [],
           slice := { t.slice with reqs := t.slice.reqs.filter fun r =>
             r.data.isSome && (r.owner == .poison || t.slice.skips.any fun k => k.1 == leafOfGran r.gran && k.2.2.contains r.gran) } }

/-- A tile at t3 (R457, R458): all but its tables, channels and counters is zeroed; the escapement restarts at n = 1,024. -/
def Tile.cleared (t : Tile) : Tile :=
  { Tile.fresh with reg := t.reg, rgErr := t.rgErr, regUsed := t.regUsed, k := t.k, droops := t.droops, freq := t.freq, estSum := t.estSum,
                    halt := t.halt, bubbles := t.bubbles, bankcf := t.bankcf, ccmiss := t.ccmiss, ewait := t.ewait, count := t.count,
                    slice := { Seal.empty with badTags := t.slice.badTags, badLeafTags := t.slice.badLeafTags, lost := t.slice.lost },
                    chans := t.chans }

/-- A tile whose slice is flushed, or past its time for it: no request, an empty cache, its channels in self-refresh but for a
failed one, which is left idle (R180, R460). -/
def Tile.rest (t : Tile) : Tile :=
  { t with slice := { t.slice with rootReqs := [], cache := [] }, chans := t.chans.map fun c => { c with selfRefresh := c.failed == 0 } }

/-- A window as module start and a function-level reset leave it (R316). -/
def Window.rewound (w : Window) : Window := { w with mcur := 0, ucur := 0, mexp := 1, uexp := 1 }

/-- A function's cursors are reset; the slots there have not been found bad (R316, R318). -/
def State.rewindWindow (s : State) (f : Fn) : State := ((s.modWin f Window.rewound).setBad f false none).setBad f true none

namespace State

/-- Dispatch counts ahead of what was issued are withdrawn (R458: chunks issued before t1 stay accepted). -/
def rewindStreams (s : State) (p : PartId) : State :=
  s.modPart p fun x => { x with streams := x.streams.map fun e => (e.1, { e.2 with hwD := e.2.hw, epochD := e.2.epoch }) }

/-- t1 of a partition reset (R457). A raised ceiling that was asked for is asked for again (R254, R414). -/
def stopPartition (s : State) (p : PartId) : State :=
  let s := (((s.discardBuckets p).discardFrames p true false).dropData (some p)).rewindStreams p
  let s := s.modPart p fun x =>
    { x with run := none, runStop := none, runEnd := none, copies := [], service := none, asm := [],
             job := x.job.map fun j => { j with eraAsked := none, sidAsked := none },
             fuller := { x.fuller with ckpt := none, marks := [], restore := none, heldRes := [] } }
  (s.tilesOf p).foldl (fun s t => s.modTile t Tile.halted) s

/-- One request of a slice, if it is a write, finished at once. -/
def finishWrite (s : State) (t : TileId) (r : SealReq) : State :=
  match r.data with
  | some d => s.asCmd t none fun s => (s.fillMiss t r.gran r.keyid true [] []).writeReq t r d []
  | none => s

/-- The writes a slice still has under way (R203 step 1). -/
def finishWrites (s : State) (t : TileId) : State :=
  (s.tiles[t].slice.reqs.foldl (fun s r => s.finishWrite t r) s).modSlice t fun x => { x with reqs := [] }

/-- A dirty line's place in the order of R203 step 2. -/
def flushRank : MetaId → Nat
  | .tagLine _ _ => 0 | .leaf _ => 1 | .leafTag _ _ => 2 | .node l _ => 2 + l

/-- Write back every dirty line of one rank. -/
def flushAt (s : State) (t : TileId) (rank : Nat) : State :=
  (s.tiles[t].slice.cache.filter fun c => c.dirty && flushRank c.id == rank).foldl (fun s c => s.writeBack t c) s

/-- The seal flush of a tile (R203), and its channels in self-refresh (R180). -/
def flushTile (s : State) (t : TileId) : State :=
  let s := (List.range 8).foldl (fun s i => s.flushAt t i) (s.finishWrites t)
  let rs := s.tiles[t].slice.rootReqs
  let roots := rs.foldl (fun (v : Vector Root 2048) (r : Nat × Nat) => v.set (rootIdx t r.1) ⟨r.2, 0⟩) s.jewel.roots
  ({ s with jewel := { s.jewel with roots := roots } } : State).modTile t Tile.rest

/-- t3 of a partition reset. -/
def clearPartition (s : State) (p : PartId) : State := (s.tilesOf p).foldl (fun s t => s.modTile t Tile.cleared) s

/-- t3 of a reset whose flush did not end: no dirty line is written back, and the channels enter self-refresh (R180, R203). -/
def clearAtRest (s : State) (p : PartId) : State := (s.tilesOf p).foldl (fun s t => (s.modTile t Tile.cleared).modTile t Tile.rest) s

/-- Tests of the self-test that tiles of the partition failed (R459). -/
def selfTest (s : State) (p : PartId) (fails : List (TileId × Nat)) : State :=
  (fails.filter fun f => s.partOf f.1 == some p).foldl (fun s f => s.raise p 0x45 f.1.val 0 f.2) s

def setReset (s : State) (p : PartId) (ev : Nat) : State := s.modPart p fun x => { x with reset := x.reset.map fun r => { r with ev := ev } }

/-- The event the reset of p has reached; none where no reset is under way. -/
def resetAt (s : State) (p : PartId) : Option Nat := (s.parts[p].reset).map (·.ev)

/-- A function-level reset takes effect on a partition with no reset under way (R501). -/
def flrNow (s : State) (p : PartId) : State :=
  let quit (s : State) : State :=
    (s.parts[p].win.table.map fun e => (e.urgent, e.cmd.seq)).foldl (fun s c => s.completeNow (some p) c.1 c.2 { status := stCut } false) (s.discardBuckets p)
  let rewind (s : State) : State := s.rewindWindow (some p)
  match s.parts[p].pstate with
  | .idle | .opening | .running => (s.startReset p false true).modDma (some p) fun d => { d with flr := true }
  | .scrubbing => (rewind (quit s)).modPart p fun x => { x with pounce := x.pounce.map fun q => { q with close := none } }
  | .failed => rewind (((quit s).dropData (some p)).retire p)
  | .off | .resetting => s

/-- A function-level reset of a partition's virtual function (R463, R501). -/
def flr (s : State) (p : PartId) : State :=
  if (s.dma (some p)).flr then s
  else if s.parts[p].reset.isSome then s.startReset p false true
  else s.flrNow p

/-- t6 of a partition reset (R457), and t2, t3 of R501 where a function-level reset caused it. -/
def endReset (s : State) (p : PartId) : State :=
  match s.parts[p].reset with
  | none => s
  | some r =>
    let s := s.regMergeLogged p none
    let es := s.parts[p].win.table.filterMap fun e => e.ends.map fun st => (e.urgent, e.cmd.seq, st)
    let s := es.foldl (fun s e => s.completeNow (some p) e.1 e.2.1 { status := e.2.2 } (!r.flr)) s
    let s := (s.tilesOf p).foldl (fun s t => s.modTile t fun x => { x with n := 1024 }) s
    let s := if r.failed then s.failNow p else s.modPart p fun x => { x with reset := none, pstate := r.prior }
    let s := (s.tryLockout p).episodeClose p
    if r.flr then
      let s := (s.rewindWindow (some p)).modDma (some p) fun d => { d with flr := false }
      if s.parts[p].job.isNone then s
      else if r.failed then s.retire p
      else s.beginPounce p false none false
    else if r.flrAfter then s.flrNow p
    else s

-- The end of pouncing.

/-- A read-back line differs from what pouncing wrote there: DETAIL of the entry, the node slot or the leaf index (R450). -/
def mismatch (s : State) (t : TileId) (k : ChanId) (line : Nat) (o : LineOut) : Option Nat :=
  match s.tiles[t].chans[k].tree with
  | none => none
  | some (tile, c, secret) =>
    let want := pouncedData tile c secret line
    if (o.outcome = .clean ∨ o.outcome = .corr) ∧ o.data = want then none
    else if nodeLine ≤ line then some (line - nodeLine)
    else
      let j := ((List.range 8).find? fun j => sub o.data (8 * j) 8 != sub want (8 * j) 8).getD 0
      some (4 * (8 * (line - leafTagLine) + j) + k.val)

/-- One node copy or leaf-tag line of the partition is read back (R381 step 6): a mismatch is an integrity failure and the line is
rewritten; a second one takes the partition to FAILED. -/
def verifyLine (s : State) (p : PartId) (r : ReadBack) : State :=
  if s.partOf r.tile ≠ some p ∨ s.parts[p].pounce.isNone ∨ r.line < leafTagLine ∨ pouncedLine r.chan.val r.line = false then s
  else
    let a := s.readLine r.tile r.chan r.line r.first (some 0)
    match s.mismatch r.tile r.chan r.line a.1 with
    | none => a.2
    | some d =>
      let s := (a.2.raise p 0x25 r.tile.val r.chan.val d).modChan r.tile r.chan fun c =>
        match c.tree with
        | some (tile, k, secret) => c.writeLine r.line (pouncedData tile k secret r.line) 0 false
        | none => c
      let b := s.readLine r.tile r.chan r.line r.second (some 0)
      if (s.mismatch r.tile r.chan r.line b.1).isSome then b.2.raise p 0x48 r.tile.val r.chan.val 0 else b.2

/-- Pouncing ends in IDLE, and the JOB_CLOSE that waits for it completes (R381 step 7). -/
def endPounce (s : State) (p : PartId) : State :=
  match s.parts[p].pounce with
  | none => s
  | some q =>
    let s := s.modPart p fun x => { x with pounce := none, pstate := .idle }
    match q.close with
    | some c => s.complete (some p) false c { status := stOk }
    | none => s

end State

open State

/-- PARTITION_RESET (R31, R457 t0, t1): the reset that a trigger started stops the partition. `bal` is a trigger no other row brings:
a row of R29 found out of balance. -/
def execPartitionReset (p : PartId) (bal : Option (Fin 7)) (s : State) : Host.Outcome State Fault Refusal :=
  let s := match bal with
    | some r => s.raise p 0x44 (balSrc (r.val + 1)) 0 (r.val + 1)
    | none => s
  if s.resetAt p = some 0 then .next ((s.stopPartition p).setReset p 1) else .next s

/-- RESET_FLUSH_DONE (R203, R457 t2, t3). -/
def execResetFlushDone (p : PartId) (s : State) : Host.Outcome State Fault Refusal :=
  if s.resetAt p = some 1 then .next ((((s.tilesOf p).foldl (fun s t => s.flushTile t) s).clearPartition p).setReset p 3) else .next s

/-- FLUSH_TIMEOUT (R203): partition-fatal; the reset goes on without the rest of the flush. -/
def execFlushTimeout (p : PartId) (s : State) : Host.Outcome State Fault Refusal :=
  if s.resetAt p = some 1 then .next (((s.raise p 0x41 0xFF 0 0).clearAtRest p).setReset p 3) else .next s

/-- SELF_TEST_DONE (R457 t4, R459): each test that a tile of the partition failed is partition-fatal. -/
def execSelfTestDone (p : PartId) (fails : List (TileId × Nat)) (s : State) : Host.Outcome State Fault Refusal :=
  if s.resetAt p = some 3 then .next ((s.selfTest p fails).setReset p 4) else .next s

/-- RECENTRE_DONE (R457 t5, t6): channels leave self-refresh, a channel that fails recentring is partition-fatal, and the reset
ends. -/
def execRecentreDone (p : PartId) (failed : List (TileId × ChanId)) (s : State) : Host.Outcome State Fault Refusal :=
  if s.resetAt p = some 4 then
    let s := (failed.filter fun f => s.partOf f.1 == some p).foldl (fun s f => s.failChannel f.1 f.2 1) s
    let wake := !((s.parts[p].reset).any (·.failed))
    let s := if wake then
        (s.tilesOf p).foldl (fun s t => s.modTile t fun x => { x with chans := x.chans.map fun c => { c with selfRefresh := false } }) s
      else s
    .next (s.endReset p)
  else .next s

/-- RESET_OVERRUN (R455, R457): 20 ms after t0 the reset ends in FAILED, what it had still to stop and zero being stopped and
zeroed. -/
def execResetOverrun (p : PartId) (s : State) : Host.Outcome State Fault Refusal :=
  match s.parts[p].reset with
  | some r =>
    if r.start + resetLimit ≤ s.clocks.jewel then
      let s := s.raise p 0x46 0x43 0 0
      let s := if r.ev = 0 then s.stopPartition p else s
      .next ((if r.ev < 3 then s.clearAtRest p else s).endReset p)
    else .next s
  | none => .next s

/-- Every channel of the partition has been initialised since its rails rose (R532). -/
def State.allInit (s : State) (p : PartId) : Bool := (s.tilesOf p).all fun t => s.tiles[t].chans.toList.all (·.init)

/-- POUNCING_DONE (R381 steps 6, 7): every node copy and leaf tag is read back; `reads` are the lines whose read-back the pins
disturb. Then the self-test runs; a partition that passed is IDLE. -/
def execPouncingDone (p : PartId) (reads : List ReadBack) (fails : List (TileId × Nat)) (s : State) : Host.Outcome State Fault Refusal :=
  if s.parts[p].pounce.isSome && s.allInit p then
    let s := reads.foldl (fun s r => s.verifyLine p r) s
    let s := if s.parts[p].pounce.isSome then (s.selfTest p fails).endPounce p else s
    .next (((s.episodeClose p).endRestart).tryReady)
  else .next s

/-- POUNCING_OVERRUN (R382, R455): partition-fatal. -/
def execPouncingOverrun (p : PartId) (s : State) : Host.Outcome State Fault Refusal :=
  match s.parts[p].pounce with
  | some q => if q.start + pounceLimit q.deep ≤ s.clocks.jewel then .next ((s.raise p 0x48 0x43 0 0).endRestart) else .next s
  | none => .next s

/-- LOG_ENTRY_WRITE (R451, R452): the oldest waiting error of a log is written. -/
def execLogEntryWrite (p : Option (Fin 8)) (s : State) : Host.Outcome State Fault Refusal :=
  .next (s.modLog p ErrLog.write)

end Sys2Proof.Machine
end

