-- ==== Sys2Proof/Machine/Pcie.lean ====
section
/-! DEFINITION. The host interface (17): the link and its functions, the slots of device-initiated DMA (R496-R499), read
completions (R223, R498), function-level resets (R501-R503), the debug window (R500). -/

namespace Sys2Proof.Machine

/-- Lanes of a width code, and twice the rate in GT/s of a rate code (R495). -/
def lanesOf (w : Nat) : Nat := 2 ^ w
def rate2Of (r : Nat) : Nat := [0, 5, 10, 16, 32, 64, 128].getD r 0

/-- Credit rate B (R496). -/
def creditOf (rate width mps : Nat) : Nat := [102, 110, 113, 115].getD (min 3 mps) 0 * (rate2Of rate * lanesOf width) / 2048

/-- The cycle after link-up at which slot k begins (R496). -/
def slotStart (b k : Nat) : Nat := ceilDiv (4096 * k) b

/-- Requesters of a partition's DMA in one order: tiles by number, then copies, the checkpoint, the restore, commands (R21, R240). -/
def Owner.who : Owner → Nat
  | .tileDma t _ => t.val + 1
  | .copy q => 2 ^ 33 + q
  | .checkpoint => 2 ^ 34
  | .restore => 2 ^ 34 + 1
  | .command u q => 2 ^ 35 + 2 * q + u.toNat
  | .lossRecord q => 2 ^ 37 + q
  | .poison => 2 ^ 38

/-- Consecutive 16-byte tags that one request may carry: at most 256 bytes, within 4 KiB, within the budget (R497). -/
def tagRun (first budget : Nat) : List Nat → Nat → Nat
  | [], n => n
  | a :: as, n =>
    if a = first + 16 * n ∧ n < 16 ∧ 16 * n + 16 ≤ budget ∧ first / 4096 = (a + 15) / 4096 then tagRun first budget as (n + 1) else n

namespace State

/-- The function may issue requests now (R499, R501). -/
def mayIssue (s : State) (f : Fn) : Bool := s.host.linkUp && s.fnLive f && (s.dma f).bme && !(s.dma f).flr && !s.host.d3hot.contains f

/-- The waiting requests of the requester whose turn it is: the next above the one served last, else the lowest (R21, R240). -/
def nextInTurn (last : Nat) (whos : List Nat) : Option Nat := ((whos.filter (decide <| last < ·)).min?).orElse fun _ => whos.min?

-- Writes.

/-- What follows once a write has gone out whole. -/
def afterWrite (s : State) (f : Fn) (w : HostWrite) : State :=
  match w.owner with
  | .command u q =>
    if w.kind == .record then
      if w.data.length = 4 then
        let s := s.episodeForget f u q
        match f with | some p => s.episodeClose p | none => s
      else s
    else
      match s.inFlight f u q with
      | some e =>
        if e.cmd.opc = 0x51 ∧ e.started.isSome ∧ e.ends.isNone ∧ !s.hostBusy f w.owner then s.complete f u q { status := stOk } else s
      | none => s
  | .copy _ => match f with | some p => s.copiesStep p | none => s
  | .checkpoint => match f with | some p => s.trailerIssued p | none => s
  | _ => s

/-- Take the write at index i out of a function's queue. -/
def dropWrite (s : State) (f : Fn) (i : Nat) : State := s.modDma f fun d => { d with writes := d.writes.eraseIdx i }

/-- Issue one posted write of the write at index i: its first k bytes. -/
def issuePart (s : State) (f : Fn) (i : Nat) (w : HostWrite) (k : Nat) : State :=
  if w.data.length ≤ k then ((s.dropWrite f i).issue f w).afterWrite f w
  else
    let s := s.issue f { w with data := w.data.take k, accept := none }
    s.modDma f fun d => { d with writes := d.writes.set i { w with addr := w.addr + k, data := w.data.drop k } }

/-- Issue n tags that begin at index i as one request: they lie one behind the other in the queue. -/
def issueTags (s : State) (f : Fn) (ws : List HostWrite) : State :=
  match ws with
  | [] => s
  | w :: _ =>
    let all := (ws.map (·.data)).flatten
    let s := s.modDma f fun d => { d with writes := d.writes.filter fun x => !ws.contains x }
    ws.foldl (fun s w => s.afterWrite f w) (s.issue f { w with data := all })

/-- The place of the write whose turn it is (R497): completion records, then stream tags, then the other data round-robin among
the requesters. -/
def writeTurn (s : State) (f : Fn) : Option Nat :=
  let d := s.dma f
  (d.writes.findIdx? (·.kind == .record)).orElse fun _ => (d.writes.findIdx? (·.kind == .tag)).orElse fun _ =>
    (nextInTurn d.lastW ((d.writes.filter (·.kind == .other)).map (·.owner.who))).bind fun w => d.writes.findIdx? fun x => x.kind == .other && x.owner.who == w

/-- Posted writes of one allotment in their order of precedence (R497), `budget` bytes at most. -/
def writeSlot (s : State) (f : Fn) : Nat → Nat → State
  | 0, _ => s
  | n + 1, budget =>
    let ws := (s.dma f).writes
    let idx := s.writeTurn f
    match idx.bind fun i => (ws[i]?).map fun w => (i, w) with
    | none => s
    | some x =>
      match x.2.kind with
      | .record => if x.2.data.length ≤ budget then (s.issuePart f x.1 x.2 x.2.data.length).writeSlot f n (budget - x.2.data.length) else s
      | .tag =>
        let tags := ws.filter (·.kind == .tag)
        let k := tagRun x.2.addr budget (tags.map (·.addr)) 0
        if k = 0 then s else (s.issueTags f (tags.take k)).writeSlot f n (budget - 16 * k)
      | .other =>
        let k := min (min s.maxPayload (4096 - x.2.addr % 4096)) (min budget x.2.data.length)
        if k = 0 then s else ((s.modDma f fun d => { d with lastW := x.2.owner.who }).issuePart f x.1 x.2 k).writeSlot f n (budget - k)

-- Reads.

/-- Issue the read request `req` for these waiting reads. -/
def issueReads (s : State) (f : Fn) (rs : List HostRead) : State :=
  match rs with
  | [] => s
  | r :: _ =>
    let len : Nat := rs.foldl (fun (n : Nat) (x : HostRead) => n + x.len) 0
    let s : State := { s with host := { s.host with out := s.host.out ++ [HostOut.read f r.id r.addr len] } }
    let mark (x : HostRead) : HostRead := if rs.any (·.id == x.id) then { x with issued := some r.id } else x
    s.modDma f fun d => { d with reads := d.reads.map mark }

/-- Read requests of one allotment: tags before chunks, these round-robin among the requesters (R497). -/
def readSlot (s : State) (f : Fn) : Nat → Nat → State
  | 0, _ => s
  | n + 1, budget =>
    let wait := (s.dma f).reads.filter (·.issued.isNone)
    match wait.filter (·.isTag) with
    | t :: ts =>
      let k := tagRun t.addr budget ((t :: ts).map (·.addr)) 0
      if k = 0 then s else (s.issueReads f ((t :: ts).take k)).readSlot f n (budget - 16 * k)
    | [] =>
      match (nextInTurn (s.dma f).lastR (wait.map (·.owner.who))).bind fun w => wait.find? (·.owner.who == w) with
      | some r =>
        if r.len ≤ budget then ((s.modDma f fun d => { d with lastR := r.owner.who }).issueReads f [r]).readSlot f n (budget - r.len) else s
      | none => s

/-- One allotment of a function. -/
def allot (s : State) (f : Fn) (write : Bool) : State :=
  if !s.mayIssue f then s
  else if write then s.writeSlot f 4096 4096 else s.readSlot f 4096 4096

/-- Pass to the next slot of a sequence. -/
def nextSlot (s : State) (pf write : Bool) : State :=
  let h := s.host
  { s with host := if pf then (if write then { h with pfWslot := h.pfWslot + 1 } else { h with pfRslot := h.pfRslot + 1 })
                   else (if write then { h with wslot := h.wslot + 1 } else { h with rslot := h.rslot + 1 }) }

/-- The slot that comes next in a sequence. -/
def slotIndex (s : State) (pf write : Bool) : Nat :=
  if pf then (if write then s.host.pfWslot else s.host.pfRslot) else if write then s.host.wslot else s.host.rslot

/-- The slot boundary has come (R496, R497). -/
def slotDue (s : State) (pf write : Bool) : Bool :=
  let k := s.slotIndex pf write
  s.host.linkUp && decide (if pf then s.host.upAt + 4096 * k ≤ s.clocks.hostIf
    else s.host.credit ≠ 0 ∧ s.host.upAt + slotStart s.host.credit k ≤ s.clocks.hostIf)

-- Completions of reads.

/-- The function that issued a read request. -/
def readFn (s : State) (id : Nat) : Option PartId := allParts.find? fun p => (s.dma (some p)).reads.any (·.issued == some id)

/-- The stream a read serves. -/
def readStream (s : State) (p : PartId) (o : Owner) : Option Stream :=
  let sid : Option Nat := match o with
    | .tileDma t id => (s.op t id).map fun (x : Op) => (DmaDesc.parse x.desc).sid
    | .copy q => (s.copy p q).map fun (x : Copy) => x.sid
    | .restore => (s.parts[p].fuller.restore).map fun (x : Restore) => x.sid
    | _ => none
  (sid.bind (s.stream p)).map fun (x : Nat × Stream) => x.2

/-- The command that a read's failure meets. -/
def readCmd (s : State) (p : PartId) (o : Owner) : Option (Bool × Nat) :=
  match o with
  | .tileDma _ _ => s.runCmd p
  | .copy q => some (false, q)
  | .restore => (s.parts[p].fuller.restore).map fun x => (false, x.seq)
  | _ => none

/-- Bring a chunk to its owner; none where it failed (R223, R498). -/
def giveChunk (s : State) (p : PartId) (o : Owner) (chunk : Nat) (plain : Option Bytes) : State :=
  let s := if plain.isSome then s else
    s.raise p 0x23 0x42 0 (((s.readStream p o).map (·.sid)).getD 0) (s.readCmd p o)
  match o with
  | .tileDma t id => s.dmaChunk t id chunk plain
  | .copy q => s.copyChunk p q chunk plain
  | .restore => s.restoreChunk p chunk (((s.parts[p].fuller.restore).map (·.nchunk)).getD 0) plain
  | _ => s

/-- Take a chunk's pair of reads out of the queue. -/
def dropPair (s : State) (p : PartId) (r : HostRead) : State :=
  s.modDma (some p) fun d => { d with reads := d.reads.filter fun x => !(x.owner == r.owner && x.chunk == r.chunk) }

/-- One read of a request has its data, or has failed. -/
def readDone (s : State) (p : PartId) (r : HostRead) (data : Option Bytes) : State :=
  if !((s.dma (some p)).reads.any fun x => x.id == r.id) then s
  else if r.owner.isCommand then s.modDma (some p) fun d => { d with reads := d.reads.filter fun x => x.id != r.id }
  else
    match data with
    | none => (s.dropPair p r).giveChunk p r.owner r.chunk none
    | some bs =>
      match (s.dma (some p)).reads.find? fun x => x.owner == r.owner && x.chunk == r.chunk && x.isTag != r.isTag with
      | none => s
      | some other =>
        match other.got with
        | none => s.modDma (some p) fun d => { d with reads := d.reads.map fun x => if x.id == r.id then { x with got := some bs } else x }
        | some ob =>
          let ct := if r.isTag then ob else bs
          let tag := if r.isTag then bs else ob
          let plain := (s.readStream p r.owner).bind fun st => (s.ksrcSecret p st.ksrc).bind fun k => openChunk k st.sid st.epoch r.chunk ct tag
          (s.dropPair p r).giveChunk p r.owner r.chunk plain

/-- A read request ends: every read it carries has its part of the data, or fails. -/
def endRead (s : State) (id : Nat) (data : Option Bytes) : State :=
  match s.readFn id with
  | none => s
  | some p =>
    let rs := (s.dma (some p)).reads.filter (·.issued == some id)
    let base := (rs.head?.map (·.addr)).getD 0
    rs.foldl (fun s r => s.readDone p r (data.map fun bs => fit r.len (sub bs (r.addr - base) r.len))) s

/-- A function-level reset of the physical function (R502). -/
def pfFlr (s : State) : State :=
  let es := s.pf.win.table.map fun e => (e.urgent, e.cmd.seq)
  let s := { s with pf := { s.pf with service := none } }
  let s := es.foldl (fun s c => (s.dropRequests none (.command c.1 c.2)).completeNow none c.1 c.2 { status := stCut } false) s
  ({ s with boot := { s.boot with stage := none } } : State).rewindWindow none

end State

open State

/-- HOST_DMA_SLOT (R496, R497): the next slot of a sequence begins; its owner issues up to 4,096 bytes. -/
def execHostDmaSlot (pf write : Bool) (s : State) : Host.Outcome State Fault Refusal :=
  if !s.slotDue pf write then .next s
  else
    let k := s.slotIndex pf write
    let s := s.nextSlot pf write
    if pf then .next (s.allot none write)
    else
      match s.slotPart (k % 64) with
      | some p => .next (s.allot (some (partIx p)) write)
      | none => .next s

/-- DMA_READ_COMPLETION (R223, R498). -/
def execDmaReadCompletion (id : Nat) (ok : Bool) (data : Bytes) (s : State) : Host.Outcome State Fault Refusal :=
  .next (s.endRead id (if ok then some data else none))

/-- COMPLETION_TIMEOUT (R498). -/
def execCompletionTimeout (id : Nat) (s : State) : Host.Outcome State Fault Refusal := .next (s.endRead id none)

/-- Configuration requests to a function are answered (R479, R504). -/
def State.configured (s : State) (f : Fn) : Bool :=
  s.host.linkUp && (s.boot.phase == .ready || (s.boot.phase == .recovery && f.isNone))

/-- FUNCTION_LEVEL_RESET (R501). -/
def execFunctionLevelReset (p : PartId) (s : State) : Host.Outcome State Fault Refusal :=
  if s.configured (some p) && s.fnLive (some p) then .next (s.flr p) else .next s

/-- PF_FUNCTION_LEVEL_RESET (R502). -/
def execPfFunctionLevelReset (s : State) : Host.Outcome State Fault Refusal :=
  if s.configured none then .next s.pfFlr else .next s

/-- DL_DOWN (R503): a function-level reset of every function. -/
def execDlDown (s : State) : Host.Outcome State Fault Refusal :=
  if s.host.linkUp then
    .next (s.partsUsed.foldl (fun s p => s.flr p) ({ s with host := { s.host with linkUp := false } } : State).pfFlr)
  else .next s

/-- DL_UP (R479, R496, R504): the link has trained; B is fixed and the slot sequences start. -/
def execDlUp (rate width mps : Nat) (s : State) : Host.Outcome State Fault Refusal :=
  if s.host.linkUp || !s.board.perstN || s.boot.phase == .none || s.boot.phase == .romHold then .next s
  else
    .next { s with host := { s.host with linkUp := true, rate := rate, width := width, mps := min 3 mps, credit := creditOf rate width mps,
                                         wslot := 0, rslot := 0, pfWslot := 0, pfRslot := 0, upAt := s.clocks.hostIf } }

/-- VF_ENABLE (R493): NumVFs is written while VF Enable is clear; clearing it resets every virtual function. -/
def execVfEnable (numVfs : Option Nat) (enable : Bool) (s : State) : Host.Outcome State Fault Refusal :=
  if !s.configured none then .next s
  else
    let s1 := if s.host.vfEnable then s else { s with host := { s.host with numVfs := numVfs.getD s.host.numVfs } }
    let live := s.partsUsed.filter fun p => s.fnLive (some p)
    if !enable && s.host.vfEnable then
      .next (live.foldl (fun s p => s.flr p) { s1 with host := { s1.host with vfEnable := false } })
    else .next { s1 with host := { s1.host with vfEnable := enable } }

/-- BUS_MASTER_ENABLE (R499). -/
def execBusMasterEnable (f : Fn) (on : Bool) (s : State) : Host.Outcome State Fault Refusal :=
  if s.configured f && s.fnLive f && !(s.dma f).flr then .next (s.modDma f fun d => { d with bme := on }) else .next s

/-- The debug window takes writes (R385, R500). -/
def State.debugOpen (s : State) : Bool := s.host.linkUp && s.dev && s.boot.phase == .ready

/-- DEBUG_CONTROL_WRITE (R500): HALT and STEP of a tile. -/
def execDebugControlWrite (t : TileId) (v : Byte) (s : State) : Host.Outcome State Fault Refusal :=
  if s.debugOpen then .next (s.modTile t fun x => { x with halt := v.getLsbD 0, stepReq := v.getLsbD 0 && v.getLsbD 1 }) else .next s

/-- The part of a write that falls into a region of a window: offset within the region, and the bytes. -/
def regionPart (base size off : Nat) (data : Bytes) : Nat × Bytes :=
  let lo := max base off
  let hi := min (base + size) (off + data.length)
  (lo - base, sub data (lo - off) (hi - lo))

/-- A debug write to the tile's memories (R500). -/
def Tile.debugWrite (x : Tile) (off : Nat) (data : Bytes) : Tile :=
  let a := regionPart 0 0x400000 off data
  let b := regionPart 0x400000 0x40000 off data
  let c := regionPart 0x440000 0x20000 off data
  let x := x.spWrite a.1 a.2
  { x with imem := x.imem.write b.1 b.2,
           imErr := x.imErr.filter fun e => b.2.isEmpty || decide (64 * e.1 + 64 ≤ b.1) || decide (b.1 + b.2.length ≤ 64 * e.1),
           reg := x.reg.write c.1 c.2,
           rgErr := x.rgErr.filter fun e => c.2.isEmpty || decide (8 * e.1 + 8 ≤ c.1) || decide (c.1 + c.2.length ≤ 8 * e.1) }

/-- DEBUG_MEMORY_WRITE (R500): taken only while the tile is halted. -/
def execDebugMemoryWrite (t : TileId) (off : Nat) (data : Bytes) (s : State) : Host.Outcome State Fault Refusal :=
  if s.debugOpen && s.tiles[t].halt then .next (s.modTile t fun x => x.debugWrite off data) else .next s

-- What the host reads (R492, R494, R500); no row of the table is a read (log 23).

/-- The answer to a host's read of a BAR. -/
inductive BarAnswer where
  | data (bs : Bytes)
  | unsupported
  | abort
  deriving DecidableEq, Repr

/-- Bytes of a tile's debug window (R500): its memories in clear, its control bytes and its counts; none where it has no region. -/
def Tile.debugRead (x : Tile) (off len : Nat) : Option Bytes :=
  if off + len ≤ 0x400000 then some (x.sp.read off len)
  else if 0x400000 ≤ off ∧ off + len ≤ 0x440000 then some (x.imem.read (off - 0x400000) len)
  else if 0x440000 ≤ off ∧ off + len ≤ 0x460000 then some (x.reg.read (off - 0x440000) len)
  else if 0x800000 ≤ off ∧ off + len ≤ 0x800040 then
    some (sub (fit 64 (leBytes 1 (x.halt.toNat + 4 * x.halt.toNat) ++ zeros 7 ++ leBytes 8 x.bubbles ++ leBytes 8 x.bankcf ++ leBytes 8 x.ccmiss ++
      leBytes 8 x.ewait)) (off - 0x800000) len)
  else none

/-- What a host's read of a BAR returns (R315, R352, R494, R495, R500). In confidential mode the debug window reads as zero. -/
def State.barRead (s : State) (f : Fn) (bar off len : Nat) : BarAnswer :=
  if 64 < len then .abort
  else if bar = 0 then
    if off + len ≤ 63488 then .data ((s.win f).slots.read off len)
    else if off + len ≤ 65536 then .data ((fit 65536 (zeros 63488 ++ (match f with | none => s.moduleMirror | some p => s.mirror p))).drop off |>.take len)
    else .unsupported
  else if bar = 2 ∧ f.isNone ∧ off + len ≤ 2 ^ 30 then
    if !s.debugOpen then .data (zeros len)
    else match s.tiles[(⟨off / 2 ^ 24 % 64, Nat.mod_lt _ (by decide)⟩ : TileId)].debugRead (off % 2 ^ 24) len with
      | some bs => .data bs
      | none => .unsupported
  else .unsupported

/-- The identifiers of a function in its configuration space, and its Interrupt Pin (R491, R492). -/
structure Identity where
  vendor : Nat
  device : Nat
  class_ : Nat
  subVendor : Nat
  subDevice : Nat
  intPin : Nat
  deriving DecidableEq, Repr

def identity (f : Fn) : Identity := ⟨0xC4E1, if f.isNone then 0x6410 else 0x6411, 0x120000, 0xC4E1, 0x0001, 0⟩

/-- Device Serial Number of the physical function (R492). -/
def State.deviceSerial (s : State) : Bytes := (shake256 64 s.boot.dpk).take 8

/-- The capabilities a function may report (R490); MSI and MSI-X are none of them (R491). -/
inductive Capability where
  | pciExpress | powerManagement | advancedErrorReporting | srIov | ari | dataLinkFeature | physicalLayer16 | physicalLayer32
  | physicalLayer64 | laneMargining | deviceSerialNumber
  deriving DecidableEq, Repr

/-- The capabilities of the endpoint, as the physical function reports them (R490). -/
def capabilities : List Capability :=
  [.pciExpress, .powerManagement, .advancedErrorReporting, .srIov, .ari, .dataLinkFeature, .physicalLayer16, .physicalLayer32,
   .physicalLayer64, .laneMargining, .deviceSerialNumber]

/-- No_Soft_Reset is set: a function that returns from D3hot to D0 keeps all its state (R490). -/
def noSoftReset : Bool := true

end Sys2Proof.Machine
end

