-- ==== Sys2Proof/Machine/Train.lean ====
section
/-! DEFINITION. Training of the ring ports, attestation of neighbours (R270-R275), and the ring bypass (R277-R280). -/

namespace Sys2Proof.Machine

/-- The link keys of R272 as the end at D+ (or D-) uses them. -/
def linkKeys (plus : Bool) (ss noncePlus nonceMinus pkPlus pkMinus : Bytes) : LinkKeys :=
  let k := shake256 128 (ss ++ ascii "EZM6410 LINK" ++ noncePlus ++ nonceMinus ++ pkPlus ++ pkMinus)
  let up := (sub k 0 32, sub k 64 32)
  let down := (sub k 32 32, sub k 96 32)
  if plus then ⟨up.1, down.1, up.2, down.2⟩ else ⟨down.1, up.1, down.2, up.2⟩

/-- MODE and public key of an attestation report (R372). -/
def reportMode (r : Bytes) : Nat := byteAt r 12
def reportKey (r : Bytes) : Bytes := sub r 480 1952

/-- Digest of a public key (R272). -/
def keyDigest (pk : Bytes) : Bytes := shake256 64 pk

namespace Port

/-- The port is refused for a reason of R276. -/
def refuse (o : Port) (reason : Nat) : Port := { o with state := .refused, refusal := reason, refusedAt := o.count, keys := none }

/-- Signal is lost, or the switch of the dimension moves: nothing of a link is left but its buffers (R274). -/
def unlink (o : Port) (st : PortSt) : Port :=
  { o with state := st, keys := none, greeting := none, nonce := none, ekDraw := none, crSent := [], crGot := [], loopOk := false, resend := [], say := [] }

/-- The link keys are here: both directions start at frame 0 (R270 t5). -/
def keyed (o : Port) (k : LinkKeys) (pk : Bytes) : Port :=
  let g := o.greeting.map fun g => { g with pk := pk }
  { o with keys := some k, txc := 0, rxc := 0, greeting := g, crSent := [], crGot := [], loopOk := false,
           differs := o.peer != g.map fun g => (g.coord, g.pk) }

end Port

namespace State

/-- Steps from this module to a coordinate in the port's direction, modulo the dimension (R271). -/
def stepsTo (s : State) (q : PortId) (coord : Nat) : Nat :=
  let d := portDim q
  let n := s.tsize d
  let a := coordDim s.me d
  let b := coordDim coord d
  if portPlus q then (b + n - a) % n else (a + n - b) % n

/-- The reason a HELLO refuses the port (R271); none where it may go on. -/
def helloRefusal (s : State) (q : PortId) (coord nport : Nat) (digest : Bytes) : Option Nat :=
  let d := portDim q
  if (s.boot.image.map (·.torusDigest)) ≠ some digest then some 4
  else if coord = s.me ∨ nport ≠ (portOf d (!portPlus q)).val ∨ (dims4.any fun e => e != d && coordDim coord e != coordDim s.me e) ∨
      s.stepsTo q coord = 0 ∨ 4 < s.stepsTo q coord then some 5
  else none

/-- The evidence a neighbour sent does not let the port go on (R271). -/
def evidenceRefusal (s : State) (report : Bytes) (authOk : Bool) : Option Nat :=
  if !authOk then some 2 else if reportMode report ≠ s.modeByte then some 3 else none

/-- HELLO (R270 t2): coordinates, port index, nonce and torus digest, in the order the manual names them (log 33). -/
def helloBytes (s : State) (q : PortId) (nonce : Bytes) : Bytes :=
  leBytes 2 s.me ++ leBytes 1 q.val ++ nonce ++ (s.boot.image.map (·.torusDigest)).getD (zeros 32)

/-- An end's evidence goes out (R270 t3, t4): its certificate chain, a report of the physical function over both nonces, the
encapsulation key or ciphertext, and a signature: of the key and both nonces, or of both nonces and the ciphertext (log 33). -/
def sayEvidence (s : State) (q : PortId) (noncePlus nonceMinus kem : Bytes) (plus : Bool) : State :=
  let d := s.draw 2
  let nonces := noncePlus ++ nonceMinus
  let signed := if plus then kem ++ nonces else nonces ++ kem
  d.2.modPort q fun o =>
    { o with say := o.say ++ (if s.boot.certOk then s.boot.certChain else []) ++ s.report none nonces d.1 ++ kem ++ s.sign signed }

/-- The hatband switch of a dimension closes: its ports are BYPASSED and their frames in flight are lost (R277). -/
def closeDim (s : State) (d : Fin 4) : State :=
  let shut (s : State) (q : PortId) : State :=
    s.modPort q fun o => if o.state = .unused then o else { o.unlink .bypassed with replay := [], spent := List.replicate 32 0 }
  { shut (shut s (portOf d.val true)) (portOf d.val false) with hatband := s.hatband.set d true }

/-- A running optical engine fails (R280). -/
def engineFail (s : State) (q : PortId) : State :=
  let d : Fin 4 := ⟨q.val / 2, by omega⟩
  ((({ s with engines := s.engines.set q (some false) } : State).raiseModule 0x08 (0x48 + q.val) q.val)).closeDim d |>.tryReady

/-- The next hatband switch to open (R278): the first used dimension, still closed, whose engines are not known to have failed. -/
def nextSwitch (s : State) : Option (Fin 4) :=
  (List.finRange 4).find? fun d =>
    s.hatband[d] && decide (1 < s.tsize d.val) && s.engines[portOf d.val true] != some false && s.engines[portOf d.val false] != some false

end State

open State

/-- LANE_SIGNAL_LOSS (R273, R274): the port is DOWN at once; frames in flight stay in the replay buffer. With `back` every lane has
signal again, and the port waits in HOLD for tHOLD (log 33). -/
def execLaneSignalLoss (port : PortId) (back : Bool) (s : State) : Host.Outcome State Fault Refusal :=
  match s.ports[port].state with
  | .unused | .bypassed => .next s
  | _ => .next (s.modPort port fun o => o.unlink (if back then .hold else .down))

/-- SIGNAL_HOLD_EXPIRY (R270 t0, R274): the signal has been there for tHOLD. -/
def execSignalHoldExpiry (port : PortId) (s : State) : Host.Outcome State Fault Refusal :=
  match s.ports[port].state with
  | .down | .hold => .next (s.modPort port Port.startTrain)
  | _ => .next s

/-- RETRAIN_LIMIT_RELEASE (R274): a port held back enters TRAIN once the limit allows it. -/
def execRetrainLimitRelease (port : PortId) (s : State) : Host.Outcome State Fault Refusal :=
  if s.ports[port].state = .hold ∧ s.ports[port].recentStarts.length < 4 then .next (s.modPort port Port.startTrain) else .next s

/-- LANE_LOCK (R270 t1, t2): ATTEST; a nonce is drawn, and the HELLO goes out. -/
def execLaneLock (port : PortId) (s : State) : Host.Outcome State Fault Refusal :=
  if s.ports[port].state = .train then
    let d := s.draw 32
    .next (d.2.modPort port fun o => { o with state := .attest, nonce := some d.1, say := s.helloBytes port d.1 })
  else .next s

/-- HELLO (R270 t2, t3, R271): the neighbour is noted or refused; the D+ end sends its evidence with a fresh encapsulation key. -/
def execHello (port : PortId) (coord : Coord) (nport : Nat) (nonce digest : Bytes) (fecc : Nat) (s : State) : Host.Outcome State Fault Refusal :=
  let s := s.countFec port fecc
  let o := s.ports[port]
  if o.state = .attest ∧ o.greeting.isNone then
    match s.helloRefusal port coord.toNat nport digest with
    | some r => .next (s.modPort port fun o => o.refuse r)
    | none =>
      let x := coordDim coord.toNat (portDim port)
      let m := coordDim s.me (portDim port)
      let wrap := if portPlus port then decide (x < m) else decide (m < x)
      let s1 := s.modPort port fun o =>
        { o with greeting := some ⟨[], coord.toNat, nport, nonce⟩, neighbour := coord.toNat, ndist := s.stepsTo port coord.toNat, wrap := wrap,
                 ekDraw := if portPlus port then some s.free else none }
      .next (if portPlus port then ({ s1 with free := s1.free + 1 } : State).sayEvidence port (o.nonce.getD []) nonce (ekOf s.free) true else s1)
  else .next s

/-- EVIDENCE_D_PLUS (R270 t3, t4, R272): the D- end verifies, encapsulates, sends its own evidence with the ciphertext and derives
the link keys. The chain counts through the verdict `authOk` (log 11). -/
def execEvidenceDPlus (port : PortId) (_chain report ek : Bytes) (authOk : Bool) (fecc : Nat) (s : State) : Host.Outcome State Fault Refusal :=
  let s := s.countFec port fecc
  let o := s.ports[port]
  match o.greeting, o.nonce, portPlus port with
  | some g, some mine, false =>
    if o.state ≠ .attest ∨ o.keys.isSome then .next s
    else
      match s.evidenceRefusal report authOk with
      | some r => .next (s.modPort port fun o => o.refuse r)
      | none =>
        let ss := (List.range 32).map (Config.kemSsByte ek s.free)
        let pk := keyDigest (reportKey report)
        let k := linkKeys false ss g.peerNonce mine pk (keyDigest s.boot.dpk)
        let ct := (List.range 1088).map (Config.kemCtByte ek s.free)
        .next ((({ s with free := s.free + 1 } : State).modPort port fun o => o.keyed k pk).sayEvidence port g.peerNonce mine ct false)
  | _, _, _ => .next s

/-- EVIDENCE_D_MINUS (R270 t4, t5, R272): the D+ end verifies, decapsulates (`kem`) and derives the link keys. -/
def execEvidenceDMinus (port : PortId) (_chain report _ct : Bytes) (authOk : Bool) (kem : Option Bytes) (fecc : Nat) (s : State) :
    Host.Outcome State Fault Refusal :=
  let s := s.countFec port fecc
  let o := s.ports[port]
  match o.greeting, o.nonce, portPlus port with
  | some g, some mine, true =>
    if o.state ≠ .attest ∨ o.keys.isSome then .next s
    else
      match s.evidenceRefusal report authOk, kem with
      | some r, _ => .next (s.modPort port fun o => o.refuse r)
      | none, none => .next (s.modPort port fun o => o.refuse 2)
      | none, some ss =>
        let pk := keyDigest (reportKey report)
        let k := linkKeys true ss mine g.peerNonce (keyDigest s.boot.dpk) pk
        .next (s.modPort port fun o => o.keyed k pk)
  | _, _, _ => .next s

/-- REFUSED_RETRY (R271): training starts again 10 s after the refusal. -/
def execRefusedRetry (port : PortId) (s : State) : Host.Outcome State Fault Refusal :=
  let o := s.ports[port]
  if o.state = .refused ∧ o.refusedAt + 10 * portSecond ≤ o.count then .next (s.modPort port Port.startTrain) else .next s

/-- CRSYNC (R270 t5, t6, R271, R275): the loop is measured, the slot's counts are settled, and with every slot settled the port is
UP. -/
def execCrsync (port : PortId) (fecOk : Bool) (fecc : Nat) (wire : Bytes) (loopPs : Nat) (s : State) : Host.Outcome State Fault Refusal :=
  let o := s.ports[port]
  if o.state = .attest ∧ o.keys.isSome then
    if 380000 < loopPs then .next ((s.countFec port fecc).modPort port fun o => o.refuse 6)
    else .next ((s.modPort port fun o => { o with loopOk := true }).receive port fecOk fecc wire).refreshWaits
  else .next (s.receive port fecOk fecc wire).refreshWaits

/-- OPTICAL_ENGINE_FAIL (R280): the dimension drops out of its ring until the next start. -/
def execOpticalEngineFail (port : PortId) (s : State) : Host.Outcome State Fault Refusal :=
  if s.hatband[port.val / 2]'(by omega) then .next s else .next (s.engineFail port)

/-- HATBAND_OPEN (R278): the next switch opens, once both engines of its dimension have passed self-test. -/
def execHatbandOpen (s : State) : Host.Outcome State Fault Refusal :=
  match s.boot.image, s.nextSwitch with
  | some _, some d =>
    let a := portOf d.val true
    let b := portOf d.val false
    if s.engines[a] = some true ∧ s.engines[b] = some true then
      .next (({ (s.modPort a fun o => { o with state := .down }).modPort b fun o => { o with state := .down } with
        hatband := s.hatband.set d false } : State).tryReady)
    else .next s
  | _, _ => .next s

/-- ENGINE_SELF_TEST_DONE (R278, R280, R480): the verdict on one engine at this start; a failed one is logged. -/
def execEngineSelfTestDone (port : PortId) (ok : Bool) (s : State) : Host.Outcome State Fault Refusal :=
  if s.boot.image.isSome ∧ s.engines[port].isNone ∧ 1 < s.tsize (portDim port) then
    let s := { s with engines := s.engines.set port (some ok) }
    .next ((if ok then s else s.raiseModule 0x08 (0x48 + port.val) port.val).tryReady)
  else .next s

end Sys2Proof.Machine
end

