-- ==== Sys2Proof/Machine/Power.lean ====
section
/-! DEFINITION. Power, clocks and thermal limits (14): the escapement, the row monitors, rails and PLLs, sensors and the trip. -/

namespace Sys2Proof.Machine

/-- I of R426 in W/100 for each of its rows: full-rate issue of the array, by lane class and accumulation width. -/
def issueWatts : List Nat := [1380, 1390, 1475, 1650, 1550, 2000]

/-- Estimate units of the array's issue in a window (R421, R426): a cycle at I watts is 64 × I units. -/
def arrayUnits (issue : List Nat) : Nat := ((List.range 6).map fun i => 64 * issueWatts.getD i 0 * issue.getD i 0 / 100).foldl (· + ·) 0

/-- Estimate units of the vector unit's work in a window (R533). -/
def vecUnits (vec32 vec16 vecFn epi epiAct : Nat) : Nat := 160 * vec32 + 160 * vec16 + 192 * vecFn + 128 * epi + 192 * epiAct

/-- The estimate E of a window of 1,024 cycles (R421). The weights that the manual does not give are constants of Config (log 40). -/
def estimate (a : Activity) : Nat :=
  arrayUnits a.issue + vecUnits a.vec32 a.vec16 a.vecFn a.epi a.epiAct + 1024 * Config.leakWeight + Config.spWeight * a.sp +
    Config.dmaWeight * a.dma + Config.meshWeight * a.mesh + Config.sealWeight * a.sealed

/-- A window's allowance A at a frequency step (R420, R422, R435): 65,536 units for each watt of 4.00 W + 0.25 W × code. -/
def allowance (code freq : Nat) : Nat := 16384 * (16 + code) * 100 / (100 + 5 * freq)

/-- The next issue count (R423), the estimate taken k/256 times (R429). -/
def nextIssue (n a k e : Nat) : Nat := min (max (256 * n * a / max (k * e) 256) 64) 1024

/-- The next frequency step (R435): development mode alone. -/
def nextFreq (dev high : Bool) (t : Tile) (a e : Nat) : Nat :=
  if !dev then 0
  else if a < e ∨ t.droops ≠ 0 then 0
  else if 10 * e ≤ 9 * a ∧ !high then min (t.freq + 1) 3
  else t.freq

/-- The profiling counts of a window (R386, R500): none exists in confidential mode (R385). -/
def Tile.profile (t : Tile) (dev : Bool) (bankcf ewait : Nat) : Tile :=
  if dev then
    { t with bubbles := t.bubbles + (if t.freq = 0 then 1024 - t.n else 0) + t.droopBubbles, bankcf := t.bankcf + bankcf, ewait := t.ewait + ewait }
  else t

/-- The end of an escapement window. -/
def Tile.endWindow (t : Tile) (dev high : Bool) (code e bankcf ewait : Nat) : Tile :=
  let a := allowance code t.freq
  { t.profile dev bankcf ewait with
    n := nextIssue t.n a t.k e, freq := nextFreq dev high t a e, droops := 0, droopBubbles := 0, estSum := t.estSum + e }

namespace RowMon

/-- One sample of a row monitor (R428): measured power in µW against the row's estimate units of the interval. 1 W over 100 µs
is 6,400,000 units. -/
def sample (r : RowMon) (pm e : Nat) : RowMon :=
  let hi := decide (13 * e < 64 * pm)
  let lo := decide (64 * pm < 7 * e)
  let hiFor := if hi then r.hiFor + 1 else 0
  let hiNot := if hi then 0 else r.hiNot + 1
  let loFor := if lo then r.loFor + 1 else 0
  let loNot := if lo then 0 else r.loNot + 1
  { high := if r.high then decide (hiNot < 10) else decide (10 ≤ hiFor),
    low := if r.low then decide (loNot < 10) else decide (10 ≤ loFor), hiFor := hiFor, hiNot := hiNot, loFor := loFor, loNot := loNot }

/-- Factor k in 1/256 after a sample (R429). -/
def factor (r : RowMon) (pm e : Nat) : Nat := if r.high then min (max (256 * 64 * pm / (10 * max e 1)) 256) 1024 else 256

end RowMon

namespace State

/-- Tiles of a row. -/
def rowTiles (row : Fin 8) : List TileId := allTiles.filter fun t => t.val / 8 == row.val

/-- A core rail goes off with its memory rail set (R419): the channels of the row have lost their contents. -/
def rowOff (s : State) (row : Fin 8) : State :=
  let s := { s with board := { s.board with railCore := s.board.railCore.set row false, railMem := s.board.railMem.set row false } }
  (rowTiles row).foldl (fun s t => s.modTile t fun x => { x with chans := x.chans.map fun c => { c with init := false } }) s

/-- PWRDIS of every partition (R430). -/
def setPwrDis (s : State) : State :=
  s.partsUsed.foldl (fun s p => s.modPart p fun x =>
    { x with pwrDis := (List.finRange 8).any fun r => s.partOfRow r.val == some p && (s.board.rows[r].high || s.board.rows[r].low) }) s

/-- Log the first condition of the partition's rows in a job (R430). -/
def logRow (s : State) (row : Fin 8) (old new : RowMon) : State :=
  match s.partOfRow row.val with
  | none => s
  | some p =>
    let entered := if new.high && !old.high then 1 else if new.low && !old.low then 2 else 0
    if entered = 0 ∨ s.parts[p].pwrLogged ∨ s.parts[p].job.isNone then s
    else (s.modPart p fun x => { x with pwrLogged := true }).raise p 0x07 0x44 0 (row.val + 256 * entered)

/-- The thermal trip (R439): every rail but VAUX off, the cause latched. A latched trip does not change (R440). -/
def trip (s : State) (kind idx : Nat) : State :=
  if s.board.tripLatch then s
  else
    let s := s.preempt.railsOff
    let s := s.modLog none fun l => { l with episode := none }
    { s with boot := { s.boot with mstate := .tripped }
             board := { s.board with tripLatch := true, tripKind := kind, tripIdx := idx, tripWait := false, restarting := none,
                                     mrst := some (0xFF, true) } }

/-- A package's tiles and channels (R165). -/
def packageChans (pkg : Nat) : List (TileId × ChanId) :=
  (allTiles.filter fun t => t.val / 2 == pkg / 2).flatMap fun t =>
    ((List.finRange 4).filter fun k => k.val % 2 == pkg % 2).map fun k => (t, k)

/-- A package unreadable for 10 ms (R442): the trip logic ignores it, its channels fail, its row's rails go off, and its partition
goes to FAILED: at once, or where no image is applied yet, when one is. -/
def packageLost (s : State) (pkg : Fin 64) : State :=
  let row : Fin 8 := ⟨pkg.val / 8, by omega⟩
  let s := { s with board := { s.board with pkgIgnored := s.board.pkgIgnored.set pkg true } }
  let s := (packageChans pkg.val).foldl (fun s x => s.modChan x.1 x.2 fun c => { c with failed := if c.failed = 0 then 3 else c.failed }) s
  ((s.rowOff row).raiseRow row 0x47 0x50 pkg.val).endRestart.tryReady

end State

/-- 1/16 °C readings of R439 and R440. -/
def degrees (c : Int) : Int := 16 * c

open State

/-- ESCAPEMENT_WINDOW (R421-R424, R429, R435, R445, R533): the window's events give its estimate and the next issue count. -/
def execEscapementWindow (t : TileId) (a : Activity) (s : State) : Host.Outcome State Fault Refusal :=
  match s.boot.image with
  | none => .next s
  | some im =>
    let high := (s.board.rows[t.val / 8]).high
    .next (s.modTile t fun x => x.endWindow im.dev high (im.allow.getD t.val 0) (estimate a) a.bankcf a.ewait)

/-- DROOP_EVENT (R425): the tile owes 32 bubbles. Development mode alone counts the event, for R435 (R445). -/
def execDroopEvent (t : TileId) (s : State) : Host.Outcome State Fault Refusal :=
  if s.boot.image.isNone then .next s
  else .next (s.modTile t fun x => { x with droops := if s.dev then x.droops + 1 else x.droops, droopBubbles := x.droopBubbles + 32 })

/-- ROW_MONITOR_SAMPLE (R427-R430): `ma` is the row's current averaged over the interval, in mA; the measured power is the fused
core voltage times it. -/
def execRowMonitorSample (row : Fin 8) (ma : Nat) (s : State) : Host.Outcome State Fault Refusal :=
  if s.boot.image.isNone then .next s
  else
    let pm := s.boot.vcore[row] * ma
    let e := (rowTiles row).foldl (fun n t => n + s.tiles[t].estSum) 0
    let old := s.board.rows[row]
    let new := old.sample pm e
    let s := { s with board := { s.board with rows := s.board.rows.set row new } }
    let s := (rowTiles row).foldl (fun s t => s.modTile t fun x => { x with k := new.factor pm e, estSum := 0 }) s
    .next ((s.setPwrDis).logRow row old new)

/-- CORE_RAIL_OVERCURRENT (R419). -/
def execCoreRailOvercurrent (row : Fin 8) (s : State) : Host.Outcome State Fault Refusal :=
  if s.board.railCore[row] then .next ((s.rowOff row).raiseRow row 0x42 0x50 row.val) else .next s

/-- PLL_LOSS_OF_LOCK (R433, R436): by island; of a ring port, a failure of its optical engine, where that has not failed already. -/
def execPllLossOfLock (island : Fin 76) (s : State) : Host.Outcome State Fault Refusal :=
  if s.board.pwrGood = false then .next s
  else if h : island.val < 64 then .next (s.raiseTile ⟨island.val, h⟩ 0x43 0 0)
  else if h : 65 ≤ island.val ∧ island.val < 73 then
    let q : PortId := ⟨island.val - 65, by omega⟩
    if s.engines[q] = some false then .next s else .next (s.engineFail q)
  else
    .next (s.mfatal 0x51 (match island.val with | 64 => 0x41 | 73 => 0x40 | 74 => 0x42 | _ => 0x43) island.val)

/-- OSCILLATOR_LOSS (R436): module-fatal; the module waits in RESTARTING for the oscillator, with its rails on or off. -/
def execOscillatorLoss (s : State) : Host.Outcome State Fault Refusal :=
  if s.board.vauxOk && !s.board.oscLost then
    let s := s.mfatal 0x52 0x50 0
    .next { s with board := { s.board with oscLost := true } }
  else .next s

/-- OSCILLATOR_RECOVERY (R436): the oscillator has run for 10 ms, and the wait ends; a module that is off is then in the state its
other holds give. -/
def execOscillatorRecovery (s : State) : Host.Outcome State Fault Refusal :=
  let s : State := { s with board := { s.board with oscLost := false } }
  if s.board.pwrGood then .next s else .next { s with boot := { s.boot with mstate := offState s.board } }

/-- DIE_SENSOR_READ (R438, R439, R442): a reading in 1/16 °C; none fails the sensor's self-check. -/
def execDieSensorRead (i : Fin 68) (temp : Option Int) (s : State) : Host.Outcome State Fault Refusal :=
  if !s.board.vauxOk then .next s
  else
    match temp with
    | none => .next (({ s with board := { s.board with dieTemp := s.board.dieTemp.set i none } } : State).trip 2 i.val)
    | some x =>
      let s := { s with board := { s.board with dieTemp := s.board.dieTemp.set i (some x) } }
      if degrees 115 ≤ x then .next (s.trip 1 i.val) else .next s

/-- PACKAGE_TEMP_READ (R179, R438, R439, R442): a reading in 1/16 °C; none where the package does not answer. -/
def execPackageTempRead (pkg : Fin 64) (temp : Option Int) (s : State) : Host.Outcome State Fault Refusal :=
  if !s.board.vauxOk || s.board.pkgIgnored[pkg] then .next s
  else
    match temp with
    | some x =>
      let s := { s with board := { s.board with pkgTemp := s.board.pkgTemp.set pkg (some x), pkgUnread := s.board.pkgUnread.set pkg 0 } }
      if degrees 105 ≤ x then .next (s.trip 3 pkg.val) else .next s
    | none =>
      let n : Nat := s.board.pkgUnread[pkg] + 1
      let s : State := { s with board := { s.board with pkgUnread := s.board.pkgUnread.set pkg n } }
      if 10 ≤ n then .next (s.packageLost pkg) else .next s

/-- Every sensor reads cool enough for the start after a trip (R440). -/
def State.cool (s : State) : Bool :=
  (s.board.dieTemp.toList.all fun t => t.any fun x => decide (x ≤ degrees 100)) &&
    (List.finRange 64).all fun p => s.board.pkgIgnored[p] || (s.board.pkgTemp[p]).any fun x => decide (x ≤ degrees 95)

/-- TRIP_COOL (R440): the wait after a cleared trip latch ends. -/
def execTripCool (s : State) : Host.Outcome State Fault Refusal :=
  if s.board.tripWait && s.cool then .next { s with board := { s.board with tripWait := false } } else .next s

end Sys2Proof.Machine
end

