-- ==== Sys2Proof/Machine/Start.lean ====
section
/-! DEFINITION. The start of the module (16): POWER_GOOD, CHANNEL_TRAINING_DONE, CHANNEL_INIT_DONE, PERST_N_RELEASE, NVM_STAGE,
MODULE_RESTART. -/

namespace Sys2Proof.Machine

/-- What the ROM does up to t2 (R478): counts the start, derives the identity key from its seed (R388), reads the certificate store,
chooses the image. -/
def Boot.run (b : Boot) (certRead readA readB : Bool) : Boot :=
  let b := { b with scount := b.scount + 1, derived := true, dpk := (List.range 1952).map (Config.idPublicByte b.seed),
                    dsk := some (Config.idSecret b.seed), fBefore := b.blown, mrom := shake256 64 Config.romBytes }
  let cert := if certRead then b.header certBase else none
  ({ b with certOk := cert.isSome, certChain := (cert.map fun h => b.imageAt certBase h).getD [] } : Boot).choose readA readB

namespace State

/-- The image is applied (R478 t3, R269). After a restart or a trip MRST is the first entry of every partition's log (R453, log 44); a
package found unreadable before takes its partition to FAILED (R442). -/
def applyImage (s : State) : State :=
  match s.boot.chosen with
  | none => s
  | some im =>
    let fresh (i : Fin 8) : Port := { Port.fresh with state := if im.tsize.getD (i.val / 2) 1 ≤ 1 then .unused else .bypassed }
    let s : State := { s with boot := { s.boot with image := some im, chosen := none, mstate := .training, phase := .training }
                              ports := Vector.ofFn fresh }
    let s := s.partsUsed.foldl logMrst s
    ((List.finRange 64).filter fun i => s.board.pkgIgnored[i]).foldl (fun s i => s.raiseRow ⟨i.val / 8, by omega⟩ 0x47 0x50 i.val) s

/-- A start from t0 (R478): MSTATE BOOTING, every count at zero, every rail of the module on; the Jewel draws the secret of its own
key slot (R182). -/
def beginStart (s : State) (certRead readA readB : Bool) : State :=
  let d := s.preempt.draw 32
  let s := d.2
  { s with
    jewel := { s.jewel with slot0 := some d.1 }
    boot := { ({ s.boot with cause := s.boot.nextCause } : Boot).run certRead readA readB with mstate := .booting, nextCause := 1 }
    board := { s.board with railCore := Vector.replicate 8 true, railMem := Vector.replicate 8 true,
                            pkgUnread := Vector.replicate 64 0, pkgIgnored := Vector.replicate 64 false,
                            rows := Vector.replicate 8 RowMon.fresh } }

/-- What follows t2: the image is applied, or PERST_N holds the start, or the module is in recovery (R481, R519). -/
def afterChoice (s : State) : State :=
  if s.boot.chosen.isNone then
    let s := s.bootRecord 2
    { s with boot := { s.boot with phase := .recovery } }
  else if s.board.perstN then s.applyImage
  else { s with boot := { s.boot with phase := .heldT2 } }

/-- A ROM known-answer test has failed (R480): the module holds in BOOTING with every rail off. -/
def holdRom (s : State) : State :=
  let s := ({ s with boot := { s.boot with slot := 0, chosen := none, reasonA := 0, reasonB := 0 } } : State).bootRecord 3
  let s := { s with board := { s.board with romHold := true, romReleased := false, restarting := none } }
  let s := s.railsOff
  { s with boot := { s.boot with phase := .romHold } }

/-- The channels of a partition have trained: it enters SCRUBBING (R478 t4). Its start pouncing begins once every channel has
been initialised (R532). -/
def enterScrub (s : State) (p : PartId) : State :=
  if s.allInit p then s.beginPounce p false none true
  else s.modPart p fun x => { x with pstate := .scrubbing, pounce := some { deep := false, start := s.clocks.jewel, close := none, atStart := true } }

/-- Every channel of the partition has trained. -/
def allTrained (s : State) (p : PartId) : Bool := (s.tilesOf p).all fun t => s.tiles[t].chans.toList.all (·.trained)

/-- NVM_STAGE erases a slot (R486 step 2). -/
def eraseSlot (s : State) (slot : Nat) : State :=
  let base := slotBase slot
  { s with boot := { s.boot with flash := s.boot.flash.filter fun c => decide (c.1 < base) || decide (base + slotBytes ≤ c.1) } }

/-- NVM_STAGE writes an erased slot (R467, R486): the image, as far as the slot reaches, under a fresh nonce, the header last where
`whole`. -/
def writeStage (s : State) (slot gen : Nat) (img : Bytes) (whole : Bool) : State :=
  let d := s.draw 16
  let s := d.2
  let k := nvmKeys s.boot.seed
  let base := slotBase slot
  let flash := Mem.writeD erased s.boot.flash (base + 64) ((imageCrypt k.2 d.1 img).take (slotBytes - 64))
  let flash := if whole then Mem.writeD erased flash base (writeHdr k.1 d.1 gen img.length) else flash
  { s with boot := { s.boot with flash := flash } }

/-- The slot a stage writes, and its GEN: the inactive one (R486), or in recovery R481's. -/
def stageSlot (s : State) : Nat × Nat :=
  match s.boot.image with
  | some im => (if s.boot.slot = 1 then 2 else 1, im.gen + 1)
  | none => (s.boot.recSlot, s.boot.recGen)

/-- Start an NVM_STAGE and end it. -/
def stageEnd (s : State) (seq : Nat) (r : Result) : State := (s.start none false seq).complete none false seq r

/-- The stage under way, while its command is still in flight. -/
def staging (s : State) : Option Stage := s.boot.stage.filter fun g => (s.inFlight none false g.seq).isSome

/-- Pass 1 of an NVM_STAGE that verified (R486): the inactive slot is erased, and the digest of the image kept. -/
def stageBegin (s : State) (seq : Nat) (img : Bytes) : State :=
  let s := (s.start none false seq).eraseSlot s.stageSlot.1
  { s with boot := { s.boot with stage := some ⟨seq, img.length, shake256 64 img⟩ } }

/-- Pass 2 of an NVM_STAGE (R486): the image as read again is written, with the header where its digest is that of pass 1. -/
def stageFinish (s : State) (g : Stage) (again : Option Bytes) : State :=
  let s : State := { s with boot := { s.boot with stage := none } }
  match again with
  | none => s.complete none false g.seq { status := stFailed, cls := 2 }
  | some b =>
    let same : Bool := b.length = g.len ∧ shake256 64 b = g.digest
    (s.writeStage s.stageSlot.1 s.stageSlot.2 (fit g.len b) same).complete none false g.seq
      (if same then { status := stOk, result := s.stageSlot.1 } else { status := stRefused, cls := 2 })

end State

open State

/-- POWER_GOOD (R477-R482): the Jewel leaves reset; the image is chosen and, with PERST_N released, applied. -/
def execPowerGood (romOk certRead readA readB : Bool) (s : State) : Host.Outcome State Fault Refusal :=
  if !s.board.pwrGood || s.boot.phase != .none || s.board.oscLost then .next s
  else
    let s := s.beginStart certRead readA readB
    if romOk then .next s.afterChoice else .next s.holdRom

/-- PERST_N_RELEASE (R519): a start held at t2 goes on. -/
def execPerstNRelease (s : State) : Host.Outcome State Fault Refusal :=
  if !s.board.vauxOk || s.board.perstN then .next s
  else
    let s := { s with board := { s.board with perstN := true, perstReset := false, lastEdge := s.clocks.vaux } }
    if s.boot.phase = .heldT2 then .next s.applyImage else .next s

/-- CHANNEL_TRAINING_DONE (R166, R176, R478 t4, R480). -/
def execChannelTrainingDone (t : TileId) (k : ChanId) (ok : Bool) (s : State) : Host.Outcome State Fault Refusal :=
  let c := s.tiles[t].chans[k]
  match s.partOf t with
  | none => .next s
  | some p =>
    if s.boot.phase != .training || c.trained || c.failed != 0 then .next s
    else
      let s := if ok then s.modChan t k fun c => { c with trained := true, selfRefresh := false } else s.failChannel t k 1
      .next ((if s.allTrained p && s.parts[p].pstate == .off then s.enterScrub p else s).endRestart.tryReady)

/-- CHANNEL_INIT_DONE (R532): every line of the channel holds the zero codeword; after the partition's last one its start
pouncing begins. -/
def execChannelInitDone (t : TileId) (k : ChanId) (s : State) : Host.Outcome State Fault Refusal :=
  match s.partOf t with
  | none => .next s
  | some p =>
    match s.parts[p].pounce with
    | none => .next s
    | some q =>
      if s.tiles[t].chans[k].init then .next s
      else
        let s := s.modChan t k fun c => { c with mem := [], tree := none, wiped := none, init := true, patrol := 0 }
        if s.allInit p then
          .next ((s.beginPounce p false none true).modPart p fun x => { x with pounce := some q })
        else .next s

/-- NVM_STAGE (R351, R481, R486, R487): `obj` is the image as host memory gives it. In pass 1 it is verified, a refusal carrying its
code of R473, and the slot that is not active is erased; in pass 2, the row's next event, it is read again and written. What ends a
stage between them leaves the slot without a usable header. -/
def execNvmStage (obj : Option Bytes) (s : State) : Host.Outcome State Fault Refusal :=
  let s := s.settled none
  match s.staging with
  | some g => .next (s.stageFinish g obj)
  | none =>
    match (s.startable none .jewel).filter fun e => e.cmd.opc == 0x60 with
    | none => .next s
    | some e =>
      if (s.service none).isSome then .next s
      else
        match obj with
        | none => .next (s.stageEnd e.cmd.seq { status := stFailed, cls := 2 })
        | some img =>
          let code := if img.length ≠ e.cmd.arg1 then 3 else verifyImage img s.boot.dpk s.boot.blown
          if code = 0 then .next (s.stageBegin e.cmd.seq img)
          else .next (s.stageEnd e.cmd.seq { status := stRefused, cls := 2, result := code })

/-- The source of a module-fatal error (R451). -/
def mfatalSrc (code detail : Nat) : Nat :=
  if code = 0x51 then (match detail with | 64 => 0x41 | 73 => 0x40 | 74 => 0x42 | _ => 0x43)
  else if code = 0x52 then 0x50 else 0x43

/-- MODULE_RESTART (R446, R461, R462): a module-fatal error of R450. -/
def execModuleRestart (code : Byte) (detail : BitVec 32) (s : State) : Host.Outcome State Fault Refusal :=
  if 0x50 ≤ code.toNat ∧ code.toNat ≤ 0x55 then .next (s.mfatal code.toNat (mfatalSrc code.toNat detail.toNat) detail.toNat) else .next s

end Sys2Proof.Machine
end

