-- ==== Sys2Proof/Machine/TileRows.lean ====
section
/-! DEFINITION. The commands of tile programs: PASS, PASS_COMPLETE, ACCUM_REPLAY, EPILOGUE, VEC, VEC_COMPLETE, DMA,
DMA_COMPLETE, SEND, RECV, MESH_TRANSFER_DONE, LOOP, END, TILE_COMPLETE (02, 05). -/

namespace Sys2Proof.Machine

open State

/-- PASS (R66): the descriptor at the program counter is checked, its ranges reserved, and it goes to the array. -/
def execPass (t : TileId) (s : State) : Host.Outcome State Fault Refusal := .next (s.fetchDispatch t [1])

/-- VEC (R152): the descriptor at the program counter goes to the vector unit. -/
def execVec (t : TileId) (s : State) : Host.Outcome State Fault Refusal := .next (s.fetchDispatch t [3])

/-- DMA (R70): the descriptor at the program counter goes to tile DMA, its requests to the seal slice or the host interface. -/
def execDma (t : TileId) (s : State) : Host.Outcome State Fault Refusal := .next (s.fetchDispatch t [2])

/-- SEND (R72, R73): the descriptor at the program counter goes to the mesh port. -/
def execSend (t : TileId) (s : State) : Host.Outcome State Fault Refusal := .next (s.fetchDispatch t [4])

/-- RECV (R72): the receive region is posted. -/
def execRecv (t : TileId) (s : State) : Host.Outcome State Fault Refusal := .next (s.fetchDispatch t [5])

/-- LOOP (R67): the body begins with iteration 0. -/
def execLoop (t : TileId) (s : State) : Host.Outcome State Fault Refusal := .next (s.fetchDispatch t [6])

/-- END (R60): the tile stops fetching. -/
def execEndProgram (t : TileId) (s : State) : Host.Outcome State Fault Refusal := .next (s.fetchDispatch t [15])

/-- PASS_COMPLETE (R44, R46, R117): the array's oldest pass writes its last partial sum. -/
def execPassComplete (t : TileId) (s : State) : Host.Outcome State Fault Refusal :=
  match s.tiles[t].nextPass with
  | some o => .next (s.modTile t fun x => x.completePass o)
  | none => .next s

/-- ACCUM_REPLAY (R117, R121): with every dispatched descriptor complete, the first overflowed sequence is replayed. -/
def execAccumReplay (t : TileId) (s : State) : Host.Outcome State Fault Refusal :=
  match s.tiles[t].ops, s.tiles[t].overflowed with
  | [], psum :: _ => .next (s.replay t psum)
  | _, _ => .next s

/-- EPILOGUE (R135, R136): the vector unit's next work is the epilogue of a completed LAST pass, or a VEC that names one. -/
def execEpilogue (t : TileId) (s : State) : Host.Outcome State Fault Refusal :=
  match s.tiles[t].vectorWork with
  | [] => .next s
  | o :: _ =>
    match o.epi with
    | none => .next s
    | some eb =>
      if o.engine == .array then
        if o.half then .next (s.modTile t fun x => x.finishPass o eb (s.dropKey t)) else .next s
      else if o.half then .next s
      else .next (s.modTile t fun x => (x.runVec o (s.dropKey t)).modOp o.id fun q => { q with half := true })

/-- VEC_COMPLETE (R135): the vector unit's next work is a VEC; without an epilogue it is computed here, its reservations are
released. -/
def execVecComplete (t : TileId) (s : State) : Host.Outcome State Fault Refusal :=
  match s.tiles[t].vectorWork with
  | [] => .next s
  | o :: _ =>
    if o.engine == .vector && (o.half || o.epi.isNone) then
      .next (s.modTile t fun x => (if o.half then x else x.runVec o (s.dropKey t)).dropOp o.id)
    else .next s

/-- DMA_COMPLETE (R189): the i-th uncompleted DMA of the tile has every verdict in. -/
def execDmaComplete (t : TileId) (i : Nat) (s : State) : Host.Outcome State Fault Refusal :=
  match (s.tiles[t].ops.filter (·.engine == .dma))[i]?, s.partOf t with
  | some o, some p => if s.dmaIdle p t o.id then .next (s.endDma t o) else .next s
  | _, _ => .next s

/-- MESH_TRANSFER_DONE (R73): the first SEND of `src` to `dst` and its RECV complete; with different LENs both are invalid. -/
def execMeshTransferDone (src dst : TileId) (s : State) : Host.Outcome State Fault Refusal :=
  match s.meshHead src 4 dst.val, s.meshHead dst 5 src.val, s.partOf src with
  | some a, some b, some p =>
    let ma := MeshDesc.parse a.desc
    let mb := MeshDesc.parse b.desc
    let done (s : State) : State := (s.modTile src fun x => x.dropOp a.id).modTile dst fun x => x.dropOp b.id
    if ma.len = mb.len then .next (done (s.meshMove src dst ma mb))
    else .next (((done s).stopTile p src a.slot).stopTile p dst b.slot)
  | _, _, _ => .next s

/-- TILE_COMPLETE (R65, R343): at END, or once the RUN stops, with every engine drained, the tile reports. -/
def execTileComplete (t : TileId) (s : State) : Host.Outcome State Fault Refusal :=
  match s.partOf t with
  | none => .next s
  | some p =>
    let x := s.tiles[t]
    if x.running && !x.reported && (x.atEnd || s.parts[p].runStop.isSome) && x.ops.isEmpty && x.overflowed.isEmpty then
      .next (s.tileReport p t)
    else .next s

end Sys2Proof.Machine
end

