-- ==== Sys2Proof/Machine/Dispatch.lean ====
section
/-! DEFINITION. One arm for each constructor of Instr. -/

namespace Sys2Proof.Machine

open Sys2Proof

/-- The effect of a command or event on everything but the queue. -/
def exec (i : Instr) (s : State) : Host.Outcome State Fault Refusal :=
  match i with
  | .slotTake f urgent => Sys2Proof.Machine.execSlotTake f urgent s
  | .badslot f urgent => Sys2Proof.Machine.execBadslot f urgent s
  | .barWrite f bar off data => Sys2Proof.Machine.execBarWrite f bar off data s
  | .jobOpen p obj sigOk => Sys2Proof.Machine.execJobOpen p obj sigOk s
  | .jobClose p => Sys2Proof.Machine.execJobClose p s
  | .keyRelease p obj sigOk kem => Sys2Proof.Machine.execKeyRelease p obj sigOk kem s
  | .attest f nonce => Sys2Proof.Machine.execAttest f nonce s
  | .loadProgram p obj => Sys2Proof.Machine.execLoadProgram p obj s
  | .run p => Sys2Proof.Machine.execRun p s
  | .copyIn p => Sys2Proof.Machine.execCopyIn p s
  | .copyOut p => Sys2Proof.Machine.execCopyOut p s
  | .bind p => Sys2Proof.Machine.execBind p s
  | .unbind p => Sys2Proof.Machine.execUnbind p s
  | .reduce p => Sys2Proof.Machine.execReduce p s
  | .checkpoint p => Sys2Proof.Machine.execCheckpoint p s
  | .restore p => Sys2Proof.Machine.execRestore p s
  | .fence p => Sys2Proof.Machine.execFence p s
  | .status f => Sys2Proof.Machine.execStatus f s
  | .abort f => Sys2Proof.Machine.execAbort f s
  | .nvmStage obj => Sys2Proof.Machine.execNvmStage obj s
  | .commandTimeout f => Sys2Proof.Machine.execCommandTimeout f s
  | .jewelWindow => Sys2Proof.Machine.execJewelWindow s
  | .jewelWatchdogExpiry => Sys2Proof.Machine.execJewelWatchdogExpiry s
  | .pass t => Sys2Proof.Machine.execPass t s
  | .passComplete t => Sys2Proof.Machine.execPassComplete t s
  | .accumReplay t => Sys2Proof.Machine.execAccumReplay t s
  | .epilogue t => Sys2Proof.Machine.execEpilogue t s
  | .vec t => Sys2Proof.Machine.execVec t s
  | .dma t => Sys2Proof.Machine.execDma t s
  | .dmaComplete t ix => Sys2Proof.Machine.execDmaComplete t ix s
  | .send t => Sys2Proof.Machine.execSend t s
  | .recv t => Sys2Proof.Machine.execRecv t s
  | .meshTransferDone src dst => Sys2Proof.Machine.execMeshTransferDone src dst s
  | .loop t => Sys2Proof.Machine.execLoop t s
  | .endProgram t => Sys2Proof.Machine.execEndProgram t s
  | .tileComplete t => Sys2Proof.Machine.execTileComplete t s
  | .sealGranuleRead t ix lines => Sys2Proof.Machine.execSealGranuleRead t ix lines s
  | .counterMissFill t ix lines mirrors => Sys2Proof.Machine.execCounterMissFill t ix lines mirrors s
  | .sealGranuleWrite t ix lines => Sys2Proof.Machine.execSealGranuleWrite t ix lines s
  | .rootUpdate t => Sys2Proof.Machine.execRootUpdate t s
  | .patrolRead t k line => Sys2Proof.Machine.execPatrolRead t k line s
  | .refresh t k => Sys2Proof.Machine.execRefresh t k s
  | .packageTempRead pkg temp => Sys2Proof.Machine.execPackageTempRead pkg temp s
  | .dieSensorRead ix temp => Sys2Proof.Machine.execDieSensorRead ix temp s
  | .tripCool => Sys2Proof.Machine.execTripCool s
  | .rootScrub flips => Sys2Proof.Machine.execRootScrub flips s
  | .dataFrameReceive port fecOk fecc wire => Sys2Proof.Machine.execDataFrameReceive port fecOk fecc wire s
  | .idleFrameReceive port fecOk fecc wire => Sys2Proof.Machine.execIdleFrameReceive port fecOk fecc wire s
  | .frameSlotSend port => Sys2Proof.Machine.execFrameSlotSend port s
  | .replayTimeout port => Sys2Proof.Machine.execReplayTimeout port s
  | .ackStallRetrain port => Sys2Proof.Machine.execAckStallRetrain port s
  | .laneSignalLoss port back => Sys2Proof.Machine.execLaneSignalLoss port back s
  | .signalHoldExpiry port => Sys2Proof.Machine.execSignalHoldExpiry port s
  | .laneLock port => Sys2Proof.Machine.execLaneLock port s
  | .hello port coord nport nonce digest fecc => Sys2Proof.Machine.execHello port coord nport nonce digest fecc s
  | .evidenceDPlus port chain report ek authOk fecc => Sys2Proof.Machine.execEvidenceDPlus port chain report ek authOk fecc s
  | .evidenceDMinus port chain report ct authOk kem fecc => Sys2Proof.Machine.execEvidenceDMinus port chain report ct authOk kem fecc s
  | .refusedRetry port => Sys2Proof.Machine.execRefusedRetry port s
  | .crsync port fecOk fecc wire loopPs => Sys2Proof.Machine.execCrsync port fecOk fecc wire loopPs s
  | .opticalEngineFail port => Sys2Proof.Machine.execOpticalEngineFail port s
  | .hatbandOpen => Sys2Proof.Machine.execHatbandOpen s
  | .cardingContribution t => Sys2Proof.Machine.execCardingContribution t s
  | .partialMsg p => Sys2Proof.Machine.execPartialMsg p s
  | .finalMsg p => Sys2Proof.Machine.execFinalMsg p s
  | .gather p => Sys2Proof.Machine.execGather p s
  | .mkup p => Sys2Proof.Machine.execMkup p s
  | .mkdn p => Sys2Proof.Machine.execMkdn p s
  | .moveMsg p => Sys2Proof.Machine.execMoveMsg p s
  | .bucketDelivery p tag => Sys2Proof.Machine.execBucketDelivery p tag s
  | .eraRaise p => Sys2Proof.Machine.execEraRaise p s
  | .eraAck p => Sys2Proof.Machine.execEraAck p s
  | .opened p => Sys2Proof.Machine.execOpened p s
  | .challenge p => Sys2Proof.Machine.execChallenge p s
  | .memberReport p authOk => Sys2Proof.Machine.execMemberReport p authOk s
  | .keyset p kem => Sys2Proof.Machine.execKeyset p kem s
  | .joined p => Sys2Proof.Machine.execJoined p s
  | .sidCeilingRaise p => Sys2Proof.Machine.execSidCeilingRaise p s
  | .restoreAgreement p => Sys2Proof.Machine.execRestoreAgreement p s
  | .goMsg p => Sys2Proof.Machine.execGoMsg p s
  | .tileMark t => Sys2Proof.Machine.execTileMark t s
  | .heldGranuleWrite t => Sys2Proof.Machine.execHeldGranuleWrite t s
  | .checkpointTrailer p => Sys2Proof.Machine.execCheckpointTrailer p s
  | .buddyChunk p => Sys2Proof.Machine.execBuddyChunk p s
  | .buddyTrailerAck p => Sys2Proof.Machine.execBuddyTrailerAck p s
  | .buddyLogRequest p => Sys2Proof.Machine.execBuddyLogRequest p s
  | .partitionReset p bal => Sys2Proof.Machine.execPartitionReset p bal s
  | .resetFlushDone p => Sys2Proof.Machine.execResetFlushDone p s
  | .flushTimeout p => Sys2Proof.Machine.execFlushTimeout p s
  | .selfTestDone p fails => Sys2Proof.Machine.execSelfTestDone p fails s
  | .recentreDone p failed => Sys2Proof.Machine.execRecentreDone p failed s
  | .resetOverrun p => Sys2Proof.Machine.execResetOverrun p s
  | .pouncingDone p reads fails => Sys2Proof.Machine.execPouncingDone p reads fails s
  | .pouncingOverrun p => Sys2Proof.Machine.execPouncingOverrun p s
  | .channelInitDone t k => Sys2Proof.Machine.execChannelInitDone t k s
  | .moduleRestart code detail => Sys2Proof.Machine.execModuleRestart code detail s
  | .powerGood romOk certRead readA readB => Sys2Proof.Machine.execPowerGood romOk certRead readA readB s
  | .channelTrainingDone t k ok => Sys2Proof.Machine.execChannelTrainingDone t k ok s
  | .engineSelfTestDone port ok => Sys2Proof.Machine.execEngineSelfTestDone port ok s
  | .escapementWindow t a => Sys2Proof.Machine.execEscapementWindow t a s
  | .droopEvent t => Sys2Proof.Machine.execDroopEvent t s
  | .rowMonitorSample row ma => Sys2Proof.Machine.execRowMonitorSample row ma s
  | .coreRailOvercurrent row => Sys2Proof.Machine.execCoreRailOvercurrent row s
  | .pllLossOfLock island => Sys2Proof.Machine.execPllLossOfLock island s
  | .oscillatorLoss => Sys2Proof.Machine.execOscillatorLoss s
  | .inputUndervoltage => Sys2Proof.Machine.execInputUndervoltage s
  | .inputOvervoltage => Sys2Proof.Machine.execInputOvervoltage s
  | .inputOvercurrent => Sys2Proof.Machine.execInputOvercurrent s
  | .inputRelease tooHigh => Sys2Proof.Machine.execInputRelease tooHigh s
  | .vauxFault => Sys2Proof.Machine.execVauxFault s
  | .inputPowerApplied slotId => Sys2Proof.Machine.execInputPowerApplied slotId s
  | .railsRise => Sys2Proof.Machine.execRailsRise s
  | .startConditionLoss removed => Sys2Proof.Machine.execStartConditionLoss removed s
  | .modEnableDeassert slotId => Sys2Proof.Machine.execModEnableDeassert slotId s
  | .modEnableAssert => Sys2Proof.Machine.execModEnableAssert s
  | .perstNAssert => Sys2Proof.Machine.execPerstNAssert s
  | .perstNRelease => Sys2Proof.Machine.execPerstNRelease s
  | .stormHoldEnd => Sys2Proof.Machine.execStormHoldEnd s
  | .railsRested => Sys2Proof.Machine.execRailsRested s
  | .smbusBlockRead addr code a => Sys2Proof.Machine.execSmbusBlockRead addr code a s
  | .smbusWrite addr code data => Sys2Proof.Machine.execSmbusWrite addr code data s
  | .smbusTimeout => Sys2Proof.Machine.execSmbusTimeout s
  | .functionLevelReset p => Sys2Proof.Machine.execFunctionLevelReset p s
  | .pfFunctionLevelReset => Sys2Proof.Machine.execPfFunctionLevelReset s
  | .dlDown => Sys2Proof.Machine.execDlDown s
  | .vfEnable numVfs enable => Sys2Proof.Machine.execVfEnable numVfs enable s
  | .busMasterEnable f on => Sys2Proof.Machine.execBusMasterEnable f on s
  | .hostDmaSlot pf write => Sys2Proof.Machine.execHostDmaSlot pf write s
  | .dmaReadCompletion id ok data => Sys2Proof.Machine.execDmaReadCompletion id ok data s
  | .completionTimeout id => Sys2Proof.Machine.execCompletionTimeout id s
  | .debugControlWrite t v => Sys2Proof.Machine.execDebugControlWrite t v s
  | .debugMemoryWrite t off data => Sys2Proof.Machine.execDebugMemoryWrite t off data s
  | .logEntryWrite p => Sys2Proof.Machine.execLogEntryWrite p s
  | .oscillatorRecovery => Sys2Proof.Machine.execOscillatorRecovery s
  | .vauxRecovery => Sys2Proof.Machine.execVauxRecovery s
  | .modEnableHeldLow => Sys2Proof.Machine.execModEnableHeldLow s
  | .dlUp rate width mps => Sys2Proof.Machine.execDlUp rate width mps s
  | .retrainLimitRelease port => Sys2Proof.Machine.execRetrainLimitRelease port s
  | .vecComplete t => Sys2Proof.Machine.execVecComplete t s
  | .eraCeilingReceive p => Sys2Proof.Machine.execEraCeilingReceive p s
  | .sidCeilingReceive p => Sys2Proof.Machine.execSidCeilingReceive p s
  | .sidCeilingAck p => Sys2Proof.Machine.execSidCeilingAck p s
  | .restoreLogChunk p => Sys2Proof.Machine.execRestoreLogChunk p s
  | .buddyRefusal p => Sys2Proof.Machine.execBuddyRefusal p s

end Sys2Proof.Machine
end

