-- ==== Sys2Proof/Safety.lean ====
section
/-! DEFINITION. What counts as a safe run: no step of it ends in a fault or a refusal. And the words of claims: frames,
which say all that a command may have changed, and how a command ends. -/

namespace Sys2Proof.Machine

/-- The step answers a next state. -/
def stepsOn (s : State) : Prop := ∃ t, step s = .next t

/-- k steps from s all answer next states. -/
def runsOn : Nat → State → Prop
  | 0, _ => True
  | k + 1, s => ∃ t, step s = .next t ∧ runsOn k t

/-- Of the partitions, p alone may differ. -/
def PartsKept (s t : State) (p : PartId) : Prop := ∀ q : PartId, q ≠ p → t.parts[q] = s.parts[q]

/-- Of the tiles, x alone may differ. -/
def TilesKept (s t : State) (x : TileId) : Prop := ∀ y : TileId, y ≠ x → t.tiles[y] = s.tiles[y]

/-- Of the ports, i alone may differ. -/
def PortsKept (s t : State) (i : PortId) : Prop := ∀ j : PortId, j ≠ i → t.ports[j] = s.ports[j]

/-- Nothing differs but partition p. -/
def OnlyPart (s t : State) (p : PartId) : Prop := t = { s with parts := t.parts } ∧ PartsKept s t p

/-- Nothing differs but tile x. -/
def OnlyTile (s t : State) (x : TileId) : Prop := t = { s with tiles := t.tiles } ∧ TilesKept s t x

/-- Nothing differs but port i. -/
def OnlyPort (s t : State) (i : PortId) : Prop := t = { s with ports := t.ports } ∧ PortsKept s t i

/-- Nothing differs but partition p and what waits in the ring ports. -/
def PartAndPorts (s t : State) (p : PartId) : Prop := t = { s with parts := t.parts, ports := t.ports } ∧ PartsKept s t p

/-- Nothing differs but partition p, and which tiles a checkpoint's mark holds. -/
def PartAndMarks (s t : State) (p : PartId) : Prop :=
  t = { s with parts := t.parts, tiles := t.tiles } ∧ PartsKept s t p ∧
    ∀ x : TileId, t.tiles[x] = { s.tiles[x] with marked := t.tiles[x].marked }

/-- Nothing differs but the function's own side of the command interface: its partition, or the physical function's window
with the module log. -/
def OnlyFn (s t : State) (f : Fn) : Prop :=
  match f with
  | some p => OnlyPart s t p
  | none => t = { s with pf := t.pf, jewel := { s.jewel with log := t.jewel.log } }

/-- The same, and which tiles a checkpoint's mark holds: a CHECKPOINT that ends without a start lets its tiles go (R393). -/
def FnAndMarks (s t : State) (f : Fn) : Prop :=
  match f with
  | some p => PartAndMarks s t p
  | none => OnlyFn s t none

/-- Of a partition, at most its command window, its queue of host requests and its log differ. -/
def CommandSide (a b : Part) : Prop := b = { a with win := b.win, dma := b.dma, log := b.log }

/-- The posted writes of a completion record (R333): bytes 4-31 first, then bytes 0-3. -/
def recordWrites (e : InFlight) (bs : Bytes) : List HostWrite :=
  [⟨.record, e.cmd.cpl + 4, bs.drop 4, .command e.urgent e.cmd.seq, none⟩, ⟨.record, e.cmd.cpl, bs.take 4, .command e.urgent e.cmd.seq, none⟩]

/-- Between s and t command e of function f has completed with this STATUS, least CLASS and RESULT: its entry is gone, its tag is
settled, and its record, where CPL asks for one, is the last queued (R319, R329, R332-R335). -/
def Ended (s t : State) (f : Fn) (e : InFlight) (st cls result : Nat) : Prop :=
  (t.win f).table = (s.win f).table.filter (fun x => !(x.urgent == e.urgent && x.cmd.seq == e.cmd.seq)) ∧
  (t.win f).tags = setTag (s.win f).tags e.cmd.tag (if st = stOk ∨ st = stPoisoned then .done else .failed) ∧
  (t.dma f).writes = (s.dma f).writes ++
    (if e.cmd.cpl = 0 then []
     else recordWrites e (recordBytes e.cmd e.urgent st (max (max e.cls cls) (statusCls st)) 0 (s.seqCount f) result e.maxw))

/-- s with the outcome of the Jewel command in service noted: its record waits for the end of its windows, and no read of its
object is asked for any more (R363). -/
def noted (s : State) (f : Fn) (v : Service) (st cls result : Nat) : State :=
  (s.setService f (some { v with outcome := some (st, cls, result) })).modDma f fun d =>
    { d with reads := d.reads.filter fun r => r.owner != .command false v.seq }

/-- s once message m for entry b has left the engine's store, and its words in error have been dealt with (R281, R306). -/
def tookMsg (s : State) (p : PartId) (b : Bucket) (m : Msg) : State :=
  (s.modCard p fun c => { c with msgs := c.msgs.erase m }).engErrs p m.errs (if m.headLost then 0 else b.tag) (some (false, b.seq))

/-- A tile through pouncing (R381 steps 3 to 5): all but its channels is scrubbed; of each channel the tree is reset under the
partition's secret, and under a deep pounce its data are overwritten under the throwaway key. -/
def pounced (x : Tile) (t : TileId) (secret : Bytes) (key : Option Bytes) : Tile :=
  { State.scrubTile x with chans := Vector.ofFn fun k : ChanId =>
      match key with
      | some b => (x.chans[k].pounce t.val k.val secret).wipe t.val k.val b
      | none => x.chans[k].pounce t.val k.val secret }

end Sys2Proof.Machine
end

