-- ==== Sys2Proof/Certificates/Slice0/Obligations.lean ====
section
/-! DEFINITION. The statements for the provers. -/

open Sys2Proof Sys2Proof.Machine

/-! ## The block as a whole -/

/-- 95_what_each_step_holds: with a command at the front of the queue, a step runs that command on the state with the
queue's rest. -/
def Obligations.StepRunsFront : Prop :=
  ∀ (c : Instr) (rest : List Instr) (s : State), s.pending = c :: rest → step s = exec c { s with pending := rest }

/-- R19, R434 (log 22): on an empty queue every island's count advances by one cycle and nothing else changes. -/
def Obligations.EmptyQueueTicks : Prop :=
  ∀ s : State, s.pending = [] → ∃ t, step s = .next t ∧
    t = { s with clocks := t.clocks, parts := t.parts, pf := { s.pf with count := s.pf.count + 1 }, tiles := t.tiles, ports := t.ports } ∧
    t.clocks.hostIf = s.clocks.hostIf + 1 ∧ t.clocks.jewel = s.clocks.jewel + 1 ∧ t.clocks.carding = s.clocks.carding + 1 ∧
    t.clocks.phy = s.clocks.phy + 1 ∧ t.clocks.spine = s.clocks.spine + 1 ∧ t.clocks.vaux = s.clocks.vaux + 1 ∧
    (∀ p : PartId, t.parts[p] = { s.parts[p] with count := s.parts[p].count + 1 }) ∧
    (∀ x : TileId, t.tiles[x] = { s.tiles[x] with count := s.tiles[x].count + 1 }) ∧
    (∀ i : PortId, t.ports[i] = { s.ports[i] with count := s.ports[i].count + 1 })

/-- Every command answers a next state and leaves the queue to the step, and so no step ends in a fault or a refusal: the
manual gives every command an effect. -/
def Obligations.NoStepStops : Prop :=
  (∀ (c : Instr) (s : State), ∃ t, exec c s = .next t ∧ t.pending = s.pending) ∧ ∀ s : State, stepsOn s

/-- R483: fuse steps are blown and never cleared, whatever command runs, in every state. -/
def Obligations.FusesNeverClear : Prop :=
  ∀ (s t : State) (i : Nat), step s = .next t → s.boot.fuses.getLsbD i = true → t.boot.fuses.getLsbD i = true

/-- R465: the flash memory keeps its one canonical form, in which an erased byte is not listed, over every step. -/
def Obligations.FlashStaysCanonical : Prop :=
  ∀ s t : State, step s = .next t → Mem.wfD erased s.boot.flash = true → Mem.wfD erased t.boot.flash = true

/-- R487: no step writes the slot of the flash that holds the image the module runs. -/
def Obligations.ActiveSlotKept : Prop :=
  ∀ (s t : State) (a : Nat), step s = .next t → s.boot.image.isSome = true → (s.boot.slot = 1 ∨ s.boot.slot = 2) →
    slotBase s.boot.slot ≤ a → a < slotBase s.boot.slot + slotBytes →
    Mem.getD erased t.boot.flash a = Mem.getD erased s.boot.flash a

/-- The model's state with no input power (logs 2 to 9): nothing powered, nothing waiting, every window at slot 0 and SEQ 1
(R316), every partition OFF, the logs empty, and the flash in its canonical form. -/
def Obligations.ResetIsUnpowered : Prop :=
  State.reset.pending = [] ∧ State.reset.boot.mstate = .powering ∧ State.reset.boot.image = none ∧
  State.reset.board.pwrGood = false ∧ State.reset.board.inputPower = false ∧
  (∀ p : PartId, State.reset.parts[p].pstate = .off ∧ State.reset.parts[p].job = none ∧ State.reset.parts[p].log = ErrLog.empty) ∧
  (∀ f : Fn, (State.reset.win f).mcur = 0 ∧ (State.reset.win f).ucur = 0 ∧ (State.reset.win f).mexp = 1 ∧
    (State.reset.win f).uexp = 1 ∧ (State.reset.win f).table = []) ∧
  (∀ i : PortId, State.reset.ports[i].state ≠ .up) ∧ State.reset.jewel.log = ErrLog.empty ∧
  Mem.wfD erased State.reset.boot.flash = true

/-! ## The command window (11) -/

/-- R315, R494 (log 23): a BAR_WRITE to BAR 0 of a function that answers memory requests, at an offset below 63,488, stores its bytes
in the function's slots as far as offset 63,487; every other byte of them reads as before. Of the function's window nothing else
changes, and a slot at a cursor that shows another SEQ now is no longer waited for as a bad one. Any other BAR_WRITE changes
nothing. -/
def Obligations.BarWriteStoresSlots : Prop :=
  (∀ (f : Fn) (off : Nat) (data : Bytes) (s : State), s.answers f = true → off < 63488 →
    ∃ t, exec (.barWrite f 0 off data) s = .next t ∧ OnlyFn s t f ∧ t.win f = { s.win f with slots := (t.win f).slots } ∧
      (∀ a, Mem.get (t.win f).slots a =
        if off ≤ a ∧ a < off + data.length ∧ a < 63488 then data.getD (a - off) 0 else Mem.get (s.win f).slots a) ∧
      ∀ u : Bool, t.badAt f u = if t.slotValid f u then s.badAt f u else none) ∧
  (∀ (f : Fn) (bar off : Nat) (data : Bytes) (s : State), (bar ≠ 0 ∨ s.answers f = false ∨ 63488 ≤ off) →
    exec (.barWrite f bar off data) s = .next s)

/-- R316, R318, R319, R321, R323: taking the valid slot at a cursor, a main one where no valid urgent one can be taken first. With HCHK
right the cursor, the SEQ shown and the expected SEQ move on; a command refused at once (State.refusal) enters no table and gets
its record where CPL asks for one; any other is copied to the end of the in-flight table, and commands whose turn ends without a
start are then ended. With HCHK wrong the slot stays, and the count at which it was first found bad is kept. -/
def Obligations.SlotTakeTakesSlot : Prop :=
  ∀ (f : Fn) (urgent : Bool) (s : State),
    s.examines f urgent = true → s.slotValid f urgent = true → s.hasRoom f urgent = true → s.urgentFirst f urgent = false →
    (Cmd.hchkOk (s.slotAt f urgent) = true →
      ∃ t, exec (.slotTake f urgent) s = .next t ∧ FnAndMarks s t f ∧
        (t.win f).mcur = (if urgent then (s.win f).mcur else ((s.win f).mcur + 1) % 960) ∧
        (t.win f).mseq = (if urgent then (s.win f).mseq else (s.win f).mexp) ∧
        (t.win f).mexp = (if urgent then (s.win f).mexp else if (s.win f).mexp = 0xFFFFFFFF then 1 else (s.win f).mexp + 1) ∧
        (t.win f).ucur = (if urgent then ((s.win f).ucur + 1) % 32 else (s.win f).ucur) ∧
        (t.win f).useq = (if urgent then (s.win f).uexp else (s.win f).useq) ∧
        (t.win f).uexp = (if urgent then if (s.win f).uexp = 0xFFFFFFFF then 1 else (s.win f).uexp + 1 else (s.win f).uexp) ∧
        (t.win f).slots = (s.win f).slots ∧ t.badAt f urgent = none ∧
        match s.refusal f urgent (Cmd.parse (s.slotAt f urgent)) with
        | some st => (t.win f).table = (s.win f).table ∧
            (let c := Cmd.parse (s.slotAt f urgent)
             (t.dma f).writes = (s.dma f).writes ++ (if c.cpl ≠ 0 ∧ c.cpl % 32 = 0 then
               recordWrites ⟨c, urgent, none, 0, false, none, 0⟩ (recordBytes c urgent st (statusCls st) 0 (s.seqCount f) 0 0) else []))
        | none => ∃ u : State, t = u.settled f ∧
            (u.win f).table = (s.win f).table ++ [⟨Cmd.parse (s.slotAt f urgent), urgent, none, 0, false, none, 0⟩]) ∧
    (Cmd.hchkOk (s.slotAt f urgent) = false →
      ∃ t, exec (.slotTake f urgent) s = .next t ∧ t = s.setBad f urgent (some ((s.badAt f urgent).getD (s.seqCount f))))

/-- R318: a slot that holds the expected SEQ but whose HCHK fails is read again, and stays at the cursor, until 10 µs (10,000
cycles) of the sequencer's count have passed since the first read. If HCHK still fails it is taken without action: BADSLOT counts
it, BADSEQ names it, no record is written, and the cursor and the expected SEQ advance as for any slot taken. -/
def Obligations.BadSlotSkipped : Prop :=
  ∀ (f : Fn) (urgent : Bool) (s : State),
    s.examines f urgent = true → s.slotValid f urgent = true → Cmd.hchkOk (s.slotAt f urgent) = false →
    (s.hasRoom f urgent = true → s.urgentFirst f urgent = false → ∃ t, exec (.slotTake f urgent) s = .next t ∧ OnlyFn s t f ∧
      t.badAt f urgent = some ((s.badAt f urgent).getD (s.seqCount f)) ∧ t.win f = s.win f ∧ t.dma f = s.dma f) ∧
    (∀ c0, s.badAt f urgent = some c0 → s.seqCount f < c0 + 10000 → exec (.badslot f urgent) s = .next s) ∧
    (∀ c0, s.badAt f urgent = some c0 → c0 + 10000 ≤ s.seqCount f →
      ∃ t, exec (.badslot f urgent) s = .next t ∧ OnlyFn s t f ∧ t.badAt f urgent = none ∧ t.dma f = s.dma f ∧
        t.win f = { s.win f with
          badSlot := satInc (s.win f).badSlot, badSeq := field (s.slotAt f urgent) 0 4,
          mcur := if urgent then (s.win f).mcur else ((s.win f).mcur + 1) % 960,
          mseq := if urgent then (s.win f).mseq else (s.win f).mexp,
          mexp := if urgent then (s.win f).mexp else if (s.win f).mexp = 0xFFFFFFFF then 1 else (s.win f).mexp + 1,
          ucur := if urgent then ((s.win f).ucur + 1) % 32 else (s.win f).ucur,
          useq := if urgent then (s.win f).uexp else (s.win f).useq,
          uexp := if urgent then if (s.win f).uexp = 0xFFFFFFFF then 1 else (s.win f).uexp + 1 else (s.win f).uexp })

/-- R330, R327, R329: a FENCE starts, its waits settled, when it is the first main command left in the partition's table; while it is
there, no command after it starts. It completes as OK with the count of main commands that completed otherwise since the last FENCE,
and the count starts again at 0, as JOB_OPEN sets it. Ending the commands whose turn ends without a start (State.settled), which comes
first, changes nothing but the function's side of the command interface and which tiles a checkpoint's mark holds. -/
def Obligations.FenceCompletes : Prop :=
  (∀ (p : PartId) (e : InFlight) (s : State), (s.settled (some p)).startable (some p) .fence = some e →
    e.urgent = false → (s.settled (some p)).inFlight (some p) false e.cmd.seq = some e →
    ∃ t, exec (.fence p) s = .next t ∧ PartAndMarks s t p ∧ t.parts[p].win.fenceCnt = 0 ∧
      Ended (s.settled (some p)) t (some p) e stOk 0 (s.settled (some p)).parts[p].win.fenceCnt) ∧
  (∀ (f : Fn) (e : InFlight) (s : State), s.startable f .fence = some e → (s.mains f).head? = some e) ∧
  (∀ (f : Fn) (e : InFlight) (r : List InFlight) (s : State), s.mains f = e :: r → State.clsOf e = .fence → e.started = none →
    e.ends = none → s.waitState f e.cmd = some true → s.gate f e.cmd.opc = none → s.startable f .fence = some e) ∧
  (∀ (f : Fn) (e x : InFlight) (l r : List InFlight) (k : CmdClass) (s : State), s.mains f = l ++ e :: r → State.clsOf e = .fence →
    s.startable f k = some x → x ∈ l ∨ x = e) ∧
  (∀ (f : Fn) (e : InFlight) (urgent : Bool) (q : Nat) (r : Result) (record : Bool) (s : State), s.inFlight f urgent q = some e →
    ((s.completeNow f urgent q r record).win f).fenceCnt = (s.win f).fenceCnt + (if urgent = false ∧ r.status ≠ stOk then 1 else 0)) ∧
  (∀ (f : Fn) (urgent : Bool) (c : Cmd) (st : Nat) (s : State),
    ((s.refuse f urgent c st).win f).fenceCnt = (s.win f).fenceCnt + (if urgent then 0 else 1)) ∧
  (∀ (p : PartId) (c : Cmd) (v : Service) (b : Bytes) (sigOk : Bool) (s : State), s.serving (some p) 0x01 = some c →
    s.parts[p].service = some v → s.parts[p].pstate = .idle → s.compactOk p c b sigOk = true →
    ∃ t, exec (.jobOpen p (some b) sigOk) s = .next t ∧ t.parts[p].win.fenceCnt = 0) ∧
  ∀ (f : Fn) (s : State), FnAndMarks s (s.settled f) f

/-- R350, R321, R329: the STATUS whose turn it is (an urgent one that waits for no tag, else a main one), where SETV is set, sets the
partition's stream view. One whose ARG0 is 0 then completes as OK; one with another ARG0 starts and queues for it a write of
4,096 bytes, the dump. In either case nothing but the function's own side changes. -/
def Obligations.StatusCompletes : Prop :=
  ∀ (f : Fn) (e : InFlight) (s u : State), s.settled f = u → u.nextStatus f = some e → u.inFlight f e.urgent e.cmd.seq = some e →
    (e.cmd.arg0 = 0 → ∃ t, exec (.status f) s = .next t ∧ OnlyFn u t f ∧ Ended u t f e stOk 0 0 ∧
      ∀ p, f = some p → t.parts[p].vbase = (if bit e.cmd.arg1 16 then bits e.cmd.arg1 10 0 else u.parts[p].vbase)) ∧
    (e.cmd.arg0 ≠ 0 → ∃ t, exec (.status f) s = .next t ∧ OnlyFn u t f ∧
      t.inFlight f e.urgent e.cmd.seq = some { e with started := some (u.seqCount f) } ∧
      (t.dma f).writes = (u.dma f).writes ++ [⟨.other, e.cmd.arg0, t.statusDump f, .command e.urgent e.cmd.seq, none⟩] ∧
      (t.statusDump f).length = 4096 ∧
      ∀ p, f = some p → t.parts[p].vbase = (if bit e.cmd.arg1 16 then bits e.cmd.arg1 10 0 else u.parts[p].vbase))

/-- R331: what the oldest urgent ABORT that waits for no tag does to its target, by the table's four codes; its own record says which row
applied. A target that has not started ends as ABORTED; a started one of a class a partition reset ends is marked to complete as
ABORTED, every other command gets an ending, and the reset starts; another started one, and a SEQ of no command, end the ABORT as
NOTABORTED. -/
def Obligations.AbortActsByTarget : Prop :=
  ∀ (f : Fn) (a : InFlight) (s u : State), s.settled f = u → u.urgentHead f (· == 0x52) = some a →
    u.inFlight f true a.cmd.seq = some a →
    (u.inFlight f false a.cmd.arg0 = none →
      ∃ t, exec (.abort f) s = .next t ∧ OnlyFn u t f ∧ Ended u t f a stNotaborted 0 4) ∧
    (∀ x, u.inFlight f false a.cmd.arg0 = some x → x.started = none → x.ends = none →
      ∃ v t, exec (.abort f) s = .next t ∧ FnAndMarks u t f ∧ Ended u v f x stAborted 0 0 ∧ Ended v t f a stOk 0 1) ∧
    (∀ x, u.inFlight f false a.cmd.arg0 = some x → x.started.isSome = true →
      x.cmd.opc ∈ [0x01, 0x02, 0x03, 0x04, 0x10, 0x60] →
      ∃ t, exec (.abort f) s = .next t ∧ OnlyFn u t f ∧ Ended u t f a stNotaborted 0 3) ∧
    (∀ x p, f = some p → u.inFlight f false a.cmd.arg0 = some x → x.started.isSome = true →
      x.cmd.opc ∈ [0x11, 0x30, 0x20, 0x21, 0x40, 0x41, 0x50] → u.parts[p].pstate = .running → u.parts[p].reset = none →
      ∃ t, exec (.abort f) s = .next t ∧ OnlyPart u t p ∧ t.parts[p].pstate = .resetting ∧
        t.parts[p].reset = some ⟨0, .running, s.clocks.jewel, false, false, false⟩ ∧
        t.parts[p].dma.writes = u.parts[p].dma.writes ++ (if a.cmd.cpl = 0 then [] else
          recordWrites a (recordBytes a.cmd true stOk a.cls 0 (u.seqCount f) 2 a.maxw)) ∧
        (∀ y ∈ t.parts[p].win.table, y.ends.isSome = true ∧
          (y.urgent = false → y.cmd.seq = x.cmd.seq → y.ends = some stAborted)))

/-- R325, R336, R448, R454: where no episode of the partition's log stands at the level of a timeout, the expiry of timeouts of its started
commands gives every command of the table an ending, TIMEOUT to those expired, and starts the partition reset. Expired commands
of the physical function leave its table at once. -/
def Obligations.TimeoutStartsReset : Prop :=
  (∀ (p : PartId) (s : State),
    (∃ e ∈ s.parts[p].win.table, s.expired (some p) e = true) → s.parts[p].reset = none →
    (s.parts[p].pstate = .idle ∨ s.parts[p].pstate = .opening ∨ s.parts[p].pstate = .running) →
    (s.parts[p].log.episode.map (·.level)).getD 0 < 4 →
    ∃ t, exec (.commandTimeout (some p)) s = .next t ∧ OnlyPart s t p ∧ t.parts[p].pstate = .resetting ∧
      t.parts[p].reset = some ⟨0, s.parts[p].pstate, s.clocks.jewel, false, false, false⟩ ∧
      t.parts[p].win.table.map (fun e => (e.cmd, e.urgent)) = s.parts[p].win.table.map (fun e => (e.cmd, e.urgent)) ∧
      (∀ e ∈ t.parts[p].win.table, e.ends.isSome = true) ∧
      (∀ e ∈ s.parts[p].win.table, s.expired (some p) e = true →
        ∀ e' ∈ t.parts[p].win.table, e'.urgent = e.urgent → e'.cmd.seq = e.cmd.seq → e'.ends = some stTimeout)) ∧
  ∀ s : State, (∀ e ∈ s.pf.win.table, e.ends = none) → ∃ t, exec (.commandTimeout none) s = .next t ∧ OnlyFn s t none ∧
    t.pf.win.table = s.pf.win.table.filter fun x =>
      !(s.pf.win.table.any fun e => s.expired none e && (x.urgent == e.urgent && x.cmd.seq == e.cmd.seq))


/-! ## Jobs, programs, copies and stream bindings (11, 12) -/

/-- R338, R370, R111, R329: a compact that passes every check of JOB_OPEN (State.compactOk), read in IDLE, opens the job in OPENING: a
slot secret is drawn for each KEYID of the range, the tags and the counts of FENCE, errors and integrity failures are cleared and the
regulator stores of the partition's tiles are emptied; OK is noted for its record. An unread compact is noted as FAILED and a failed
check as REFUSED, with no other effect. -/
def Obligations.JobOpenOpensJob : Prop :=
  ∀ (p : PartId) (c : Cmd) (v : Service) (sigOk : Bool) (s : State),
    s.serving (some p) 0x01 = some c → s.parts[p].service = some v →
    exec (.jobOpen p none sigOk) s = .next (noted s (some p) v stFailed 2 0) ∧
    (∀ b, (s.parts[p].pstate ≠ .idle ∨ s.compactOk p c b sigOk = false) →
      exec (.jobOpen p (some b) sigOk) s = .next (noted s (some p) v stRefused 2 0)) ∧
    (∀ b, s.parts[p].pstate = .idle → s.compactOk p c b sigOk = true →
      ∃ t j, exec (.jobOpen p (some b) sigOk) s = .next t ∧
        t = { s with parts := t.parts, tiles := t.tiles, free := t.free } ∧ PartsKept s t p ∧
        t.parts[p] = { s.parts[p] with
          pstate := .opening, job := some j, slotSecrets := t.parts[p].slotSecrets, integ := 0, ilock := false, pwrLogged := false,
          win := { s.parts[p].win with tags := [], fenceCnt := 0 }, log := { s.parts[p].log with errCnt := 0 },
          service := some { v with outcome := some (stOk, 0, 0) },
          dma := { s.parts[p].dma with reads := s.parts[p].dma.reads.filter fun r => r.owner != .command false v.seq } } ∧
        j.num = Compact.job b ∧ j.compact = b ∧ j.mcomp = shake256 64 b ∧ j.mprog = zeros 64 ∧ j.jr = none ∧ j.link = none ∧
        j.imports = [] ∧ j.released = [] ∧ j.keySet = false ∧
        t.parts[p].slotSecrets = (List.range (s.keyRange p).2).map (fun i =>
          ((s.keyRange p).1 + i, (List.range 32).map (Config.freeByte (s.free + i)))) ∧ s.free + (s.keyRange p).2 < t.free ∧
        ∀ x : TileId, t.tiles[x] = if s.partOf x = some p then { s.tiles[x] with reg := [], rgErr := [], regUsed := [], regSteps := [] } else s.tiles[x])

/-- R313, R339, R381: JOB_CLOSE takes every other command from the partition's table, discards the buckets, whose keys join the last
64 discarded, and takes the job with its keys, streams, copies, logs and frames away. In FAILED it completes as OK and the table
is empty. Otherwise the partition pounces, deeply where ARG0 asks for it: each of its tiles is scrubbed and its trees are reset under
a new secret, under a deep pounce with its data overwritten, its roots are 0, its log is empty, and the JOB_CLOSE waits in the table for
the pouncing's end. -/
def Obligations.JobCloseRetiresJob : Prop :=
  ∀ (p : PartId) (c : Cmd) (e : InFlight) (s : State), s.serving (some p) 0x02 = some c →
    s.inFlight (some p) false c.seq = some e → e.ends = none →
    ∃ t, exec (.jobClose p) s = .next t ∧ t.parts[p].job = none ∧ t.parts[p].slotSecrets = [] ∧ t.parts[p].streams = [] ∧
      t.parts[p].copies = [] ∧ t.parts[p].fuller = Fuller.empty ∧ t.parts[p].service = none ∧
      t.parts[p].card = { Carding.empty with
        dead := (s.parts[p].card.dead ++ s.parts[p].card.table.map (·.key)).drop
          ((s.parts[p].card.dead ++ s.parts[p].card.table.map (·.key)).length - 64) } ∧
      (∀ x ∈ t.parts[p].win.table, x.urgent = false ∧ x.cmd.seq = c.seq) ∧ PartsKept s t p ∧
      t = { s with parts := t.parts, tiles := t.tiles, jewel := { s.jewel with roots := t.jewel.roots },
                   ports := s.ports.map (fun o => o.discard p.val s.coord.toNat false true), free := t.free } ∧
      (s.parts[p].pstate = .failed → t.parts[p].pstate = .failed ∧ t.tiles = s.tiles ∧ t.jewel = s.jewel ∧ t.free = s.free ∧
        t.parts[p].win.table = [] ∧ ∃ v e', e'.cmd = e.cmd ∧ Ended v t (some p) e' stOk 0 0) ∧
      (s.parts[p].pstate ≠ .failed → t.parts[p].pstate = .scrubbing ∧ t.parts[p].log = ErrLog.empty ∧
        (∃ e', t.inFlight (some p) false c.seq = some e' ∧ e'.cmd = e.cmd) ∧
        t.parts[p].pounce = some ⟨bit c.arg0 0, s.clocks.jewel, some c.seq, false⟩ ∧
        ∃ sec key, t.parts[p].treeSecret = some sec ∧ sec = (List.range 32).map (Config.freeByte s.free) ∧
          key = (if bit c.arg0 0 then some ((List.range 32).map (Config.freeByte (s.free + 1))) else none) ∧
          (∀ x : TileId, t.tiles[x] = if s.partOf x = some p then pounced s.tiles[x] x sec key else s.tiles[x]) ∧
          ∀ i : Fin 2048, t.jewel.roots[i] = if ((s.tilesOf p).any fun x => x.val == i.val / 32) then ⟨0, 0⟩ else s.jewel.roots[i])

/-- R374 to R376: a key package that passes every check (State.openPackage) adds its contributor to those released and its secrets to
the job; with the last secret required the key set is complete and a link secret is drawn, and where every member has joined the
leader's partition runs. Its OK is noted for the record. A package that fails is noted as REFUSED, one that was not read as FAILED. -/
def Obligations.KeyReleaseTakesPackage : Prop :=
  ∀ (p : PartId) (c : Cmd) (v : Service) (j : Job) (sigOk : Bool) (kem : Option Bytes) (s : State),
    s.serving (some p) 0x03 = some c → s.parts[p].service = some v → s.parts[p].job = some j →
    exec (.keyRelease p none sigOk kem) s = .next (noted s (some p) v stFailed 2 0) ∧
    (∀ b, s.openPackage p c b sigOk kem = none →
      exec (.keyRelease p (some b) sigOk kem) s = .next (noted s (some p) v stRefused 2 0)) ∧
    (∀ b imp root, s.openPackage p c b sigOk kem = some (imp, root) →
      ∃ t j', exec (.keyRelease p (some b) sigOk kem) s = .next t ∧ t = { s with parts := t.parts, free := t.free } ∧
        PartsKept s t p ∧
        t.parts[p] = { s.parts[p] with
          job := some j', service := some { v with outcome := some (stOk, 0, 0) },
          pstate := if j.keySet = false ∧ j'.keySet = true ∧ s.isLeader p = true ∧ j.members.all (·.joined) = true ∧
            s.parts[p].pstate = .opening then .running else s.parts[p].pstate,
          dma := { s.parts[p].dma with reads := s.parts[p].dma.reads.filter fun r => r.owner != .command false v.seq } } ∧
        j' = { j with released := j.released ++ [byteAt b 6], imports := j.imports ++ (imp.map fun k => (byteAt b 6, k)).toList,
                      jr := if root.isSome then root else j.jr, keySet := j'.keySet, link := j'.link, mpeer := j'.mpeer } ∧
        (j.keySet = true → j'.keySet = true ∧ j'.link = j.link) ∧
        (j.keySet = false → j'.keySet = State.keysComplete j' ∧
          (j'.keySet = true → j'.link = some ((List.range 32).map (Config.freeByte s.free)))))

/-- R340, R372: ATTEST over the caller's 64-byte nonce queues the report for ARG1 where ARG2 has room for it, and notes OK with its
length as the result; where the report does not fit INVALID is noted, and FAILED where the nonce was not read. The physical function's
report holds two bytes drawn at random. -/
def Obligations.AttestReports : Prop :=
  ∀ (f : Fn) (c : Cmd) (v : Service) (s : State), s.serving f 0x04 = some c → s.service f = some v →
    exec (.attest f none) s = .next (noted s f v stFailed 2 0) ∧
    ∀ (n r : Bytes), r = s.report f n (if f = none then (List.range 2).map (Config.freeByte s.free) else []) →
      (c.arg2 < r.length → ∃ t, exec (.attest f (some n)) s = .next t ∧ t = { noted s f v stInvalid 2 0 with free := t.free }) ∧
      (r.length ≤ c.arg2 → ∃ t, exec (.attest f (some n)) s = .next t ∧
        t = { noted (s.postWrite f ⟨.other, c.arg1, r, .command false c.seq, none⟩) f v stOk 0 r.length with free := t.free } ∧
        t.free = s.free + (if f = none then 1 else 0))

/-- R341, R342: LOAD_PROGRAM with a sealed image that passes every check writes each segment into the instruction memories its mask
names and extends MPROG by the image's measure; it completes as OK. With one that fails a check it completes as REFUSED, with at
most instruction memory of the partition's own tiles changed; with one that was not read as FAILED. -/
def Obligations.LoadProgramMeasures : Prop :=
  ∀ (p : PartId) (e : InFlight) (j : Job) (jr : Bytes) (s u : State), s.settled (some p) = u →
    u.startable (some p) .tile = some e → e.cmd.opc = 0x10 → e.urgent = false →
    u.inFlight (some p) false e.cmd.seq = some e → u.parts[p].job = some j → j.jr = some jr →
    (∃ t, exec (.loadProgram p none) s = .next t ∧ OnlyPart u t p ∧ Ended u t (some p) e stFailed 2 0 ∧
      CommandSide u.parts[p] t.parts[p]) ∧
    ∀ b, ∃ t, exec (.loadProgram p (some b)) s = .next t ∧ t = { u with parts := t.parts, tiles := t.tiles } ∧ PartsKept u t p ∧
      (∀ x : TileId, t.tiles[x] = { u.tiles[x] with imem := t.tiles[x].imem, imErr := t.tiles[x].imErr }) ∧
      (∀ x : TileId, u.partOf x ≠ some p → t.tiles[x] = u.tiles[x]) ∧
      ((u.loadImage p e.cmd b).2 = true → Ended u t (some p) e stOk 0 0 ∧
        ∃ plain segs, Gcm.decrypt (derived (derived jr "EZM6410 PSEC") "EZM6410 PROG") (sub b 80 12) (b.take 128)
            (sub b 128 (field b 8 4)) (sub b (128 + field b 8 4) 16) = some plain ∧
          shake256 64 plain ∈ Compact.progs j.compact ∧ segmentsOf (field b 6 2) plain = (segs, true) ∧
          CommandSide { u.parts[p] with job := some { j with mprog := shake256 64 (j.mprog ++ shake256 64 plain) } } t.parts[p] ∧
          ∀ x : TileId, u.partOf x = some p → t.tiles[x].imem =
            (segs.filter fun g => State.maskHas g.tmask x).foldl (fun m g => m.write (64 * g.first) g.body) u.tiles[x].imem) ∧
      ((u.loadImage p e.cmd b).2 = false → Ended u t (some p) e stRefused 2 0 ∧ CommandSide u.parts[p] t.parts[p])

/-- R343, R59: RUN starts: every tile of the partition runs from the entry slot of ARG0 (past EPILOGUE descriptors that stand there)
with STEP of ARG1, with nothing dispatched, no loop open and no replay log; its memories, its seal slice and its channels are as they
were, and so is every other tile. The RUN is noted as the partition's. -/
def Obligations.RunStartsTiles : Prop :=
  ∀ (p : PartId) (e : InFlight) (s u : State), s.settled (some p) = u →
    u.startable (some p) .tile = some e → e.cmd.opc = 0x11 → e.urgent = false → u.inFlight (some p) false e.cmd.seq = some e →
    ∃ t, exec (.run p) s = .next t ∧ t = { u with parts := t.parts, tiles := t.tiles } ∧ PartsKept u t p ∧
      CommandSide { u.parts[p] with run := some e.cmd.seq, runStop := none, runEnd := none, regAtRun := t.parts[p].regAtRun } t.parts[p] ∧
      t.inFlight (some p) false e.cmd.seq = some { e with started := some (u.seqCount (some p)) } ∧
      ∀ x : TileId, (u.partOf x ≠ some p → t.tiles[x] = u.tiles[x]) ∧
        (u.partOf x = some p → t.tiles[x] = { u.tiles[x] with
          running := true, step := e.cmd.arg1, atEnd := false, reported := false, stopped := none, marked := false,
          mark := [], nextOp := 0, ops := [], kept := none, prevPass := none, seqs := [], rlog := [], overflowed := [],
          replayed := [], regUsed := [], regSteps := [],
          pc := (u.tiles[x].skipEpi 8192 (e.cmd.arg0, [])).1, loops := (u.tiles[x].skipEpi 8192 (e.cmd.arg0, [])).2 })

/-- R347: a COPY_IN whose stream belongs to the host, whose device range lies in the partition and whose chunks have all been
written starts: a copy is listed for it, and its chunks are asked for, two reads each. Any other completes as INVALID.
R347, R222, R223, R379: a COPY_OUT to a stream of the host that its chunks continue, or, where no copy of the stream runs, begin anew at
chunk 0 with a new epoch, with room below LIMIT and, for a contributor's key, the release of the memory's KEYID to it, starts: a copy is
listed, the stream's dispatched extent moves to its end, and its granules are asked of the tile's seal slice. One whose stream, place
or chunks do not do so completes as INVALID. -/
def Obligations.CopiesStart : Prop :=
  (∀ (p : PartId) (e : InFlight) (s u : State), s.settled (some p) = u → u.nextCopy p 0 (some 0x20) = some e →
      (∀ i st, u.stream p (e.cmd.arg0 % 2 ^ 32) = some (i, st) → st.owner = 0xFF → u.copyPlaceOk p e.cmd = true →
        e.cmd.arg0 / 2 ^ 32 + ceilDiv e.cmd.arg2 4096 ≤ st.hw →
        ∃ t, exec (.copyIn p) s = .next t ∧ t = { u with parts := t.parts, host := { u.host with nextId := t.host.nextId } } ∧ PartsKept u t p ∧
          CommandSide { u.parts[p] with copies := u.parts[p].copies ++ [State.newCopy e.cmd true st.epoch] } t.parts[p] ∧
          t.host.nextId = u.host.nextId + 2 * ceilDiv e.cmd.arg2 4096 ∧
          t.parts[p].dma.reads = u.parts[p].dma.reads ++ ((List.range (ceilDiv e.cmd.arg2 4096)).map fun k =>
            [(⟨u.host.nextId + 2 * k, st.dbase + 4096 * (e.cmd.arg0 / 2 ^ 32 + k), 4096, .copy e.cmd.seq, e.cmd.arg0 / 2 ^ 32 + k, false, none, none⟩ : HostRead),
             ⟨u.host.nextId + 2 * k + 1, st.tbase + 16 * (e.cmd.arg0 / 2 ^ 32 + k), 16, .copy e.cmd.seq, e.cmd.arg0 / 2 ^ 32 + k, true, none, none⟩]).flatten) ∧
      (e.urgent = false → u.inFlight (some p) false e.cmd.seq = some e →
        (∀ i st, u.stream p (e.cmd.arg0 % 2 ^ 32) = some (i, st) →
          ¬(st.owner = 0xFF ∧ u.copyPlaceOk p e.cmd = true ∧ e.cmd.arg0 / 2 ^ 32 + ceilDiv e.cmd.arg2 4096 ≤ st.hw)) →
        ∃ t, exec (.copyIn p) s = .next t ∧ OnlyPart u t p ∧ Ended u t (some p) e stInvalid 2 0)) ∧
  (∀ (p : PartId) (e : InFlight) (s u : State), s.settled (some p) = u → u.nextCopy p 0 (some 0x21) = some e →
      (∀ i st, u.stream p (e.cmd.arg0 % 2 ^ 32) = some (i, st) → st.owner = 0xFF → u.copyPlaceOk p e.cmd = true → st.preset = false →
        st.ended = false → e.cmd.arg0 / 2 ^ 32 + ceilDiv e.cmd.arg2 4096 ≤ st.limit →
        (st.ksrc = 0 ∨ State.releasedTo (u.compact p) (e.cmd.arg1 / 2 ^ 56 - (u.keyRange p).1) (st.ksrc - 1) = true) →
        (e.cmd.arg0 / 2 ^ 32 = st.hwD ∨ (e.cmd.arg0 / 2 ^ 32 = 0 ∧ st.epochD ≠ 0xFFFFFFFF ∧ u.parts[p].copies.any (·.sid == st.sid) = false)) →
        ∃ t k, exec (.copyOut p) s = .next t ∧ t = { u with parts := t.parts, tiles := t.tiles } ∧ PartsKept u t p ∧
          k = State.newCopy e.cmd false (if e.cmd.arg0 / 2 ^ 32 = 0 ∧ 0 < st.hwD then st.epochD + 1 else st.epochD) ∧
          CommandSide { u.parts[p] with copies := u.parts[p].copies ++ [k], streams := t.parts[p].streams } t.parts[p] ∧
          t.parts[p].streams = u.parts[p].streams.map (fun x => if x.2.sid == k.sid then
            (x.1, { x.2 with
              hwD := k.chunkEnd, epochD := k.epoch,
              epoch := if e.cmd.arg0 / 2 ^ 32 = 0 ∧ 0 < st.hwD then k.epoch else x.2.epoch,
              hw := if e.cmd.arg0 / 2 ^ 32 = 0 ∧ 0 < st.hwD then 0 else x.2.hw }) else x) ∧
          TilesKept u t k.tile ∧
          t.tiles[k.tile] = { u.tiles[k.tile] with slice := { u.tiles[k.tile].slice with
            reqs := u.tiles[k.tile].slice.reqs ++ (List.range (e.cmd.arg2 / 512)).map (fun g =>
              (⟨k.ofs / 512 + g, k.keyid, .copy e.cmd.seq, 0, 512, none, [], 512 * g, false, false, (k.ofs / 512 + g, 1)⟩ : SealReq)) } }) ∧
      (e.urgent = false → u.inFlight (some p) false e.cmd.seq = some e →
        (∀ i st, u.stream p (e.cmd.arg0 % 2 ^ 32) = some (i, st) → st.owner ≠ 0xFF ∨ u.copyPlaceOk p e.cmd = false ∨ st.preset = true ∨
          (e.cmd.arg0 / 2 ^ 32 ≠ st.hwD ∧ e.cmd.arg0 / 2 ^ 32 ≠ 0) ∨ st.limit < e.cmd.arg0 / 2 ^ 32 + ceilDiv e.cmd.arg2 4096) →
        ∃ t, exec (.copyOut p) s = .next t ∧ OnlyPart u t p ∧ Ended u t (some p) e stInvalid 2 0))

/-- R345, R346, R414: a BIND of the partition's own SID that lies below the ceiling, or is PRESET, under a key source whose secret the job
holds, takes the lowest free index of the stream table and completes with it; one whose key source is missing completes as REFUSED, one
that finds no index as NORES, one whose SID is out of form as INVALID; one that would reach the ceiling starts and waits.
R345: UNBIND releases the stream-table entry of its SID where no transfer of it is under way, and waits while one is; for a SID that is
not bound it completes as INVALID. -/
def Obligations.BindsTakeAndRelease : Prop :=
  (∀ (p : PartId) (e : InFlight) (j : Job) (s u : State), s.settled (some p) = u →
      u.nextBind p 1 (u.bindReady p) = some e → e.ends = none → e.urgent = false →
      u.inFlight (some p) false e.cmd.seq = some e → u.parts[p].job = some j →
      (u.sidOk p e.cmd j = false → ∃ t, exec (.bind p) s = .next t ∧ OnlyPart u t p ∧ CommandSide u.parts[p] t.parts[p] ∧
        Ended u t (some p) e stInvalid 2 0) ∧
      (u.sidOk p e.cmd j = true → (State.sidNeeds e.cmd j).isSome = true →
        ∃ t, exec (.bind p) s = .next t ∧ OnlyPart u t p ∧ CommandSide u.parts[p] t.parts[p] ∧
          t.inFlight (some p) false e.cmd.seq = some { e with started := some (e.started.getD (u.seqCount (some p))) }) ∧
      (u.sidOk p e.cmd j = true → State.sidNeeds e.cmd j = none →
        (bits e.cmd.arg0 47 40 ≠ 0 → j.imports.any (·.1 + 1 == bits e.cmd.arg0 47 40) = false →
          ∃ t, exec (.bind p) s = .next t ∧ OnlyPart u t p ∧ CommandSide u.parts[p] t.parts[p] ∧ Ended u t (some p) e stRefused 0 0) ∧
        ((bits e.cmd.arg0 47 40 = 0 ∨ j.imports.any (·.1 + 1 == bits e.cmd.arg0 47 40) = true) →
          (u.freeStream p = none → ∃ t, exec (.bind p) s = .next t ∧ OnlyPart u t p ∧ CommandSide u.parts[p] t.parts[p] ∧
            Ended u t (some p) e stNores 0 0) ∧
          ∀ i, u.freeStream p = some i →
            (∀ x ∈ u.parts[p].streams, x.1 ≠ i) ∧ (∀ k < i, ∃ x ∈ u.parts[p].streams, x.1 = k) ∧
            ∃ t, exec (.bind p) s = .next t ∧ OnlyPart u t p ∧ Ended u t (some p) e stOk 0 i ∧
              CommandSide { u.parts[p] with
                job := some { j with sidNext := max j.sidNext (e.cmd.arg0 % 2 ^ 13 + 1) }, streams := t.parts[p].streams } t.parts[p] ∧
              (i, (⟨e.cmd.arg0 % 2 ^ 32, bit e.cmd.arg0 48, bits e.cmd.arg0 39 32, bits e.cmd.arg0 47 40, e.cmd.arg1, e.cmd.arg2, 0,
                if bit e.cmd.arg0 48 then e.cmd.arg3 / 2 ^ 32 else 0, e.cmd.arg3 / 2 ^ 32,
                if bit e.cmd.arg0 48 then e.cmd.arg3 / 2 ^ 32 else 0, 0, false⟩ : Stream)) ∈ t.parts[p].streams ∧
              (∀ x, x.1 ≠ i → (x ∈ t.parts[p].streams ↔ x ∈ u.parts[p].streams))))) ∧
  (∀ (p : PartId) (e : InFlight) (s u : State), s.settled (some p) = u →
      u.nextBind p 2 (u.unbindReady p) = some e → e.ends = none → e.urgent = false →
      u.inFlight (some p) false e.cmd.seq = some e →
      (u.stream p (e.cmd.arg0 % 2 ^ 32) = none → ∃ t, exec (.unbind p) s = .next t ∧ OnlyPart u t p ∧
        CommandSide u.parts[p] t.parts[p] ∧ Ended u t (some p) e stInvalid 2 0) ∧
      ((u.stream p (e.cmd.arg0 % 2 ^ 32)).isSome = true → u.streamBusy p (e.cmd.arg0 % 2 ^ 32) = true →
        ∃ t, exec (.unbind p) s = .next t ∧ OnlyPart u t p ∧ CommandSide u.parts[p] t.parts[p] ∧
          t.inFlight (some p) false e.cmd.seq = some { e with started := some (e.started.getD (u.seqCount (some p))) }) ∧
      ((u.stream p (e.cmd.arg0 % 2 ^ 32)).isSome = true → u.streamBusy p (e.cmd.arg0 % 2 ^ 32) = false →
        ∃ t, exec (.unbind p) s = .next t ∧ OnlyPart u t p ∧ Ended u t (some p) e stOk 0 0 ∧
          CommandSide { u.parts[p] with streams := u.parts[p].streams.filter (fun x => x.2.sid != e.cmd.arg0 % 2 ^ 32) } t.parts[p]))

/-- R414: where a started BIND waits for the ceiling, SID_CEILING_RAISE has the leader take the next ceiling for its own, the least multiple
of 1,024 above the SID's number, or asks the leader for it in one Jewel message; asked for that ceiling already, nothing is sent
again. -/
def Obligations.SidCeilingAsked : Prop :=
  ∀ (p : PartId) (e : InFlight) (j : Job) (n : Nat) (s : State),
    s.nextBind p 1 (fun e => !s.bindReady p e) = some e → s.parts[p].job = some j → State.sidNeeds e.cmd j = some n →
    n % 1024 = 0 ∧ e.cmd.arg0 % 2 ^ 13 < n ∧ n ≤ e.cmd.arg0 % 2 ^ 13 + 1024 ∧
    (s.isLeader p = true → exec (.sidCeilingRaise p) s = .next (s.modPart p fun x => { x with job := some { j with sidCeil := n } })) ∧
    (s.isLeader p = false → j.sidAsked ≠ some n → ∃ t, exec (.sidCeilingRaise p) s = .next t ∧
      t = { s with parts := t.parts, ports := t.ports } ∧ PartsKept s t p ∧
      t.parts[p] = { s.parts[p] with job := some { j with sidAsked := some n } } ∧
      (∀ q, routePort s.me (Compact.leader j.compact) = some q → PortsKept s t q ∧
        ∃ fs, t.ports[q] = { s.ports[q] with txq := s.ports[q].txq ++ fs } ∧
          (fs.map (·.payload)) = payloadsOf (Config.vc2Bytes (.sidRaise n)) ∧
          ∀ x ∈ fs, x.vc = 2 ∧ x.hop = true ∧ x.dst = Compact.leader j.compact ∧ x.part = p.val)) ∧
    (s.isLeader p = false → j.sidAsked = some n → exec (.sidCeilingRaise p) s = .next s)
/-! ## The carding engine (10) -/

/-- R285, R286, R303, R308, R412: a REDUCE whose turn it is ends INVALID where its key and masks break R286, and NORES where the
partition's share of the bucket table is full. Else it starts and its entry is installed: with its own key where no held result has that
key, a SEED with the matrix it draws; with the held result's deliveries where one has. Nothing but its partition and the ring ports
changes where it has no held result to read. -/
def Obligations.ReduceInstallsEntry : Prop :=
  ∀ (p : PartId) (e : InFlight) (b : Bucket) (s u : State), s.settled (some p) = u → u.startable (some p) .reduce = some e →
    b = u.newBucket p e.cmd →
    (e.urgent = false → u.inFlight (some p) false e.cmd.seq = some e →
      (u.bucketOk p b (bits e.cmd.arg1 55 48) = false →
        ∃ t, exec (.reduce p) s = .next t ∧ OnlyPart u t p ∧ CommandSide u.parts[p] t.parts[p] ∧ Ended u t (some p) e stInvalid 2 0) ∧
      (u.bucketOk p b (bits e.cmd.arg1 55 48) = true → 4096 / max 1 u.npart ≤ u.parts[p].card.table.length →
        ∃ t, exec (.reduce p) s = .next t ∧ OnlyPart u t p ∧ CommandSide u.parts[p] t.parts[p] ∧ Ended u t (some p) e stNores 2 0)) ∧
    (u.bucketOk p b (bits e.cmd.arg1 55 48) = true → u.parts[p].card.table.length < 4096 / max 1 u.npart →
      (u.parts[p].fuller.heldRes.find? (fun h => h.tag == b.tag && h.step == b.step && h.bkind == b.bkind) = none →
        ∃ t, exec (.reduce p) s = .next t ∧ PartAndPorts u t p ∧
          t = (u.start (some p) false e.cmd.seq).installBucket p
            (if b.bkind = 2 then { b with result := [State.seedPiece b ((Compact.dropkey (u.compact p)).getD [])] } else b) ∧
          (e.cmd.arg3 < 2 ^ 64 → ∃ b' ∈ t.parts[p].card.table, b'.key = b.key ∧ b'.bkind = b.bkind ∧ b'.seq = e.cmd.seq ∧ b'.held = none)) ∧
      (∀ h, u.parts[p].fuller.heldRes.find? (fun h => h.tag == b.tag && h.step == b.step && h.bkind == b.bkind) = some h →
        ∃ t r, exec (.reduce p) s = .next t ∧ r = (u.start (some p) false e.cmd.seq).readHeld p h e.cmd.seq ∧
          t = (r.1.modFuller p fun f => { f with heldRes := f.heldRes.erase h }).installBucket p { b with held := some r.2, dims := 0, expc := 0 }))

/-- R289, R310: a tile's oldest SEND to the carding engine is taken by the entry that names the tile: the SEND completes, what it holds
joins the tile's contribution, and the entry goes on; of the tiles it alone changes. A SEND that breaks the contribution's rules
completes too: the entry fails and leaves the table, and the tile stops at the SEND's slot. -/
def Obligations.ContributionJoinsEntry : Prop :=
  ∀ (x : TileId) (p : PartId) (o : Op) (b : Bucket) (s : State),
    s.partOf x = some p → s.meshHead x 4 0x40 = some o → s.sendEntry p x.val = some b →
    (∀ r, s.contribute x b (MeshDesc.parse o.desc) = some r →
      ∃ t, exec (.cardingContribution x) s = .next t ∧
        t = State.progress { (s.modTile x fun y => y.dropOp o.id) with free := r.2.free } p r.1 ∧
        t = { s with parts := t.parts, ports := t.ports, tiles := t.tiles, free := r.2.free } ∧ PartsKept s t p ∧ TilesKept s t x ∧
        t.tiles[x] = { s.tiles[x] with ops := s.tiles[x].ops.filter (·.id != o.id) } ∧
        (∃ c, c.tile = x.val ∧ r.1 = State.putContribution b c)) ∧
    (s.contribute x b (MeshDesc.parse o.desc) = none →
      ∃ t, exec (.cardingContribution x) s = .next t ∧ t = ((s.modTile x fun y => y.dropOp o.id).failBucket p b).stopTile p x o.slot ∧
        t = { s with parts := t.parts, tiles := t.tiles } ∧ PartsKept s t p ∧ t.tiles[x].stopped = some o.slot ∧
        ∀ y ∈ t.parts[p].card.table, y.tag ≠ b.tag)

/-- R294: a PARTIAL that fits its entry is added, element by element in the stage's format at the greater of the two SCALEs, to
this member's own values. The sum goes to the next member of the line, or from the last one to the slice's owner as FINAL, or
is kept where this member is both; the entry goes on. -/
def Obligations.PartialAddedAndPassed : Prop :=
  ∀ (p : PartId) (b b' : Bucket) (m : Msg) (i sl a n d : Nat) (v : Int × List Elem) (es : List Elem) (s w : State),
    s.nextMsg p (fun k => k == 1 || k == 0 || decide (6 < k)) = some (b, m) → m.headLost = false → w = tookMsg s p b m →
    judgeMsg b s.me m = some (.partialSum i sl a n) → takeRange (b.stages.getD i []) a n = some v → d = b.stageDims.getD i 0 →
    es = List.zipWith (foldElem b.wire m.scale v.1) m.piece.elems v.2 → b' = State.countSlice b i sl a n →
    ∃ t, exec (.partialMsg p) s = .next t ∧ PartAndPorts s t p ∧
      (uncorrectable b.errs = [] → t.parts[p].card.msgs = s.parts[p].card.msgs.erase m) ∧
      (b.posIn d + 1 < b.nmem d →
        t = (w.inject p 0 false (b.coordAt s.me d (b.posIn d + 1)) b.seq (b'.elemMessage 1 d sl a (max m.scale v.1) es)).progress p b') ∧
      (b.nmem d ≤ b.posIn d + 1 → sl ≠ b.posIn d →
        t = (w.inject p 0 false (b.coordAt s.me d sl) b.seq (b'.elemMessage 2 d sl a (max m.scale v.1) es)).progress p b') ∧
      (b.nmem d ≤ b.posIn d + 1 → sl = b.posIn d → t = w.progress p (b'.putStage (i + 1) ⟨a, max m.scale v.1, es⟩))

/-- R295, R310: a FINAL message puts its values into the next stage; a GATHER puts them into the result and passes them on along the
line, to the end of it; a MOVE appends its bytes, a poisoned one as zero with POIS. Each leaves the store and its entry goes on. -/
def Obligations.ValueMessagesTaken : Prop :=
  ∀ (p : PartId) (b : Bucket) (m : Msg) (s w : State), m.headLost = false → w = tookMsg s p b m →
    (∀ i a n, s.nextMsg p (· == 2) = some (b, m) → judgeMsg b s.me m = some (.finalSum i a n) →
      ∃ t, exec (.finalMsg p) s = .next t ∧ t = w.progress p (b.putStage (i + 1) m.piece) ∧ PartAndPorts s t p ∧
        (uncorrectable b.errs = [] → t.parts[p].card.msgs = s.parts[p].card.msgs.erase m)) ∧
    (∀ d f a n, s.nextMsg p (· == 3) = some (b, m) → judgeMsg b s.me m = some (.gather d f a n) →
      ∃ t, exec (.gather p) s = .next t ∧ PartAndPorts s t p ∧
        (uncorrectable b.errs = [] → t.parts[p].card.msgs = s.parts[p].card.msgs.erase m) ∧
        (f < b.posIn d → b.posIn d + 1 < b.nmem d →
          t = (w.inject p 0 false (b.coordAt s.me d (b.posIn d + 1)) b.seq (b.elemMessage 3 d m.slice m.first m.scale m.piece.elems)).progress p
            { b with result := addPiece b.result m.piece }) ∧
        (b.posIn d < f → 0 < b.posIn d →
          t = (w.inject p 0 false (b.coordAt s.me d (b.posIn d - 1)) b.seq (b.elemMessage 3 d m.slice m.first m.scale m.piece.elems)).progress p
            { b with result := addPiece b.result m.piece }) ∧
        ((f < b.posIn d ∧ b.nmem d ≤ b.posIn d + 1) ∨ (b.posIn d < f ∧ b.posIn d = 0) →
          t = w.progress p { b with result := addPiece b.result m.piece })) ∧
    (s.nextMsg p (· == 6) = some (b, m) → judgeMsg b s.me m = some .move →
      ∃ t b', exec (.moveMsg p) s = .next t ∧ t = w.progress p b' ∧ PartAndPorts s t p ∧
        (uncorrectable b.errs = [] → t.parts[p].card.msgs = s.parts[p].card.msgs.erase m) ∧
        b' = { b with moved := b'.moved, movedFl := b'.movedFl } ∧
        b'.moved.length = b.moved.length + m.count ∧ b'.moved.take b.moved.length = b.moved ∧
        (∀ j, j < m.count → b'.moved.getD (b.moved.length + j) 0 = if m.lost (32 + j) then 0 else m.data.getD (32 + j) 0) ∧
        b'.movedFl = (b.movedFl ||| m.mflags ||| if m.bad = [] ∧ uncorrectable m.errs = [] then 0 else flPois))

/-- R301, R310: a MKUP or MKDN marker is counted for its dimension and leaves the store, a MKDN going on down the line of a SUM; the
entry goes on. R298: a message of any type that does not match its entry fails it. R281, R306 (log 49): one whose header has an
uncorrectable word leaves the store and does nothing else. -/
def Obligations.MarkersCounted : Prop :=
  ∀ (p : PartId) (b : Bucket) (m : Msg) (s w : State), w = tookMsg s p b m →
    (∀ d, s.nextMsg p (· == 4) = some (b, m) → m.headLost = false → judgeMsg b s.me m = some (.mkup d) →
      ∃ t, exec (.mkup p) s = .next t ∧ t = w.progress p { b with mkup := b.mkup ++ [d] } ∧ PartAndPorts s t p ∧
        (uncorrectable b.errs = [] → t.parts[p].card.msgs = s.parts[p].card.msgs.erase m)) ∧
    (∀ d, s.nextMsg p (· == 5) = some (b, m) → m.headLost = false → judgeMsg b s.me m = some (.mkdn d) →
      ∃ t, exec (.mkdn p) s = .next t ∧ PartAndPorts s t p ∧
        (uncorrectable b.errs = [] → t.parts[p].card.msgs = s.parts[p].card.msgs.erase m) ∧
        (b.bkind = 1 → 0 < b.posIn d → t = (w.inject p 0 false (b.coordAt s.me d (b.posIn d - 1)) b.seq (b.marker 5 d)).progress p
          { b with mkdn := b.mkdn ++ [d] }) ∧
        (¬(b.bkind = 1 ∧ 0 < b.posIn d) → t = w.progress p { b with mkdn := b.mkdn ++ [d] })) ∧
    (∀ (c : Instr) (f : Nat → Bool),
      (c, f) ∈ [(Instr.partialMsg p, fun k => k == 1 || k == 0 || decide (6 < k)), (Instr.finalMsg p, (· == 2)), (Instr.gather p, (· == 3)),
        (Instr.mkup p, (· == 4)), (Instr.mkdn p, (· == 5)), (Instr.moveMsg p, (· == 6))] → s.nextMsg p f = some (b, m) →
      (m.headLost = true → ∃ t, exec c s = .next t ∧ t = w ∧ OnlyPart s t p ∧ t.parts[p].card.msgs = s.parts[p].card.msgs.erase m) ∧
      (m.headLost = false → judgeMsg b s.me m = none →
        ∃ t, exec c s = .next t ∧ t = w.failBucket p b ∧ OnlyPart s t p ∧ ∀ x ∈ t.parts[p].card.table, x.tag ≠ b.tag))

/-- R299: BUCKET_DELIVERY, where one receiving tile of the partition holds one posted operation, a RECV that asks for whole panels:
they are written at its place in the scratchpad (or their lines read as poisoned), the RECV completes, what has been given is counted,
with the last panel the tile is done, and the entry goes on. (An entry captured by a checkpoint is left out where that panel is the last:
R395.) A RECV that would cut a panel is taken too, but its tile stops at its slot and nothing is written. -/
def Obligations.DeliveryFillsRecv : Prop :=
  ∀ (p : PartId) (tag : BitVec 16) (x : TileId) (b : Bucket) (o : Op) (m : MeshDesc) (g : Nat) (dl : List Bytes × Bool) (s : State),
    s.bucket p tag.toNat = some b → s.recvEntry p x.val = some b → (s.tilesOf p).filter (fun t => bit b.rmask t.val) = [x] →
    s.tiles[x].ops = [o] → s.meshHead x 5 0x40 = some o → b.cut.contains x.val = false → b.delivery x.val = some dl →
    m = MeshDesc.parse o.desc → 0 < m.len → g = ((b.given.find? (·.1 == x.val)).map (·.2)).getD 0 →
    (g + m.len ∈ dl.1.foldl (fun (acc : List Nat) y => acc ++ [acc.getLastD 0 + y.length]) [0] →
      (g + m.len = dl.1.flatten.length → b.captured = false) →
      ∃ t b', exec (.bucketDelivery p tag) s = .next t ∧
        b' = { b with
          given := (x.val, g + m.len) :: b.given.filter (·.1 != x.val)
          gone := if g + m.len = dl.1.flatten.length then b.gone ++ [x.val] else b.gone } ∧
        t = State.progress ((s.modTile x fun y =>
          (if dl.2 then y.spPoison m.addr m.len else y.spWrite m.addr (sub dl.1.flatten g m.len)).dropOp o.id).setBucket p b') p b' ∧
        t = { s with parts := t.parts, ports := t.ports, tiles := t.tiles } ∧ PartsKept s t p ∧ TilesKept s t x ∧
        t.tiles[x] = (if dl.2 then s.tiles[x].spPoison m.addr m.len else s.tiles[x].spWrite m.addr (sub dl.1.flatten g m.len)).dropOp o.id) ∧
    (g + m.len ∉ dl.1.foldl (fun (acc : List Nat) y => acc ++ [acc.getLastD 0 + y.length]) [0] →
      ∃ t b', exec (.bucketDelivery p tag) s = .next t ∧ b' = { b with cut := b.cut ++ [x.val] } ∧
        t = State.progress (((s.setBucket p b').modTile x fun y => y.dropOp o.id).stopTile p x o.slot) p b' ∧
        t.tiles[x].stopped = some o.slot ∧ t.tiles[x].sp = s.tiles[x].sp ∧ t.tiles[x].ops = [])
/-! ## Tile programs (02, 05) -/

/-- R59-R62, R66, R70, R72, R152: a PASS, DMA, VEC, SEND or RECV at the program counter of a tile that may dispatch, which breaks
none of its rules, conflicts with no uncompleted descriptor and finds a place in its engine's queue, joins the tile's
uncompleted operations as the last, and the program counter goes on past it. Nothing but the tile changes, for a DMA also its
partition's requests. (No word of the tile's memories is in error.) -/
def Obligations.DescriptorDispatched : Prop :=
  ∀ (x : TileId) (p : PartId) (c : Instr) (k : Nat) (d : Bytes) (o : Op) (s : State),
    (c, k) ∈ [(Instr.pass x, 1), (Instr.dma x, 2), (Instr.vec x, 3), (Instr.send x, 4), (Instr.recv x, 5)] →
    s.partOf x = some p → s.canDispatch p x = true → s.tiles[x].pc < 4096 →
    s.tiles[x].imErr = [] → s.tiles[x].spErr = [] → s.tiles[x].rgErr = [] → d = s.tiles[x].descAt s.tiles[x].pc → kindOf d = k →
    staticOk (s.dispCtx p x) s.tiles[x] d = true → onLastExec d s.tiles[x].loops = some true →
    judge (s.dispCtx p x) s.tiles[x] d = .ok o →
    ∃ t, exec c s = .next t ∧ t = { s with parts := t.parts, tiles := t.tiles, host := { s.host with nextId := t.host.nextId } } ∧
      PartsKept s t p ∧ TilesKept s t x ∧ t.tiles[x].ops = s.tiles[x].ops ++ [o] ∧ t.tiles[x].nextOp = s.tiles[x].nextOp + 1 ∧
      t.tiles[x].pc = s.tiles[x].advance.pc ∧ t.tiles[x].loops = s.tiles[x].advance.loops ∧ t.tiles[x].stepReq = false ∧
      (o.engine ≠ .dma → OnlyTile s t x) ∧
      (o.engine = .mesh → t.tiles[x] = Tile.advance { s.tiles[x] with
        ops := s.tiles[x].ops ++ [o]
        nextOp := s.tiles[x].nextOp + 1
        mark := s.tiles[x].mark.filter fun m => s.tiles[x].ops.any fun q => decide (q.id ≤ m.1) })

/-- R60, R64, R65, R67, R69: at the program counter of a tile that may dispatch, a LOOP that keeps its rules begins its body and an END
ends the program; either changes its tile alone. A descriptor that breaks a static rule, a program that runs past slot 4095 and a
slot with an uncorrectable error stop the tile at that slot; one whose ONLAST does not hold is passed over; one that conflicts or finds
its queue full waits; one invalid otherwise stops the tile, and ends its stream where it is the write R222 refuses. -/
def Obligations.SequencerFollowsProgram : Prop :=
  ∀ (x : TileId) (p : PartId) (c : Instr) (k : Nat) (d : Bytes) (s : State),
    (c, k) ∈ [(Instr.pass x, 1), (Instr.dma x, 2), (Instr.vec x, 3), (Instr.send x, 4), (Instr.recv x, 5), (Instr.loop x, 6), (Instr.endProgram x, 15)] →
    s.partOf x = some p → s.canDispatch p x = true → d = s.tiles[x].descAt s.tiles[x].pc →
    (4096 ≤ s.tiles[x].pc → ∃ t, exec c s = .next t ∧ t = s.stopTile p x 4095 ∧ t.tiles[x].stopped = some 4095) ∧
    (s.tiles[x].pc < 4096 → s.tiles[x].imBad s.tiles[x].pc = true →
      ∃ t, exec c s = .next t ∧ t = s.stopTile p x s.tiles[x].pc ∧ t.tiles[x].stopped = some s.tiles[x].pc) ∧
    (s.tiles[x].pc < 4096 → s.tiles[x].imErr = [] → kindOf d = k →
      (staticOk (s.dispCtx p x) s.tiles[x] d = false →
        ∃ t, exec c s = .next t ∧ t = s.stopTile p x s.tiles[x].pc ∧ t.tiles[x].stopped = some s.tiles[x].pc) ∧
      (staticOk (s.dispCtx p x) s.tiles[x] d = true →
        (onLastExec d s.tiles[x].loops = some false → ∃ t, exec c s = .next t ∧ OnlyTile s t x ∧ t.tiles[x] = s.tiles[x].advance) ∧
        (onLastExec d s.tiles[x].loops = some true →
          (k = 6 → ∃ t, exec c s = .next t ∧ OnlyTile s t x ∧ t.tiles[x] = State.beginLoop s.tiles[x] d) ∧
          (k = 15 → ∃ t, exec c s = .next t ∧ OnlyTile s t x ∧ t.tiles[x] = { s.tiles[x] with atEnd := true, stepReq := false }) ∧
          (k < 6 → judge (s.dispCtx p x) s.tiles[x] d = .wait → exec c s = .next s) ∧
          (k < 6 → judge (s.dispCtx p x) s.tiles[x] d = .invalid →
            ∃ t, exec c s = .next t ∧ t = (s.endStream p x d).stopTile p x s.tiles[x].pc ∧ t.tiles[x].stopped = some s.tiles[x].pc))))

/-- R44-R46, R117, R121, R135: PASS_COMPLETE completes the array's oldest pass: its weights stay in the cells; it leaves the queue unless
its epilogue is still to come, which then awaits the vector unit; an accumulator overflow marks its sequence and writes nothing.
REPLAY, with no operation uncompleted, replays the first marked sequence, which is marked no longer, and changes nothing but the tile
where no load is logged. EPILOGUE and VEC_COMPLETE take the first of the vector unit's work: the epilogue of a completed LAST pass ends that pass, that of a
VEC is computed and awaits VEC_COMPLETE, a VEC without one is computed and ends. -/
def Obligations.EnginesComplete : Prop :=
  ∀ (x : TileId) (s : State),
    (∀ o r, s.tiles[x].nextPass = some o →
      r = s.tiles[x].passOut o ((PassDesc.parse o.desc).acc == 1 && !s.tiles[x].replayed.contains (PassDesc.parse o.desc).psum) (s.tiles[x].loaded o) →
      ∃ t, exec (.passComplete x) s = .next t ∧ OnlyTile s t x ∧ t.tiles[x] = s.tiles[x].completePass o ∧ t.tiles[x].kept = some r.w ∧
        (o.epi = none → ∀ q ∈ t.tiles[x].ops, q.id ≠ o.id) ∧
        (o.epi.isSome = true → (PassDesc.parse o.desc).psum ∉ t.tiles[x].overflowed → ∀ q ∈ t.tiles[x].ops, q.id = o.id → q.half = true) ∧
        (r.ovf = true → (PassDesc.parse o.desc).psum ∈ t.tiles[x].overflowed ∧ t.tiles[x].sp = s.tiles[x].sp)) ∧
    (∀ psum rest, s.tiles[x].ops = [] → s.tiles[x].overflowed = psum :: rest →
      ∃ t, exec (.accumReplay x) s = .next t ∧ t = s.replay x psum ∧ psum ∉ t.tiles[x].overflowed ∧
        ((∀ o ∈ s.tiles[x].rlog, o.engine ≠ .dma) → OnlyTile s t x)) ∧
    (∀ o os, s.tiles[x].vectorWork = o :: os →
      (∀ eb, o.epi = some eb → o.engine = .array → o.half = true →
        ∃ t, exec (.epilogue x) s = .next t ∧ OnlyTile s t x ∧ t.tiles[x] = s.tiles[x].finishPass o eb (s.dropKey x) ∧
          ∀ q ∈ t.tiles[x].ops, q.id ≠ o.id) ∧
      (∀ eb, o.epi = some eb → o.engine = .vector → o.half = false →
        ∃ t, exec (.epilogue x) s = .next t ∧ OnlyTile s t x ∧
          t.tiles[x] = (s.tiles[x].runVec o (s.dropKey x)).modOp o.id fun q => { q with half := true }) ∧
      (o.engine = .vector → o.half = true →
        ∃ t, exec (.vecComplete x) s = .next t ∧ OnlyTile s t x ∧ t.tiles[x] = s.tiles[x].dropOp o.id) ∧
      (o.engine = .vector → o.half = false → o.epi = none →
        ∃ t, exec (.vecComplete x) s = .next t ∧ OnlyTile s t x ∧ t.tiles[x] = (s.tiles[x].runVec o (s.dropKey x)).dropOp o.id))

/-- R73, R189: DMA_COMPLETE, for a DMA none of whose requests is outstanding, takes it from the tile's operations, and so releases its
reservations; but for a compressed read, whose record is expanded then (R234), nothing else changes. MESH_TRANSFER_DONE completes the
first SEND of a tile to another and the RECV it meets together: equal LENs move the bytes, line by line with their poison; different
ones are invalid, and both tiles stop. -/
def Obligations.TransfersComplete : Prop :=
  (∀ (x : TileId) (p : PartId) (i : Nat) (o : Op) (s : State),
    (s.tiles[x].ops.filter (·.engine == .dma))[i]? = some o → s.partOf x = some p → s.dmaIdle p x o.id = true →
      ∃ t, exec (.dmaComplete x i) s = .next t ∧ t = s.endDma x o ∧ t.tiles[x].ops = s.tiles[x].ops.filter (·.id != o.id) ∧
        (((DmaDesc.parse o.desc).comp && !(DmaDesc.parse o.desc).out) = false →
          OnlyTile s t x ∧ t.tiles[x] = { s.tiles[x] with ops := s.tiles[x].ops.filter (·.id != o.id) })) ∧
  (∀ (x y : TileId) (p : PartId) (a b : Op) (m n : MeshDesc) (s : State),
    s.meshHead x 4 y.val = some a → s.meshHead y 5 x.val = some b → s.partOf x = some p → m = MeshDesc.parse a.desc →
    n = MeshDesc.parse b.desc →
      (m.len ≠ n.len → x ≠ y →
        ∃ t, exec (.meshTransferDone x y) s = .next t ∧
          t = (((s.modTile x fun z => z.dropOp a.id).modTile y fun z => z.dropOp b.id).stopTile p x a.slot).stopTile p y b.slot ∧
          t.tiles[x].stopped = some a.slot ∧ t.tiles[y].stopped = some b.slot ∧ t.tiles[x].sp = s.tiles[x].sp ∧ t.tiles[y].sp = s.tiles[y].sp) ∧
      (m.len = n.len → x ≠ y →
        ∃ t, exec (.meshTransferDone x y) s = .next t ∧ t = { s with tiles := t.tiles } ∧
          (∀ z : TileId, z ≠ x → z ≠ y → t.tiles[z] = s.tiles[z]) ∧
          t.tiles[x] = { s.tiles[x] with ops := s.tiles[x].ops.filter (·.id != a.id) } ∧
          t.tiles[y].ops = s.tiles[y].ops.filter (·.id != b.id) ∧
          ((∀ l ∈ linesOf m.addr m.len, l ∉ s.tiles[x].poison) →
            t.tiles[y] = (s.tiles[y].spWrite n.addr (s.tiles[x].sp.read m.addr m.len)).dropOp b.id)))

/-- R65, R343: TILE_COMPLETE: a running tile at END, or one whose RUN stops, reports once every engine has drained and nothing is left to
replay; with tiles still to report, only the report changes, and the last report ends the RUN. R393, R394: TILE_MARK: a tile
that has reached a mark which acts holds dispatch and notes the mark; with tiles of its partition that have not, nothing more happens,
and the last tile's mark brings the freeze. -/
def Obligations.TilesReportAndMark : Prop :=
  ∀ (x : TileId) (p : PartId) (s : State), s.partOf x = some p →
    (s.tiles[x].running = true → s.tiles[x].reported = false → s.tiles[x].ops = [] → s.tiles[x].overflowed = [] →
      (s.tiles[x].atEnd = true ∨ s.parts[p].runStop.isSome = true) →
      ((∃ y, y ∈ s.tilesOf p ∧ y ≠ x ∧ s.tiles[y].reported = false) →
        ∃ t, exec (.tileComplete x) s = .next t ∧ OnlyTile s t x ∧ t.tiles[x] = { s.tiles[x] with reported := true }) ∧
      (∀ q, s.parts[p].run = some q → s.parts[p].runEnd = none → (∀ y, y ∈ s.tilesOf p → y ≠ x → s.tiles[y].reported = true) →
        ∃ t, exec (.tileComplete x) s = .next t ∧ t = (s.modTile x fun y => { y with reported := true }).finishRun p q)) ∧
    (∀ m u, s.reachedMark p x = some m → s.tiles[x].marked = false →
      u = (s.modTile x fun y => { y with marked := true, mark := y.mark.filter fun k => decide (m.1 < k.1) }).modFuller p
        (fun f => { f with marks := f.marks ++ [(x, m.2.1, m.2.2)] }) →
      ∃ t, exec (.tileMark x) s = .next t ∧ t = u.tryFreeze p ∧
        ((∃ y, y ∈ s.tilesOf p ∧ y ≠ x ∧ s.tiles[y].marked = false) → t = u ∧ PartsKept s t p ∧ TilesKept s t x ∧ t.tiles[x].marked = true))
/-! ## Seal slices and channels (06, 07) -/

/-- R188, R190, R208, R210, R212, R215: SEAL_GRANULE_READ of request i waits while an earlier request ordered with it conflicts, while
its metadata or the header of its record is missing, and, for a checkpoint's copy, out of its turn. Else the read is performed:
the request leaves the list and its owner is given what was read: zeros for a granule never written, a poisoned granule where the slice
refuses the access or a poisoning of the granule is held; in these three cases no line of memory changes. -/
def Obligations.GranuleReadServed : Prop :=
  ∀ (x : TileId) (i : Nat) (r : SealReq) (lines : List LineIn) (s : State),
    s.tiles[x].slice.reqs[i]? = some r → r.data = none →
    ((State.mustWait s.tiles[x].slice i r = true ∨ s.ready x r.gran false = false ∨ s.recordHeld x r = true ∨ s.copyTurn x i r = false) →
      exec (.sealGranuleRead x i lines) s = .next s) ∧
    (State.mustWait s.tiles[x].slice i r = false → s.ready x r.gran false = true → s.recordHeld x r = false → s.copyTurn x i r = true →
      ∃ t, exec (.sealGranuleRead x i lines) s = .next t ∧ t = s.doRead x i r lines ∧
        (State.poisonHeld s.tiles[x].slice r.gran = true → t = (s.dropReq x i).served x r poisonedOut) ∧
        (State.poisonHeld s.tiles[x].slice r.gran = false →
          (s.refused x r.gran = true →
            ∃ u, t = u.served x r poisonedOut ∧ OnlyTile s u x ∧
              u.tiles[x].chans = s.tiles[x].chans ∧ u.tiles[x].slice.reqs = s.tiles[x].slice.reqs.eraseIdx i) ∧
          (s.refused x r.gran = false → s.neverWritten x r.gran = true →
            ∃ u, t = u.served x r ⟨zeros 512, []⟩ ∧ OnlyTile s u x ∧
              u.tiles[x].chans = s.tiles[x].chans ∧ u.tiles[x].slice.reqs = s.tiles[x].slice.reqs.eraseIdx i)))

/-- R201, R205, R206, R215, R400: SEAL_GRANULE_WRITE of request i: one to a granule that a checkpoint has still to copy is held; a held
one, one behind a conflicting request and one without its metadata wait; any other is performed (State.doWrite), and in a slice
that refuses the access a descriptor's is discarded: it leaves the list and no line of memory changes. HELD_GRANULE_WRITE lets the first
held one go whose granule has been copied. -/
def Obligations.GranuleWritePerformed : Prop :=
  ∀ (x : TileId) (s : State),
    (∀ (i : Nat) (r : SealReq) (d : Bytes) (lines : List LineIn), s.tiles[x].slice.reqs[i]? = some r → r.data = some d →
      (State.uncopied s.tiles[x].slice r.gran = true →
        ∃ t, exec (.sealGranuleWrite x i lines) s = .next t ∧ OnlyTile s t x ∧
          t.tiles[x] = { s.tiles[x] with slice := { s.tiles[x].slice with reqs := s.tiles[x].slice.reqs.modify i fun q => { q with held := true } } }) ∧
      (State.uncopied s.tiles[x].slice r.gran = false →
        (r.held = true ∨ State.mustWait s.tiles[x].slice i r = true ∨ s.ready x r.gran true = false → exec (.sealGranuleWrite x i lines) s = .next s) ∧
        (r.held = false → State.mustWait s.tiles[x].slice i r = false → s.ready x r.gran true = true →
          ∃ t, exec (.sealGranuleWrite x i lines) s = .next t ∧ t = s.doWrite x i r d lines ∧
            (∀ y id, r.owner = .tileDma y id → s.refused x r.gran = true → s.tiles[x].slice.skips = [] →
              OnlyTile s t x ∧ t.tiles[x].chans = s.tiles[x].chans ∧
              t.tiles[x].slice = { s.tiles[x].slice with reqs := s.tiles[x].slice.reqs.eraseIdx i, who := none })))) ∧
    (∀ i, s.tiles[x].slice.reqs.findIdx? (fun r => r.held && !State.uncopied s.tiles[x].slice r.gran) = some i →
      ∃ t, exec (.heldGranuleWrite x) s = .next t ∧ OnlyTile s t x ∧
        t.tiles[x] = { s.tiles[x] with slice := { s.tiles[x].slice with reqs := s.tiles[x].slice.reqs.modify i fun q => { q with held := false } } })

/-- R199, R200: COUNTER_MISS_FILL of a request whose metadata is not at hand, and that lies no further ahead than R199 allows, fetches
and verifies the lines it misses on its command's account, and in development mode counts a miss; for any other it does nothing.
R202: ROOT_UPDATE writes the counter of the slice's oldest request to its entry of the root store with fresh check bits, and
acknowledges it: nothing else changes. -/
def Obligations.MetadataFilledRootWritten : Prop :=
  ∀ (x : TileId) (s : State),
    (∀ (i : Nat) (r : SealReq) (lines mirrors : List LineIn), s.tiles[x].slice.reqs[i]? = some r →
      (s.ready x r.gran r.data.isSome = true ∨ State.ahead s.tiles[x].slice r = false → exec (.counterMissFill x i lines mirrors) s = .next s) ∧
      (s.ready x r.gran r.data.isSome = false → State.ahead s.tiles[x].slice r = true →
        ∃ t u, exec (.counterMissFill x i lines mirrors) s = .next t ∧
          u = s.asCmd x (s.ownerCmd x r.owner) (fun s => s.fillMiss x r.gran r.keyid r.data.isSome lines mirrors) ∧ OnlyTile u t x ∧
          t.tiles[x] = { u.tiles[x] with ccmiss := u.tiles[x].ccmiss + u.dev.toNat })) ∧
    (∀ q rest, s.tiles[x].slice.rootReqs = q :: rest →
      ∃ t, exec (.rootUpdate x) s = .next t ∧ t = { s with tiles := t.tiles, jewel := { s.jewel with roots := t.jewel.roots } } ∧
        TilesKept s t x ∧ t.tiles[x] = { s.tiles[x] with slice := { s.tiles[x].slice with rootReqs := rest } } ∧
        t.jewel.roots[State.rootIdx x q.1] = ⟨q.2, 0⟩ ∧ ∀ j, j ≠ State.rootIdx x q.1 → t.jewel.roots[j] = s.jewel.roots[j])

/-- R175, R178, R180: on a trained channel out of self-refresh, of a partition that is not in FAILED, REFRESH counts the next refresh
command, and PATROL_READ, on an initialised one with no partition reset under way, reads its next line and moves on by one, past the
last line to the first: a clean line changes nothing else, a corrected one is written back. On any other channel neither does anything
(R460). -/
def Obligations.PatrolAndRefresh : Prop :=
  ∀ (x : TileId) (k : ChanId) (s : State),
    (s.tiles[x].chans[k].trained = false ∨ s.tiles[x].chans[k].selfRefresh = true ∨ s.tended x = false →
      exec (.refresh x k) s = .next s ∧ ∀ l, exec (.patrolRead x k l) s = .next s) ∧
    (s.tiles[x].chans[k].init = false ∨ s.patrols x = false → ∀ l, exec (.patrolRead x k l) s = .next s) ∧
    (s.tiles[x].chans[k].trained = true → s.tiles[x].chans[k].selfRefresh = false → s.tended x = true →
      (∃ t, exec (.refresh x k) s = .next t ∧ OnlyTile s t x ∧
        (∀ j : ChanId, j ≠ k → t.tiles[x].chans[j] = s.tiles[x].chans[j]) ∧
        t.tiles[x].chans[k] = { s.tiles[x].chans[k] with refreshes := s.tiles[x].chans[k].refreshes + 1 }) ∧
      (s.tiles[x].chans[k].init = true → s.patrols x = true →
        ∀ (l : LineIn) (n : Nat), n = s.tiles[x].chans[k].patrol →
          ∃ t, exec (.patrolRead x k l) s = .next t ∧ t.tiles[x].chans[k].patrol = (if n + 1 = channelLines then 0 else n + 1) ∧
            ∀ (errs : List (Nat × BitVec 8)) (d : LineOut × List Nat × List Nat), l = .data errs →
              d = decodeLine (flipSyms (s.tiles[x].chans[k].stored n) errs) none → n + 1 < channelLines →
              (d.1.outcome = .clean → d.2.2 = [] →
                OnlyTile s t x ∧ (∀ j : ChanId, j ≠ k → t.tiles[x].chans[j] = s.tiles[x].chans[j]) ∧
                t.tiles[x].chans[k] = { s.tiles[x].chans[k] with patrol := n + 1 }) ∧
              (d.1.outcome = .corr →
                t = (((s.readLine x k n l none).2.modChan x k fun c => c.storeLine n (decodeLine (flipSyms (c.stored n) errs) none).2.1).modChan x k
                  fun c => { c with patrol := n + 1 }))))

/-- R213: ROOT_SCRUB, in a module with an image, at the cycle 1,000,000 m + 488 i checks entry i: one without a bit in error is left; of
one with one bit in error the bit is corrected and its tile's partition's BITERR raised; one with two is unrecoverable, and the
module's (ROOTUE, MFATAL). At any other cycle it does nothing. -/
def Obligations.RootScrubbed : Prop :=
  ∀ (flips : BitVec 64) (s : State), s.boot.image.isSome = true →
    ((∀ i < 2048, s.clocks.jewel % 1000000 ≠ 488 * i) → exec (.rootScrub flips) s = .next s) ∧
    ∀ (ix : Fin 2048) (r : Root) (u : State), s.clocks.jewel % 1000000 = 488 * ix.val → r = s.jewel.roots[ix] →
      u = { s with jewel := { s.jewel with
        roots := s.jewel.roots.set ix { r with flips := r.flips ^^^ flips }
        scrub := (ix.val + 1) % 2048 } } →
      (r.flips ^^^ flips = 0 → ∃ t, exec (.rootScrub flips) s = .next t ∧
        t = { s with jewel := { s.jewel with scrub := (ix.val + 1) % 2048, roots := t.jewel.roots } } ∧
        t.jewel.roots[ix] = ⟨r.ctr, 0⟩ ∧ ∀ j, j ≠ ix → t.jewel.roots[j] = s.jewel.roots[j]) ∧
      (((List.range 64).countP fun b => (r.flips ^^^ flips).getLsbD b) = 2 → exec (.rootScrub flips) s = .next (u.mfatal 0x50 0x43 ix.val)) ∧
      (∀ p, ((List.range 64).countP fun b => (r.flips ^^^ flips).getLsbD b) = 1 →
        s.partOf ⟨ix.val / 32 % 64, Nat.mod_lt _ (by decide)⟩ = some p →
        exec (.rootScrub flips) s = .next (State.raise { u with jewel := { u.jewel with roots := u.jewel.roots.set ix { r with flips := 0 } } } p 0x05 0x43 0
          (32 * (ix.val / 32 % 64 - (s.tilesOf p).headD ⟨ix.val / 32 % 64, Nat.mod_lt _ (by decide)⟩) + ix.val % 32)))
/-! ## Checkpoint, restore and staging (13, 16) -/

/-- R349, R393, R394, R396, R405: a CHECKPOINT that may not start ends with the status R405 gives; else it starts, its state held by Fuller,
and while a tile of the partition has still to reach its mark nothing more happens. R328, R408: a RESTORE waits for a running Tile-class
command; one without a log to read ends INVALID; else it starts: every CHECKPOINT ends, entries and held results go. R351, R473,
R481, R486: NVM_STAGE ends FAILED where its object cannot be read, REFUSED with R473's code where it does not verify; one that
verifies erases the slot that is not active, and the second read, the same, is written there, and RESULT names the slot; one that differs
ends REFUSED. -/
def Obligations.LogsAndImagesStart : Prop :=
  (∀ (p : PartId) (e : InFlight) (s u : State), s.settled (some p) = u → u.nextFuller p 0x40 = some e →
    (∀ st, u.ckRefusal p e.cmd = some st → e.urgent = false → u.inFlight (some p) false e.cmd.seq = some e →
      ∃ t, exec (.checkpoint p) s = .next t ∧ OnlyPart u t p ∧ CommandSide u.parts[p] t.parts[p] ∧ Ended u t (some p) e st 2 0) ∧
    (u.ckRefusal p e.cmd = none →
      ∃ t, exec (.checkpoint p) s = .next t ∧ t = (u.start (some p) false e.cmd.seq).startCkpt p e.cmd ∧
        ((∃ x ∈ u.tilesOf p, u.tiles[x].marked = false) →
          OnlyPart u t p ∧ ∃ k, t.parts[p].fuller = { u.parts[p].fuller with ckpt := some k } ∧
            k.seq = e.cmd.seq ∧ k.ckno = e.cmd.arg0 / 2 ^ 32 ∧ k.step = e.cmd.arg2 ∧ k.frozen = false ∧
            k.buddy = if bits e.cmd.arg0 1 0 = 1 then some (e.cmd.arg1 % 65536) else none))) ∧
  (∀ (p : PartId) (e : InFlight) (s u : State), s.settled (some p) = u → u.nextFuller p 0x41 = some e →
    (u.restoreFrom p e.cmd = false → e.urgent = false → u.inFlight (some p) false e.cmd.seq = some e →
      ∃ t, exec (.restore p) s = .next t ∧ OnlyPart u t p ∧ CommandSide u.parts[p] t.parts[p] ∧ Ended u t (some p) e stInvalid 2 0) ∧
    (u.restoreFrom p e.cmd = true →
      ∃ t, exec (.restore p) s = .next t ∧ t = (u.start (some p) false e.cmd.seq).startRestore p e.cmd ∧
        t.parts[p].card.table = [] ∧ t.parts[p].fuller.heldRes = [] ∧
        ∃ r, t.parts[p].fuller.restore = some r ∧ r.seq = e.cmd.seq ∧ r.ckno = e.cmd.arg0 / 2 ^ 32 ∧ r.step = e.cmd.arg2 ∧ r.trailer = none)) ∧
  (∀ (p : PartId) (s u : State), s.settled (some p) = u → ((u.mains (some p)).any fun x => State.clsOf x == .tile && x.started.isSome) = true →
    exec (.restore p) s = .next u) ∧
  (∀ (e : InFlight) (s u : State), s.settled none = u → e.urgent = false → u.inFlight none false e.cmd.seq = some e → u.staging = none →
    u.startable none .jewel = some e → e.cmd.opc = 0x60 → u.service none = none →
    (∃ t, exec (.nvmStage none) s = .next t ∧ OnlyFn u t none ∧ Ended u t none e stFailed 2 0) ∧
    (∀ (img : Bytes) (code : Nat), code = (if img.length ≠ e.cmd.arg1 then 3 else verifyImage img u.boot.dpk u.boot.blown) →
      (code ≠ 0 → ∃ t, exec (.nvmStage (some img)) s = .next t ∧ OnlyFn u t none ∧ Ended u t none e stRefused 2 code) ∧
      (code = 0 → ∃ t, exec (.nvmStage (some img)) s = .next t ∧ t = { u with pf := t.pf, boot := t.boot } ∧
        t.boot = { u.boot with
          flash := u.boot.flash.filter fun c => decide (c.1 < slotBase u.stageSlot.1) || decide (slotBase u.stageSlot.1 + slotBytes ≤ c.1)
          stage := some ⟨e.cmd.seq, img.length, shake256 64 img⟩ }))) ∧
  (∀ (e : InFlight) (g : Stage) (s u : State), s.settled none = u → e.urgent = false → e.ends = none → u.inFlight none false g.seq = some e →
    u.staging = some g → e.cmd.seq = g.seq →
    (∃ t, exec (.nvmStage none) s = .next t ∧ t.boot = { u.boot with stage := none } ∧ Ended u t none e stFailed 2 0) ∧
    (∀ img : Bytes,
      (img.length = g.len ∧ shake256 64 img = g.digest → ∃ t, exec (.nvmStage (some img)) s = .next t ∧
        t.boot = (State.writeStage { u with boot := { u.boot with stage := none } } u.stageSlot.1 u.stageSlot.2 (fit g.len img) true).boot ∧
        Ended u t none e stOk 0 u.stageSlot.1) ∧
      (¬(img.length = g.len ∧ shake256 64 img = g.digest) → ∃ t, exec (.nvmStage (some img)) s = .next t ∧
        t.boot = (State.writeStage { u with boot := { u.boot with stage := none } } u.stageSlot.1 u.stageSlot.2 (fit g.len img) false).boot ∧
        Ended u t none e stRefused 2 0)))

/-- R402: CHECKPOINT_TRAILER, once every other unit has gone, sends the trailer: to the buddy over VC3, or, with nothing of the log waiting
for a slot, as the host stream's next chunk; the log fails at LIMIT (R403). R402, R404, R406, R408, R410, R411: each other
row takes the first message of its kind from its inbox: the buddy's acknowledgement ends the CHECKPOINT, its refusal fails the
CHECKPOINT or the RESTORE that it answers; the buddy stores the next chunk of a log it receives, and refuses a log it cannot open; a
stored log goes back on request; a chunk of it goes on with the RESTORE, a poisoned one fails it; a member's values reach the
leader, which waits for the others; and the leader's answer ends the RESTORE. -/
def Obligations.LogMessagesTaken : Prop :=
  ∀ (p : PartId) (src : Nat) (s u : State),
    (∀ c, s.parts[p].fuller.ckpt = some c → State.allIn c = true → c.units = [] → c.trailerSent = false →
      (∀ b, c.buddy = some b → ∃ t, exec (.checkpointTrailer p) s = .next t ∧
        t = (s.sendFuller p b c.seq (.chunk (BitVec.ofNat 32 c.ckno) c.chunks true (s.trailerOf p c).bytes)).modCkpt p (fun c => { c with trailerSent := true }) ∧
        t.parts[p].fuller.ckpt = some { c with trailerSent := true }) ∧
      (∀ st, c.buddy = none → s.hostBusy (some p) .checkpoint = false → s.stream p c.sid = some st →
        (c.chunks < st.2.limit → (s.ksrcSecret p st.2.ksrc).isSome = true → ∃ t, exec (.checkpointTrailer p) s = .next t ∧
          t.parts[p].fuller.ckpt = some { c with trailerSent := true } ∧ OnlyPart s t p) ∧
        (st.2.limit ≤ c.chunks → exec (.checkpointTrailer p) s = .next (s.failCkpt p stFailed)))) ∧
    (∀ n c, s.takeInbox3 p (fun _ m => m.any (·.isTrailerAck)) = some (src, some (.trailerAck n), u) →
      u.parts[p].fuller.ckpt = some c → c.trailerSent = true → c.buddy = some src → c.ckno = n.toNat →
      ∃ t, exec (.buddyTrailerAck p) s = .next t ∧ t = u.endCkpt p c ∧ t.parts[p].fuller.ckpt = none) ∧
    (∀ n, s.takeInbox3 p (fun _ m => m.any (·.isRefusal)) = some (src, some (.refusal n), u) →
      (∀ c, u.parts[p].fuller.ckpt = some c → c.buddy = some src → c.ckno = n.toNat → exec (.buddyRefusal p) s = .next (u.failCkpt p stFailed)) ∧
      (∀ x, u.parts[p].fuller.ckpt = none → u.parts[p].fuller.restore = some x → x.buddy = some src → x.ckno = n.toNat → x.reported = false →
        exec (.buddyRefusal p) s = .next (u.failRestore p)) ∧
      (u.parts[p].fuller.ckpt = none → u.parts[p].fuller.restore = none → exec (.buddyRefusal p) s = .next u)) ∧
    (∀ n i last d, s.takeInbox3 p (fun src m => m.any (·.isChunk) || (m.isNone && (s.client p src).isSome)) =
        some (src, some (.chunk n i last d), u) →
      (∀ w, i = 0 → u.openLog p src n.toNat = some w → exec (.buddyChunk p) s = .next (w.takeChunk p src 0 last (some d))) ∧
      (i = 0 → u.openLog p src n.toNat = none → exec (.buddyChunk p) s = .next (u.refuseLog p src n.toNat)) ∧
      (∀ c, i ≠ 0 → u.client p src = some c →
        (c.recv = some (n.toNat, i) → exec (.buddyChunk p) s = .next (u.takeChunk p src i last (some d))) ∧
        (c.recv ≠ some (n.toNat, i) → exec (.buddyChunk p) s = .next u))) ∧
    (∀ c r, s.takeInbox3 p (fun src m => m.any (·.isChunk) || (m.isNone && (s.client p src).isSome)) = some (src, none, u) →
      u.client p src = some c → c.recv = some r → exec (.buddyChunk p) s = .next (u.takeChunk p src r.2 false none)) ∧
    (∀ n, s.takeInbox3 p (fun _ m => m.any (·.isLogRequest)) = some (src, some (.logRequest n), u) →
      (∀ c l, u.client p src = some c → c.logs.find? (·.1 == n.toNat % 2) = some l →
        exec (.buddyLogRequest p) s = .next (u.returnLog p src n.toNat l.2 c ((l.2 - 1) :: List.range (l.2 - 1)))) ∧
      (u.client p src = none → exec (.buddyLogRequest p) s = .next (u.sendFuller p src 0 (.refusal n)))) ∧
    (∀ x, s.parts[p].fuller.restore = some x → x.buddy = some src →
      (∀ n i k d, s.takeInbox3 p (fun src' m => m.any (·.isLogChunk) || (m.isNone && some src == some src')) =
          some (src, some (.logChunk n i k d), u) → (u.parts[p].fuller.restore.any fun x => x.ckno == n.toNat) = true →
        exec (.restoreLogChunk p) s = .next (u.restoreChunk p i k (some d))) ∧
      (s.takeInbox3 p (fun src' m => m.any (·.isLogChunk) || (m.isNone && some src == some src')) = some (src, none, u) →
        exec (.restoreLogChunk p) s = .next (u.failRestore p))) ∧
    (∀ ckno step capd narw j, s.takeInbox2 p (fun _ m => m.isRestoreValues) =
        some (src, .restoreValues ckno step capd narw, u) → u.isLeader p = true → u.parts[p].job = some j →
      ∃ t, exec (.restoreAgreement p) s = .next t ∧ t = u.noteRestore p src (ckno.toNat, step.toNat, capd, narw) ∧
        ((∃ m ∈ j.members, m.coord.toNat ≠ src ∧ m.restore = none) → OnlyPart u t p ∧
          t.parts[p] = { u.parts[p] with job := some { j with members := j.members.map fun m =>
            if m.coord.toNat == src then { m with restore := some (ckno.toNat, step.toNat, capd, narw) } else m } })) ∧
    (∀ yes x, s.takeInbox2 p (fun _ m => m.isGo) = some (src, .go yes, u) →
      src = Compact.leader (u.compact p) → u.parts[p].fuller.restore = some x → x.reported = true →
      ∃ t, exec (.goMsg p) s = .next t ∧ t.parts[p].fuller.restore = none ∧
        t = u.endRestore p (if yes then { status := stOk, result := ((x.trailer.map (·.entry)).getD 0) % 4096 + 65536 * ((x.trailer.map (·.narw)).getD false).toNat }
          else { status := stRefused, cls := 2 }))
/-! ## Power, clocks and sensors (14) -/

/-- R421, R423, R424, R426, R533: at the end of an escapement window the estimate is taken from the window's events: 64 units for each
watt and cycle of the array at I of its class, the weights of the vector unit, and the weights of Config where the spec states
none (log 40). The next issue count follows from it and the allowance, between 64 and 1,024. R435: the frequency step is 0 in
confidential mode; in development mode it falls back to 0 where the estimate is above the allowance or a droop came, and rises by at most
one. R385, R445: profiling counts count in development mode alone. R425: a droop event owes 32 bubbles. Nothing else changes;
before an image is applied neither changes anything. -/
def Obligations.EscapementWindowEnds : Prop :=
  ∀ (x : TileId) (s : State),
    (s.boot.image = none → (∀ a, exec (.escapementWindow x a) s = .next s) ∧ exec (.droopEvent x) s = .next s) ∧
    (∀ im, s.boot.image = some im →
      (∀ (w : Activity) (e a : Nat),
        e = ((List.range 6).map fun i => 64 * issueWatts.getD i 0 * w.issue.getD i 0 / 100).foldl (· + ·) 0 +
          (160 * w.vec32 + 160 * w.vec16 + 192 * w.vecFn + 128 * w.epi + 192 * w.epiAct) + 1024 * Config.leakWeight +
          Config.spWeight * w.sp + Config.dmaWeight * w.dma + Config.meshWeight * w.mesh + Config.sealWeight * w.sealed →
        a = 16384 * (16 + im.allow.getD x.val 0) * 100 / (100 + 5 * s.tiles[x].freq) →
        ∃ t, exec (.escapementWindow x w) s = .next t ∧ OnlyTile s t x ∧
          t.tiles[x].n = min (max (256 * s.tiles[x].n * a / max (s.tiles[x].k * e) 256) 64) 1024 ∧ 64 ≤ t.tiles[x].n ∧ t.tiles[x].n ≤ 1024 ∧
          (im.dev = false → t.tiles[x].freq = 0 ∧ t.tiles[x].bubbles = s.tiles[x].bubbles ∧ t.tiles[x].bankcf = s.tiles[x].bankcf ∧
            t.tiles[x].ewait = s.tiles[x].ewait) ∧
          (im.dev = true →
            (a < e ∨ s.tiles[x].droops ≠ 0 → t.tiles[x].freq = 0) ∧ t.tiles[x].freq ≤ s.tiles[x].freq + 1 ∧
            t.tiles[x].bankcf = s.tiles[x].bankcf + w.bankcf ∧ t.tiles[x].ewait = s.tiles[x].ewait + w.ewait ∧
            t.tiles[x].bubbles = s.tiles[x].bubbles + (if s.tiles[x].freq = 0 then 1024 - s.tiles[x].n else 0) + s.tiles[x].droopBubbles) ∧
          t.tiles[x] = { s.tiles[x] with
            n := t.tiles[x].n
            freq := t.tiles[x].freq
            estSum := s.tiles[x].estSum + e
            droops := 0
            droopBubbles := 0
            bubbles := t.tiles[x].bubbles
            bankcf := t.tiles[x].bankcf
            ewait := t.tiles[x].ewait }) ∧
      (∃ t, exec (.droopEvent x) s = .next t ∧ OnlyTile s t x ∧
        t.tiles[x] = { s.tiles[x] with
          droops := s.tiles[x].droops + im.dev.toNat
          droopBubbles := s.tiles[x].droopBubbles + 32 }))

/-- R427-R430: a row monitor's sample, the row's current times its fused core voltage against its tiles' estimates, sets the monitor's
state, factor k of the row's tiles, PWRDIS, and logs the first condition of a job. R419, R433, R436: an overcurrent of a core
rail turns it and its memory rail off and is logged; a PLL that loses lock is its tile's error, an optical engine's failure
where that has not failed already, or module-fatal. The core oscillator's loss is module-fatal too; its recovery ends the wait. -/
def Obligations.RailsAndClocksFail : Prop :=
  (∀ (row : Fin 8) (ma pm e : Nat) (s : State), s.boot.image.isSome = true → pm = s.boot.vcore[row] * ma →
    e = (State.rowTiles row).foldl (fun n x => n + s.tiles[x].estSum) 0 →
      ∃ u t : State, exec (.rowMonitorSample row ma) s = .next t ∧ t = (u.setPwrDis).logRow row s.board.rows[row] (s.board.rows[row].sample pm e) ∧
        u = { s with board := u.board, tiles := u.tiles } ∧
        u.board = { s.board with rows := s.board.rows.set row (s.board.rows[row].sample pm e) } ∧
        t.board = u.board ∧ t.tiles = u.tiles ∧
        (∀ x ∈ State.rowTiles row, t.tiles[x] = { s.tiles[x] with k := (s.board.rows[row].sample pm e).factor pm e, estSum := 0 }) ∧
        (∀ x : TileId, x ∉ State.rowTiles row → t.tiles[x] = s.tiles[x])) ∧
  (∀ (row : Fin 8) (ma : Nat) (s : State), s.boot.image = none → exec (.rowMonitorSample row ma) s = .next s) ∧
  (∀ (row : Fin 8) (s : State),
    (s.board.railCore[row] = true → ∃ u t : State, exec (.coreRailOvercurrent row) s = .next t ∧ t = u.raiseRow row 0x42 0x50 row.val ∧
      u = { s with board := u.board, tiles := u.tiles } ∧
      u.board = { s.board with railCore := s.board.railCore.set row false, railMem := s.board.railMem.set row false } ∧
      (∀ x ∈ State.rowTiles row, u.tiles[x] = { s.tiles[x] with chans := s.tiles[x].chans.map fun c => { c with init := false } }) ∧
      (∀ x : TileId, x ∉ State.rowTiles row → u.tiles[x] = s.tiles[x])) ∧
    (s.board.railCore[row] = false → exec (.coreRailOvercurrent row) s = .next s)) ∧
  (∀ (i : Fin 76) (s : State),
    (s.board.pwrGood = false → exec (.pllLossOfLock i) s = .next s) ∧
    (s.board.pwrGood = true →
      (∀ h : i.val < 64, exec (.pllLossOfLock i) s = .next (s.raiseTile ⟨i.val, h⟩ 0x43 0 0)) ∧
      (∀ (_ : 65 ≤ i.val ∧ i.val < 73) (q : PortId), q.val = i.val - 65 →
        (s.engines[q] ≠ some false → exec (.pllLossOfLock i) s = .next (s.engineFail q)) ∧
        (s.engines[q] = some false → exec (.pllLossOfLock i) s = .next s)) ∧
      (∀ src, (i.val, src) ∈ [(64, 0x41), (73, 0x40), (74, 0x42), (75, 0x43)] →
        exec (.pllLossOfLock i) s = .next (s.mfatal 0x51 src i.val)))) ∧
  (∀ s : State,
    (s.board.vauxOk = true → s.board.oscLost = false → ∃ u t, u = s.mfatal 0x52 0x50 0 ∧ exec .oscillatorLoss s = .next t ∧
      t = { u with board := { u.board with oscLost := true } }) ∧
    (s.board.vauxOk = false ∨ s.board.oscLost = true → exec .oscillatorLoss s = .next s)) ∧
  (∀ s : State, ∃ t, exec .oscillatorRecovery s = .next t ∧
    t = { s with board := { s.board with oscLost := false }, boot := { s.boot with mstate := t.boot.mstate } } ∧
    (s.board.pwrGood = true → t.boot.mstate = s.boot.mstate) ∧
    (s.board.pwrGood = false → t.boot.mstate = State.offState { s.board with oscLost := false }))

/-- R438-R440, R442: with VAUX in regulation, a die reading is kept, and at 115 °C trips; a package reading is kept, and at 105 °C
trips; a sensor that fails its self-check trips. The tenth read in a row that a package does not answer loses it; a lost package is
read no more. A trip turns every rail but VAUX off, ends every activity and latches its cause; a latched one does not change. A
cleared trip waits until every reading is cool. -/
def Obligations.TemperaturesRead : Prop :=
  (∀ (i : Fin 68) (c : Int) (s u : State), s.board.vauxOk = true → u = { s with board := { s.board with dieTemp := s.board.dieTemp.set i (some c) } } →
    (16 * 115 ≤ c → exec (.dieSensorRead i (some c)) s = .next (u.trip 1 i.val)) ∧
    (c < 16 * 115 → exec (.dieSensorRead i (some c)) s = .next u)) ∧
  (∀ (i : Fin 68) (s u : State), s.board.vauxOk = true → u = { s with board := { s.board with dieTemp := s.board.dieTemp.set i none } } →
    exec (.dieSensorRead i none) s = .next (u.trip 2 i.val)) ∧
  (∀ (i : Fin 64) (s : State), s.board.vauxOk = true → s.board.pkgIgnored[i] = false →
    (∀ c u, u = { s with board := { s.board with pkgTemp := s.board.pkgTemp.set i (some c), pkgUnread := s.board.pkgUnread.set i 0 } } →
      (16 * 105 ≤ c → exec (.packageTempRead i (some c)) s = .next (u.trip 3 i.val)) ∧
      (c < 16 * 105 → exec (.packageTempRead i (some c)) s = .next u)) ∧
    (∀ u, u = { s with board := { s.board with pkgUnread := s.board.pkgUnread.set i (s.board.pkgUnread[i] + 1) } } →
      (9 ≤ s.board.pkgUnread[i] → exec (.packageTempRead i none) s = .next (u.packageLost i)) ∧
      (s.board.pkgUnread[i] < 9 → exec (.packageTempRead i none) s = .next u))) ∧
  (∀ (s : State) (v : Option Int), (s.board.vauxOk = false → ∀ i, exec (.dieSensorRead i v) s = .next s) ∧
    (∀ i : Fin 64, s.board.vauxOk = false ∨ s.board.pkgIgnored[i] = true → exec (.packageTempRead i v) s = .next s)) ∧
  (∀ s : State,
    (s.board.tripWait = true → s.cool = true → exec .tripCool s = .next { s with board := { s.board with tripWait := false } }) ∧
    (s.board.tripWait = false ∨ s.cool = false → exec .tripCool s = .next s)) ∧
  (∀ (k i : Nat) (s : State),
    (s.board.tripLatch = true → s.trip k i = s) ∧
    (s.board.tripLatch = false →
      (s.trip k i).board.tripLatch = true ∧ (s.trip k i).board.tripKind = k ∧ (s.trip k i).board.tripIdx = i ∧
      (s.trip k i).board.pwrGood = false ∧ (s.trip k i).board.railCore = Vector.replicate 8 false ∧
      (s.trip k i).board.railMem = Vector.replicate 8 false ∧ (s.trip k i).board.railPeri = false ∧ (s.trip k i).board.railOpt = false ∧
      (s.trip k i).board.vauxOk = s.board.vauxOk ∧ (s.trip k i).boot.mstate = .tripped ∧ (s.trip k i).host.linkUp = false ∧
      (s.trip k i).hatband = Vector.replicate 4 true ∧ (s.trip k i).jewel.slot0 = none))

/-- R418: while VAUX is in regulation, an input out of range or an overcurrent turns the module off; a voltage fault ends with the
input back in that range, and neither release ends the other. R514-R517: input power brings VAUX up and samples SLOT_ID; the
rails rise once every start condition holds; a condition lost turns the module off, and the input removed loses what VAUX kept. -/
def Obligations.SuppliesComeAndGo : Prop :=
  ∀ s : State,
    (s.board.vauxOk = true →
      exec .inputUndervoltage s = .next (s.inputFault fun b => { b with underVolt := true }) ∧
      exec .inputOvervoltage s = .next (s.inputFault fun b => { b with overVolt := true }) ∧
      exec .inputOvercurrent s = .next (s.inputFault fun b => { b with overCurrent := true, ocReleased := false })) ∧
    exec (.inputRelease false) s = .next { s with board := { s.board with underVolt := false } } ∧
    exec (.inputRelease true) s = .next { s with board := { s.board with overVolt := false } } ∧
    (∀ f, (s.inputFault f).board.pwrGood = false ∧ (s.inputFault f).board.railCore = Vector.replicate 8 false ∧
      (s.inputFault f).board.railMem = Vector.replicate 8 false ∧ (s.inputFault f).board.railPeri = false ∧
      (s.inputFault f).board.railOpt = false ∧ (s.inputFault f).boot.flash = s.boot.flash ∧ (s.inputFault f).boot.fuses = s.boot.fuses ∧
      (s.inputFault f).host.linkUp = false ∧ (s.inputFault f).hatband = Vector.replicate 4 true) ∧
    (∀ slot,
      (s.board.inputPower = false → exec (.inputPowerApplied slot) s = .next { s with
        board := { s.board with inputPower := true, vauxOk := true, vauxHold := false, slotId := slot }
        boot := { s.boot with mstate := .powering, nextCause := 1 }
        clocks := ⟨0, 0, 0, 0, 0, 0⟩ }) ∧
      (s.board.inputPower = true → exec (.inputPowerApplied slot) s = .next s)) ∧
    (s.mayStart = true → s.board.pwrGood = false → exec .railsRise s = .next { s with
      board := { s.board with railCore := Vector.replicate 8 true, railMem := Vector.replicate 8 true, railPeri := true, railOpt := true, pwrGood := true } }) ∧
    (s.mayStart = false ∨ s.board.pwrGood = true → exec .railsRise s = .next s) ∧
    (s.board.inputPower = true → exec (.startConditionLoss false) s = .next ((s.moduleOff).cause 1)) ∧
    (s.board.inputPower = true → ∃ t, exec (.startConditionLoss true) s = .next t ∧ t.board = ((s.moduleOff).cause 1).board.unpowered ∧
      t.board.vauxOk = false ∧ t.board.tripLatch = false ∧ t.board.tripWait = (s.board.tripWait || s.board.tripLatch) ∧
      t.boot.mstate = .powering ∧ t.clocks = ⟨0, 0, 0, 0, 0, 0⟩ ∧ t.jewel.log = ErrLog.empty ∧ t.boot.flash = s.boot.flash ∧ t.boot.fuses = s.boot.fuses) ∧
    (s.board.inputPower = false → ∀ r, exec (.startConditionLoss r) s = .next s) ∧
    (s.board.pwrGood = false → exec .railsRested s = .next { s with board := { s.board with railsRested := true } }) ∧
    (s.board.pwrGood = true → exec .railsRested s = .next s) ∧
    (s.board.vauxOk = true → ∃ t, exec .vauxFault s = .next t ∧ t.board.vauxOk = false ∧ t.board.vauxHold = true ∧ t.board.pwrGood = false ∧
      t.board.smbus = none ∧ t.boot.flash = s.boot.flash ∧ t.hatband = Vector.replicate 4 true) ∧
    (s.board.vauxOk = false → exec .vauxFault s = .next s ∧ exec .inputUndervoltage s = .next s ∧ exec .inputOvervoltage s = .next s ∧
      exec .inputOvercurrent s = .next s) ∧
    (s.board.inputPower = true → s.board.vauxHold = true →
      exec .vauxRecovery s = .next { s with board := { s.board with vauxOk := true, vauxHold := false } }) ∧
    (s.board.inputPower = false ∨ s.board.vauxHold = false → exec .vauxRecovery s = .next s)

/-- R418, R440, R462, R516, R519-R522: with VAUX in regulation, MOD_ENABLE deasserted turns the module off and counts as a reset;
asserted, it releases the overcurrent latch and the ROM hold it was released for; held low 10 ms it clears the trip latch and
ends a restart hold. PERST_N asserted after t2 of a start turns the module off. A storm hold ends 2 s after the last edge. An edge to
the level that holds, or without VAUX, does nothing. -/
def Obligations.SidebandInputsAct : Prop :=
  (∀ s : State, s.board.vauxOk = true →
    (∀ slot u, s.board.modEnable = true →
      u = { s with board := { s.board with modEnable := false, slotId := slot, ocReleased := s.board.overCurrent, romReleased := s.board.romHold } } →
      exec (.modEnableDeassert slot) s = .next (((u.moduleOff).cause 2).countReset)) ∧
    (s.board.modEnable = false → ∃ t, exec .modEnableAssert s = .next t ∧ t = { s with board := t.board, boot := { s.boot with mstate := t.boot.mstate } } ∧
      t.board = { s.board with
        modEnable := true
        overCurrent := s.board.overCurrent && !s.board.ocReleased
        ocReleased := false
        romHold := s.board.romHold && !s.board.romReleased
        romReleased := false
        lastEdge := s.clocks.vaux }) ∧
    (s.board.modEnable = false → ∃ t, exec .modEnableHeldLow s = .next t ∧
      t = { s with board := t.board, boot := { s.boot with mstate := t.boot.mstate, nextCause := t.boot.nextCause } } ∧
      t.board = { s.board with
        tripLatch := false
        tripWait := s.board.tripWait || s.board.tripLatch
        restartHold := false
        restartTimes := if s.board.restartHold then [] else s.board.restartTimes } ∧
      (s.board.tripLatch = true → t.boot.nextCause = 4) ∧ (s.board.tripLatch = false → t.boot.nextCause = s.boot.nextCause)) ∧
    (s.board.perstN = true →
      ((s.boot.phase = .training ∨ s.boot.phase = .ready ∨ s.boot.phase = .recovery) →
        exec .perstNAssert s = .next (((({ s with board := { s.board with perstN := false, perstReset := true } } : State).moduleOff).cause 2).countReset)) ∧
      ((s.boot.phase ≠ .training ∧ s.boot.phase ≠ .ready ∧ s.boot.phase ≠ .recovery) →
        exec .perstNAssert s = .next (State.countReset { s with board := { s.board with perstN := false } })))) ∧
  (∀ s : State,
    (s.board.stormHold = true → s.board.lastEdge + 2000000000 ≤ s.clocks.vaux →
      exec .stormHoldEnd s = .next { s with board := { s.board with stormHold := false, resetTimes := [] } }) ∧
    (s.board.stormHold = false ∨ s.clocks.vaux < s.board.lastEdge + 2000000000 → exec .stormHoldEnd s = .next s) ∧
    (s.board.vauxOk = false ∨ s.board.modEnable = false → ∀ slot, exec (.modEnableDeassert slot) s = .next s) ∧
    (s.board.vauxOk = false ∨ s.board.modEnable = true → exec .modEnableAssert s = .next s ∧ exec .modEnableHeldLow s = .next s) ∧
    (s.board.vauxOk = false ∨ s.board.perstN = false → exec .perstNAssert s = .next s))

/-- R525, R526: at the module's address, 40h plus SLOT_ID, a Block Read returns its page with byte count and PEC, or nothing where
the code has none; a write returns nothing and changes no register; at another address, or without VAUX, nothing answers. A
timeout resets the interface. -/
def Obligations.SmbusAnswers : Prop :=
  ∀ (addr : BitVec 7) (code : Byte) (a : Analog) (d : Bytes) (s : State),
    (s.board.vauxOk = true → addr.toNat = 0x40 + s.board.slotId.toNat →
      (∀ pg, s.page code.toNat a = some pg →
        ∃ pec, exec (.smbusBlockRead addr code a) s = .next { s with board := { s.board with smbus := some (leBytes 1 pg.length ++ pg ++ pec) } } ∧ pec.length = 1) ∧
      (code.toNat < 8 → ∃ pg, s.page code.toNat a = some pg) ∧
      (8 ≤ code.toNat → exec (.smbusBlockRead addr code a) s = .next { s with board := { s.board with smbus := none } }) ∧
      exec (.smbusWrite addr code d) s = .next { s with board := { s.board with smbus := none } }) ∧
    (s.board.vauxOk = false ∨ addr.toNat ≠ 0x40 + s.board.slotId.toNat →
      exec (.smbusBlockRead addr code a) s = .next s ∧ exec (.smbusWrite addr code d) s = .next s) ∧
    exec .smbusTimeout s = .next { s with board := { s.board with smbus := none } }

/-! ## Links, the hatband and the members of a job (08, 09, 12) -/

/-- R270, R271, R273, R274, R277: what a port's lanes and counts do to it, and to nothing else: lost signal leaves a used port DOWN, signal
that is back in HOLD; after the hold time the port trains, where the limit of R274 allows it; so does one held back once the limit
allows it, and a refused one 10 s after; with the lanes locked it draws a nonce, attests and has its HELLO to say. R261, R262: an
expired acknowledgement starts again from the oldest unacknowledged frame, a stalled one retrains. In other states none of these acts. -/
def Obligations.PortsTrain : Prop :=
  ∀ (i : PortId) (s : State),
    (∀ b, (s.ports[i].state ≠ .unused → s.ports[i].state ≠ .bypassed →
        ∃ t, exec (.laneSignalLoss i b) s = .next t ∧ OnlyPort s t i ∧ t.ports[i] = s.ports[i].unlink (if b then .hold else .down)) ∧
      (s.ports[i].state = .unused ∨ s.ports[i].state = .bypassed → exec (.laneSignalLoss i b) s = .next s)) ∧
    (s.ports[i].state = .down ∨ s.ports[i].state = .hold →
      ∃ t, exec (.signalHoldExpiry i) s = .next t ∧ OnlyPort s t i ∧ t.ports[i] = s.ports[i].startTrain) ∧
    (s.ports[i].state ≠ .down → s.ports[i].state ≠ .hold → exec (.signalHoldExpiry i) s = .next s) ∧
    (s.ports[i].state = .hold → s.ports[i].recentStarts.length < 4 →
      ∃ t, exec (.retrainLimitRelease i) s = .next t ∧ OnlyPort s t i ∧ t.ports[i] = s.ports[i].startTrain) ∧
    (s.ports[i].state ≠ .hold ∨ 4 ≤ s.ports[i].recentStarts.length → exec (.retrainLimitRelease i) s = .next s) ∧
    (s.ports[i].state = .refused → s.ports[i].refusedAt + 10 * portSecond ≤ s.ports[i].count →
      ∃ t, exec (.refusedRetry i) s = .next t ∧ OnlyPort s t i ∧ t.ports[i] = s.ports[i].startTrain) ∧
    (s.ports[i].state ≠ .refused ∨ s.ports[i].count < s.ports[i].refusedAt + 10 * portSecond → exec (.refusedRetry i) s = .next s) ∧
    (s.ports[i].state = .train →
      ∃ t n, exec (.laneLock i) s = .next t ∧ t = { s with ports := t.ports, free := t.free } ∧ PortsKept s t i ∧
        n.length = 32 ∧ t.ports[i] = { s.ports[i] with state := .attest, nonce := some n, say := s.helloBytes i n }) ∧
    (s.ports[i].state ≠ .train → exec (.laneLock i) s = .next s) ∧
    (s.ports[i].state = .up → s.ports[i].replay ≠ [] →
      (s.ports[i].resend = [] → s.ports[i].ackCount + 2000 ≤ s.ports[i].count →
        ∃ t, exec (.replayTimeout i) s = .next t ∧ OnlyPort s t i ∧
          t.ports[i] = { s.ports[i] with resend := s.ports[i].replay.map (·.fseq), gobk := s.ports[i].gobk + 1 }) ∧
      (s.ports[i].ackCount + 10000000 ≤ s.ports[i].count →
        ∃ t, exec (.ackStallRetrain i) s = .next t ∧ OnlyPort s t i ∧ t.ports[i] = s.ports[i].startTrain)) ∧
    (s.ports[i].state ≠ .up ∨ s.ports[i].replay = [] → exec (.replayTimeout i) s = .next s ∧ exec (.ackStallRetrain i) s = .next s) ∧
    (∀ o : Port, o.startTrain.keys = none ∧ o.startTrain.state = if o.recentStarts.length < 4 then .train else .hold)

/-- R270-R272, R276: in ATTEST, a HELLO is noted or refuses the port, and the D+ end has its evidence to say; then each end's
evidence is judged in its turn: evidence that does not verify refuses the port, and with evidence that does the link keys are
derived, over both nonces and both identity keys, the D- end having its own evidence to say. A loop measured over 380 ns refuses the
port. The codewords corrected are counted. -/
def Obligations.SessionsFormed : Prop :=
  ∀ (i : PortId) (n : Nat) (s : State) (o : Port), o = { s.ports[i] with fecc := s.ports[i].fecc + n } →
    (s.ports[i].state = .attest →
      (∀ coord nport nonce digest, s.ports[i].greeting = none →
        (∀ r, s.helloRefusal i coord.toNat nport digest = some r →
          ∃ t, exec (.hello i coord nport nonce digest n) s = .next t ∧ OnlyPort s t i ∧ t.ports[i] = o.refuse r) ∧
        (s.helloRefusal i coord.toNat nport digest = none →
          (portPlus i = false → ∃ t, exec (.hello i coord nport nonce digest n) s = .next t ∧ OnlyPort s t i ∧
            t.ports[i] = { o with
              greeting := some ⟨[], coord.toNat, nport, nonce⟩
              neighbour := coord.toNat
              ndist := s.stepsTo i coord.toNat
              wrap := decide (coordDim s.me (portDim i) < coordDim coord.toNat (portDim i))
              ekDraw := none }) ∧
          (portPlus i = true → ∃ v t, exec (.hello i coord nport nonce digest n) s = .next t ∧
            t = v.sayEvidence i (s.ports[i].nonce.getD []) nonce (ekOf s.free) true ∧
            v = { s with ports := v.ports, free := s.free + 1 } ∧ PortsKept s v i ∧
            v.ports[i] = { o with
              greeting := some ⟨[], coord.toNat, nport, nonce⟩
              neighbour := coord.toNat
              ndist := s.stepsTo i coord.toNat
              wrap := decide (coordDim coord.toNat (portDim i) < coordDim s.me (portDim i))
              ekDraw := some s.free }))) ∧
      (∀ g mine chain report ek ok, s.ports[i].greeting = some g → s.ports[i].nonce = some mine → s.ports[i].keys = none → portPlus i = false →
        (∀ r, s.evidenceRefusal report ok = some r →
          ∃ t, exec (.evidenceDPlus i chain report ek ok n) s = .next t ∧ OnlyPort s t i ∧ t.ports[i] = o.refuse r) ∧
        (s.evidenceRefusal report ok = none →
          ∃ v t ss, exec (.evidenceDPlus i chain report ek ok n) s = .next t ∧
            t = v.sayEvidence i g.peerNonce mine ((List.range 1088).map (Config.kemCtByte ek s.free)) false ∧
            v = { s with ports := v.ports, free := s.free + 1 } ∧ PortsKept s v i ∧
            ss = (List.range 32).map (Config.kemSsByte ek s.free) ∧
            v.ports[i] = o.keyed (linkKeys false ss g.peerNonce mine (keyDigest (reportKey report)) (keyDigest s.boot.dpk))
              (keyDigest (reportKey report)))) ∧
      (∀ g mine chain report ct ok, s.ports[i].greeting = some g → s.ports[i].nonce = some mine → s.ports[i].keys = none → portPlus i = true →
        (∀ r kem, s.evidenceRefusal report ok = some r →
          ∃ t, exec (.evidenceDMinus i chain report ct ok kem n) s = .next t ∧ OnlyPort s t i ∧ t.ports[i] = o.refuse r) ∧
        (s.evidenceRefusal report ok = none →
          (∃ t, exec (.evidenceDMinus i chain report ct ok none n) s = .next t ∧ OnlyPort s t i ∧ t.ports[i] = o.refuse 2) ∧
          (∀ ss, ∃ t, exec (.evidenceDMinus i chain report ct ok (some ss) n) s = .next t ∧ OnlyPort s t i ∧
            t.ports[i] = o.keyed (linkKeys true ss mine g.peerNonce (keyDigest s.boot.dpk) (keyDigest (reportKey report)))
              (keyDigest (reportKey report))))) ∧
      (∀ fec wire ps, s.ports[i].keys.isSome = true →
        (380000 < ps → ∃ t, exec (.crsync i fec n wire ps) s = .next t ∧ OnlyPort s t i ∧ t.ports[i] = o.refuse 6) ∧
        (ps ≤ 380000 → exec (.crsync i fec n wire ps) s = .next (((s.modPort i fun o => { o with loopOk := true }).receive i fec n wire).refreshWaits)))) ∧
    (s.ports[i].state ≠ .attest →
      (∀ coord nport nonce digest, ∃ t, exec (.hello i coord nport nonce digest n) s = .next t ∧ OnlyPort s t i ∧ t.ports[i] = o) ∧
      (∀ chain report ek ok kem,
        (∃ t, exec (.evidenceDPlus i chain report ek ok n) s = .next t ∧ OnlyPort s t i ∧ t.ports[i] = o) ∧
        (∃ t, exec (.evidenceDMinus i chain report ek ok kem n) s = .next t ∧ OnlyPort s t i ∧ t.ports[i] = o)) ∧
      (∀ fec wire ps, exec (.crsync i fec n wire ps) s = .next ((s.receive i fec n wire).refreshWaits)))

/-- R277, R278, R280: with both engines of the next dimension passed, its switch opens and its ports go DOWN. A failed engine of an
open dimension is logged, and its dimension drops out of the ring until the next start; a verdict on a self-test is noted, a
failed one logged. Each may be the last that READY waits for (R478). -/
def Obligations.EnginesAndSwitches : Prop :=
  ∀ (s : State),
    (∀ (i : PortId) (_ : i.val / 2 < 4), s.hatband[i.val / 2] = true → exec (.opticalEngineFail i) s = .next s) ∧
    (∀ (i : PortId) (_ : i.val / 2 < 4), s.hatband[i.val / 2] = false → ∃ t, exec (.opticalEngineFail i) s = .next t ∧ t = s.engineFail i ∧
      t.engines = s.engines.set i (some false) ∧ t.hatband = s.hatband.set (i.val / 2) true ∧
      (∀ j : PortId, j.val / 2 ≠ i.val / 2 → t.ports[j] = s.ports[j]) ∧
      (∀ j : PortId, j.val / 2 = i.val / 2 → t.ports[j] =
        if s.ports[j].state = .unused then s.ports[j] else { s.ports[j].unlink .bypassed with replay := [], spent := List.replicate 32 0 })) ∧
    (∀ (d : Fin 4) (im : Image), s.boot.image = some im → s.nextSwitch = some d →
      s.engines[portOf d.val true] = some true → s.engines[portOf d.val false] = some true →
      exec .hatbandOpen s = .next (State.tryReady { (s.modPort (portOf d.val true) fun o => { o with state := .down }).modPort (portOf d.val false)
        (fun o => { o with state := .down }) with hatband := s.hatband.set d false })) ∧
    (s.boot.image = none ∨ s.nextSwitch = none → exec .hatbandOpen s = .next s) ∧
    (∀ d : Fin 4, s.nextSwitch = some d → s.engines[portOf d.val true] ≠ some true ∨ s.engines[portOf d.val false] ≠ some true →
      exec .hatbandOpen s = .next s) ∧
    (∀ (i : PortId) (u v : State), u = { s with engines := s.engines.set i (some true) } → v = { s with engines := s.engines.set i (some false) } →
      (s.boot.image.isSome = true → s.engines[i] = none → 1 < s.tsize (portDim i) →
        exec (.engineSelfTestDone i true) s = .next u.tryReady ∧
        exec (.engineSelfTestDone i false) s = .next (v.raiseModule 0x08 (0x48 + i.val) i.val).tryReady) ∧
      (s.boot.image = none ∨ s.engines[i] ≠ none ∨ s.tsize (portDim i) ≤ 1 → ∀ b, exec (.engineSelfTestDone i b) s = .next s))

/-- R254, R414: a member whose count stands at its era ceiling asks its leader for the next, the leader raises its own; the leader
records a member's raised era or SID ceiling and acknowledges it; the acknowledgement of the ceiling asked for raises it. A message
from another than it must come from is taken and does nothing; where none waits nothing happens. -/
def Obligations.CeilingsRaised : Prop :=
  ∀ (p : PartId) (src n : Nat) (s u : State),
    (∀ j, s.parts[p].job = some j → State.eraDue j = true → j.eraAsked ≠ some (j.eraCeil + 1) →
      (s.isLeader p = true → ∃ t, exec (.eraRaise p) s = .next t ∧ OnlyPart s t p ∧ (t.parts[p].job.map (·.eraCeil)) = some (j.eraCeil + 1)) ∧
      (s.isLeader p = false → ∃ t, exec (.eraRaise p) s = .next t ∧ PartAndPorts s t p ∧
        t.parts[p] = { s.parts[p] with job := some { j with eraAsked := some (j.eraCeil + 1) } })) ∧
    (∀ j, s.parts[p].job = some j → State.eraDue j = false ∨ j.eraAsked = some (j.eraCeil + 1) → exec (.eraRaise p) s = .next s) ∧
    (s.takeInbox2 p (fun _ m => m.isEraRaise) = some (src, .eraRaise n, u) →
      (u.isLeader p = true → (u.memberRec p src).isSome = true → ∃ t, exec (.eraCeilingReceive p) s = .next t ∧ PartAndPorts u t p ∧
        t = (u.modMember p src fun m => { m with eraCeil := max m.eraCeil n }).sendJewel p src (.eraAck n)) ∧
      (u.isLeader p = false ∨ u.memberRec p src = none → exec (.eraCeilingReceive p) s = .next u)) ∧
    (∀ j, s.takeInbox2 p (fun _ m => m.isEraAck) = some (src, .eraAck n, u) → u.parts[p].job = some j →
      (src = Compact.leader (u.compact p) → j.eraAsked = some n → ∃ t, exec (.eraAck p) s = .next t ∧ OnlyPart u t p ∧
        t.parts[p] = { u.parts[p] with job := some { j with eraCeil := n, eraAsked := none } }) ∧
      (src ≠ Compact.leader (u.compact p) ∨ j.eraAsked ≠ some n → exec (.eraAck p) s = .next u)) ∧
    (s.takeInbox2 p (fun _ m => m.isSidRaise) = some (src, .sidRaise n, u) →
      (u.isLeader p = true → (u.memberRec p src).isSome = true → ∃ t, exec (.sidCeilingReceive p) s = .next t ∧ PartAndPorts u t p ∧
        t = (u.modMember p src fun m => { m with sidCeil := max m.sidCeil n }).sendJewel p src (.sidAck n)) ∧
      (u.isLeader p = false ∨ u.memberRec p src = none → exec (.sidCeilingReceive p) s = .next u)) ∧
    (∀ j, s.takeInbox2 p (fun _ m => m.isSidAck) = some (src, .sidAck n, u) → u.parts[p].job = some j →
      (src = Compact.leader (u.compact p) → j.sidAsked = some n → ∃ t, exec (.sidCeilingAck p) s = .next t ∧ OnlyPart u t p ∧
        t.parts[p] = { u.parts[p] with job := some { j with sidCeil := n, sidAsked := none } }) ∧
      (src ≠ Compact.leader (u.compact p) ∨ j.sidAsked ≠ some n → exec (.sidCeilingAck p) s = .next u)) ∧
    ((s.takeInbox2 p (fun _ m => m.isEraRaise) = none → exec (.eraCeilingReceive p) s = .next s) ∧
      (s.takeInbox2 p (fun _ m => m.isEraAck) = none → exec (.eraAck p) s = .next s) ∧
      (s.takeInbox2 p (fun _ m => m.isSidRaise) = none → exec (.sidCeilingReceive p) s = .next s) ∧
      (s.takeInbox2 p (fun _ m => m.isSidAck) = none → exec (.sidCeilingAck p) s = .next s))

/-- R377, R378, R534: the messages by which members join, each taken from the partition's inbox: the leader records an OPENED; a
member challenged over a nonce owes its report over it; the leader judges a report over the nonce it drew and answers with the key
set, or raises JOIN; a member that opens a key set of its leader holds it for its next window, where it installs it, goes to
RUNNING and answers; the leader counts it as joined. R253: the counts of ESEQ go on from the opening, a rejoining member's
start at its era floor. Where no message waits nothing happens. -/
def Obligations.MembersJoin : Prop :=
  ∀ (p : PartId) (src : Nat) (s u : State),
    (∀ job coord, s.takeInbox2 p (fun _ m => m.isOpened) = some (src, .opened job coord, u) →
      (u.isLeader p = true → job.toNat = u.jobNum (some p) → coord.toNat = src → ∃ t, exec (.opened p) s = .next t ∧ OnlyPart u t p ∧
        t = u.modMember p src fun m => { m with announced := true, joined := false, nonce := none }) ∧
      (u.isLeader p = false ∨ job.toNat ≠ u.jobNum (some p) ∨ coord.toNat ≠ src → exec (.opened p) s = .next u)) ∧
    (∀ n j, s.takeInbox2 p (fun _ m => m.isChallenge) = some (src, .challenge n, u) → u.parts[p].job = some j →
      (src = Compact.leader (u.compact p) → u.parts[p].pstate = .opening → u.isLeader p = false →
        ∃ t, exec (.challenge p) s = .next t ∧ OnlyPart u t p ∧
          t.parts[p] = { u.parts[p] with job := some { j with nonce := some (fit 64 n), owesReport := true, announcing := false } }) ∧
      (src ≠ Compact.leader (u.compact p) ∨ u.parts[p].pstate ≠ .opening ∨ u.isLeader p = true → exec (.challenge p) s = .next u)) ∧
    (∀ r ok, s.takeInbox2 p (fun _ m => m.isReport) = some (src, .report r, u) →
      (∀ m n, u.isLeader p = true → u.memberRec p src = some m → m.nonce = some n → sub r 32 64 = n →
        (u.reportOk p src r ok = true → ∃ t, exec (.memberReport p ok) s = .next t ∧ t = u.sendKeyset p m n r) ∧
        (u.reportOk p src r ok = false → ∃ t, exec (.memberReport p ok) s = .next t ∧
          t = (u.modMember p src fun m => { m with announced := false, nonce := none }).raise p 0x1B 0x43 0 src)) ∧
      (∀ m n, u.memberRec p src = some m → m.nonce = some n → sub r 32 64 ≠ n → exec (.memberReport p ok) s = .next u) ∧
      (u.isLeader p = false ∨ u.memberRec p src = none → exec (.memberReport p ok) s = .next u)) ∧
    (∀ ct iv body tag era sid ss n b j, s.takeInbox2 p (fun _ m => m.isKeyset) = some (src, .keyset ct iv body tag era sid, u) →
      u.parts[p].job = some j → j.nonce = some n → src = Compact.leader (u.compact p) → u.parts[p].pstate = .opening →
      (Gcm.decrypt (ksetKey ss n) iv [] body tag = some b → ∃ t, exec (.keyset p (some ss)) s = .next t ∧ OnlyPart u t p ∧
        t.parts[p] = { u.parts[p] with job := some { j with keyset := some (b, era, sid) } }) ∧
      (Gcm.decrypt (ksetKey ss n) iv [] body tag = none → exec (.keyset p (some ss)) s = .next u)) ∧
    (∀ j b era sid, s.parts[p].job = some j → j.keyset = some (b, era, sid) →
      PartAndPorts s (s.installKeys p) p ∧ (s.installKeys p).parts[p] = { s.parts[p] with
        pstate := .running
        job := some { j with
          jr := some (sub b 0 32)
          link := some (sub b 32 32)
          imports := State.ksetImports b
          released := State.ksetReleased b
          keySet := true
          eraCeil := max 1 era
          eraAsked := none
          sidCeil := sid
          sidAsked := none
          sidNext := sid
          eseq := if era = 0 then j.eseq else List.replicate 32 (era * 2 ^ 48)
          keyset := none } }) ∧
    (s.takeInbox2 p (fun _ m => m.isJoined) = some (src, .joined, u) →
      (u.isLeader p = true → (u.memberRec p src).any (·.keyed) = true → ∃ t, exec (.joined p) s = .next t ∧
        t = (u.modMember p src fun m => { m with joined := true }).checkJoined p) ∧
      (u.isLeader p = false ∨ (u.memberRec p src).any (·.keyed) = false → exec (.joined p) s = .next u)) ∧
    ((s.takeInbox2 p (fun _ m => m.isOpened) = none → exec (.opened p) s = .next s) ∧
      (s.takeInbox2 p (fun _ m => m.isChallenge) = none → exec (.challenge p) s = .next s) ∧
      (s.takeInbox2 p (fun _ m => m.isReport) = none → ∀ ok, exec (.memberReport p ok) s = .next s) ∧
      (s.takeInbox2 p (fun _ m => m.isKeyset) = none → ∀ k, exec (.keyset p k) s = .next s) ∧
      (s.takeInbox2 p (fun _ m => m.isJoined) = none → exec (.joined p) s = .next s))

/-! ## Frames and resets (08, 15) -/

/-- R256, R260, R262, R276: a frame at a port that holds link keys: its place in the sequence and its corrected codewords count; one
that does not decode fails, one whose header does not open or names another slot is a hop integrity event too. An IDLE frame brings
its ACK, NAK and CRET, and more credits than were spent are an imbalance (R31); a DATA frame with the next FSEQ is accepted, another
fails; a CRSYNC frame settles its slot's counts (R275). Without keys nothing arrives. After it only the waits of bucket
entries may begin or end. -/
def Obligations.FramesReceived : Prop :=
  (∀ (c : Instr) (i : PortId) (fec : Bool) (n : Nat) (wire : Bytes) (s : State) (o : Port),
    c ∈ [Instr.dataFrameReceive i fec n wire, Instr.idleFrameReceive i fec n wire] →
    (s.ports[i].keys = none → ∃ u, exec c s = .next u.refreshWaits ∧ OnlyPort s u i ∧ u.ports[i] = { s.ports[i] with fecc := s.ports[i].fecc + n }) ∧
    (∀ k, s.ports[i].keys = some k → o = { s.ports[i] with rxc := s.ports[i].rxc + 1, fecc := s.ports[i].fecc + n } →
      (fec = false → ∃ u, exec c s = .next u.refreshWaits ∧ OnlyPort s u i ∧ u.ports[i] = o.frameFailed) ∧
      (fec = true → State.openHdr k i s.ports[i].rxc wire = none →
        ∃ u, exec c s = .next u.refreshWaits ∧ OnlyPort s u i ∧ u.ports[i] = o.frameFailed.hopEvent) ∧
      (∀ clear h a, fec = true → State.openHdr k i s.ports[i].rxc wire = some clear → h = Hdr.parse clear →
        a = (if h.nak then (o.gotAck h.ack).goBack else o.gotAck h.ack) →
        (h.slot ≠ s.ports[i].rxc % 64 → ∃ u, exec c s = .next u.refreshWaits ∧ OnlyPort s u i ∧ u.ports[i] = o.frameFailed.hopEvent) ∧
        (h.slot = s.ports[i].rxc % 64 → s.slotPart h.slot = none → h.kind = 2 →
          ∃ u, exec c s = .next u.refreshWaits ∧ OnlyPort s u i ∧ u.ports[i] = a) ∧
        (∀ p, h.slot = s.ports[i].rxc % 64 → s.slotPart h.slot = some p → h.part = p →
          (h.kind = 3 → ∃ u, exec c s = .next ((u.gotCrsync i h).tryUp i).refreshWaits ∧ OnlyPort s u i ∧ u.ports[i] = o) ∧
          (h.kind = 2 → a.overReturned p h.cret = false →
            ∃ u, exec c s = .next u.refreshWaits ∧ OnlyPort s u i ∧ u.ports[i] = a.gotCret p h.cret) ∧
          (h.kind = 2 → a.overReturned p h.cret = true →
            ∃ u, exec c s = .next (u.raise (State.partIx p) 0x44 (0x48 + i.val) 0 1).refreshWaits ∧ OnlyPort s u i ∧ u.ports[i] = a.gotCret p h.cret) ∧
          (h.kind = 1 → a.overReturned p h.cret = false →
            (h.fseq ≠ ((a.gotCret p h.cret).rxF + 1) % 4096 →
              ∃ u, exec c s = .next u.refreshWaits ∧ OnlyPort s u i ∧ u.ports[i] = (a.gotCret p h.cret).frameFailed) ∧
            (h.fseq = ((a.gotCret p h.cret).rxF + 1) % 4096 →
              ∃ u, exec c s = .next (u.accepted i k s.ports[i].rxc h clear (sub wire 32 256) (sub wire 288 16)).refreshWaits ∧ OnlyPort s u i ∧
                u.ports[i] = { a.gotCret p h.cret with rxF := h.fseq, bad := false })))))) ∧
  (∀ (i : PortId) (k : LinkKeys) (n : Nat) (h : Hdr) (clear body tag : Bytes) (s t : State), s.accepted i k n h clear body tag = t →
    (s.holdsJob (State.partIx h.part) h.job = false → OnlyPort s t i ∧ t.ports[i] = (s.ports[i].dropFrame h.part).free h.part h.vc) ∧
    (s.holdsJob (State.partIx h.part) h.job = true → h.dst = s.me → s.parts[State.partIx h.part].pstate = .resetting →
      OnlyPort s t i ∧ t.ports[i] = (s.ports[i].dropFrame h.part).free h.part h.vc)) ∧
  (∀ u : State, u.refreshWaits = { u with parts := u.refreshWaits.parts } ∧ ∀ p : PartId,
    u.refreshWaits.parts[p] = { u.parts[p] with card := { u.parts[p].card with table := u.refreshWaits.parts[p].card.table } })

/-- R244, R248, R258, R261, R264, R270: a frame slot of a port. A port that is UP goes on with a go-back, a frame in its own slot; else
sends the next frame of the slot's partition; a slot of no partition, of one that is closed, or with nothing to send carries IDLE.
While credits settle CRSYNC goes out; before, TRAIN frames with what this end has to say, in eight lane slices; from a refused port
filler; what the spec leaves open of both is free. A port that is off sends nothing. -/
def Obligations.FrameSlotsSent : Prop :=
  ∀ (i : PortId) (s v : State) (slot : Nat), v = s.dropPassed i → slot = v.ports[i].txc % 64 →
    (s.ports[i].state = .up →
      (∀ f rest r, v.ports[i].resend = f :: rest → (v.ports[i].replay.find? fun r => r.fseq == f && r.slot == slot) = some r →
        exec (.frameSlotSend i) s = .next (((v.modPort i fun o => { o with resend := rest }).emitData i slot f r.frame).refreshWaits)) ∧
      (∀ f rest, v.ports[i].resend = f :: rest → (v.ports[i].replay.find? fun r => r.fseq == f && r.slot == slot) = none →
        exec (.frameSlotSend i) s = .next ((v.emitIdle i slot).refreshWaits)) ∧
      (v.ports[i].resend = [] → (v.slotPart slot).filter v.slotsOpen = none →
        exec (.frameSlotSend i) s = .next ((v.emitIdle i slot).refreshWaits)) ∧
      (∀ p, v.ports[i].resend = [] → (v.slotPart slot).filter v.slotsOpen = some p →
        (v.slotVc i p slot = none → exec (.frameSlotSend i) s = .next ((v.emitIdle i slot).refreshWaits)) ∧
        (∀ vc w f, v.slotVc i p slot = some vc → v.takeOut i p vc = (w, some f) →
          exec (.frameSlotSend i) s = .next (((w.modPort i fun o => o.record1 f slot).emitData i slot w.ports[i].nextF f).refreshWaits)) ∧
        (∀ vc w, v.slotVc i p slot = some vc → v.takeOut i p vc = (w, none) →
          exec (.frameSlotSend i) s = .next ((w.emitIdle i slot).refreshWaits)))) ∧
    (s.ports[i].state = .train ∨ s.ports[i].state = .attest →
      (s.ports[i].keys.isSome = true → s.ports[i].say = [] → ∃ u, u = s.emit i (s.backHdr i 3 (s.ports[i].txc % 64)) true (zeros 256) [] false ∧
        exec (.frameSlotSend i) s = .next ((u.modPort i fun o =>
          { o with crSent := if o.crSent.contains (s.ports[i].txc % 64) then o.crSent else o.crSent ++ [s.ports[i].txc % 64] }).tryUp i)) ∧
      (s.ports[i].keys = none ∨ s.ports[i].say ≠ [] → ∃ t bs, exec (.frameSlotSend i) s = .next t ∧ t = { s with ports := t.ports, free := t.free } ∧
        PortsKept s t i ∧ bs.length + (s.ports[i].say.take 256).length = 272 ∧
        t.ports[i] = { s.ports[i] with wire := laneSlices ([4] ++ zeros 31 ++ s.ports[i].say.take 256 ++ bs), say := s.ports[i].say.drop 256 })) ∧
    (s.ports[i].state = .refused → ∃ t bs, exec (.frameSlotSend i) s = .next t ∧ t = { s with ports := t.ports, free := t.free } ∧
      PortsKept s t i ∧ bs.length = 304 ∧ t.ports[i] = { s.ports[i] with wire := laneSlices bs }) ∧
    (s.ports[i].state = .unused ∨ s.ports[i].state = .bypassed ∨ s.ports[i].state = .down ∨ s.ports[i].state = .hold →
      exec (.frameSlotSend i) s = .next s)

/-- R203, R455, R457, R459, R381, R382: the events of a partition reset, each only at its turn: the partition stops, its slices
flush or fail to, its memories are cleared, the self-test and the recentring follow, and the reset ends; 20 ms after its start
it is over at any event. A quantity found out of balance starts one (R31). Pouncing ends with its lines read back and its tests run, or
past its limit in FAILED. -/
def Obligations.ResetsAndPouncingRun : Prop :=
  (∀ (p : PartId) (s : State),
    (s.resetAt p = some 0 → exec (.partitionReset p none) s = .next ((s.stopPartition p).setReset p 1)) ∧
    (s.resetAt p ≠ some 0 → exec (.partitionReset p none) s = .next s) ∧
    (∀ (r : Fin 7) (u : State), u = s.raise p 0x44 (balSrc (r.val + 1)) 0 (r.val + 1) →
      (u.resetAt p = some 0 → exec (.partitionReset p (some r)) s = .next ((u.stopPartition p).setReset p 1)) ∧
      (u.resetAt p ≠ some 0 → exec (.partitionReset p (some r)) s = .next u)) ∧
    (s.resetAt p = some 1 →
      exec (.resetFlushDone p) s = .next ((((s.tilesOf p).foldl (fun s t => s.flushTile t) s).clearPartition p).setReset p 3) ∧
      exec (.flushTimeout p) s = .next (((s.raise p 0x41 0xFF 0 0).clearAtRest p).setReset p 3)) ∧
    (s.resetAt p ≠ some 1 → exec (.resetFlushDone p) s = .next s ∧ exec (.flushTimeout p) s = .next s) ∧
    (s.resetAt p = some 3 →
      (∃ t, exec (.selfTestDone p []) s = .next t ∧ OnlyPart s t p ∧
        t.parts[p] = { s.parts[p] with reset := s.parts[p].reset.map fun r => { r with ev := 4 } }) ∧
      ∀ fails, exec (.selfTestDone p fails) s =
        .next (((fails.filter fun f => s.partOf f.1 == some p).foldl (fun s f => s.raise p 0x45 f.1.val 0 f.2) s).setReset p 4)) ∧
    (s.resetAt p ≠ some 3 → ∀ f, exec (.selfTestDone p f) s = .next s) ∧
    (∀ bad u, s.resetAt p = some 4 → u = (bad.filter fun f => s.partOf f.1 == some p).foldl (fun s f => s.failChannel f.1 f.2 1) s →
      ((u.parts[p].reset.any (·.failed)) = true → exec (.recentreDone p bad) s = .next (u.endReset p)) ∧
      ((u.parts[p].reset.any (·.failed)) = false → exec (.recentreDone p bad) s = .next (State.endReset
        ((u.tilesOf p).foldl (fun s t => s.modTile t fun x => { x with chans := x.chans.map fun c => { c with selfRefresh := false } }) u) p))) ∧
    (s.resetAt p ≠ some 4 → ∀ l, exec (.recentreDone p l) s = .next s) ∧
    (∀ r u, s.parts[p].reset = some r → u = s.raise p 0x46 0x43 0 0 →
      (r.start + 20000000 ≤ s.clocks.jewel →
        (r.ev = 0 → exec (.resetOverrun p) s = .next (((u.stopPartition p).clearAtRest p).endReset p)) ∧
        (r.ev = 1 ∨ r.ev = 2 → exec (.resetOverrun p) s = .next ((u.clearAtRest p).endReset p)) ∧
        (3 ≤ r.ev → exec (.resetOverrun p) s = .next (u.endReset p))) ∧
      (s.clocks.jewel < r.start + 20000000 → exec (.resetOverrun p) s = .next s)) ∧
    (s.parts[p].reset = none → exec (.resetOverrun p) s = .next s) ∧
    (∀ q reads fails u, s.parts[p].pounce = some q → u = reads.foldl (fun s r => s.verifyLine p r) s →
      (s.allInit p = true → u.parts[p].pounce.isSome = true → exec (.pouncingDone p reads fails) s =
        .next (State.tryReady (State.endRestart (((u.selfTest p fails).endPounce p).episodeClose p)))) ∧
      (s.allInit p = true → u.parts[p].pounce = none → exec (.pouncingDone p reads fails) s =
        .next (State.tryReady (State.endRestart (u.episodeClose p)))) ∧
      (s.allInit p = false → exec (.pouncingDone p reads fails) s = .next s) ∧
      (q.start + pounceLimit q.deep ≤ s.clocks.jewel → exec (.pouncingOverrun p) s = .next (State.endRestart (s.raise p 0x48 0x43 0 0))) ∧
      (s.clocks.jewel < q.start + pounceLimit q.deep → exec (.pouncingOverrun p) s = .next s)) ∧
    (s.parts[p].pounce = none → (∀ l f, exec (.pouncingDone p l f) s = .next s) ∧ exec (.pouncingOverrun p) s = .next s)) ∧
  (∀ (p : PartId) (s : State) (x : TileId),
    (x ∈ s.tilesOf p → (s.stopPartition p).tiles[x].running = false ∧ (s.stopPartition p).tiles[x].ops = [] ∧
      (s.stopPartition p).tiles[x].chans = s.tiles[x].chans ∧
      (s.clearPartition p).tiles[x].sp = [] ∧ (s.clearPartition p).tiles[x].imem = [] ∧ (s.clearPartition p).tiles[x].ops = [] ∧
      (s.clearPartition p).tiles[x].n = 1024 ∧ (s.clearPartition p).tiles[x].reg = s.tiles[x].reg ∧
      (s.clearPartition p).tiles[x].chans = s.tiles[x].chans) ∧
    (x ∉ s.tilesOf p → (s.stopPartition p).tiles[x] = s.tiles[x] ∧ (s.clearPartition p).tiles[x] = s.tiles[x]))

/-! ## Starts, restarts, the host interface and debug (14, 15, 16, 17, 18) -/

/-- R446, R451, R455, R461, R462, R458: a module-fatal error, the watchdog's among them, is logged, ends every activity of a module
that runs, keeps what it stores, and restarts it; the fourth within 600 s turns the rails off and holds it; a trip or a ROM hold
governs. R362, R363: a service window ends and the next begins, at its moment of the Jewel's count, for the next partition; before an
image is applied the physical function alone is served. -/
def Obligations.ModuleRestarts : Prop :=
  (∀ (code : Byte) (d : BitVec 32) (s : State),
    ((code.toNat = 0x50 ∨ code.toNat = 0x53 ∨ code.toNat = 0x54 ∨ code.toNat = 0x55) → exec (.moduleRestart code d) s = .next (s.mfatal code.toNat 0x43 d.toNat)) ∧
    (code.toNat = 0x51 → ∀ src, (d.toNat, src) ∈ [(64, 0x41), (73, 0x40), (74, 0x42), (75, 0x43)] →
      exec (.moduleRestart code d) s = .next (s.mfatal 0x51 src d.toNat)) ∧
    (code.toNat = 0x52 → exec (.moduleRestart code d) s = .next (s.mfatal 0x52 0x50 d.toNat)) ∧
    (code.toNat < 0x50 ∨ 0x55 < code.toNat → exec (.moduleRestart code d) s = .next s)) ∧
  (∀ s : State, exec .jewelWatchdogExpiry s = .next (s.mfatal 0x54 0x43 0)) ∧
  (∀ (code src d : Nat) (s t : State), s.mfatal code src d = t →
    (s.board.tripLatch = true ∨ s.board.tripWait = true ∨ s.board.romHold = true ∨ (s.board.pwrGood = false ∧ code ≠ 0x52) → t = s) ∧
    (s.board.pwrGood = true → s.board.tripLatch = false → s.board.tripWait = false → s.board.romHold = false →
      t.boot.mstate = .restarting ∧ t.boot.nextCause = 3 ∧ t.board.lastCause = code ∧ t.board.restarting = some code ∧
      t.boot.image = none ∧ t.boot.phase = .none ∧ t.host.linkUp = false ∧ t.jewel.log = s.jewel.log.add s.clocks.jewel code src 0 d none false ∧
      (∀ p : PartId, t.parts[p] = { Part.fresh with
        win := { Window.empty with slots := if 4 ≤ s.restartsNow.length then [] else s.parts[p].win.slots } }) ∧
      (∀ x : TileId, t.tiles[x].sp = [] ∧ t.tiles[x].imem = [] ∧ t.tiles[x].ops = []) ∧
      t.boot.flash = s.boot.flash ∧ t.boot.fuses = s.boot.fuses ∧ t.pending = s.pending ∧
      (s.restartsNow.length < 4 → t.board.pwrGood = true ∧ t.board.restartHold = s.board.restartHold) ∧
      (4 ≤ s.restartsNow.length → t.board.pwrGood = false ∧ t.board.restartHold = true))) ∧
  (∀ (s : State) (w k : Nat), w = s.jewel.window → k = s.npart →
    (s.clocks.jewel < 10000000 * w → exec .jewelWindow s = .next s) ∧
    (10000000 * w ≤ s.clocks.jewel → ∃ t, exec .jewelWindow s = .next t ∧ t.jewel.window = w + 1 ∧
      (s.boot.image = none → w = 0 → t = { s.beginService none [0x04] with
        jewel := { (s.beginService none [0x04]).jewel with window := 1 } }) ∧
      (∀ a b u v : State, k ≠ 0 → w ≠ 0 → a = s.endWindow (some (State.partIx ((w - 1) % k))) → b = (a.endWindow none).beginService none [0x04] →
        u = (b.beginService (some (State.partIx (w % k))) [0x01, 0x02, 0x03, 0x04]).windowMessages (State.partIx (w % k)) →
        v = { u with jewel := { u.jewel with window := w + 1 } } → t = v.endRestart.advanceFuse)))

/-- R182, R477-R482, R519, R532: at power good a start begins, with a fresh secret of the Jewel's own key slot; the ROM chooses an
image, or holds where its own tests fail; PERST_N released, a start held for it goes on. A channel of a training start trains or fails;
a channel initialised holds no byte but zeros, and after its partition's last one the start's pouncing begins. -/
def Obligations.StartGoesOn : Prop :=
  (∀ (cert a b : Bool) (s : State),
    (s.board.pwrGood = true → s.boot.phase = .none → s.board.oscLost = false →
      exec (.powerGood true cert a b) s = .next (s.beginStart cert a b).afterChoice ∧
      exec (.powerGood false cert a b) s = .next (s.beginStart cert a b).holdRom ∧
      ((s.beginStart cert a b).holdRom).board.pwrGood = false ∧ ((s.beginStart cert a b).holdRom).board.romHold = true) ∧
    (s.board.pwrGood = false ∨ s.boot.phase ≠ .none ∨ s.board.oscLost = true → ∀ r, exec (.powerGood r cert a b) s = .next s) ∧
    (∃ k, (s.beginStart cert a b).jewel.slot0 = some k ∧ k.length = 32) ∧
    ((s.beginStart cert a b).boot.mstate = .booting ∧ (s.beginStart cert a b).boot.derived = true ∧ (s.beginStart cert a b).clocks.jewel = 0)) ∧
  (∀ s u : State,
    (s.board.vauxOk = true → s.board.perstN = false →
      u = { s with board := { s.board with perstN := true, perstReset := false, lastEdge := s.clocks.vaux } } →
      (s.boot.phase = .heldT2 → exec .perstNRelease s = .next u.applyImage) ∧ (s.boot.phase ≠ .heldT2 → exec .perstNRelease s = .next u)) ∧
    (s.board.vauxOk = false ∨ s.board.perstN = true → exec .perstNRelease s = .next s)) ∧
  (∀ (x : TileId) (k : ChanId) (p : PartId) (s u v : State), s.partOf x = some p →
    u = s.modChan x k (fun c => { c with trained := true, selfRefresh := false }) → v = s.failChannel x k 1 →
    (s.boot.phase = .training → s.tiles[x].chans[k].trained = false → s.tiles[x].chans[k].failed = 0 →
      exec (.channelTrainingDone x k true) s = .next (State.tryReady
        (State.endRestart (if u.allTrained p && u.parts[p].pstate == .off then u.enterScrub p else u))) ∧
      exec (.channelTrainingDone x k false) s = .next (State.tryReady
        (State.endRestart (if v.allTrained p && v.parts[p].pstate == .off then v.enterScrub p else v)))) ∧
    (s.boot.phase ≠ .training ∨ s.tiles[x].chans[k].trained = true ∨ s.tiles[x].chans[k].failed ≠ 0 →
      ∀ b, exec (.channelTrainingDone x k b) s = .next s)) ∧
  (∀ (x : TileId) (k : ChanId) (p : PartId) (q : Pounce) (s u : State), s.partOf x = some p → s.parts[p].pounce = some q →
    u = s.modChan x k (fun c => { c with mem := [], tree := none, wiped := none, init := true, patrol := 0 }) →
    (s.tiles[x].chans[k].init = false → u.allInit p = true →
      exec (.channelInitDone x k) s = .next ((u.beginPounce p false none true).modPart p fun y => { y with pounce := some q })) ∧
    (s.tiles[x].chans[k].init = false → u.allInit p = false → exec (.channelInitDone x k) s = .next u) ∧
    (s.tiles[x].chans[k].init = true → exec (.channelInitDone x k) s = .next s)) ∧
  (∀ (x : TileId) (k : ChanId) (p : PartId) (s : State),
    (s.partOf x = none → (∀ b, exec (.channelTrainingDone x k b) s = .next s) ∧ exec (.channelInitDone x k) s = .next s) ∧
    (s.partOf x = some p → s.parts[p].pounce = none → exec (.channelInitDone x k) s = .next s))

/-- R479, R493, R496, R499, R501-R504: the link comes up with its slot sequences at their start, and goes down with a function-level
reset of every function; a reset of one function, of the physical function, and the clearing of VF Enable; Bus Master Enable of
a live function. None of these acts before the module answers configuration requests, which in recovery the physical function
alone does. -/
def Obligations.FunctionsResetAndEnabled : Prop :=
  ∀ s : State,
    (s.host.linkUp = true →
      exec .dlDown s = .next (s.partsUsed.foldl (fun s p => s.flr p) (State.pfFlr { s with host := { s.host with linkUp := false } })) ∧
      (∀ r w m, exec (.dlUp r w m) s = .next s) ∧
      (s.boot.phase = .recovery → exec .pfFunctionLevelReset s = .next s.pfFlr ∧ ∀ p, exec (.functionLevelReset p) s = .next s) ∧
      (s.boot.phase ≠ .recovery → s.boot.phase ≠ .ready → exec .pfFunctionLevelReset s = .next s ∧
        (∀ p, exec (.functionLevelReset p) s = .next s) ∧ (∀ n on, exec (.vfEnable n on) s = .next s) ∧
        ∀ f on, exec (.busMasterEnable f on) s = .next s)) ∧
    (s.host.linkUp = true → s.boot.phase = .ready →
      (∀ p, s.fnLive (some p) = true → exec (.functionLevelReset p) s = .next (s.flr p)) ∧
      (∀ p, s.fnLive (some p) = false → exec (.functionLevelReset p) s = .next s) ∧
      exec .pfFunctionLevelReset s = .next s.pfFlr ∧
      (s.host.vfEnable = false → ∀ n on, exec (.vfEnable n on) s = .next
        { s with host := { s.host with numVfs := n.getD s.host.numVfs, vfEnable := on } }) ∧
      (s.host.vfEnable = true → ∀ n,
        exec (.vfEnable n true) s = .next { s with host := { s.host with vfEnable := true } } ∧
        exec (.vfEnable n false) s = .next ((s.partsUsed.filter fun p => s.fnLive (some p)).foldl (fun s p => s.flr p)
          { s with host := { s.host with vfEnable := false } })) ∧
      (∀ f on, s.fnLive f = true → (s.dma f).flr = false →
        ∃ t, exec (.busMasterEnable f on) s = .next t ∧ OnlyFn s t f ∧ (t.dma f) = { s.dma f with bme := on }) ∧
      (∀ f on, s.fnLive f = false ∨ (s.dma f).flr = true → exec (.busMasterEnable f on) s = .next s)) ∧
    (s.host.linkUp = false →
      (∀ rate width mps, s.board.perstN = true → s.boot.phase ≠ .none → s.boot.phase ≠ .romHold →
        exec (.dlUp rate width mps) s = .next { s with host := { s.host with
          linkUp := true
          rate := rate
          width := width
          mps := min 3 mps
          credit := creditOf rate width mps
          wslot := 0
          rslot := 0
          pfWslot := 0
          pfRslot := 0
          upAt := s.clocks.hostIf } }) ∧
      (∀ rate width mps, s.board.perstN = false ∨ s.boot.phase = .none ∨ s.boot.phase = .romHold → exec (.dlUp rate width mps) s = .next s) ∧
      (∀ p, exec (.functionLevelReset p) s = .next s) ∧ exec .pfFunctionLevelReset s = .next s ∧ exec .dlDown s = .next s ∧
      (∀ n on, exec (.vfEnable n on) s = .next s) ∧ ∀ f on, exec (.busMasterEnable f on) s = .next s)

/-- R496-R498: a slot whose time has come belongs to the function the schedule gives it, or to the physical function, which issues
its allotment if it may; the sequence moves on. A read request that completes gives each read it carries its part of the data; one
that fails or times out fails them. -/
def Obligations.HostSlotsAllotted : Prop :=
  ∀ (pf w : Bool) (s : State),
    (s.slotDue pf w = false → exec (.hostDmaSlot pf w) s = .next s) ∧
    (s.slotDue pf w = true →
      (pf = true → exec (.hostDmaSlot pf w) s = .next ((s.nextSlot pf w).allot none w)) ∧
      (∀ p : PartId, pf = false → s.slotPart (s.slotIndex pf w % 64) = some p.val →
        exec (.hostDmaSlot pf w) s = .next ((s.nextSlot pf w).allot (some p) w) ∧
        (s.mayIssue (some p) = false → ∃ t, exec (.hostDmaSlot pf w) s = .next t ∧
          t = { s with host := { s.host with wslot := t.host.wslot, rslot := t.host.rslot } } ∧ t.slotIndex false w = s.slotIndex false w + 1)) ∧
      (pf = false → s.slotPart (s.slotIndex pf w % 64) = none → exec (.hostDmaSlot pf w) s = .next (s.nextSlot pf w))) ∧
    (∀ (id : Nat) (bs : Bytes) (p : PartId) (rs : List HostRead) (base : Nat), s.readFn id = some p →
      rs = (s.dma (some p)).reads.filter (·.issued == some id) → base = (rs.head?.map (·.addr)).getD 0 →
      exec (.dmaReadCompletion id true bs) s = .next (rs.foldl (fun s r => s.readDone p r (some (fit r.len (sub bs (r.addr - base) r.len)))) s) ∧
      exec (.dmaReadCompletion id false bs) s = .next (rs.foldl (fun s r => s.readDone p r none) s) ∧
      exec (.completionTimeout id) s = .next (rs.foldl (fun s r => s.readDone p r none) s)) ∧
    (∀ id ok bs, s.readFn id = none → exec (.dmaReadCompletion id ok bs) s = .next s ∧ exec (.completionTimeout id) s = .next s)

/-- R385, R500: with the link up, in development mode and READY, a debug write sets HALT, and STEP of a halted tile; the scratchpad,
the instruction memory and the regulator of a halted tile take debug writes, those of another none. Else they change nothing.
R451, R452: the oldest error waiting for a log is written to its next rotating entry, and an episode's first one to entry 0 too. -/
def Obligations.DebugAndLogWrites : Prop :=
  ∀ (x : TileId) (s : State),
    (s.debugOpen = true → ∀ v : Byte, ∃ t, exec (.debugControlWrite x v) s = .next t ∧ OnlyTile s t x ∧
      t.tiles[x] = { s.tiles[x] with halt := v.getLsbD 0, stepReq := v.getLsbD 0 && v.getLsbD 1 }) ∧
    (s.debugOpen = true → s.tiles[x].halt = true → ∀ off d, ∃ t, exec (.debugMemoryWrite x off d) s = .next t ∧ OnlyTile s t x ∧
      t.tiles[x] = { s.tiles[x] with
        sp := t.tiles[x].sp
        poison := t.tiles[x].poison
        spErr := t.tiles[x].spErr
        imem := t.tiles[x].imem
        imErr := t.tiles[x].imErr
        reg := t.tiles[x].reg
        rgErr := t.tiles[x].rgErr } ∧
      (0 < d.length → off + d.length ≤ 0x400000 → t.tiles[x].sp = s.tiles[x].sp.write off d ∧ t.tiles[x].imem = s.tiles[x].imem ∧
        t.tiles[x].reg = s.tiles[x].reg) ∧
      (0 < d.length → 0x400000 ≤ off → off + d.length ≤ 0x440000 → t.tiles[x].sp = s.tiles[x].sp ∧
        t.tiles[x].imem = s.tiles[x].imem.write (off - 0x400000) d ∧ t.tiles[x].reg = s.tiles[x].reg) ∧
      (0 < d.length → 0x440000 ≤ off → off + d.length ≤ 0x460000 → t.tiles[x].sp = s.tiles[x].sp ∧
        t.tiles[x].imem = s.tiles[x].imem ∧ t.tiles[x].reg = s.tiles[x].reg.write (off - 0x440000) d)) ∧
    (s.debugOpen = true → s.tiles[x].halt = false → ∀ off d, exec (.debugMemoryWrite x off d) s = .next s) ∧
    (s.debugOpen = false → (∀ v, exec (.debugControlWrite x v) s = .next s) ∧ ∀ off d, exec (.debugMemoryWrite x off d) s = .next s) ∧
    (∀ (f : Fn) (l : ErrLog), l = (match f with | none => s.jewel.log | some p => s.parts[p].log) →
      ∃ t, exec (.logEntryWrite f) s = .next t ∧ OnlyFn s t f ∧ (match f with | none => t.jewel.log | some p => t.parts[p].log) = l.write ∧
        (l.queue = [] → l.write = l) ∧
        ∀ w q, l.queue = w :: q → l.write.queue = q ∧ l.write.written = l.written + 1 ∧ l.write.drop = false ∧
          (1 + l.written % 63, { w.entry with drop := l.drop }) ∈ l.write.entries ∧
          (w.opens = true → (0, { w.entry with drop := l.drop, pin := true }) ∈ l.write.entries))
end

