-- ==== Sys2Proof/Laws/Mem.lean ====
section
/-! SUPPORT. Byte memories: what a read gives after each operation, and that every operation keeps the canonical form. -/

namespace Sys2Proof.Machine

namespace Mem

theorem wfFrom_mono (d : Byte) (m : Mem) {lo lo' : Nat} (h : lo' ≤ lo) (w : wfFrom d lo m = true) : wfFrom d lo' m = true := by
  cases m with
  | nil => rfl
  | cons c m => simp only [wfFrom, Bool.and_eq_true, decide_eq_true_eq] at *; exact ⟨⟨by omega, w.1.2⟩, w.2⟩

theorem getD_insert (d : Byte) (m : Mem) (x y : Nat) (v : Byte) :
    getD d (insert m x v) y = if y = x then v else getD d m y := by
  induction m with
  | nil => simp [insert, getD]
  | cons c m ih =>
    obtain ⟨a, b⟩ := c
    simp only [insert]
    split
    · simp only [getD]
    · split
      · subst_vars; simp only [getD]; split <;> rfl
      · simp only [getD, ih]; split <;> split <;> simp_all

theorem getD_erase (d : Byte) (m : Mem) (x y : Nat) : getD d (erase m x) y = if y = x then d else getD d m y := by
  induction m with
  | nil => simp [erase, getD]
  | cons c m ih =>
    obtain ⟨a, b⟩ := c
    simp only [erase]
    split
    · subst_vars; simp only [ih, getD]; split <;> simp_all
    · simp only [getD, ih]; split <;> split <;> simp_all

theorem wfFrom_insert (d : Byte) (m : Mem) (lo x : Nat) (v : Byte) (w : wfFrom d lo m = true) (h : lo ≤ x) (hv : v ≠ d) :
    wfFrom d lo (insert m x v) = true := by
  induction m generalizing lo with
  | nil => simp [insert, wfFrom, h, hv]
  | cons c m ih =>
    obtain ⟨a, b⟩ := c
    simp only [wfFrom, Bool.and_eq_true, decide_eq_true_eq] at w
    simp only [insert]
    split
    · simp only [wfFrom, Bool.and_eq_true, decide_eq_true_eq, bne_iff_ne]; exact ⟨⟨h, hv⟩, ⟨by omega, by simpa using w.1.2⟩, w.2⟩
    · split
      · simp only [wfFrom, Bool.and_eq_true, decide_eq_true_eq, bne_iff_ne]; subst_vars; exact ⟨⟨h, hv⟩, w.2⟩
      · simp only [wfFrom, Bool.and_eq_true, decide_eq_true_eq]; exact ⟨w.1, ih (a + 1) w.2 (by omega)⟩

theorem wfFrom_erase (d : Byte) (m : Mem) (lo x : Nat) (w : wfFrom d lo m = true) : wfFrom d lo (erase m x) = true := by
  induction m generalizing lo with
  | nil => rfl
  | cons c m ih =>
    obtain ⟨a, b⟩ := c
    simp only [wfFrom, Bool.and_eq_true, decide_eq_true_eq] at w
    simp only [erase]
    split
    · exact wfFrom_mono d _ (by omega) (ih (a + 1) w.2)
    · simp only [wfFrom, Bool.and_eq_true, decide_eq_true_eq]; exact ⟨w.1, ih (a + 1) w.2⟩

/-- A byte just written reads back, and every other byte as before. -/
theorem getD_putD (d : Byte) (m : Mem) (x y : Nat) (v : Byte) :
    getD d (putD d m x v) y = if y = x then v else getD d m y := by
  unfold putD
  split
  · subst_vars; exact getD_erase v m x y
  · exact getD_insert d m x y v

/-- Writing a byte keeps the canonical form. -/
theorem wfD_putD (d : Byte) (m : Mem) (x : Nat) (v : Byte) (w : wfD d m = true) : wfD d (putD d m x v) = true := by
  unfold putD
  split
  · exact wfFrom_erase d m 0 x w
  · rename_i h; exact wfFrom_insert d m 0 x v w (by omega) h

/-- Writing consecutive bytes keeps the canonical form. -/
theorem wfD_writeD (d : Byte) (m : Mem) (x : Nat) (bs : Bytes) (w : wfD d m = true) : wfD d (writeD d m x bs) = true := by
  induction bs generalizing m x with
  | nil => exact w
  | cons b bs ih => exact ih _ _ (wfD_putD d m x b w)

/-- What a byte reads as after consecutive bytes have been written. -/
theorem getD_writeD (d : Byte) (m : Mem) (x : Nat) (bs : Bytes) (y : Nat) :
    getD d (writeD d m x bs) y = if x ≤ y ∧ y < x + bs.length then bs.getD (y - x) d else getD d m y := by
  induction bs generalizing m x with
  | nil =>
    have : ¬ (x ≤ y ∧ y < x + ([] : Bytes).length) := by simp
    simp only [this, ↓reduceIte]; rfl
  | cons b bs ih =>
    simp only [writeD, ih, getD_putD, List.length_cons]
    by_cases h : y = x
    · subst h
      have h1 : ¬ (y + 1 ≤ y ∧ y < y + 1 + bs.length) := by omega
      have h2 : y ≤ y ∧ y < y + (bs.length + 1) := by omega
      simp [h1]
    · by_cases k : x + 1 ≤ y ∧ y < x + 1 + bs.length
      · have k2 : x ≤ y ∧ y < x + (bs.length + 1) := by omega
        have e : y - x = (y - (x + 1)) + 1 := by omega
        rw [if_pos k, if_pos k2, e, List.getD_cons_succ]
      · have k2 : ¬ (x ≤ y ∧ y < x + (bs.length + 1)) := by omega
        rw [if_neg k, if_neg k2, if_neg h]

/-- Dropping cells keeps the canonical form. -/
theorem wfFrom_filter (d : Byte) (m : Mem) (lo : Nat) (f : Host.Cell → Bool) (w : wfFrom d lo m = true) :
    wfFrom d lo (m.filter f) = true := by
  induction m generalizing lo with
  | nil => rfl
  | cons c m ih =>
    obtain ⟨a, b⟩ := c
    simp only [wfFrom, Bool.and_eq_true, decide_eq_true_eq] at w
    simp only [List.filter]
    split
    · simp only [wfFrom, Bool.and_eq_true, decide_eq_true_eq]; exact ⟨w.1, ih (a + 1) w.2⟩
    · exact wfFrom_mono d _ (by omega) (ih (a + 1) w.2)

theorem wfD_filter (d : Byte) (m : Mem) (f : Host.Cell → Bool) (w : wfD d m = true) : wfD d (m.filter f) = true :=
  wfFrom_filter d m 0 f w

/-- A byte whose address a filter keeps reads as before. -/
theorem getD_filter (d : Byte) (m : Mem) (f : Host.Cell → Bool) (y : Nat) (h : ∀ b, f (y, b) = true) :
    getD d (m.filter f) y = getD d m y := by
  induction m with
  | nil => rfl
  | cons c m ih =>
    obtain ⟨a, b⟩ := c
    simp only [List.filter]
    split
    · simp only [getD, ih]
    · rename_i k
      by_cases e : y = a
      · subst e; simp [h b] at k
      · simp only [getD, e, ↓reduceIte, ih]

end Mem

end Sys2Proof.Machine
end

