-- ==== Sys2Proof/Laws/Keep.lean ====
section
/-! SUPPORT. What a fold or a choice over states keeps: one lemma for each field of State. -/

namespace Sys2Proof.Machine

theorem foldl_keeps {σ α β : Type} (g : σ → β) (f : σ → α → σ) (h : ∀ s a, g (f s a) = g s) (l : List α) (s : σ) :
    g (l.foldl f s) = g s := by
  induction l generalizing s with
  | nil => rfl
  | cons a l ih => simp [ih, h]

@[simp] theorem foldl_boot {α : Type} (f : State → α → State) (h : ∀ s a, (f s a).boot = s.boot) (l : List α) (s : State) :
    (l.foldl f s).boot = s.boot := foldl_keeps (·.boot) f h l s

@[simp] theorem foldl_fst_boot {α β : Type} (f : State × β → α → State × β) (h : ∀ s a, (f s a).1.boot = s.1.boot) (l : List α)
    (s : State × β) : (l.foldl f s).1.boot = s.1.boot := foldl_keeps (·.1.boot) f h l s

@[simp] theorem foldl_snd_boot {α β : Type} (f : β × State → α → β × State) (h : ∀ s a, (f s a).2.boot = s.2.boot) (l : List α)
    (s : β × State) : (l.foldl f s).2.boot = s.2.boot := foldl_keeps (·.2.boot) f h l s

@[simp] theorem foldl_board {α : Type} (f : State → α → State) (h : ∀ s a, (f s a).board = s.board) (l : List α) (s : State) :
    (l.foldl f s).board = s.board := foldl_keeps (·.board) f h l s

@[simp] theorem foldl_fst_board {α β : Type} (f : State × β → α → State × β) (h : ∀ s a, (f s a).1.board = s.1.board) (l : List α)
    (s : State × β) : (l.foldl f s).1.board = s.1.board := foldl_keeps (·.1.board) f h l s

@[simp] theorem foldl_snd_board {α β : Type} (f : β × State → α → β × State) (h : ∀ s a, (f s a).2.board = s.2.board) (l : List α)
    (s : β × State) : (l.foldl f s).2.board = s.2.board := foldl_keeps (·.2.board) f h l s

@[simp] theorem foldl_clocks {α : Type} (f : State → α → State) (h : ∀ s a, (f s a).clocks = s.clocks) (l : List α) (s : State) :
    (l.foldl f s).clocks = s.clocks := foldl_keeps (·.clocks) f h l s

@[simp] theorem foldl_fst_clocks {α β : Type} (f : State × β → α → State × β) (h : ∀ s a, (f s a).1.clocks = s.1.clocks) (l : List α)
    (s : State × β) : (l.foldl f s).1.clocks = s.1.clocks := foldl_keeps (·.1.clocks) f h l s

@[simp] theorem foldl_snd_clocks {α β : Type} (f : β × State → α → β × State) (h : ∀ s a, (f s a).2.clocks = s.2.clocks) (l : List α)
    (s : β × State) : (l.foldl f s).2.clocks = s.2.clocks := foldl_keeps (·.2.clocks) f h l s

@[simp] theorem foldl_host {α : Type} (f : State → α → State) (h : ∀ s a, (f s a).host = s.host) (l : List α) (s : State) :
    (l.foldl f s).host = s.host := foldl_keeps (·.host) f h l s

@[simp] theorem foldl_fst_host {α β : Type} (f : State × β → α → State × β) (h : ∀ s a, (f s a).1.host = s.1.host) (l : List α)
    (s : State × β) : (l.foldl f s).1.host = s.1.host := foldl_keeps (·.1.host) f h l s

@[simp] theorem foldl_snd_host {α β : Type} (f : β × State → α → β × State) (h : ∀ s a, (f s a).2.host = s.2.host) (l : List α)
    (s : β × State) : (l.foldl f s).2.host = s.2.host := foldl_keeps (·.2.host) f h l s

@[simp] theorem foldl_parts {α : Type} (f : State → α → State) (h : ∀ s a, (f s a).parts = s.parts) (l : List α) (s : State) :
    (l.foldl f s).parts = s.parts := foldl_keeps (·.parts) f h l s

@[simp] theorem foldl_fst_parts {α β : Type} (f : State × β → α → State × β) (h : ∀ s a, (f s a).1.parts = s.1.parts) (l : List α)
    (s : State × β) : (l.foldl f s).1.parts = s.1.parts := foldl_keeps (·.1.parts) f h l s

@[simp] theorem foldl_snd_parts {α β : Type} (f : β × State → α → β × State) (h : ∀ s a, (f s a).2.parts = s.2.parts) (l : List α)
    (s : β × State) : (l.foldl f s).2.parts = s.2.parts := foldl_keeps (·.2.parts) f h l s

@[simp] theorem foldl_pf {α : Type} (f : State → α → State) (h : ∀ s a, (f s a).pf = s.pf) (l : List α) (s : State) :
    (l.foldl f s).pf = s.pf := foldl_keeps (·.pf) f h l s

@[simp] theorem foldl_fst_pf {α β : Type} (f : State × β → α → State × β) (h : ∀ s a, (f s a).1.pf = s.1.pf) (l : List α)
    (s : State × β) : (l.foldl f s).1.pf = s.1.pf := foldl_keeps (·.1.pf) f h l s

@[simp] theorem foldl_snd_pf {α β : Type} (f : β × State → α → β × State) (h : ∀ s a, (f s a).2.pf = s.2.pf) (l : List α)
    (s : β × State) : (l.foldl f s).2.pf = s.2.pf := foldl_keeps (·.2.pf) f h l s

@[simp] theorem foldl_tiles {α : Type} (f : State → α → State) (h : ∀ s a, (f s a).tiles = s.tiles) (l : List α) (s : State) :
    (l.foldl f s).tiles = s.tiles := foldl_keeps (·.tiles) f h l s

@[simp] theorem foldl_fst_tiles {α β : Type} (f : State × β → α → State × β) (h : ∀ s a, (f s a).1.tiles = s.1.tiles) (l : List α)
    (s : State × β) : (l.foldl f s).1.tiles = s.1.tiles := foldl_keeps (·.1.tiles) f h l s

@[simp] theorem foldl_snd_tiles {α β : Type} (f : β × State → α → β × State) (h : ∀ s a, (f s a).2.tiles = s.2.tiles) (l : List α)
    (s : β × State) : (l.foldl f s).2.tiles = s.2.tiles := foldl_keeps (·.2.tiles) f h l s

@[simp] theorem foldl_jewel {α : Type} (f : State → α → State) (h : ∀ s a, (f s a).jewel = s.jewel) (l : List α) (s : State) :
    (l.foldl f s).jewel = s.jewel := foldl_keeps (·.jewel) f h l s

@[simp] theorem foldl_fst_jewel {α β : Type} (f : State × β → α → State × β) (h : ∀ s a, (f s a).1.jewel = s.1.jewel) (l : List α)
    (s : State × β) : (l.foldl f s).1.jewel = s.1.jewel := foldl_keeps (·.1.jewel) f h l s

@[simp] theorem foldl_snd_jewel {α β : Type} (f : β × State → α → β × State) (h : ∀ s a, (f s a).2.jewel = s.2.jewel) (l : List α)
    (s : β × State) : (l.foldl f s).2.jewel = s.2.jewel := foldl_keeps (·.2.jewel) f h l s

@[simp] theorem foldl_ports {α : Type} (f : State → α → State) (h : ∀ s a, (f s a).ports = s.ports) (l : List α) (s : State) :
    (l.foldl f s).ports = s.ports := foldl_keeps (·.ports) f h l s

@[simp] theorem foldl_fst_ports {α β : Type} (f : State × β → α → State × β) (h : ∀ s a, (f s a).1.ports = s.1.ports) (l : List α)
    (s : State × β) : (l.foldl f s).1.ports = s.1.ports := foldl_keeps (·.1.ports) f h l s

@[simp] theorem foldl_snd_ports {α β : Type} (f : β × State → α → β × State) (h : ∀ s a, (f s a).2.ports = s.2.ports) (l : List α)
    (s : β × State) : (l.foldl f s).2.ports = s.2.ports := foldl_keeps (·.2.ports) f h l s

@[simp] theorem foldl_hatband {α : Type} (f : State → α → State) (h : ∀ s a, (f s a).hatband = s.hatband) (l : List α) (s : State) :
    (l.foldl f s).hatband = s.hatband := foldl_keeps (·.hatband) f h l s

@[simp] theorem foldl_fst_hatband {α β : Type} (f : State × β → α → State × β) (h : ∀ s a, (f s a).1.hatband = s.1.hatband) (l : List α)
    (s : State × β) : (l.foldl f s).1.hatband = s.1.hatband := foldl_keeps (·.1.hatband) f h l s

@[simp] theorem foldl_snd_hatband {α β : Type} (f : β × State → α → β × State) (h : ∀ s a, (f s a).2.hatband = s.2.hatband) (l : List α)
    (s : β × State) : (l.foldl f s).2.hatband = s.2.hatband := foldl_keeps (·.2.hatband) f h l s

@[simp] theorem foldl_engines {α : Type} (f : State → α → State) (h : ∀ s a, (f s a).engines = s.engines) (l : List α) (s : State) :
    (l.foldl f s).engines = s.engines := foldl_keeps (·.engines) f h l s

@[simp] theorem foldl_fst_engines {α β : Type} (f : State × β → α → State × β) (h : ∀ s a, (f s a).1.engines = s.1.engines) (l : List α)
    (s : State × β) : (l.foldl f s).1.engines = s.1.engines := foldl_keeps (·.1.engines) f h l s

@[simp] theorem foldl_snd_engines {α β : Type} (f : β × State → α → β × State) (h : ∀ s a, (f s a).2.engines = s.2.engines) (l : List α)
    (s : β × State) : (l.foldl f s).2.engines = s.2.engines := foldl_keeps (·.2.engines) f h l s

@[simp] theorem foldl_free {α : Type} (f : State → α → State) (h : ∀ s a, (f s a).free = s.free) (l : List α) (s : State) :
    (l.foldl f s).free = s.free := foldl_keeps (·.free) f h l s

@[simp] theorem foldl_fst_free {α β : Type} (f : State × β → α → State × β) (h : ∀ s a, (f s a).1.free = s.1.free) (l : List α)
    (s : State × β) : (l.foldl f s).1.free = s.1.free := foldl_keeps (·.1.free) f h l s

@[simp] theorem foldl_snd_free {α β : Type} (f : β × State → α → β × State) (h : ∀ s a, (f s a).2.free = s.2.free) (l : List α)
    (s : β × State) : (l.foldl f s).2.free = s.2.free := foldl_keeps (·.2.free) f h l s

@[simp] theorem foldl_pending {α : Type} (f : State → α → State) (h : ∀ s a, (f s a).pending = s.pending) (l : List α) (s : State) :
    (l.foldl f s).pending = s.pending := foldl_keeps (·.pending) f h l s

@[simp] theorem foldl_fst_pending {α β : Type} (f : State × β → α → State × β) (h : ∀ s a, (f s a).1.pending = s.1.pending) (l : List α)
    (s : State × β) : (l.foldl f s).1.pending = s.1.pending := foldl_keeps (·.1.pending) f h l s

@[simp] theorem foldl_snd_pending {α β : Type} (f : β × State → α → β × State) (h : ∀ s a, (f s a).2.pending = s.2.pending) (l : List α)
    (s : β × State) : (l.foldl f s).2.pending = s.2.pending := foldl_keeps (·.2.pending) f h l s

@[simp] theorem foldl_boot_flash {α : Type} (f : State → α → State) (h : ∀ s a, (f s a).boot.flash = s.boot.flash) (l : List α) (s : State) :
    (l.foldl f s).boot.flash = s.boot.flash := foldl_keeps (·.boot.flash) f h l s

@[simp] theorem foldl_fst_boot_flash {α β : Type} (f : State × β → α → State × β) (h : ∀ s a, (f s a).1.boot.flash = s.1.boot.flash) (l : List α)
    (s : State × β) : (l.foldl f s).1.boot.flash = s.1.boot.flash := foldl_keeps (·.1.boot.flash) f h l s

@[simp] theorem foldl_snd_boot_flash {α β : Type} (f : β × State → α → β × State) (h : ∀ s a, (f s a).2.boot.flash = s.2.boot.flash) (l : List α)
    (s : β × State) : (l.foldl f s).2.boot.flash = s.2.boot.flash := foldl_keeps (·.2.boot.flash) f h l s

@[simp] theorem foldl_boot_fuses {α : Type} (f : State → α → State) (h : ∀ s a, (f s a).boot.fuses = s.boot.fuses) (l : List α) (s : State) :
    (l.foldl f s).boot.fuses = s.boot.fuses := foldl_keeps (·.boot.fuses) f h l s

@[simp] theorem foldl_fst_boot_fuses {α β : Type} (f : State × β → α → State × β) (h : ∀ s a, (f s a).1.boot.fuses = s.1.boot.fuses) (l : List α)
    (s : State × β) : (l.foldl f s).1.boot.fuses = s.1.boot.fuses := foldl_keeps (·.1.boot.fuses) f h l s

@[simp] theorem foldl_snd_boot_fuses {α β : Type} (f : β × State → α → β × State) (h : ∀ s a, (f s a).2.boot.fuses = s.2.boot.fuses) (l : List α)
    (s : β × State) : (l.foldl f s).2.boot.fuses = s.2.boot.fuses := foldl_keeps (·.2.boot.fuses) f h l s

@[simp] theorem foldl_boot_seed {α : Type} (f : State → α → State) (h : ∀ s a, (f s a).boot.seed = s.boot.seed) (l : List α) (s : State) :
    (l.foldl f s).boot.seed = s.boot.seed := foldl_keeps (·.boot.seed) f h l s

@[simp] theorem foldl_fst_boot_seed {α β : Type} (f : State × β → α → State × β) (h : ∀ s a, (f s a).1.boot.seed = s.1.boot.seed) (l : List α)
    (s : State × β) : (l.foldl f s).1.boot.seed = s.1.boot.seed := foldl_keeps (·.1.boot.seed) f h l s

@[simp] theorem foldl_snd_boot_seed {α β : Type} (f : β × State → α → β × State) (h : ∀ s a, (f s a).2.boot.seed = s.2.boot.seed) (l : List α)
    (s : β × State) : (l.foldl f s).2.boot.seed = s.2.boot.seed := foldl_keeps (·.2.boot.seed) f h l s

@[simp] theorem foldl_boot_dpk {α : Type} (f : State → α → State) (h : ∀ s a, (f s a).boot.dpk = s.boot.dpk) (l : List α) (s : State) :
    (l.foldl f s).boot.dpk = s.boot.dpk := foldl_keeps (·.boot.dpk) f h l s

@[simp] theorem foldl_fst_boot_dpk {α β : Type} (f : State × β → α → State × β) (h : ∀ s a, (f s a).1.boot.dpk = s.1.boot.dpk) (l : List α)
    (s : State × β) : (l.foldl f s).1.boot.dpk = s.1.boot.dpk := foldl_keeps (·.1.boot.dpk) f h l s

@[simp] theorem foldl_snd_boot_dpk {α β : Type} (f : β × State → α → β × State) (h : ∀ s a, (f s a).2.boot.dpk = s.2.boot.dpk) (l : List α)
    (s : β × State) : (l.foldl f s).2.boot.dpk = s.2.boot.dpk := foldl_keeps (·.2.boot.dpk) f h l s

@[simp] theorem ite_boot (c : Prop) [Decidable c] (a b : State) :
    (if c then a else b).boot = if c then a.boot else b.boot := apply_ite (·.boot) c a b

@[simp] theorem ite_fst_boot {α : Type} (c : Prop) [Decidable c] (a b : State × α) :
    (if c then a else b).1.boot = if c then a.1.boot else b.1.boot := apply_ite (·.1.boot) c a b

@[simp] theorem ite_board (c : Prop) [Decidable c] (a b : State) :
    (if c then a else b).board = if c then a.board else b.board := apply_ite (·.board) c a b

@[simp] theorem ite_fst_board {α : Type} (c : Prop) [Decidable c] (a b : State × α) :
    (if c then a else b).1.board = if c then a.1.board else b.1.board := apply_ite (·.1.board) c a b

@[simp] theorem ite_clocks (c : Prop) [Decidable c] (a b : State) :
    (if c then a else b).clocks = if c then a.clocks else b.clocks := apply_ite (·.clocks) c a b

@[simp] theorem ite_fst_clocks {α : Type} (c : Prop) [Decidable c] (a b : State × α) :
    (if c then a else b).1.clocks = if c then a.1.clocks else b.1.clocks := apply_ite (·.1.clocks) c a b

@[simp] theorem ite_host (c : Prop) [Decidable c] (a b : State) :
    (if c then a else b).host = if c then a.host else b.host := apply_ite (·.host) c a b

@[simp] theorem ite_fst_host {α : Type} (c : Prop) [Decidable c] (a b : State × α) :
    (if c then a else b).1.host = if c then a.1.host else b.1.host := apply_ite (·.1.host) c a b

@[simp] theorem ite_parts (c : Prop) [Decidable c] (a b : State) :
    (if c then a else b).parts = if c then a.parts else b.parts := apply_ite (·.parts) c a b

@[simp] theorem ite_fst_parts {α : Type} (c : Prop) [Decidable c] (a b : State × α) :
    (if c then a else b).1.parts = if c then a.1.parts else b.1.parts := apply_ite (·.1.parts) c a b

@[simp] theorem ite_pf (c : Prop) [Decidable c] (a b : State) :
    (if c then a else b).pf = if c then a.pf else b.pf := apply_ite (·.pf) c a b

@[simp] theorem ite_fst_pf {α : Type} (c : Prop) [Decidable c] (a b : State × α) :
    (if c then a else b).1.pf = if c then a.1.pf else b.1.pf := apply_ite (·.1.pf) c a b

@[simp] theorem ite_tiles (c : Prop) [Decidable c] (a b : State) :
    (if c then a else b).tiles = if c then a.tiles else b.tiles := apply_ite (·.tiles) c a b

@[simp] theorem ite_fst_tiles {α : Type} (c : Prop) [Decidable c] (a b : State × α) :
    (if c then a else b).1.tiles = if c then a.1.tiles else b.1.tiles := apply_ite (·.1.tiles) c a b

@[simp] theorem ite_jewel (c : Prop) [Decidable c] (a b : State) :
    (if c then a else b).jewel = if c then a.jewel else b.jewel := apply_ite (·.jewel) c a b

@[simp] theorem ite_fst_jewel {α : Type} (c : Prop) [Decidable c] (a b : State × α) :
    (if c then a else b).1.jewel = if c then a.1.jewel else b.1.jewel := apply_ite (·.1.jewel) c a b

@[simp] theorem ite_ports (c : Prop) [Decidable c] (a b : State) :
    (if c then a else b).ports = if c then a.ports else b.ports := apply_ite (·.ports) c a b

@[simp] theorem ite_fst_ports {α : Type} (c : Prop) [Decidable c] (a b : State × α) :
    (if c then a else b).1.ports = if c then a.1.ports else b.1.ports := apply_ite (·.1.ports) c a b

@[simp] theorem ite_hatband (c : Prop) [Decidable c] (a b : State) :
    (if c then a else b).hatband = if c then a.hatband else b.hatband := apply_ite (·.hatband) c a b

@[simp] theorem ite_fst_hatband {α : Type} (c : Prop) [Decidable c] (a b : State × α) :
    (if c then a else b).1.hatband = if c then a.1.hatband else b.1.hatband := apply_ite (·.1.hatband) c a b

@[simp] theorem ite_engines (c : Prop) [Decidable c] (a b : State) :
    (if c then a else b).engines = if c then a.engines else b.engines := apply_ite (·.engines) c a b

@[simp] theorem ite_fst_engines {α : Type} (c : Prop) [Decidable c] (a b : State × α) :
    (if c then a else b).1.engines = if c then a.1.engines else b.1.engines := apply_ite (·.1.engines) c a b

@[simp] theorem ite_free (c : Prop) [Decidable c] (a b : State) :
    (if c then a else b).free = if c then a.free else b.free := apply_ite (·.free) c a b

@[simp] theorem ite_fst_free {α : Type} (c : Prop) [Decidable c] (a b : State × α) :
    (if c then a else b).1.free = if c then a.1.free else b.1.free := apply_ite (·.1.free) c a b

@[simp] theorem ite_pending (c : Prop) [Decidable c] (a b : State) :
    (if c then a else b).pending = if c then a.pending else b.pending := apply_ite (·.pending) c a b

@[simp] theorem ite_fst_pending {α : Type} (c : Prop) [Decidable c] (a b : State × α) :
    (if c then a else b).1.pending = if c then a.1.pending else b.1.pending := apply_ite (·.1.pending) c a b

@[simp] theorem ite_boot_flash (c : Prop) [Decidable c] (a b : Boot) : (if c then a else b).flash = if c then a.flash else b.flash :=
  apply_ite (·.flash) c a b

@[simp] theorem ite_boot_fuses (c : Prop) [Decidable c] (a b : Boot) : (if c then a else b).fuses = if c then a.fuses else b.fuses :=
  apply_ite (·.fuses) c a b

@[simp] theorem ite_boot_seed (c : Prop) [Decidable c] (a b : Boot) : (if c then a else b).seed = if c then a.seed else b.seed :=
  apply_ite (·.seed) c a b

@[simp] theorem ite_boot_dpk (c : Prop) [Decidable c] (a b : Boot) : (if c then a else b).dpk = if c then a.dpk else b.dpk :=
  apply_ite (·.dpk) c a b

end Sys2Proof.Machine
end

