-- ==== Sys2Proof/Laws/FrameOps.lean ====
section
/-! SUPPORT. What each function over State leaves as it was, and that each command answers a next state: the operations the commands share. -/

namespace Sys2Proof.Machine

@[simp] theorem State.modPart_frame (s : State) (p : PartId) (f : Part → Part) :
    (s.modPart p f).boot = s.boot ∧ (s.modPart p f).board = s.board ∧ (s.modPart p f).clocks = s.clocks ∧
    (s.modPart p f).host = s.host ∧ (s.modPart p f).pf = s.pf ∧ (s.modPart p f).tiles = s.tiles ∧ (s.modPart p f).jewel = s.jewel ∧
    (s.modPart p f).ports = s.ports ∧ (s.modPart p f).hatband = s.hatband ∧ (s.modPart p f).engines = s.engines ∧
    (s.modPart p f).free = s.free ∧ (s.modPart p f).pending = s.pending := by
  unfold State.modPart
  try dsimp only
  repeat' (first | split | simp)

@[simp] theorem State.modTile_frame (s : State) (t : TileId) (f : Tile → Tile) :
    (s.modTile t f).boot = s.boot ∧ (s.modTile t f).board = s.board ∧ (s.modTile t f).clocks = s.clocks ∧
    (s.modTile t f).host = s.host ∧ (s.modTile t f).parts = s.parts ∧ (s.modTile t f).pf = s.pf ∧ (s.modTile t f).jewel = s.jewel ∧
    (s.modTile t f).ports = s.ports ∧ (s.modTile t f).hatband = s.hatband ∧ (s.modTile t f).engines = s.engines ∧
    (s.modTile t f).free = s.free ∧ (s.modTile t f).pending = s.pending := by
  unfold State.modTile
  try dsimp only
  repeat' (first | split | simp)

@[simp] theorem State.modChan_frame (s : State) (t : TileId) (k : ChanId) (f : Chan → Chan) :
    (s.modChan t k f).boot = s.boot ∧ (s.modChan t k f).board = s.board ∧ (s.modChan t k f).clocks = s.clocks ∧
    (s.modChan t k f).host = s.host ∧ (s.modChan t k f).parts = s.parts ∧ (s.modChan t k f).pf = s.pf ∧
    (s.modChan t k f).jewel = s.jewel ∧ (s.modChan t k f).ports = s.ports ∧ (s.modChan t k f).hatband = s.hatband ∧
    (s.modChan t k f).engines = s.engines ∧ (s.modChan t k f).free = s.free ∧ (s.modChan t k f).pending = s.pending := by
  unfold State.modChan
  try dsimp only
  repeat' (first | split | simp)

@[simp] theorem State.modSlice_frame (s : State) (t : TileId) (f : Seal → Seal) :
    (s.modSlice t f).boot = s.boot ∧ (s.modSlice t f).board = s.board ∧ (s.modSlice t f).clocks = s.clocks ∧
    (s.modSlice t f).host = s.host ∧ (s.modSlice t f).parts = s.parts ∧ (s.modSlice t f).pf = s.pf ∧
    (s.modSlice t f).jewel = s.jewel ∧ (s.modSlice t f).ports = s.ports ∧ (s.modSlice t f).hatband = s.hatband ∧
    (s.modSlice t f).engines = s.engines ∧ (s.modSlice t f).free = s.free ∧ (s.modSlice t f).pending = s.pending := by
  unfold State.modSlice
  try dsimp only
  repeat' (first | split | simp)

@[simp] theorem State.modWin_frame (s : State) (f : Fn) (g : Window → Window) :
    (s.modWin f g).boot = s.boot ∧ (s.modWin f g).board = s.board ∧ (s.modWin f g).clocks = s.clocks ∧
    (s.modWin f g).host = s.host ∧ (s.modWin f g).tiles = s.tiles ∧ (s.modWin f g).jewel = s.jewel ∧
    (s.modWin f g).ports = s.ports ∧ (s.modWin f g).hatband = s.hatband ∧ (s.modWin f g).engines = s.engines ∧
    (s.modWin f g).free = s.free ∧ (s.modWin f g).pending = s.pending := by
  unfold State.modWin
  try dsimp only
  repeat' (first | split | simp)

@[simp] theorem State.modDma_frame (s : State) (f : Fn) (g : Dma → Dma) :
    (s.modDma f g).boot = s.boot ∧ (s.modDma f g).board = s.board ∧ (s.modDma f g).clocks = s.clocks ∧
    (s.modDma f g).host = s.host ∧ (s.modDma f g).tiles = s.tiles ∧ (s.modDma f g).jewel = s.jewel ∧
    (s.modDma f g).ports = s.ports ∧ (s.modDma f g).hatband = s.hatband ∧ (s.modDma f g).engines = s.engines ∧
    (s.modDma f g).free = s.free ∧ (s.modDma f g).pending = s.pending := by
  unfold State.modDma
  try dsimp only
  repeat' (first | split | simp)

@[simp] theorem State.draw_frame (s : State) (n : Nat) :
    (s.draw n).2.boot = s.boot ∧ (s.draw n).2.board = s.board ∧ (s.draw n).2.clocks = s.clocks ∧ (s.draw n).2.host = s.host ∧
    (s.draw n).2.parts = s.parts ∧ (s.draw n).2.pf = s.pf ∧ (s.draw n).2.tiles = s.tiles ∧ (s.draw n).2.jewel = s.jewel ∧
    (s.draw n).2.ports = s.ports ∧ (s.draw n).2.hatband = s.hatband ∧ (s.draw n).2.engines = s.engines ∧
    (s.draw n).2.pending = s.pending := by
  unfold State.draw
  try dsimp only
  repeat' (first | split | simp)

@[simp] theorem State.modInFlight_frame (s : State) (f : Fn) (urgent : Bool) (seq : Nat) (g : InFlight → InFlight) :
    (s.modInFlight f urgent seq g).boot = s.boot ∧ (s.modInFlight f urgent seq g).board = s.board ∧
    (s.modInFlight f urgent seq g).clocks = s.clocks ∧ (s.modInFlight f urgent seq g).host = s.host ∧
    (s.modInFlight f urgent seq g).tiles = s.tiles ∧ (s.modInFlight f urgent seq g).jewel = s.jewel ∧
    (s.modInFlight f urgent seq g).ports = s.ports ∧ (s.modInFlight f urgent seq g).hatband = s.hatband ∧
    (s.modInFlight f urgent seq g).engines = s.engines ∧ (s.modInFlight f urgent seq g).free = s.free ∧
    (s.modInFlight f urgent seq g).pending = s.pending := by
  unfold State.modInFlight
  try dsimp only
  repeat' (first | split | simp)

@[simp] theorem State.modLog_frame (s : State) (f : Fn) (g : ErrLog → ErrLog) :
    (s.modLog f g).boot = s.boot ∧ (s.modLog f g).board = s.board ∧ (s.modLog f g).clocks = s.clocks ∧
    (s.modLog f g).host = s.host ∧ (s.modLog f g).pf = s.pf ∧ (s.modLog f g).tiles = s.tiles ∧ (s.modLog f g).ports = s.ports ∧
    (s.modLog f g).hatband = s.hatband ∧ (s.modLog f g).engines = s.engines ∧ (s.modLog f g).free = s.free ∧
    (s.modLog f g).pending = s.pending := by
  unfold State.modLog
  try dsimp only
  repeat' (first | split | simp)

@[simp] theorem State.episodeForget_frame (s : State) (f : Fn) (urgent : Bool) (seq : Nat) :
    (s.episodeForget f urgent seq).boot = s.boot ∧ (s.episodeForget f urgent seq).board = s.board ∧
    (s.episodeForget f urgent seq).clocks = s.clocks ∧ (s.episodeForget f urgent seq).host = s.host ∧
    (s.episodeForget f urgent seq).pf = s.pf ∧ (s.episodeForget f urgent seq).tiles = s.tiles ∧
    (s.episodeForget f urgent seq).ports = s.ports ∧ (s.episodeForget f urgent seq).hatband = s.hatband ∧
    (s.episodeForget f urgent seq).engines = s.engines ∧ (s.episodeForget f urgent seq).free = s.free ∧
    (s.episodeForget f urgent seq).pending = s.pending := by
  unfold State.episodeForget
  try dsimp only
  repeat' (first | split | simp)

@[simp] theorem State.episodeClose_frame (s : State) (p : PartId) :
    (s.episodeClose p).boot = s.boot ∧ (s.episodeClose p).board = s.board ∧ (s.episodeClose p).clocks = s.clocks ∧
    (s.episodeClose p).host = s.host ∧ (s.episodeClose p).pf = s.pf ∧ (s.episodeClose p).tiles = s.tiles ∧
    (s.episodeClose p).jewel = s.jewel ∧ (s.episodeClose p).ports = s.ports ∧ (s.episodeClose p).hatband = s.hatband ∧
    (s.episodeClose p).engines = s.engines ∧ (s.episodeClose p).free = s.free ∧ (s.episodeClose p).pending = s.pending := by
  unfold State.episodeClose
  try dsimp only
  repeat' (first | split | simp)

@[simp] theorem State.postRecord_frame (s : State) (f : Fn) (urgent : Bool) (c : Cmd) (bs : Bytes) :
    (s.postRecord f urgent c bs).boot = s.boot ∧ (s.postRecord f urgent c bs).board = s.board ∧
    (s.postRecord f urgent c bs).clocks = s.clocks ∧ (s.postRecord f urgent c bs).host = s.host ∧
    (s.postRecord f urgent c bs).tiles = s.tiles ∧ (s.postRecord f urgent c bs).jewel = s.jewel ∧
    (s.postRecord f urgent c bs).ports = s.ports ∧ (s.postRecord f urgent c bs).hatband = s.hatband ∧
    (s.postRecord f urgent c bs).engines = s.engines ∧ (s.postRecord f urgent c bs).free = s.free ∧
    (s.postRecord f urgent c bs).pending = s.pending := by
  unfold State.postRecord
  try dsimp only
  repeat' (first | split | simp)

@[simp] theorem State.completeNow_frame (s : State) (f : Fn) (urgent : Bool) (seq : Nat) (r : Result) (record : Bool) :
    (s.completeNow f urgent seq r record).boot = s.boot ∧ (s.completeNow f urgent seq r record).board = s.board ∧
    (s.completeNow f urgent seq r record).clocks = s.clocks ∧ (s.completeNow f urgent seq r record).host = s.host ∧
    (s.completeNow f urgent seq r record).tiles = s.tiles ∧ (s.completeNow f urgent seq r record).ports = s.ports ∧
    (s.completeNow f urgent seq r record).hatband = s.hatband ∧ (s.completeNow f urgent seq r record).engines = s.engines ∧
    (s.completeNow f urgent seq r record).free = s.free ∧ (s.completeNow f urgent seq r record).pending = s.pending := by
  unfold State.completeNow
  try dsimp only
  repeat' (first | split | simp)

@[simp] theorem State.complete_frame (s : State) (f : Fn) (urgent : Bool) (seq : Nat) (r : Result) :
    (s.complete f urgent seq r).boot = s.boot ∧ (s.complete f urgent seq r).board = s.board ∧
    (s.complete f urgent seq r).clocks = s.clocks ∧ (s.complete f urgent seq r).host = s.host ∧
    (s.complete f urgent seq r).tiles = s.tiles ∧ (s.complete f urgent seq r).ports = s.ports ∧
    (s.complete f urgent seq r).hatband = s.hatband ∧ (s.complete f urgent seq r).engines = s.engines ∧
    (s.complete f urgent seq r).free = s.free ∧ (s.complete f urgent seq r).pending = s.pending := by
  unfold State.complete
  try dsimp only
  repeat' (first | split | simp)

@[simp] theorem State.markEnds_frame (s : State) (p : PartId) :
    (s.markEnds p).boot = s.boot ∧ (s.markEnds p).board = s.board ∧ (s.markEnds p).clocks = s.clocks ∧
    (s.markEnds p).host = s.host ∧ (s.markEnds p).tiles = s.tiles ∧ (s.markEnds p).jewel = s.jewel ∧
    (s.markEnds p).ports = s.ports ∧ (s.markEnds p).hatband = s.hatband ∧ (s.markEnds p).engines = s.engines ∧
    (s.markEnds p).free = s.free ∧ (s.markEnds p).pending = s.pending := by
  unfold State.markEnds
  try dsimp only
  repeat' (first | split | simp)

@[simp] theorem State.startReset_frame (s : State) (p : PartId) (failed : Bool) (flr : Bool) :
    (s.startReset p failed flr).boot = s.boot ∧ (s.startReset p failed flr).board = s.board ∧
    (s.startReset p failed flr).clocks = s.clocks ∧ (s.startReset p failed flr).host = s.host ∧
    (s.startReset p failed flr).tiles = s.tiles ∧ (s.startReset p failed flr).jewel = s.jewel ∧
    (s.startReset p failed flr).ports = s.ports ∧ (s.startReset p failed flr).hatband = s.hatband ∧
    (s.startReset p failed flr).engines = s.engines ∧ (s.startReset p failed flr).free = s.free ∧
    (s.startReset p failed flr).pending = s.pending := by
  unfold State.startReset
  try dsimp only
  repeat' (first | split | simp)

@[simp] theorem State.logMrst_frame (s : State) (p : PartId) :
    (s.logMrst p).boot = s.boot ∧ (s.logMrst p).board = s.board ∧ (s.logMrst p).clocks = s.clocks ∧ (s.logMrst p).host = s.host ∧
    (s.logMrst p).pf = s.pf ∧ (s.logMrst p).tiles = s.tiles ∧ (s.logMrst p).ports = s.ports ∧ (s.logMrst p).hatband = s.hatband ∧
    (s.logMrst p).engines = s.engines ∧ (s.logMrst p).free = s.free ∧ (s.logMrst p).pending = s.pending := by
  unfold State.logMrst
  try dsimp only
  repeat' (first | split | simp)

@[simp] theorem State.countMiss_frame (s : State) (t : TileId) :
    (s.countMiss t).boot = s.boot ∧ (s.countMiss t).board = s.board ∧ (s.countMiss t).clocks = s.clocks ∧
    (s.countMiss t).host = s.host ∧ (s.countMiss t).parts = s.parts ∧ (s.countMiss t).pf = s.pf ∧ (s.countMiss t).jewel = s.jewel ∧
    (s.countMiss t).ports = s.ports ∧ (s.countMiss t).hatband = s.hatband ∧ (s.countMiss t).engines = s.engines ∧
    (s.countMiss t).free = s.free ∧ (s.countMiss t).pending = s.pending := by
  unfold State.countMiss
  try dsimp only
  repeat' (first | split | simp)

@[simp] theorem State.discardFrames_frame (s : State) (p : PartId) (count : Bool) (all : Bool) :
    (s.discardFrames p count all).boot = s.boot ∧ (s.discardFrames p count all).board = s.board ∧
    (s.discardFrames p count all).clocks = s.clocks ∧ (s.discardFrames p count all).host = s.host ∧
    (s.discardFrames p count all).parts = s.parts ∧ (s.discardFrames p count all).pf = s.pf ∧
    (s.discardFrames p count all).tiles = s.tiles ∧ (s.discardFrames p count all).jewel = s.jewel ∧
    (s.discardFrames p count all).hatband = s.hatband ∧ (s.discardFrames p count all).engines = s.engines ∧
    (s.discardFrames p count all).free = s.free ∧ (s.discardFrames p count all).pending = s.pending := by
  unfold State.discardFrames
  try dsimp only
  repeat' (first | split | simp)

@[simp] theorem State.discardBuckets_frame (s : State) (p : PartId) :
    (s.discardBuckets p).boot = s.boot ∧ (s.discardBuckets p).board = s.board ∧ (s.discardBuckets p).clocks = s.clocks ∧
    (s.discardBuckets p).host = s.host ∧ (s.discardBuckets p).tiles = s.tiles ∧ (s.discardBuckets p).jewel = s.jewel ∧
    (s.discardBuckets p).ports = s.ports ∧ (s.discardBuckets p).hatband = s.hatband ∧ (s.discardBuckets p).engines = s.engines ∧
    (s.discardBuckets p).free = s.free ∧ (s.discardBuckets p).pending = s.pending := by
  unfold State.discardBuckets
  try dsimp only
  repeat' (first | split | simp)

@[simp] theorem State.releaseMarks_frame (s : State) (p : PartId) :
    (s.releaseMarks p).boot = s.boot ∧ (s.releaseMarks p).board = s.board ∧ (s.releaseMarks p).clocks = s.clocks ∧
    (s.releaseMarks p).host = s.host ∧ (s.releaseMarks p).pf = s.pf ∧ (s.releaseMarks p).jewel = s.jewel ∧
    (s.releaseMarks p).ports = s.ports ∧ (s.releaseMarks p).hatband = s.hatband ∧ (s.releaseMarks p).engines = s.engines ∧
    (s.releaseMarks p).free = s.free ∧ (s.releaseMarks p).pending = s.pending := by
  unfold State.releaseMarks
  try dsimp only
  repeat' (first | split | simp)

@[simp] theorem State.unmark_frame (s : State) (p : PartId) (c : Cmd) :
    (s.unmark p c).boot = s.boot ∧ (s.unmark p c).board = s.board ∧ (s.unmark p c).clocks = s.clocks ∧
    (s.unmark p c).host = s.host ∧ (s.unmark p c).pf = s.pf ∧ (s.unmark p c).jewel = s.jewel ∧ (s.unmark p c).ports = s.ports ∧
    (s.unmark p c).hatband = s.hatband ∧ (s.unmark p c).engines = s.engines ∧ (s.unmark p c).free = s.free ∧
    (s.unmark p c).pending = s.pending := by
  unfold State.unmark
  try dsimp only
  repeat' (first | split | simp)

@[simp] theorem State.dropFuller_frame (s : State) (p : PartId) :
    (s.dropFuller p).boot = s.boot ∧ (s.dropFuller p).board = s.board ∧ (s.dropFuller p).clocks = s.clocks ∧
    (s.dropFuller p).host = s.host ∧ (s.dropFuller p).pf = s.pf ∧ (s.dropFuller p).jewel = s.jewel ∧
    (s.dropFuller p).ports = s.ports ∧ (s.dropFuller p).hatband = s.hatband ∧ (s.dropFuller p).engines = s.engines ∧
    (s.dropFuller p).free = s.free ∧ (s.dropFuller p).pending = s.pending := by
  unfold State.dropFuller
  try dsimp only
  repeat' (first | split | simp)

@[simp] theorem State.failNow_frame (s : State) (p : PartId) :
    (s.failNow p).boot = s.boot ∧ (s.failNow p).board = s.board ∧ (s.failNow p).clocks = s.clocks ∧ (s.failNow p).host = s.host ∧
    (s.failNow p).pf = s.pf ∧ (s.failNow p).jewel = s.jewel ∧ (s.failNow p).hatband = s.hatband ∧
    (s.failNow p).engines = s.engines ∧ (s.failNow p).free = s.free ∧ (s.failNow p).pending = s.pending := by
  unfold State.failNow
  try dsimp only
  repeat' (first | split | simp)

@[simp] theorem State.pfatal_frame (s : State) (p : PartId) :
    (s.pfatal p).boot = s.boot ∧ (s.pfatal p).board = s.board ∧ (s.pfatal p).clocks = s.clocks ∧ (s.pfatal p).host = s.host ∧
    (s.pfatal p).hatband = s.hatband ∧ (s.pfatal p).engines = s.engines ∧ (s.pfatal p).free = s.free ∧
    (s.pfatal p).pending = s.pending := by
  unfold State.pfatal
  try dsimp only
  repeat' (first | split | simp)

@[simp] theorem State.lockout_frame (s : State) (p : PartId) :
    (s.lockout p).boot = s.boot ∧ (s.lockout p).board = s.board ∧ (s.lockout p).clocks = s.clocks ∧ (s.lockout p).host = s.host ∧
    (s.lockout p).ports = s.ports ∧ (s.lockout p).hatband = s.hatband ∧ (s.lockout p).engines = s.engines ∧
    (s.lockout p).free = s.free ∧ (s.lockout p).pending = s.pending := by
  unfold State.lockout
  try dsimp only
  repeat' (first | split | simp)

@[simp] theorem State.tryLockout_frame (s : State) (p : PartId) :
    (s.tryLockout p).boot = s.boot ∧ (s.tryLockout p).board = s.board ∧ (s.tryLockout p).clocks = s.clocks ∧
    (s.tryLockout p).host = s.host ∧ (s.tryLockout p).ports = s.ports ∧ (s.tryLockout p).hatband = s.hatband ∧
    (s.tryLockout p).engines = s.engines ∧ (s.tryLockout p).free = s.free ∧ (s.tryLockout p).pending = s.pending := by
  unfold State.tryLockout
  try dsimp only
  repeat' (first | split | simp)

@[simp] theorem State.countInteg_frame (s : State) (p : PartId) :
    (s.countInteg p).boot = s.boot ∧ (s.countInteg p).board = s.board ∧ (s.countInteg p).clocks = s.clocks ∧
    (s.countInteg p).host = s.host ∧ (s.countInteg p).ports = s.ports ∧ (s.countInteg p).hatband = s.hatband ∧
    (s.countInteg p).engines = s.engines ∧ (s.countInteg p).free = s.free ∧ (s.countInteg p).pending = s.pending := by
  unfold State.countInteg
  try dsimp only
  repeat' (first | split | simp)

@[simp] theorem State.meetClass_frame (s : State) (p : PartId) (cmd : Option (Bool × Nat)) (cls : Nat) :
    (s.meetClass p cmd cls).boot = s.boot ∧ (s.meetClass p cmd cls).board = s.board ∧ (s.meetClass p cmd cls).clocks = s.clocks ∧
    (s.meetClass p cmd cls).host = s.host ∧ (s.meetClass p cmd cls).tiles = s.tiles ∧ (s.meetClass p cmd cls).jewel = s.jewel ∧
    (s.meetClass p cmd cls).ports = s.ports ∧ (s.meetClass p cmd cls).hatband = s.hatband ∧
    (s.meetClass p cmd cls).engines = s.engines ∧ (s.meetClass p cmd cls).free = s.free ∧
    (s.meetClass p cmd cls).pending = s.pending := by
  unfold State.meetClass
  try dsimp only
  repeat' (first | split | simp)

@[simp] theorem State.raise_frame (s : State) (p : PartId) (code : Nat) (src : Nat) (ch : Nat) (detail : Nat) (cmd : Option (Bool
    × Nat)) :
    (s.raise p code src ch detail cmd).boot = s.boot ∧ (s.raise p code src ch detail cmd).board = s.board ∧
    (s.raise p code src ch detail cmd).clocks = s.clocks ∧ (s.raise p code src ch detail cmd).host = s.host ∧
    (s.raise p code src ch detail cmd).hatband = s.hatband ∧ (s.raise p code src ch detail cmd).engines = s.engines ∧
    (s.raise p code src ch detail cmd).free = s.free ∧ (s.raise p code src ch detail cmd).pending = s.pending := by
  unfold State.raise
  try dsimp only
  repeat' (first | split | simp)

@[simp] theorem State.raiseModule_frame (s : State) (code : Nat) (src : Nat) (detail : Nat) :
    (s.raiseModule code src detail).boot = s.boot ∧ (s.raiseModule code src detail).board = s.board ∧
    (s.raiseModule code src detail).clocks = s.clocks ∧ (s.raiseModule code src detail).host = s.host ∧
    (s.raiseModule code src detail).pf = s.pf ∧ (s.raiseModule code src detail).tiles = s.tiles ∧
    (s.raiseModule code src detail).ports = s.ports ∧ (s.raiseModule code src detail).hatband = s.hatband ∧
    (s.raiseModule code src detail).engines = s.engines ∧ (s.raiseModule code src detail).free = s.free ∧
    (s.raiseModule code src detail).pending = s.pending := by
  unfold State.raiseModule
  try dsimp only
  repeat' (first | split | simp)

@[simp] theorem State.raiseTile_frame (s : State) (t : TileId) (code : Nat) (ch : Nat) (detail : Nat) :
    (s.raiseTile t code ch detail).boot = s.boot ∧ (s.raiseTile t code ch detail).board = s.board ∧
    (s.raiseTile t code ch detail).clocks = s.clocks ∧ (s.raiseTile t code ch detail).host = s.host ∧
    (s.raiseTile t code ch detail).hatband = s.hatband ∧ (s.raiseTile t code ch detail).engines = s.engines ∧
    (s.raiseTile t code ch detail).free = s.free ∧ (s.raiseTile t code ch detail).pending = s.pending := by
  unfold State.raiseTile
  try dsimp only
  repeat' (first | split | simp)

@[simp] theorem Boot.record_frame (b : Boot) (outcome : Nat) (nonce : Bytes) :
    (b.record outcome nonce).fuses = b.fuses ∧ (b.record outcome nonce).seed = b.seed ∧ (b.record outcome nonce).dpk = b.dpk ∧
      (b.record outcome nonce).image = b.image ∧ (b.record outcome nonce).slot = b.slot :=
  ⟨rfl, rfl, rfl, rfl, rfl⟩

@[simp] theorem State.bootRecord_frame (s : State) (outcome : Nat) :
    (s.bootRecord outcome).board = s.board ∧ (s.bootRecord outcome).clocks = s.clocks ∧ (s.bootRecord outcome).host = s.host ∧
    (s.bootRecord outcome).parts = s.parts ∧ (s.bootRecord outcome).pf = s.pf ∧ (s.bootRecord outcome).tiles = s.tiles ∧
    (s.bootRecord outcome).jewel = s.jewel ∧ (s.bootRecord outcome).ports = s.ports ∧ (s.bootRecord outcome).hatband = s.hatband ∧
    (s.bootRecord outcome).engines = s.engines ∧ (s.bootRecord outcome).pending = s.pending ∧
    (s.bootRecord outcome).boot.fuses = s.boot.fuses ∧ (s.bootRecord outcome).boot.seed = s.boot.seed ∧
    (s.bootRecord outcome).boot.dpk = s.boot.dpk := by
  unfold State.bootRecord
  try dsimp only
  repeat' (first | split | simp)

@[simp] theorem State.tryReady_frame (s : State) :
    s.tryReady.clocks = s.clocks ∧ s.tryReady.host = s.host ∧ s.tryReady.parts = s.parts ∧ s.tryReady.pf = s.pf ∧
    s.tryReady.tiles = s.tiles ∧ s.tryReady.jewel = s.jewel ∧ s.tryReady.ports = s.ports ∧ s.tryReady.hatband = s.hatband ∧
    s.tryReady.engines = s.engines ∧ s.tryReady.pending = s.pending ∧ s.tryReady.boot.fuses = s.boot.fuses ∧
    s.tryReady.boot.seed = s.boot.seed ∧ s.tryReady.boot.dpk = s.boot.dpk := by
  unfold State.tryReady
  try dsimp only
  repeat' (first | split | simp)

@[simp] theorem Boot.blow_frame (b : Boot) (i : Nat) (took : Bool) :
    (b.blow i took).flash = b.flash ∧ (b.blow i took).seed = b.seed ∧ (b.blow i took).dpk = b.dpk ∧
      (b.blow i took).image = b.image ∧ (b.blow i took).slot = b.slot := by
  unfold Boot.blow
  split <;> simp

@[simp] theorem State.advanceFuse_frame (s : State) :
    s.advanceFuse.board = s.board ∧ s.advanceFuse.clocks = s.clocks ∧ s.advanceFuse.host = s.host ∧ s.advanceFuse.parts = s.parts ∧
    s.advanceFuse.pf = s.pf ∧ s.advanceFuse.tiles = s.tiles ∧ s.advanceFuse.jewel = s.jewel ∧ s.advanceFuse.ports = s.ports ∧
    s.advanceFuse.hatband = s.hatband ∧ s.advanceFuse.engines = s.engines ∧ s.advanceFuse.pending = s.pending ∧
    s.advanceFuse.boot.flash = s.boot.flash ∧ s.advanceFuse.boot.seed = s.boot.seed ∧ s.advanceFuse.boot.dpk = s.boot.dpk := by
  unfold State.advanceFuse
  try dsimp only
  repeat' (first | split | simp)

@[simp] theorem State.endRestart_frame (s : State) :
    s.endRestart.boot = s.boot ∧ s.endRestart.clocks = s.clocks ∧ s.endRestart.host = s.host ∧ s.endRestart.pf = s.pf ∧
    s.endRestart.tiles = s.tiles ∧ s.endRestart.ports = s.ports ∧ s.endRestart.hatband = s.hatband ∧
    s.endRestart.engines = s.engines ∧ s.endRestart.free = s.free ∧ s.endRestart.pending = s.pending := by
  unfold State.endRestart
  try dsimp only
  repeat' (first | split | simp)

end Sys2Proof.Machine
end

