-- ==== Sys2Proof/Laws/FrameBoard.lean ====
section
/-! SUPPORT. What each function over State leaves as it was, and that each command answers a next state: module-wide events and the board. -/

namespace Sys2Proof.Machine

@[simp] theorem State.preempt_frame (s : State) :
    s.preempt.board = s.board ∧ s.preempt.free = s.free ∧ s.preempt.pending = s.pending ∧ s.preempt.boot.flash = s.boot.flash ∧
    s.preempt.boot.fuses = s.boot.fuses ∧ s.preempt.boot.seed = s.boot.seed ∧ s.preempt.boot.dpk = s.boot.dpk := by
  unfold State.preempt
  try dsimp only
  repeat' (first | split | simp)

@[simp] theorem State.railsOff_frame (s : State) :
    s.railsOff.boot = s.boot ∧ s.railsOff.clocks = s.clocks ∧ s.railsOff.host = s.host ∧ s.railsOff.jewel = s.jewel ∧
    s.railsOff.ports = s.ports ∧ s.railsOff.hatband = s.hatband ∧ s.railsOff.engines = s.engines ∧ s.railsOff.free = s.free ∧
    s.railsOff.pending = s.pending := by
  unfold State.railsOff
  try dsimp only
  repeat' (first | split | simp)

@[simp] theorem State.moduleOff_frame (s : State) :
    s.moduleOff.free = s.free ∧ s.moduleOff.pending = s.pending ∧ s.moduleOff.boot.flash = s.boot.flash ∧
    s.moduleOff.boot.fuses = s.boot.fuses ∧ s.moduleOff.boot.seed = s.boot.seed ∧ s.moduleOff.boot.dpk = s.boot.dpk := by
  unfold State.moduleOff
  try dsimp only
  repeat' (first | split | simp)

@[simp] theorem State.raiseRow_frame (s : State) (row : Fin 8) (code : Nat) (src : Nat) (detail : Nat) :
    (s.raiseRow row code src detail).boot = s.boot ∧ (s.raiseRow row code src detail).board = s.board ∧
    (s.raiseRow row code src detail).clocks = s.clocks ∧ (s.raiseRow row code src detail).host = s.host ∧
    (s.raiseRow row code src detail).hatband = s.hatband ∧ (s.raiseRow row code src detail).engines = s.engines ∧
    (s.raiseRow row code src detail).free = s.free ∧ (s.raiseRow row code src detail).pending = s.pending := by
  unfold State.raiseRow
  try dsimp only
  repeat' (first | split | simp)

@[simp] theorem State.mfatal_frame (s : State) (code : Nat) (src : Nat) (detail : Nat) :
    (s.mfatal code src detail).free = s.free ∧ (s.mfatal code src detail).pending = s.pending ∧
    (s.mfatal code src detail).boot.flash = s.boot.flash ∧ (s.mfatal code src detail).boot.fuses = s.boot.fuses ∧
    (s.mfatal code src detail).boot.seed = s.boot.seed ∧ (s.mfatal code src detail).boot.dpk = s.boot.dpk := by
  unfold State.mfatal
  try dsimp only
  repeat' (first | split | simp)

@[simp] theorem State.cause_frame (s : State) (c : Nat) :
    (s.cause c).board = s.board ∧ (s.cause c).clocks = s.clocks ∧ (s.cause c).host = s.host ∧ (s.cause c).parts = s.parts ∧
    (s.cause c).pf = s.pf ∧ (s.cause c).tiles = s.tiles ∧ (s.cause c).jewel = s.jewel ∧ (s.cause c).ports = s.ports ∧
    (s.cause c).hatband = s.hatband ∧ (s.cause c).engines = s.engines ∧ (s.cause c).free = s.free ∧
    (s.cause c).pending = s.pending ∧ (s.cause c).boot.flash = s.boot.flash ∧ (s.cause c).boot.fuses = s.boot.fuses ∧
    (s.cause c).boot.seed = s.boot.seed ∧ (s.cause c).boot.dpk = s.boot.dpk := by
  unfold State.cause
  try dsimp only
  repeat' (first | split | simp)

@[simp] theorem State.inputFault_frame (s : State) (f : Board → Board) :
    (s.inputFault f).free = s.free ∧ (s.inputFault f).pending = s.pending ∧ (s.inputFault f).boot.flash = s.boot.flash ∧
    (s.inputFault f).boot.fuses = s.boot.fuses ∧ (s.inputFault f).boot.seed = s.boot.seed ∧ (s.inputFault f).boot.dpk = s.boot.dpk := by
  unfold State.inputFault
  try dsimp only
  repeat' (first | split | simp)

@[simp] theorem State.countReset_frame (s : State) :
    s.countReset.free = s.free ∧ s.countReset.pending = s.pending ∧ s.countReset.boot.flash = s.boot.flash ∧
    s.countReset.boot.fuses = s.boot.fuses ∧ s.countReset.boot.seed = s.boot.seed ∧ s.countReset.boot.dpk = s.boot.dpk := by
  unfold State.countReset
  try dsimp only
  repeat' (first | split | simp)

theorem execInputPowerApplied_frame (slotId : BitVec 5) (s : State) :
    ∃ u, execInputPowerApplied slotId s = .next u ∧ u.host = s.host ∧ u.parts = s.parts ∧ u.pf = s.pf ∧ u.tiles = s.tiles ∧
    u.jewel = s.jewel ∧ u.ports = s.ports ∧ u.hatband = s.hatband ∧ u.engines = s.engines ∧ u.free = s.free ∧
    u.pending = s.pending ∧ u.boot.flash = s.boot.flash ∧ u.boot.fuses = s.boot.fuses ∧ u.boot.seed = s.boot.seed ∧
    u.boot.dpk = s.boot.dpk := by
  unfold execInputPowerApplied
  try dsimp only
  repeat' (first | split | simp)

theorem execRailsRise_frame (s : State) :
    ∃ u, execRailsRise s = .next u ∧ u.boot = s.boot ∧ u.clocks = s.clocks ∧ u.host = s.host ∧ u.parts = s.parts ∧ u.pf = s.pf ∧
    u.tiles = s.tiles ∧ u.jewel = s.jewel ∧ u.ports = s.ports ∧ u.hatband = s.hatband ∧ u.engines = s.engines ∧ u.free = s.free ∧
    u.pending = s.pending := by
  unfold execRailsRise
  try dsimp only
  repeat' (first | split | simp)

theorem execStartConditionLoss_frame (removed : Bool) (s : State) :
    ∃ u, execStartConditionLoss removed s = .next u ∧ u.free = s.free ∧ u.pending = s.pending ∧ u.boot.flash = s.boot.flash ∧
    u.boot.fuses = s.boot.fuses ∧ u.boot.seed = s.boot.seed ∧ u.boot.dpk = s.boot.dpk := by
  unfold execStartConditionLoss
  try dsimp only
  repeat' (first | split | simp)

theorem execInputUndervoltage_frame (s : State) :
    ∃ u, execInputUndervoltage s = .next u ∧ u.free = s.free ∧ u.pending = s.pending ∧ u.boot.flash = s.boot.flash ∧
    u.boot.fuses = s.boot.fuses ∧ u.boot.seed = s.boot.seed ∧ u.boot.dpk = s.boot.dpk := by
  unfold execInputUndervoltage
  try dsimp only
  repeat' (first | split | simp)

theorem execInputOvervoltage_frame (s : State) :
    ∃ u, execInputOvervoltage s = .next u ∧ u.free = s.free ∧ u.pending = s.pending ∧ u.boot.flash = s.boot.flash ∧
    u.boot.fuses = s.boot.fuses ∧ u.boot.seed = s.boot.seed ∧ u.boot.dpk = s.boot.dpk := by
  unfold execInputOvervoltage
  try dsimp only
  repeat' (first | split | simp)

theorem execInputOvercurrent_frame (s : State) :
    ∃ u, execInputOvercurrent s = .next u ∧ u.free = s.free ∧ u.pending = s.pending ∧ u.boot.flash = s.boot.flash ∧
    u.boot.fuses = s.boot.fuses ∧ u.boot.seed = s.boot.seed ∧ u.boot.dpk = s.boot.dpk := by
  unfold execInputOvercurrent
  try dsimp only
  repeat' (first | split | simp)

theorem execInputRelease_frame (tooHigh : Bool) (s : State) :
    ∃ u, execInputRelease tooHigh s = .next u ∧ u.boot = s.boot ∧ u.clocks = s.clocks ∧ u.host = s.host ∧ u.parts = s.parts ∧
    u.pf = s.pf ∧ u.tiles = s.tiles ∧ u.jewel = s.jewel ∧ u.ports = s.ports ∧ u.hatband = s.hatband ∧ u.engines = s.engines ∧
    u.free = s.free ∧ u.pending = s.pending := by
  unfold execInputRelease
  try dsimp only
  repeat' (first | split | simp)

theorem execVauxFault_frame (s : State) :
    ∃ u, execVauxFault s = .next u ∧ u.free = s.free ∧ u.pending = s.pending ∧ u.boot.flash = s.boot.flash ∧
    u.boot.fuses = s.boot.fuses ∧ u.boot.seed = s.boot.seed ∧ u.boot.dpk = s.boot.dpk := by
  unfold execVauxFault
  try dsimp only
  repeat' (first | split | simp)

theorem execVauxRecovery_frame (s : State) :
    ∃ u, execVauxRecovery s = .next u ∧ u.boot = s.boot ∧ u.clocks = s.clocks ∧ u.host = s.host ∧ u.parts = s.parts ∧ u.pf = s.pf ∧
    u.tiles = s.tiles ∧ u.jewel = s.jewel ∧ u.ports = s.ports ∧ u.hatband = s.hatband ∧ u.engines = s.engines ∧ u.free = s.free ∧
    u.pending = s.pending := by
  unfold execVauxRecovery
  try dsimp only
  repeat' (first | split | simp)

theorem execModEnableDeassert_frame (slotId : BitVec 5) (s : State) :
    ∃ u, execModEnableDeassert slotId s = .next u ∧ u.free = s.free ∧ u.pending = s.pending ∧ u.boot.flash = s.boot.flash ∧
    u.boot.fuses = s.boot.fuses ∧ u.boot.seed = s.boot.seed ∧ u.boot.dpk = s.boot.dpk := by
  unfold execModEnableDeassert
  try dsimp only
  repeat' (first | split | simp)

theorem execModEnableAssert_frame (s : State) :
    ∃ u, execModEnableAssert s = .next u ∧ u.clocks = s.clocks ∧ u.host = s.host ∧ u.parts = s.parts ∧ u.pf = s.pf ∧
    u.tiles = s.tiles ∧ u.jewel = s.jewel ∧ u.ports = s.ports ∧ u.hatband = s.hatband ∧ u.engines = s.engines ∧ u.free = s.free ∧
    u.pending = s.pending ∧ u.boot.flash = s.boot.flash ∧ u.boot.fuses = s.boot.fuses ∧ u.boot.seed = s.boot.seed ∧
    u.boot.dpk = s.boot.dpk := by
  unfold execModEnableAssert
  try dsimp only
  repeat' (first | split | simp)

theorem execModEnableHeldLow_frame (s : State) :
    ∃ u, execModEnableHeldLow s = .next u ∧ u.clocks = s.clocks ∧ u.host = s.host ∧ u.parts = s.parts ∧ u.pf = s.pf ∧
    u.tiles = s.tiles ∧ u.jewel = s.jewel ∧ u.ports = s.ports ∧ u.hatband = s.hatband ∧ u.engines = s.engines ∧ u.free = s.free ∧
    u.pending = s.pending ∧ u.boot.flash = s.boot.flash ∧ u.boot.fuses = s.boot.fuses ∧ u.boot.seed = s.boot.seed ∧
    u.boot.dpk = s.boot.dpk := by
  unfold execModEnableHeldLow
  try dsimp only
  repeat' (first | split | simp)

theorem execPerstNAssert_frame (s : State) :
    ∃ u, execPerstNAssert s = .next u ∧ u.free = s.free ∧ u.pending = s.pending ∧ u.boot.flash = s.boot.flash ∧
    u.boot.fuses = s.boot.fuses ∧ u.boot.seed = s.boot.seed ∧ u.boot.dpk = s.boot.dpk := by
  unfold execPerstNAssert
  try dsimp only
  repeat' (first | split | simp)

theorem execStormHoldEnd_frame (s : State) :
    ∃ u, execStormHoldEnd s = .next u ∧ u.boot = s.boot ∧ u.clocks = s.clocks ∧ u.host = s.host ∧ u.parts = s.parts ∧ u.pf = s.pf ∧
    u.tiles = s.tiles ∧ u.jewel = s.jewel ∧ u.ports = s.ports ∧ u.hatband = s.hatband ∧ u.engines = s.engines ∧ u.free = s.free ∧
    u.pending = s.pending := by
  unfold execStormHoldEnd
  try dsimp only
  repeat' (first | split | simp)

theorem execRailsRested_frame (s : State) :
    ∃ u, execRailsRested s = .next u ∧ u.boot = s.boot ∧ u.clocks = s.clocks ∧ u.host = s.host ∧ u.parts = s.parts ∧ u.pf = s.pf ∧
    u.tiles = s.tiles ∧ u.jewel = s.jewel ∧ u.ports = s.ports ∧ u.hatband = s.hatband ∧ u.engines = s.engines ∧ u.free = s.free ∧
    u.pending = s.pending := by
  unfold execRailsRested
  try dsimp only
  repeat' (first | split | simp)

theorem execSmbusBlockRead_frame (addr : BitVec 7) (code : Byte) (a : Analog) (s : State) :
    ∃ u, execSmbusBlockRead addr code a s = .next u ∧ u.boot = s.boot ∧ u.clocks = s.clocks ∧ u.host = s.host ∧ u.parts = s.parts ∧
    u.pf = s.pf ∧ u.tiles = s.tiles ∧ u.jewel = s.jewel ∧ u.ports = s.ports ∧ u.hatband = s.hatband ∧ u.engines = s.engines ∧
    u.free = s.free ∧ u.pending = s.pending := by
  unfold execSmbusBlockRead
  try dsimp only
  repeat' (first | split | simp)

theorem execSmbusWrite_frame (addr : BitVec 7) (_code : Byte) (_data : Bytes) (s : State) :
    ∃ u, execSmbusWrite addr _code _data s = .next u ∧ u.boot = s.boot ∧ u.clocks = s.clocks ∧ u.host = s.host ∧ u.parts = s.parts ∧
    u.pf = s.pf ∧ u.tiles = s.tiles ∧ u.jewel = s.jewel ∧ u.ports = s.ports ∧ u.hatband = s.hatband ∧ u.engines = s.engines ∧
    u.free = s.free ∧ u.pending = s.pending := by
  unfold execSmbusWrite
  try dsimp only
  repeat' (first | split | simp)

theorem execSmbusTimeout_frame (s : State) :
    ∃ u, execSmbusTimeout s = .next u ∧ u.boot = s.boot ∧ u.clocks = s.clocks ∧ u.host = s.host ∧ u.parts = s.parts ∧ u.pf = s.pf ∧
    u.tiles = s.tiles ∧ u.jewel = s.jewel ∧ u.ports = s.ports ∧ u.hatband = s.hatband ∧ u.engines = s.engines ∧ u.free = s.free ∧
    u.pending = s.pending := by
  unfold execSmbusTimeout
  try dsimp only
  repeat' (first | split | simp)

end Sys2Proof.Machine
end

