-- ==== Sys2Proof/Laws/FrameSeal.lean ====
section
/-! SUPPORT. What each function over State leaves as it was, and that each command answers a next state: the channels and the seal slices. -/

namespace Sys2Proof.Machine

@[simp] theorem State.raiseChan_frame (s : State) (t : TileId) (code : Nat) (ch : Nat) (detail : Nat) :
    (s.raiseChan t code ch detail).boot = s.boot ∧ (s.raiseChan t code ch detail).board = s.board ∧
    (s.raiseChan t code ch detail).clocks = s.clocks ∧ (s.raiseChan t code ch detail).host = s.host ∧
    (s.raiseChan t code ch detail).hatband = s.hatband ∧ (s.raiseChan t code ch detail).engines = s.engines ∧
    (s.raiseChan t code ch detail).free = s.free ∧ (s.raiseChan t code ch detail).pending = s.pending := by
  unfold State.raiseChan
  try dsimp only
  repeat' (first | split | simp)

@[simp] theorem State.failChannel_frame (s : State) (t : TileId) (k : ChanId) (why : Nat) :
    (s.failChannel t k why).boot = s.boot ∧ (s.failChannel t k why).board = s.board ∧ (s.failChannel t k why).clocks = s.clocks ∧
    (s.failChannel t k why).host = s.host ∧ (s.failChannel t k why).hatband = s.hatband ∧
    (s.failChannel t k why).engines = s.engines ∧ (s.failChannel t k why).free = s.free ∧
    (s.failChannel t k why).pending = s.pending := by
  unfold State.failChannel
  try dsimp only
  repeat' (first | split | simp)

@[simp] theorem State.countCorr_frame (s : State) (t : TileId) (k : ChanId) (line : Nat) (bad : List Nat) :
    (s.countCorr t k line bad).boot = s.boot ∧ (s.countCorr t k line bad).board = s.board ∧
    (s.countCorr t k line bad).clocks = s.clocks ∧ (s.countCorr t k line bad).host = s.host ∧
    (s.countCorr t k line bad).hatband = s.hatband ∧ (s.countCorr t k line bad).engines = s.engines ∧
    (s.countCorr t k line bad).free = s.free ∧ (s.countCorr t k line bad).pending = s.pending := by
  unfold State.countCorr
  try dsimp only
  repeat' (first | split | simp)

@[simp] theorem State.countUncorr_frame (s : State) (t : TileId) (k : ChanId) (line : Nat) :
    (s.countUncorr t k line).boot = s.boot ∧ (s.countUncorr t k line).board = s.board ∧ (s.countUncorr t k line).clocks = s.clocks ∧
    (s.countUncorr t k line).host = s.host ∧ (s.countUncorr t k line).hatband = s.hatband ∧
    (s.countUncorr t k line).engines = s.engines ∧ (s.countUncorr t k line).free = s.free ∧
    (s.countUncorr t k line).pending = s.pending := by
  unfold State.countUncorr
  try dsimp only
  repeat' (first | split | simp)

@[simp] theorem State.readLine_frame (s : State) (t : TileId) (k : ChanId) (line : Nat) (inp : LineIn) (keyid : Option Nat) :
    (s.readLine t k line inp keyid).2.boot = s.boot ∧ (s.readLine t k line inp keyid).2.board = s.board ∧
    (s.readLine t k line inp keyid).2.clocks = s.clocks ∧ (s.readLine t k line inp keyid).2.host = s.host ∧
    (s.readLine t k line inp keyid).2.hatband = s.hatband ∧ (s.readLine t k line inp keyid).2.engines = s.engines ∧
    (s.readLine t k line inp keyid).2.free = s.free ∧ (s.readLine t k line inp keyid).2.pending = s.pending := by
  unfold State.readLine
  try dsimp only
  repeat' (first | split | simp)

@[simp] theorem State.writeMeta_frame (s : State) (t : TileId) (k : Nat) (line : Nat) (data : Bytes) :
    (s.writeMeta t k line data).boot = s.boot ∧ (s.writeMeta t k line data).board = s.board ∧
    (s.writeMeta t k line data).clocks = s.clocks ∧ (s.writeMeta t k line data).host = s.host ∧
    (s.writeMeta t k line data).parts = s.parts ∧ (s.writeMeta t k line data).pf = s.pf ∧
    (s.writeMeta t k line data).jewel = s.jewel ∧ (s.writeMeta t k line data).ports = s.ports ∧
    (s.writeMeta t k line data).hatband = s.hatband ∧ (s.writeMeta t k line data).engines = s.engines ∧
    (s.writeMeta t k line data).free = s.free ∧ (s.writeMeta t k line data).pending = s.pending := by
  unfold State.writeMeta
  try dsimp only
  repeat' (first | split | simp)

@[simp] theorem State.putLeafTag_frame (s : State) (t : TileId) (l : Nat) (tag : Bytes) :
    (s.putLeafTag t l tag).boot = s.boot ∧ (s.putLeafTag t l tag).board = s.board ∧ (s.putLeafTag t l tag).clocks = s.clocks ∧
    (s.putLeafTag t l tag).host = s.host ∧ (s.putLeafTag t l tag).parts = s.parts ∧ (s.putLeafTag t l tag).pf = s.pf ∧
    (s.putLeafTag t l tag).jewel = s.jewel ∧ (s.putLeafTag t l tag).ports = s.ports ∧ (s.putLeafTag t l tag).hatband = s.hatband ∧
    (s.putLeafTag t l tag).engines = s.engines ∧ (s.putLeafTag t l tag).free = s.free ∧ (s.putLeafTag t l tag).pending = s.pending := by
  unfold State.putLeafTag
  try dsimp only
  repeat' (first | split | simp)

@[simp] theorem State.writeBack_frame (s : State) (t : TileId) (c : CLine) :
    (s.writeBack t c).boot = s.boot ∧ (s.writeBack t c).board = s.board ∧ (s.writeBack t c).clocks = s.clocks ∧
    (s.writeBack t c).host = s.host ∧ (s.writeBack t c).parts = s.parts ∧ (s.writeBack t c).pf = s.pf ∧
    (s.writeBack t c).jewel = s.jewel ∧ (s.writeBack t c).ports = s.ports ∧ (s.writeBack t c).hatband = s.hatband ∧
    (s.writeBack t c).engines = s.engines ∧ (s.writeBack t c).free = s.free ∧ (s.writeBack t c).pending = s.pending := by
  unfold State.writeBack
  try dsimp only
  repeat' (first | split | simp)

@[simp] theorem State.cleanLine_frame (s : State) (t : TileId) (m : MetaId) :
    (s.cleanLine t m).boot = s.boot ∧ (s.cleanLine t m).board = s.board ∧ (s.cleanLine t m).clocks = s.clocks ∧
    (s.cleanLine t m).host = s.host ∧ (s.cleanLine t m).parts = s.parts ∧ (s.cleanLine t m).pf = s.pf ∧
    (s.cleanLine t m).jewel = s.jewel ∧ (s.cleanLine t m).ports = s.ports ∧ (s.cleanLine t m).hatband = s.hatband ∧
    (s.cleanLine t m).engines = s.engines ∧ (s.cleanLine t m).free = s.free ∧ (s.cleanLine t m).pending = s.pending := by
  unfold State.cleanLine
  try dsimp only
  repeat' (first | split | simp)

@[simp] theorem State.evict_frame (s : State) (t : TileId) (m : MetaId) :
    (s.evict t m).boot = s.boot ∧ (s.evict t m).board = s.board ∧ (s.evict t m).clocks = s.clocks ∧ (s.evict t m).host = s.host ∧
    (s.evict t m).parts = s.parts ∧ (s.evict t m).pf = s.pf ∧ (s.evict t m).jewel = s.jewel ∧ (s.evict t m).ports = s.ports ∧
    (s.evict t m).hatband = s.hatband ∧ (s.evict t m).engines = s.engines ∧ (s.evict t m).free = s.free ∧
    (s.evict t m).pending = s.pending := by
  unfold State.evict
  try dsimp only
  repeat' (first | split | simp)

@[simp] theorem State.cacheFill_frame (s : State) (t : TileId) (c : CLine) :
    (s.cacheFill t c).boot = s.boot ∧ (s.cacheFill t c).board = s.board ∧ (s.cacheFill t c).clocks = s.clocks ∧
    (s.cacheFill t c).host = s.host ∧ (s.cacheFill t c).parts = s.parts ∧ (s.cacheFill t c).pf = s.pf ∧
    (s.cacheFill t c).jewel = s.jewel ∧ (s.cacheFill t c).ports = s.ports ∧ (s.cacheFill t c).hatband = s.hatband ∧
    (s.cacheFill t c).engines = s.engines ∧ (s.cacheFill t c).free = s.free ∧ (s.cacheFill t c).pending = s.pending := by
  unfold State.cacheFill
  try dsimp only
  repeat' (first | split | simp)

@[simp] theorem State.useLine_frame (s : State) (t : TileId) (m : MetaId) :
    (s.useLine t m).boot = s.boot ∧ (s.useLine t m).board = s.board ∧ (s.useLine t m).clocks = s.clocks ∧
    (s.useLine t m).host = s.host ∧ (s.useLine t m).parts = s.parts ∧ (s.useLine t m).pf = s.pf ∧ (s.useLine t m).jewel = s.jewel ∧
    (s.useLine t m).ports = s.ports ∧ (s.useLine t m).hatband = s.hatband ∧ (s.useLine t m).engines = s.engines ∧
    (s.useLine t m).free = s.free ∧ (s.useLine t m).pending = s.pending := by
  unfold State.useLine
  try dsimp only
  repeat' (first | split | simp)

@[simp] theorem State.holding_boot (s : State) (t : TileId) (ms : List MetaId) (f : State → State) (h : ∀ u, (f u).boot = u.boot) :
    (s.holding t ms f).boot = s.boot := by
  simp [State.holding, h]

@[simp] theorem State.holding_board (s : State) (t : TileId) (ms : List MetaId) (f : State → State) (h : ∀ u, (f u).board = u.board) :
    (s.holding t ms f).board = s.board := by
  simp [State.holding, h]

@[simp] theorem State.holding_clocks (s : State) (t : TileId) (ms : List MetaId) (f : State → State) (h : ∀ u, (f u).clocks = u.clocks) :
    (s.holding t ms f).clocks = s.clocks := by
  simp [State.holding, h]

@[simp] theorem State.holding_host (s : State) (t : TileId) (ms : List MetaId) (f : State → State) (h : ∀ u, (f u).host = u.host) :
    (s.holding t ms f).host = s.host := by
  simp [State.holding, h]

@[simp] theorem State.holding_parts (s : State) (t : TileId) (ms : List MetaId) (f : State → State) (h : ∀ u, (f u).parts = u.parts) :
    (s.holding t ms f).parts = s.parts := by
  simp [State.holding, h]

@[simp] theorem State.holding_pf (s : State) (t : TileId) (ms : List MetaId) (f : State → State) (h : ∀ u, (f u).pf = u.pf) :
    (s.holding t ms f).pf = s.pf := by
  simp [State.holding, h]

@[simp] theorem State.holding_jewel (s : State) (t : TileId) (ms : List MetaId) (f : State → State) (h : ∀ u, (f u).jewel = u.jewel) :
    (s.holding t ms f).jewel = s.jewel := by
  simp [State.holding, h]

@[simp] theorem State.holding_ports (s : State) (t : TileId) (ms : List MetaId) (f : State → State) (h : ∀ u, (f u).ports = u.ports) :
    (s.holding t ms f).ports = s.ports := by
  simp [State.holding, h]

@[simp] theorem State.holding_hatband (s : State) (t : TileId) (ms : List MetaId) (f : State → State) (h : ∀ u, (f u).hatband = u.hatband) :
    (s.holding t ms f).hatband = s.hatband := by
  simp [State.holding, h]

@[simp] theorem State.holding_engines (s : State) (t : TileId) (ms : List MetaId) (f : State → State) (h : ∀ u, (f u).engines = u.engines) :
    (s.holding t ms f).engines = s.engines := by
  simp [State.holding, h]

@[simp] theorem State.holding_free (s : State) (t : TileId) (ms : List MetaId) (f : State → State) (h : ∀ u, (f u).free = u.free) :
    (s.holding t ms f).free = s.free := by
  simp [State.holding, h]

@[simp] theorem State.holding_pending (s : State) (t : TileId) (ms : List MetaId) (f : State → State) (h : ∀ u, (f u).pending = u.pending) :
    (s.holding t ms f).pending = s.pending := by
  simp [State.holding, h]

@[simp] theorem State.holding_boot_flash (s : State) (t : TileId) (ms : List MetaId) (f : State → State) (h : ∀ u, (f u).boot.flash = u.boot.flash) :
    (s.holding t ms f).boot.flash = s.boot.flash := by
  simp [State.holding, h]

@[simp] theorem State.holding_boot_fuses (s : State) (t : TileId) (ms : List MetaId) (f : State → State) (h : ∀ u, (f u).boot.fuses = u.boot.fuses) :
    (s.holding t ms f).boot.fuses = s.boot.fuses := by
  simp [State.holding, h]

@[simp] theorem State.holding_boot_seed (s : State) (t : TileId) (ms : List MetaId) (f : State → State) (h : ∀ u, (f u).boot.seed = u.boot.seed) :
    (s.holding t ms f).boot.seed = s.boot.seed := by
  simp [State.holding, h]

@[simp] theorem State.holding_boot_dpk (s : State) (t : TileId) (ms : List MetaId) (f : State → State) (h : ∀ u, (f u).boot.dpk = u.boot.dpk) :
    (s.holding t ms f).boot.dpk = s.boot.dpk := by
  simp [State.holding, h]

@[simp] theorem State.readRoot_frame (s : State) (t : TileId) (i : Nat) :
    (s.readRoot t i).pending = s.pending ∧ (s.readRoot t i).boot.flash = s.boot.flash ∧ (s.readRoot t i).boot.fuses = s.boot.fuses ∧
    (s.readRoot t i).boot.seed = s.boot.seed ∧ (s.readRoot t i).boot.dpk = s.boot.dpk := by
  unfold State.readRoot
  try dsimp only
  repeat' (first | split | simp)

@[simp] theorem State.readNodeCopy_frame (s : State) (t : TileId) (mirror : Bool) (lv : Nat) (i : Nat) (ctr : Nat) (inp : LineIn) :
    (s.readNodeCopy t mirror lv i ctr inp).1.boot = s.boot ∧ (s.readNodeCopy t mirror lv i ctr inp).1.board = s.board ∧
    (s.readNodeCopy t mirror lv i ctr inp).1.clocks = s.clocks ∧ (s.readNodeCopy t mirror lv i ctr inp).1.host = s.host ∧
    (s.readNodeCopy t mirror lv i ctr inp).1.hatband = s.hatband ∧ (s.readNodeCopy t mirror lv i ctr inp).1.engines = s.engines ∧
    (s.readNodeCopy t mirror lv i ctr inp).1.free = s.free ∧ (s.readNodeCopy t mirror lv i ctr inp).1.pending = s.pending := by
  unfold State.readNodeCopy
  try dsimp only
  repeat' (first | split | simp)

@[simp] theorem State.fetchNode_frame (s : State) (t : TileId) (lv : Nat) (i : Nat) (a : LineIn) (b : LineIn) :
    (s.fetchNode t lv i a b).boot = s.boot ∧ (s.fetchNode t lv i a b).board = s.board ∧ (s.fetchNode t lv i a b).clocks = s.clocks ∧
    (s.fetchNode t lv i a b).host = s.host ∧ (s.fetchNode t lv i a b).hatband = s.hatband ∧
    (s.fetchNode t lv i a b).engines = s.engines ∧ (s.fetchNode t lv i a b).free = s.free ∧
    (s.fetchNode t lv i a b).pending = s.pending := by
  unfold State.fetchNode
  try dsimp only
  repeat' (first | split | simp)

@[simp] theorem State.pinChain_frame (s : State) (t : TileId) (leaf : Nat) :
    (s.pinChain t leaf).pending = s.pending ∧ (s.pinChain t leaf).boot.flash = s.boot.flash ∧
    (s.pinChain t leaf).boot.fuses = s.boot.fuses ∧ (s.pinChain t leaf).boot.seed = s.boot.seed ∧
    (s.pinChain t leaf).boot.dpk = s.boot.dpk := by
  unfold State.pinChain
  try dsimp only
  repeat' (first | split | simp)

@[simp] theorem State.issueGranule_frame (s : State) (t : TileId) (g : Nat) (keyid : Nat) (data : Bytes) (psn : List Nat) :
    (s.issueGranule t g keyid data psn).boot = s.boot ∧ (s.issueGranule t g keyid data psn).board = s.board ∧
    (s.issueGranule t g keyid data psn).clocks = s.clocks ∧ (s.issueGranule t g keyid data psn).host = s.host ∧
    (s.issueGranule t g keyid data psn).parts = s.parts ∧ (s.issueGranule t g keyid data psn).pf = s.pf ∧
    (s.issueGranule t g keyid data psn).jewel = s.jewel ∧ (s.issueGranule t g keyid data psn).ports = s.ports ∧
    (s.issueGranule t g keyid data psn).hatband = s.hatband ∧ (s.issueGranule t g keyid data psn).engines = s.engines ∧
    (s.issueGranule t g keyid data psn).free = s.free ∧ (s.issueGranule t g keyid data psn).pending = s.pending := by
  unfold State.issueGranule
  try dsimp only
  repeat' (first | split | simp)

@[simp] theorem State.openGranule_frame (s : State) (t : TileId) (g : Nat) (keyid : Nat) (minor : Nat) (major : Nat) (lines : List
    LineIn) :
    (s.openGranule t g keyid minor major lines).1.boot = s.boot ∧ (s.openGranule t g keyid minor major lines).1.board = s.board ∧
    (s.openGranule t g keyid minor major lines).1.clocks = s.clocks ∧ (s.openGranule t g keyid minor major lines).1.host = s.host ∧
    (s.openGranule t g keyid minor major lines).1.hatband = s.hatband ∧
    (s.openGranule t g keyid minor major lines).1.engines = s.engines ∧
    (s.openGranule t g keyid minor major lines).1.free = s.free ∧ (s.openGranule t g keyid minor major lines).1.pending = s.pending := by
  unfold State.openGranule
  try dsimp only
  repeat' (first | split | simp)

@[simp] theorem State.logGranule_frame (s : State) (t : TileId) (g : Nat) (mis : Bool) :
    (s.logGranule t g mis).boot = s.boot ∧ (s.logGranule t g mis).board = s.board ∧ (s.logGranule t g mis).clocks = s.clocks ∧
    (s.logGranule t g mis).host = s.host ∧ (s.logGranule t g mis).hatband = s.hatband ∧ (s.logGranule t g mis).engines = s.engines ∧
    (s.logGranule t g mis).free = s.free ∧ (s.logGranule t g mis).pending = s.pending := by
  unfold State.logGranule
  try dsimp only
  repeat' (first | split | simp)

@[simp] theorem State.setLeaf_frame (s : State) (t : TileId) (l : Nat) (d : Bytes) :
    (s.setLeaf t l d).boot = s.boot ∧ (s.setLeaf t l d).board = s.board ∧ (s.setLeaf t l d).clocks = s.clocks ∧
    (s.setLeaf t l d).host = s.host ∧ (s.setLeaf t l d).parts = s.parts ∧ (s.setLeaf t l d).pf = s.pf ∧
    (s.setLeaf t l d).jewel = s.jewel ∧ (s.setLeaf t l d).ports = s.ports ∧ (s.setLeaf t l d).hatband = s.hatband ∧
    (s.setLeaf t l d).engines = s.engines ∧ (s.setLeaf t l d).free = s.free ∧ (s.setLeaf t l d).pending = s.pending := by
  unfold State.setLeaf
  try dsimp only
  repeat' (first | split | simp)

@[simp] theorem State.flushLeaf_frame (s : State) (t : TileId) (l : Nat) :
    (s.flushLeaf t l).boot = s.boot ∧ (s.flushLeaf t l).board = s.board ∧ (s.flushLeaf t l).clocks = s.clocks ∧
    (s.flushLeaf t l).host = s.host ∧ (s.flushLeaf t l).parts = s.parts ∧ (s.flushLeaf t l).pf = s.pf ∧
    (s.flushLeaf t l).jewel = s.jewel ∧ (s.flushLeaf t l).ports = s.ports ∧ (s.flushLeaf t l).hatband = s.hatband ∧
    (s.flushLeaf t l).engines = s.engines ∧ (s.flushLeaf t l).free = s.free ∧ (s.flushLeaf t l).pending = s.pending := by
  unfold State.flushLeaf
  try dsimp only
  repeat' (first | split | simp)

@[simp] theorem State.fetchTagLine_frame (s : State) (t : TileId) (g : Nat) (inp : LineIn) :
    (s.fetchTagLine t g inp).boot = s.boot ∧ (s.fetchTagLine t g inp).board = s.board ∧ (s.fetchTagLine t g inp).clocks = s.clocks ∧
    (s.fetchTagLine t g inp).host = s.host ∧ (s.fetchTagLine t g inp).hatband = s.hatband ∧
    (s.fetchTagLine t g inp).engines = s.engines ∧ (s.fetchTagLine t g inp).free = s.free ∧
    (s.fetchTagLine t g inp).pending = s.pending := by
  unfold State.fetchTagLine
  try dsimp only
  repeat' (first | split | simp)

@[simp] theorem State.fetchLeafTags_frame (s : State) (t : TileId) (l : Nat) (lines : List LineIn) :
    (s.fetchLeafTags t l lines).1.boot = s.boot ∧ (s.fetchLeafTags t l lines).1.board = s.board ∧
    (s.fetchLeafTags t l lines).1.clocks = s.clocks ∧ (s.fetchLeafTags t l lines).1.host = s.host ∧
    (s.fetchLeafTags t l lines).1.hatband = s.hatband ∧ (s.fetchLeafTags t l lines).1.engines = s.engines ∧
    (s.fetchLeafTags t l lines).1.free = s.free ∧ (s.fetchLeafTags t l lines).1.pending = s.pending := by
  unfold State.fetchLeafTags
  try dsimp only
  repeat' (first | split | simp)

@[simp] theorem State.wrapRead_frame (s : State) (t : TileId) (g : Nat) (keyid : Nat) (leaf : Bytes) (lines : List LineIn) :
    (s.wrapRead t g keyid leaf lines).1.boot = s.boot ∧ (s.wrapRead t g keyid leaf lines).1.board = s.board ∧
    (s.wrapRead t g keyid leaf lines).1.clocks = s.clocks ∧ (s.wrapRead t g keyid leaf lines).1.host = s.host ∧
    (s.wrapRead t g keyid leaf lines).1.hatband = s.hatband ∧ (s.wrapRead t g keyid leaf lines).1.engines = s.engines ∧
    (s.wrapRead t g keyid leaf lines).1.free = s.free ∧ (s.wrapRead t g keyid leaf lines).1.pending = s.pending := by
  unfold State.wrapRead
  try dsimp only
  repeat' (first | split | simp)

@[simp] theorem State.freezeLeaf_frame (s : State) (t : TileId) (l : Nat) (leaf : Bytes) :
    (s.freezeLeaf t l leaf).pending = s.pending ∧ (s.freezeLeaf t l leaf).boot.flash = s.boot.flash ∧
    (s.freezeLeaf t l leaf).boot.fuses = s.boot.fuses ∧ (s.freezeLeaf t l leaf).boot.seed = s.boot.seed ∧
    (s.freezeLeaf t l leaf).boot.dpk = s.boot.dpk := by
  unfold State.freezeLeaf
  try dsimp only
  repeat' (first | split | simp)

@[simp] theorem State.wrapLeaf_frame (s : State) (t : TileId) (g : Nat) (keyid : Nat) (data : Bytes) (psn : List Nat) (leaf :
    Bytes) (lines : List LineIn) :
    (s.wrapLeaf t g keyid data psn leaf lines).pending = s.pending ∧
    (s.wrapLeaf t g keyid data psn leaf lines).boot.flash = s.boot.flash ∧
    (s.wrapLeaf t g keyid data psn leaf lines).boot.fuses = s.boot.fuses ∧
    (s.wrapLeaf t g keyid data psn leaf lines).boot.seed = s.boot.seed ∧
    (s.wrapLeaf t g keyid data psn leaf lines).boot.dpk = s.boot.dpk := by
  unfold State.wrapLeaf
  try dsimp only
  repeat' (first | split | simp)

@[simp] theorem State.writeGranule_frame (s : State) (t : TileId) (g : Nat) (keyid : Nat) (data : Bytes) (psn : List Nat) (lines :
    List LineIn) :
    (s.writeGranule t g keyid data psn lines).pending = s.pending ∧
    (s.writeGranule t g keyid data psn lines).boot.flash = s.boot.flash ∧
    (s.writeGranule t g keyid data psn lines).boot.fuses = s.boot.fuses ∧
    (s.writeGranule t g keyid data psn lines).boot.seed = s.boot.seed ∧
    (s.writeGranule t g keyid data psn lines).boot.dpk = s.boot.dpk := by
  unfold State.writeGranule
  try dsimp only
  repeat' (first | split | simp)

@[simp] theorem State.poisonGranule_frame (s : State) (t : TileId) (g : Nat) (keyid : Nat) (lines : List LineIn) :
    (s.poisonGranule t g keyid lines).pending = s.pending ∧ (s.poisonGranule t g keyid lines).boot.flash = s.boot.flash ∧
    (s.poisonGranule t g keyid lines).boot.fuses = s.boot.fuses ∧ (s.poisonGranule t g keyid lines).boot.seed = s.boot.seed ∧
    (s.poisonGranule t g keyid lines).boot.dpk = s.boot.dpk := by
  unfold State.poisonGranule
  try dsimp only
  repeat' (first | split | simp)

@[simp] theorem State.repairLeaf_frame (s : State) (t : TileId) (l : Nat) (keyid : Nat) (lines : List LineIn) :
    (s.repairLeaf t l keyid lines).pending = s.pending ∧ (s.repairLeaf t l keyid lines).boot.flash = s.boot.flash ∧
    (s.repairLeaf t l keyid lines).boot.fuses = s.boot.fuses ∧ (s.repairLeaf t l keyid lines).boot.seed = s.boot.seed ∧
    (s.repairLeaf t l keyid lines).boot.dpk = s.boot.dpk := by
  unfold State.repairLeaf
  try dsimp only
  repeat' (first | split | simp)

@[simp] theorem State.fetchLeafTag_frame (s : State) (t : TileId) (l : Nat) (inp : LineIn) :
    (s.fetchLeafTag t l inp).boot = s.boot ∧ (s.fetchLeafTag t l inp).board = s.board ∧ (s.fetchLeafTag t l inp).clocks = s.clocks ∧
    (s.fetchLeafTag t l inp).host = s.host ∧ (s.fetchLeafTag t l inp).hatband = s.hatband ∧
    (s.fetchLeafTag t l inp).engines = s.engines ∧ (s.fetchLeafTag t l inp).free = s.free ∧
    (s.fetchLeafTag t l inp).pending = s.pending := by
  unfold State.fetchLeafTag
  try dsimp only
  repeat' (first | split | simp)

@[simp] theorem State.fetchLeaf_frame (s : State) (t : TileId) (l : Nat) (keyid : Nat) (a : LineIn) (b : LineIn) :
    (s.fetchLeaf t l keyid a b).pending = s.pending ∧ (s.fetchLeaf t l keyid a b).boot.flash = s.boot.flash ∧
    (s.fetchLeaf t l keyid a b).boot.fuses = s.boot.fuses ∧ (s.fetchLeaf t l keyid a b).boot.seed = s.boot.seed ∧
    (s.fetchLeaf t l keyid a b).boot.dpk = s.boot.dpk := by
  unfold State.fetchLeaf
  try dsimp only
  repeat' (first | split | simp)

@[simp] theorem State.fillMiss_frame (s : State) (t : TileId) (g : Nat) (keyid : Nat) (write : Bool) (lines : List LineIn)
    (mirrors : List LineIn) :
    (s.fillMiss t g keyid write lines mirrors).pending = s.pending ∧
    (s.fillMiss t g keyid write lines mirrors).boot.flash = s.boot.flash ∧
    (s.fillMiss t g keyid write lines mirrors).boot.fuses = s.boot.fuses ∧
    (s.fillMiss t g keyid write lines mirrors).boot.seed = s.boot.seed ∧
    (s.fillMiss t g keyid write lines mirrors).boot.dpk = s.boot.dpk := by
  unfold State.fillMiss
  try dsimp only
  repeat' (first | split | simp [-List.foldl_reverse])

@[simp] theorem State.poisonFailed_frame (s : State) (t : TileId) (g : Nat) (keyid : Nat) (lines : List LineIn) :
    (s.poisonFailed t g keyid lines).pending = s.pending ∧ (s.poisonFailed t g keyid lines).boot.flash = s.boot.flash ∧
    (s.poisonFailed t g keyid lines).boot.fuses = s.boot.fuses ∧ (s.poisonFailed t g keyid lines).boot.seed = s.boot.seed ∧
    (s.poisonFailed t g keyid lines).boot.dpk = s.boot.dpk := by
  unfold State.poisonFailed
  try dsimp only
  repeat' (first | split | simp)

@[simp] theorem State.readGranule_frame (s : State) (t : TileId) (g : Nat) (keyid : Nat) (lines : List LineIn) :
    (s.readGranule t g keyid lines).1.pending = s.pending ∧ (s.readGranule t g keyid lines).1.boot.flash = s.boot.flash ∧
    (s.readGranule t g keyid lines).1.boot.fuses = s.boot.fuses ∧ (s.readGranule t g keyid lines).1.boot.seed = s.boot.seed ∧
    (s.readGranule t g keyid lines).1.boot.dpk = s.boot.dpk := by
  unfold State.readGranule
  try dsimp only
  repeat' (first | split | simp)

@[simp] theorem State.mergeWrite_frame (s : State) (t : TileId) (g : Nat) (keyid : Nat) (lo : Nat) (hi : Nat) (data : Bytes) (psn
    : List Nat) (lines : List LineIn) :
    (s.mergeWrite t g keyid lo hi data psn lines).pending = s.pending ∧
    (s.mergeWrite t g keyid lo hi data psn lines).boot.flash = s.boot.flash ∧
    (s.mergeWrite t g keyid lo hi data psn lines).boot.fuses = s.boot.fuses ∧
    (s.mergeWrite t g keyid lo hi data psn lines).boot.seed = s.boot.seed ∧
    (s.mergeWrite t g keyid lo hi data psn lines).boot.dpk = s.boot.dpk := by
  unfold State.mergeWrite
  try dsimp only
  repeat' (first | split | simp)

end Sys2Proof.Machine
end

