-- ==== Sys2Proof/Laws/FrameTransfer.lean ====
section
/-! SUPPORT. What each function over State leaves as it was, and that each command answers a next state: streams, transfers, the regulator, messages into the ring and the checkpoint log. -/

namespace Sys2Proof.Machine

@[simp] theorem State.modStream_frame (s : State) (p : PartId) (sid : Nat) (f : Stream → Stream) :
    (s.modStream p sid f).boot = s.boot ∧ (s.modStream p sid f).board = s.board ∧ (s.modStream p sid f).clocks = s.clocks ∧
    (s.modStream p sid f).host = s.host ∧ (s.modStream p sid f).pf = s.pf ∧ (s.modStream p sid f).tiles = s.tiles ∧
    (s.modStream p sid f).jewel = s.jewel ∧ (s.modStream p sid f).ports = s.ports ∧ (s.modStream p sid f).hatband = s.hatband ∧
    (s.modStream p sid f).engines = s.engines ∧ (s.modStream p sid f).free = s.free ∧ (s.modStream p sid f).pending = s.pending := by
  unfold State.modStream
  try dsimp only
  repeat' (first | split | simp)

@[simp] theorem State.postWrite_frame (s : State) (f : Fn) (w : HostWrite) :
    (s.postWrite f w).boot = s.boot ∧ (s.postWrite f w).board = s.board ∧ (s.postWrite f w).clocks = s.clocks ∧
    (s.postWrite f w).host = s.host ∧ (s.postWrite f w).tiles = s.tiles ∧ (s.postWrite f w).jewel = s.jewel ∧
    (s.postWrite f w).ports = s.ports ∧ (s.postWrite f w).hatband = s.hatband ∧ (s.postWrite f w).engines = s.engines ∧
    (s.postWrite f w).free = s.free ∧ (s.postWrite f w).pending = s.pending := by
  unfold State.postWrite
  try dsimp only
  repeat' (first | split | simp)

@[simp] theorem State.postChunk_frame (s : State) (p : PartId) (st : Stream) (epoch : Nat) (i : Nat) (plain : Bytes) (owner :
    Owner) (hw : Nat) :
    (s.postChunk p st epoch i plain owner hw).boot = s.boot ∧ (s.postChunk p st epoch i plain owner hw).board = s.board ∧
    (s.postChunk p st epoch i plain owner hw).clocks = s.clocks ∧ (s.postChunk p st epoch i plain owner hw).host = s.host ∧
    (s.postChunk p st epoch i plain owner hw).tiles = s.tiles ∧ (s.postChunk p st epoch i plain owner hw).jewel = s.jewel ∧
    (s.postChunk p st epoch i plain owner hw).ports = s.ports ∧ (s.postChunk p st epoch i plain owner hw).hatband = s.hatband ∧
    (s.postChunk p st epoch i plain owner hw).engines = s.engines ∧ (s.postChunk p st epoch i plain owner hw).free = s.free ∧
    (s.postChunk p st epoch i plain owner hw).pending = s.pending := by
  unfold State.postChunk
  try dsimp only
  repeat' (first | split | simp)

@[simp] theorem State.askChunk_frame (s : State) (p : PartId) (st : Stream) (i : Nat) (owner : Owner) :
    (s.askChunk p st i owner).boot = s.boot ∧ (s.askChunk p st i owner).board = s.board ∧
    (s.askChunk p st i owner).clocks = s.clocks ∧ (s.askChunk p st i owner).tiles = s.tiles ∧
    (s.askChunk p st i owner).jewel = s.jewel ∧ (s.askChunk p st i owner).ports = s.ports ∧
    (s.askChunk p st i owner).hatband = s.hatband ∧ (s.askChunk p st i owner).engines = s.engines ∧
    (s.askChunk p st i owner).free = s.free ∧ (s.askChunk p st i owner).pending = s.pending := by
  unfold State.askChunk
  try dsimp only
  repeat' (first | split | simp)

@[simp] theorem State.askObject_frame (s : State) (f : Fn) (seq : Nat) (addr : Nat) (len : Nat) :
    (s.askObject f seq addr len).boot = s.boot ∧ (s.askObject f seq addr len).board = s.board ∧
    (s.askObject f seq addr len).clocks = s.clocks ∧ (s.askObject f seq addr len).tiles = s.tiles ∧
    (s.askObject f seq addr len).jewel = s.jewel ∧ (s.askObject f seq addr len).ports = s.ports ∧
    (s.askObject f seq addr len).hatband = s.hatband ∧ (s.askObject f seq addr len).engines = s.engines ∧
    (s.askObject f seq addr len).free = s.free ∧ (s.askObject f seq addr len).pending = s.pending := by
  unfold State.askObject
  try dsimp only
  repeat' (first | split | simp)

@[simp] theorem State.issue_frame (s : State) (f : Fn) (w : HostWrite) :
    (s.issue f w).boot = s.boot ∧ (s.issue f w).board = s.board ∧ (s.issue f w).clocks = s.clocks ∧ (s.issue f w).pf = s.pf ∧
    (s.issue f w).tiles = s.tiles ∧ (s.issue f w).jewel = s.jewel ∧ (s.issue f w).ports = s.ports ∧
    (s.issue f w).hatband = s.hatband ∧ (s.issue f w).engines = s.engines ∧ (s.issue f w).free = s.free ∧
    (s.issue f w).pending = s.pending := by
  unfold State.issue
  try dsimp only
  repeat' (first | split | simp)

@[simp] theorem State.dropRequests_frame (s : State) (f : Fn) (o : Owner) :
    (s.dropRequests f o).boot = s.boot ∧ (s.dropRequests f o).board = s.board ∧ (s.dropRequests f o).clocks = s.clocks ∧
    (s.dropRequests f o).host = s.host ∧ (s.dropRequests f o).tiles = s.tiles ∧ (s.dropRequests f o).jewel = s.jewel ∧
    (s.dropRequests f o).ports = s.ports ∧ (s.dropRequests f o).hatband = s.hatband ∧ (s.dropRequests f o).engines = s.engines ∧
    (s.dropRequests f o).free = s.free ∧ (s.dropRequests f o).pending = s.pending := by
  unfold State.dropRequests
  try dsimp only
  repeat' (first | split | simp)

@[simp] theorem State.asCmd_boot (s : State) (t : TileId) (who : Option (Bool × Nat)) (f : State → State) (h : ∀ u, (f u).boot = u.boot) :
    (s.asCmd t who f).boot = s.boot := by
  simp [State.asCmd, h]

@[simp] theorem State.asCmd_board (s : State) (t : TileId) (who : Option (Bool × Nat)) (f : State → State) (h : ∀ u, (f u).board = u.board) :
    (s.asCmd t who f).board = s.board := by
  simp [State.asCmd, h]

@[simp] theorem State.asCmd_clocks (s : State) (t : TileId) (who : Option (Bool × Nat)) (f : State → State) (h : ∀ u, (f u).clocks = u.clocks) :
    (s.asCmd t who f).clocks = s.clocks := by
  simp [State.asCmd, h]

@[simp] theorem State.asCmd_host (s : State) (t : TileId) (who : Option (Bool × Nat)) (f : State → State) (h : ∀ u, (f u).host = u.host) :
    (s.asCmd t who f).host = s.host := by
  simp [State.asCmd, h]

@[simp] theorem State.asCmd_parts (s : State) (t : TileId) (who : Option (Bool × Nat)) (f : State → State) (h : ∀ u, (f u).parts = u.parts) :
    (s.asCmd t who f).parts = s.parts := by
  simp [State.asCmd, h]

@[simp] theorem State.asCmd_pf (s : State) (t : TileId) (who : Option (Bool × Nat)) (f : State → State) (h : ∀ u, (f u).pf = u.pf) :
    (s.asCmd t who f).pf = s.pf := by
  simp [State.asCmd, h]

@[simp] theorem State.asCmd_jewel (s : State) (t : TileId) (who : Option (Bool × Nat)) (f : State → State) (h : ∀ u, (f u).jewel = u.jewel) :
    (s.asCmd t who f).jewel = s.jewel := by
  simp [State.asCmd, h]

@[simp] theorem State.asCmd_ports (s : State) (t : TileId) (who : Option (Bool × Nat)) (f : State → State) (h : ∀ u, (f u).ports = u.ports) :
    (s.asCmd t who f).ports = s.ports := by
  simp [State.asCmd, h]

@[simp] theorem State.asCmd_hatband (s : State) (t : TileId) (who : Option (Bool × Nat)) (f : State → State) (h : ∀ u, (f u).hatband = u.hatband) :
    (s.asCmd t who f).hatband = s.hatband := by
  simp [State.asCmd, h]

@[simp] theorem State.asCmd_engines (s : State) (t : TileId) (who : Option (Bool × Nat)) (f : State → State) (h : ∀ u, (f u).engines = u.engines) :
    (s.asCmd t who f).engines = s.engines := by
  simp [State.asCmd, h]

@[simp] theorem State.asCmd_free (s : State) (t : TileId) (who : Option (Bool × Nat)) (f : State → State) (h : ∀ u, (f u).free = u.free) :
    (s.asCmd t who f).free = s.free := by
  simp [State.asCmd, h]

@[simp] theorem State.asCmd_pending (s : State) (t : TileId) (who : Option (Bool × Nat)) (f : State → State) (h : ∀ u, (f u).pending = u.pending) :
    (s.asCmd t who f).pending = s.pending := by
  simp [State.asCmd, h]

@[simp] theorem State.asCmd_boot_flash (s : State) (t : TileId) (who : Option (Bool × Nat)) (f : State → State) (h : ∀ u, (f u).boot.flash = u.boot.flash) :
    (s.asCmd t who f).boot.flash = s.boot.flash := by
  simp [State.asCmd, h]

@[simp] theorem State.asCmd_boot_fuses (s : State) (t : TileId) (who : Option (Bool × Nat)) (f : State → State) (h : ∀ u, (f u).boot.fuses = u.boot.fuses) :
    (s.asCmd t who f).boot.fuses = s.boot.fuses := by
  simp [State.asCmd, h]

@[simp] theorem State.asCmd_boot_seed (s : State) (t : TileId) (who : Option (Bool × Nat)) (f : State → State) (h : ∀ u, (f u).boot.seed = u.boot.seed) :
    (s.asCmd t who f).boot.seed = s.boot.seed := by
  simp [State.asCmd, h]

@[simp] theorem State.asCmd_boot_dpk (s : State) (t : TileId) (who : Option (Bool × Nat)) (f : State → State) (h : ∀ u, (f u).boot.dpk = u.boot.dpk) :
    (s.asCmd t who f).boot.dpk = s.boot.dpk := by
  simp [State.asCmd, h]

@[simp] theorem State.readNow_frame (s : State) (t : TileId) (g : Nat) (keyid : Nat) (who : Option (Bool × Nat)) :
    (s.readNow t g keyid who).1.pending = s.pending ∧ (s.readNow t g keyid who).1.boot.flash = s.boot.flash ∧
    (s.readNow t g keyid who).1.boot.fuses = s.boot.fuses ∧ (s.readNow t g keyid who).1.boot.seed = s.boot.seed ∧
    (s.readNow t g keyid who).1.boot.dpk = s.boot.dpk := by
  unfold State.readNow
  try dsimp only
  repeat' (first | split | simp)

@[simp] theorem State.writeNow_frame (s : State) (t : TileId) (g : Nat) (keyid : Nat) (lo : Nat) (hi : Nat) (data : Bytes) (psn :
    List Nat) (who : Option (Bool × Nat)) :
    (s.writeNow t g keyid lo hi data psn who).pending = s.pending ∧
    (s.writeNow t g keyid lo hi data psn who).boot.flash = s.boot.flash ∧
    (s.writeNow t g keyid lo hi data psn who).boot.fuses = s.boot.fuses ∧
    (s.writeNow t g keyid lo hi data psn who).boot.seed = s.boot.seed ∧
    (s.writeNow t g keyid lo hi data psn who).boot.dpk = s.boot.dpk := by
  unfold State.writeNow
  try dsimp only
  repeat' (first | split | simp)

@[simp] theorem State.readRange_frame (s : State) (t : TileId) (keyid : Nat) (ofs : Nat) (len : Nat) (who : Option (Bool × Nat)) :
    (s.readRange t keyid ofs len who).1.pending = s.pending ∧ (s.readRange t keyid ofs len who).1.boot.flash = s.boot.flash ∧
    (s.readRange t keyid ofs len who).1.boot.fuses = s.boot.fuses ∧ (s.readRange t keyid ofs len who).1.boot.seed = s.boot.seed ∧
    (s.readRange t keyid ofs len who).1.boot.dpk = s.boot.dpk := by
  unfold State.readRange
  try dsimp only
  repeat' (first | split | simp)

@[simp] theorem State.writeRange_frame (s : State) (t : TileId) (keyid : Nat) (ofs : Nat) (data : Bytes) (who : Option (Bool ×
    Nat)) :
    (s.writeRange t keyid ofs data who).pending = s.pending ∧ (s.writeRange t keyid ofs data who).boot.flash = s.boot.flash ∧
    (s.writeRange t keyid ofs data who).boot.fuses = s.boot.fuses ∧ (s.writeRange t keyid ofs data who).boot.seed = s.boot.seed ∧
    (s.writeRange t keyid ofs data who).boot.dpk = s.boot.dpk := by
  unfold State.writeRange
  try dsimp only
  repeat' (first | split | simp)

@[simp] theorem State.addReqs_frame (s : State) (t : TileId) (rs : List SealReq) :
    (s.addReqs t rs).boot = s.boot ∧ (s.addReqs t rs).board = s.board ∧ (s.addReqs t rs).clocks = s.clocks ∧
    (s.addReqs t rs).host = s.host ∧ (s.addReqs t rs).parts = s.parts ∧ (s.addReqs t rs).pf = s.pf ∧
    (s.addReqs t rs).jewel = s.jewel ∧ (s.addReqs t rs).ports = s.ports ∧ (s.addReqs t rs).hatband = s.hatband ∧
    (s.addReqs t rs).engines = s.engines ∧ (s.addReqs t rs).free = s.free ∧ (s.addReqs t rs).pending = s.pending := by
  unfold State.addReqs
  try dsimp only
  repeat' (first | split | simp)

@[simp] theorem State.stashArrive_frame (s : State) (t : TileId) (id : Nat) (pos : Nat) (bs : Bytes) (bad : Bool) :
    (s.stashArrive t id pos bs bad).boot = s.boot ∧ (s.stashArrive t id pos bs bad).board = s.board ∧
    (s.stashArrive t id pos bs bad).clocks = s.clocks ∧ (s.stashArrive t id pos bs bad).jewel = s.jewel ∧
    (s.stashArrive t id pos bs bad).ports = s.ports ∧ (s.stashArrive t id pos bs bad).hatband = s.hatband ∧
    (s.stashArrive t id pos bs bad).engines = s.engines ∧ (s.stashArrive t id pos bs bad).free = s.free ∧
    (s.stashArrive t id pos bs bad).pending = s.pending := by
  unfold State.stashArrive
  try dsimp only
  repeat' (first | split | simp)

@[simp] theorem State.dmaArrive_frame (s : State) (t : TileId) (id : Nat) (r : SealReq) (g : GranuleOut) :
    (s.dmaArrive t id r g).boot = s.boot ∧ (s.dmaArrive t id r g).board = s.board ∧ (s.dmaArrive t id r g).clocks = s.clocks ∧
    (s.dmaArrive t id r g).jewel = s.jewel ∧ (s.dmaArrive t id r g).ports = s.ports ∧ (s.dmaArrive t id r g).hatband = s.hatband ∧
    (s.dmaArrive t id r g).engines = s.engines ∧ (s.dmaArrive t id r g).free = s.free ∧ (s.dmaArrive t id r g).pending = s.pending := by
  unfold State.dmaArrive
  try dsimp only
  repeat' (first | split | simp)

@[simp] theorem State.dmaChunk_frame (s : State) (t : TileId) (id : Nat) (chunk : Nat) (plain : Option Bytes) :
    (s.dmaChunk t id chunk plain).boot = s.boot ∧ (s.dmaChunk t id chunk plain).board = s.board ∧
    (s.dmaChunk t id chunk plain).clocks = s.clocks ∧ (s.dmaChunk t id chunk plain).jewel = s.jewel ∧
    (s.dmaChunk t id chunk plain).ports = s.ports ∧ (s.dmaChunk t id chunk plain).hatband = s.hatband ∧
    (s.dmaChunk t id chunk plain).engines = s.engines ∧ (s.dmaChunk t id chunk plain).free = s.free ∧
    (s.dmaChunk t id chunk plain).pending = s.pending := by
  unfold State.dmaChunk
  try dsimp only
  repeat' (first | split | simp)

@[simp] theorem State.modCopy_frame (s : State) (p : PartId) (seq : Nat) (f : Copy → Copy) :
    (s.modCopy p seq f).boot = s.boot ∧ (s.modCopy p seq f).board = s.board ∧ (s.modCopy p seq f).clocks = s.clocks ∧
    (s.modCopy p seq f).host = s.host ∧ (s.modCopy p seq f).pf = s.pf ∧ (s.modCopy p seq f).tiles = s.tiles ∧
    (s.modCopy p seq f).jewel = s.jewel ∧ (s.modCopy p seq f).ports = s.ports ∧ (s.modCopy p seq f).hatband = s.hatband ∧
    (s.modCopy p seq f).engines = s.engines ∧ (s.modCopy p seq f).free = s.free ∧ (s.modCopy p seq f).pending = s.pending := by
  unfold State.modCopy
  try dsimp only
  repeat' (first | split | simp)

@[simp] theorem State.notePoison_frame (s : State) (p : PartId) (seq : Nat) :
    (s.notePoison p seq).boot = s.boot ∧ (s.notePoison p seq).board = s.board ∧ (s.notePoison p seq).clocks = s.clocks ∧
    (s.notePoison p seq).host = s.host ∧ (s.notePoison p seq).tiles = s.tiles ∧ (s.notePoison p seq).jewel = s.jewel ∧
    (s.notePoison p seq).ports = s.ports ∧ (s.notePoison p seq).hatband = s.hatband ∧ (s.notePoison p seq).engines = s.engines ∧
    (s.notePoison p seq).free = s.free ∧ (s.notePoison p seq).pending = s.pending := by
  unfold State.notePoison
  try dsimp only
  repeat' (first | split | simp)

@[simp] theorem State.copyForm_frame (s : State) (p : PartId) (seq : Nat) (n : Nat) :
    (s.copyForm p seq n).boot = s.boot ∧ (s.copyForm p seq n).board = s.board ∧ (s.copyForm p seq n).clocks = s.clocks ∧
    (s.copyForm p seq n).host = s.host ∧ (s.copyForm p seq n).tiles = s.tiles ∧ (s.copyForm p seq n).jewel = s.jewel ∧
    (s.copyForm p seq n).ports = s.ports ∧ (s.copyForm p seq n).hatband = s.hatband ∧ (s.copyForm p seq n).engines = s.engines ∧
    (s.copyForm p seq n).free = s.free ∧ (s.copyForm p seq n).pending = s.pending := by
  induction n generalizing s with
  | zero => simp [State.copyForm]
  | succ n ih =>
    unfold State.copyForm
    repeat' (first | split | simp [ih])

@[simp] theorem State.copyDone_frame (s : State) (p : PartId) (seq : Nat) :
    (s.copyDone p seq).boot = s.boot ∧ (s.copyDone p seq).board = s.board ∧ (s.copyDone p seq).clocks = s.clocks ∧
    (s.copyDone p seq).host = s.host ∧ (s.copyDone p seq).tiles = s.tiles ∧ (s.copyDone p seq).ports = s.ports ∧
    (s.copyDone p seq).hatband = s.hatband ∧ (s.copyDone p seq).engines = s.engines ∧ (s.copyDone p seq).free = s.free ∧
    (s.copyDone p seq).pending = s.pending := by
  unfold State.copyDone
  try dsimp only
  repeat' (first | split | simp)

@[simp] theorem State.copyStep_frame (s : State) (p : PartId) (seq : Nat) :
    (s.copyStep p seq).boot = s.boot ∧ (s.copyStep p seq).board = s.board ∧ (s.copyStep p seq).clocks = s.clocks ∧
    (s.copyStep p seq).host = s.host ∧ (s.copyStep p seq).tiles = s.tiles ∧ (s.copyStep p seq).ports = s.ports ∧
    (s.copyStep p seq).hatband = s.hatband ∧ (s.copyStep p seq).engines = s.engines ∧ (s.copyStep p seq).free = s.free ∧
    (s.copyStep p seq).pending = s.pending := by
  unfold State.copyStep
  try dsimp only
  repeat' (first | split | simp)

@[simp] theorem State.copiesStep_frame (s : State) (p : PartId) :
    (s.copiesStep p).boot = s.boot ∧ (s.copiesStep p).board = s.board ∧ (s.copiesStep p).clocks = s.clocks ∧
    (s.copiesStep p).host = s.host ∧ (s.copiesStep p).tiles = s.tiles ∧ (s.copiesStep p).ports = s.ports ∧
    (s.copiesStep p).hatband = s.hatband ∧ (s.copiesStep p).engines = s.engines ∧ (s.copiesStep p).free = s.free ∧
    (s.copiesStep p).pending = s.pending := by
  unfold State.copiesStep
  try dsimp only
  repeat' (first | split | simp)

@[simp] theorem State.copyArrive_frame (s : State) (p : PartId) (seq : Nat) (r : SealReq) (g : GranuleOut) :
    (s.copyArrive p seq r g).boot = s.boot ∧ (s.copyArrive p seq r g).board = s.board ∧ (s.copyArrive p seq r g).clocks = s.clocks ∧
    (s.copyArrive p seq r g).host = s.host ∧ (s.copyArrive p seq r g).tiles = s.tiles ∧ (s.copyArrive p seq r g).ports = s.ports ∧
    (s.copyArrive p seq r g).hatband = s.hatband ∧ (s.copyArrive p seq r g).engines = s.engines ∧
    (s.copyArrive p seq r g).free = s.free ∧ (s.copyArrive p seq r g).pending = s.pending := by
  unfold State.copyArrive
  try dsimp only
  repeat' (first | split | simp)

@[simp] theorem State.copyChunk_frame (s : State) (p : PartId) (seq : Nat) (chunk : Nat) (plain : Option Bytes) :
    (s.copyChunk p seq chunk plain).boot = s.boot ∧ (s.copyChunk p seq chunk plain).board = s.board ∧
    (s.copyChunk p seq chunk plain).clocks = s.clocks ∧ (s.copyChunk p seq chunk plain).host = s.host ∧
    (s.copyChunk p seq chunk plain).ports = s.ports ∧ (s.copyChunk p seq chunk plain).hatband = s.hatband ∧
    (s.copyChunk p seq chunk plain).engines = s.engines ∧ (s.copyChunk p seq chunk plain).free = s.free ∧
    (s.copyChunk p seq chunk plain).pending = s.pending := by
  unfold State.copyChunk
  try dsimp only
  repeat' (first | split | simp)

@[simp] theorem State.regMerge_frame (s : State) (p : PartId) :
    (s.regMerge p).boot = s.boot ∧ (s.regMerge p).board = s.board ∧ (s.regMerge p).clocks = s.clocks ∧
    (s.regMerge p).host = s.host ∧ (s.regMerge p).parts = s.parts ∧ (s.regMerge p).pf = s.pf ∧ (s.regMerge p).jewel = s.jewel ∧
    (s.regMerge p).ports = s.ports ∧ (s.regMerge p).hatband = s.hatband ∧ (s.regMerge p).engines = s.engines ∧
    (s.regMerge p).free = s.free ∧ (s.regMerge p).pending = s.pending := by
  unfold State.regMerge
  try dsimp only
  repeat' (first | split | simp)

@[simp] theorem State.regMergeLogged_frame (s : State) (p : PartId) (cmd : Option (Bool × Nat)) :
    (s.regMergeLogged p cmd).boot = s.boot ∧ (s.regMergeLogged p cmd).board = s.board ∧ (s.regMergeLogged p cmd).clocks = s.clocks ∧
    (s.regMergeLogged p cmd).host = s.host ∧ (s.regMergeLogged p cmd).hatband = s.hatband ∧
    (s.regMergeLogged p cmd).engines = s.engines ∧ (s.regMergeLogged p cmd).free = s.free ∧
    (s.regMergeLogged p cmd).pending = s.pending := by
  unfold State.regMergeLogged
  try dsimp only
  repeat' (first | split | simp)

@[simp] theorem State.modPort_frame (s : State) (q : PortId) (f : Port → Port) :
    (s.modPort q f).boot = s.boot ∧ (s.modPort q f).board = s.board ∧ (s.modPort q f).clocks = s.clocks ∧
    (s.modPort q f).host = s.host ∧ (s.modPort q f).parts = s.parts ∧ (s.modPort q f).pf = s.pf ∧ (s.modPort q f).tiles = s.tiles ∧
    (s.modPort q f).jewel = s.jewel ∧ (s.modPort q f).hatband = s.hatband ∧ (s.modPort q f).engines = s.engines ∧
    (s.modPort q f).free = s.free ∧ (s.modPort q f).pending = s.pending := by
  unfold State.modPort
  try dsimp only
  repeat' (first | split | simp)

@[simp] theorem State.inject_frame (s : State) (p : PartId) (vc : Nat) (hop : Bool) (dst : Nat) (own : Nat) (bs : Bytes) :
    (s.inject p vc hop dst own bs).boot = s.boot ∧ (s.inject p vc hop dst own bs).board = s.board ∧
    (s.inject p vc hop dst own bs).clocks = s.clocks ∧ (s.inject p vc hop dst own bs).host = s.host ∧
    (s.inject p vc hop dst own bs).parts = s.parts ∧ (s.inject p vc hop dst own bs).pf = s.pf ∧
    (s.inject p vc hop dst own bs).tiles = s.tiles ∧ (s.inject p vc hop dst own bs).jewel = s.jewel ∧
    (s.inject p vc hop dst own bs).hatband = s.hatband ∧ (s.inject p vc hop dst own bs).engines = s.engines ∧
    (s.inject p vc hop dst own bs).free = s.free ∧ (s.inject p vc hop dst own bs).pending = s.pending := by
  unfold State.inject
  try dsimp only
  repeat' (first | split | simp)

@[simp] theorem State.sendJewel_frame (s : State) (p : PartId) (dst : Nat) (m : JewelMsg) :
    (s.sendJewel p dst m).boot = s.boot ∧ (s.sendJewel p dst m).board = s.board ∧ (s.sendJewel p dst m).clocks = s.clocks ∧
    (s.sendJewel p dst m).host = s.host ∧ (s.sendJewel p dst m).parts = s.parts ∧ (s.sendJewel p dst m).pf = s.pf ∧
    (s.sendJewel p dst m).tiles = s.tiles ∧ (s.sendJewel p dst m).jewel = s.jewel ∧ (s.sendJewel p dst m).hatband = s.hatband ∧
    (s.sendJewel p dst m).engines = s.engines ∧ (s.sendJewel p dst m).free = s.free ∧ (s.sendJewel p dst m).pending = s.pending := by
  unfold State.sendJewel
  try dsimp only
  repeat' (first | split | simp)

@[simp] theorem State.sendFuller_frame (s : State) (p : PartId) (dst : Nat) (own : Nat) (m : FullerMsg) :
    (s.sendFuller p dst own m).boot = s.boot ∧ (s.sendFuller p dst own m).board = s.board ∧
    (s.sendFuller p dst own m).clocks = s.clocks ∧ (s.sendFuller p dst own m).host = s.host ∧
    (s.sendFuller p dst own m).parts = s.parts ∧ (s.sendFuller p dst own m).pf = s.pf ∧ (s.sendFuller p dst own m).tiles = s.tiles ∧
    (s.sendFuller p dst own m).jewel = s.jewel ∧ (s.sendFuller p dst own m).hatband = s.hatband ∧
    (s.sendFuller p dst own m).engines = s.engines ∧ (s.sendFuller p dst own m).free = s.free ∧
    (s.sendFuller p dst own m).pending = s.pending := by
  unfold State.sendFuller
  try dsimp only
  repeat' (first | split | simp)

@[simp] theorem State.modFuller_frame (s : State) (p : PartId) (f : Fuller → Fuller) :
    (s.modFuller p f).boot = s.boot ∧ (s.modFuller p f).board = s.board ∧ (s.modFuller p f).clocks = s.clocks ∧
    (s.modFuller p f).host = s.host ∧ (s.modFuller p f).pf = s.pf ∧ (s.modFuller p f).tiles = s.tiles ∧
    (s.modFuller p f).jewel = s.jewel ∧ (s.modFuller p f).ports = s.ports ∧ (s.modFuller p f).hatband = s.hatband ∧
    (s.modFuller p f).engines = s.engines ∧ (s.modFuller p f).free = s.free ∧ (s.modFuller p f).pending = s.pending := by
  unfold State.modFuller
  try dsimp only
  repeat' (first | split | simp)

@[simp] theorem State.modCkpt_frame (s : State) (p : PartId) (f : Ckpt → Ckpt) :
    (s.modCkpt p f).boot = s.boot ∧ (s.modCkpt p f).board = s.board ∧ (s.modCkpt p f).clocks = s.clocks ∧
    (s.modCkpt p f).host = s.host ∧ (s.modCkpt p f).pf = s.pf ∧ (s.modCkpt p f).tiles = s.tiles ∧ (s.modCkpt p f).jewel = s.jewel ∧
    (s.modCkpt p f).ports = s.ports ∧ (s.modCkpt p f).hatband = s.hatband ∧ (s.modCkpt p f).engines = s.engines ∧
    (s.modCkpt p f).free = s.free ∧ (s.modCkpt p f).pending = s.pending := by
  unfold State.modCkpt
  try dsimp only
  repeat' (first | split | simp)

@[simp] theorem State.dropCkpt_frame (s : State) (p : PartId) :
    (s.dropCkpt p).boot = s.boot ∧ (s.dropCkpt p).board = s.board ∧ (s.dropCkpt p).clocks = s.clocks ∧
    (s.dropCkpt p).host = s.host ∧ (s.dropCkpt p).jewel = s.jewel ∧ (s.dropCkpt p).ports = s.ports ∧
    (s.dropCkpt p).hatband = s.hatband ∧ (s.dropCkpt p).engines = s.engines ∧ (s.dropCkpt p).free = s.free ∧
    (s.dropCkpt p).pending = s.pending := by
  unfold State.dropCkpt
  try dsimp only
  repeat' (first | split | simp)

@[simp] theorem State.failCkpt_frame (s : State) (p : PartId) (status : Nat) :
    (s.failCkpt p status).boot = s.boot ∧ (s.failCkpt p status).board = s.board ∧ (s.failCkpt p status).clocks = s.clocks ∧
    (s.failCkpt p status).host = s.host ∧ (s.failCkpt p status).ports = s.ports ∧ (s.failCkpt p status).hatband = s.hatband ∧
    (s.failCkpt p status).engines = s.engines ∧ (s.failCkpt p status).free = s.free ∧ (s.failCkpt p status).pending = s.pending := by
  unfold State.failCkpt
  try dsimp only
  repeat' (first | split | simp)

@[simp] theorem State.endCkpt_frame (s : State) (p : PartId) (c : Ckpt) :
    (s.endCkpt p c).boot = s.boot ∧ (s.endCkpt p c).board = s.board ∧ (s.endCkpt p c).clocks = s.clocks ∧
    (s.endCkpt p c).host = s.host ∧ (s.endCkpt p c).tiles = s.tiles ∧ (s.endCkpt p c).ports = s.ports ∧
    (s.endCkpt p c).hatband = s.hatband ∧ (s.endCkpt p c).engines = s.engines ∧ (s.endCkpt p c).free = s.free ∧
    (s.endCkpt p c).pending = s.pending := by
  unfold State.endCkpt
  try dsimp only
  repeat' (first | split | simp)

@[simp] theorem State.trailerIssued_frame (s : State) (p : PartId) :
    (s.trailerIssued p).boot = s.boot ∧ (s.trailerIssued p).board = s.board ∧ (s.trailerIssued p).clocks = s.clocks ∧
    (s.trailerIssued p).host = s.host ∧ (s.trailerIssued p).tiles = s.tiles ∧ (s.trailerIssued p).ports = s.ports ∧
    (s.trailerIssued p).hatband = s.hatband ∧ (s.trailerIssued p).engines = s.engines ∧ (s.trailerIssued p).free = s.free ∧
    (s.trailerIssued p).pending = s.pending := by
  unfold State.trailerIssued
  try dsimp only
  repeat' (first | split | simp)

@[simp] theorem State.emitChunk_frame (s : State) (p : PartId) (bs : Bytes) :
    (s.emitChunk p bs).boot = s.boot ∧ (s.emitChunk p bs).board = s.board ∧ (s.emitChunk p bs).clocks = s.clocks ∧
    (s.emitChunk p bs).host = s.host ∧ (s.emitChunk p bs).hatband = s.hatband ∧ (s.emitChunk p bs).engines = s.engines ∧
    (s.emitChunk p bs).free = s.free ∧ (s.emitChunk p bs).pending = s.pending := by
  unfold State.emitChunk
  try dsimp only
  repeat' (first | split | simp)

@[simp] theorem State.addUnits_frame (s : State) (p : PartId) (us : List CkUnit) :
    (s.addUnits p us).boot = s.boot ∧ (s.addUnits p us).board = s.board ∧ (s.addUnits p us).clocks = s.clocks ∧
    (s.addUnits p us).host = s.host ∧ (s.addUnits p us).hatband = s.hatband ∧ (s.addUnits p us).engines = s.engines ∧
    (s.addUnits p us).free = s.free ∧ (s.addUnits p us).pending = s.pending := by
  induction us generalizing s with
  | nil => simp [State.addUnits]
  | cons u us ih =>
    unfold State.addUnits
    repeat' (first | split | simp [ih])

@[simp] theorem State.flushUnits_frame (s : State) (p : PartId) :
    (s.flushUnits p).boot = s.boot ∧ (s.flushUnits p).board = s.board ∧ (s.flushUnits p).clocks = s.clocks ∧
    (s.flushUnits p).host = s.host ∧ (s.flushUnits p).hatband = s.hatband ∧ (s.flushUnits p).engines = s.engines ∧
    (s.flushUnits p).free = s.free ∧ (s.flushUnits p).pending = s.pending := by
  unfold State.flushUnits
  try dsimp only
  repeat' (first | split | simp)

@[simp] theorem State.setBit_frame (s : State) (p : PartId) (t : TileId) (seq : Nat) (bm : Nat) (i : Nat) :
    (s.setBit p t seq bm i).pending = s.pending ∧ (s.setBit p t seq bm i).boot.flash = s.boot.flash ∧
    (s.setBit p t seq bm i).boot.fuses = s.boot.fuses ∧ (s.setBit p t seq bm i).boot.seed = s.boot.seed ∧
    (s.setBit p t seq bm i).boot.dpk = s.boot.dpk := by
  unfold State.setBit
  try dsimp only
  repeat' (first | split | simp)

@[simp] theorem State.enterLog_frame (s : State) (p : PartId) (t : TileId) (c : Ckpt) (us : List CkUnit) (first : Nat) (n : Nat)
    (gran : Nat) :
    (s.enterLog p t c us first n gran).pending = s.pending ∧ (s.enterLog p t c us first n gran).boot.flash = s.boot.flash ∧
    (s.enterLog p t c us first n gran).boot.fuses = s.boot.fuses ∧ (s.enterLog p t c us first n gran).boot.seed = s.boot.seed ∧
    (s.enterLog p t c us first n gran).boot.dpk = s.boot.dpk := by
  unfold State.enterLog
  try dsimp only
  repeat' (first | split | simp)

@[simp] theorem State.ckGranule_frame (s : State) (p : PartId) (t : TileId) (r : SealReq) (g : GranuleOut) :
    (s.ckGranule p t r g).pending = s.pending ∧ (s.ckGranule p t r g).boot.flash = s.boot.flash ∧
    (s.ckGranule p t r g).boot.fuses = s.boot.fuses ∧ (s.ckGranule p t r g).boot.seed = s.boot.seed ∧
    (s.ckGranule p t r g).boot.dpk = s.boot.dpk := by
  unfold State.ckGranule
  try dsimp only
  repeat' (first | split | simp)

@[simp] theorem State.readPlans_frame (s : State) (p : PartId) (who : Option (Bool × Nat)) :
    (s.readPlans p who).1.pending = s.pending ∧ (s.readPlans p who).1.boot.flash = s.boot.flash ∧
    (s.readPlans p who).1.boot.fuses = s.boot.fuses ∧ (s.readPlans p who).1.boot.seed = s.boot.seed ∧
    (s.readPlans p who).1.boot.dpk = s.boot.dpk := by
  unfold State.readPlans
  try dsimp only
  repeat' (first | split | simp)

@[simp] theorem State.refreshWaits_frame (s : State) :
    s.refreshWaits.boot = s.boot ∧ s.refreshWaits.board = s.board ∧ s.refreshWaits.clocks = s.clocks ∧
    s.refreshWaits.host = s.host ∧ s.refreshWaits.pf = s.pf ∧ s.refreshWaits.tiles = s.tiles ∧ s.refreshWaits.jewel = s.jewel ∧
    s.refreshWaits.ports = s.ports ∧ s.refreshWaits.hatband = s.hatband ∧ s.refreshWaits.engines = s.engines ∧
    s.refreshWaits.free = s.free ∧ s.refreshWaits.pending = s.pending := by
  unfold State.refreshWaits
  try dsimp only
  repeat' (first | split | simp)

end Sys2Proof.Machine
end

