-- ==== Sys2Proof/Laws/FrameRing.lean ====
section
/-! SUPPORT. What each function over State leaves as it was, and that each command answers a next state: the ring ports. -/

namespace Sys2Proof.Machine

@[simp] theorem State.dropPassed_frame (s : State) (q : PortId) :
    (s.dropPassed q).boot = s.boot ∧ (s.dropPassed q).board = s.board ∧ (s.dropPassed q).clocks = s.clocks ∧
    (s.dropPassed q).host = s.host ∧ (s.dropPassed q).parts = s.parts ∧ (s.dropPassed q).pf = s.pf ∧
    (s.dropPassed q).tiles = s.tiles ∧ (s.dropPassed q).jewel = s.jewel ∧ (s.dropPassed q).hatband = s.hatband ∧
    (s.dropPassed q).engines = s.engines ∧ (s.dropPassed q).free = s.free ∧ (s.dropPassed q).pending = s.pending := by
  unfold State.dropPassed
  try dsimp only
  repeat' (first | split | simp)

@[simp] theorem State.drainPort_frame (s : State) (p : PartId) (q : PortId) :
    (s.drainPort p q).boot = s.boot ∧ (s.drainPort p q).board = s.board ∧ (s.drainPort p q).clocks = s.clocks ∧
    (s.drainPort p q).host = s.host ∧ (s.drainPort p q).pf = s.pf ∧ (s.drainPort p q).tiles = s.tiles ∧
    (s.drainPort p q).jewel = s.jewel ∧ (s.drainPort p q).hatband = s.hatband ∧ (s.drainPort p q).engines = s.engines ∧
    (s.drainPort p q).free = s.free ∧ (s.drainPort p q).pending = s.pending := by
  unfold State.drainPort
  try dsimp only
  repeat' (first | split | simp)

@[simp] theorem State.drainRx_frame (s : State) (p : PartId) :
    (s.drainRx p).boot = s.boot ∧ (s.drainRx p).board = s.board ∧ (s.drainRx p).clocks = s.clocks ∧ (s.drainRx p).host = s.host ∧
    (s.drainRx p).pf = s.pf ∧ (s.drainRx p).tiles = s.tiles ∧ (s.drainRx p).jewel = s.jewel ∧ (s.drainRx p).hatband = s.hatband ∧
    (s.drainRx p).engines = s.engines ∧ (s.drainRx p).free = s.free ∧ (s.drainRx p).pending = s.pending := by
  unfold State.drainRx
  try dsimp only
  repeat' (first | split | simp)

@[simp] theorem State.stopSource_frame (s : State) (q : PortId) (p : PartId) (f : Frame) :
    (s.stopSource q p f).boot = s.boot ∧ (s.stopSource q p f).board = s.board ∧ (s.stopSource q p f).clocks = s.clocks ∧
    (s.stopSource q p f).host = s.host ∧ (s.stopSource q p f).hatband = s.hatband ∧ (s.stopSource q p f).engines = s.engines ∧
    (s.stopSource q p f).free = s.free ∧ (s.stopSource q p f).pending = s.pending := by
  unfold State.stopSource
  try dsimp only
  repeat' (first | split | simp)

@[simp] theorem State.takeOut_frame (s : State) (q : PortId) (p : Nat) (vc : Nat) :
    (s.takeOut q p vc).1.boot = s.boot ∧ (s.takeOut q p vc).1.board = s.board ∧ (s.takeOut q p vc).1.clocks = s.clocks ∧
    (s.takeOut q p vc).1.host = s.host ∧ (s.takeOut q p vc).1.hatband = s.hatband ∧ (s.takeOut q p vc).1.engines = s.engines ∧
    (s.takeOut q p vc).1.free = s.free ∧ (s.takeOut q p vc).1.pending = s.pending := by
  unfold State.takeOut
  try dsimp only
  repeat' (first | split | simp)

@[simp] theorem State.emit_frame (s : State) (q : PortId) (h : Hdr) (hopSealed : Bool) (payload : Bytes) (ptag : Bytes) (badTag :
    Bool) :
    (s.emit q h hopSealed payload ptag badTag).boot = s.boot ∧ (s.emit q h hopSealed payload ptag badTag).board = s.board ∧
    (s.emit q h hopSealed payload ptag badTag).clocks = s.clocks ∧ (s.emit q h hopSealed payload ptag badTag).host = s.host ∧
    (s.emit q h hopSealed payload ptag badTag).parts = s.parts ∧ (s.emit q h hopSealed payload ptag badTag).pf = s.pf ∧
    (s.emit q h hopSealed payload ptag badTag).tiles = s.tiles ∧ (s.emit q h hopSealed payload ptag badTag).jewel = s.jewel ∧
    (s.emit q h hopSealed payload ptag badTag).hatband = s.hatband ∧
    (s.emit q h hopSealed payload ptag badTag).engines = s.engines ∧ (s.emit q h hopSealed payload ptag badTag).pending = s.pending := by
  unfold State.emit
  try dsimp only
  repeat' (first | split | simp)

@[simp] theorem State.emitData_frame (s : State) (q : PortId) (slot : Nat) (fseq : Nat) (f : Frame) :
    (s.emitData q slot fseq f).boot = s.boot ∧ (s.emitData q slot fseq f).board = s.board ∧
    (s.emitData q slot fseq f).clocks = s.clocks ∧ (s.emitData q slot fseq f).host = s.host ∧
    (s.emitData q slot fseq f).parts = s.parts ∧ (s.emitData q slot fseq f).pf = s.pf ∧ (s.emitData q slot fseq f).tiles = s.tiles ∧
    (s.emitData q slot fseq f).jewel = s.jewel ∧ (s.emitData q slot fseq f).hatband = s.hatband ∧
    (s.emitData q slot fseq f).engines = s.engines ∧ (s.emitData q slot fseq f).pending = s.pending := by
  unfold State.emitData
  try dsimp only
  repeat' (first | split | simp)

@[simp] theorem State.emitIdle_frame (s : State) (q : PortId) (slot : Nat) :
    (s.emitIdle q slot).boot = s.boot ∧ (s.emitIdle q slot).board = s.board ∧ (s.emitIdle q slot).clocks = s.clocks ∧
    (s.emitIdle q slot).host = s.host ∧ (s.emitIdle q slot).parts = s.parts ∧ (s.emitIdle q slot).pf = s.pf ∧
    (s.emitIdle q slot).tiles = s.tiles ∧ (s.emitIdle q slot).jewel = s.jewel ∧ (s.emitIdle q slot).hatband = s.hatband ∧
    (s.emitIdle q slot).engines = s.engines ∧ (s.emitIdle q slot).pending = s.pending := by
  unfold State.emitIdle
  try dsimp only
  repeat' (first | split | simp)

@[simp] theorem State.sendSlot_frame (s : State) (q : PortId) :
    (s.sendSlot q).boot = s.boot ∧ (s.sendSlot q).board = s.board ∧ (s.sendSlot q).clocks = s.clocks ∧
    (s.sendSlot q).host = s.host ∧ (s.sendSlot q).hatband = s.hatband ∧ (s.sendSlot q).engines = s.engines ∧
    (s.sendSlot q).pending = s.pending := by
  unfold State.sendSlot
  try dsimp only
  repeat' (first | split | simp)
  all_goals
    rename_i h
    have e := congrArg Prod.fst h
    dsimp only at e
    subst e
    simp

@[simp] theorem State.accepted_frame (s : State) (q : PortId) (k : LinkKeys) (n : Nat) (h : Hdr) (clear : Bytes) (body : Bytes)
    (tag : Bytes) :
    (s.accepted q k n h clear body tag).boot = s.boot ∧ (s.accepted q k n h clear body tag).board = s.board ∧
    (s.accepted q k n h clear body tag).clocks = s.clocks ∧ (s.accepted q k n h clear body tag).host = s.host ∧
    (s.accepted q k n h clear body tag).hatband = s.hatband ∧ (s.accepted q k n h clear body tag).engines = s.engines ∧
    (s.accepted q k n h clear body tag).free = s.free ∧ (s.accepted q k n h clear body tag).pending = s.pending := by
  unfold State.accepted
  try dsimp only
  repeat' (first | split | simp)

@[simp] theorem State.tryUp_frame (s : State) (q : PortId) :
    (s.tryUp q).boot = s.boot ∧ (s.tryUp q).board = s.board ∧ (s.tryUp q).clocks = s.clocks ∧ (s.tryUp q).host = s.host ∧
    (s.tryUp q).parts = s.parts ∧ (s.tryUp q).pf = s.pf ∧ (s.tryUp q).tiles = s.tiles ∧ (s.tryUp q).jewel = s.jewel ∧
    (s.tryUp q).hatband = s.hatband ∧ (s.tryUp q).engines = s.engines ∧ (s.tryUp q).free = s.free ∧ (s.tryUp q).pending = s.pending := by
  unfold State.tryUp
  try dsimp only
  repeat' (first | split | simp)

@[simp] theorem State.newNeighbour_frame (s : State) (q : PortId) (ack : Nat) :
    (s.newNeighbour q ack).boot = s.boot ∧ (s.newNeighbour q ack).board = s.board ∧ (s.newNeighbour q ack).clocks = s.clocks ∧
    (s.newNeighbour q ack).host = s.host ∧ (s.newNeighbour q ack).hatband = s.hatband ∧ (s.newNeighbour q ack).engines = s.engines ∧
    (s.newNeighbour q ack).free = s.free ∧ (s.newNeighbour q ack).pending = s.pending := by
  unfold State.newNeighbour
  try dsimp only
  repeat' (first | split | simp)

@[simp] theorem State.gotCrsync_frame (s : State) (q : PortId) (h : Hdr) :
    (s.gotCrsync q h).boot = s.boot ∧ (s.gotCrsync q h).board = s.board ∧ (s.gotCrsync q h).clocks = s.clocks ∧
    (s.gotCrsync q h).host = s.host ∧ (s.gotCrsync q h).hatband = s.hatband ∧ (s.gotCrsync q h).engines = s.engines ∧
    (s.gotCrsync q h).free = s.free ∧ (s.gotCrsync q h).pending = s.pending := by
  unfold State.gotCrsync
  try dsimp only
  repeat' (first | split | simp)

@[simp] theorem State.countFec_frame (s : State) (q : PortId) (n : Nat) :
    (s.countFec q n).boot = s.boot ∧ (s.countFec q n).board = s.board ∧ (s.countFec q n).clocks = s.clocks ∧
    (s.countFec q n).host = s.host ∧ (s.countFec q n).parts = s.parts ∧ (s.countFec q n).pf = s.pf ∧
    (s.countFec q n).tiles = s.tiles ∧ (s.countFec q n).jewel = s.jewel ∧ (s.countFec q n).hatband = s.hatband ∧
    (s.countFec q n).engines = s.engines ∧ (s.countFec q n).free = s.free ∧ (s.countFec q n).pending = s.pending := by
  unfold State.countFec
  try dsimp only
  repeat' (first | split | simp)

@[simp] theorem State.checkCredits_frame (s : State) (q : PortId) (part : Option Nat) (cret : List Nat) :
    (s.checkCredits q part cret).boot = s.boot ∧ (s.checkCredits q part cret).board = s.board ∧
    (s.checkCredits q part cret).clocks = s.clocks ∧ (s.checkCredits q part cret).host = s.host ∧
    (s.checkCredits q part cret).hatband = s.hatband ∧ (s.checkCredits q part cret).engines = s.engines ∧
    (s.checkCredits q part cret).free = s.free ∧ (s.checkCredits q part cret).pending = s.pending := by
  unfold State.checkCredits
  try dsimp only
  repeat' (first | split | simp)

@[simp] theorem State.receive_frame (s : State) (q : PortId) (fecOk : Bool) (fecc : Nat) (wire : Bytes) :
    (s.receive q fecOk fecc wire).boot = s.boot ∧ (s.receive q fecOk fecc wire).board = s.board ∧
    (s.receive q fecOk fecc wire).clocks = s.clocks ∧ (s.receive q fecOk fecc wire).host = s.host ∧
    (s.receive q fecOk fecc wire).hatband = s.hatband ∧ (s.receive q fecOk fecc wire).engines = s.engines ∧
    (s.receive q fecOk fecc wire).free = s.free ∧ (s.receive q fecOk fecc wire).pending = s.pending := by
  unfold State.receive
  try dsimp only
  repeat' (first | split | simp)

@[simp] theorem State.sendTrain_frame (s : State) (q : PortId) :
    (s.sendTrain q).boot = s.boot ∧ (s.sendTrain q).board = s.board ∧ (s.sendTrain q).clocks = s.clocks ∧
    (s.sendTrain q).host = s.host ∧ (s.sendTrain q).parts = s.parts ∧ (s.sendTrain q).pf = s.pf ∧ (s.sendTrain q).tiles = s.tiles ∧
    (s.sendTrain q).jewel = s.jewel ∧ (s.sendTrain q).hatband = s.hatband ∧ (s.sendTrain q).engines = s.engines ∧
    (s.sendTrain q).pending = s.pending := by
  unfold State.sendTrain
  try dsimp only
  repeat' (first | split | simp)

theorem execDataFrameReceive_frame (port : PortId) (fecOk : Bool) (fecc : Nat) (wire : Bytes) (s : State) :
    ∃ u, execDataFrameReceive port fecOk fecc wire s = .next u ∧ u.boot = s.boot ∧ u.board = s.board ∧ u.clocks = s.clocks ∧
    u.host = s.host ∧ u.hatband = s.hatband ∧ u.engines = s.engines ∧ u.free = s.free ∧ u.pending = s.pending := by
  unfold execDataFrameReceive
  try dsimp only
  repeat' (first | split | simp)

theorem execIdleFrameReceive_frame (port : PortId) (fecOk : Bool) (fecc : Nat) (wire : Bytes) (s : State) :
    ∃ u, execIdleFrameReceive port fecOk fecc wire s = .next u ∧ u.boot = s.boot ∧ u.board = s.board ∧ u.clocks = s.clocks ∧
    u.host = s.host ∧ u.hatband = s.hatband ∧ u.engines = s.engines ∧ u.free = s.free ∧ u.pending = s.pending := by
  unfold execIdleFrameReceive
  try dsimp only
  repeat' (first | split | simp)

theorem execFrameSlotSend_frame (port : PortId) (s : State) :
    ∃ u, execFrameSlotSend port s = .next u ∧ u.boot = s.boot ∧ u.board = s.board ∧ u.clocks = s.clocks ∧ u.host = s.host ∧
    u.hatband = s.hatband ∧ u.engines = s.engines ∧ u.pending = s.pending := by
  unfold execFrameSlotSend
  try dsimp only
  repeat' (first | split | simp)

theorem execReplayTimeout_frame (port : PortId) (s : State) :
    ∃ u, execReplayTimeout port s = .next u ∧ u.boot = s.boot ∧ u.board = s.board ∧ u.clocks = s.clocks ∧ u.host = s.host ∧
    u.parts = s.parts ∧ u.pf = s.pf ∧ u.tiles = s.tiles ∧ u.jewel = s.jewel ∧ u.hatband = s.hatband ∧ u.engines = s.engines ∧
    u.free = s.free ∧ u.pending = s.pending := by
  unfold execReplayTimeout
  try dsimp only
  repeat' (first | split | simp)

theorem execAckStallRetrain_frame (port : PortId) (s : State) :
    ∃ u, execAckStallRetrain port s = .next u ∧ u.boot = s.boot ∧ u.board = s.board ∧ u.clocks = s.clocks ∧ u.host = s.host ∧
    u.parts = s.parts ∧ u.pf = s.pf ∧ u.tiles = s.tiles ∧ u.jewel = s.jewel ∧ u.hatband = s.hatband ∧ u.engines = s.engines ∧
    u.free = s.free ∧ u.pending = s.pending := by
  unfold execAckStallRetrain
  try dsimp only
  repeat' (first | split | simp)

end Sys2Proof.Machine
end

