-- ==== Sys2Proof/Laws/FrameTile.lean ====
section
/-! SUPPORT. What each function over State leaves as it was, and that each command answers a next state: the tile sequencer and its engines. -/

namespace Sys2Proof.Machine

@[simp] theorem State.stopTile_frame (s : State) (p : PartId) (t : TileId) (slot : Nat) :
    (s.stopTile p t slot).boot = s.boot ∧ (s.stopTile p t slot).board = s.board ∧ (s.stopTile p t slot).clocks = s.clocks ∧
    (s.stopTile p t slot).host = s.host ∧ (s.stopTile p t slot).hatband = s.hatband ∧ (s.stopTile p t slot).engines = s.engines ∧
    (s.stopTile p t slot).free = s.free ∧ (s.stopTile p t slot).pending = s.pending := by
  unfold State.stopTile
  try dsimp only
  repeat' (first | split | simp)

@[simp] theorem State.spEcc_frame (s : State) (p : PartId) (t : TileId) (o : Op) :
    (s.spEcc p t o).boot = s.boot ∧ (s.spEcc p t o).board = s.board ∧ (s.spEcc p t o).clocks = s.clocks ∧
    (s.spEcc p t o).host = s.host ∧ (s.spEcc p t o).hatband = s.hatband ∧ (s.spEcc p t o).engines = s.engines ∧
    (s.spEcc p t o).free = s.free ∧ (s.spEcc p t o).pending = s.pending := by
  unfold State.spEcc
  try dsimp only
  repeat' (first | split | simp)

@[simp] theorem State.rgEcc_frame (s : State) (p : PartId) (t : TileId) (o : Op) (tensor : Nat) :
    (s.rgEcc p t o tensor).boot = s.boot ∧ (s.rgEcc p t o tensor).board = s.board ∧ (s.rgEcc p t o tensor).clocks = s.clocks ∧
    (s.rgEcc p t o tensor).host = s.host ∧ (s.rgEcc p t o tensor).hatband = s.hatband ∧ (s.rgEcc p t o tensor).engines = s.engines ∧
    (s.rgEcc p t o tensor).free = s.free ∧ (s.rgEcc p t o tensor).pending = s.pending := by
  unfold State.rgEcc
  try dsimp only
  repeat' (first | split | simp)

@[simp] theorem State.enqueue_frame (s : State) (p : PartId) (t : TileId) (o : Op) (tensor : Nat) :
    (s.enqueue p t o tensor).boot = s.boot ∧ (s.enqueue p t o tensor).board = s.board ∧ (s.enqueue p t o tensor).clocks = s.clocks ∧
    (s.enqueue p t o tensor).host = s.host ∧ (s.enqueue p t o tensor).hatband = s.hatband ∧
    (s.enqueue p t o tensor).engines = s.engines ∧ (s.enqueue p t o tensor).free = s.free ∧
    (s.enqueue p t o tensor).pending = s.pending := by
  unfold State.enqueue
  try dsimp only
  repeat' (first | split | simp)

@[simp] theorem State.dispatchPass_frame (s : State) (p : PartId) (t : TileId) (o : Op) :
    (s.dispatchPass p t o).boot = s.boot ∧ (s.dispatchPass p t o).board = s.board ∧ (s.dispatchPass p t o).clocks = s.clocks ∧
    (s.dispatchPass p t o).host = s.host ∧ (s.dispatchPass p t o).hatband = s.hatband ∧ (s.dispatchPass p t o).engines = s.engines ∧
    (s.dispatchPass p t o).free = s.free ∧ (s.dispatchPass p t o).pending = s.pending := by
  unfold State.dispatchPass
  try dsimp only
  repeat' (first | split | simp)

@[simp] theorem State.dispatchVec_frame (s : State) (p : PartId) (t : TileId) (o : Op) :
    (s.dispatchVec p t o).boot = s.boot ∧ (s.dispatchVec p t o).board = s.board ∧ (s.dispatchVec p t o).clocks = s.clocks ∧
    (s.dispatchVec p t o).host = s.host ∧ (s.dispatchVec p t o).hatband = s.hatband ∧ (s.dispatchVec p t o).engines = s.engines ∧
    (s.dispatchVec p t o).free = s.free ∧ (s.dispatchVec p t o).pending = s.pending := by
  unfold State.dispatchVec
  try dsimp only
  repeat' (first | split | simp)

@[simp] theorem State.hostReqs_frame (s : State) (q : PartId) (t : TileId) (o : Op) (p : DmaDesc) (st : Stream) :
    (s.hostReqs q t o p st).boot = s.boot ∧ (s.hostReqs q t o p st).board = s.board ∧ (s.hostReqs q t o p st).clocks = s.clocks ∧
    (s.hostReqs q t o p st).tiles = s.tiles ∧ (s.hostReqs q t o p st).jewel = s.jewel ∧ (s.hostReqs q t o p st).ports = s.ports ∧
    (s.hostReqs q t o p st).hatband = s.hatband ∧ (s.hostReqs q t o p st).engines = s.engines ∧
    (s.hostReqs q t o p st).free = s.free ∧ (s.hostReqs q t o p st).pending = s.pending := by
  unfold State.hostReqs
  try dsimp only
  repeat' (first | split | simp)

@[simp] theorem State.dispatchDma_frame (s : State) (q : PartId) (t : TileId) (o : Op) :
    (s.dispatchDma q t o).boot = s.boot ∧ (s.dispatchDma q t o).board = s.board ∧ (s.dispatchDma q t o).clocks = s.clocks ∧
    (s.dispatchDma q t o).hatband = s.hatband ∧ (s.dispatchDma q t o).engines = s.engines ∧ (s.dispatchDma q t o).free = s.free ∧
    (s.dispatchDma q t o).pending = s.pending := by
  unfold State.dispatchDma
  try dsimp only
  repeat' (first | split | simp)

@[simp] theorem State.imEcc_frame (s : State) (p : PartId) (t : TileId) :
    (s.imEcc p t).boot = s.boot ∧ (s.imEcc p t).board = s.board ∧ (s.imEcc p t).clocks = s.clocks ∧ (s.imEcc p t).host = s.host ∧
    (s.imEcc p t).hatband = s.hatband ∧ (s.imEcc p t).engines = s.engines ∧ (s.imEcc p t).free = s.free ∧
    (s.imEcc p t).pending = s.pending := by
  unfold State.imEcc
  try dsimp only
  repeat' (first | split | simp)

@[simp] theorem State.endStream_frame (s : State) (p : PartId) (t : TileId) (d : Bytes) :
    (s.endStream p t d).boot = s.boot ∧ (s.endStream p t d).board = s.board ∧ (s.endStream p t d).clocks = s.clocks ∧
    (s.endStream p t d).host = s.host ∧ (s.endStream p t d).pf = s.pf ∧ (s.endStream p t d).tiles = s.tiles ∧
    (s.endStream p t d).jewel = s.jewel ∧ (s.endStream p t d).ports = s.ports ∧ (s.endStream p t d).hatband = s.hatband ∧
    (s.endStream p t d).engines = s.engines ∧ (s.endStream p t d).free = s.free ∧ (s.endStream p t d).pending = s.pending := by
  unfold State.endStream
  try dsimp only
  repeat' (first | split | simp)

@[simp] theorem State.dispatchOp_frame (s : State) (p : PartId) (t : TileId) (o : Op) :
    (s.dispatchOp p t o).boot = s.boot ∧ (s.dispatchOp p t o).board = s.board ∧ (s.dispatchOp p t o).clocks = s.clocks ∧
    (s.dispatchOp p t o).hatband = s.hatband ∧ (s.dispatchOp p t o).engines = s.engines ∧ (s.dispatchOp p t o).free = s.free ∧
    (s.dispatchOp p t o).pending = s.pending := by
  unfold State.dispatchOp
  try dsimp only
  repeat' (first | split | simp)

@[simp] theorem State.fetchDispatch_frame (s : State) (t : TileId) (kinds : List Nat) :
    (s.fetchDispatch t kinds).boot = s.boot ∧ (s.fetchDispatch t kinds).board = s.board ∧
    (s.fetchDispatch t kinds).clocks = s.clocks ∧ (s.fetchDispatch t kinds).hatband = s.hatband ∧
    (s.fetchDispatch t kinds).engines = s.engines ∧ (s.fetchDispatch t kinds).free = s.free ∧
    (s.fetchDispatch t kinds).pending = s.pending := by
  unfold State.fetchDispatch
  try dsimp only
  repeat' (first | split | simp)

@[simp] theorem State.readRecord_frame (s : State) (t : TileId) (key : Nat) (ofs : Nat) (rowlen : Nat) (who : Option (Bool × Nat)) :
    (s.readRecord t key ofs rowlen who).1.pending = s.pending ∧ (s.readRecord t key ofs rowlen who).1.boot.flash = s.boot.flash ∧
    (s.readRecord t key ofs rowlen who).1.boot.fuses = s.boot.fuses ∧
    (s.readRecord t key ofs rowlen who).1.boot.seed = s.boot.seed ∧ (s.readRecord t key ofs rowlen who).1.boot.dpk = s.boot.dpk := by
  unfold State.readRecord
  try dsimp only
  repeat' (first | split | simp)

@[simp] theorem State.replayLoad_frame (s : State) (t : TileId) (o : Op) :
    (s.replayLoad t o).pending = s.pending ∧ (s.replayLoad t o).boot.flash = s.boot.flash ∧
    (s.replayLoad t o).boot.fuses = s.boot.fuses ∧ (s.replayLoad t o).boot.seed = s.boot.seed ∧
    (s.replayLoad t o).boot.dpk = s.boot.dpk := by
  unfold State.replayLoad
  try dsimp only
  repeat' (first | split | simp)

@[simp] theorem State.replayPass_frame (s : State) (t : TileId) (o : Op) :
    (s.replayPass t o).boot = s.boot ∧ (s.replayPass t o).board = s.board ∧ (s.replayPass t o).clocks = s.clocks ∧
    (s.replayPass t o).host = s.host ∧ (s.replayPass t o).parts = s.parts ∧ (s.replayPass t o).pf = s.pf ∧
    (s.replayPass t o).jewel = s.jewel ∧ (s.replayPass t o).ports = s.ports ∧ (s.replayPass t o).hatband = s.hatband ∧
    (s.replayPass t o).engines = s.engines ∧ (s.replayPass t o).free = s.free ∧ (s.replayPass t o).pending = s.pending := by
  unfold State.replayPass
  try dsimp only
  repeat' (first | split | simp)

@[simp] theorem State.replay_frame (s : State) (t : TileId) (psum : Nat) :
    (s.replay t psum).pending = s.pending ∧ (s.replay t psum).boot.flash = s.boot.flash ∧
    (s.replay t psum).boot.fuses = s.boot.fuses ∧ (s.replay t psum).boot.seed = s.boot.seed ∧
    (s.replay t psum).boot.dpk = s.boot.dpk := by
  unfold State.replay
  try dsimp only
  repeat' (first | split | simp)

@[simp] theorem State.endExpand_frame (s : State) (t : TileId) (o : Op) (p : DmaDesc) :
    (s.endExpand t o p).boot = s.boot ∧ (s.endExpand t o p).board = s.board ∧ (s.endExpand t o p).clocks = s.clocks ∧
    (s.endExpand t o p).host = s.host ∧ (s.endExpand t o p).hatband = s.hatband ∧ (s.endExpand t o p).engines = s.engines ∧
    (s.endExpand t o p).free = s.free ∧ (s.endExpand t o p).pending = s.pending := by
  unfold State.endExpand
  try dsimp only
  repeat' (first | split | simp)

@[simp] theorem State.endDma_frame (s : State) (t : TileId) (o : Op) :
    (s.endDma t o).boot = s.boot ∧ (s.endDma t o).board = s.board ∧ (s.endDma t o).clocks = s.clocks ∧
    (s.endDma t o).host = s.host ∧ (s.endDma t o).hatband = s.hatband ∧ (s.endDma t o).engines = s.engines ∧
    (s.endDma t o).free = s.free ∧ (s.endDma t o).pending = s.pending := by
  unfold State.endDma
  try dsimp only
  repeat' (first | split | simp)

@[simp] theorem State.meshMove_frame (s : State) (src : TileId) (dst : TileId) (a : MeshDesc) (b : MeshDesc) :
    (s.meshMove src dst a b).boot = s.boot ∧ (s.meshMove src dst a b).board = s.board ∧ (s.meshMove src dst a b).clocks = s.clocks ∧
    (s.meshMove src dst a b).host = s.host ∧ (s.meshMove src dst a b).parts = s.parts ∧ (s.meshMove src dst a b).pf = s.pf ∧
    (s.meshMove src dst a b).jewel = s.jewel ∧ (s.meshMove src dst a b).ports = s.ports ∧
    (s.meshMove src dst a b).hatband = s.hatband ∧ (s.meshMove src dst a b).engines = s.engines ∧
    (s.meshMove src dst a b).free = s.free ∧ (s.meshMove src dst a b).pending = s.pending := by
  unfold State.meshMove
  try dsimp only
  repeat' (first | split | simp)

@[simp] theorem State.endRun_frame (s : State) (p : PartId) (q : Nat) (r : Result) :
    (s.endRun p q r).boot = s.boot ∧ (s.endRun p q r).board = s.board ∧ (s.endRun p q r).clocks = s.clocks ∧
    (s.endRun p q r).host = s.host ∧ (s.endRun p q r).ports = s.ports ∧ (s.endRun p q r).hatband = s.hatband ∧
    (s.endRun p q r).engines = s.engines ∧ (s.endRun p q r).free = s.free ∧ (s.endRun p q r).pending = s.pending := by
  unfold State.endRun
  try dsimp only
  repeat' (first | split | simp)

@[simp] theorem State.finishRun_frame (s : State) (p : PartId) (q : Nat) :
    (s.finishRun p q).pending = s.pending ∧ (s.finishRun p q).boot.flash = s.boot.flash ∧
    (s.finishRun p q).boot.fuses = s.boot.fuses ∧ (s.finishRun p q).boot.seed = s.boot.seed ∧
    (s.finishRun p q).boot.dpk = s.boot.dpk := by
  unfold State.finishRun
  try dsimp only
  repeat' (first | split | simp)

@[simp] theorem State.tileReport_frame (s : State) (p : PartId) (t : TileId) :
    (s.tileReport p t).pending = s.pending ∧ (s.tileReport p t).boot.flash = s.boot.flash ∧
    (s.tileReport p t).boot.fuses = s.boot.fuses ∧ (s.tileReport p t).boot.seed = s.boot.seed ∧
    (s.tileReport p t).boot.dpk = s.boot.dpk := by
  unfold State.tileReport
  try dsimp only
  repeat' (first | split | simp)

end Sys2Proof.Machine
end

