-- ==== Sys2Proof/Laws/FrameCommands.lean ====
section
/-! SUPPORT. What each function over State leaves as it was, and that each command answers a next state: the command window and jobs. -/

namespace Sys2Proof.Machine

@[simp] theorem State.passSlot_frame (s : State) (f : Fn) (urgent : Bool) :
    (s.passSlot f urgent).boot = s.boot ∧ (s.passSlot f urgent).board = s.board ∧ (s.passSlot f urgent).clocks = s.clocks ∧
    (s.passSlot f urgent).host = s.host ∧ (s.passSlot f urgent).tiles = s.tiles ∧ (s.passSlot f urgent).jewel = s.jewel ∧
    (s.passSlot f urgent).ports = s.ports ∧ (s.passSlot f urgent).hatband = s.hatband ∧ (s.passSlot f urgent).engines = s.engines ∧
    (s.passSlot f urgent).free = s.free ∧ (s.passSlot f urgent).pending = s.pending := by
  unfold State.passSlot
  try dsimp only
  repeat' (first | split | simp)

@[simp] theorem State.setBad_frame (s : State) (f : Fn) (urgent : Bool) (b : Option Nat) :
    (s.setBad f urgent b).boot = s.boot ∧ (s.setBad f urgent b).board = s.board ∧ (s.setBad f urgent b).clocks = s.clocks ∧
    (s.setBad f urgent b).host = s.host ∧ (s.setBad f urgent b).tiles = s.tiles ∧ (s.setBad f urgent b).jewel = s.jewel ∧
    (s.setBad f urgent b).ports = s.ports ∧ (s.setBad f urgent b).hatband = s.hatband ∧ (s.setBad f urgent b).engines = s.engines ∧
    (s.setBad f urgent b).free = s.free ∧ (s.setBad f urgent b).pending = s.pending := by
  unfold State.setBad
  try dsimp only
  repeat' (first | split | simp)

@[simp] theorem State.refuse_frame (s : State) (f : Fn) (urgent : Bool) (c : Cmd) (st : Nat) :
    (s.refuse f urgent c st).boot = s.boot ∧ (s.refuse f urgent c st).board = s.board ∧ (s.refuse f urgent c st).clocks = s.clocks ∧
    (s.refuse f urgent c st).host = s.host ∧ (s.refuse f urgent c st).tiles = s.tiles ∧ (s.refuse f urgent c st).jewel = s.jewel ∧
    (s.refuse f urgent c st).ports = s.ports ∧ (s.refuse f urgent c st).hatband = s.hatband ∧
    (s.refuse f urgent c st).engines = s.engines ∧ (s.refuse f urgent c st).free = s.free ∧
    (s.refuse f urgent c st).pending = s.pending := by
  unfold State.refuse
  try dsimp only
  repeat' (first | split | simp)

@[simp] theorem State.endUnstarted_frame (s : State) (f : Fn) (e : InFlight) (status : Nat) :
    (s.endUnstarted f e status).boot = s.boot ∧ (s.endUnstarted f e status).board = s.board ∧
    (s.endUnstarted f e status).clocks = s.clocks ∧ (s.endUnstarted f e status).host = s.host ∧
    (s.endUnstarted f e status).ports = s.ports ∧ (s.endUnstarted f e status).hatband = s.hatband ∧
    (s.endUnstarted f e status).engines = s.engines ∧ (s.endUnstarted f e status).free = s.free ∧
    (s.endUnstarted f e status).pending = s.pending := by
  unfold State.endUnstarted
  try dsimp only
  repeat' (first | split | simp)

@[simp] theorem State.settle_frame (s : State) (f : Fn) (n : Nat) :
    (s.settle f n).boot = s.boot ∧ (s.settle f n).board = s.board ∧ (s.settle f n).clocks = s.clocks ∧
    (s.settle f n).host = s.host ∧ (s.settle f n).ports = s.ports ∧ (s.settle f n).hatband = s.hatband ∧
    (s.settle f n).engines = s.engines ∧ (s.settle f n).free = s.free ∧ (s.settle f n).pending = s.pending := by
  induction n generalizing s with
  | zero => simp [State.settle]
  | succ n ih =>
    unfold State.settle
    repeat' (first | split | simp [ih])

@[simp] theorem State.settled_frame (s : State) (f : Fn) :
    (s.settled f).boot = s.boot ∧ (s.settled f).board = s.board ∧ (s.settled f).clocks = s.clocks ∧ (s.settled f).host = s.host ∧
    (s.settled f).ports = s.ports ∧ (s.settled f).hatband = s.hatband ∧ (s.settled f).engines = s.engines ∧
    (s.settled f).free = s.free ∧ (s.settled f).pending = s.pending := by
  unfold State.settled
  try dsimp only
  repeat' (first | split | simp)

@[simp] theorem State.start_frame (s : State) (f : Fn) (urgent : Bool) (seq : Nat) :
    (s.start f urgent seq).boot = s.boot ∧ (s.start f urgent seq).board = s.board ∧ (s.start f urgent seq).clocks = s.clocks ∧
    (s.start f urgent seq).host = s.host ∧ (s.start f urgent seq).tiles = s.tiles ∧ (s.start f urgent seq).jewel = s.jewel ∧
    (s.start f urgent seq).ports = s.ports ∧ (s.start f urgent seq).hatband = s.hatband ∧
    (s.start f urgent seq).engines = s.engines ∧ (s.start f urgent seq).free = s.free ∧ (s.start f urgent seq).pending = s.pending := by
  unfold State.start
  try dsimp only
  repeat' (first | split | simp)

@[simp] theorem State.takeSlot_frame (s : State) (f : Fn) (urgent : Bool) :
    (s.takeSlot f urgent).boot = s.boot ∧ (s.takeSlot f urgent).board = s.board ∧ (s.takeSlot f urgent).clocks = s.clocks ∧
    (s.takeSlot f urgent).host = s.host ∧ (s.takeSlot f urgent).ports = s.ports ∧ (s.takeSlot f urgent).hatband = s.hatband ∧
    (s.takeSlot f urgent).engines = s.engines ∧ (s.takeSlot f urgent).free = s.free ∧ (s.takeSlot f urgent).pending = s.pending := by
  unfold State.takeSlot
  try dsimp only
  repeat' (first | split | simp)

@[simp] theorem State.forgetBad_frame (s : State) (f : Fn) (urgent : Bool) :
    (s.forgetBad f urgent).boot = s.boot ∧ (s.forgetBad f urgent).board = s.board ∧ (s.forgetBad f urgent).clocks = s.clocks ∧
    (s.forgetBad f urgent).host = s.host ∧ (s.forgetBad f urgent).tiles = s.tiles ∧ (s.forgetBad f urgent).jewel = s.jewel ∧
    (s.forgetBad f urgent).ports = s.ports ∧ (s.forgetBad f urgent).hatband = s.hatband ∧
    (s.forgetBad f urgent).engines = s.engines ∧ (s.forgetBad f urgent).free = s.free ∧ (s.forgetBad f urgent).pending = s.pending := by
  unfold State.forgetBad
  try dsimp only
  repeat' (first | split | simp)

@[simp] theorem State.stopWork_frame (s : State) (p : PartId) (e : InFlight) :
    (s.stopWork p e).boot = s.boot ∧ (s.stopWork p e).board = s.board ∧ (s.stopWork p e).clocks = s.clocks ∧
    (s.stopWork p e).host = s.host ∧ (s.stopWork p e).jewel = s.jewel ∧ (s.stopWork p e).ports = s.ports ∧
    (s.stopWork p e).hatband = s.hatband ∧ (s.stopWork p e).engines = s.engines ∧ (s.stopWork p e).free = s.free ∧
    (s.stopWork p e).pending = s.pending := by
  unfold State.stopWork
  try dsimp only
  repeat' (first | split | simp)

theorem execSlotTake_frame (f : Fn) (urgent : Bool) (s : State) :
    ∃ u, execSlotTake f urgent s = .next u ∧ u.boot = s.boot ∧ u.board = s.board ∧ u.clocks = s.clocks ∧ u.host = s.host ∧
    u.ports = s.ports ∧ u.hatband = s.hatband ∧ u.engines = s.engines ∧ u.free = s.free ∧ u.pending = s.pending := by
  unfold execSlotTake
  try dsimp only
  repeat' (first | split | simp)

theorem execBadslot_frame (f : Fn) (urgent : Bool) (s : State) :
    ∃ u, execBadslot f urgent s = .next u ∧ u.boot = s.boot ∧ u.board = s.board ∧ u.clocks = s.clocks ∧ u.host = s.host ∧
    u.tiles = s.tiles ∧ u.jewel = s.jewel ∧ u.ports = s.ports ∧ u.hatband = s.hatband ∧ u.engines = s.engines ∧ u.free = s.free ∧
    u.pending = s.pending := by
  unfold execBadslot
  try dsimp only
  repeat' (first | split | simp)

theorem execBarWrite_frame (f : Fn) (bar : Nat) (off : Nat) (data : Bytes) (s : State) :
    ∃ u, execBarWrite f bar off data s = .next u ∧ u.boot = s.boot ∧ u.board = s.board ∧ u.clocks = s.clocks ∧ u.host = s.host ∧
    u.tiles = s.tiles ∧ u.jewel = s.jewel ∧ u.ports = s.ports ∧ u.hatband = s.hatband ∧ u.engines = s.engines ∧ u.free = s.free ∧
    u.pending = s.pending := by
  unfold execBarWrite
  try dsimp only
  repeat' (first | split | simp)

theorem execFence_frame (p : PartId) (s : State) :
    ∃ u, execFence p s = .next u ∧ u.boot = s.boot ∧ u.board = s.board ∧ u.clocks = s.clocks ∧ u.host = s.host ∧ u.ports = s.ports ∧
    u.hatband = s.hatband ∧ u.engines = s.engines ∧ u.free = s.free ∧ u.pending = s.pending := by
  unfold execFence
  try dsimp only
  repeat' (first | split | simp)

theorem execStatus_frame (f : Fn) (s : State) :
    ∃ u, execStatus f s = .next u ∧ u.boot = s.boot ∧ u.board = s.board ∧ u.clocks = s.clocks ∧ u.host = s.host ∧
    u.ports = s.ports ∧ u.hatband = s.hatband ∧ u.engines = s.engines ∧ u.free = s.free ∧ u.pending = s.pending := by
  unfold execStatus
  try dsimp only
  repeat' (first | split | simp)

@[simp] theorem State.abortTarget_frame (s : State) (f : Fn) (a : InFlight) :
    (s.abortTarget f a).boot = s.boot ∧ (s.abortTarget f a).board = s.board ∧ (s.abortTarget f a).clocks = s.clocks ∧
    (s.abortTarget f a).host = s.host ∧ (s.abortTarget f a).ports = s.ports ∧ (s.abortTarget f a).hatband = s.hatband ∧
    (s.abortTarget f a).engines = s.engines ∧ (s.abortTarget f a).free = s.free ∧ (s.abortTarget f a).pending = s.pending := by
  unfold State.abortTarget
  try dsimp only
  repeat' (first | split | simp)

theorem execAbort_frame (f : Fn) (s : State) :
    ∃ u, execAbort f s = .next u ∧ u.boot = s.boot ∧ u.board = s.board ∧ u.clocks = s.clocks ∧ u.host = s.host ∧ u.ports = s.ports ∧
    u.hatband = s.hatband ∧ u.engines = s.engines ∧ u.free = s.free ∧ u.pending = s.pending := by
  unfold execAbort
  try dsimp only
  repeat' (first | split | simp)

theorem execCommandTimeout_frame (f : Fn) (s : State) :
    ∃ u, execCommandTimeout f s = .next u ∧ u.boot = s.boot ∧ u.board = s.board ∧ u.clocks = s.clocks ∧ u.host = s.host ∧
    u.hatband = s.hatband ∧ u.engines = s.engines ∧ u.free = s.free ∧ u.pending = s.pending := by
  unfold execCommandTimeout
  try dsimp only
  repeat' (first | split | simp)

@[simp] theorem State.drawSlots_frame (s : State) (p : PartId) :
    (s.drawSlots p).2.boot = s.boot ∧ (s.drawSlots p).2.board = s.board ∧ (s.drawSlots p).2.clocks = s.clocks ∧
    (s.drawSlots p).2.host = s.host ∧ (s.drawSlots p).2.parts = s.parts ∧ (s.drawSlots p).2.pf = s.pf ∧
    (s.drawSlots p).2.tiles = s.tiles ∧ (s.drawSlots p).2.jewel = s.jewel ∧ (s.drawSlots p).2.ports = s.ports ∧
    (s.drawSlots p).2.hatband = s.hatband ∧ (s.drawSlots p).2.engines = s.engines ∧ (s.drawSlots p).2.pending = s.pending := by
  unfold State.drawSlots
  try dsimp only
  repeat' (first | split | simp)

@[simp] theorem State.openJob_frame (s : State) (p : PartId) (c : Bytes) :
    (s.openJob p c).boot = s.boot ∧ (s.openJob p c).board = s.board ∧ (s.openJob p c).clocks = s.clocks ∧
    (s.openJob p c).host = s.host ∧ (s.openJob p c).pf = s.pf ∧ (s.openJob p c).jewel = s.jewel ∧ (s.openJob p c).ports = s.ports ∧
    (s.openJob p c).hatband = s.hatband ∧ (s.openJob p c).engines = s.engines ∧ (s.openJob p c).pending = s.pending := by
  unfold State.openJob
  try dsimp only
  repeat' (first | split | simp)

@[simp] theorem State.retire_frame (s : State) (p : PartId) :
    (s.retire p).boot = s.boot ∧ (s.retire p).board = s.board ∧ (s.retire p).clocks = s.clocks ∧ (s.retire p).host = s.host ∧
    (s.retire p).tiles = s.tiles ∧ (s.retire p).jewel = s.jewel ∧ (s.retire p).hatband = s.hatband ∧
    (s.retire p).engines = s.engines ∧ (s.retire p).free = s.free ∧ (s.retire p).pending = s.pending := by
  unfold State.retire
  try dsimp only
  repeat' (first | split | simp)

@[simp] theorem State.resetTree_frame (s : State) (t : TileId) (secret : Bytes) (key : Option Bytes) :
    (s.resetTree t secret key).boot = s.boot ∧ (s.resetTree t secret key).board = s.board ∧
    (s.resetTree t secret key).clocks = s.clocks ∧ (s.resetTree t secret key).host = s.host ∧
    (s.resetTree t secret key).parts = s.parts ∧ (s.resetTree t secret key).pf = s.pf ∧ (s.resetTree t secret key).ports = s.ports ∧
    (s.resetTree t secret key).hatband = s.hatband ∧ (s.resetTree t secret key).engines = s.engines ∧
    (s.resetTree t secret key).free = s.free ∧ (s.resetTree t secret key).pending = s.pending := by
  unfold State.resetTree
  try dsimp only
  repeat' (first | split | simp)

@[simp] theorem State.beginPounce_frame (s : State) (p : PartId) (deep : Bool) (close : Option Nat) (atStart : Bool) :
    (s.beginPounce p deep close atStart).boot = s.boot ∧ (s.beginPounce p deep close atStart).board = s.board ∧
    (s.beginPounce p deep close atStart).clocks = s.clocks ∧ (s.beginPounce p deep close atStart).host = s.host ∧
    (s.beginPounce p deep close atStart).hatband = s.hatband ∧ (s.beginPounce p deep close atStart).engines = s.engines ∧
    (s.beginPounce p deep close atStart).pending = s.pending := by
  unfold State.beginPounce
  try dsimp only
  repeat' (first | split | simp)

@[simp] theorem State.dropData_frame (s : State) (f : Fn) :
    (s.dropData f).boot = s.boot ∧ (s.dropData f).board = s.board ∧ (s.dropData f).clocks = s.clocks ∧
    (s.dropData f).host = s.host ∧ (s.dropData f).tiles = s.tiles ∧ (s.dropData f).jewel = s.jewel ∧
    (s.dropData f).ports = s.ports ∧ (s.dropData f).hatband = s.hatband ∧ (s.dropData f).engines = s.engines ∧
    (s.dropData f).free = s.free ∧ (s.dropData f).pending = s.pending := by
  unfold State.dropData
  try dsimp only
  repeat' (first | split | simp)

@[simp] theorem State.cutOthers_frame (s : State) (p : PartId) (keep : Nat) :
    (s.cutOthers p keep).boot = s.boot ∧ (s.cutOthers p keep).board = s.board ∧ (s.cutOthers p keep).clocks = s.clocks ∧
    (s.cutOthers p keep).host = s.host ∧ (s.cutOthers p keep).tiles = s.tiles ∧ (s.cutOthers p keep).ports = s.ports ∧
    (s.cutOthers p keep).hatband = s.hatband ∧ (s.cutOthers p keep).engines = s.engines ∧ (s.cutOthers p keep).free = s.free ∧
    (s.cutOthers p keep).pending = s.pending := by
  unfold State.cutOthers
  try dsimp only
  repeat' (first | split | simp)

@[simp] theorem State.checkJoined_frame (s : State) (p : PartId) :
    (s.checkJoined p).boot = s.boot ∧ (s.checkJoined p).board = s.board ∧ (s.checkJoined p).clocks = s.clocks ∧
    (s.checkJoined p).host = s.host ∧ (s.checkJoined p).pf = s.pf ∧ (s.checkJoined p).tiles = s.tiles ∧
    (s.checkJoined p).jewel = s.jewel ∧ (s.checkJoined p).ports = s.ports ∧ (s.checkJoined p).hatband = s.hatband ∧
    (s.checkJoined p).engines = s.engines ∧ (s.checkJoined p).free = s.free ∧ (s.checkJoined p).pending = s.pending := by
  unfold State.checkJoined
  try dsimp only
  repeat' (first | split | simp)

@[simp] theorem State.takePackage_frame (s : State) (p : PartId) (slot : Nat) (imp : Option Bytes) (root : Option Bytes) :
    (s.takePackage p slot imp root).boot = s.boot ∧ (s.takePackage p slot imp root).board = s.board ∧
    (s.takePackage p slot imp root).clocks = s.clocks ∧ (s.takePackage p slot imp root).host = s.host ∧
    (s.takePackage p slot imp root).pf = s.pf ∧ (s.takePackage p slot imp root).tiles = s.tiles ∧
    (s.takePackage p slot imp root).jewel = s.jewel ∧ (s.takePackage p slot imp root).ports = s.ports ∧
    (s.takePackage p slot imp root).hatband = s.hatband ∧ (s.takePackage p slot imp root).engines = s.engines ∧
    (s.takePackage p slot imp root).pending = s.pending := by
  unfold State.takePackage
  try dsimp only
  repeat' (first | split | simp)

@[simp] theorem State.putSegment_frame (s : State) (p : PartId) (g : Segment) (zero : Bool) :
    (s.putSegment p g zero).boot = s.boot ∧ (s.putSegment p g zero).board = s.board ∧ (s.putSegment p g zero).clocks = s.clocks ∧
    (s.putSegment p g zero).host = s.host ∧ (s.putSegment p g zero).parts = s.parts ∧ (s.putSegment p g zero).pf = s.pf ∧
    (s.putSegment p g zero).jewel = s.jewel ∧ (s.putSegment p g zero).ports = s.ports ∧
    (s.putSegment p g zero).hatband = s.hatband ∧ (s.putSegment p g zero).engines = s.engines ∧
    (s.putSegment p g zero).free = s.free ∧ (s.putSegment p g zero).pending = s.pending := by
  unfold State.putSegment
  try dsimp only
  repeat' (first | split | simp)

@[simp] theorem State.loadImage_frame (s : State) (p : PartId) (cmd : Cmd) (b : Bytes) :
    (s.loadImage p cmd b).1.boot = s.boot ∧ (s.loadImage p cmd b).1.board = s.board ∧ (s.loadImage p cmd b).1.clocks = s.clocks ∧
    (s.loadImage p cmd b).1.host = s.host ∧ (s.loadImage p cmd b).1.pf = s.pf ∧ (s.loadImage p cmd b).1.jewel = s.jewel ∧
    (s.loadImage p cmd b).1.ports = s.ports ∧ (s.loadImage p cmd b).1.hatband = s.hatband ∧
    (s.loadImage p cmd b).1.engines = s.engines ∧ (s.loadImage p cmd b).1.free = s.free ∧
    (s.loadImage p cmd b).1.pending = s.pending := by
  unfold State.loadImage
  try dsimp only
  repeat' (first | split | simp)

@[simp] theorem State.startRun_frame (s : State) (p : PartId) (c : Cmd) :
    (s.startRun p c).boot = s.boot ∧ (s.startRun p c).board = s.board ∧ (s.startRun p c).clocks = s.clocks ∧
    (s.startRun p c).host = s.host ∧ (s.startRun p c).pf = s.pf ∧ (s.startRun p c).jewel = s.jewel ∧
    (s.startRun p c).ports = s.ports ∧ (s.startRun p c).hatband = s.hatband ∧ (s.startRun p c).engines = s.engines ∧
    (s.startRun p c).free = s.free ∧ (s.startRun p c).pending = s.pending := by
  unfold State.startRun
  try dsimp only
  repeat' (first | split | simp)

@[simp] theorem State.startCopyIn_frame (s : State) (p : PartId) (c : Cmd) (st : Stream) :
    (s.startCopyIn p c st).boot = s.boot ∧ (s.startCopyIn p c st).board = s.board ∧ (s.startCopyIn p c st).clocks = s.clocks ∧
    (s.startCopyIn p c st).tiles = s.tiles ∧ (s.startCopyIn p c st).jewel = s.jewel ∧ (s.startCopyIn p c st).ports = s.ports ∧
    (s.startCopyIn p c st).hatband = s.hatband ∧ (s.startCopyIn p c st).engines = s.engines ∧ (s.startCopyIn p c st).free = s.free ∧
    (s.startCopyIn p c st).pending = s.pending := by
  unfold State.startCopyIn
  try dsimp only
  repeat' (first | split | simp)

@[simp] theorem State.startCopyOut_frame (s : State) (p : PartId) (c : Cmd) (st : Stream) :
    (s.startCopyOut p c st).boot = s.boot ∧ (s.startCopyOut p c st).board = s.board ∧ (s.startCopyOut p c st).clocks = s.clocks ∧
    (s.startCopyOut p c st).host = s.host ∧ (s.startCopyOut p c st).pf = s.pf ∧ (s.startCopyOut p c st).jewel = s.jewel ∧
    (s.startCopyOut p c st).ports = s.ports ∧ (s.startCopyOut p c st).hatband = s.hatband ∧
    (s.startCopyOut p c st).engines = s.engines ∧ (s.startCopyOut p c st).free = s.free ∧
    (s.startCopyOut p c st).pending = s.pending := by
  unfold State.startCopyOut
  try dsimp only
  repeat' (first | split | simp)

@[simp] theorem State.endNow_frame (s : State) (p : PartId) (seq : Nat) (r : Result) :
    (s.endNow p seq r).boot = s.boot ∧ (s.endNow p seq r).board = s.board ∧ (s.endNow p seq r).clocks = s.clocks ∧
    (s.endNow p seq r).host = s.host ∧ (s.endNow p seq r).tiles = s.tiles ∧ (s.endNow p seq r).ports = s.ports ∧
    (s.endNow p seq r).hatband = s.hatband ∧ (s.endNow p seq r).engines = s.engines ∧ (s.endNow p seq r).free = s.free ∧
    (s.endNow p seq r).pending = s.pending := by
  unfold State.endNow
  try dsimp only
  repeat' (first | split | simp)

@[simp] theorem State.bindStream_frame (s : State) (p : PartId) (c : Cmd) (j : Job) :
    (s.bindStream p c j).boot = s.boot ∧ (s.bindStream p c j).board = s.board ∧ (s.bindStream p c j).clocks = s.clocks ∧
    (s.bindStream p c j).host = s.host ∧ (s.bindStream p c j).tiles = s.tiles ∧ (s.bindStream p c j).ports = s.ports ∧
    (s.bindStream p c j).hatband = s.hatband ∧ (s.bindStream p c j).engines = s.engines ∧ (s.bindStream p c j).free = s.free ∧
    (s.bindStream p c j).pending = s.pending := by
  unfold State.bindStream
  try dsimp only
  repeat' (first | split | simp)

end Sys2Proof.Machine
end

