-- ==== Sys2Proof/Laws/FrameCarding.lean ====
section
/-! SUPPORT. What each function over State leaves as it was, and that each command answers a next state: the carding engine. -/

namespace Sys2Proof.Machine

@[simp] theorem State.modCard_frame (s : State) (p : PartId) (f : Carding → Carding) :
    (s.modCard p f).boot = s.boot ∧ (s.modCard p f).board = s.board ∧ (s.modCard p f).clocks = s.clocks ∧
    (s.modCard p f).host = s.host ∧ (s.modCard p f).pf = s.pf ∧ (s.modCard p f).tiles = s.tiles ∧ (s.modCard p f).jewel = s.jewel ∧
    (s.modCard p f).ports = s.ports ∧ (s.modCard p f).hatband = s.hatband ∧ (s.modCard p f).engines = s.engines ∧
    (s.modCard p f).free = s.free ∧ (s.modCard p f).pending = s.pending := by
  unfold State.modCard
  try dsimp only
  repeat' (first | split | simp)

@[simp] theorem State.setBucket_frame (s : State) (p : PartId) (b : Bucket) :
    (s.setBucket p b).boot = s.boot ∧ (s.setBucket p b).board = s.board ∧ (s.setBucket p b).clocks = s.clocks ∧
    (s.setBucket p b).host = s.host ∧ (s.setBucket p b).pf = s.pf ∧ (s.setBucket p b).tiles = s.tiles ∧
    (s.setBucket p b).jewel = s.jewel ∧ (s.setBucket p b).ports = s.ports ∧ (s.setBucket p b).hatband = s.hatband ∧
    (s.setBucket p b).engines = s.engines ∧ (s.setBucket p b).free = s.free ∧ (s.setBucket p b).pending = s.pending := by
  unfold State.setBucket
  try dsimp only
  repeat' (first | split | simp)

@[simp] theorem State.discardBucket_frame (s : State) (p : PartId) (b : Bucket) :
    (s.discardBucket p b).boot = s.boot ∧ (s.discardBucket p b).board = s.board ∧ (s.discardBucket p b).clocks = s.clocks ∧
    (s.discardBucket p b).host = s.host ∧ (s.discardBucket p b).pf = s.pf ∧ (s.discardBucket p b).tiles = s.tiles ∧
    (s.discardBucket p b).jewel = s.jewel ∧ (s.discardBucket p b).ports = s.ports ∧ (s.discardBucket p b).hatband = s.hatband ∧
    (s.discardBucket p b).engines = s.engines ∧ (s.discardBucket p b).free = s.free ∧ (s.discardBucket p b).pending = s.pending := by
  unfold State.discardBucket
  try dsimp only
  repeat' (first | split | simp)

@[simp] theorem State.failBucket_frame (s : State) (p : PartId) (b : Bucket) :
    (s.failBucket p b).boot = s.boot ∧ (s.failBucket p b).board = s.board ∧ (s.failBucket p b).clocks = s.clocks ∧
    (s.failBucket p b).host = s.host ∧ (s.failBucket p b).hatband = s.hatband ∧ (s.failBucket p b).engines = s.engines ∧
    (s.failBucket p b).free = s.free ∧ (s.failBucket p b).pending = s.pending := by
  unfold State.failBucket
  try dsimp only
  repeat' (first | split | simp)

@[simp] theorem State.freeBucket_frame (s : State) (p : PartId) (b : Bucket) :
    (s.freeBucket p b).boot = s.boot ∧ (s.freeBucket p b).board = s.board ∧ (s.freeBucket p b).clocks = s.clocks ∧
    (s.freeBucket p b).host = s.host ∧ (s.freeBucket p b).tiles = s.tiles ∧ (s.freeBucket p b).ports = s.ports ∧
    (s.freeBucket p b).hatband = s.hatband ∧ (s.freeBucket p b).engines = s.engines ∧ (s.freeBucket p b).free = s.free ∧
    (s.freeBucket p b).pending = s.pending := by
  unfold State.freeBucket
  try dsimp only
  repeat' (first | split | simp)

@[simp] theorem State.engErrs_frame (s : State) (p : PartId) (errs : List (Nat × Nat)) (tag : Nat) (cmd : Option (Bool × Nat)) :
    (s.engErrs p errs tag cmd).boot = s.boot ∧ (s.engErrs p errs tag cmd).board = s.board ∧
    (s.engErrs p errs tag cmd).clocks = s.clocks ∧ (s.engErrs p errs tag cmd).host = s.host ∧
    (s.engErrs p errs tag cmd).hatband = s.hatband ∧ (s.engErrs p errs tag cmd).engines = s.engines ∧
    (s.engErrs p errs tag cmd).free = s.free ∧ (s.engErrs p errs tag cmd).pending = s.pending := by
  unfold State.engErrs
  try dsimp only
  repeat' (first | split | simp)

@[simp] theorem State.advanceBucket_frame (s : State) (p : PartId) (b : Bucket) :
    (s.advanceBucket p b).boot = s.boot ∧ (s.advanceBucket p b).board = s.board ∧ (s.advanceBucket p b).clocks = s.clocks ∧
    (s.advanceBucket p b).host = s.host ∧ (s.advanceBucket p b).tiles = s.tiles ∧ (s.advanceBucket p b).hatband = s.hatband ∧
    (s.advanceBucket p b).engines = s.engines ∧ (s.advanceBucket p b).free = s.free ∧ (s.advanceBucket p b).pending = s.pending := by
  unfold State.advanceBucket
  try dsimp only
  repeat' (first | split | simp)

@[simp] theorem State.progress_frame (s : State) (p : PartId) (b : Bucket) :
    (s.progress p b).boot = s.boot ∧ (s.progress p b).board = s.board ∧ (s.progress p b).clocks = s.clocks ∧
    (s.progress p b).host = s.host ∧ (s.progress p b).hatband = s.hatband ∧ (s.progress p b).engines = s.engines ∧
    (s.progress p b).free = s.free ∧ (s.progress p b).pending = s.pending := by
  unfold State.progress
  try dsimp only
  repeat' (first | split | simp)

@[simp] theorem State.readHeld_frame (s : State) (p : PartId) (h : HeldResult) (seq : Nat) :
    (s.readHeld p h seq).1.pending = s.pending ∧ (s.readHeld p h seq).1.boot.flash = s.boot.flash ∧
    (s.readHeld p h seq).1.boot.fuses = s.boot.fuses ∧ (s.readHeld p h seq).1.boot.seed = s.boot.seed ∧
    (s.readHeld p h seq).1.boot.dpk = s.boot.dpk := by
  unfold State.readHeld
  try dsimp only
  repeat' (first | split | simp)

@[simp] theorem State.installBucket_frame (s : State) (p : PartId) (b : Bucket) :
    (s.installBucket p b).boot = s.boot ∧ (s.installBucket p b).board = s.board ∧ (s.installBucket p b).clocks = s.clocks ∧
    (s.installBucket p b).host = s.host ∧ (s.installBucket p b).hatband = s.hatband ∧ (s.installBucket p b).engines = s.engines ∧
    (s.installBucket p b).free = s.free ∧ (s.installBucket p b).pending = s.pending := by
  unfold State.installBucket
  try dsimp only
  repeat' (first | split | simp)

theorem State.contribute_frame (s : State) (t : TileId) (b : Bucket) (m : MeshDesc) :
    ∀ u, s.contribute t b m = some u → u.2.boot = s.boot ∧ u.2.board = s.board ∧ u.2.clocks = s.clocks ∧ u.2.host = s.host ∧
    u.2.parts = s.parts ∧ u.2.pf = s.pf ∧ u.2.tiles = s.tiles ∧ u.2.jewel = s.jewel ∧ u.2.ports = s.ports ∧
    u.2.hatband = s.hatband ∧ u.2.engines = s.engines ∧ u.2.pending = s.pending := by
  unfold State.contribute
  try dsimp only
  repeat' (first | split | simp)

@[simp] theorem State.usePartial_frame (s : State) (p : PartId) (b : Bucket) (m : Msg) (i : Nat) (sl : Nat) (a : Nat) (n : Nat) :
    (s.usePartial p b m i sl a n).boot = s.boot ∧ (s.usePartial p b m i sl a n).board = s.board ∧
    (s.usePartial p b m i sl a n).clocks = s.clocks ∧ (s.usePartial p b m i sl a n).host = s.host ∧
    (s.usePartial p b m i sl a n).hatband = s.hatband ∧ (s.usePartial p b m i sl a n).engines = s.engines ∧
    (s.usePartial p b m i sl a n).free = s.free ∧ (s.usePartial p b m i sl a n).pending = s.pending := by
  unfold State.usePartial
  try dsimp only
  repeat' (first | split | simp)

@[simp] theorem State.useMsg_frame (s : State) (p : PartId) (b : Bucket) (m : Msg) :
    (s.useMsg p b m).boot = s.boot ∧ (s.useMsg p b m).board = s.board ∧ (s.useMsg p b m).clocks = s.clocks ∧
    (s.useMsg p b m).host = s.host ∧ (s.useMsg p b m).hatband = s.hatband ∧ (s.useMsg p b m).engines = s.engines ∧
    (s.useMsg p b m).free = s.free ∧ (s.useMsg p b m).pending = s.pending := by
  unfold State.useMsg
  try dsimp only
  repeat' (first | split | simp)

@[simp] theorem State.useNext_frame (s : State) (p : PartId) (types : Nat → Bool) :
    (s.useNext p types).boot = s.boot ∧ (s.useNext p types).board = s.board ∧ (s.useNext p types).clocks = s.clocks ∧
    (s.useNext p types).host = s.host ∧ (s.useNext p types).hatband = s.hatband ∧ (s.useNext p types).engines = s.engines ∧
    (s.useNext p types).free = s.free ∧ (s.useNext p types).pending = s.pending := by
  unfold State.useNext
  try dsimp only
  repeat' (first | split | simp)

@[simp] theorem State.capRecord_frame (s : State) (p : PartId) (b : Bucket) (t : Nat) (bs : Bytes) (bad : Bool) :
    (s.capRecord p b t bs bad).pending = s.pending ∧ (s.capRecord p b t bs bad).boot.flash = s.boot.flash ∧
    (s.capRecord p b t bs bad).boot.fuses = s.boot.fuses ∧ (s.capRecord p b t bs bad).boot.seed = s.boot.seed ∧
    (s.capRecord p b t bs bad).boot.dpk = s.boot.dpk := by
  unfold State.capRecord
  try dsimp only
  repeat' (first | split | simp)

theorem State.deliverOne_frame (s : State) (p : PartId) (tag : Nat) (t : TileId) :
    ∀ u, s.deliverOne p tag t = some u → u.pending = s.pending ∧ u.boot.flash = s.boot.flash ∧ u.boot.fuses = s.boot.fuses ∧
    u.boot.seed = s.boot.seed ∧ u.boot.dpk = s.boot.dpk := by
  unfold State.deliverOne
  try dsimp only
  repeat' (first | split | simp)

@[simp] theorem State.deliverTile_frame (s : State) (p : PartId) (tag : Nat) (t : TileId) (n : Nat) :
    (s.deliverTile p tag t n).pending = s.pending ∧ (s.deliverTile p tag t n).boot.flash = s.boot.flash ∧
    (s.deliverTile p tag t n).boot.fuses = s.boot.fuses ∧ (s.deliverTile p tag t n).boot.seed = s.boot.seed ∧
    (s.deliverTile p tag t n).boot.dpk = s.boot.dpk := by
  induction n generalizing s with
  | zero => simp [State.deliverTile]
  | succ n ih =>
    unfold State.deliverTile
    split
    · simp
    · rename_i u h
      have k := State.deliverOne_frame s p tag t u h
      simp [ih, k]

theorem execReduce_frame (p : PartId) (s : State) :
    ∃ u, execReduce p s = .next u ∧ u.pending = s.pending ∧ u.boot.flash = s.boot.flash ∧ u.boot.fuses = s.boot.fuses ∧
    u.boot.seed = s.boot.seed ∧ u.boot.dpk = s.boot.dpk := by
  unfold execReduce
  try dsimp only
  repeat' (first | split | simp)

theorem execCardingContribution_frame (t : TileId) (s : State) :
    ∃ u, execCardingContribution t s = .next u ∧ u.boot = s.boot ∧ u.board = s.board ∧ u.clocks = s.clocks ∧ u.host = s.host ∧
    u.hatband = s.hatband ∧ u.engines = s.engines ∧ u.pending = s.pending := by
  unfold execCardingContribution
  try dsimp only
  repeat' (first | split | simp)

theorem execPartialMsg_frame (p : PartId) (s : State) :
    ∃ u, execPartialMsg p s = .next u ∧ u.boot = s.boot ∧ u.board = s.board ∧ u.clocks = s.clocks ∧ u.host = s.host ∧
    u.hatband = s.hatband ∧ u.engines = s.engines ∧ u.free = s.free ∧ u.pending = s.pending := by
  unfold execPartialMsg
  try dsimp only
  repeat' (first | split | simp)

theorem execFinalMsg_frame (p : PartId) (s : State) :
    ∃ u, execFinalMsg p s = .next u ∧ u.boot = s.boot ∧ u.board = s.board ∧ u.clocks = s.clocks ∧ u.host = s.host ∧
    u.hatband = s.hatband ∧ u.engines = s.engines ∧ u.free = s.free ∧ u.pending = s.pending := by
  unfold execFinalMsg
  try dsimp only
  repeat' (first | split | simp)

theorem execGather_frame (p : PartId) (s : State) :
    ∃ u, execGather p s = .next u ∧ u.boot = s.boot ∧ u.board = s.board ∧ u.clocks = s.clocks ∧ u.host = s.host ∧
    u.hatband = s.hatband ∧ u.engines = s.engines ∧ u.free = s.free ∧ u.pending = s.pending := by
  unfold execGather
  try dsimp only
  repeat' (first | split | simp)

theorem execMkup_frame (p : PartId) (s : State) :
    ∃ u, execMkup p s = .next u ∧ u.boot = s.boot ∧ u.board = s.board ∧ u.clocks = s.clocks ∧ u.host = s.host ∧
    u.hatband = s.hatband ∧ u.engines = s.engines ∧ u.free = s.free ∧ u.pending = s.pending := by
  unfold execMkup
  try dsimp only
  repeat' (first | split | simp)

theorem execMkdn_frame (p : PartId) (s : State) :
    ∃ u, execMkdn p s = .next u ∧ u.boot = s.boot ∧ u.board = s.board ∧ u.clocks = s.clocks ∧ u.host = s.host ∧
    u.hatband = s.hatband ∧ u.engines = s.engines ∧ u.free = s.free ∧ u.pending = s.pending := by
  unfold execMkdn
  try dsimp only
  repeat' (first | split | simp)

theorem execMoveMsg_frame (p : PartId) (s : State) :
    ∃ u, execMoveMsg p s = .next u ∧ u.boot = s.boot ∧ u.board = s.board ∧ u.clocks = s.clocks ∧ u.host = s.host ∧
    u.hatband = s.hatband ∧ u.engines = s.engines ∧ u.free = s.free ∧ u.pending = s.pending := by
  unfold execMoveMsg
  try dsimp only
  repeat' (first | split | simp)

theorem execBucketDelivery_frame (p : PartId) (tag : BitVec 16) (s : State) :
    ∃ u, execBucketDelivery p tag s = .next u ∧ u.pending = s.pending ∧ u.boot.flash = s.boot.flash ∧ u.boot.fuses = s.boot.fuses ∧
    u.boot.seed = s.boot.seed ∧ u.boot.dpk = s.boot.dpk := by
  unfold execBucketDelivery
  try dsimp only
  repeat' (first | split | simp)

end Sys2Proof.Machine
end

