-- ==== Sys2Proof/Laws/FrameCheckpoint.lean ====
section
/-! SUPPORT. What each function over State leaves as it was, and that each command answers a next state: checkpoint and restore. -/

namespace Sys2Proof.Machine

@[simp] theorem State.zeroBitmap_frame (s : State) (p : PartId) (t : TileId) (pl : Plan) (who : Option (Bool × Nat)) :
    (s.zeroBitmap p t pl who).pending = s.pending ∧ (s.zeroBitmap p t pl who).boot.flash = s.boot.flash ∧
    (s.zeroBitmap p t pl who).boot.fuses = s.boot.fuses ∧ (s.zeroBitmap p t pl who).boot.seed = s.boot.seed ∧
    (s.zeroBitmap p t pl who).boot.dpk = s.boot.dpk := by
  unfold State.zeroBitmap
  try dsimp only
  repeat' (first | split | simp)

@[simp] theorem State.freezeNow_frame (s : State) (p : PartId) (c : Ckpt) (entry : Nat) (plans : List (TileId × Plan)) (pland :
    Bytes) :
    (s.freezeNow p c entry plans pland).pending = s.pending ∧ (s.freezeNow p c entry plans pland).boot.flash = s.boot.flash ∧
    (s.freezeNow p c entry plans pland).boot.fuses = s.boot.fuses ∧ (s.freezeNow p c entry plans pland).boot.seed = s.boot.seed ∧
    (s.freezeNow p c entry plans pland).boot.dpk = s.boot.dpk := by
  unfold State.freezeNow
  try dsimp only
  repeat' (first | split | simp)

@[simp] theorem State.tryFreeze_frame (s : State) (p : PartId) :
    (s.tryFreeze p).pending = s.pending ∧ (s.tryFreeze p).boot.flash = s.boot.flash ∧ (s.tryFreeze p).boot.fuses = s.boot.fuses ∧
    (s.tryFreeze p).boot.seed = s.boot.seed ∧ (s.tryFreeze p).boot.dpk = s.boot.dpk := by
  unfold State.tryFreeze
  try dsimp only
  repeat' (first | split | simp)

@[simp] theorem State.startCkpt_frame (s : State) (p : PartId) (c : Cmd) :
    (s.startCkpt p c).pending = s.pending ∧ (s.startCkpt p c).boot.flash = s.boot.flash ∧
    (s.startCkpt p c).boot.fuses = s.boot.fuses ∧ (s.startCkpt p c).boot.seed = s.boot.seed ∧
    (s.startCkpt p c).boot.dpk = s.boot.dpk := by
  unfold State.startCkpt
  try dsimp only
  repeat' (first | split | simp)

@[simp] theorem State.hostTrailer_frame (s : State) (p : PartId) (c : Ckpt) :
    (s.hostTrailer p c).boot = s.boot ∧ (s.hostTrailer p c).board = s.board ∧ (s.hostTrailer p c).clocks = s.clocks ∧
    (s.hostTrailer p c).host = s.host ∧ (s.hostTrailer p c).ports = s.ports ∧ (s.hostTrailer p c).hatband = s.hatband ∧
    (s.hostTrailer p c).engines = s.engines ∧ (s.hostTrailer p c).free = s.free ∧ (s.hostTrailer p c).pending = s.pending := by
  unfold State.hostTrailer
  try dsimp only
  repeat' (first | split | simp)

theorem State.takeInbox3_frame (s : State) (p : PartId) (f : Nat → Option FullerMsg → Bool) :
    ∀ u, s.takeInbox3 p f = some u → u.2.2.boot = s.boot ∧ u.2.2.board = s.board ∧ u.2.2.clocks = s.clocks ∧ u.2.2.host = s.host ∧
    u.2.2.pf = s.pf ∧ u.2.2.tiles = s.tiles ∧ u.2.2.jewel = s.jewel ∧ u.2.2.ports = s.ports ∧ u.2.2.hatband = s.hatband ∧
    u.2.2.engines = s.engines ∧ u.2.2.free = s.free ∧ u.2.2.pending = s.pending := by
  intro u h
  unfold State.takeInbox3 at h
  split at h
  · simp at h
  · simp only [Option.map_eq_some_iff] at h
    obtain ⟨m, _, rfl⟩ := h
    simp

theorem State.takeInbox2_frame (s : State) (p : PartId) (f : Nat → JewelMsg → Bool) :
    ∀ u, s.takeInbox2 p f = some u → u.2.2.boot = s.boot ∧ u.2.2.board = s.board ∧ u.2.2.clocks = s.clocks ∧ u.2.2.host = s.host ∧
    u.2.2.pf = s.pf ∧ u.2.2.tiles = s.tiles ∧ u.2.2.jewel = s.jewel ∧ u.2.2.ports = s.ports ∧ u.2.2.hatband = s.hatband ∧
    u.2.2.engines = s.engines ∧ u.2.2.free = s.free ∧ u.2.2.pending = s.pending := by
  intro u h
  unfold State.takeInbox2 at h
  split at h
  · simp at h
  · simp only [Option.map_eq_some_iff] at h
    obtain ⟨m, _, rfl⟩ := h
    simp

@[simp] theorem State.setClient_frame (s : State) (p : PartId) (c : Client) :
    (s.setClient p c).boot = s.boot ∧ (s.setClient p c).board = s.board ∧ (s.setClient p c).clocks = s.clocks ∧
    (s.setClient p c).host = s.host ∧ (s.setClient p c).pf = s.pf ∧ (s.setClient p c).tiles = s.tiles ∧
    (s.setClient p c).jewel = s.jewel ∧ (s.setClient p c).ports = s.ports ∧ (s.setClient p c).hatband = s.hatband ∧
    (s.setClient p c).engines = s.engines ∧ (s.setClient p c).free = s.free ∧ (s.setClient p c).pending = s.pending := by
  unfold State.setClient
  try dsimp only
  repeat' (first | split | simp)

@[simp] theorem State.storeChunk_frame (s : State) (p : PartId) (pl : TileId × Nat) (data : Option Bytes) :
    (s.storeChunk p pl data).pending = s.pending ∧ (s.storeChunk p pl data).boot.flash = s.boot.flash ∧
    (s.storeChunk p pl data).boot.fuses = s.boot.fuses ∧ (s.storeChunk p pl data).boot.seed = s.boot.seed ∧
    (s.storeChunk p pl data).boot.dpk = s.boot.dpk := by
  unfold State.storeChunk
  try dsimp only
  repeat' (first | split | simp)

@[simp] theorem State.refuseLog_frame (s : State) (p : PartId) (src : Nat) (ckno : Nat) :
    (s.refuseLog p src ckno).boot = s.boot ∧ (s.refuseLog p src ckno).board = s.board ∧ (s.refuseLog p src ckno).clocks = s.clocks ∧
    (s.refuseLog p src ckno).host = s.host ∧ (s.refuseLog p src ckno).pf = s.pf ∧ (s.refuseLog p src ckno).tiles = s.tiles ∧
    (s.refuseLog p src ckno).jewel = s.jewel ∧ (s.refuseLog p src ckno).hatband = s.hatband ∧
    (s.refuseLog p src ckno).engines = s.engines ∧ (s.refuseLog p src ckno).free = s.free ∧
    (s.refuseLog p src ckno).pending = s.pending := by
  unfold State.refuseLog
  try dsimp only
  repeat' (first | split | simp)

theorem State.openLog_frame (s : State) (p : PartId) (src : Nat) (ckno : Nat) :
    ∀ u, s.openLog p src ckno = some u → u.pending = s.pending ∧ u.boot.flash = s.boot.flash ∧ u.boot.fuses = s.boot.fuses ∧
    u.boot.seed = s.boot.seed ∧ u.boot.dpk = s.boot.dpk := by
  unfold State.openLog
  try dsimp only
  repeat' (first | split | simp)

@[simp] theorem State.takeChunk_frame (s : State) (p : PartId) (src : Nat) (i : Nat) (last : Bool) (data : Option Bytes) :
    (s.takeChunk p src i last data).pending = s.pending ∧ (s.takeChunk p src i last data).boot.flash = s.boot.flash ∧
    (s.takeChunk p src i last data).boot.fuses = s.boot.fuses ∧ (s.takeChunk p src i last data).boot.seed = s.boot.seed ∧
    (s.takeChunk p src i last data).boot.dpk = s.boot.dpk := by
  unfold State.takeChunk
  try dsimp only
  repeat' (first | split | simp)

@[simp] theorem State.returnLog_frame (s : State) (p : PartId) (src : Nat) (ckno : Nat) (n : Nat) (c : Client) (is : List Nat) :
    (s.returnLog p src ckno n c is).pending = s.pending ∧ (s.returnLog p src ckno n c is).boot.flash = s.boot.flash ∧
    (s.returnLog p src ckno n c is).boot.fuses = s.boot.fuses ∧ (s.returnLog p src ckno n c is).boot.seed = s.boot.seed ∧
    (s.returnLog p src ckno n c is).boot.dpk = s.boot.dpk := by
  induction is generalizing s with
  | nil => simp [State.returnLog]
  | cons i is ih =>
    unfold State.returnLog
    repeat' (first | split | simp [ih])

@[simp] theorem State.modRestore_frame (s : State) (p : PartId) (f : Restore → Restore) :
    (s.modRestore p f).boot = s.boot ∧ (s.modRestore p f).board = s.board ∧ (s.modRestore p f).clocks = s.clocks ∧
    (s.modRestore p f).host = s.host ∧ (s.modRestore p f).pf = s.pf ∧ (s.modRestore p f).tiles = s.tiles ∧
    (s.modRestore p f).jewel = s.jewel ∧ (s.modRestore p f).ports = s.ports ∧ (s.modRestore p f).hatband = s.hatband ∧
    (s.modRestore p f).engines = s.engines ∧ (s.modRestore p f).free = s.free ∧ (s.modRestore p f).pending = s.pending := by
  unfold State.modRestore
  try dsimp only
  repeat' (first | split | simp)

@[simp] theorem State.endRestore_frame (s : State) (p : PartId) (r : Result) :
    (s.endRestore p r).boot = s.boot ∧ (s.endRestore p r).board = s.board ∧ (s.endRestore p r).clocks = s.clocks ∧
    (s.endRestore p r).host = s.host ∧ (s.endRestore p r).tiles = s.tiles ∧ (s.endRestore p r).ports = s.ports ∧
    (s.endRestore p r).hatband = s.hatband ∧ (s.endRestore p r).engines = s.engines ∧ (s.endRestore p r).free = s.free ∧
    (s.endRestore p r).pending = s.pending := by
  unfold State.endRestore
  try dsimp only
  repeat' (first | split | simp)

@[simp] theorem State.failRestore_frame (s : State) (p : PartId) :
    (s.failRestore p).boot = s.boot ∧ (s.failRestore p).board = s.board ∧ (s.failRestore p).clocks = s.clocks ∧
    (s.failRestore p).host = s.host ∧ (s.failRestore p).tiles = s.tiles ∧ (s.failRestore p).ports = s.ports ∧
    (s.failRestore p).hatband = s.hatband ∧ (s.failRestore p).engines = s.engines ∧ (s.failRestore p).free = s.free ∧
    (s.failRestore p).pending = s.pending := by
  unfold State.failRestore
  try dsimp only
  repeat' (first | split | simp)

@[simp] theorem State.askNext_frame (s : State) (p : PartId) (sid : Nat) (i : Nat) :
    (s.askNext p sid i).boot = s.boot ∧ (s.askNext p sid i).board = s.board ∧ (s.askNext p sid i).clocks = s.clocks ∧
    (s.askNext p sid i).tiles = s.tiles ∧ (s.askNext p sid i).jewel = s.jewel ∧ (s.askNext p sid i).ports = s.ports ∧
    (s.askNext p sid i).hatband = s.hatband ∧ (s.askNext p sid i).engines = s.engines ∧ (s.askNext p sid i).free = s.free ∧
    (s.askNext p sid i).pending = s.pending := by
  unfold State.askNext
  try dsimp only
  repeat' (first | split | simp)

@[simp] theorem State.restoreRecord_frame (s : State) (p : PartId) (x : Restore) (ent : Bytes) (data : Bytes) :
    (s.restoreRecord p x ent data).1.pending = s.pending ∧ (s.restoreRecord p x ent data).1.boot.flash = s.boot.flash ∧
    (s.restoreRecord p x ent data).1.boot.fuses = s.boot.fuses ∧ (s.restoreRecord p x ent data).1.boot.seed = s.boot.seed ∧
    (s.restoreRecord p x ent data).1.boot.dpk = s.boot.dpk := by
  unfold State.restoreRecord
  try dsimp only
  repeat' (first | split | simp)

@[simp] theorem State.restoreUnit_frame (s : State) (p : PartId) (ent : Bytes) (data : Bytes) :
    (s.restoreUnit p ent data).1.pending = s.pending ∧ (s.restoreUnit p ent data).1.boot.flash = s.boot.flash ∧
    (s.restoreUnit p ent data).1.boot.fuses = s.boot.fuses ∧ (s.restoreUnit p ent data).1.boot.seed = s.boot.seed ∧
    (s.restoreUnit p ent data).1.boot.dpk = s.boot.dpk := by
  unfold State.restoreUnit
  try dsimp only
  repeat' (first | split | simp)

@[simp] theorem State.restoreUnits_frame (s : State) (p : PartId) (chunk : Bytes) (us : List Nat) :
    (s.restoreUnits p chunk us).1.pending = s.pending ∧ (s.restoreUnits p chunk us).1.boot.flash = s.boot.flash ∧
    (s.restoreUnits p chunk us).1.boot.fuses = s.boot.fuses ∧ (s.restoreUnits p chunk us).1.boot.seed = s.boot.seed ∧
    (s.restoreUnits p chunk us).1.boot.dpk = s.boot.dpk := by
  induction us generalizing s with
  | nil => simp [State.restoreUnits]
  | cons i is ih =>
    unfold State.restoreUnits
    repeat' (first | split | simp [ih])

@[simp] theorem State.restoreGo_frame (s : State) (p : PartId) (yes : Bool) :
    (s.restoreGo p yes).boot = s.boot ∧ (s.restoreGo p yes).board = s.board ∧ (s.restoreGo p yes).clocks = s.clocks ∧
    (s.restoreGo p yes).host = s.host ∧ (s.restoreGo p yes).tiles = s.tiles ∧ (s.restoreGo p yes).ports = s.ports ∧
    (s.restoreGo p yes).hatband = s.hatband ∧ (s.restoreGo p yes).engines = s.engines ∧ (s.restoreGo p yes).free = s.free ∧
    (s.restoreGo p yes).pending = s.pending := by
  unfold State.restoreGo
  try dsimp only
  repeat' (first | split | simp)

@[simp] theorem State.decideRestore_frame (s : State) (p : PartId) :
    (s.decideRestore p).boot = s.boot ∧ (s.decideRestore p).board = s.board ∧ (s.decideRestore p).clocks = s.clocks ∧
    (s.decideRestore p).host = s.host ∧ (s.decideRestore p).tiles = s.tiles ∧ (s.decideRestore p).hatband = s.hatband ∧
    (s.decideRestore p).engines = s.engines ∧ (s.decideRestore p).free = s.free ∧ (s.decideRestore p).pending = s.pending := by
  unfold State.decideRestore
  try dsimp only
  repeat' (first | split | simp)

@[simp] theorem State.noteRestore_frame (s : State) (p : PartId) (src : Nat) (v : Nat × Nat × Bytes × Bool) :
    (s.noteRestore p src v).boot = s.boot ∧ (s.noteRestore p src v).board = s.board ∧ (s.noteRestore p src v).clocks = s.clocks ∧
    (s.noteRestore p src v).host = s.host ∧ (s.noteRestore p src v).tiles = s.tiles ∧ (s.noteRestore p src v).hatband = s.hatband ∧
    (s.noteRestore p src v).engines = s.engines ∧ (s.noteRestore p src v).free = s.free ∧
    (s.noteRestore p src v).pending = s.pending := by
  unfold State.noteRestore
  try dsimp only
  repeat' (first | split | simp)

@[simp] theorem State.logRead_frame (s : State) (p : PartId) (x : Restore) (t : Trailer) :
    (s.logRead p x t).boot = s.boot ∧ (s.logRead p x t).board = s.board ∧ (s.logRead p x t).clocks = s.clocks ∧
    (s.logRead p x t).host = s.host ∧ (s.logRead p x t).tiles = s.tiles ∧ (s.logRead p x t).hatband = s.hatband ∧
    (s.logRead p x t).engines = s.engines ∧ (s.logRead p x t).free = s.free ∧ (s.logRead p x t).pending = s.pending := by
  unfold State.logRead
  try dsimp only
  repeat' (first | split | simp)

@[simp] theorem State.restoreChunk_frame (s : State) (p : PartId) (chunk : Nat) (n : Nat) (plain : Option Bytes) :
    (s.restoreChunk p chunk n plain).pending = s.pending ∧ (s.restoreChunk p chunk n plain).boot.flash = s.boot.flash ∧
    (s.restoreChunk p chunk n plain).boot.fuses = s.boot.fuses ∧ (s.restoreChunk p chunk n plain).boot.seed = s.boot.seed ∧
    (s.restoreChunk p chunk n plain).boot.dpk = s.boot.dpk := by
  unfold State.restoreChunk
  try dsimp only
  repeat' (first | split | simp)

@[simp] theorem State.cutCkpts_frame (s : State) (p : PartId) :
    (s.cutCkpts p).boot = s.boot ∧ (s.cutCkpts p).board = s.board ∧ (s.cutCkpts p).clocks = s.clocks ∧
    (s.cutCkpts p).host = s.host ∧ (s.cutCkpts p).ports = s.ports ∧ (s.cutCkpts p).hatband = s.hatband ∧
    (s.cutCkpts p).engines = s.engines ∧ (s.cutCkpts p).free = s.free ∧ (s.cutCkpts p).pending = s.pending := by
  unfold State.cutCkpts
  try dsimp only
  repeat' (first | split | simp)

@[simp] theorem State.startRestore_frame (s : State) (p : PartId) (c : Cmd) :
    (s.startRestore p c).boot = s.boot ∧ (s.startRestore p c).board = s.board ∧ (s.startRestore p c).clocks = s.clocks ∧
    (s.startRestore p c).hatband = s.hatband ∧ (s.startRestore p c).engines = s.engines ∧ (s.startRestore p c).free = s.free ∧
    (s.startRestore p c).pending = s.pending := by
  unfold State.startRestore
  try dsimp only
  repeat' (first | split | simp)

theorem execCheckpoint_frame (p : PartId) (s : State) :
    ∃ u, execCheckpoint p s = .next u ∧ u.pending = s.pending ∧ u.boot.flash = s.boot.flash ∧ u.boot.fuses = s.boot.fuses ∧
    u.boot.seed = s.boot.seed ∧ u.boot.dpk = s.boot.dpk := by
  unfold execCheckpoint
  try dsimp only
  repeat' (first | split | simp)

theorem execTileMark_frame (t : TileId) (s : State) :
    ∃ u, execTileMark t s = .next u ∧ u.pending = s.pending ∧ u.boot.flash = s.boot.flash ∧ u.boot.fuses = s.boot.fuses ∧
    u.boot.seed = s.boot.seed ∧ u.boot.dpk = s.boot.dpk := by
  unfold execTileMark
  try dsimp only
  repeat' (first | split | simp)

theorem execCheckpointTrailer_frame (p : PartId) (s : State) :
    ∃ u, execCheckpointTrailer p s = .next u ∧ u.boot = s.boot ∧ u.board = s.board ∧ u.clocks = s.clocks ∧ u.host = s.host ∧
    u.hatband = s.hatband ∧ u.engines = s.engines ∧ u.free = s.free ∧ u.pending = s.pending := by
  unfold execCheckpointTrailer
  try dsimp only
  repeat' (first | split | simp)

theorem execBuddyTrailerAck_frame (p : PartId) (s : State) :
    ∃ u, execBuddyTrailerAck p s = .next u ∧ u.boot = s.boot ∧ u.board = s.board ∧ u.clocks = s.clocks ∧ u.host = s.host ∧
    u.tiles = s.tiles ∧ u.ports = s.ports ∧ u.hatband = s.hatband ∧ u.engines = s.engines ∧ u.free = s.free ∧ u.pending = s.pending := by
  unfold execBuddyTrailerAck
  try dsimp only
  split
  all_goals first
    | (rename_i h
       have k := State.takeInbox3_frame _ _ _ _ h
       dsimp only at k
       repeat' (first | split | simp [k]))
    | simp

@[simp] theorem State.refusedLog_frame (s : State) (p : PartId) (src : Nat) (ckno : Nat) :
    (s.refusedLog p src ckno).boot = s.boot ∧ (s.refusedLog p src ckno).board = s.board ∧
    (s.refusedLog p src ckno).clocks = s.clocks ∧ (s.refusedLog p src ckno).host = s.host ∧
    (s.refusedLog p src ckno).ports = s.ports ∧ (s.refusedLog p src ckno).hatband = s.hatband ∧
    (s.refusedLog p src ckno).engines = s.engines ∧ (s.refusedLog p src ckno).free = s.free ∧
    (s.refusedLog p src ckno).pending = s.pending := by
  unfold State.refusedLog
  try dsimp only
  repeat' (first | split | simp)

theorem execBuddyRefusal_frame (p : PartId) (s : State) :
    ∃ u, execBuddyRefusal p s = .next u ∧ u.boot = s.boot ∧ u.board = s.board ∧ u.clocks = s.clocks ∧ u.host = s.host ∧
    u.ports = s.ports ∧ u.hatband = s.hatband ∧ u.engines = s.engines ∧ u.free = s.free ∧ u.pending = s.pending := by
  unfold execBuddyRefusal
  try dsimp only
  split
  all_goals first
    | (rename_i h
       have k := State.takeInbox3_frame _ _ _ _ h
       dsimp only at k
       repeat' (first | split | simp [k]))
    | simp

theorem execBuddyChunk_frame (p : PartId) (s : State) :
    ∃ u, execBuddyChunk p s = .next u ∧ u.pending = s.pending ∧ u.boot.flash = s.boot.flash ∧ u.boot.fuses = s.boot.fuses ∧
    u.boot.seed = s.boot.seed ∧ u.boot.dpk = s.boot.dpk := by
  unfold execBuddyChunk
  try dsimp only
  split
  · rename_i h
    have k := State.takeInbox3_frame _ _ _ _ h
    dsimp only at k
    split
    · split
      · rename_i h2
        have k2 := State.openLog_frame _ _ _ _ _ h2
        simp [k, k2]
      · simp [k]
    · split <;> simp [k]
  · rename_i h
    have k := State.takeInbox3_frame _ _ _ _ h
    dsimp only at k
    split <;> simp [k]
  · simp

theorem execBuddyLogRequest_frame (p : PartId) (s : State) :
    ∃ u, execBuddyLogRequest p s = .next u ∧ u.pending = s.pending ∧ u.boot.flash = s.boot.flash ∧ u.boot.fuses = s.boot.fuses ∧
    u.boot.seed = s.boot.seed ∧ u.boot.dpk = s.boot.dpk := by
  unfold execBuddyLogRequest
  try dsimp only
  split
  all_goals first
    | (rename_i h
       have k := State.takeInbox3_frame _ _ _ _ h
       dsimp only at k
       repeat' (first | split | simp [k]))
    | simp

theorem execRestore_frame (p : PartId) (s : State) :
    ∃ u, execRestore p s = .next u ∧ u.boot = s.boot ∧ u.board = s.board ∧ u.clocks = s.clocks ∧ u.hatband = s.hatband ∧
    u.engines = s.engines ∧ u.free = s.free ∧ u.pending = s.pending := by
  unfold execRestore
  try dsimp only
  repeat' (first | split | simp)

theorem execRestoreLogChunk_frame (p : PartId) (s : State) :
    ∃ u, execRestoreLogChunk p s = .next u ∧ u.pending = s.pending ∧ u.boot.flash = s.boot.flash ∧ u.boot.fuses = s.boot.fuses ∧
    u.boot.seed = s.boot.seed ∧ u.boot.dpk = s.boot.dpk := by
  unfold execRestoreLogChunk
  try dsimp only
  split
  all_goals first
    | (rename_i h
       have k := State.takeInbox3_frame _ _ _ _ h
       dsimp only at k
       repeat' (first | split | simp [k]))
    | simp

theorem execRestoreAgreement_frame (p : PartId) (s : State) :
    ∃ u, execRestoreAgreement p s = .next u ∧ u.boot = s.boot ∧ u.board = s.board ∧ u.clocks = s.clocks ∧ u.host = s.host ∧
    u.tiles = s.tiles ∧ u.hatband = s.hatband ∧ u.engines = s.engines ∧ u.free = s.free ∧ u.pending = s.pending := by
  unfold execRestoreAgreement
  try dsimp only
  split
  all_goals first
    | (rename_i h
       have k := State.takeInbox2_frame _ _ _ _ h
       dsimp only at k
       repeat' (first | split | simp [k]))
    | simp

theorem execGoMsg_frame (p : PartId) (s : State) :
    ∃ u, execGoMsg p s = .next u ∧ u.boot = s.boot ∧ u.board = s.board ∧ u.clocks = s.clocks ∧ u.host = s.host ∧ u.tiles = s.tiles ∧
    u.ports = s.ports ∧ u.hatband = s.hatband ∧ u.engines = s.engines ∧ u.free = s.free ∧ u.pending = s.pending := by
  unfold execGoMsg
  try dsimp only
  split
  all_goals first
    | (rename_i h
       have k := State.takeInbox2_frame _ _ _ _ h
       dsimp only at k
       repeat' (first | split | simp [k]))
    | simp

end Sys2Proof.Machine
end

