-- ==== Sys2Proof/Laws/FrameJobs.lean ====
section
/-! SUPPORT. What each function over State leaves as it was, and that each command answers a next state: the job commands and messages between members. -/

namespace Sys2Proof.Machine

@[simp] theorem State.setService_frame (s : State) (f : Fn) (v : Option Service) :
    (s.setService f v).boot = s.boot ∧ (s.setService f v).board = s.board ∧ (s.setService f v).clocks = s.clocks ∧
    (s.setService f v).host = s.host ∧ (s.setService f v).tiles = s.tiles ∧ (s.setService f v).jewel = s.jewel ∧
    (s.setService f v).ports = s.ports ∧ (s.setService f v).hatband = s.hatband ∧ (s.setService f v).engines = s.engines ∧
    (s.setService f v).free = s.free ∧ (s.setService f v).pending = s.pending := by
  unfold State.setService
  try dsimp only
  repeat' (first | split | simp)

@[simp] theorem State.outcome_frame (s : State) (f : Fn) (st : Nat) (cls : Nat) (result : Nat) :
    (s.outcome f st cls result).boot = s.boot ∧ (s.outcome f st cls result).board = s.board ∧
    (s.outcome f st cls result).clocks = s.clocks ∧ (s.outcome f st cls result).host = s.host ∧
    (s.outcome f st cls result).tiles = s.tiles ∧ (s.outcome f st cls result).jewel = s.jewel ∧
    (s.outcome f st cls result).ports = s.ports ∧ (s.outcome f st cls result).hatband = s.hatband ∧
    (s.outcome f st cls result).engines = s.engines ∧ (s.outcome f st cls result).free = s.free ∧
    (s.outcome f st cls result).pending = s.pending := by
  unfold State.outcome
  try dsimp only
  repeat' (first | split | simp)

@[simp] theorem State.challenge_frame (s : State) (p : PartId) :
    (s.challenge p).boot = s.boot ∧ (s.challenge p).board = s.board ∧ (s.challenge p).clocks = s.clocks ∧
    (s.challenge p).host = s.host ∧ (s.challenge p).pf = s.pf ∧ (s.challenge p).tiles = s.tiles ∧ (s.challenge p).jewel = s.jewel ∧
    (s.challenge p).hatband = s.hatband ∧ (s.challenge p).engines = s.engines ∧ (s.challenge p).pending = s.pending := by
  unfold State.challenge
  try dsimp only
  repeat' (first | split | simp)

@[simp] theorem State.announce_frame (s : State) (p : PartId) :
    (s.announce p).boot = s.boot ∧ (s.announce p).board = s.board ∧ (s.announce p).clocks = s.clocks ∧
    (s.announce p).host = s.host ∧ (s.announce p).parts = s.parts ∧ (s.announce p).pf = s.pf ∧ (s.announce p).tiles = s.tiles ∧
    (s.announce p).jewel = s.jewel ∧ (s.announce p).hatband = s.hatband ∧ (s.announce p).engines = s.engines ∧
    (s.announce p).free = s.free ∧ (s.announce p).pending = s.pending := by
  unfold State.announce
  try dsimp only
  repeat' (first | split | simp)

@[simp] theorem State.answer_frame (s : State) (p : PartId) :
    (s.answer p).boot = s.boot ∧ (s.answer p).board = s.board ∧ (s.answer p).clocks = s.clocks ∧ (s.answer p).host = s.host ∧
    (s.answer p).pf = s.pf ∧ (s.answer p).tiles = s.tiles ∧ (s.answer p).jewel = s.jewel ∧ (s.answer p).hatband = s.hatband ∧
    (s.answer p).engines = s.engines ∧ (s.answer p).free = s.free ∧ (s.answer p).pending = s.pending := by
  unfold State.answer
  try dsimp only
  repeat' (first | split | simp)

@[simp] theorem State.installKeys_frame (s : State) (p : PartId) :
    (s.installKeys p).boot = s.boot ∧ (s.installKeys p).board = s.board ∧ (s.installKeys p).clocks = s.clocks ∧
    (s.installKeys p).host = s.host ∧ (s.installKeys p).pf = s.pf ∧ (s.installKeys p).tiles = s.tiles ∧
    (s.installKeys p).jewel = s.jewel ∧ (s.installKeys p).hatband = s.hatband ∧ (s.installKeys p).engines = s.engines ∧
    (s.installKeys p).free = s.free ∧ (s.installKeys p).pending = s.pending := by
  unfold State.installKeys
  try dsimp only
  repeat' (first | split | simp)

@[simp] theorem State.endWindow_frame (s : State) (f : Fn) :
    (s.endWindow f).boot = s.boot ∧ (s.endWindow f).board = s.board ∧ (s.endWindow f).clocks = s.clocks ∧
    (s.endWindow f).host = s.host ∧ (s.endWindow f).tiles = s.tiles ∧ (s.endWindow f).hatband = s.hatband ∧
    (s.endWindow f).engines = s.engines ∧ (s.endWindow f).free = s.free ∧ (s.endWindow f).pending = s.pending := by
  unfold State.endWindow
  try dsimp only
  repeat' (first | split | simp)

@[simp] theorem State.beginService_frame (s : State) (f : Fn) (opcs : List Nat) :
    (s.beginService f opcs).boot = s.boot ∧ (s.beginService f opcs).board = s.board ∧ (s.beginService f opcs).clocks = s.clocks ∧
    (s.beginService f opcs).ports = s.ports ∧ (s.beginService f opcs).hatband = s.hatband ∧
    (s.beginService f opcs).engines = s.engines ∧ (s.beginService f opcs).free = s.free ∧
    (s.beginService f opcs).pending = s.pending := by
  unfold State.beginService
  try dsimp only
  repeat' (first | split | simp)

@[simp] theorem State.windowMessages_frame (s : State) (p : PartId) :
    (s.windowMessages p).boot = s.boot ∧ (s.windowMessages p).board = s.board ∧ (s.windowMessages p).clocks = s.clocks ∧
    (s.windowMessages p).host = s.host ∧ (s.windowMessages p).pf = s.pf ∧ (s.windowMessages p).tiles = s.tiles ∧
    (s.windowMessages p).jewel = s.jewel ∧ (s.windowMessages p).hatband = s.hatband ∧ (s.windowMessages p).engines = s.engines ∧
    (s.windowMessages p).pending = s.pending := by
  unfold State.windowMessages
  try dsimp only
  repeat' (first | split | simp)

theorem execJewelWindow_frame (s : State) :
    ∃ u, execJewelWindow s = .next u ∧ u.clocks = s.clocks ∧ u.hatband = s.hatband ∧ u.engines = s.engines ∧ u.pending = s.pending ∧
    u.boot.flash = s.boot.flash ∧ u.boot.seed = s.boot.seed ∧ u.boot.dpk = s.boot.dpk := by
  unfold execJewelWindow
  try dsimp only
  repeat' (first | split | simp)

theorem execJewelWatchdogExpiry_frame (s : State) :
    ∃ u, execJewelWatchdogExpiry s = .next u ∧ u.free = s.free ∧ u.pending = s.pending ∧ u.boot.flash = s.boot.flash ∧
    u.boot.fuses = s.boot.fuses ∧ u.boot.seed = s.boot.seed ∧ u.boot.dpk = s.boot.dpk := by
  unfold execJewelWatchdogExpiry
  try dsimp only
  repeat' (first | split | simp)

theorem execJobOpen_frame (p : PartId) (obj : Option Bytes) (sigOk : Bool) (s : State) :
    ∃ u, execJobOpen p obj sigOk s = .next u ∧ u.boot = s.boot ∧ u.board = s.board ∧ u.clocks = s.clocks ∧ u.host = s.host ∧
    u.jewel = s.jewel ∧ u.ports = s.ports ∧ u.hatband = s.hatband ∧ u.engines = s.engines ∧ u.pending = s.pending := by
  unfold execJobOpen
  try dsimp only
  repeat' (first | split | simp)

theorem execJobClose_frame (p : PartId) (s : State) :
    ∃ u, execJobClose p s = .next u ∧ u.boot = s.boot ∧ u.board = s.board ∧ u.clocks = s.clocks ∧ u.host = s.host ∧
    u.hatband = s.hatband ∧ u.engines = s.engines ∧ u.pending = s.pending := by
  unfold execJobClose
  try dsimp only
  repeat' (first | split | simp)

theorem execKeyRelease_frame (p : PartId) (obj : Option Bytes) (sigOk : Bool) (kem : Option Bytes) (s : State) :
    ∃ u, execKeyRelease p obj sigOk kem s = .next u ∧ u.boot = s.boot ∧ u.board = s.board ∧ u.clocks = s.clocks ∧ u.host = s.host ∧
    u.tiles = s.tiles ∧ u.jewel = s.jewel ∧ u.ports = s.ports ∧ u.hatband = s.hatband ∧ u.engines = s.engines ∧
    u.pending = s.pending := by
  unfold execKeyRelease
  try dsimp only
  repeat' (first | split | simp)

theorem execAttest_frame (f : Fn) (nonce : Option Bytes) (s : State) :
    ∃ u, execAttest f nonce s = .next u ∧ u.boot = s.boot ∧ u.board = s.board ∧ u.clocks = s.clocks ∧ u.host = s.host ∧
    u.tiles = s.tiles ∧ u.jewel = s.jewel ∧ u.ports = s.ports ∧ u.hatband = s.hatband ∧ u.engines = s.engines ∧
    u.pending = s.pending := by
  unfold execAttest
  try dsimp only
  repeat' (first | split | simp)

theorem execLoadProgram_frame (p : PartId) (obj : Option Bytes) (s : State) :
    ∃ u, execLoadProgram p obj s = .next u ∧ u.boot = s.boot ∧ u.board = s.board ∧ u.clocks = s.clocks ∧ u.host = s.host ∧
    u.ports = s.ports ∧ u.hatband = s.hatband ∧ u.engines = s.engines ∧ u.free = s.free ∧ u.pending = s.pending := by
  unfold execLoadProgram
  try dsimp only
  repeat' (first | split | simp)

theorem execRun_frame (p : PartId) (s : State) :
    ∃ u, execRun p s = .next u ∧ u.boot = s.boot ∧ u.board = s.board ∧ u.clocks = s.clocks ∧ u.host = s.host ∧ u.ports = s.ports ∧
    u.hatband = s.hatband ∧ u.engines = s.engines ∧ u.free = s.free ∧ u.pending = s.pending := by
  unfold execRun
  try dsimp only
  repeat' (first | split | simp)

theorem execCopyIn_frame (p : PartId) (s : State) :
    ∃ u, execCopyIn p s = .next u ∧ u.boot = s.boot ∧ u.board = s.board ∧ u.clocks = s.clocks ∧ u.ports = s.ports ∧
    u.hatband = s.hatband ∧ u.engines = s.engines ∧ u.free = s.free ∧ u.pending = s.pending := by
  unfold execCopyIn
  try dsimp only
  repeat' (first | split | simp)

theorem execCopyOut_frame (p : PartId) (s : State) :
    ∃ u, execCopyOut p s = .next u ∧ u.boot = s.boot ∧ u.board = s.board ∧ u.clocks = s.clocks ∧ u.host = s.host ∧
    u.ports = s.ports ∧ u.hatband = s.hatband ∧ u.engines = s.engines ∧ u.free = s.free ∧ u.pending = s.pending := by
  unfold execCopyOut
  try dsimp only
  repeat' (first | split | simp)

theorem execBind_frame (p : PartId) (s : State) :
    ∃ u, execBind p s = .next u ∧ u.boot = s.boot ∧ u.board = s.board ∧ u.clocks = s.clocks ∧ u.host = s.host ∧ u.ports = s.ports ∧
    u.hatband = s.hatband ∧ u.engines = s.engines ∧ u.free = s.free ∧ u.pending = s.pending := by
  unfold execBind
  try dsimp only
  repeat' (first | split | simp)

theorem execSidCeilingRaise_frame (p : PartId) (s : State) :
    ∃ u, execSidCeilingRaise p s = .next u ∧ u.boot = s.boot ∧ u.board = s.board ∧ u.clocks = s.clocks ∧ u.host = s.host ∧
    u.pf = s.pf ∧ u.tiles = s.tiles ∧ u.jewel = s.jewel ∧ u.hatband = s.hatband ∧ u.engines = s.engines ∧ u.free = s.free ∧
    u.pending = s.pending := by
  unfold execSidCeilingRaise
  try dsimp only
  repeat' (first | split | simp)

theorem execUnbind_frame (p : PartId) (s : State) :
    ∃ u, execUnbind p s = .next u ∧ u.boot = s.boot ∧ u.board = s.board ∧ u.clocks = s.clocks ∧ u.host = s.host ∧
    u.ports = s.ports ∧ u.hatband = s.hatband ∧ u.engines = s.engines ∧ u.free = s.free ∧ u.pending = s.pending := by
  unfold execUnbind
  try dsimp only
  repeat' (first | split | simp)

@[simp] theorem State.modJob_frame (s : State) (p : PartId) (f : Job → Job) :
    (s.modJob p f).boot = s.boot ∧ (s.modJob p f).board = s.board ∧ (s.modJob p f).clocks = s.clocks ∧
    (s.modJob p f).host = s.host ∧ (s.modJob p f).pf = s.pf ∧ (s.modJob p f).tiles = s.tiles ∧ (s.modJob p f).jewel = s.jewel ∧
    (s.modJob p f).ports = s.ports ∧ (s.modJob p f).hatband = s.hatband ∧ (s.modJob p f).engines = s.engines ∧
    (s.modJob p f).free = s.free ∧ (s.modJob p f).pending = s.pending := by
  unfold State.modJob
  try dsimp only
  repeat' (first | split | simp)

@[simp] theorem State.modMember_frame (s : State) (p : PartId) (src : Nat) (f : MemberRec → MemberRec) :
    (s.modMember p src f).boot = s.boot ∧ (s.modMember p src f).board = s.board ∧ (s.modMember p src f).clocks = s.clocks ∧
    (s.modMember p src f).host = s.host ∧ (s.modMember p src f).pf = s.pf ∧ (s.modMember p src f).tiles = s.tiles ∧
    (s.modMember p src f).jewel = s.jewel ∧ (s.modMember p src f).ports = s.ports ∧ (s.modMember p src f).hatband = s.hatband ∧
    (s.modMember p src f).engines = s.engines ∧ (s.modMember p src f).free = s.free ∧ (s.modMember p src f).pending = s.pending := by
  unfold State.modMember
  try dsimp only
  repeat' (first | split | simp)

@[simp] theorem State.sendKeyset_frame (s : State) (p : PartId) (m : MemberRec) (nonce : Bytes) (r : Bytes) :
    (s.sendKeyset p m nonce r).boot = s.boot ∧ (s.sendKeyset p m nonce r).board = s.board ∧
    (s.sendKeyset p m nonce r).clocks = s.clocks ∧ (s.sendKeyset p m nonce r).host = s.host ∧ (s.sendKeyset p m nonce r).pf = s.pf ∧
    (s.sendKeyset p m nonce r).tiles = s.tiles ∧ (s.sendKeyset p m nonce r).jewel = s.jewel ∧
    (s.sendKeyset p m nonce r).hatband = s.hatband ∧ (s.sendKeyset p m nonce r).engines = s.engines ∧
    (s.sendKeyset p m nonce r).pending = s.pending := by
  unfold State.sendKeyset
  try dsimp only
  repeat' (first | split | simp)

@[simp] theorem State.judgeReport_frame (s : State) (p : PartId) (src : Nat) (r : Bytes) (authOk : Bool) :
    (s.judgeReport p src r authOk).boot = s.boot ∧ (s.judgeReport p src r authOk).board = s.board ∧
    (s.judgeReport p src r authOk).clocks = s.clocks ∧ (s.judgeReport p src r authOk).host = s.host ∧
    (s.judgeReport p src r authOk).hatband = s.hatband ∧ (s.judgeReport p src r authOk).engines = s.engines ∧
    (s.judgeReport p src r authOk).pending = s.pending := by
  unfold State.judgeReport
  try dsimp only
  repeat' (first | split | simp)

theorem execOpened_frame (p : PartId) (s : State) :
    ∃ u, execOpened p s = .next u ∧ u.boot = s.boot ∧ u.board = s.board ∧ u.clocks = s.clocks ∧ u.host = s.host ∧ u.pf = s.pf ∧
    u.tiles = s.tiles ∧ u.jewel = s.jewel ∧ u.ports = s.ports ∧ u.hatband = s.hatband ∧ u.engines = s.engines ∧ u.free = s.free ∧
    u.pending = s.pending := by
  unfold execOpened
  try dsimp only
  split
  all_goals first
    | (rename_i h
       have k := State.takeInbox2_frame _ _ _ _ h
       dsimp only at k
       repeat' (first | split | simp [k]))
    | simp

theorem execChallenge_frame (p : PartId) (s : State) :
    ∃ u, execChallenge p s = .next u ∧ u.boot = s.boot ∧ u.board = s.board ∧ u.clocks = s.clocks ∧ u.host = s.host ∧ u.pf = s.pf ∧
    u.tiles = s.tiles ∧ u.jewel = s.jewel ∧ u.ports = s.ports ∧ u.hatband = s.hatband ∧ u.engines = s.engines ∧ u.free = s.free ∧
    u.pending = s.pending := by
  unfold execChallenge
  try dsimp only
  split
  all_goals first
    | (rename_i h
       have k := State.takeInbox2_frame _ _ _ _ h
       dsimp only at k
       repeat' (first | split | simp [k]))
    | simp

theorem execMemberReport_frame (p : PartId) (authOk : Bool) (s : State) :
    ∃ u, execMemberReport p authOk s = .next u ∧ u.boot = s.boot ∧ u.board = s.board ∧ u.clocks = s.clocks ∧ u.host = s.host ∧
    u.hatband = s.hatband ∧ u.engines = s.engines ∧ u.pending = s.pending := by
  unfold execMemberReport
  try dsimp only
  split
  all_goals first
    | (rename_i h
       have k := State.takeInbox2_frame _ _ _ _ h
       dsimp only at k
       repeat' (first | split | simp [k]))
    | simp

theorem execKeyset_frame (p : PartId) (kem : Option Bytes) (s : State) :
    ∃ u, execKeyset p kem s = .next u ∧ u.boot = s.boot ∧ u.board = s.board ∧ u.clocks = s.clocks ∧ u.host = s.host ∧ u.pf = s.pf ∧
    u.tiles = s.tiles ∧ u.jewel = s.jewel ∧ u.ports = s.ports ∧ u.hatband = s.hatband ∧ u.engines = s.engines ∧ u.free = s.free ∧
    u.pending = s.pending := by
  unfold execKeyset
  try dsimp only
  split
  all_goals first
    | (rename_i h
       have k := State.takeInbox2_frame _ _ _ _ h
       dsimp only at k
       repeat' (first | split | simp [k]))
    | simp

theorem execJoined_frame (p : PartId) (s : State) :
    ∃ u, execJoined p s = .next u ∧ u.boot = s.boot ∧ u.board = s.board ∧ u.clocks = s.clocks ∧ u.host = s.host ∧ u.pf = s.pf ∧
    u.tiles = s.tiles ∧ u.jewel = s.jewel ∧ u.ports = s.ports ∧ u.hatband = s.hatband ∧ u.engines = s.engines ∧ u.free = s.free ∧
    u.pending = s.pending := by
  unfold execJoined
  try dsimp only
  split
  all_goals first
    | (rename_i h
       have k := State.takeInbox2_frame _ _ _ _ h
       dsimp only at k
       repeat' (first | split | simp [k]))
    | simp

theorem execEraRaise_frame (p : PartId) (s : State) :
    ∃ u, execEraRaise p s = .next u ∧ u.boot = s.boot ∧ u.board = s.board ∧ u.clocks = s.clocks ∧ u.host = s.host ∧ u.pf = s.pf ∧
    u.tiles = s.tiles ∧ u.jewel = s.jewel ∧ u.hatband = s.hatband ∧ u.engines = s.engines ∧ u.free = s.free ∧ u.pending = s.pending := by
  unfold execEraRaise
  try dsimp only
  repeat' (first | split | simp)

theorem execEraCeilingReceive_frame (p : PartId) (s : State) :
    ∃ u, execEraCeilingReceive p s = .next u ∧ u.boot = s.boot ∧ u.board = s.board ∧ u.clocks = s.clocks ∧ u.host = s.host ∧
    u.pf = s.pf ∧ u.tiles = s.tiles ∧ u.jewel = s.jewel ∧ u.hatband = s.hatband ∧ u.engines = s.engines ∧ u.free = s.free ∧
    u.pending = s.pending := by
  unfold execEraCeilingReceive
  try dsimp only
  split
  all_goals first
    | (rename_i h
       have k := State.takeInbox2_frame _ _ _ _ h
       dsimp only at k
       repeat' (first | split | simp [k]))
    | simp

theorem execEraAck_frame (p : PartId) (s : State) :
    ∃ u, execEraAck p s = .next u ∧ u.boot = s.boot ∧ u.board = s.board ∧ u.clocks = s.clocks ∧ u.host = s.host ∧ u.pf = s.pf ∧
    u.tiles = s.tiles ∧ u.jewel = s.jewel ∧ u.ports = s.ports ∧ u.hatband = s.hatband ∧ u.engines = s.engines ∧ u.free = s.free ∧
    u.pending = s.pending := by
  unfold execEraAck
  try dsimp only
  split
  all_goals first
    | (rename_i h
       have k := State.takeInbox2_frame _ _ _ _ h
       dsimp only at k
       repeat' (first | split | simp [k]))
    | simp

theorem execSidCeilingReceive_frame (p : PartId) (s : State) :
    ∃ u, execSidCeilingReceive p s = .next u ∧ u.boot = s.boot ∧ u.board = s.board ∧ u.clocks = s.clocks ∧ u.host = s.host ∧
    u.pf = s.pf ∧ u.tiles = s.tiles ∧ u.jewel = s.jewel ∧ u.hatband = s.hatband ∧ u.engines = s.engines ∧ u.free = s.free ∧
    u.pending = s.pending := by
  unfold execSidCeilingReceive
  try dsimp only
  split
  all_goals first
    | (rename_i h
       have k := State.takeInbox2_frame _ _ _ _ h
       dsimp only at k
       repeat' (first | split | simp [k]))
    | simp

theorem execSidCeilingAck_frame (p : PartId) (s : State) :
    ∃ u, execSidCeilingAck p s = .next u ∧ u.boot = s.boot ∧ u.board = s.board ∧ u.clocks = s.clocks ∧ u.host = s.host ∧
    u.pf = s.pf ∧ u.tiles = s.tiles ∧ u.jewel = s.jewel ∧ u.ports = s.ports ∧ u.hatband = s.hatband ∧ u.engines = s.engines ∧
    u.free = s.free ∧ u.pending = s.pending := by
  unfold execSidCeilingAck
  try dsimp only
  split
  all_goals first
    | (rename_i h
       have k := State.takeInbox2_frame _ _ _ _ h
       dsimp only at k
       repeat' (first | split | simp [k]))
    | simp

end Sys2Proof.Machine
end

