-- ==== Sys2Proof/Laws/FrameSealRows.lean ====
section
/-! SUPPORT. What each function over State leaves as it was, and that each command answers a next state: the commands of the seal. -/

namespace Sys2Proof.Machine

@[simp] theorem State.served_frame (s : State) (t : TileId) (r : SealReq) (g : GranuleOut) :
    (s.served t r g).pending = s.pending ∧ (s.served t r g).boot.flash = s.boot.flash ∧ (s.served t r g).boot.fuses = s.boot.fuses ∧
    (s.served t r g).boot.seed = s.boot.seed ∧ (s.served t r g).boot.dpk = s.boot.dpk := by
  unfold State.served
  try dsimp only
  repeat' (first | split | simp)

@[simp] theorem State.dropReq_frame (s : State) (t : TileId) (i : Nat) :
    (s.dropReq t i).boot = s.boot ∧ (s.dropReq t i).board = s.board ∧ (s.dropReq t i).clocks = s.clocks ∧
    (s.dropReq t i).host = s.host ∧ (s.dropReq t i).parts = s.parts ∧ (s.dropReq t i).pf = s.pf ∧ (s.dropReq t i).jewel = s.jewel ∧
    (s.dropReq t i).ports = s.ports ∧ (s.dropReq t i).hatband = s.hatband ∧ (s.dropReq t i).engines = s.engines ∧
    (s.dropReq t i).free = s.free ∧ (s.dropReq t i).pending = s.pending := by
  unfold State.dropReq
  try dsimp only
  repeat' (first | split | simp)

@[simp] theorem State.startSkip_frame (s : State) (t : TileId) (r : SealReq) (data : Bytes) :
    (s.startSkip t r data).pending = s.pending ∧ (s.startSkip t r data).boot.flash = s.boot.flash ∧
    (s.startSkip t r data).boot.fuses = s.boot.fuses ∧ (s.startSkip t r data).boot.seed = s.boot.seed ∧
    (s.startSkip t r data).boot.dpk = s.boot.dpk := by
  unfold State.startSkip
  try dsimp only
  repeat' (first | split | simp)

@[simp] theorem State.skipWrite_frame (s : State) (t : TileId) (r : SealReq) (data : Bytes) :
    (s.skipWrite t r data).boot = s.boot ∧ (s.skipWrite t r data).board = s.board ∧ (s.skipWrite t r data).clocks = s.clocks ∧
    (s.skipWrite t r data).host = s.host ∧ (s.skipWrite t r data).parts = s.parts ∧ (s.skipWrite t r data).pf = s.pf ∧
    (s.skipWrite t r data).jewel = s.jewel ∧ (s.skipWrite t r data).ports = s.ports ∧ (s.skipWrite t r data).hatband = s.hatband ∧
    (s.skipWrite t r data).engines = s.engines ∧ (s.skipWrite t r data).free = s.free ∧ (s.skipWrite t r data).pending = s.pending := by
  unfold State.skipWrite
  try dsimp only
  repeat' (first | split | simp)

@[simp] theorem State.writeReq_frame (s : State) (t : TileId) (r : SealReq) (data : Bytes) (lines : List LineIn) :
    (s.writeReq t r data lines).pending = s.pending ∧ (s.writeReq t r data lines).boot.flash = s.boot.flash ∧
    (s.writeReq t r data lines).boot.fuses = s.boot.fuses ∧ (s.writeReq t r data lines).boot.seed = s.boot.seed ∧
    (s.writeReq t r data lines).boot.dpk = s.boot.dpk := by
  unfold State.writeReq
  try dsimp only
  repeat' (first | split | simp)

@[simp] theorem State.writeRefused_frame (s : State) (t : TileId) (r : SealReq) :
    (s.writeRefused t r).boot = s.boot ∧ (s.writeRefused t r).board = s.board ∧ (s.writeRefused t r).clocks = s.clocks ∧
    (s.writeRefused t r).host = s.host ∧ (s.writeRefused t r).tiles = s.tiles ∧ (s.writeRefused t r).jewel = s.jewel ∧
    (s.writeRefused t r).ports = s.ports ∧ (s.writeRefused t r).hatband = s.hatband ∧ (s.writeRefused t r).engines = s.engines ∧
    (s.writeRefused t r).free = s.free ∧ (s.writeRefused t r).pending = s.pending := by
  unfold State.writeRefused
  try dsimp only
  repeat' (first | split | simp)

@[simp] theorem State.writeServed_frame (s : State) (t : TileId) (r : SealReq) :
    (s.writeServed t r).boot = s.boot ∧ (s.writeServed t r).board = s.board ∧ (s.writeServed t r).clocks = s.clocks ∧
    (s.writeServed t r).host = s.host ∧ (s.writeServed t r).ports = s.ports ∧ (s.writeServed t r).hatband = s.hatband ∧
    (s.writeServed t r).engines = s.engines ∧ (s.writeServed t r).free = s.free ∧ (s.writeServed t r).pending = s.pending := by
  unfold State.writeServed
  try dsimp only
  repeat' (first | split | simp)

@[simp] theorem State.doWrite_frame (s : State) (t : TileId) (i : Nat) (r : SealReq) (data : Bytes) (lines : List LineIn) :
    (s.doWrite t i r data lines).pending = s.pending ∧ (s.doWrite t i r data lines).boot.flash = s.boot.flash ∧
    (s.doWrite t i r data lines).boot.fuses = s.boot.fuses ∧ (s.doWrite t i r data lines).boot.seed = s.boot.seed ∧
    (s.doWrite t i r data lines).boot.dpk = s.boot.dpk := by
  unfold State.doWrite
  try dsimp only
  repeat' (first | split | simp)

@[simp] theorem State.doRead_frame (s : State) (t : TileId) (i : Nat) (r : SealReq) (lines : List LineIn) :
    (s.doRead t i r lines).pending = s.pending ∧ (s.doRead t i r lines).boot.flash = s.boot.flash ∧
    (s.doRead t i r lines).boot.fuses = s.boot.fuses ∧ (s.doRead t i r lines).boot.seed = s.boot.seed ∧
    (s.doRead t i r lines).boot.dpk = s.boot.dpk := by
  unfold State.doRead
  try dsimp only
  repeat' (first | split | simp)

@[simp] theorem State.rewriteNode_frame (s : State) (t : TileId) (k : Nat) (line : Nat) (c : CLine) :
    (s.rewriteNode t k line c).boot = s.boot ∧ (s.rewriteNode t k line c).board = s.board ∧
    (s.rewriteNode t k line c).clocks = s.clocks ∧ (s.rewriteNode t k line c).host = s.host ∧
    (s.rewriteNode t k line c).parts = s.parts ∧ (s.rewriteNode t k line c).pf = s.pf ∧ (s.rewriteNode t k line c).jewel = s.jewel ∧
    (s.rewriteNode t k line c).ports = s.ports ∧ (s.rewriteNode t k line c).hatband = s.hatband ∧
    (s.rewriteNode t k line c).engines = s.engines ∧ (s.rewriteNode t k line c).free = s.free ∧
    (s.rewriteNode t k line c).pending = s.pending := by
  unfold State.rewriteNode
  try dsimp only
  repeat' (first | split | simp)

@[simp] theorem State.rewriteCached_frame (s : State) (t : TileId) (m : MetaId) :
    (s.rewriteCached t m).pending = s.pending ∧ (s.rewriteCached t m).boot.flash = s.boot.flash ∧
    (s.rewriteCached t m).boot.fuses = s.boot.fuses ∧ (s.rewriteCached t m).boot.seed = s.boot.seed ∧
    (s.rewriteCached t m).boot.dpk = s.boot.dpk := by
  unfold State.rewriteCached
  split
  · refine ⟨State.holding_pending _ _ _ _ ?_, State.holding_boot_flash _ _ _ _ ?_, State.holding_boot_fuses _ _ _ _ ?_,
      State.holding_boot_seed _ _ _ _ ?_, State.holding_boot_dpk _ _ _ _ ?_⟩ <;> (intro u; dsimp only; split <;> simp)
  · split <;> simp

@[simp] theorem State.patrolData_frame (s : State) (t : TileId) (g : Nat) (key : Nat) :
    (s.patrolData t g key).pending = s.pending ∧ (s.patrolData t g key).boot.flash = s.boot.flash ∧
    (s.patrolData t g key).boot.fuses = s.boot.fuses ∧ (s.patrolData t g key).boot.seed = s.boot.seed ∧
    (s.patrolData t g key).boot.dpk = s.boot.dpk := by
  unfold State.patrolData
  try dsimp only
  repeat' (first | split | simp)

@[simp] theorem State.patrolTag_frame (s : State) (t : TileId) (k : ChanId) (g : Nat) (inp : LineIn) :
    (s.patrolTag t k g inp).pending = s.pending ∧ (s.patrolTag t k g inp).boot.flash = s.boot.flash ∧
    (s.patrolTag t k g inp).boot.fuses = s.boot.fuses ∧ (s.patrolTag t k g inp).boot.seed = s.boot.seed ∧
    (s.patrolTag t k g inp).boot.dpk = s.boot.dpk := by
  unfold State.patrolTag
  try dsimp only
  repeat' (first | split | simp)

@[simp] theorem State.patrolLeaf_frame (s : State) (t : TileId) (k : ChanId) (l : Nat) (key : Nat) (inp : LineIn) :
    (s.patrolLeaf t k l key inp).pending = s.pending ∧ (s.patrolLeaf t k l key inp).boot.flash = s.boot.flash ∧
    (s.patrolLeaf t k l key inp).boot.fuses = s.boot.fuses ∧ (s.patrolLeaf t k l key inp).boot.seed = s.boot.seed ∧
    (s.patrolLeaf t k l key inp).boot.dpk = s.boot.dpk := by
  unfold State.patrolLeaf
  try dsimp only
  repeat' (first | split | simp)

@[simp] theorem State.patrolLeafTag_frame (s : State) (t : TileId) (k : ChanId) (l : Nat) (n : Nat) (inp : LineIn) :
    (s.patrolLeafTag t k l n inp).pending = s.pending ∧ (s.patrolLeafTag t k l n inp).boot.flash = s.boot.flash ∧
    (s.patrolLeafTag t k l n inp).boot.fuses = s.boot.fuses ∧ (s.patrolLeafTag t k l n inp).boot.seed = s.boot.seed ∧
    (s.patrolLeafTag t k l n inp).boot.dpk = s.boot.dpk := by
  unfold State.patrolLeafTag
  try dsimp only
  repeat' (first | split | simp)

@[simp] theorem State.patrolNode_frame (s : State) (t : TileId) (k : ChanId) (line : Nat) (n : Nat × Nat) (key : Nat) :
    (s.patrolNode t k line n key).pending = s.pending ∧ (s.patrolNode t k line n key).boot.flash = s.boot.flash ∧
    (s.patrolNode t k line n key).boot.fuses = s.boot.fuses ∧ (s.patrolNode t k line n key).boot.seed = s.boot.seed ∧
    (s.patrolNode t k line n key).boot.dpk = s.boot.dpk := by
  unfold State.patrolNode
  try dsimp only
  repeat' (first | split | simp)

@[simp] theorem State.patrolFail_frame (s : State) (t : TileId) (k : ChanId) (line : Nat) (inp : LineIn) :
    (s.patrolFail t k line inp).pending = s.pending ∧ (s.patrolFail t k line inp).boot.flash = s.boot.flash ∧
    (s.patrolFail t k line inp).boot.fuses = s.boot.fuses ∧ (s.patrolFail t k line inp).boot.seed = s.boot.seed ∧
    (s.patrolFail t k line inp).boot.dpk = s.boot.dpk := by
  unfold State.patrolFail
  split
  · exact ⟨rfl, rfl, rfl, rfl, rfl⟩
  · split
    · exact State.patrolData_frame _ _ _ _
    · split
      · exact State.patrolTag_frame _ _ _ _ _
      · split
        · exact State.patrolLeaf_frame _ _ _ _ _ _
        · split
          · exact State.patrolLeafTag_frame _ _ _ _ _ _
          · split
            · exact ⟨rfl, rfl, rfl, rfl, rfl⟩
            · exact State.patrolNode_frame _ _ _ _ _ _

theorem execSealGranuleRead_frame (t : TileId) (i : Nat) (lines : List LineIn) (s : State) :
    ∃ u, execSealGranuleRead t i lines s = .next u ∧ u.pending = s.pending ∧ u.boot.flash = s.boot.flash ∧
    u.boot.fuses = s.boot.fuses ∧ u.boot.seed = s.boot.seed ∧ u.boot.dpk = s.boot.dpk := by
  unfold execSealGranuleRead
  try dsimp only
  repeat' (first | split | simp)

theorem execCounterMissFill_frame (t : TileId) (i : Nat) (lines : List LineIn) (mirrors : List LineIn) (s : State) :
    ∃ u, execCounterMissFill t i lines mirrors s = .next u ∧ u.pending = s.pending ∧ u.boot.flash = s.boot.flash ∧
    u.boot.fuses = s.boot.fuses ∧ u.boot.seed = s.boot.seed ∧ u.boot.dpk = s.boot.dpk := by
  unfold execCounterMissFill
  try dsimp only
  repeat' (first | split | simp)

theorem execSealGranuleWrite_frame (t : TileId) (i : Nat) (lines : List LineIn) (s : State) :
    ∃ u, execSealGranuleWrite t i lines s = .next u ∧ u.pending = s.pending ∧ u.boot.flash = s.boot.flash ∧
    u.boot.fuses = s.boot.fuses ∧ u.boot.seed = s.boot.seed ∧ u.boot.dpk = s.boot.dpk := by
  unfold execSealGranuleWrite
  try dsimp only
  repeat' (first | split | simp)

theorem execHeldGranuleWrite_frame (t : TileId) (s : State) :
    ∃ u, execHeldGranuleWrite t s = .next u ∧ u.boot = s.boot ∧ u.board = s.board ∧ u.clocks = s.clocks ∧ u.host = s.host ∧
    u.parts = s.parts ∧ u.pf = s.pf ∧ u.jewel = s.jewel ∧ u.ports = s.ports ∧ u.hatband = s.hatband ∧ u.engines = s.engines ∧
    u.free = s.free ∧ u.pending = s.pending := by
  unfold execHeldGranuleWrite
  try dsimp only
  repeat' (first | split | simp)

theorem execRootUpdate_frame (t : TileId) (s : State) :
    ∃ u, execRootUpdate t s = .next u ∧ u.boot = s.boot ∧ u.board = s.board ∧ u.clocks = s.clocks ∧ u.host = s.host ∧
    u.parts = s.parts ∧ u.pf = s.pf ∧ u.ports = s.ports ∧ u.hatband = s.hatband ∧ u.engines = s.engines ∧ u.free = s.free ∧
    u.pending = s.pending := by
  unfold execRootUpdate
  try dsimp only
  repeat' (first | split | simp)

theorem execPatrolRead_frame (t : TileId) (k : ChanId) (line : LineIn) (s : State) :
    ∃ u, execPatrolRead t k line s = .next u ∧ u.pending = s.pending ∧ u.boot.flash = s.boot.flash ∧ u.boot.fuses = s.boot.fuses ∧
    u.boot.seed = s.boot.seed ∧ u.boot.dpk = s.boot.dpk := by
  unfold execPatrolRead
  try dsimp only
  repeat' (first | split | simp)

theorem execRefresh_frame (t : TileId) (k : ChanId) (s : State) :
    ∃ u, execRefresh t k s = .next u ∧ u.boot = s.boot ∧ u.board = s.board ∧ u.clocks = s.clocks ∧ u.host = s.host ∧
    u.parts = s.parts ∧ u.pf = s.pf ∧ u.jewel = s.jewel ∧ u.ports = s.ports ∧ u.hatband = s.hatband ∧ u.engines = s.engines ∧
    u.free = s.free ∧ u.pending = s.pending := by
  unfold execRefresh
  try dsimp only
  repeat' (first | split | simp)

theorem execRootScrub_frame (flips : BitVec 64) (s : State) :
    ∃ u, execRootScrub flips s = .next u ∧ u.pending = s.pending ∧ u.boot.flash = s.boot.flash ∧ u.boot.fuses = s.boot.fuses ∧
    u.boot.seed = s.boot.seed ∧ u.boot.dpk = s.boot.dpk := by
  unfold execRootScrub
  try dsimp only
  repeat' (first | split | simp)

end Sys2Proof.Machine
end

