-- ==== Sys2Proof/Laws/FrameResets.lean ====
section
/-! SUPPORT. What each function over State leaves as it was, and that each command answers a next state: resets and pouncing. -/

namespace Sys2Proof.Machine

@[simp] theorem State.rewindWindow_frame (s : State) (f : Fn) :
    (s.rewindWindow f).boot = s.boot ∧ (s.rewindWindow f).board = s.board ∧ (s.rewindWindow f).clocks = s.clocks ∧
    (s.rewindWindow f).host = s.host ∧ (s.rewindWindow f).tiles = s.tiles ∧ (s.rewindWindow f).jewel = s.jewel ∧
    (s.rewindWindow f).ports = s.ports ∧ (s.rewindWindow f).hatband = s.hatband ∧ (s.rewindWindow f).engines = s.engines ∧
    (s.rewindWindow f).free = s.free ∧ (s.rewindWindow f).pending = s.pending := by
  unfold State.rewindWindow
  try dsimp only
  repeat' (first | split | simp)

@[simp] theorem State.rewindStreams_frame (s : State) (p : PartId) :
    (s.rewindStreams p).boot = s.boot ∧ (s.rewindStreams p).board = s.board ∧ (s.rewindStreams p).clocks = s.clocks ∧
    (s.rewindStreams p).host = s.host ∧ (s.rewindStreams p).pf = s.pf ∧ (s.rewindStreams p).tiles = s.tiles ∧
    (s.rewindStreams p).jewel = s.jewel ∧ (s.rewindStreams p).ports = s.ports ∧ (s.rewindStreams p).hatband = s.hatband ∧
    (s.rewindStreams p).engines = s.engines ∧ (s.rewindStreams p).free = s.free ∧ (s.rewindStreams p).pending = s.pending := by
  unfold State.rewindStreams
  try dsimp only
  repeat' (first | split | simp)

@[simp] theorem State.stopPartition_frame (s : State) (p : PartId) :
    (s.stopPartition p).boot = s.boot ∧ (s.stopPartition p).board = s.board ∧ (s.stopPartition p).clocks = s.clocks ∧
    (s.stopPartition p).host = s.host ∧ (s.stopPartition p).jewel = s.jewel ∧ (s.stopPartition p).hatband = s.hatband ∧
    (s.stopPartition p).engines = s.engines ∧ (s.stopPartition p).free = s.free ∧ (s.stopPartition p).pending = s.pending := by
  unfold State.stopPartition
  try dsimp only
  repeat' (first | split | simp)

@[simp] theorem State.finishWrite_frame (s : State) (t : TileId) (r : SealReq) :
    (s.finishWrite t r).pending = s.pending ∧ (s.finishWrite t r).boot.flash = s.boot.flash ∧
    (s.finishWrite t r).boot.fuses = s.boot.fuses ∧ (s.finishWrite t r).boot.seed = s.boot.seed ∧
    (s.finishWrite t r).boot.dpk = s.boot.dpk := by
  unfold State.finishWrite
  try dsimp only
  repeat' (first | split | simp)

@[simp] theorem State.finishWrites_frame (s : State) (t : TileId) :
    (s.finishWrites t).pending = s.pending ∧ (s.finishWrites t).boot.flash = s.boot.flash ∧
    (s.finishWrites t).boot.fuses = s.boot.fuses ∧ (s.finishWrites t).boot.seed = s.boot.seed ∧
    (s.finishWrites t).boot.dpk = s.boot.dpk := by
  unfold State.finishWrites
  try dsimp only
  repeat' (first | split | simp)

@[simp] theorem State.flushAt_frame (s : State) (t : TileId) (rank : Nat) :
    (s.flushAt t rank).boot = s.boot ∧ (s.flushAt t rank).board = s.board ∧ (s.flushAt t rank).clocks = s.clocks ∧
    (s.flushAt t rank).host = s.host ∧ (s.flushAt t rank).parts = s.parts ∧ (s.flushAt t rank).pf = s.pf ∧
    (s.flushAt t rank).jewel = s.jewel ∧ (s.flushAt t rank).ports = s.ports ∧ (s.flushAt t rank).hatband = s.hatband ∧
    (s.flushAt t rank).engines = s.engines ∧ (s.flushAt t rank).free = s.free ∧ (s.flushAt t rank).pending = s.pending := by
  unfold State.flushAt
  try dsimp only
  repeat' (first | split | simp)

@[simp] theorem State.flushTile_frame (s : State) (t : TileId) :
    (s.flushTile t).pending = s.pending ∧ (s.flushTile t).boot.flash = s.boot.flash ∧ (s.flushTile t).boot.fuses = s.boot.fuses ∧
    (s.flushTile t).boot.seed = s.boot.seed ∧ (s.flushTile t).boot.dpk = s.boot.dpk := by
  unfold State.flushTile
  try dsimp only
  repeat' (first | split | simp)

@[simp] theorem State.clearPartition_frame (s : State) (p : PartId) :
    (s.clearPartition p).boot = s.boot ∧ (s.clearPartition p).board = s.board ∧ (s.clearPartition p).clocks = s.clocks ∧
    (s.clearPartition p).host = s.host ∧ (s.clearPartition p).parts = s.parts ∧ (s.clearPartition p).pf = s.pf ∧
    (s.clearPartition p).jewel = s.jewel ∧ (s.clearPartition p).ports = s.ports ∧ (s.clearPartition p).hatband = s.hatband ∧
    (s.clearPartition p).engines = s.engines ∧ (s.clearPartition p).free = s.free ∧ (s.clearPartition p).pending = s.pending := by
  unfold State.clearPartition
  try dsimp only
  repeat' (first | split | simp)

@[simp] theorem State.clearAtRest_frame (s : State) (p : PartId) :
    (s.clearAtRest p).boot = s.boot ∧ (s.clearAtRest p).board = s.board ∧ (s.clearAtRest p).clocks = s.clocks ∧
    (s.clearAtRest p).host = s.host ∧ (s.clearAtRest p).parts = s.parts ∧ (s.clearAtRest p).pf = s.pf ∧
    (s.clearAtRest p).jewel = s.jewel ∧ (s.clearAtRest p).ports = s.ports ∧ (s.clearAtRest p).hatband = s.hatband ∧
    (s.clearAtRest p).engines = s.engines ∧ (s.clearAtRest p).free = s.free ∧ (s.clearAtRest p).pending = s.pending := by
  unfold State.clearAtRest
  try dsimp only
  repeat' (first | split | simp)

@[simp] theorem State.selfTest_frame (s : State) (p : PartId) (fails : List (TileId × Nat)) :
    (s.selfTest p fails).boot = s.boot ∧ (s.selfTest p fails).board = s.board ∧ (s.selfTest p fails).clocks = s.clocks ∧
    (s.selfTest p fails).host = s.host ∧ (s.selfTest p fails).hatband = s.hatband ∧ (s.selfTest p fails).engines = s.engines ∧
    (s.selfTest p fails).free = s.free ∧ (s.selfTest p fails).pending = s.pending := by
  unfold State.selfTest
  try dsimp only
  repeat' (first | split | simp)

@[simp] theorem State.setReset_frame (s : State) (p : PartId) (ev : Nat) :
    (s.setReset p ev).boot = s.boot ∧ (s.setReset p ev).board = s.board ∧ (s.setReset p ev).clocks = s.clocks ∧
    (s.setReset p ev).host = s.host ∧ (s.setReset p ev).pf = s.pf ∧ (s.setReset p ev).tiles = s.tiles ∧
    (s.setReset p ev).jewel = s.jewel ∧ (s.setReset p ev).ports = s.ports ∧ (s.setReset p ev).hatband = s.hatband ∧
    (s.setReset p ev).engines = s.engines ∧ (s.setReset p ev).free = s.free ∧ (s.setReset p ev).pending = s.pending := by
  unfold State.setReset
  try dsimp only
  repeat' (first | split | simp)

@[simp] theorem State.flrNow_frame (s : State) (p : PartId) :
    (s.flrNow p).boot = s.boot ∧ (s.flrNow p).board = s.board ∧ (s.flrNow p).clocks = s.clocks ∧ (s.flrNow p).host = s.host ∧
    (s.flrNow p).tiles = s.tiles ∧ (s.flrNow p).hatband = s.hatband ∧ (s.flrNow p).engines = s.engines ∧
    (s.flrNow p).free = s.free ∧ (s.flrNow p).pending = s.pending := by
  unfold State.flrNow
  try dsimp only
  repeat' (first | split | simp)

@[simp] theorem State.flr_frame (s : State) (p : PartId) :
    (s.flr p).boot = s.boot ∧ (s.flr p).board = s.board ∧ (s.flr p).clocks = s.clocks ∧ (s.flr p).host = s.host ∧
    (s.flr p).tiles = s.tiles ∧ (s.flr p).hatband = s.hatband ∧ (s.flr p).engines = s.engines ∧ (s.flr p).free = s.free ∧
    (s.flr p).pending = s.pending := by
  unfold State.flr
  try dsimp only
  repeat' (first | split | simp)

@[simp] theorem State.endReset_frame (s : State) (p : PartId) :
    (s.endReset p).boot = s.boot ∧ (s.endReset p).board = s.board ∧ (s.endReset p).clocks = s.clocks ∧
    (s.endReset p).host = s.host ∧ (s.endReset p).hatband = s.hatband ∧ (s.endReset p).engines = s.engines ∧
    (s.endReset p).pending = s.pending := by
  unfold State.endReset
  try dsimp only
  repeat' (first | split | simp)

@[simp] theorem State.verifyLine_frame (s : State) (p : PartId) (r : ReadBack) :
    (s.verifyLine p r).boot = s.boot ∧ (s.verifyLine p r).board = s.board ∧ (s.verifyLine p r).clocks = s.clocks ∧
    (s.verifyLine p r).host = s.host ∧ (s.verifyLine p r).hatband = s.hatband ∧ (s.verifyLine p r).engines = s.engines ∧
    (s.verifyLine p r).free = s.free ∧ (s.verifyLine p r).pending = s.pending := by
  unfold State.verifyLine
  try dsimp only
  repeat' (first | split | simp)

@[simp] theorem State.endPounce_frame (s : State) (p : PartId) :
    (s.endPounce p).boot = s.boot ∧ (s.endPounce p).board = s.board ∧ (s.endPounce p).clocks = s.clocks ∧
    (s.endPounce p).host = s.host ∧ (s.endPounce p).tiles = s.tiles ∧ (s.endPounce p).ports = s.ports ∧
    (s.endPounce p).hatband = s.hatband ∧ (s.endPounce p).engines = s.engines ∧ (s.endPounce p).free = s.free ∧
    (s.endPounce p).pending = s.pending := by
  unfold State.endPounce
  try dsimp only
  repeat' (first | split | simp)

theorem execPartitionReset_frame (p : PartId) (bal : Option (Fin 7)) (s : State) :
    ∃ u, execPartitionReset p bal s = .next u ∧ u.boot = s.boot ∧ u.board = s.board ∧ u.clocks = s.clocks ∧ u.host = s.host ∧
    u.hatband = s.hatband ∧ u.engines = s.engines ∧ u.free = s.free ∧ u.pending = s.pending := by
  unfold execPartitionReset
  try dsimp only
  repeat' (first | split | simp)

theorem execResetFlushDone_frame (p : PartId) (s : State) :
    ∃ u, execResetFlushDone p s = .next u ∧ u.pending = s.pending ∧ u.boot.flash = s.boot.flash ∧ u.boot.fuses = s.boot.fuses ∧
    u.boot.seed = s.boot.seed ∧ u.boot.dpk = s.boot.dpk := by
  unfold execResetFlushDone
  try dsimp only
  repeat' (first | split | simp)

theorem execFlushTimeout_frame (p : PartId) (s : State) :
    ∃ u, execFlushTimeout p s = .next u ∧ u.boot = s.boot ∧ u.board = s.board ∧ u.clocks = s.clocks ∧ u.host = s.host ∧
    u.hatband = s.hatband ∧ u.engines = s.engines ∧ u.free = s.free ∧ u.pending = s.pending := by
  unfold execFlushTimeout
  try dsimp only
  repeat' (first | split | simp)

theorem execSelfTestDone_frame (p : PartId) (fails : List (TileId × Nat)) (s : State) :
    ∃ u, execSelfTestDone p fails s = .next u ∧ u.boot = s.boot ∧ u.board = s.board ∧ u.clocks = s.clocks ∧ u.host = s.host ∧
    u.hatband = s.hatband ∧ u.engines = s.engines ∧ u.free = s.free ∧ u.pending = s.pending := by
  unfold execSelfTestDone
  try dsimp only
  repeat' (first | split | simp)

theorem execRecentreDone_frame (p : PartId) (failed : List (TileId × ChanId)) (s : State) :
    ∃ u, execRecentreDone p failed s = .next u ∧ u.boot = s.boot ∧ u.board = s.board ∧ u.clocks = s.clocks ∧ u.host = s.host ∧
    u.hatband = s.hatband ∧ u.engines = s.engines ∧ u.pending = s.pending := by
  unfold execRecentreDone
  try dsimp only
  repeat' (first | split | simp)

theorem execResetOverrun_frame (p : PartId) (s : State) :
    ∃ u, execResetOverrun p s = .next u ∧ u.boot = s.boot ∧ u.board = s.board ∧ u.clocks = s.clocks ∧ u.host = s.host ∧
    u.hatband = s.hatband ∧ u.engines = s.engines ∧ u.pending = s.pending := by
  unfold execResetOverrun
  try dsimp only
  repeat' (first | split | simp)

theorem execPouncingDone_frame (p : PartId) (reads : List ReadBack) (fails : List (TileId × Nat)) (s : State) :
    ∃ u, execPouncingDone p reads fails s = .next u ∧ u.clocks = s.clocks ∧ u.host = s.host ∧ u.hatband = s.hatband ∧
    u.engines = s.engines ∧ u.pending = s.pending ∧ u.boot.fuses = s.boot.fuses ∧ u.boot.seed = s.boot.seed ∧
    u.boot.dpk = s.boot.dpk := by
  unfold execPouncingDone
  try dsimp only
  repeat' (first | split | simp)

theorem execPouncingOverrun_frame (p : PartId) (s : State) :
    ∃ u, execPouncingOverrun p s = .next u ∧ u.boot = s.boot ∧ u.clocks = s.clocks ∧ u.host = s.host ∧ u.hatband = s.hatband ∧
    u.engines = s.engines ∧ u.free = s.free ∧ u.pending = s.pending := by
  unfold execPouncingOverrun
  try dsimp only
  repeat' (first | split | simp)

theorem execLogEntryWrite_frame (p : Option (Fin 8)) (s : State) :
    ∃ u, execLogEntryWrite p s = .next u ∧ u.boot = s.boot ∧ u.board = s.board ∧ u.clocks = s.clocks ∧ u.host = s.host ∧
    u.pf = s.pf ∧ u.tiles = s.tiles ∧ u.ports = s.ports ∧ u.hatband = s.hatband ∧ u.engines = s.engines ∧ u.free = s.free ∧
    u.pending = s.pending := by
  unfold execLogEntryWrite
  try dsimp only
  repeat' (first | split | simp)

end Sys2Proof.Machine
end

