-- ==== Sys2Proof/Laws/FrameHost.lean ====
section
/-! SUPPORT. What each function over State leaves as it was, and that each command answers a next state: the host interface. -/

namespace Sys2Proof.Machine

@[simp] theorem State.afterWrite_frame (s : State) (f : Fn) (w : HostWrite) :
    (s.afterWrite f w).boot = s.boot ∧ (s.afterWrite f w).board = s.board ∧ (s.afterWrite f w).clocks = s.clocks ∧
    (s.afterWrite f w).host = s.host ∧ (s.afterWrite f w).tiles = s.tiles ∧ (s.afterWrite f w).ports = s.ports ∧
    (s.afterWrite f w).hatband = s.hatband ∧ (s.afterWrite f w).engines = s.engines ∧ (s.afterWrite f w).free = s.free ∧
    (s.afterWrite f w).pending = s.pending := by
  unfold State.afterWrite
  try dsimp only
  repeat' (first | split | simp)

@[simp] theorem State.dropWrite_frame (s : State) (f : Fn) (i : Nat) :
    (s.dropWrite f i).boot = s.boot ∧ (s.dropWrite f i).board = s.board ∧ (s.dropWrite f i).clocks = s.clocks ∧
    (s.dropWrite f i).host = s.host ∧ (s.dropWrite f i).tiles = s.tiles ∧ (s.dropWrite f i).jewel = s.jewel ∧
    (s.dropWrite f i).ports = s.ports ∧ (s.dropWrite f i).hatband = s.hatband ∧ (s.dropWrite f i).engines = s.engines ∧
    (s.dropWrite f i).free = s.free ∧ (s.dropWrite f i).pending = s.pending := by
  unfold State.dropWrite
  try dsimp only
  repeat' (first | split | simp)

@[simp] theorem State.issuePart_frame (s : State) (f : Fn) (i : Nat) (w : HostWrite) (k : Nat) :
    (s.issuePart f i w k).boot = s.boot ∧ (s.issuePart f i w k).board = s.board ∧ (s.issuePart f i w k).clocks = s.clocks ∧
    (s.issuePart f i w k).tiles = s.tiles ∧ (s.issuePart f i w k).ports = s.ports ∧ (s.issuePart f i w k).hatband = s.hatband ∧
    (s.issuePart f i w k).engines = s.engines ∧ (s.issuePart f i w k).free = s.free ∧ (s.issuePart f i w k).pending = s.pending := by
  unfold State.issuePart
  try dsimp only
  repeat' (first | split | simp)

@[simp] theorem State.issueTags_frame (s : State) (f : Fn) (ws : List HostWrite) :
    (s.issueTags f ws).boot = s.boot ∧ (s.issueTags f ws).board = s.board ∧ (s.issueTags f ws).clocks = s.clocks ∧
    (s.issueTags f ws).tiles = s.tiles ∧ (s.issueTags f ws).ports = s.ports ∧ (s.issueTags f ws).hatband = s.hatband ∧
    (s.issueTags f ws).engines = s.engines ∧ (s.issueTags f ws).free = s.free ∧ (s.issueTags f ws).pending = s.pending := by
  unfold State.issueTags
  try dsimp only
  repeat' (first | split | simp)

@[simp] theorem State.writeSlot_frame (s : State) (f : Fn) (n b : Nat) :
    (s.writeSlot f n b).boot = s.boot ∧ (s.writeSlot f n b).board = s.board ∧ (s.writeSlot f n b).clocks = s.clocks ∧
    (s.writeSlot f n b).tiles = s.tiles ∧ (s.writeSlot f n b).ports = s.ports ∧ (s.writeSlot f n b).hatband = s.hatband ∧
    (s.writeSlot f n b).engines = s.engines ∧ (s.writeSlot f n b).free = s.free ∧ (s.writeSlot f n b).pending = s.pending := by
  induction n generalizing s b with
  | zero => simp [State.writeSlot]
  | succ n ih =>
    unfold State.writeSlot
    repeat' (first | split | simp [ih])

@[simp] theorem State.issueReads_frame (s : State) (f : Fn) (rs : List HostRead) :
    (s.issueReads f rs).boot = s.boot ∧ (s.issueReads f rs).board = s.board ∧ (s.issueReads f rs).clocks = s.clocks ∧
    (s.issueReads f rs).tiles = s.tiles ∧ (s.issueReads f rs).jewel = s.jewel ∧ (s.issueReads f rs).ports = s.ports ∧
    (s.issueReads f rs).hatband = s.hatband ∧ (s.issueReads f rs).engines = s.engines ∧ (s.issueReads f rs).free = s.free ∧
    (s.issueReads f rs).pending = s.pending := by
  unfold State.issueReads
  try dsimp only
  repeat' (first | split | simp)

@[simp] theorem State.readSlot_frame (s : State) (f : Fn) (n b : Nat) :
    (s.readSlot f n b).boot = s.boot ∧ (s.readSlot f n b).board = s.board ∧ (s.readSlot f n b).clocks = s.clocks ∧
    (s.readSlot f n b).tiles = s.tiles ∧ (s.readSlot f n b).jewel = s.jewel ∧ (s.readSlot f n b).ports = s.ports ∧
    (s.readSlot f n b).hatband = s.hatband ∧ (s.readSlot f n b).engines = s.engines ∧ (s.readSlot f n b).free = s.free ∧
    (s.readSlot f n b).pending = s.pending := by
  induction n generalizing s b with
  | zero => simp [State.readSlot]
  | succ n ih =>
    unfold State.readSlot
    repeat' (first | split | simp [ih])

@[simp] theorem State.allot_frame (s : State) (f : Fn) (write : Bool) :
    (s.allot f write).boot = s.boot ∧ (s.allot f write).board = s.board ∧ (s.allot f write).clocks = s.clocks ∧
    (s.allot f write).tiles = s.tiles ∧ (s.allot f write).ports = s.ports ∧ (s.allot f write).hatband = s.hatband ∧
    (s.allot f write).engines = s.engines ∧ (s.allot f write).free = s.free ∧ (s.allot f write).pending = s.pending := by
  unfold State.allot
  try dsimp only
  repeat' (first | split | simp)

@[simp] theorem State.nextSlot_frame (s : State) (pf : Bool) (write : Bool) :
    (s.nextSlot pf write).boot = s.boot ∧ (s.nextSlot pf write).board = s.board ∧ (s.nextSlot pf write).clocks = s.clocks ∧
    (s.nextSlot pf write).parts = s.parts ∧ (s.nextSlot pf write).pf = s.pf ∧ (s.nextSlot pf write).tiles = s.tiles ∧
    (s.nextSlot pf write).jewel = s.jewel ∧ (s.nextSlot pf write).ports = s.ports ∧ (s.nextSlot pf write).hatband = s.hatband ∧
    (s.nextSlot pf write).engines = s.engines ∧ (s.nextSlot pf write).free = s.free ∧ (s.nextSlot pf write).pending = s.pending := by
  unfold State.nextSlot
  try dsimp only
  repeat' (first | split | simp)

@[simp] theorem State.giveChunk_frame (s : State) (p : PartId) (o : Owner) (chunk : Nat) (plain : Option Bytes) :
    (s.giveChunk p o chunk plain).pending = s.pending ∧ (s.giveChunk p o chunk plain).boot.flash = s.boot.flash ∧
    (s.giveChunk p o chunk plain).boot.fuses = s.boot.fuses ∧ (s.giveChunk p o chunk plain).boot.seed = s.boot.seed ∧
    (s.giveChunk p o chunk plain).boot.dpk = s.boot.dpk := by
  unfold State.giveChunk
  try dsimp only
  repeat' (first | split | simp)

@[simp] theorem State.dropPair_frame (s : State) (p : PartId) (r : HostRead) :
    (s.dropPair p r).boot = s.boot ∧ (s.dropPair p r).board = s.board ∧ (s.dropPair p r).clocks = s.clocks ∧
    (s.dropPair p r).host = s.host ∧ (s.dropPair p r).tiles = s.tiles ∧ (s.dropPair p r).jewel = s.jewel ∧
    (s.dropPair p r).ports = s.ports ∧ (s.dropPair p r).hatband = s.hatband ∧ (s.dropPair p r).engines = s.engines ∧
    (s.dropPair p r).free = s.free ∧ (s.dropPair p r).pending = s.pending := by
  unfold State.dropPair
  try dsimp only
  repeat' (first | split | simp)

@[simp] theorem State.readDone_frame (s : State) (p : PartId) (r : HostRead) (data : Option Bytes) :
    (s.readDone p r data).pending = s.pending ∧ (s.readDone p r data).boot.flash = s.boot.flash ∧
    (s.readDone p r data).boot.fuses = s.boot.fuses ∧ (s.readDone p r data).boot.seed = s.boot.seed ∧
    (s.readDone p r data).boot.dpk = s.boot.dpk := by
  unfold State.readDone
  try dsimp only
  repeat' (first | split | simp)

@[simp] theorem State.endRead_frame (s : State) (id : Nat) (data : Option Bytes) :
    (s.endRead id data).pending = s.pending ∧ (s.endRead id data).boot.flash = s.boot.flash ∧
    (s.endRead id data).boot.fuses = s.boot.fuses ∧ (s.endRead id data).boot.seed = s.boot.seed ∧
    (s.endRead id data).boot.dpk = s.boot.dpk := by
  unfold State.endRead
  try dsimp only
  repeat' (first | split | simp)

@[simp] theorem State.pfFlr_frame (s : State) :
    s.pfFlr.board = s.board ∧ s.pfFlr.clocks = s.clocks ∧ s.pfFlr.host = s.host ∧ s.pfFlr.tiles = s.tiles ∧
    s.pfFlr.ports = s.ports ∧ s.pfFlr.hatband = s.hatband ∧ s.pfFlr.engines = s.engines ∧ s.pfFlr.free = s.free ∧
    s.pfFlr.pending = s.pending ∧ s.pfFlr.boot.flash = s.boot.flash ∧ s.pfFlr.boot.fuses = s.boot.fuses ∧
    s.pfFlr.boot.seed = s.boot.seed ∧ s.pfFlr.boot.dpk = s.boot.dpk := by
  unfold State.pfFlr
  try dsimp only
  repeat' (first | split | simp)

theorem execHostDmaSlot_frame (pf : Bool) (write : Bool) (s : State) :
    ∃ u, execHostDmaSlot pf write s = .next u ∧ u.boot = s.boot ∧ u.board = s.board ∧ u.clocks = s.clocks ∧ u.tiles = s.tiles ∧
    u.ports = s.ports ∧ u.hatband = s.hatband ∧ u.engines = s.engines ∧ u.free = s.free ∧ u.pending = s.pending := by
  unfold execHostDmaSlot
  try dsimp only
  repeat' (first | split | simp)

theorem execDmaReadCompletion_frame (id : Nat) (ok : Bool) (data : Bytes) (s : State) :
    ∃ u, execDmaReadCompletion id ok data s = .next u ∧ u.pending = s.pending ∧ u.boot.flash = s.boot.flash ∧
    u.boot.fuses = s.boot.fuses ∧ u.boot.seed = s.boot.seed ∧ u.boot.dpk = s.boot.dpk := by
  unfold execDmaReadCompletion
  try dsimp only
  repeat' (first | split | simp)

theorem execCompletionTimeout_frame (id : Nat) (s : State) :
    ∃ u, execCompletionTimeout id s = .next u ∧ u.pending = s.pending ∧ u.boot.flash = s.boot.flash ∧ u.boot.fuses = s.boot.fuses ∧
    u.boot.seed = s.boot.seed ∧ u.boot.dpk = s.boot.dpk := by
  unfold execCompletionTimeout
  try dsimp only
  repeat' (first | split | simp)

theorem execFunctionLevelReset_frame (p : PartId) (s : State) :
    ∃ u, execFunctionLevelReset p s = .next u ∧ u.boot = s.boot ∧ u.board = s.board ∧ u.clocks = s.clocks ∧ u.host = s.host ∧
    u.tiles = s.tiles ∧ u.hatband = s.hatband ∧ u.engines = s.engines ∧ u.free = s.free ∧ u.pending = s.pending := by
  unfold execFunctionLevelReset
  try dsimp only
  repeat' (first | split | simp)

theorem execPfFunctionLevelReset_frame (s : State) :
    ∃ u, execPfFunctionLevelReset s = .next u ∧ u.board = s.board ∧ u.clocks = s.clocks ∧ u.host = s.host ∧ u.tiles = s.tiles ∧
    u.ports = s.ports ∧ u.hatband = s.hatband ∧ u.engines = s.engines ∧ u.free = s.free ∧ u.pending = s.pending ∧
    u.boot.flash = s.boot.flash ∧ u.boot.fuses = s.boot.fuses ∧ u.boot.seed = s.boot.seed ∧ u.boot.dpk = s.boot.dpk := by
  unfold execPfFunctionLevelReset
  try dsimp only
  repeat' (first | split | simp)

theorem execDlDown_frame (s : State) :
    ∃ u, execDlDown s = .next u ∧ u.board = s.board ∧ u.clocks = s.clocks ∧ u.tiles = s.tiles ∧ u.hatband = s.hatband ∧
    u.engines = s.engines ∧ u.free = s.free ∧ u.pending = s.pending ∧ u.boot.flash = s.boot.flash ∧ u.boot.fuses = s.boot.fuses ∧
    u.boot.seed = s.boot.seed ∧ u.boot.dpk = s.boot.dpk := by
  unfold execDlDown
  try dsimp only
  repeat' (first | split | simp)

theorem execDlUp_frame (rate : Nat) (width : Nat) (mps : Nat) (s : State) :
    ∃ u, execDlUp rate width mps s = .next u ∧ u.boot = s.boot ∧ u.board = s.board ∧ u.clocks = s.clocks ∧ u.parts = s.parts ∧
    u.pf = s.pf ∧ u.tiles = s.tiles ∧ u.jewel = s.jewel ∧ u.ports = s.ports ∧ u.hatband = s.hatband ∧ u.engines = s.engines ∧
    u.free = s.free ∧ u.pending = s.pending := by
  unfold execDlUp
  try dsimp only
  repeat' (first | split | simp)

theorem execVfEnable_frame (numVfs : Option Nat) (enable : Bool) (s : State) :
    ∃ u, execVfEnable numVfs enable s = .next u ∧ u.boot = s.boot ∧ u.board = s.board ∧ u.clocks = s.clocks ∧ u.tiles = s.tiles ∧
    u.hatband = s.hatband ∧ u.engines = s.engines ∧ u.free = s.free ∧ u.pending = s.pending := by
  unfold execVfEnable
  try dsimp only
  repeat' (first | split | simp)

theorem execBusMasterEnable_frame (f : Fn) (on : Bool) (s : State) :
    ∃ u, execBusMasterEnable f on s = .next u ∧ u.boot = s.boot ∧ u.board = s.board ∧ u.clocks = s.clocks ∧ u.host = s.host ∧
    u.tiles = s.tiles ∧ u.jewel = s.jewel ∧ u.ports = s.ports ∧ u.hatband = s.hatband ∧ u.engines = s.engines ∧ u.free = s.free ∧
    u.pending = s.pending := by
  unfold execBusMasterEnable
  try dsimp only
  repeat' (first | split | simp)

theorem execDebugControlWrite_frame (t : TileId) (v : Byte) (s : State) :
    ∃ u, execDebugControlWrite t v s = .next u ∧ u.boot = s.boot ∧ u.board = s.board ∧ u.clocks = s.clocks ∧ u.host = s.host ∧
    u.parts = s.parts ∧ u.pf = s.pf ∧ u.jewel = s.jewel ∧ u.ports = s.ports ∧ u.hatband = s.hatband ∧ u.engines = s.engines ∧
    u.free = s.free ∧ u.pending = s.pending := by
  unfold execDebugControlWrite
  try dsimp only
  repeat' (first | split | simp)

theorem execDebugMemoryWrite_frame (t : TileId) (off : Nat) (data : Bytes) (s : State) :
    ∃ u, execDebugMemoryWrite t off data s = .next u ∧ u.boot = s.boot ∧ u.board = s.board ∧ u.clocks = s.clocks ∧ u.host = s.host ∧
    u.parts = s.parts ∧ u.pf = s.pf ∧ u.jewel = s.jewel ∧ u.ports = s.ports ∧ u.hatband = s.hatband ∧ u.engines = s.engines ∧
    u.free = s.free ∧ u.pending = s.pending := by
  unfold execDebugMemoryWrite
  try dsimp only
  repeat' (first | split | simp)

end Sys2Proof.Machine
end

