-- ==== Sys2Proof/Laws/FrameStart.lean ====
section
/-! SUPPORT. What each function over State leaves as it was, and that each command answers a next state: training, power, start-up and the tile commands. -/

namespace Sys2Proof.Machine

@[simp] theorem State.sayEvidence_frame (s : State) (q : PortId) (noncePlus : Bytes) (nonceMinus : Bytes) (kem : Bytes) (plus :
    Bool) :
    (s.sayEvidence q noncePlus nonceMinus kem plus).boot = s.boot ∧
    (s.sayEvidence q noncePlus nonceMinus kem plus).board = s.board ∧
    (s.sayEvidence q noncePlus nonceMinus kem plus).clocks = s.clocks ∧
    (s.sayEvidence q noncePlus nonceMinus kem plus).host = s.host ∧
    (s.sayEvidence q noncePlus nonceMinus kem plus).parts = s.parts ∧ (s.sayEvidence q noncePlus nonceMinus kem plus).pf = s.pf ∧
    (s.sayEvidence q noncePlus nonceMinus kem plus).tiles = s.tiles ∧
    (s.sayEvidence q noncePlus nonceMinus kem plus).jewel = s.jewel ∧
    (s.sayEvidence q noncePlus nonceMinus kem plus).hatband = s.hatband ∧
    (s.sayEvidence q noncePlus nonceMinus kem plus).engines = s.engines ∧
    (s.sayEvidence q noncePlus nonceMinus kem plus).pending = s.pending := by
  unfold State.sayEvidence
  try dsimp only
  repeat' (first | split | simp)

@[simp] theorem State.closeDim_frame (s : State) (d : Fin 4) :
    (s.closeDim d).boot = s.boot ∧ (s.closeDim d).board = s.board ∧ (s.closeDim d).clocks = s.clocks ∧
    (s.closeDim d).host = s.host ∧ (s.closeDim d).parts = s.parts ∧ (s.closeDim d).pf = s.pf ∧ (s.closeDim d).tiles = s.tiles ∧
    (s.closeDim d).jewel = s.jewel ∧ (s.closeDim d).engines = s.engines ∧ (s.closeDim d).free = s.free ∧
    (s.closeDim d).pending = s.pending := by
  unfold State.closeDim
  try dsimp only
  repeat' (first | split | simp)

@[simp] theorem State.engineFail_frame (s : State) (q : PortId) :
    (s.engineFail q).clocks = s.clocks ∧ (s.engineFail q).host = s.host ∧ (s.engineFail q).pf = s.pf ∧
    (s.engineFail q).tiles = s.tiles ∧ (s.engineFail q).pending = s.pending ∧ (s.engineFail q).boot.fuses = s.boot.fuses ∧
    (s.engineFail q).boot.seed = s.boot.seed ∧ (s.engineFail q).boot.dpk = s.boot.dpk := by
  unfold State.engineFail
  try dsimp only
  repeat' (first | split | simp)

theorem execLaneSignalLoss_frame (port : PortId) (back : Bool) (s : State) :
    ∃ u, execLaneSignalLoss port back s = .next u ∧ u.boot = s.boot ∧ u.board = s.board ∧ u.clocks = s.clocks ∧ u.host = s.host ∧
    u.parts = s.parts ∧ u.pf = s.pf ∧ u.tiles = s.tiles ∧ u.jewel = s.jewel ∧ u.hatband = s.hatband ∧ u.engines = s.engines ∧
    u.free = s.free ∧ u.pending = s.pending := by
  unfold execLaneSignalLoss
  try dsimp only
  repeat' (first | split | simp)

theorem execSignalHoldExpiry_frame (port : PortId) (s : State) :
    ∃ u, execSignalHoldExpiry port s = .next u ∧ u.boot = s.boot ∧ u.board = s.board ∧ u.clocks = s.clocks ∧ u.host = s.host ∧
    u.parts = s.parts ∧ u.pf = s.pf ∧ u.tiles = s.tiles ∧ u.jewel = s.jewel ∧ u.hatband = s.hatband ∧ u.engines = s.engines ∧
    u.free = s.free ∧ u.pending = s.pending := by
  unfold execSignalHoldExpiry
  try dsimp only
  repeat' (first | split | simp)

theorem execRetrainLimitRelease_frame (port : PortId) (s : State) :
    ∃ u, execRetrainLimitRelease port s = .next u ∧ u.boot = s.boot ∧ u.board = s.board ∧ u.clocks = s.clocks ∧ u.host = s.host ∧
    u.parts = s.parts ∧ u.pf = s.pf ∧ u.tiles = s.tiles ∧ u.jewel = s.jewel ∧ u.hatband = s.hatband ∧ u.engines = s.engines ∧
    u.free = s.free ∧ u.pending = s.pending := by
  unfold execRetrainLimitRelease
  try dsimp only
  repeat' (first | split | simp)

theorem execLaneLock_frame (port : PortId) (s : State) :
    ∃ u, execLaneLock port s = .next u ∧ u.boot = s.boot ∧ u.board = s.board ∧ u.clocks = s.clocks ∧ u.host = s.host ∧
    u.parts = s.parts ∧ u.pf = s.pf ∧ u.tiles = s.tiles ∧ u.jewel = s.jewel ∧ u.hatband = s.hatband ∧ u.engines = s.engines ∧
    u.pending = s.pending := by
  unfold execLaneLock
  try dsimp only
  repeat' (first | split | simp)

theorem execHello_frame (port : PortId) (coord : Coord) (nport : Nat) (nonce : Bytes) (digest : Bytes) (fecc : Nat) (s : State) :
    ∃ u, execHello port coord nport nonce digest fecc s = .next u ∧ u.boot = s.boot ∧ u.board = s.board ∧ u.clocks = s.clocks ∧
    u.host = s.host ∧ u.parts = s.parts ∧ u.pf = s.pf ∧ u.tiles = s.tiles ∧ u.jewel = s.jewel ∧ u.hatband = s.hatband ∧
    u.engines = s.engines ∧ u.pending = s.pending := by
  unfold execHello
  try dsimp only
  repeat' (first | split | simp)

theorem execEvidenceDPlus_frame (port : PortId) (_chain : Bytes) (report : Bytes) (ek : Bytes) (authOk : Bool) (fecc : Nat) (s :
    State) :
    ∃ u, execEvidenceDPlus port _chain report ek authOk fecc s = .next u ∧ u.boot = s.boot ∧ u.board = s.board ∧
    u.clocks = s.clocks ∧ u.host = s.host ∧ u.parts = s.parts ∧ u.pf = s.pf ∧ u.tiles = s.tiles ∧ u.jewel = s.jewel ∧
    u.hatband = s.hatband ∧ u.engines = s.engines ∧ u.pending = s.pending := by
  unfold execEvidenceDPlus
  try dsimp only
  repeat' (first | split | simp)

theorem execEvidenceDMinus_frame (port : PortId) (_chain : Bytes) (report : Bytes) (_ct : Bytes) (authOk : Bool) (kem : Option
    Bytes) (fecc : Nat) (s : State) :
    ∃ u, execEvidenceDMinus port _chain report _ct authOk kem fecc s = .next u ∧ u.boot = s.boot ∧ u.board = s.board ∧
    u.clocks = s.clocks ∧ u.host = s.host ∧ u.parts = s.parts ∧ u.pf = s.pf ∧ u.tiles = s.tiles ∧ u.jewel = s.jewel ∧
    u.hatband = s.hatband ∧ u.engines = s.engines ∧ u.free = s.free ∧ u.pending = s.pending := by
  unfold execEvidenceDMinus
  try dsimp only
  repeat' (first | split | simp)

theorem execRefusedRetry_frame (port : PortId) (s : State) :
    ∃ u, execRefusedRetry port s = .next u ∧ u.boot = s.boot ∧ u.board = s.board ∧ u.clocks = s.clocks ∧ u.host = s.host ∧
    u.parts = s.parts ∧ u.pf = s.pf ∧ u.tiles = s.tiles ∧ u.jewel = s.jewel ∧ u.hatband = s.hatband ∧ u.engines = s.engines ∧
    u.free = s.free ∧ u.pending = s.pending := by
  unfold execRefusedRetry
  try dsimp only
  repeat' (first | split | simp)

theorem execCrsync_frame (port : PortId) (fecOk : Bool) (fecc : Nat) (wire : Bytes) (loopPs : Nat) (s : State) :
    ∃ u, execCrsync port fecOk fecc wire loopPs s = .next u ∧ u.boot = s.boot ∧ u.board = s.board ∧ u.clocks = s.clocks ∧
    u.host = s.host ∧ u.hatband = s.hatband ∧ u.engines = s.engines ∧ u.free = s.free ∧ u.pending = s.pending := by
  unfold execCrsync
  try dsimp only
  repeat' (first | split | simp)

theorem execOpticalEngineFail_frame (port : PortId) (s : State) :
    ∃ u, execOpticalEngineFail port s = .next u ∧ u.clocks = s.clocks ∧ u.host = s.host ∧ u.pf = s.pf ∧ u.tiles = s.tiles ∧
    u.pending = s.pending ∧ u.boot.fuses = s.boot.fuses ∧ u.boot.seed = s.boot.seed ∧ u.boot.dpk = s.boot.dpk := by
  unfold execOpticalEngineFail
  try dsimp only
  repeat' (first | split | simp)

theorem execHatbandOpen_frame (s : State) :
    ∃ u, execHatbandOpen s = .next u ∧ u.clocks = s.clocks ∧ u.host = s.host ∧ u.parts = s.parts ∧ u.pf = s.pf ∧ u.tiles = s.tiles ∧
    u.jewel = s.jewel ∧ u.engines = s.engines ∧ u.pending = s.pending ∧ u.boot.fuses = s.boot.fuses ∧ u.boot.seed = s.boot.seed ∧
    u.boot.dpk = s.boot.dpk := by
  unfold execHatbandOpen
  try dsimp only
  repeat' (first | split | simp)

theorem execEngineSelfTestDone_frame (port : PortId) (ok : Bool) (s : State) :
    ∃ u, execEngineSelfTestDone port ok s = .next u ∧ u.clocks = s.clocks ∧ u.host = s.host ∧ u.pf = s.pf ∧ u.tiles = s.tiles ∧
    u.ports = s.ports ∧ u.hatband = s.hatband ∧ u.pending = s.pending ∧ u.boot.fuses = s.boot.fuses ∧ u.boot.seed = s.boot.seed ∧
    u.boot.dpk = s.boot.dpk := by
  unfold execEngineSelfTestDone
  try dsimp only
  repeat' (first | split | simp)

@[simp] theorem State.rowOff_frame (s : State) (row : Fin 8) :
    (s.rowOff row).boot = s.boot ∧ (s.rowOff row).clocks = s.clocks ∧ (s.rowOff row).host = s.host ∧
    (s.rowOff row).parts = s.parts ∧ (s.rowOff row).pf = s.pf ∧ (s.rowOff row).jewel = s.jewel ∧ (s.rowOff row).ports = s.ports ∧
    (s.rowOff row).hatband = s.hatband ∧ (s.rowOff row).engines = s.engines ∧ (s.rowOff row).free = s.free ∧
    (s.rowOff row).pending = s.pending := by
  unfold State.rowOff
  try dsimp only
  repeat' (first | split | simp)

@[simp] theorem State.setPwrDis_frame (s : State) :
    s.setPwrDis.boot = s.boot ∧ s.setPwrDis.board = s.board ∧ s.setPwrDis.clocks = s.clocks ∧ s.setPwrDis.host = s.host ∧
    s.setPwrDis.pf = s.pf ∧ s.setPwrDis.tiles = s.tiles ∧ s.setPwrDis.jewel = s.jewel ∧ s.setPwrDis.ports = s.ports ∧
    s.setPwrDis.hatband = s.hatband ∧ s.setPwrDis.engines = s.engines ∧ s.setPwrDis.free = s.free ∧ s.setPwrDis.pending = s.pending := by
  unfold State.setPwrDis
  try dsimp only
  repeat' (first | split | simp)

@[simp] theorem State.logRow_frame (s : State) (row : Fin 8) (old : RowMon) (new : RowMon) :
    (s.logRow row old new).boot = s.boot ∧ (s.logRow row old new).board = s.board ∧ (s.logRow row old new).clocks = s.clocks ∧
    (s.logRow row old new).host = s.host ∧ (s.logRow row old new).hatband = s.hatband ∧ (s.logRow row old new).engines = s.engines ∧
    (s.logRow row old new).free = s.free ∧ (s.logRow row old new).pending = s.pending := by
  unfold State.logRow
  try dsimp only
  repeat' (first | split | simp)

@[simp] theorem State.trip_frame (s : State) (kind : Nat) (idx : Nat) :
    (s.trip kind idx).free = s.free ∧ (s.trip kind idx).pending = s.pending ∧ (s.trip kind idx).boot.flash = s.boot.flash ∧
    (s.trip kind idx).boot.fuses = s.boot.fuses ∧ (s.trip kind idx).boot.seed = s.boot.seed ∧
    (s.trip kind idx).boot.dpk = s.boot.dpk := by
  unfold State.trip
  try dsimp only
  repeat' (first | split | simp)

@[simp] theorem State.packageLost_frame (s : State) (pkg : Fin 64) :
    (s.packageLost pkg).clocks = s.clocks ∧ (s.packageLost pkg).host = s.host ∧ (s.packageLost pkg).hatband = s.hatband ∧
    (s.packageLost pkg).engines = s.engines ∧ (s.packageLost pkg).pending = s.pending ∧
    (s.packageLost pkg).boot.fuses = s.boot.fuses ∧ (s.packageLost pkg).boot.seed = s.boot.seed ∧
    (s.packageLost pkg).boot.dpk = s.boot.dpk := by
  unfold State.packageLost
  try dsimp only
  repeat' (first | split | simp)

theorem execEscapementWindow_frame (t : TileId) (a : Activity) (s : State) :
    ∃ u, execEscapementWindow t a s = .next u ∧ u.boot = s.boot ∧ u.board = s.board ∧ u.clocks = s.clocks ∧ u.host = s.host ∧
    u.parts = s.parts ∧ u.pf = s.pf ∧ u.jewel = s.jewel ∧ u.ports = s.ports ∧ u.hatband = s.hatband ∧ u.engines = s.engines ∧
    u.free = s.free ∧ u.pending = s.pending := by
  unfold execEscapementWindow
  try dsimp only
  repeat' (first | split | simp)

theorem execDroopEvent_frame (t : TileId) (s : State) :
    ∃ u, execDroopEvent t s = .next u ∧ u.boot = s.boot ∧ u.board = s.board ∧ u.clocks = s.clocks ∧ u.host = s.host ∧
    u.parts = s.parts ∧ u.pf = s.pf ∧ u.jewel = s.jewel ∧ u.ports = s.ports ∧ u.hatband = s.hatband ∧ u.engines = s.engines ∧
    u.free = s.free ∧ u.pending = s.pending := by
  unfold execDroopEvent
  try dsimp only
  repeat' (first | split | simp)

theorem execRowMonitorSample_frame (row : Fin 8) (ma : Nat) (s : State) :
    ∃ u, execRowMonitorSample row ma s = .next u ∧ u.boot = s.boot ∧ u.clocks = s.clocks ∧ u.host = s.host ∧ u.hatband = s.hatband ∧
    u.engines = s.engines ∧ u.free = s.free ∧ u.pending = s.pending := by
  unfold execRowMonitorSample
  try dsimp only
  repeat' (first | split | simp)

theorem execCoreRailOvercurrent_frame (row : Fin 8) (s : State) :
    ∃ u, execCoreRailOvercurrent row s = .next u ∧ u.boot = s.boot ∧ u.clocks = s.clocks ∧ u.host = s.host ∧ u.hatband = s.hatband ∧
    u.engines = s.engines ∧ u.free = s.free ∧ u.pending = s.pending := by
  unfold execCoreRailOvercurrent
  try dsimp only
  repeat' (first | split | simp)

theorem execPllLossOfLock_frame (island : Fin 76) (s : State) :
    ∃ u, execPllLossOfLock island s = .next u ∧ u.pending = s.pending ∧ u.boot.fuses = s.boot.fuses ∧ u.boot.seed = s.boot.seed ∧
    u.boot.dpk = s.boot.dpk := by
  unfold execPllLossOfLock
  try dsimp only
  repeat' (first | split | simp)

theorem execOscillatorLoss_frame (s : State) :
    ∃ u, execOscillatorLoss s = .next u ∧ u.free = s.free ∧ u.pending = s.pending ∧ u.boot.flash = s.boot.flash ∧
    u.boot.fuses = s.boot.fuses ∧ u.boot.seed = s.boot.seed ∧ u.boot.dpk = s.boot.dpk := by
  unfold execOscillatorLoss
  try dsimp only
  repeat' (first | split | simp)

theorem execOscillatorRecovery_frame (s : State) :
    ∃ u, execOscillatorRecovery s = .next u ∧ u.clocks = s.clocks ∧ u.host = s.host ∧ u.parts = s.parts ∧ u.pf = s.pf ∧
    u.tiles = s.tiles ∧ u.jewel = s.jewel ∧ u.ports = s.ports ∧ u.hatband = s.hatband ∧ u.engines = s.engines ∧ u.free = s.free ∧
    u.pending = s.pending ∧ u.boot.flash = s.boot.flash ∧ u.boot.fuses = s.boot.fuses ∧ u.boot.seed = s.boot.seed ∧
    u.boot.dpk = s.boot.dpk := by
  unfold execOscillatorRecovery
  try dsimp only
  repeat' (first | split | simp)

theorem execDieSensorRead_frame (i : Fin 68) (temp : Option Int) (s : State) :
    ∃ u, execDieSensorRead i temp s = .next u ∧ u.free = s.free ∧ u.pending = s.pending ∧ u.boot.flash = s.boot.flash ∧
    u.boot.fuses = s.boot.fuses ∧ u.boot.seed = s.boot.seed ∧ u.boot.dpk = s.boot.dpk := by
  unfold execDieSensorRead
  try dsimp only
  repeat' (first | split | simp)

theorem execPackageTempRead_frame (pkg : Fin 64) (temp : Option Int) (s : State) :
    ∃ u, execPackageTempRead pkg temp s = .next u ∧ u.pending = s.pending ∧ u.boot.fuses = s.boot.fuses ∧
    u.boot.seed = s.boot.seed ∧ u.boot.dpk = s.boot.dpk := by
  unfold execPackageTempRead
  try dsimp only
  repeat' (first | split | simp)

theorem execTripCool_frame (s : State) :
    ∃ u, execTripCool s = .next u ∧ u.boot = s.boot ∧ u.clocks = s.clocks ∧ u.host = s.host ∧ u.parts = s.parts ∧ u.pf = s.pf ∧
    u.tiles = s.tiles ∧ u.jewel = s.jewel ∧ u.ports = s.ports ∧ u.hatband = s.hatband ∧ u.engines = s.engines ∧ u.free = s.free ∧
    u.pending = s.pending := by
  unfold execTripCool
  try dsimp only
  repeat' (first | split | simp)

@[simp] theorem State.applyImage_frame (s : State) :
    s.applyImage.board = s.board ∧ s.applyImage.clocks = s.clocks ∧ s.applyImage.host = s.host ∧ s.applyImage.hatband = s.hatband ∧
    s.applyImage.engines = s.engines ∧ s.applyImage.free = s.free ∧ s.applyImage.pending = s.pending ∧
    s.applyImage.boot.flash = s.boot.flash ∧ s.applyImage.boot.fuses = s.boot.fuses ∧ s.applyImage.boot.seed = s.boot.seed ∧
    s.applyImage.boot.dpk = s.boot.dpk := by
  unfold State.applyImage
  try dsimp only
  repeat' (first | split | simp)

theorem Boot.choose_frame (b : Boot) (readA readB : Bool) :
    (b.choose readA readB).flash = b.flash ∧ (b.choose readA readB).fuses = b.fuses ∧ (b.choose readA readB).seed = b.seed := by
  unfold Boot.choose
  repeat' (first | split | simp)

theorem Boot.run_frame (b : Boot) (certRead readA readB : Bool) :
    (b.run certRead readA readB).flash = b.flash ∧ (b.run certRead readA readB).fuses = b.fuses ∧
      (b.run certRead readA readB).seed = b.seed := by
  simp [Boot.run, Boot.choose_frame]

@[simp] theorem State.beginStart_frame (s : State) (certRead : Bool) (readA : Bool) (readB : Bool) :
    (s.beginStart certRead readA readB).pending = s.pending ∧ (s.beginStart certRead readA readB).boot.flash = s.boot.flash ∧
    (s.beginStart certRead readA readB).boot.fuses = s.boot.fuses ∧ (s.beginStart certRead readA readB).boot.seed = s.boot.seed := by
  unfold State.beginStart
  try dsimp only
  repeat' (first | split | simp [Boot.run_frame])

@[simp] theorem State.afterChoice_frame (s : State) :
    s.afterChoice.board = s.board ∧ s.afterChoice.clocks = s.clocks ∧ s.afterChoice.host = s.host ∧
    s.afterChoice.hatband = s.hatband ∧ s.afterChoice.engines = s.engines ∧ s.afterChoice.pending = s.pending ∧
    s.afterChoice.boot.fuses = s.boot.fuses ∧ s.afterChoice.boot.seed = s.boot.seed ∧ s.afterChoice.boot.dpk = s.boot.dpk := by
  unfold State.afterChoice
  try dsimp only
  repeat' (first | split | simp)

@[simp] theorem State.holdRom_frame (s : State) :
    s.holdRom.clocks = s.clocks ∧ s.holdRom.host = s.host ∧ s.holdRom.jewel = s.jewel ∧ s.holdRom.ports = s.ports ∧
    s.holdRom.hatband = s.hatband ∧ s.holdRom.engines = s.engines ∧ s.holdRom.pending = s.pending ∧
    s.holdRom.boot.fuses = s.boot.fuses ∧ s.holdRom.boot.seed = s.boot.seed ∧ s.holdRom.boot.dpk = s.boot.dpk := by
  unfold State.holdRom
  try dsimp only
  repeat' (first | split | simp)

@[simp] theorem State.enterScrub_frame (s : State) (p : PartId) :
    (s.enterScrub p).boot = s.boot ∧ (s.enterScrub p).board = s.board ∧ (s.enterScrub p).clocks = s.clocks ∧
    (s.enterScrub p).host = s.host ∧ (s.enterScrub p).hatband = s.hatband ∧ (s.enterScrub p).engines = s.engines ∧
    (s.enterScrub p).pending = s.pending := by
  unfold State.enterScrub
  try dsimp only
  repeat' (first | split | simp)

@[simp] theorem State.eraseSlot_frame (s : State) (slot : Nat) :
    (s.eraseSlot slot).board = s.board ∧ (s.eraseSlot slot).clocks = s.clocks ∧ (s.eraseSlot slot).host = s.host ∧
    (s.eraseSlot slot).parts = s.parts ∧ (s.eraseSlot slot).pf = s.pf ∧ (s.eraseSlot slot).tiles = s.tiles ∧
    (s.eraseSlot slot).jewel = s.jewel ∧ (s.eraseSlot slot).ports = s.ports ∧ (s.eraseSlot slot).hatband = s.hatband ∧
    (s.eraseSlot slot).engines = s.engines ∧ (s.eraseSlot slot).free = s.free ∧ (s.eraseSlot slot).pending = s.pending ∧
    (s.eraseSlot slot).boot.fuses = s.boot.fuses ∧ (s.eraseSlot slot).boot.seed = s.boot.seed ∧
    (s.eraseSlot slot).boot.dpk = s.boot.dpk := by
  unfold State.eraseSlot
  try dsimp only
  repeat' (first | split | simp)

@[simp] theorem State.writeStage_frame (s : State) (slot : Nat) (gen : Nat) (img : Bytes) (whole : Bool) :
    (s.writeStage slot gen img whole).board = s.board ∧ (s.writeStage slot gen img whole).clocks = s.clocks ∧
    (s.writeStage slot gen img whole).host = s.host ∧ (s.writeStage slot gen img whole).parts = s.parts ∧
    (s.writeStage slot gen img whole).pf = s.pf ∧ (s.writeStage slot gen img whole).tiles = s.tiles ∧
    (s.writeStage slot gen img whole).jewel = s.jewel ∧ (s.writeStage slot gen img whole).ports = s.ports ∧
    (s.writeStage slot gen img whole).hatband = s.hatband ∧ (s.writeStage slot gen img whole).engines = s.engines ∧
    (s.writeStage slot gen img whole).pending = s.pending ∧ (s.writeStage slot gen img whole).boot.fuses = s.boot.fuses ∧
    (s.writeStage slot gen img whole).boot.seed = s.boot.seed ∧ (s.writeStage slot gen img whole).boot.dpk = s.boot.dpk := by
  unfold State.writeStage
  try dsimp only
  repeat' (first | split | simp)

@[simp] theorem State.stageEnd_frame (s : State) (seq : Nat) (r : Result) :
    (s.stageEnd seq r).boot = s.boot ∧ (s.stageEnd seq r).board = s.board ∧ (s.stageEnd seq r).clocks = s.clocks ∧
    (s.stageEnd seq r).host = s.host ∧ (s.stageEnd seq r).tiles = s.tiles ∧ (s.stageEnd seq r).ports = s.ports ∧
    (s.stageEnd seq r).hatband = s.hatband ∧ (s.stageEnd seq r).engines = s.engines ∧ (s.stageEnd seq r).free = s.free ∧
    (s.stageEnd seq r).pending = s.pending := by
  unfold State.stageEnd
  try dsimp only
  repeat' (first | split | simp)

@[simp] theorem State.stageBegin_frame (s : State) (seq : Nat) (img : Bytes) :
    (s.stageBegin seq img).board = s.board ∧ (s.stageBegin seq img).clocks = s.clocks ∧ (s.stageBegin seq img).host = s.host ∧
    (s.stageBegin seq img).tiles = s.tiles ∧ (s.stageBegin seq img).jewel = s.jewel ∧ (s.stageBegin seq img).ports = s.ports ∧
    (s.stageBegin seq img).hatband = s.hatband ∧ (s.stageBegin seq img).engines = s.engines ∧ (s.stageBegin seq img).free = s.free ∧
    (s.stageBegin seq img).pending = s.pending ∧ (s.stageBegin seq img).boot.fuses = s.boot.fuses ∧
    (s.stageBegin seq img).boot.seed = s.boot.seed ∧ (s.stageBegin seq img).boot.dpk = s.boot.dpk := by
  unfold State.stageBegin
  try dsimp only
  repeat' (first | split | simp)

@[simp] theorem State.stageFinish_frame (s : State) (g : Stage) (again : Option Bytes) :
    (s.stageFinish g again).board = s.board ∧ (s.stageFinish g again).clocks = s.clocks ∧ (s.stageFinish g again).host = s.host ∧
    (s.stageFinish g again).tiles = s.tiles ∧ (s.stageFinish g again).ports = s.ports ∧
    (s.stageFinish g again).hatband = s.hatband ∧ (s.stageFinish g again).engines = s.engines ∧
    (s.stageFinish g again).pending = s.pending ∧ (s.stageFinish g again).boot.fuses = s.boot.fuses ∧
    (s.stageFinish g again).boot.seed = s.boot.seed ∧ (s.stageFinish g again).boot.dpk = s.boot.dpk := by
  unfold State.stageFinish
  try dsimp only
  repeat' (first | split | simp)

theorem execPowerGood_frame (romOk : Bool) (certRead : Bool) (readA : Bool) (readB : Bool) (s : State) :
    ∃ u, execPowerGood romOk certRead readA readB s = .next u ∧ u.pending = s.pending ∧ u.boot.fuses = s.boot.fuses ∧
    u.boot.seed = s.boot.seed := by
  unfold execPowerGood
  try dsimp only
  repeat' (first | split | simp)

theorem execPerstNRelease_frame (s : State) :
    ∃ u, execPerstNRelease s = .next u ∧ u.clocks = s.clocks ∧ u.host = s.host ∧ u.hatband = s.hatband ∧ u.engines = s.engines ∧
    u.free = s.free ∧ u.pending = s.pending ∧ u.boot.flash = s.boot.flash ∧ u.boot.fuses = s.boot.fuses ∧
    u.boot.seed = s.boot.seed ∧ u.boot.dpk = s.boot.dpk := by
  unfold execPerstNRelease
  try dsimp only
  repeat' (first | split | simp)

theorem execChannelTrainingDone_frame (t : TileId) (k : ChanId) (ok : Bool) (s : State) :
    ∃ u, execChannelTrainingDone t k ok s = .next u ∧ u.clocks = s.clocks ∧ u.host = s.host ∧ u.hatband = s.hatband ∧
    u.engines = s.engines ∧ u.pending = s.pending ∧ u.boot.fuses = s.boot.fuses ∧ u.boot.seed = s.boot.seed ∧
    u.boot.dpk = s.boot.dpk := by
  unfold execChannelTrainingDone
  try dsimp only
  repeat' (first | split | simp)

theorem execChannelInitDone_frame (t : TileId) (k : ChanId) (s : State) :
    ∃ u, execChannelInitDone t k s = .next u ∧ u.boot = s.boot ∧ u.board = s.board ∧ u.clocks = s.clocks ∧ u.host = s.host ∧
    u.hatband = s.hatband ∧ u.engines = s.engines ∧ u.pending = s.pending := by
  unfold execChannelInitDone
  try dsimp only
  repeat' (first | split | simp)

theorem execNvmStage_frame (obj : Option Bytes) (s : State) :
    ∃ u, execNvmStage obj s = .next u ∧ u.board = s.board ∧ u.clocks = s.clocks ∧ u.host = s.host ∧ u.ports = s.ports ∧
    u.hatband = s.hatband ∧ u.engines = s.engines ∧ u.pending = s.pending ∧ u.boot.fuses = s.boot.fuses ∧
    u.boot.seed = s.boot.seed ∧ u.boot.dpk = s.boot.dpk := by
  unfold execNvmStage
  try dsimp only
  repeat' (first | split | simp)

theorem execModuleRestart_frame (code : Byte) (detail : BitVec 32) (s : State) :
    ∃ u, execModuleRestart code detail s = .next u ∧ u.free = s.free ∧ u.pending = s.pending ∧ u.boot.flash = s.boot.flash ∧
    u.boot.fuses = s.boot.fuses ∧ u.boot.seed = s.boot.seed ∧ u.boot.dpk = s.boot.dpk := by
  unfold execModuleRestart
  try dsimp only
  repeat' (first | split | simp)

theorem execPass_frame (t : TileId) (s : State) :
    ∃ u, execPass t s = .next u ∧ u.boot = s.boot ∧ u.board = s.board ∧ u.clocks = s.clocks ∧ u.hatband = s.hatband ∧
    u.engines = s.engines ∧ u.free = s.free ∧ u.pending = s.pending := by
  unfold execPass
  try dsimp only
  repeat' (first | split | simp)

theorem execVec_frame (t : TileId) (s : State) :
    ∃ u, execVec t s = .next u ∧ u.boot = s.boot ∧ u.board = s.board ∧ u.clocks = s.clocks ∧ u.hatband = s.hatband ∧
    u.engines = s.engines ∧ u.free = s.free ∧ u.pending = s.pending := by
  unfold execVec
  try dsimp only
  repeat' (first | split | simp)

theorem execDma_frame (t : TileId) (s : State) :
    ∃ u, execDma t s = .next u ∧ u.boot = s.boot ∧ u.board = s.board ∧ u.clocks = s.clocks ∧ u.hatband = s.hatband ∧
    u.engines = s.engines ∧ u.free = s.free ∧ u.pending = s.pending := by
  unfold execDma
  try dsimp only
  repeat' (first | split | simp)

theorem execSend_frame (t : TileId) (s : State) :
    ∃ u, execSend t s = .next u ∧ u.boot = s.boot ∧ u.board = s.board ∧ u.clocks = s.clocks ∧ u.hatband = s.hatband ∧
    u.engines = s.engines ∧ u.free = s.free ∧ u.pending = s.pending := by
  unfold execSend
  try dsimp only
  repeat' (first | split | simp)

theorem execRecv_frame (t : TileId) (s : State) :
    ∃ u, execRecv t s = .next u ∧ u.boot = s.boot ∧ u.board = s.board ∧ u.clocks = s.clocks ∧ u.hatband = s.hatband ∧
    u.engines = s.engines ∧ u.free = s.free ∧ u.pending = s.pending := by
  unfold execRecv
  try dsimp only
  repeat' (first | split | simp)

theorem execLoop_frame (t : TileId) (s : State) :
    ∃ u, execLoop t s = .next u ∧ u.boot = s.boot ∧ u.board = s.board ∧ u.clocks = s.clocks ∧ u.hatband = s.hatband ∧
    u.engines = s.engines ∧ u.free = s.free ∧ u.pending = s.pending := by
  unfold execLoop
  try dsimp only
  repeat' (first | split | simp)

theorem execEndProgram_frame (t : TileId) (s : State) :
    ∃ u, execEndProgram t s = .next u ∧ u.boot = s.boot ∧ u.board = s.board ∧ u.clocks = s.clocks ∧ u.hatband = s.hatband ∧
    u.engines = s.engines ∧ u.free = s.free ∧ u.pending = s.pending := by
  unfold execEndProgram
  try dsimp only
  repeat' (first | split | simp)

theorem execPassComplete_frame (t : TileId) (s : State) :
    ∃ u, execPassComplete t s = .next u ∧ u.boot = s.boot ∧ u.board = s.board ∧ u.clocks = s.clocks ∧ u.host = s.host ∧
    u.parts = s.parts ∧ u.pf = s.pf ∧ u.jewel = s.jewel ∧ u.ports = s.ports ∧ u.hatband = s.hatband ∧ u.engines = s.engines ∧
    u.free = s.free ∧ u.pending = s.pending := by
  unfold execPassComplete
  try dsimp only
  repeat' (first | split | simp)

theorem execAccumReplay_frame (t : TileId) (s : State) :
    ∃ u, execAccumReplay t s = .next u ∧ u.pending = s.pending ∧ u.boot.flash = s.boot.flash ∧ u.boot.fuses = s.boot.fuses ∧
    u.boot.seed = s.boot.seed ∧ u.boot.dpk = s.boot.dpk := by
  unfold execAccumReplay
  try dsimp only
  repeat' (first | split | simp)

theorem execEpilogue_frame (t : TileId) (s : State) :
    ∃ u, execEpilogue t s = .next u ∧ u.boot = s.boot ∧ u.board = s.board ∧ u.clocks = s.clocks ∧ u.host = s.host ∧
    u.parts = s.parts ∧ u.pf = s.pf ∧ u.jewel = s.jewel ∧ u.ports = s.ports ∧ u.hatband = s.hatband ∧ u.engines = s.engines ∧
    u.free = s.free ∧ u.pending = s.pending := by
  unfold execEpilogue
  try dsimp only
  repeat' (first | split | simp)

theorem execVecComplete_frame (t : TileId) (s : State) :
    ∃ u, execVecComplete t s = .next u ∧ u.boot = s.boot ∧ u.board = s.board ∧ u.clocks = s.clocks ∧ u.host = s.host ∧
    u.parts = s.parts ∧ u.pf = s.pf ∧ u.jewel = s.jewel ∧ u.ports = s.ports ∧ u.hatband = s.hatband ∧ u.engines = s.engines ∧
    u.free = s.free ∧ u.pending = s.pending := by
  unfold execVecComplete
  try dsimp only
  repeat' (first | split | simp)

theorem execDmaComplete_frame (t : TileId) (i : Nat) (s : State) :
    ∃ u, execDmaComplete t i s = .next u ∧ u.boot = s.boot ∧ u.board = s.board ∧ u.clocks = s.clocks ∧ u.host = s.host ∧
    u.hatband = s.hatband ∧ u.engines = s.engines ∧ u.free = s.free ∧ u.pending = s.pending := by
  unfold execDmaComplete
  try dsimp only
  repeat' (first | split | simp)

theorem execMeshTransferDone_frame (src : TileId) (dst : TileId) (s : State) :
    ∃ u, execMeshTransferDone src dst s = .next u ∧ u.boot = s.boot ∧ u.board = s.board ∧ u.clocks = s.clocks ∧ u.host = s.host ∧
    u.hatband = s.hatband ∧ u.engines = s.engines ∧ u.free = s.free ∧ u.pending = s.pending := by
  unfold execMeshTransferDone
  try dsimp only
  repeat' (first | split | simp)

theorem execTileComplete_frame (t : TileId) (s : State) :
    ∃ u, execTileComplete t s = .next u ∧ u.pending = s.pending ∧ u.boot.flash = s.boot.flash ∧ u.boot.fuses = s.boot.fuses ∧
    u.boot.seed = s.boot.seed ∧ u.boot.dpk = s.boot.dpk := by
  unfold execTileComplete
  try dsimp only
  repeat' (first | split | simp)

end Sys2Proof.Machine
end

