-- ==== Sys2Proof/Laws/State.lean ====
section
/-! SUPPORT. What an update of one piece of the state gives at that piece, and that the other pieces stay. -/

namespace Sys2Proof.Machine

theorem vmod_same {α : Type} {n : Nat} (v : Vector α n) (i : Fin n) (f : α → α) : (vmod v i f)[i.val] = f v[i.val] := by
  simp [vmod]

theorem vmod_ne {α : Type} {n : Nat} (v : Vector α n) (i j : Fin n) (f : α → α) (h : j ≠ i) : (vmod v i f)[j.val] = v[j.val] := by
  have : i.val ≠ j.val := fun e => h (Fin.ext e.symm)
  simp [vmod, Vector.getElem_set_ne, this]

@[simp] theorem State.modPart_same (s : State) (p : PartId) (f : Part → Part) : (s.modPart p f).parts[p.val] = f s.parts[p.val] :=
  vmod_same _ _ _

@[simp] theorem State.modPart_ne (s : State) (p q : PartId) (f : Part → Part) (h : q ≠ p) :
    (s.modPart p f).parts[q.val] = s.parts[q.val] := vmod_ne _ _ _ _ h

@[simp] theorem State.modTile_same (s : State) (t : TileId) (f : Tile → Tile) : (s.modTile t f).tiles[t.val] = f s.tiles[t.val] :=
  vmod_same _ _ _

@[simp] theorem State.modTile_ne (s : State) (t u : TileId) (f : Tile → Tile) (h : u ≠ t) :
    (s.modTile t f).tiles[u.val] = s.tiles[u.val] := vmod_ne _ _ _ _ h

@[simp] theorem State.modPort_same (s : State) (q : PortId) (f : Port → Port) : (s.modPort q f).ports[q.val] = f s.ports[q.val] :=
  vmod_same _ _ _

@[simp] theorem State.modPort_ne (s : State) (q r : PortId) (f : Port → Port) (h : r ≠ q) :
    (s.modPort q f).ports[r.val] = s.ports[r.val] := vmod_ne _ _ _ _ h

@[simp] theorem State.modSlice_same (s : State) (t : TileId) (f : Seal → Seal) :
    (s.modSlice t f).tiles[t.val] = { s.tiles[t.val] with slice := f s.tiles[t.val].slice } := vmod_same _ _ _

@[simp] theorem State.modSlice_ne (s : State) (t u : TileId) (f : Seal → Seal) (h : u ≠ t) :
    (s.modSlice t f).tiles[u.val] = s.tiles[u.val] := vmod_ne _ _ _ _ h

@[simp] theorem State.modChan_same (s : State) (t : TileId) (k : ChanId) (f : Chan → Chan) :
    (s.modChan t k f).tiles[t.val] = { s.tiles[t.val] with chans := vmod s.tiles[t.val].chans k f } := vmod_same _ _ _

@[simp] theorem State.modChan_ne (s : State) (t u : TileId) (k : ChanId) (f : Chan → Chan) (h : u ≠ t) :
    (s.modChan t k f).tiles[u.val] = s.tiles[u.val] := vmod_ne _ _ _ _ h

@[simp] theorem State.modWin_some (s : State) (p : PartId) (g : Window → Window) :
    s.modWin (some p) g = s.modPart p fun x => { x with win := g x.win } := rfl

@[simp] theorem State.modDma_some (s : State) (p : PartId) (g : Dma → Dma) :
    s.modDma (some p) g = s.modPart p fun x => { x with dma := g x.dma } := rfl

@[simp] theorem State.modLog_some (s : State) (p : PartId) (g : ErrLog → ErrLog) :
    s.modLog (some p) g = s.modPart p fun x => { x with log := g x.log } := rfl

theorem State.modPart_modPart (s : State) (p : PartId) (f g : Part → Part) :
    (s.modPart p f).modPart p g = s.modPart p fun x => g (f x) := by
  simp [State.modPart, vmod]

@[simp] theorem State.modWin_win (s : State) (f : Fn) (g : Window → Window) : (s.modWin f g).win f = g (s.win f) := by
  cases f <;> simp [State.modWin, State.win]

theorem State.modWin_win_ne (s : State) (f h : Fn) (g : Window → Window) (e : h ≠ f) : (s.modWin f g).win h = s.win h := by
  cases f with
  | none => cases h with
    | none => exact absurd rfl e
    | some q => rfl
  | some p => cases h with
    | none => rfl
    | some q =>
      have : q ≠ p := fun k => e (by rw [k])
      simp [State.win, this]

end Sys2Proof.Machine
end

