-- ==== Sys2Proof/Laws/Only.lean ====
section
/-! SUPPORT. Frames within the vectors: what the shared operations of one partition leave of the others, and how a command
ends. -/

namespace Sys2Proof.Machine

theorem OnlyPart.refl (s : State) (p : PartId) : OnlyPart s s p := ⟨rfl, fun _ _ => rfl⟩

theorem OnlyPart.trans {s t u : State} {p : PartId} (h : OnlyPart s t p) (k : OnlyPart t u p) : OnlyPart s u p := by
  obtain ⟨h1, h2⟩ := h
  obtain ⟨k1, k2⟩ := k
  refine ⟨?_, fun q hq => (k2 q hq).trans (h2 q hq)⟩
  rw [k1, h1]

theorem OnlyPart.modPart (s : State) (p : PartId) (f : Part → Part) : OnlyPart s (s.modPart p f) p :=
  ⟨rfl, fun q hq => by simp [hq]⟩

theorem PartAndMarks.refl (s : State) (p : PartId) : PartAndMarks s s p := ⟨rfl, fun _ _ => rfl, fun _ => rfl⟩

theorem PartAndMarks.trans {s t u : State} {p : PartId} (h : PartAndMarks s t p) (k : PartAndMarks t u p) : PartAndMarks s u p := by
  obtain ⟨h1, h2, h3⟩ := h
  obtain ⟨k1, k2, k3⟩ := k
  refine ⟨?_, fun q hq => (k2 q hq).trans (h2 q hq), fun x => ?_⟩
  · rw [k1, h1]
  · rw [k3 x, h3 x]

theorem OnlyPart.marks {s t : State} {p : PartId} (h : OnlyPart s t p) : PartAndMarks s t p := by
  obtain ⟨h1, h2⟩ := h
  have h3 : t.tiles = s.tiles := by rw [h1]
  exact ⟨by rw [h3]; exact h1, h2, fun x => by rw [h3]⟩

/-- A mark let go on one tile. -/
theorem PartAndMarks.modTile (s : State) (p : PartId) (x : TileId) (b : Bool) :
    PartAndMarks s (s.modTile x fun y => { y with marked := b }) p := by
  refine ⟨by simp [State.modTile], fun _ _ => rfl, fun y => ?_⟩
  by_cases h : y = x
  · subst h; simp
  · simp [h]

theorem PartAndMarks.foldTiles {α : Type} (p : PartId) (g : α → TileId) (l : List α) (s : State) :
    PartAndMarks s (l.foldl (fun s m => s.modTile (g m) fun y => { y with marked := false }) s) p := by
  induction l generalizing s with
  | nil => exact PartAndMarks.refl _ _
  | cons a l ih => exact (PartAndMarks.modTile s p (g a) false).trans (ih _)

theorem PartAndMarks.unmark (s : State) (p : PartId) (c : Cmd) : PartAndMarks s (s.unmark p c) p := by
  unfold State.unmark
  split
  · exact PartAndMarks.refl _ _
  · exact (PartAndMarks.foldTiles p (fun m : TileId × Nat × Nat => m.1) _ s).trans (OnlyPart.modPart _ _ _).marks

theorem FnAndMarks.refl (s : State) (f : Fn) : FnAndMarks s s f := by
  cases f with
  | none => rfl
  | some p => exact PartAndMarks.refl s p

theorem OnlyFn.refl (s : State) (f : Fn) : OnlyFn s s f := by
  cases f with
  | none => rfl
  | some p => exact OnlyPart.refl s p

theorem OnlyFn.trans {s t u : State} {f : Fn} (h : OnlyFn s t f) (k : OnlyFn t u f) : OnlyFn s u f := by
  cases f with
  | none =>
    simp only [OnlyFn] at *
    rw [k, h]
  | some p => exact OnlyPart.trans h k

theorem OnlyFn.marks {s t : State} {f : Fn} (h : OnlyFn s t f) : FnAndMarks s t f := by
  cases f with
  | none => exact h
  | some p => exact OnlyPart.marks h

theorem FnAndMarks.trans {s t u : State} {f : Fn} (h : FnAndMarks s t f) (k : FnAndMarks t u f) : FnAndMarks s u f := by
  cases f with
  | none => exact OnlyFn.trans (f := none) h k
  | some p => exact PartAndMarks.trans h k

theorem OnlyFn.modWin (s : State) (f : Fn) (g : Window → Window) : OnlyFn s (s.modWin f g) f := by
  cases f with
  | none => rfl
  | some p => exact OnlyPart.modPart s p _

theorem OnlyFn.modDma (s : State) (f : Fn) (g : Dma → Dma) : OnlyFn s (s.modDma f g) f := by
  cases f with
  | none => rfl
  | some p => exact OnlyPart.modPart s p _

theorem OnlyFn.modLog (s : State) (f : Fn) (g : ErrLog → ErrLog) : OnlyFn s (s.modLog f g) f := by
  cases f with
  | none => rfl
  | some p => exact OnlyPart.modPart s p _

theorem OnlyFn.postRecord (s : State) (f : Fn) (u : Bool) (c : Cmd) (bs : Bytes) : OnlyFn s (s.postRecord f u c bs) f :=
  OnlyFn.modDma _ _ _

theorem OnlyFn.setBad (s : State) (f : Fn) (u : Bool) (b : Option Nat) : OnlyFn s (s.setBad f u b) f := by
  cases f with
  | none => cases u <;> rfl
  | some p => exact OnlyPart.modPart s p _

theorem OnlyFn.passSlot (s : State) (f : Fn) (u : Bool) : OnlyFn s (s.passSlot f u) f := OnlyFn.modWin _ _ _

theorem OnlyPart.episodeClose (s : State) (p : PartId) : OnlyPart s (s.episodeClose p) p := OnlyPart.modPart _ _ _

theorem OnlyFn.completeNow (s : State) (f : Fn) (u : Bool) (q : Nat) (r : Result) (b : Bool) :
    OnlyFn s (s.completeNow f u q r b) f := by
  unfold State.completeNow
  split
  · exact OnlyFn.refl _ _
  · dsimp only
    split
    · exact (OnlyFn.modWin _ _ _).trans (OnlyFn.postRecord _ _ _ _ _)
    · cases f with
      | none => exact (OnlyFn.modWin _ _ _).trans (OnlyFn.modLog _ _ _)
      | some p =>
        exact ((OnlyFn.modWin s (some p) _).trans (OnlyFn.modLog _ _ _)).trans (OnlyPart.episodeClose _ p)

theorem OnlyFn.complete (s : State) (f : Fn) (u : Bool) (q : Nat) (r : Result) : OnlyFn s (s.complete f u q r) f := by
  unfold State.complete
  split
  · exact OnlyFn.refl _ _
  · exact OnlyFn.completeNow _ _ _ _ _ _

theorem FnAndMarks.endUnstarted (s : State) (f : Fn) (e : InFlight) (st : Nat) : FnAndMarks s (s.endUnstarted f e st) f := by
  unfold State.endUnstarted
  cases f with
  | none => exact OnlyFn.complete s none _ _ _
  | some p => exact (PartAndMarks.unmark s p e.cmd).trans (OnlyFn.complete _ (some p) _ _ _).marks

theorem FnAndMarks.settle (s : State) (f : Fn) (n : Nat) : FnAndMarks s (s.settle f n) f := by
  induction n generalizing s with
  | zero => exact FnAndMarks.refl _ _
  | succ n ih =>
    unfold State.settle
    split
    · exact FnAndMarks.refl _ _
    · exact (FnAndMarks.endUnstarted _ _ _ _).trans (ih _)

theorem FnAndMarks.settled (s : State) (f : Fn) : FnAndMarks s (s.settled f) f := FnAndMarks.settle _ _ _

theorem OnlyFn.modInFlight (s : State) (f : Fn) (u : Bool) (q : Nat) (g : InFlight → InFlight) :
    OnlyFn s (s.modInFlight f u q g) f := OnlyFn.modWin _ _ _

theorem OnlyFn.start (s : State) (f : Fn) (u : Bool) (q : Nat) : OnlyFn s (s.start f u q) f :=
  OnlyFn.modInFlight _ _ _ _ _

theorem OnlyFn.refuse (s : State) (f : Fn) (u : Bool) (c : Cmd) (st : Nat) : OnlyFn s (s.refuse f u c st) f := by
  unfold State.refuse
  dsimp only
  split
  · exact (OnlyFn.modWin _ _ _).trans (OnlyFn.postRecord _ _ _ _ _)
  · exact OnlyFn.modWin _ _ _

theorem OnlyPart.startReset (s : State) (p : PartId) (a b : Bool) : OnlyPart s (s.startReset p a b) p := by
  unfold State.startReset
  dsimp only
  split
  · exact OnlyPart.modPart _ _ _
  · split <;> first
      | exact OnlyPart.refl _ _
      | exact (OnlyFn.modWin s (some p) _ : OnlyPart _ _ _).trans (OnlyPart.modPart _ _ _)

theorem episodeClose_part (s : State) (p : PartId) :
    ∃ l, s.episodeClose p = s.modPart p fun x => { x with log := l } := by
  unfold State.episodeClose State.modPart vmod
  dsimp only
  split
  · split
    · exact ⟨_, rfl⟩
    · exact ⟨s.parts[p].log, rfl⟩
  · exact ⟨s.parts[p].log, rfl⟩

@[simp] theorem modLog_win (s : State) (f : Fn) (g : ErrLog → ErrLog) : (s.modLog f g).win f = s.win f := by
  cases f <;> simp [State.modLog, State.win]

@[simp] theorem modLog_dma (s : State) (f : Fn) (g : ErrLog → ErrLog) : (s.modLog f g).dma f = s.dma f := by
  cases f <;> simp [State.modLog, State.dma]

@[simp] theorem modWin_dma (s : State) (f : Fn) (g : Window → Window) : (s.modWin f g).dma f = s.dma f := by
  cases f <;> simp [State.modWin, State.dma]

@[simp] theorem modDma_win (s : State) (f : Fn) (g : Dma → Dma) : (s.modDma f g).win f = s.win f := by
  cases f <;> simp [State.modDma, State.win]

@[simp] theorem modDma_dma (s : State) (f : Fn) (g : Dma → Dma) : (s.modDma f g).dma f = g (s.dma f) := by
  cases f <;> simp [State.modDma, State.dma]

@[simp] theorem modWin_seqCount (s : State) (f : Fn) (g : Window → Window) : (s.modWin f g).seqCount f = s.seqCount f := by
  cases f <;> simp [State.modWin, State.seqCount]

@[simp] theorem episodeClose_win (s : State) (p : PartId) : (s.episodeClose p).win (some p) = s.win (some p) := by
  obtain ⟨l, h⟩ := episodeClose_part s p
  simp [h, State.win]

@[simp] theorem episodeClose_dma (s : State) (p : PartId) : (s.episodeClose p).dma (some p) = s.dma (some p) := by
  obtain ⟨l, h⟩ := episodeClose_part s p
  simp [h, State.dma]

theorem episodeClose_log (s : State) (p : PartId) :
    (s.episodeClose p).parts[p] = { s.parts[p] with log := (s.episodeClose p).parts[p].log } := by
  obtain ⟨l, h⟩ := episodeClose_part s p
  rw [h]; simp

theorem CommandSide.refl (a : Part) : CommandSide a a := rfl

theorem CommandSide.trans {a b c : Part} (h : CommandSide a b) (k : CommandSide b c) : CommandSide a c := by
  unfold CommandSide at *
  rw [k, h]

theorem CommandSide.fields {a b : Part} (h : CommandSide a b) :
    b.pstate = a.pstate ∧ b.count = a.count ∧ b.badMain = a.badMain ∧ b.badUrg = a.badUrg ∧ b.job = a.job ∧
    b.slotSecrets = a.slotSecrets ∧ b.treeSecret = a.treeSecret ∧ b.integ = a.integ ∧ b.ilock = a.ilock ∧ b.vbase = a.vbase ∧
    b.pwrDis = a.pwrDis ∧ b.pwrLogged = a.pwrLogged ∧ b.reset = a.reset ∧ b.pounce = a.pounce ∧ b.service = a.service ∧
    b.run = a.run ∧ b.runStop = a.runStop ∧ b.runEnd = a.runEnd ∧ b.regAtRun = a.regAtRun ∧ b.copies = a.copies ∧
    b.streams = a.streams ∧ b.card = a.card ∧ b.fuller = a.fuller ∧ b.asm = a.asm ∧ b.inbox2 = a.inbox2 ∧
    b.inbox3 = a.inbox3 := by
  unfold CommandSide at h
  rw [h]
  simp

/-- A completion touches the window, the queue of posted writes and the log of its partition. -/
theorem completeNow_side (s : State) (p : PartId) (u : Bool) (q : Nat) (r : Result) (b : Bool) :
    CommandSide s.parts[p] (s.completeNow (some p) u q r b).parts[p] := by
  unfold State.completeNow
  split
  · rfl
  · dsimp only
    split
    · simp [State.postRecord, CommandSide]
    · unfold CommandSide; rw [episodeClose_log]; simp [State.episodeForget]

theorem complete_side (s : State) (p : PartId) (u : Bool) (q : Nat) (r : Result) :
    CommandSide s.parts[p] (s.complete (some p) u q r).parts[p] := by
  unfold State.complete
  split
  · rfl
  · exact completeNow_side _ _ _ _ _ _

/-- What the end of waiting commands leaves of a partition: all but its command side and which tiles its marks name. -/
def SettleSide (a b : Part) : Prop := b = { a with win := b.win, dma := b.dma, log := b.log, fuller := { a.fuller with marks := b.fuller.marks } }

theorem CommandSide.settle {a b : Part} (h : CommandSide a b) : SettleSide a b := by
  unfold CommandSide at h; unfold SettleSide; rw [h]

theorem SettleSide.trans {a b c : Part} (h : SettleSide a b) (k : SettleSide b c) : SettleSide a c := by
  unfold SettleSide at *
  rw [k, h]

theorem SettleSide.fields {a b : Part} (h : SettleSide a b) :
    b.pstate = a.pstate ∧ b.count = a.count ∧ b.badMain = a.badMain ∧ b.badUrg = a.badUrg ∧ b.job = a.job ∧
    b.slotSecrets = a.slotSecrets ∧ b.treeSecret = a.treeSecret ∧ b.integ = a.integ ∧ b.ilock = a.ilock ∧ b.vbase = a.vbase ∧
    b.pwrDis = a.pwrDis ∧ b.pwrLogged = a.pwrLogged ∧ b.reset = a.reset ∧ b.pounce = a.pounce ∧ b.service = a.service ∧
    b.run = a.run ∧ b.runStop = a.runStop ∧ b.runEnd = a.runEnd ∧ b.regAtRun = a.regAtRun ∧ b.copies = a.copies ∧
    b.streams = a.streams ∧ b.card = a.card ∧ b.asm = a.asm ∧ b.inbox2 = a.inbox2 ∧ b.inbox3 = a.inbox3 := by
  unfold SettleSide at h
  rw [h]
  simp

theorem unmark_side (s : State) (p : PartId) (c : Cmd) : SettleSide s.parts[p] (s.unmark p c).parts[p] ∧
    (s.unmark p c).parts[p].win = s.parts[p].win ∧ (s.unmark p c).parts[p].dma = s.parts[p].dma ∧ (s.unmark p c).parts[p].log = s.parts[p].log := by
  generalize ht : s.unmark p c = t
  unfold State.unmark at ht
  split at ht
  · subst ht; exact ⟨rfl, rfl, rfl, rfl⟩
  · subst ht
    simp [SettleSide]

theorem endUnstarted_side (s : State) (p : PartId) (e : InFlight) (st : Nat) :
    SettleSide s.parts[p] (s.endUnstarted (some p) e st).parts[p] :=
  (unmark_side s p e.cmd).1.trans (complete_side _ p _ _ _).settle

theorem settle_side (s : State) (p : PartId) (n : Nat) : SettleSide s.parts[p] (s.settle (some p) n).parts[p] := by
  induction n generalizing s with
  | zero => rfl
  | succ n ih =>
    generalize ht : s.settle (some p) (n + 1) = t
    unfold State.settle at ht
    split at ht
    · subst ht; rfl
    · subst ht; exact (endUnstarted_side s p _ _).trans (ih _)

theorem settled_side (s : State) (p : PartId) : SettleSide s.parts[p] (s.settled (some p)).parts[p] := settle_side _ _ _

/-- A command no reset has in store completes at once. -/
theorem complete_now (s : State) (f : Fn) (e : InFlight) (r : Result) (h : s.inFlight f e.urgent e.cmd.seq = some e) (he : e.ends = none) :
    s.complete f e.urgent e.cmd.seq r = s.completeNow f e.urgent e.cmd.seq r := by
  simp [State.complete, h, he]

/-- `completeNow` on a command of the table ends it (R319, R329, R332). -/
theorem completeNow_ended (s : State) (f : Fn) (e : InFlight) (r : Result) (hf : r.flags = 0) (hm : r.maxw = 0)
    (h : s.inFlight f e.urgent e.cmd.seq = some e) : Ended s (s.completeNow f e.urgent e.cmd.seq r) f e r.status r.cls r.result := by
  obtain ⟨st, c, re, fl, mx⟩ := r
  subst hf hm
  unfold State.completeNow
  rw [h]
  unfold Ended
  by_cases hc : e.cmd.cpl = 0
  · have hw : ∀ (u : State) (b : Bool) (q : Nat), (u.episodeForget f b q).win f = u.win f ∧ (u.episodeForget f b q).dma f = u.dma f := by
      intro u b q; exact ⟨modLog_win _ _ _, modLog_dma _ _ _⟩
    simp only [hc]; cases f <;> simp [hw, -State.modWin_some]
  · simp [hc, recordWrites, State.postRecord, -State.modWin_some, -State.modDma_some]

/-- `complete` on a command of the table that no reset ends (R319, R329, R332). -/
theorem complete_ended (s : State) (f : Fn) (e : InFlight) (r : Result) (hf : r.flags = 0) (hm : r.maxw = 0)
    (h : s.inFlight f e.urgent e.cmd.seq = some e) (he : e.ends = none) :
    Ended s (s.complete f e.urgent e.cmd.seq r) f e r.status r.cls r.result := by
  rw [complete_now s f e r h he]; exact completeNow_ended s f e r hf hm h

end Sys2Proof.Machine
end

