-- ==== Sys2Proof/Laws/Window.lean ====
section
/-! SUPPORT. The operations on a command window: what a slot taken, a start, a completion, an abort and a timeout leave as it was. -/

set_option linter.unusedSimpArgs false
set_option linter.unusedVariables false

namespace Sys2Proof.Machine

theorem setBad_win (s : State) (f : Fn) (u : Bool) (b : Option Nat) : (s.setBad f u b).win f = s.win f := by
  cases f <;> cases u <;> simp [State.setBad, State.win]

theorem setBad_dma (s : State) (f : Fn) (u : Bool) (b : Option Nat) : (s.setBad f u b).dma f = s.dma f := by
  cases f <;> cases u <;> simp [State.setBad, State.dma]

theorem setBad_badAt (s : State) (f : Fn) (u : Bool) (b : Option Nat) : (s.setBad f u b).badAt f u = b := by
  cases f <;> cases u <;> simp [State.setBad, State.badAt]

theorem setBad_seqCount (s : State) (f : Fn) (u : Bool) (b : Option Nat) : (s.setBad f u b).seqCount f = s.seqCount f := by
  cases f <;> cases u <;> simp [State.setBad, State.seqCount]

theorem modWin_badAt (s : State) (f : Fn) (u : Bool) (g : Window → Window) : (s.modWin f g).badAt f u = s.badAt f u := by
  cases f <;> simp [State.modWin, State.badAt]

theorem modDma_badAt (s : State) (f : Fn) (u : Bool) (g : Dma → Dma) : (s.modDma f g).badAt f u = s.badAt f u := by
  cases f <;> simp [State.modDma, State.badAt]

theorem episodeForget_badAt (s : State) (f : Fn) (u v : Bool) (q : Nat) : (s.episodeForget f u q).badAt f v = s.badAt f v := by
  cases f <;> simp [State.episodeForget, State.modLog, State.badAt]

theorem completeNow_badAt (s : State) (f : Fn) (u v : Bool) (q : Nat) (r : Result) (b : Bool) :
    (s.completeNow f u q r b).badAt f v = s.badAt f v := by
  unfold State.completeNow
  split
  · rfl
  · dsimp only
    split
    · simp only [State.postRecord, modDma_badAt, modWin_badAt]
    · cases f with
      | none => simp only [episodeForget_badAt, modWin_badAt]
      | some p =>
        have h2 : ∀ s : State, (s.episodeClose p).badAt (some p) v = s.badAt (some p) v := by
          intro s
          obtain ⟨l, hl⟩ := episodeClose_part s p
          rw [hl]; simp [State.badAt]
        rw [h2]
        simp only [episodeForget_badAt, modWin_badAt]

theorem complete_badAt (s : State) (f : Fn) (u v : Bool) (q : Nat) (r : Result) : (s.complete f u q r).badAt f v = s.badAt f v := by
  unfold State.complete
  split
  · rfl
  · exact completeNow_badAt _ _ _ _ _ _ _

theorem endUnstarted_badAt (s : State) (f : Fn) (e : InFlight) (st : Nat) (v : Bool) :
    (s.endUnstarted f e st).badAt f v = s.badAt f v := by
  unfold State.endUnstarted
  rw [complete_badAt]
  cases f with
  | none => rfl
  | some p => have := (unmark_side s p e.cmd).1.fields; simp only [State.badAt, this]

def WindowFrame (w w' : Window) : Prop := w' = { w with table := w'.table, tags := w'.tags, fenceCnt := w'.fenceCnt }

theorem WindowFrame.refl (w : Window) : WindowFrame w w := rfl

theorem WindowFrame.trans {a b c : Window} (h : WindowFrame a b) (k : WindowFrame b c) : WindowFrame a c := by
  unfold WindowFrame at *; rw [k, h]

theorem WindowFrame.fields {a b : Window} (h : WindowFrame a b) : b.mcur = a.mcur ∧ b.mseq = a.mseq ∧ b.mexp = a.mexp ∧ b.ucur = a.ucur ∧
    b.useq = a.useq ∧ b.uexp = a.uexp ∧ b.slots = a.slots := by
  unfold WindowFrame at h; rw [h]; simp

theorem completeNow_slots (s : State) (f : Fn) (u : Bool) (q : Nat) (r : Result) (b : Bool) :
    WindowFrame (s.win f) ((s.completeNow f u q r b).win f) := by
  unfold State.completeNow
  split
  · exact WindowFrame.refl _
  · dsimp only
    split
    · rw [State.postRecord, modDma_win, State.modWin_win]; rfl
    · cases f with
      | none => rw [State.episodeForget, modLog_win, State.modWin_win]; rfl
      | some p => dsimp only; rw [episodeClose_win, State.episodeForget, modLog_win, State.modWin_win]; rfl

theorem complete_slots (s : State) (f : Fn) (u : Bool) (q : Nat) (r : Result) :
    WindowFrame (s.win f) ((s.complete f u q r).win f) := by
  unfold State.complete
  split
  · exact WindowFrame.refl _
  · exact completeNow_slots _ _ _ _ _ _

theorem unmark_win (s : State) (p : PartId) (c : Cmd) : (s.unmark p c).win (some p) = s.win (some p) := (unmark_side s p c).2.1

theorem unmark_dma (s : State) (p : PartId) (c : Cmd) : (s.unmark p c).dma (some p) = s.dma (some p) := (unmark_side s p c).2.2.1

theorem unmark_seqCount (s : State) (p : PartId) (c : Cmd) : (s.unmark p c).seqCount (some p) = s.seqCount (some p) :=
  (unmark_side s p c).1.fields.2.1

theorem endUnstarted_slots (s : State) (f : Fn) (e : InFlight) (st : Nat) : WindowFrame (s.win f) ((s.endUnstarted f e st).win f) := by
  unfold State.endUnstarted
  cases f with
  | none => exact complete_slots _ _ _ _ _
  | some p =>
    have h := complete_slots (s.unmark p e.cmd) (some p) e.urgent e.cmd.seq { status := st }
    rwa [unmark_win] at h

theorem settle_slots (s : State) (f : Fn) (n : Nat) : WindowFrame (s.win f) ((s.settle f n).win f) := by
  induction n generalizing s with
  | zero => exact WindowFrame.refl _
  | succ n ih =>
    unfold State.settle
    split
    · exact WindowFrame.refl _
    · exact (endUnstarted_slots s f _ _).trans (ih _)

theorem settle_badAt (s : State) (f : Fn) (u : Bool) (n : Nat) : (s.settle f n).badAt f u = s.badAt f u := by
  induction n generalizing s with
  | zero => rfl
  | succ n ih =>
    unfold State.settle
    split
    · rfl
    · rw [ih, endUnstarted_badAt]

theorem refusal_passSlot (s : State) (f : Fn) (u : Bool) (b : Option Nat) (c : Cmd) :
    ((s.passSlot f u).setBad f u b).refusal f u c = s.refusal f u c := by
  unfold State.refusal State.gate State.jobOk State.jobNum State.tagHeld State.waitsKnown State.extentOk State.ownTile
  have ht : ∀ p, ((s.passSlot f u).setBad f u b).tilesOf p = s.tilesOf p := by
    intro p; cases f <;> cases u <;> rfl
  have hw : (((s.passSlot f u).setBad f u b).win f).table = (s.win f).table ∧ (((s.passSlot f u).setBad f u b).win f).tags = (s.win f).tags := by
    rw [setBad_win, State.passSlot, State.modWin_win]; cases u <;> simp
  simp only [hw, ht]
  cases f with
  | none => cases u <;> rfl
  | some p =>
    have hp : ((s.passSlot (some p) u).setBad (some p) u b).parts[p].pstate = s.parts[p].pstate ∧
        ((s.passSlot (some p) u).setBad (some p) u b).parts[p].ilock = s.parts[p].ilock ∧
        ((s.passSlot (some p) u).setBad (some p) u b).parts[p].job = s.parts[p].job := by
      cases u <;> simp [State.setBad, State.passSlot]
    simp only [hp]

theorem inFlight_congr (s t : State) (f : Fn) (u : Bool) (q : Nat) (h : (t.win f).table = (s.win f).table) :
    t.inFlight f u q = s.inFlight f u q := by unfold State.inFlight; rw [h]

theorem headOf_fence (s : State) (f : Fn) (e : InFlight) (h : s.headOf f .fence = some e) : (s.mains f).head? = some e := by
  unfold State.headOf at h
  dsimp only at h
  split at h
  · cases h
  · rename_i i hi
    split at h
    · rename_i hc
      simp only [Bool.and_eq_true, List.isEmpty_iff] at hc
      have hi0 : i = 0 := by
        rcases Nat.eq_zero_or_pos i with h0 | h0
        · exact h0
        · have hl := List.findIdx?_eq_some_iff_getElem.mp hi |>.1
          have := congrArg List.length hc.1
          simp at this
          rcases this with h9 | h9
          · omega
          · simp [h9] at hl
      subst hi0
      rw [List.head?_eq_getElem?]; exact h
    · cases h

theorem headOf_before (s : State) (f : Fn) (e x : InFlight) (l r : List InFlight) (k : CmdClass) (hm : s.mains f = l ++ e :: r)
    (he : State.clsOf e = .fence) (h : s.headOf f k = some x) : x ∈ l ∨ x = e := by
  unfold State.headOf at h
  dsimp only at h
  split at h
  · cases h
  · rename_i i hi
    rw [Option.ite_none_right_eq_some] at h
    obtain ⟨hc, h⟩ := h
    rw [Bool.and_eq_true, Bool.not_eq_true', List.any_eq_false] at hc
    have hle : i ≤ l.length := by
      refine Classical.byContradiction fun hgt => hc.2 e ?_ (by simp [he])
      rw [hm]
      refine List.mem_iff_getElem?.mpr ⟨l.length, ?_⟩
      rw [List.getElem?_take_of_lt (by omega)]
      simp
    rw [hm] at h
    rcases Nat.lt_or_eq_of_le hle with h1 | h1
    · rw [List.getElem?_append_left h1] at h
      exact .inl (List.mem_of_getElem? h)
    · right
      subst h1
      simpa using h.symm

theorem start_inFlight (s : State) (f : Fn) (e : InFlight) (h : s.inFlight f e.urgent e.cmd.seq = some e) :
    (s.start f e.urgent e.cmd.seq).inFlight f e.urgent e.cmd.seq = some { e with started := some (s.seqCount f) } := by
  unfold State.inFlight at *
  simp only [State.start, State.modInFlight, State.modWin_win]
  rw [List.find?_map]
  have : ((fun x : InFlight => x.urgent == e.urgent && x.cmd.seq == e.cmd.seq) ∘ fun x =>
      if (x.urgent == e.urgent && x.cmd.seq == e.cmd.seq) = true then { x with started := some (s.seqCount f) } else x) =
      fun x => x.urgent == e.urgent && x.cmd.seq == e.cmd.seq := by
    funext x; simp only [Function.comp]; split <;> simp_all
  rw [this, h]; simp

theorem start_table (s : State) (f : Fn) (u : Bool) (q : Nat) :
    ((s.start f u q).win f).table.filter (fun x => !(x.urgent == u && x.cmd.seq == q)) =
      (s.win f).table.filter (fun x => !(x.urgent == u && x.cmd.seq == q)) := by
  simp only [State.start, State.modInFlight, State.modWin_win]
  induction (s.win f).table with
  | nil => rfl
  | cons x xs ih =>
    simp only [List.map_cons, List.filter_cons, ih]
    by_cases h : (x.urgent == u && x.cmd.seq == q) = true
    · simp [h]
    · simp [h]

theorem start_tags (s : State) (f : Fn) (u : Bool) (q : Nat) : ((s.start f u q).win f).tags = (s.win f).tags ∧
    (s.start f u q).dma f = s.dma f ∧ (s.start f u q).seqCount f = s.seqCount f := by
  simp only [State.start, State.modInFlight, State.modWin_win, modWin_dma, modWin_seqCount, and_self]

/-- What the start of a command and its end come to. -/
theorem start_complete_ended (s v : State) (f : Fn) (e : InFlight) (r : Result) (hf : r.flags = 0) (hm : r.maxw = 0) (he : e.ends = none)
    (h : s.inFlight f e.urgent e.cmd.seq = some e) (hw : v.win f = (s.start f e.urgent e.cmd.seq).win f)
    (hd : v.dma f = s.dma f) (hq : v.seqCount f = s.seqCount f) :
    Ended s (v.complete f e.urgent e.cmd.seq r) f e r.status r.cls r.result := by
  have hi := start_inFlight s f e h
  rw [← inFlight_congr (s.start f e.urgent e.cmd.seq) v f _ _ (by rw [hw])] at hi
  have := complete_ended v f { e with started := some (s.seqCount f) } r hf hm hi he
  obtain ⟨a, b, c⟩ := this
  refine ⟨?_, ?_, ?_⟩
  · rw [a, hw]; exact start_table s f _ _
  · rw [b, hw, (start_tags s f _ _).1]
  · rw [c, hd, hq]; rfl

theorem complete_vbase (s : State) (p : PartId) (u : Bool) (q : Nat) (r : Result) :
    (s.complete (some p) u q r).parts[p].vbase = s.parts[p].vbase := by
  exact (complete_side s p u q r).fields.2.2.2.2.2.2.2.2.2.1

theorem start_vbase (s : State) (p : PartId) (u : Bool) (q : Nat) : (s.start (some p) u q).parts[p].vbase = s.parts[p].vbase := by
  simp [State.start, State.modInFlight]

theorem fit_len (n : Nat) (b : Bytes) : (fit n b).length = n := by simp [fit, zeros]; omega

theorem abortTarget_only (s : State) (f : Fn) (a : InFlight) : FnAndMarks s (s.abortTarget f a) f := by
  unfold State.abortTarget
  dsimp only
  split
  · exact (OnlyFn.complete _ _ _ _ _).marks
  · split
    · exact (FnAndMarks.endUnstarted _ _ _ _).trans (OnlyFn.complete _ _ _ _ _).marks
    · split
      · exact OnlyFn.marks (((OnlyFn.modInFlight _ _ _ _ _).trans (OnlyFn.complete _ _ _ _ _)).trans (OnlyPart.startReset _ _ _ _))
      · exact (OnlyFn.complete _ _ _ _ _).marks

theorem inFlight_filter (s t : State) (f : Fn) (u v : Bool) (q r : Nat) (h : (t.win f).table = (s.win f).table.filter (fun x => !(x.urgent == u && x.cmd.seq == q)))
    (hn : v ≠ u ∨ r ≠ q) : t.inFlight f v r = s.inFlight f v r := by
  unfold State.inFlight
  rw [h, List.find?_filter]
  congr 1
  funext x
  by_cases hx : (x.urgent == v && x.cmd.seq == r) = true
  · simp at hx
    rcases hn with hn | hn <;> simp [hx, hn]
  · simp [hx]

theorem markEnds_table (s : State) (p : PartId) : ((s.markEnds p).parts[p]).win.table =
    s.parts[p].win.table.map fun e => { e with ends := some (e.ends.getD stCut) } := by simp [State.markEnds]

theorem OnlyPart.meetClass (s : State) (p : PartId) (c : Option (Bool × Nat)) (k : Nat) : OnlyPart s (s.meetClass p c k) p := by
  unfold State.meetClass; split
  · exact OnlyPart.refl _ _
  · exact OnlyFn.modInFlight s (some p) _ _ _

/-- What raising TIMEOUT does where no episode of the partition has reached that level. -/
theorem raise_timeout (s : State) (p : PartId) (d : Nat) (c : Bool × Nat) :
    OnlyPart s (s.raise p 0x30 0xFF 0 d (some c)) p ∧
    (∀ r, s.parts[p].reset = some r → (s.raise p 0x30 0xFF 0 d (some c)).parts[p].reset = some r ∧
      (s.raise p 0x30 0xFF 0 d (some c)).parts[p].pstate = s.parts[p].pstate ∧
      (s.raise p 0x30 0xFF 0 d (some c)).parts[p].win.table.map (fun e => (e.cmd, e.urgent, e.ends)) = s.parts[p].win.table.map (fun e => (e.cmd, e.urgent, e.ends))) ∧
    (s.parts[p].reset = none → (s.parts[p].pstate = .idle ∨ s.parts[p].pstate = .opening ∨ s.parts[p].pstate = .running) →
      (s.parts[p].log.episode.map (·.level)).getD 0 < 4 →
      (s.raise p 0x30 0xFF 0 d (some c)).parts[p].reset = some ⟨0, s.parts[p].pstate, s.clocks.jewel, false, false, false⟩ ∧
      (s.raise p 0x30 0xFF 0 d (some c)).parts[p].pstate = .resetting ∧
      (s.raise p 0x30 0xFF 0 d (some c)).parts[p].win.table.map (fun e => (e.cmd, e.urgent, e.ends)) = s.parts[p].win.table.map (fun e => (e.cmd, e.urgent, some (e.ends.getD stCut)))) := by
  have hx : s.raise p 0x30 0xFF 0 d (some c) =
    (let v := (s.meetClass p (some c) 4).modLog (some p) fun l => l.add (s.meetClass p (some c) 4).parts[p].count 0x30 0xFF 0 d (some c) (s.meetClass p (some c) 4).parts[p].reset.isSome
     if (s.parts[p].log.episode.map (·.level)).getD 0 < 4 then v.startReset p false false else v).episodeClose p := by
    unfold State.raise; simp [ErrLog.clsOf]
  dsimp only at hx
  generalize hv : (s.meetClass p (some c) 4).modLog (some p) _ = v at hx
  have h1 : OnlyPart s v p := by rw [← hv]; exact (OnlyPart.meetClass _ _ _ _).trans (OnlyFn.modLog _ (some p) _)
  have h2 : v.parts[p].reset = s.parts[p].reset ∧ v.parts[p].pstate = s.parts[p].pstate ∧ v.clocks = s.clocks ∧
      v.parts[p].win.table.map (fun e => (e.cmd, e.urgent, e.ends)) = s.parts[p].win.table.map (fun e => (e.cmd, e.urgent, e.ends)) := by
    rw [← hv]; simp [State.meetClass, State.modInFlight]; intro e _; split <;> simp
  have h3 : v.parts[p].win.table.map (fun e => (e.cmd, e.urgent, some (e.ends.getD stCut))) = s.parts[p].win.table.map (fun e => (e.cmd, e.urgent, some (e.ends.getD stCut))) := by
    have := congrArg (List.map fun (x : Cmd × Bool × Option Nat) => (x.1, x.2.1, some (x.2.2.getD stCut))) h2.2.2.2
    simpa [List.map_map, Function.comp_def] using this
  rw [hx]
  refine ⟨h1.trans (OnlyPart.trans ?_ (OnlyPart.episodeClose _ _)), ?_, ?_⟩
  · split
    · exact OnlyPart.startReset _ _ _ _
    · exact OnlyPart.refl _ _
  · intro r hr
    have hr' := h2.1.trans hr
    rw [episodeClose_log]
    split
    · unfold State.startReset
      simp only [hr']
      simp
      exact ⟨h2.2.1, h2.2.2.2⟩
    · exact ⟨hr', h2.2.1, h2.2.2.2⟩
  · intro hr hp hl
    have hr' := h2.1.trans hr
    rw [if_pos hl, episodeClose_log]
    have : v.startReset p false false = (v.markEnds p).modPart p fun x =>
        { x with pstate := .resetting, reset := some { ev := 0, prior := x.pstate, start := v.clocks.jewel, failed := false, flr := false, flrAfter := false } } := by
      unfold State.startReset
      simp only [hr', h2.2.1]
      rcases hp with hp | hp | hp <;> simp only [hp]
    rw [this]
    simp [State.markEnds, h2.2.2.1, Function.comp_def]
    exact ⟨h2.2.1, h3⟩

theorem raise_timeout_fold (p : PartId) (l : List InFlight) (s : State) (r : Reset) (hr : s.parts[p].reset = some r) :
    let t := l.foldl (fun s e => s.raise p 0x30 0xFF 0 e.cmd.seq (some (e.urgent, e.cmd.seq))) s
    OnlyPart s t p ∧ t.parts[p].reset = some r ∧ t.parts[p].pstate = s.parts[p].pstate ∧
      t.parts[p].win.table.map (fun e => (e.cmd, e.urgent, e.ends)) = s.parts[p].win.table.map (fun e => (e.cmd, e.urgent, e.ends)) := by
  induction l generalizing s with
  | nil => exact ⟨OnlyPart.refl _ _, hr, rfl, rfl⟩
  | cons e l ih =>
    obtain ⟨h1, h2, _⟩ := raise_timeout s p e.cmd.seq (e.urgent, e.cmd.seq)
    obtain ⟨h3, h4, h5⟩ := h2 r hr
    obtain ⟨i1, i2, i3, i4⟩ := ih _ h3
    exact ⟨h1.trans i1, i2, i3.trans h4, i4.trans h5⟩

theorem mark_fold (p : PartId) (l : List InFlight) (s : State) :
    let t := l.foldl (fun s e => s.modInFlight (some p) e.urgent e.cmd.seq fun x => { x with ends := some stTimeout }) s
    OnlyPart s t p ∧ CommandSide s.parts[p] t.parts[p] ∧ t.clocks = s.clocks ∧ t.parts[p].win.table = s.parts[p].win.table.map fun x =>
      if l.any (fun e => x.urgent == e.urgent && x.cmd.seq == e.cmd.seq) then { x with ends := some stTimeout } else x := by
  induction l generalizing s with
  | nil => exact ⟨OnlyPart.refl _ _, CommandSide.refl _, rfl, by simp⟩
  | cons e l ih =>
    obtain ⟨i1, i2, i3, i4⟩ := ih (s.modInFlight (some p) e.urgent e.cmd.seq fun x => { x with ends := some stTimeout })
    refine ⟨(OnlyFn.modInFlight s (some p) _ _ _).trans i1, CommandSide.trans (by simp [State.modInFlight, CommandSide]) i2, i3, ?_⟩
    simp only [List.foldl_cons]
    rw [i4]
    simp [State.modInFlight]
    intro x _
    by_cases h1 : (x.urgent = e.urgent ∧ x.cmd.seq = e.cmd.seq)
    · simp [h1]
    · simp [h1]

theorem completeNow_table (s : State) (f : Fn) (u : Bool) (q : Nat) (r : Result) (b : Bool) :
    ((s.completeNow f u q r b).win f).table = (s.win f).table.filter (fun x => !(x.urgent == u && x.cmd.seq == q)) := by
  unfold State.completeNow
  cases h : s.inFlight f u q with
  | none =>
    unfold State.inFlight at h
    simp only [List.find?_eq_none] at h
    exact (List.filter_eq_self.mpr (by intro x hx; have := h x hx; revert this; cases (x.urgent == u && x.cmd.seq == q) <;> simp)).symm
  | some e =>
    dsimp only
    split
    · rw [State.postRecord, modDma_win, State.modWin_win]
    · cases f with
      | none => rw [State.episodeForget, modLog_win, State.modWin_win]
      | some p => dsimp only; rw [episodeClose_win, State.episodeForget, modLog_win, State.modWin_win]

/-- What the command whose turn it is looks like: a main command of the class, not started and with no ending in store. -/
theorem headOf_spec (s : State) (f : Fn) (k : CmdClass) (e : InFlight) (h : s.headOf f k = some e) :
    e ∈ s.mains f ∧ State.clsOf e = k ∧ e.started = none ∧ e.ends = none := by
  unfold State.headOf at h
  dsimp only at h
  split at h
  · cases h
  · rename_i i hi
    rw [Option.ite_none_right_eq_some] at h
    obtain ⟨_, h⟩ := h
    obtain ⟨hl, hp, _⟩ := List.findIdx?_eq_some_iff_getElem.mp hi
    rw [List.getElem?_eq_getElem hl] at h
    cases h
    simp only [Bool.and_eq_true, beq_iff_eq, Option.isNone_iff_eq_none] at hp
    exact ⟨List.getElem_mem hl, hp.1.1.1, hp.1.1.2, hp.1.2⟩

theorem startable_spec (s : State) (f : Fn) (k : CmdClass) (e : InFlight) (h : s.startable f k = some e) :
    e ∈ s.mains f ∧ State.clsOf e = k ∧ e.started = none ∧ e.ends = none := by
  unfold State.startable at h
  obtain ⟨y, hy, h2⟩ := Option.bind_eq_some_iff.mp h
  split at h2
  · cases h2; exact headOf_spec _ _ _ _ hy
  · cases h2

theorem urgentHead_spec (s : State) (f : Fn) (ok : Nat → Bool) (e : InFlight) (h : s.urgentHead f ok = some e) :
    e.urgent = true ∧ ok e.cmd.opc = true ∧ e.started = none ∧ e.ends = none := by
  have := List.find?_some h
  simp only [Bool.and_eq_true, Option.isNone_iff_eq_none] at this
  exact ⟨this.1.1.1.1, this.1.1.1.2, this.1.1.2, this.1.2⟩

theorem nextStatus_spec (s : State) (f : Fn) (e : InFlight) (h : s.nextStatus f = some e) : e.started = none ∧ e.ends = none := by
  unfold State.nextStatus at h
  split at h
  · rename_i x hx; cases h; exact (urgentHead_spec _ _ _ _ hx).2.2
  · exact (startable_spec _ _ _ _ h).2.2

end Sys2Proof.Machine
end

