-- ==== Sys2Proof/Laws/JobOps.lean ====
section
/-! SUPPORT. The operations of jobs: the slot secrets, a retirement, a scrub, a key package, a program image, a copy. -/

set_option linter.unusedSimpArgs false
set_option linter.unusedVariables false

namespace Sys2Proof.Machine

theorem foldl_modTile (l : List TileId) (hn : l.Nodup) (g : Tile → Tile) (s : State) (x : TileId) :
    (l.foldl (fun s t => s.modTile t g) s).tiles[x] = if x ∈ l then g s.tiles[x] else s.tiles[x] := by
  induction l generalizing s with
  | nil => simp
  | cons t l ih =>
    simp only [List.nodup_cons] at hn
    simp only [List.foldl_cons, ih hn.2]
    by_cases h : x = t
    · subst h; simp [hn.1]
    · simp [h]

theorem foldl_modTile_rest (l : List TileId) (g : TileId → Tile → Tile) (s : State) :
    l.foldl (fun s t => s.modTile t (g t)) s = { s with tiles := (l.foldl (fun s t => s.modTile t (g t)) s).tiles } := by
  induction l generalizing s with
  | nil => rfl
  | cons t l ih => simp only [List.foldl_cons]; rw [ih]; simp [State.modTile]

theorem tilesOf_nodup (s : State) (p : PartId) : (s.tilesOf p).Nodup := (List.nodup_finRange 64).filter _

theorem mem_tilesOf (s : State) (p : PartId) (x : TileId) : x ∈ s.tilesOf p ↔ s.partOf x = some p := by
  simp [State.tilesOf, State.allTiles, List.mem_filter]

theorem drawSlots_spec (s : State) (p : PartId) :
    (s.drawSlots p).1 = (List.range (s.keyRange p).2).map (fun i => ((s.keyRange p).1 + i, (List.range 32).map (Config.freeByte (s.free + i)))) ∧
    (s.drawSlots p).2 = { s with free := s.free + (s.keyRange p).2 } := by
  unfold State.drawSlots
  generalize s.keyRange p = r
  dsimp only
  generalize r.2 = n
  induction n with
  | zero => exact ⟨rfl, rfl⟩
  | succ n ih =>
    rw [List.range_succ, List.foldl_append]
    generalize List.foldl _ _ (List.range n) = z at *
    obtain ⟨h1, h2⟩ := ih
    simp only [List.foldl_cons, List.foldl_nil, List.map_append, List.map_cons, List.map_nil, State.draw]
    exact ⟨by rw [h1, h2], by rw [h2]; rfl⟩

theorem outcome_noted (s : State) (f : Fn) (v : Service) (a b c : Nat) (h : s.service f = some v) : s.outcome f a b c = noted s f v a b c := by
  unfold State.outcome noted
  rw [h]
  cases f with
  | none => rfl
  | some p => simp [State.service, State.setService]

theorem noted_only (s : State) (p : PartId) (v : Service) (a b c : Nat) : OnlyPart s (noted s (some p) v a b c) p ∧
    (noted s (some p) v a b c).parts[p] = { s.parts[p] with
      service := some { v with outcome := some (a, b, c) },
      dma := { s.parts[p].dma with reads := s.parts[p].dma.reads.filter fun r => r.owner != .command false v.seq } } := by
  refine ⟨(OnlyPart.modPart _ _ _).trans (OnlyFn.modDma _ (some p) _), ?_⟩
  simp [noted, State.setService]

theorem complete_parts (s : State) (p : PartId) (u : Bool) (q : Nat) (r : Result) : OnlyPart s (s.complete (some p) u q r) p :=
  OnlyFn.complete s (some p) u q r

theorem modInFlight_keep (s : State) (p : PartId) (u v : Bool) (q k : Nat) (g : InFlight → InFlight)
    (hg : ∀ e, (g e).urgent = e.urgent ∧ (g e).cmd = e.cmd ∧ (g e).ends = e.ends) (e : InFlight) (h : s.inFlight (some p) u q = some e) :
    ∃ e', (s.modInFlight (some p) v k g).inFlight (some p) u q = some e' ∧ e'.cmd = e.cmd ∧ e'.ends = e.ends := by
  unfold State.inFlight at *
  simp only [State.modInFlight, State.modWin_win]
  rw [List.find?_map]
  have : ((fun x : InFlight => x.urgent == u && x.cmd.seq == q) ∘ fun x => if (x.urgent == v && x.cmd.seq == k) = true then g x else x) =
      fun x => x.urgent == u && x.cmd.seq == q := by
    funext x; simp only [Function.comp]; split
    · simp only [hg]
    · rfl
  rw [this, h]
  refine ⟨_, rfl, ?_⟩
  by_cases hc : (e.urgent == v && e.cmd.seq == k) = true
  · dsimp only; rw [if_pos hc]; exact ⟨(hg e).2.1, (hg e).2.2⟩
  · dsimp only; rw [if_neg hc]; exact ⟨rfl, rfl⟩

/-- What the end of the partition's buckets leaves: the entries' keys join the last 64, and a REDUCE keeps its longest wait. -/
theorem discardBuckets_spec (s : State) (p : PartId) : OnlyPart s (s.discardBuckets p) p ∧
    (s.discardBuckets p).parts[p] = { s.parts[p] with
      win := { s.parts[p].win with table := (s.discardBuckets p).parts[p].win.table },
      card := { s.parts[p].card with
        table := [], msgs := [],
        dead := (s.parts[p].card.dead ++ s.parts[p].card.table.map (·.key)).drop
          ((s.parts[p].card.dead ++ s.parts[p].card.table.map (·.key)).length - 64) } } ∧
    (s.discardBuckets p).parts[p].win.table.map (fun e => { e with maxw := 0 }) = s.parts[p].win.table.map (fun e => { e with maxw := 0 }) := by
  have key : ∀ (l : List Bucket) (s : State),
      let t := l.foldl (fun s b => s.modInFlight (some p) false b.seq fun e => { e with maxw := max e.maxw (b.endWait s.clocks.carding).maxw }) s
      OnlyPart s t p ∧ t.parts[p] = { s.parts[p] with win := { s.parts[p].win with table := t.parts[p].win.table } } ∧
      t.parts[p].win.table.map (fun e => { e with maxw := 0 }) = s.parts[p].win.table.map (fun e => { e with maxw := 0 }) := by
    intro l
    induction l with
    | nil => intro s; exact ⟨OnlyPart.refl _ _, rfl, rfl⟩
    | cons b l ih =>
      intro s
      obtain ⟨a1, a2, a3⟩ := ih (s.modInFlight (some p) false b.seq fun e => { e with maxw := max e.maxw (b.endWait s.clocks.carding).maxw })
      refine ⟨(OnlyFn.modInFlight s (some p) _ _ _).trans a1, ?_, ?_⟩
      · simp only [List.foldl_cons]; rw [a2]; simp [State.modInFlight]
      · simp only [List.foldl_cons]; rw [a3]; simp [State.modInFlight]; intro e _; split <;> simp
  unfold State.discardBuckets
  obtain ⟨a1, a2, a3⟩ := key s.parts[p].card.table s
  refine ⟨a1.trans (OnlyPart.modPart _ _ _), ?_, ?_⟩
  · dsimp only
    generalize List.foldl _ s s.parts[p].card.table = t at *
    have hc : t.parts[p].card = s.parts[p].card := by rw [a2]
    have hx : ∀ g : Part → Part, (t.modPart p g).parts[p] = g t.parts[p] := fun g => by simp
    rw [hx]
    generalize t.parts[p] = y at *
    rw [a2]
  · simp only [State.modPart_same, Fin.getElem_fin]; exact a3

theorem cutOthers_spec (s : State) (p : PartId) (k : Nat) : OnlyPart s (s.cutOthers p k) p ∧
    CommandSide (s.discardBuckets p).parts[p] (s.cutOthers p k).parts[p] ∧
    ∀ e ∈ (s.cutOthers p k).parts[p].win.table, e.urgent = false ∧ e.cmd.seq = k := by
  unfold State.cutOthers
  have key : ∀ (l : List (Bool × Nat)) (s : State),
      let t := l.foldl (fun s c => s.completeNow (some p) c.1 c.2 { status := stCut }) s
      OnlyPart s t p ∧ CommandSide s.parts[p] t.parts[p] ∧ ∀ e ∈ t.parts[p].win.table, e ∈ s.parts[p].win.table ∧ (e.urgent, e.cmd.seq) ∉ l := by
    intro l
    induction l with
    | nil => intro s; exact ⟨OnlyPart.refl _ _, CommandSide.refl _, fun e h => ⟨h, by simp⟩⟩
    | cons c l ih =>
      intro s
      obtain ⟨a, b, d⟩ := ih (s.completeNow (some p) c.1 c.2 { status := stCut })
      refine ⟨(OnlyFn.completeNow s (some p) _ _ _ _ : OnlyPart _ _ _).trans a, (completeNow_side _ _ _ _ _ _).trans b, ?_⟩
      intro e he
      obtain ⟨h1, h2⟩ := d e he
      have := completeNow_table s (some p) c.1 c.2 { status := stCut } true
      rw [show (State.completeNow _ _ _ _ _ _).parts[p].win.table = _ from this] at h1
      simp at h1
      refine ⟨h1.1, ?_⟩
      simp only [List.mem_cons, not_or]
      refine ⟨?_, h2⟩
      intro hc; rw [← hc] at h1; simp at h1
  obtain ⟨d1, d2, d3⟩ := discardBuckets_spec s p
  obtain ⟨a, b, c⟩ := key ((s.parts[p].win.table.filter fun e => e.urgent || e.cmd.seq != k).map fun e => (e.urgent, e.cmd.seq)) (s.discardBuckets p)
  refine ⟨d1.trans a, b, fun e he => ?_⟩
  obtain ⟨h1, h2⟩ := c e he
  obtain ⟨y, hy, hye⟩ : ∃ y ∈ s.parts[p].win.table, ({ y with maxw := 0 } : InFlight) = { e with maxw := 0 } := by
    have : ({ e with maxw := 0 } : InFlight) ∈ (s.discardBuckets p).parts[p].win.table.map (fun e => { e with maxw := 0 }) := List.mem_map_of_mem h1
    rw [d3] at this
    obtain ⟨y, hy, h⟩ := List.mem_map.mp this
    exact ⟨y, hy, h⟩
  have hu : y.urgent = e.urgent := by injection hye
  have hq : y.cmd = e.cmd := by injection hye
  simp only [List.mem_map, List.mem_filter, not_exists, not_and] at h2
  have := h2 y
  rw [hu, hq] at this
  by_cases hu : e.urgent = true
  · exact absurd rfl (this ⟨hy, by simp [hu]⟩)
  · by_cases hk : e.cmd.seq = k
    · exact ⟨by simpa using hu, hk⟩
    · exact absurd rfl (this ⟨hy, by simp [hk]⟩)

theorem discardBuckets_keep (s : State) (p : PartId) (u : Bool) (q : Nat) (e : InFlight) (h : s.inFlight (some p) u q = some e) :
    ∃ e', (s.discardBuckets p).inFlight (some p) u q = some e' ∧ e'.cmd = e.cmd ∧ e'.ends = e.ends := by
  have key : ∀ (l : List Bucket) (s : State) (e : InFlight), s.inFlight (some p) u q = some e →
      ∃ e', (l.foldl (fun s b => s.modInFlight (some p) false b.seq fun e => { e with maxw := max e.maxw (b.endWait s.clocks.carding).maxw }) s).inFlight (some p) u q = some e' ∧
        e'.cmd = e.cmd ∧ e'.ends = e.ends := by
    intro l
    induction l with
    | nil => intro s e h; exact ⟨e, h, rfl, rfl⟩
    | cons b l ih =>
      intro s e h
      obtain ⟨e1, a1, a2, a3⟩ := modInFlight_keep s p u false q b.seq (fun e => { e with maxw := max e.maxw (b.endWait s.clocks.carding).maxw }) (fun _ => ⟨rfl, rfl, rfl⟩) e h
      obtain ⟨e2, b1, b2, b3⟩ := ih _ e1 a1
      exact ⟨e2, b1, b2.trans a2, b3.trans a3⟩
  obtain ⟨e', a, b⟩ := key s.parts[p].card.table s e h
  refine ⟨e', ?_, b⟩
  unfold State.discardBuckets
  rw [← a]
  exact inFlight_congr _ _ _ _ _ (by simp [State.win])

theorem cutOthers_keep (s : State) (p : PartId) (k : Nat) (e : InFlight) (h : s.inFlight (some p) false k = some e) :
    ∃ e', (s.cutOthers p k).inFlight (some p) false k = some e' ∧ e'.cmd = e.cmd ∧ e'.ends = e.ends := by
  obtain ⟨e', a, b⟩ := discardBuckets_keep s p false k e h
  refine ⟨e', ?_, b⟩
  unfold State.cutOthers
  have key : ∀ (l : List (Bool × Nat)) (s : State), (∀ c ∈ l, c.1 = true ∨ c.2 ≠ k) →
      (l.foldl (fun s c => s.completeNow (some p) c.1 c.2 { status := stCut }) s).inFlight (some p) false k = s.inFlight (some p) false k := by
    intro l
    induction l with
    | nil => intro s _; rfl
    | cons c l ih =>
      intro s hl
      rw [List.foldl_cons, ih _ (fun c hc => hl c (List.mem_cons_of_mem _ hc))]
      refine inFlight_filter s _ (some p) c.1 false c.2 k (completeNow_table _ _ _ _ _ _) ?_
      rcases hl c List.mem_cons_self with h | h
      · left; rw [h]; simp
      · right; exact fun hh => h hh.symm
  rw [key]
  · exact a
  · intro c hc
    obtain ⟨y, hy, rfl⟩ := List.mem_map.mp hc
    have := (List.mem_filter.mp hy).2
    simpa using this

theorem last64_idem {α : Type} (l : List α) : (l.drop (l.length - 64)).drop ((l.drop (l.length - 64)).length - 64) = l.drop (l.length - 64) := by
  have h : (l.drop (l.length - 64)).length - 64 = 0 := by rw [List.length_drop]; omega
  rw [h, List.drop_zero]

theorem retire_spec (s : State) (p : PartId) : (s.retire p) = { s with parts := (s.retire p).parts, ports := s.ports.map fun o => o.discard p.val s.coord.toNat false true } ∧ PartsKept s (s.retire p) p ∧
    (s.retire p).parts[p] = { (s.discardBuckets p).parts[p] with
      job := none, slotSecrets := [], streams := [], card := { Carding.empty with dead := (s.discardBuckets p).parts[p].card.dead }, fuller := Fuller.empty,
      integ := 0, ilock := false, copies := [], run := none, runStop := none, runEnd := none, asm := [], inbox2 := [], inbox3 := [] } := by
  obtain ⟨d1, d2, _⟩ := discardBuckets_spec s p
  refine ⟨?_, fun q hq => ?_, ?_⟩
  · simp only [State.retire, State.discardFrames, State.modPart]
    rw [d1.1]
    rfl
  · simp only [State.retire, State.discardFrames]
    rw [← d1.2 q hq]; simp [hq]
  · simp [State.retire, State.discardFrames]

theorem scrub_fold (p : PartId) (sec : Bytes) (key : Option Bytes) (l : List TileId) (hn : l.Nodup) (s : State) :
    let t := l.foldl (fun s t => (s.modTile t State.scrubTile).resetTree t sec key) s
    t = { s with tiles := t.tiles, jewel := { s.jewel with roots := t.jewel.roots } } ∧
    (∀ x : TileId, t.tiles[x] = if x ∈ l then pounced s.tiles[x] x sec key else s.tiles[x]) ∧
    (∀ i : Fin 2048, t.jewel.roots[i] = if (l.any fun x => x.val == i.val / 32) then ⟨0, 0⟩ else s.jewel.roots[i]) := by
  induction l generalizing s with
  | nil => exact ⟨rfl, by simp, by simp⟩
  | cons y l ih =>
    simp only [List.nodup_cons] at hn
    obtain ⟨a, b, c⟩ := ih hn.2 ((s.modTile y State.scrubTile).resetTree y sec key)
    simp only [List.foldl_cons]
    refine ⟨?_, ?_, ?_⟩
    · obtain ⟨tl, rt, h⟩ : ∃ tl rt, (s.modTile y State.scrubTile).resetTree y sec key = { s with tiles := tl, jewel := { s.jewel with roots := rt } } := by
        unfold State.resetTree State.modTile; exact ⟨_, _, rfl⟩
      rw [a]
      generalize (s.modTile y State.scrubTile).resetTree y sec key = z at *
      rw [h]
    · intro x
      rw [b x]
      by_cases h : x = y
      · subst h
        rw [if_neg hn.1, if_pos (by simp)]
        cases key <;> simp [State.resetTree, pounced, State.scrubTile]
      · have : ((s.modTile y State.scrubTile).resetTree y sec key).tiles[x] = s.tiles[x] := by
          unfold State.resetTree; dsimp only; simp [h]
        rw [this]; simp [h]
    · intro i
      rw [c i]
      have : ((s.modTile y State.scrubTile).resetTree y sec key).jewel.roots[i] = if i.val / 32 = y.val then ⟨0, 0⟩ else s.jewel.roots[i] := by
        simp [State.resetTree]
      rw [this]
      simp only [List.any_cons, Bool.or_eq_true, beq_iff_eq]
      by_cases h1 : (l.any fun x => x.val == i.val / 32) = true
      · simp [h1]
      · by_cases h2 : i.val / 32 = y.val
        · simp [h1, h2]
        · simp [h1, h2, Ne.symm h2]

theorem setService_spec (s : State) (p : PartId) (v : Option Service) : s.setService (some p) v = s.modPart p fun x => { x with service := v } := rfl

theorem checkJoined_spec (s : State) (p : PartId) (j : Job) (h : s.parts[p].job = some j) : OnlyPart s (s.checkJoined p) p ∧
    ∃ mp, (s.checkJoined p).parts[p] = { s.parts[p] with
      job := some { j with mpeer := mp },
      pstate := if s.isLeader p = true ∧ j.keySet = true ∧ j.members.all (·.joined) = true ∧ s.parts[p].pstate = .opening then .running else s.parts[p].pstate } := by
  generalize ht : s.checkJoined p = t
  unfold State.checkJoined at ht
  rw [h] at ht
  dsimp only at ht
  split at ht
  · rename_i hc
    simp only [Bool.and_eq_true, beq_iff_eq] at hc
    subst ht
    refine ⟨OnlyPart.modPart _ _ _, ⟨shake256 64 (((j.members.filter (·.coord != s.coord)).map fun m => shake256 64 m.report).flatten), ?_⟩⟩
    rw [if_pos ⟨hc.1.1.1, hc.1.1.2, hc.1.2, hc.2⟩]
    simp
  · rename_i hc
    simp only [Bool.and_eq_true, beq_iff_eq, not_and] at hc
    subst ht
    refine ⟨OnlyPart.refl _ _, j.mpeer, ?_⟩
    rw [if_neg]
    · generalize hx : s.parts[p] = x at *
      cases x; simp only [Part.mk.injEq, and_true, true_and]; simpa using h
    · rintro ⟨a, b, c, d⟩; exact hc ⟨⟨a, b⟩, c⟩ d

theorem OnlyPart.frame2 {s t : State} {p : PartId} (h : OnlyPart s t p) (n : Nat) : t = { s with parts := t.parts, free := t.free } := by
  obtain ⟨h, _⟩ := h; rw [h]

theorem takePackage_spec (s : State) (p : PartId) (slot : Nat) (imp root : Option Bytes) (j : Job) (hj : s.parts[p].job = some j) :
    let t := s.takePackage p slot imp root
    ∃ j', t = { s with parts := t.parts, free := t.free } ∧ PartsKept s t p ∧
      t.parts[p] = { s.parts[p] with
        job := some j',
        pstate := if j.keySet = false ∧ j'.keySet = true ∧ s.isLeader p = true ∧ j.members.all (·.joined) = true ∧ s.parts[p].pstate = .opening
          then .running else s.parts[p].pstate } ∧
      j' = { j with released := j.released ++ [slot], imports := j.imports ++ (imp.map fun k => (slot, k)).toList,
                    jr := if root.isSome then root else j.jr, keySet := j'.keySet, link := j'.link, mpeer := j'.mpeer } ∧
      (j.keySet = true → j'.keySet = true ∧ j'.link = j.link) ∧
      (j.keySet = false → j'.keySet = State.keysComplete j' ∧ (j'.keySet = true → j'.link = some ((List.range 32).map (Config.freeByte s.free)))) := by
  dsimp only
  generalize ht : s.takePackage p slot imp root = t
  unfold State.takePackage at ht
  dsimp only at ht
  generalize hv : s.modPart p _ = v at ht
  have hjr : (root.orElse fun _ => j.jr) = (if root.isSome then root else j.jr) := by cases root <;> simp
  have hvp : v.parts[p] = { s.parts[p] with job := some { j with released := j.released ++ [slot], imports := j.imports ++ (imp.map fun b => (slot, b)).toList, jr := root.orElse fun _ => j.jr } } := by
    rw [← hv]
    have hx : ∀ g : Part → Part, (s.modPart p g).parts[p] = g s.parts[p] := fun g => by simp
    rw [hx, hj]; rfl
  have hvj : v.parts[p].job = some { j with released := j.released ++ [slot], imports := j.imports ++ (imp.map fun b => (slot, b)).toList, jr := root.orElse fun _ => j.jr } := by rw [hvp]
  have hvo : OnlyPart s v p := by rw [← hv]; exact OnlyPart.modPart _ _ _
  rw [hvj] at ht
  dsimp only at ht
  split at ht
  · rename_i hc
    simp at hc
    generalize hw : State.modPart _ p _ = w at ht
    have hwp : w.parts[p] = { v.parts[p] with job := some { j with released := j.released ++ [slot], imports := j.imports ++ (imp.map fun b => (slot, b)).toList, jr := root.orElse fun _ => j.jr, keySet := true, link := some (v.draw 32).1 } } := by
      rw [← hw]
      have hx : ∀ (u : State) (g : Part → Part), (u.modPart p g).parts[p] = g u.parts[p] := fun u g => by simp
      rw [hx]; rfl
    have hwj : w.parts[p].job = some { j with released := j.released ++ [slot], imports := j.imports ++ (imp.map fun b => (slot, b)).toList, jr := root.orElse fun _ => j.jr, keySet := true, link := some (v.draw 32).1 } := by rw [hwp]
    have hws : w = { s with parts := w.parts, free := w.free } := by rw [← hw]; simp only [State.draw, State.modPart]; rw [hvo.1]
    have hwk : PartsKept s w p := by
      intro q hq; rw [← hvo.2 q hq, ← hw]; simp [State.draw, hq]
    have hvf : v.free = s.free := by rw [hvo.1]
    have hwl : w.isLeader p = s.isLeader p := by
      unfold State.isLeader State.compact
      rw [show w.parts[p].job = _ from hwj, hj]
      have : w.me = s.me := by rw [hws]; rfl
      rw [this]; rfl
    obtain ⟨c1, mp, c3⟩ := checkJoined_spec w p _ hwj
    rw [ht] at c1 c3
    refine ⟨{ j with released := j.released ++ [slot], imports := j.imports ++ (imp.map fun b => (slot, b)).toList, jr := root.orElse fun _ => j.jr, keySet := true, link := some (v.draw 32).1, mpeer := mp },
      ?_, fun q hq => (c1.2 q hq).trans (hwk q hq), ?_, ?_, ?_, ?_⟩
    · have := c1.1; rw [this]; dsimp only; rw [hws]
    · rw [c3, hwp, hvp]
      rw [hwl]
      simp only [hc.2, true_and]
    · simp only [hjr]
    · intro h; simp [h] at hc
    · intro _; refine ⟨?_, fun _ => by simp only [State.draw, hvf]⟩
      have := hc.1
      unfold State.keysComplete at this ⊢
      simp at this ⊢
      exact this
  · rename_i hc
    subst ht
    refine ⟨{ j with released := j.released ++ [slot], imports := j.imports ++ (imp.map fun b => (slot, b)).toList, jr := root.orElse fun _ => j.jr },
      by rw [hvo.1], hvo.2, ?_, ?_, fun h => ⟨h, rfl⟩, ?_⟩
    · rw [hvp, if_neg]
      rintro ⟨a, b, _⟩
      simp at b; rw [a] at b; cases b
    · simp only [hjr]
    · intro h
      simp [h] at hc
      simp [h, hc]

theorem filter_some {α : Type} (o : Option α) (a : α) (f : α → Bool) (h : o = some a) (hf : f a = true) : o.filter f = some a := by
  subst h; simp [hf]

theorem putSegment_spec (p : PartId) (z : Bool) (l : List Segment) (s : State) :
    let t := l.foldl (fun s g => s.putSegment p g z) s
    t = { s with tiles := t.tiles } ∧ (∀ x : TileId, t.tiles[x] = { s.tiles[x] with imem := t.tiles[x].imem, imErr := t.tiles[x].imErr }) ∧
      (∀ x : TileId, s.partOf x ≠ some p → t.tiles[x] = s.tiles[x]) ∧
      (∀ x : TileId, s.partOf x = some p → t.tiles[x].imem = (l.filter fun g => State.maskHas g.tmask x).foldl
        (fun m g => m.write (64 * g.first) (if z then zeros g.body.length else g.body)) s.tiles[x].imem) := by
  induction l generalizing s with
  | nil => exact ⟨rfl, fun _ => rfl, fun _ _ => rfl, fun _ _ => rfl⟩
  | cons g l ih =>
    obtain ⟨a, b, c, d⟩ := ih (s.putSegment p g z)
    simp only [List.foldl_cons]
    have h1 : s.putSegment p g z = { s with tiles := (s.putSegment p g z).tiles } := by
      unfold State.putSegment; exact foldl_modTile_rest _ _ _
    have hn : ((s.tilesOf p).filter (State.maskHas g.tmask)).Nodup := (tilesOf_nodup s p).filter _
    have h2 : ∀ x : TileId, (s.putSegment p g z).tiles[x] = if x ∈ (s.tilesOf p).filter (State.maskHas g.tmask) then
        { s.tiles[x] with
          imem := s.tiles[x].imem.write (64 * g.first) (if z then zeros g.body.length else g.body),
          imErr := s.tiles[x].imErr.filter fun e => decide (e.1 < g.first) || decide (g.first + g.body.length / 64 ≤ e.1) } else s.tiles[x] := by
      intro x; unfold State.putSegment; exact foldl_modTile _ hn _ _ _
    obtain ⟨tl, h1'⟩ : ∃ tl, s.putSegment p g z = { s with tiles := tl } := ⟨_, h1⟩
    refine ⟨by rw [a, h1'], ?_, ?_, ?_⟩
    · intro x; rw [b x, h2 x]; split <;> rfl
    · intro x hx
      rw [c x (by rw [h1']; exact hx), h2 x]
      simp [mem_tilesOf, hx]
    · intro x hx
      rw [d x (by rw [h1']; exact hx), h2 x, List.filter_cons]
      simp only [List.mem_filter, mem_tilesOf, hx, true_and]
      by_cases hm : State.maskHas g.tmask x = true
      · rw [if_pos hm, if_pos hm]; rfl
      · rw [if_neg hm, if_neg hm]

theorem takeWhile_all {α : Type} (f : α → Bool) (l : List α) (h : (l.takeWhile f).length = l.length) : l.takeWhile f = l := by
  induction l with
  | nil => rfl
  | cons a l ih =>
    simp only [List.takeWhile_cons] at *
    split at h
    · rename_i hf; simp only [List.length_cons, Nat.add_right_cancel_iff] at h; rw [if_pos hf, ih h]
    · simp at h

theorem loadImage_spec (s : State) (p : PartId) (c : Cmd) (b : Bytes) (j : Job) (jr : Bytes) (hj : s.parts[p].job = some j) (hr : j.jr = some jr) :
    (s.loadImage p c b).1 = { s with parts := (s.loadImage p c b).1.parts, tiles := (s.loadImage p c b).1.tiles } ∧ PartsKept s (s.loadImage p c b).1 p ∧
    (∀ x : TileId, (s.loadImage p c b).1.tiles[x] = { s.tiles[x] with imem := (s.loadImage p c b).1.tiles[x].imem, imErr := (s.loadImage p c b).1.tiles[x].imErr }) ∧
      (∀ x : TileId, s.partOf x ≠ some p → (s.loadImage p c b).1.tiles[x] = s.tiles[x]) ∧
    ((s.loadImage p c b).2 = false → (s.loadImage p c b).1.parts = s.parts) ∧
    ((s.loadImage p c b).2 = true → ∃ plain segs, Gcm.decrypt (derived (derived jr "EZM6410 PSEC") "EZM6410 PROG") (sub b 80 12) (b.take 128)
            (sub b 128 (field b 8 4)) (sub b (128 + field b 8 4) 16) = some plain ∧
          shake256 64 plain ∈ Compact.progs j.compact ∧ segmentsOf (field b 6 2) plain = (segs, true) ∧
          (s.loadImage p c b).1.parts[p] = { s.parts[p] with job := some { j with mprog := shake256 64 (j.mprog ++ shake256 64 plain) } } ∧
          ∀ x : TileId, s.partOf x = some p → (s.loadImage p c b).1.tiles[x].imem =
            (segs.filter fun g => State.maskHas g.tmask x).foldl (fun m g => m.write (64 * g.first) g.body) s.tiles[x].imem) := by
  generalize ht : s.loadImage p c b = t
  unfold State.loadImage at ht
  rw [hj] at ht; dsimp only at ht; rw [hr] at ht; dsimp only at ht
  split at ht
  · subst ht; exact ⟨rfl, fun _ _ => rfl, fun _ => rfl, fun _ _ => rfl, fun _ => rfl, by simp⟩
  · generalize hk : derived (derived jr "EZM6410 PSEC") "EZM6410 PROG" = k at *
    generalize hpl : (Gcm.encrypt k (sub b 80 12) [] (sub b 128 (field b 8 4))).1 = plain at *
    have hdec : ∀ x, Gcm.decrypt k (sub b 80 12) (b.take 128) (sub b 128 (field b 8 4)) (sub b (128 + field b 8 4) 16) = some x → x = plain := by
      intro x hx; unfold Gcm.decrypt Gcm.openN at hx; split at hx
      · injection hx with hx; rw [← hx, ← hpl]; rfl
      · cases hx
    generalize hok : (_ && _ : Bool) = ok at ht
    obtain ⟨a1, a2, a3, a4⟩ := putSegment_spec p (!ok) (List.takeWhile (s.segmentIn p) (segmentsOf (field b 6 2) plain).fst) s
    generalize List.foldl _ s _ = v at *
    split at ht
    · rename_i hokt
      subst ht
      rw [hokt] at hok a4
      simp only [Bool.and_eq_true, beq_iff_eq] at hok
      obtain ⟨⟨⟨⟨o1, o2⟩, o3⟩, o4⟩, o5⟩ := hok
      obtain ⟨x, hx⟩ := Option.isSome_iff_exists.mp o1
      have hxp := hdec x hx
      subst hxp
      have hvp : v.parts = s.parts := by rw [a1]
      rw [takeWhile_all _ _ o5] at a4
      refine ⟨by simp only [State.modPart]; rw [a1], fun q hq => by simp [hq, hvp], a2, a3, by simp, fun _ => ⟨x, (segmentsOf (field b 6 2) x).1, hx, by simpa using o3, by rw [← o4], by simp [hvp, hr], ?_⟩⟩
      intro y hy
      have := a4 y hy
      simpa using this
    · subst ht
      refine ⟨by rw [a1], fun q _ => by simp only [show v.parts = s.parts by rw [a1]], a2, a3, fun _ => by rw [a1], by simp⟩

theorem endNow_only (s : State) (p : PartId) (q : Nat) (r : Result) : OnlyPart s (s.endNow p q r) p ∧ CommandSide s.parts[p] (s.endNow p q r).parts[p] :=
  ⟨(OnlyFn.start s (some p) _ _).trans (OnlyFn.complete _ (some p) _ _ _),
   CommandSide.trans (b := (s.start (some p) false q).parts[p]) (by simp [State.start, State.modInFlight, CommandSide]) (complete_side _ _ _ _ _)⟩

theorem endNow_ended (s : State) (p : PartId) (e : InFlight) (r : Result) (hu : e.urgent = false) (hf : r.flags = 0) (hm : r.maxw = 0) (he : e.ends = none)
    (hi : s.inFlight (some p) false e.cmd.seq = some e) : Ended s (s.endNow p e.cmd.seq r) (some p) e r.status r.cls r.result := by
  have := start_complete_ended s (s.start (some p) e.urgent e.cmd.seq) (some p) e r hf hm he (by rw [hu]; exact hi) rfl
    (start_tags _ _ _ _).2.1 (start_tags _ _ _ _).2.2
  unfold State.endNow
  rw [hu] at this; exact this

theorem skipEpi_congr (t u : Tile) (h : t.imem = u.imem) (k : t.imErr = u.imErr) (n : Nat) (x : Nat × List LoopFrame) : t.skipEpi n x = u.skipEpi n x := by
  induction n generalizing x with
  | zero => rfl
  | succ n ih => simp only [Tile.skipEpi, Tile.descAt, Tile.imBad, h, k]; rw [ih]; rfl

theorem tilesOf_boot (s t : State) (p : PartId) (h : s.boot = t.boot) : s.tilesOf p = t.tilesOf p := by
  unfold State.tilesOf State.partOf State.partOfRow State.npart; rw [h]

theorem askChunk_fold (p : PartId) (st : Stream) (o : Owner) (f : Nat → Nat) (l : List Nat) (s : State) :
    let t := l.foldl (fun s j => s.askChunk p st (f j) o) s
    t = { s with parts := t.parts, host := { s.host with nextId := t.host.nextId } } ∧ PartsKept s t p ∧
    t.host.nextId = s.host.nextId + 2 * l.length ∧ t.parts[p].dma.reads.length = s.parts[p].dma.reads.length + 2 * l.length ∧
    t.parts[p] = { s.parts[p] with dma := t.parts[p].dma } := by
  induction l generalizing s with
  | nil => exact ⟨rfl, fun _ _ => rfl, rfl, rfl, rfl⟩
  | cons j l ih =>
    obtain ⟨a, b, c, d, e⟩ := ih (s.askChunk p st (f j) o)
    simp only [List.foldl_cons]
    refine ⟨?_, ?_, ?_, ?_, ?_⟩
    · rw [a]; simp only [State.askChunk, State.modDma, State.modPart]
    · intro q hq; rw [b q hq]; simp [State.askChunk, hq]
    · rw [c]; simp [State.askChunk]; omega
    · rw [d]; simp [State.askChunk]; omega
    · rw [e]; simp [State.askChunk]

theorem mains_started_frame (u : State) (p : PartId) (e : InFlight) (he : e.started = none) : (if e.started.isSome then u else u.start (some p) false e.cmd.seq) = u.start (some p) false e.cmd.seq := by
  simp [he]

theorem start_parts (u : State) (p : PartId) (q : Nat) : CommandSide u.parts[p] (u.start (some p) false q).parts[p] := by simp [State.start, State.modInFlight, CommandSide]

end Sys2Proof.Machine
end

