-- ==== Sys2Proof/Laws/BootKeeps.lean ====
section
/-! SUPPORT. The fuses and the flash: which operations and commands keep the blown fuses, the canonical form and the active slot. -/

set_option linter.unusedSimpArgs false
set_option linter.unusedVariables false

namespace Sys2Proof.Machine

theorem imageCrypt_fold_length (n : Nat) (f : Bytes × Nat → Bytes) (hf : ∀ x, (f x).length ≤ x.1.length) :
    ∀ (fuel k : Nat) (b : Bytes), (((chunksOf (n + 1) fuel b).zipIdx k).map f).flatten.length ≤ b.length := by
  intro fuel
  induction fuel with
  | zero => intro k b; simp [chunksOf]
  | succ m ih =>
    intro k b
    cases b with
    | nil => simp [chunksOf]
    | cons x xs =>
      have h1 := hf ((x :: xs).take (n + 1), k)
      have h2 := ih (k + 1) ((x :: xs).drop (n + 1))
      simp [chunksOf] at *
      omega

theorem leBytes_length (n v : Nat) : (leBytes n v).length = n := by
  induction n generalizing v with
  | zero => rfl
  | succ n ih => simp [leBytes, ih]

theorem writeHdr_length (k n : Bytes) (g l : Nat) : (writeHdr k n g l).length ≤ n.length + 48 := by
  unfold writeHdr Gcm.encrypt Gcm.tag Gcm.crypt Ghash.run
  have h1 : ∀ v, (leBytes 4 v).length = 4 := leBytes_length 4
  have h2 : ∀ v, (leBytes 8 v).length = 8 := leBytes_length 8
  have h3 : ∀ v, (leBytes 16 v).length = 16 := leBytes_length 16
  have h4 : (ascii "EZSL").length = 4 := by decide
  simp [xorB, h1, h2, h3, h4, beBytes, zeros]
  omega

theorem imageCrypt_length (k n b : Bytes) : (imageCrypt k n b).length ≤ b.length := by
  unfold imageCrypt
  apply imageCrypt_fold_length 15
  intro x
  simp [xorB] <;> omega

theorem getD_writeD_low (d : Byte) (m : Mem) (x : Nat) (bs : Bytes) (a : Nat) (h : a < x ∨ x + bs.length ≤ a) :
    Mem.getD d (Mem.writeD d m x bs) a = Mem.getD d m a := by
  rw [Mem.getD_writeD, if_neg (by omega)]

/-- What every step keeps of the start-up state: no fuse cleared, the flash canonical, the running image's slot. -/
def Keeps (b b' : Boot) : Prop :=
  (∀ i, b.fuses.getLsbD i = true → b'.fuses.getLsbD i = true) ∧ (Mem.wfD erased b.flash = true → Mem.wfD erased b'.flash = true) ∧
  (b.image.isSome = true → (b.slot = 1 ∨ b.slot = 2) → ∀ a, slotBase b.slot ≤ a → a < slotBase b.slot + slotBytes →
    Mem.getD erased b'.flash a = Mem.getD erased b.flash a)

theorem Keeps.of_eq {b b' : Boot} (h : b'.fuses = b.fuses) (k : b'.flash = b.flash) : Keeps b b' := by simp [Keeps, h, k]

theorem Keeps.refl (b : Boot) : Keeps b b := Keeps.of_eq rfl rfl

theorem Keeps.trans {a b c : Boot} (h : Keeps a b) (k : Keeps b c) (hi : a.image.isSome = true → b.image.isSome = true)
    (hs : b.slot = a.slot) : Keeps a c := by
  refine ⟨fun i x => k.1 i (h.1 i x), fun x => k.2.1 (h.2.1 x), fun x y z u v => ?_⟩
  rw [k.2.2 (hi x) (by rw [hs]; exact y) z (by rw [hs]; exact u) (by rw [hs]; exact v)]
  exact h.2.2 x y z u v

theorem advanceFuse_keeps (b : Boot) (s : State) (hf : s.boot.flash = b.flash) (hu : s.boot.fuses = b.fuses) : Keeps b s.advanceFuse.boot := by
  unfold State.advanceFuse
  split
  · exact Keeps.of_eq hu hf
  · split
    · exact Keeps.of_eq hu hf
    · refine ⟨fun i hi => ?_, by simp [Boot.blow, hf], by simp [Boot.blow, hf]⟩
      simp only [Boot.blow]
      split
      · simp [hu, hi]
      · rw [hu]; exact hi

theorem record_keeps (b b0 : Boot) (o : Nat) (n : Bytes) (hf : b0.flash = b.flash) (hu : b0.fuses = b.fuses) : Keeps b (b0.record o n) := by
  unfold Boot.record
  refine ⟨by simp [hu], ?_, ?_⟩
  · intro w
    apply Mem.wfD_writeD
    split
    · exact Mem.wfD_filter _ _ _ (hf ▸ w)
    · exact hf ▸ w
  · intro _ hs a h1 h2
    have h3 : a < logBase := by
      rcases hs with hs | hs <;> simp [hs, slotBase, slotBytes, logBase] at * <;> omega
    dsimp only
    rw [getD_writeD_low _ _ _ _ _ (by left; omega)]
    split
    · rw [Mem.getD_filter, hf]
      intro c; simp; left; omega
    · rw [hf]

theorem bootRecord_keeps (b : Boot) (s : State) (o : Nat) (hf : s.boot.flash = b.flash) (hu : s.boot.fuses = b.fuses) :
    Keeps b (s.bootRecord o).boot := by
  unfold State.bootRecord
  exact record_keeps _ _ _ _ (by simpa [State.draw] using hf) (by simpa [State.draw] using hu)

theorem tryReady_keeps (b : Boot) (s : State) (hf : s.boot.flash = b.flash) (hu : s.boot.fuses = b.fuses) : Keeps b s.tryReady.boot := by
  unfold State.tryReady
  split
  · exact Keeps.of_eq hu hf
  · split
    · have h := bootRecord_keeps b s 1 hf hu
      generalize s.bootRecord 1 = z at *
      exact h
    · exact Keeps.of_eq hu hf

theorem slot_room (k n img : Bytes) : ((imageCrypt k n img).take (slotBytes - 64)).length ≤ slotBytes - 64 := by
  rw [List.length_take]; omega

theorem writeStage_keeps (b : Boot) (s : State) (slot gen : Nat) (img : Bytes) (w : Bool) (hf : s.boot.flash = b.flash)
    (hu : s.boot.fuses = b.fuses) (hs : b.image.isSome = true → (b.slot = 1 ∨ b.slot = 2) → slot = 3 - b.slot) :
    Keeps b (s.writeStage slot gen img w).boot := by
  refine ⟨by simp [State.writeStage, State.draw, hu], ?_, ?_⟩
  · intro h
    unfold State.writeStage State.draw
    dsimp only
    split <;> repeat apply Mem.wfD_writeD
    all_goals exact hf ▸ h
  · intro hi hb a h1 h2
    have hs := hs hi hb
    unfold State.writeStage State.draw
    dsimp only
    have h3 : a < slotBase slot ∨ slotBase slot + slotBytes ≤ a := by
      rcases hb with hb | hb <;> simp [hb, hs, slotBase, slotBytes] at * <;> omega
    have hsb : (64 : Nat) ≤ slotBytes := by decide
    have hr := slot_room (nvmKeys s.boot.seed).2 ((List.range 16).map (Config.freeByte s.free)) img
    generalize hc : (imageCrypt (nvmKeys s.boot.seed).2 ((List.range 16).map (Config.freeByte s.free)) img).take (slotBytes - 64) = ct at *
    have hh := writeHdr_length (nvmKeys s.boot.seed).1 ((List.range 16).map (Config.freeByte s.free)) gen img.length
    simp only [List.length_map, List.length_range] at hh
    generalize writeHdr (nvmKeys s.boot.seed).1 ((List.range 16).map (Config.freeByte s.free)) gen img.length = hd at *
    split
    · rw [getD_writeD_low _ _ _ _ _ (by omega), getD_writeD_low _ _ _ _ _ (by omega), hf]
    · rw [getD_writeD_low _ _ _ _ _ (by omega), hf]

theorem eraseSlot_keeps (b : Boot) (s : State) (slot : Nat) (hf : s.boot.flash = b.flash) (hu : s.boot.fuses = b.fuses)
    (hs : b.image.isSome = true → (b.slot = 1 ∨ b.slot = 2) → slot = 3 - b.slot) : Keeps b (s.eraseSlot slot).boot := by
  refine ⟨by simp [State.eraseSlot, hu], fun h => Mem.wfD_filter _ _ _ (hf ▸ h), ?_⟩
  intro hi hb a h1 h2
  have hs := hs hi hb
  simp only [State.eraseSlot]
  rw [Mem.getD_filter, hf]
  intro c
  rcases hb with hb | hb <;> simp [hb, hs, slotBase, slotBytes] at * <;> omega

theorem stage_slot (s : State) : s.boot.image.isSome = true → (s.boot.slot = 1 ∨ s.boot.slot = 2) → s.stageSlot.1 = 3 - s.boot.slot := by
  intro h k
  unfold State.stageSlot
  cases hi : s.boot.image with
  | none => simp [hi] at h
  | some im => rcases k with k | k <;> simp [k]

theorem nvm_keeps (o : Option Bytes) (s t : State) (h : exec (.nvmStage o) s = .next t) : Keeps s.boot t.boot := by
  have hb : (s.settled none).boot = s.boot := by simp
  simp only [exec, execNvmStage] at h
  generalize s.settled none = u at *
  have self : ∀ v : State, v.boot = u.boot → Keeps s.boot v.boot := fun v hv => Keeps.of_eq (by rw [hv, hb]) (by rw [hv, hb])
  have hc : ∀ (v : State) (q : Nat) (r : Result), (v.complete none false q r).boot = v.boot := fun v q r => by simp
  have hse : ∀ (q : Nat) (r : Result), (u.stageEnd q r).boot = u.boot := fun q r => by simp
  have hss : ∀ g : Option Stage, ({ u with boot := { u.boot with stage := g } } : State).stageSlot = u.stageSlot := fun _ => rfl
  split at h
  · rename_i g _
    cases h
    unfold State.stageFinish
    dsimp only
    split
    · rw [hc]; exact Keeps.of_eq (by simp [hb]) (by simp [hb])
    · rw [hc, hss]
      exact writeStage_keeps _ _ _ _ _ _ (by simp [hb]) (by simp [hb]) (by rw [← hb]; exact stage_slot u)
  · split at h
    · cases h; exact self _ rfl
    · split at h
      · cases h; exact self _ rfl
      · split at h
        · cases h; exact self _ (hse _ _)
        · rename_i e _ _ _ img
          generalize (if img.length ≠ e.cmd.arg1 then 3 else verifyImage img u.boot.dpk u.boot.blown) = code at h
          by_cases hcd : code = 0
          · rw [if_pos hcd] at h
            cases h
            unfold State.stageBegin
            dsimp only
            have hst : (u.start none false e.cmd.seq).boot = u.boot := by simp
            have h2 : (u.start none false e.cmd.seq).stageSlot = u.stageSlot := by unfold State.stageSlot; rw [hst]
            have := eraseSlot_keeps s.boot (u.start none false e.cmd.seq) (u.start none false e.cmd.seq).stageSlot.1 (by rw [hst, hb]) (by rw [hst, hb])
              (by rw [h2, ← hb]; exact stage_slot u)
            exact this
          · rw [if_neg hcd] at h
            cases h; exact self _ (hse _ _)

theorem power_keeps (a b c d : Bool) (s t : State) (h : exec (.powerGood a b c d) s = .next t) : Keeps s.boot t.boot := by
  simp only [exec, execPowerGood] at h
  split at h
  · cases h; exact Keeps.of_eq rfl rfl
  · have hf : (s.beginStart b c d).boot.flash = s.boot.flash := by simp
    have hu : (s.beginStart b c d).boot.fuses = s.boot.fuses := by simp
    generalize s.beginStart b c d = u at *
    split at h
    · cases h
      unfold State.afterChoice
      split
      · have := bootRecord_keeps s.boot u 2 hf hu
        simpa [Keeps] using this
      · split
        · exact Keeps.of_eq (by simp [hu]) (by simp [hf])
        · exact Keeps.of_eq hu hf
    · cases h
      unfold State.holdRom
      have := bootRecord_keeps s.boot { u with boot := { u.boot with slot := 0, chosen := none, reasonA := 0, reasonB := 0 } } 3 hf hu
      simpa [Keeps] using this

theorem window_keeps (s t : State) (h : exec .jewelWindow s = .next t) : Keeps s.boot t.boot := by
  simp only [exec, execJewelWindow] at h
  split at h
  · cases h; exact Keeps.of_eq rfl rfl
  · cases h
    apply advanceFuse_keeps
    · repeat' split
      all_goals simp
    · repeat' split
      all_goals simp

theorem pkg_keeps (pkg : Fin 64) (temp : Option Int) (s t : State) (h : exec (.packageTempRead pkg temp) s = .next t) : Keeps s.boot t.boot := by
  simp only [exec, execPackageTempRead] at h
  repeat' split at h
  all_goals cases h
  all_goals first
    | (unfold State.packageLost; dsimp only; apply tryReady_keeps <;> simp; done)
    | exact Keeps.of_eq (by simp) (by simp)
    | exact Keeps.of_eq rfl rfl

theorem engineFail_keeps (s : State) (q : PortId) : Keeps s.boot (s.engineFail q).boot := by
  unfold State.engineFail; apply tryReady_keeps <;> simp

theorem optical_keeps (q : PortId) (s t : State) (h : exec (.opticalEngineFail q) s = .next t) : Keeps s.boot t.boot := by
  simp only [exec, execOpticalEngineFail] at h
  split at h <;> cases h
  · exact Keeps.refl _
  · exact engineFail_keeps _ _

theorem pll_keeps (i : Fin 76) (s t : State) (h : exec (.pllLossOfLock i) s = .next t) : Keeps s.boot t.boot := by
  simp only [exec, execPllLossOfLock] at h
  repeat' split at h
  all_goals cases h
  all_goals first
    | (apply Keeps.of_eq <;> simp; done)
    | exact engineFail_keeps _ _

theorem hatband_keeps (s t : State) (h : exec .hatbandOpen s = .next t) : Keeps s.boot t.boot := by
  simp only [exec, execHatbandOpen] at h
  split at h
  · split at h <;> cases h
    · apply tryReady_keeps <;> simp
    · exact Keeps.refl _
  · cases h; exact Keeps.refl _

theorem pouncing_keeps (p : PartId) (r : List ReadBack) (f : List (TileId × Nat)) (s t : State) (h : exec (.pouncingDone p r f) s = .next t) :
    Keeps s.boot t.boot := by
  simp only [exec, execPouncingDone] at h
  have hv : ∀ (l : List ReadBack) (s : State), (l.foldl (fun s r => s.verifyLine p r) s).boot = s.boot := by
    intro l
    induction l with
    | nil => intro s; rfl
    | cons a l ih => intro s; rw [List.foldl_cons, ih]; simp
  split at h <;> cases h
  · apply tryReady_keeps
    · split <;> simp [hv]
    · split <;> simp [hv]
  · exact Keeps.refl _

theorem training_keeps (t : TileId) (k : ChanId) (ok : Bool) (s u : State) (h : exec (.channelTrainingDone t k ok) s = .next u) :
    Keeps s.boot u.boot := by
  simp only [exec, execChannelTrainingDone] at h
  split at h
  · cases h; exact Keeps.refl _
  · split at h <;> cases h
    · exact Keeps.refl _
    · apply tryReady_keeps
      · repeat' split
        all_goals simp
      · repeat' split
        all_goals simp

theorem engine_keeps (q : PortId) (ok : Bool) (s t : State) (h : exec (.engineSelfTestDone q ok) s = .next t) : Keeps s.boot t.boot := by
  simp only [exec, execEngineSelfTestDone] at h
  split at h <;> cases h
  · apply tryReady_keeps
    · split <;> simp
    · split <;> simp
  · exact Keeps.refl _

/-- Every command keeps the blown fuses, the form of the flash and the running image's slot. -/
theorem exec_keeps (c : Instr) (s t : State) (he : exec c s = .next t) : Keeps s.boot t.boot := by
  cases c with
  | slotTake f urgent => obtain ⟨u, h, k⟩ := execSlotTake_frame f urgent s; have := h.symm.trans he; cases this; exact Keeps.of_eq (by simp only [k]) (by simp only [k])
  | badslot f urgent => obtain ⟨u, h, k⟩ := execBadslot_frame f urgent s; have := h.symm.trans he; cases this; exact Keeps.of_eq (by simp only [k]) (by simp only [k])
  | barWrite f bar off data => obtain ⟨u, h, k⟩ := execBarWrite_frame f bar off data s; have := h.symm.trans he; cases this; exact Keeps.of_eq (by simp only [k]) (by simp only [k])
  | jobOpen p obj sigOk => obtain ⟨u, h, k⟩ := execJobOpen_frame p obj sigOk s; have := h.symm.trans he; cases this; exact Keeps.of_eq (by simp only [k]) (by simp only [k])
  | jobClose p => obtain ⟨u, h, k⟩ := execJobClose_frame p s; have := h.symm.trans he; cases this; exact Keeps.of_eq (by simp only [k]) (by simp only [k])
  | keyRelease p obj sigOk kem => obtain ⟨u, h, k⟩ := execKeyRelease_frame p obj sigOk kem s; have := h.symm.trans he; cases this; exact Keeps.of_eq (by simp only [k]) (by simp only [k])
  | attest f nonce => obtain ⟨u, h, k⟩ := execAttest_frame f nonce s; have := h.symm.trans he; cases this; exact Keeps.of_eq (by simp only [k]) (by simp only [k])
  | loadProgram p obj => obtain ⟨u, h, k⟩ := execLoadProgram_frame p obj s; have := h.symm.trans he; cases this; exact Keeps.of_eq (by simp only [k]) (by simp only [k])
  | run p => obtain ⟨u, h, k⟩ := execRun_frame p s; have := h.symm.trans he; cases this; exact Keeps.of_eq (by simp only [k]) (by simp only [k])
  | copyIn p => obtain ⟨u, h, k⟩ := execCopyIn_frame p s; have := h.symm.trans he; cases this; exact Keeps.of_eq (by simp only [k]) (by simp only [k])
  | copyOut p => obtain ⟨u, h, k⟩ := execCopyOut_frame p s; have := h.symm.trans he; cases this; exact Keeps.of_eq (by simp only [k]) (by simp only [k])
  | bind p => obtain ⟨u, h, k⟩ := execBind_frame p s; have := h.symm.trans he; cases this; exact Keeps.of_eq (by simp only [k]) (by simp only [k])
  | unbind p => obtain ⟨u, h, k⟩ := execUnbind_frame p s; have := h.symm.trans he; cases this; exact Keeps.of_eq (by simp only [k]) (by simp only [k])
  | reduce p => obtain ⟨u, h, k⟩ := execReduce_frame p s; have := h.symm.trans he; cases this; exact Keeps.of_eq (by simp only [k]) (by simp only [k])
  | checkpoint p => obtain ⟨u, h, k⟩ := execCheckpoint_frame p s; have := h.symm.trans he; cases this; exact Keeps.of_eq (by simp only [k]) (by simp only [k])
  | restore p => obtain ⟨u, h, k⟩ := execRestore_frame p s; have := h.symm.trans he; cases this; exact Keeps.of_eq (by simp only [k]) (by simp only [k])
  | fence p => obtain ⟨u, h, k⟩ := execFence_frame p s; have := h.symm.trans he; cases this; exact Keeps.of_eq (by simp only [k]) (by simp only [k])
  | status f => obtain ⟨u, h, k⟩ := execStatus_frame f s; have := h.symm.trans he; cases this; exact Keeps.of_eq (by simp only [k]) (by simp only [k])
  | abort f => obtain ⟨u, h, k⟩ := execAbort_frame f s; have := h.symm.trans he; cases this; exact Keeps.of_eq (by simp only [k]) (by simp only [k])
  | nvmStage obj => exact nvm_keeps obj s t he
  | commandTimeout f => obtain ⟨u, h, k⟩ := execCommandTimeout_frame f s; have := h.symm.trans he; cases this; exact Keeps.of_eq (by simp only [k]) (by simp only [k])
  | jewelWindow  => exact window_keeps  s t he
  | jewelWatchdogExpiry  => obtain ⟨u, h, k⟩ := execJewelWatchdogExpiry_frame  s; have := h.symm.trans he; cases this; exact Keeps.of_eq (by simp only [k]) (by simp only [k])
  | pass t => obtain ⟨u, h, k⟩ := execPass_frame t s; have := h.symm.trans he; cases this; exact Keeps.of_eq (by simp only [k]) (by simp only [k])
  | passComplete t => obtain ⟨u, h, k⟩ := execPassComplete_frame t s; have := h.symm.trans he; cases this; exact Keeps.of_eq (by simp only [k]) (by simp only [k])
  | accumReplay t => obtain ⟨u, h, k⟩ := execAccumReplay_frame t s; have := h.symm.trans he; cases this; exact Keeps.of_eq (by simp only [k]) (by simp only [k])
  | epilogue t => obtain ⟨u, h, k⟩ := execEpilogue_frame t s; have := h.symm.trans he; cases this; exact Keeps.of_eq (by simp only [k]) (by simp only [k])
  | vec t => obtain ⟨u, h, k⟩ := execVec_frame t s; have := h.symm.trans he; cases this; exact Keeps.of_eq (by simp only [k]) (by simp only [k])
  | dma t => obtain ⟨u, h, k⟩ := execDma_frame t s; have := h.symm.trans he; cases this; exact Keeps.of_eq (by simp only [k]) (by simp only [k])
  | dmaComplete t ix => obtain ⟨u, h, k⟩ := execDmaComplete_frame t ix s; have := h.symm.trans he; cases this; exact Keeps.of_eq (by simp only [k]) (by simp only [k])
  | send t => obtain ⟨u, h, k⟩ := execSend_frame t s; have := h.symm.trans he; cases this; exact Keeps.of_eq (by simp only [k]) (by simp only [k])
  | recv t => obtain ⟨u, h, k⟩ := execRecv_frame t s; have := h.symm.trans he; cases this; exact Keeps.of_eq (by simp only [k]) (by simp only [k])
  | meshTransferDone src dst => obtain ⟨u, h, k⟩ := execMeshTransferDone_frame src dst s; have := h.symm.trans he; cases this; exact Keeps.of_eq (by simp only [k]) (by simp only [k])
  | loop t => obtain ⟨u, h, k⟩ := execLoop_frame t s; have := h.symm.trans he; cases this; exact Keeps.of_eq (by simp only [k]) (by simp only [k])
  | endProgram t => obtain ⟨u, h, k⟩ := execEndProgram_frame t s; have := h.symm.trans he; cases this; exact Keeps.of_eq (by simp only [k]) (by simp only [k])
  | tileComplete t => obtain ⟨u, h, k⟩ := execTileComplete_frame t s; have := h.symm.trans he; cases this; exact Keeps.of_eq (by simp only [k]) (by simp only [k])
  | sealGranuleRead t ix lines => obtain ⟨u, h, k⟩ := execSealGranuleRead_frame t ix lines s; have := h.symm.trans he; cases this; exact Keeps.of_eq (by simp only [k]) (by simp only [k])
  | counterMissFill t ix lines mirrors => obtain ⟨u, h, k⟩ := execCounterMissFill_frame t ix lines mirrors s; have := h.symm.trans he; cases this; exact Keeps.of_eq (by simp only [k]) (by simp only [k])
  | sealGranuleWrite t ix lines => obtain ⟨u, h, k⟩ := execSealGranuleWrite_frame t ix lines s; have := h.symm.trans he; cases this; exact Keeps.of_eq (by simp only [k]) (by simp only [k])
  | rootUpdate t => obtain ⟨u, h, k⟩ := execRootUpdate_frame t s; have := h.symm.trans he; cases this; exact Keeps.of_eq (by simp only [k]) (by simp only [k])
  | patrolRead t k line => obtain ⟨u, h, k⟩ := execPatrolRead_frame t k line s; have := h.symm.trans he; cases this; exact Keeps.of_eq (by simp only [k]) (by simp only [k])
  | refresh t k => obtain ⟨u, h, k⟩ := execRefresh_frame t k s; have := h.symm.trans he; cases this; exact Keeps.of_eq (by simp only [k]) (by simp only [k])
  | packageTempRead pkg temp => exact pkg_keeps pkg temp s t he
  | dieSensorRead ix temp => obtain ⟨u, h, k⟩ := execDieSensorRead_frame ix temp s; have := h.symm.trans he; cases this; exact Keeps.of_eq (by simp only [k]) (by simp only [k])
  | tripCool  => obtain ⟨u, h, k⟩ := execTripCool_frame  s; have := h.symm.trans he; cases this; exact Keeps.of_eq (by simp only [k]) (by simp only [k])
  | rootScrub flips => obtain ⟨u, h, k⟩ := execRootScrub_frame flips s; have := h.symm.trans he; cases this; exact Keeps.of_eq (by simp only [k]) (by simp only [k])
  | dataFrameReceive port fecOk fecc wire => obtain ⟨u, h, k⟩ := execDataFrameReceive_frame port fecOk fecc wire s; have := h.symm.trans he; cases this; exact Keeps.of_eq (by simp only [k]) (by simp only [k])
  | idleFrameReceive port fecOk fecc wire => obtain ⟨u, h, k⟩ := execIdleFrameReceive_frame port fecOk fecc wire s; have := h.symm.trans he; cases this; exact Keeps.of_eq (by simp only [k]) (by simp only [k])
  | frameSlotSend port => obtain ⟨u, h, k⟩ := execFrameSlotSend_frame port s; have := h.symm.trans he; cases this; exact Keeps.of_eq (by simp only [k]) (by simp only [k])
  | replayTimeout port => obtain ⟨u, h, k⟩ := execReplayTimeout_frame port s; have := h.symm.trans he; cases this; exact Keeps.of_eq (by simp only [k]) (by simp only [k])
  | ackStallRetrain port => obtain ⟨u, h, k⟩ := execAckStallRetrain_frame port s; have := h.symm.trans he; cases this; exact Keeps.of_eq (by simp only [k]) (by simp only [k])
  | laneSignalLoss port back => obtain ⟨u, h, k⟩ := execLaneSignalLoss_frame port back s; have := h.symm.trans he; cases this; exact Keeps.of_eq (by simp only [k]) (by simp only [k])
  | signalHoldExpiry port => obtain ⟨u, h, k⟩ := execSignalHoldExpiry_frame port s; have := h.symm.trans he; cases this; exact Keeps.of_eq (by simp only [k]) (by simp only [k])
  | laneLock port => obtain ⟨u, h, k⟩ := execLaneLock_frame port s; have := h.symm.trans he; cases this; exact Keeps.of_eq (by simp only [k]) (by simp only [k])
  | hello port coord nport nonce digest fecc => obtain ⟨u, h, k⟩ := execHello_frame port coord nport nonce digest fecc s; have := h.symm.trans he; cases this; exact Keeps.of_eq (by simp only [k]) (by simp only [k])
  | evidenceDPlus port chain report ek authOk fecc => obtain ⟨u, h, k⟩ := execEvidenceDPlus_frame port chain report ek authOk fecc s; have := h.symm.trans he; cases this; exact Keeps.of_eq (by simp only [k]) (by simp only [k])
  | evidenceDMinus port chain report ct authOk kem fecc => obtain ⟨u, h, k⟩ := execEvidenceDMinus_frame port chain report ct authOk kem fecc s; have := h.symm.trans he; cases this; exact Keeps.of_eq (by simp only [k]) (by simp only [k])
  | refusedRetry port => obtain ⟨u, h, k⟩ := execRefusedRetry_frame port s; have := h.symm.trans he; cases this; exact Keeps.of_eq (by simp only [k]) (by simp only [k])
  | crsync port fecOk fecc wire loopPs => obtain ⟨u, h, k⟩ := execCrsync_frame port fecOk fecc wire loopPs s; have := h.symm.trans he; cases this; exact Keeps.of_eq (by simp only [k]) (by simp only [k])
  | opticalEngineFail port => exact optical_keeps port s t he
  | hatbandOpen  => exact hatband_keeps s t he
  | cardingContribution t => obtain ⟨u, h, k⟩ := execCardingContribution_frame t s; have := h.symm.trans he; cases this; exact Keeps.of_eq (by simp only [k]) (by simp only [k])
  | partialMsg p => obtain ⟨u, h, k⟩ := execPartialMsg_frame p s; have := h.symm.trans he; cases this; exact Keeps.of_eq (by simp only [k]) (by simp only [k])
  | finalMsg p => obtain ⟨u, h, k⟩ := execFinalMsg_frame p s; have := h.symm.trans he; cases this; exact Keeps.of_eq (by simp only [k]) (by simp only [k])
  | gather p => obtain ⟨u, h, k⟩ := execGather_frame p s; have := h.symm.trans he; cases this; exact Keeps.of_eq (by simp only [k]) (by simp only [k])
  | mkup p => obtain ⟨u, h, k⟩ := execMkup_frame p s; have := h.symm.trans he; cases this; exact Keeps.of_eq (by simp only [k]) (by simp only [k])
  | mkdn p => obtain ⟨u, h, k⟩ := execMkdn_frame p s; have := h.symm.trans he; cases this; exact Keeps.of_eq (by simp only [k]) (by simp only [k])
  | moveMsg p => obtain ⟨u, h, k⟩ := execMoveMsg_frame p s; have := h.symm.trans he; cases this; exact Keeps.of_eq (by simp only [k]) (by simp only [k])
  | bucketDelivery p tag => obtain ⟨u, h, k⟩ := execBucketDelivery_frame p tag s; have := h.symm.trans he; cases this; exact Keeps.of_eq (by simp only [k]) (by simp only [k])
  | eraRaise p => obtain ⟨u, h, k⟩ := execEraRaise_frame p s; have := h.symm.trans he; cases this; exact Keeps.of_eq (by simp only [k]) (by simp only [k])
  | eraAck p => obtain ⟨u, h, k⟩ := execEraAck_frame p s; have := h.symm.trans he; cases this; exact Keeps.of_eq (by simp only [k]) (by simp only [k])
  | opened p => obtain ⟨u, h, k⟩ := execOpened_frame p s; have := h.symm.trans he; cases this; exact Keeps.of_eq (by simp only [k]) (by simp only [k])
  | challenge p => obtain ⟨u, h, k⟩ := execChallenge_frame p s; have := h.symm.trans he; cases this; exact Keeps.of_eq (by simp only [k]) (by simp only [k])
  | memberReport p authOk => obtain ⟨u, h, k⟩ := execMemberReport_frame p authOk s; have := h.symm.trans he; cases this; exact Keeps.of_eq (by simp only [k]) (by simp only [k])
  | keyset p kem => obtain ⟨u, h, k⟩ := execKeyset_frame p kem s; have := h.symm.trans he; cases this; exact Keeps.of_eq (by simp only [k]) (by simp only [k])
  | joined p => obtain ⟨u, h, k⟩ := execJoined_frame p s; have := h.symm.trans he; cases this; exact Keeps.of_eq (by simp only [k]) (by simp only [k])
  | sidCeilingRaise p => obtain ⟨u, h, k⟩ := execSidCeilingRaise_frame p s; have := h.symm.trans he; cases this; exact Keeps.of_eq (by simp only [k]) (by simp only [k])
  | restoreAgreement p => obtain ⟨u, h, k⟩ := execRestoreAgreement_frame p s; have := h.symm.trans he; cases this; exact Keeps.of_eq (by simp only [k]) (by simp only [k])
  | goMsg p => obtain ⟨u, h, k⟩ := execGoMsg_frame p s; have := h.symm.trans he; cases this; exact Keeps.of_eq (by simp only [k]) (by simp only [k])
  | tileMark t => obtain ⟨u, h, k⟩ := execTileMark_frame t s; have := h.symm.trans he; cases this; exact Keeps.of_eq (by simp only [k]) (by simp only [k])
  | heldGranuleWrite t => obtain ⟨u, h, k⟩ := execHeldGranuleWrite_frame t s; have := h.symm.trans he; cases this; exact Keeps.of_eq (by simp only [k]) (by simp only [k])
  | checkpointTrailer p => obtain ⟨u, h, k⟩ := execCheckpointTrailer_frame p s; have := h.symm.trans he; cases this; exact Keeps.of_eq (by simp only [k]) (by simp only [k])
  | buddyChunk p => obtain ⟨u, h, k⟩ := execBuddyChunk_frame p s; have := h.symm.trans he; cases this; exact Keeps.of_eq (by simp only [k]) (by simp only [k])
  | buddyTrailerAck p => obtain ⟨u, h, k⟩ := execBuddyTrailerAck_frame p s; have := h.symm.trans he; cases this; exact Keeps.of_eq (by simp only [k]) (by simp only [k])
  | buddyLogRequest p => obtain ⟨u, h, k⟩ := execBuddyLogRequest_frame p s; have := h.symm.trans he; cases this; exact Keeps.of_eq (by simp only [k]) (by simp only [k])
  | partitionReset p bal => obtain ⟨u, h, k⟩ := execPartitionReset_frame p bal s; have := h.symm.trans he; cases this; exact Keeps.of_eq (by simp only [k]) (by simp only [k])
  | resetFlushDone p => obtain ⟨u, h, k⟩ := execResetFlushDone_frame p s; have := h.symm.trans he; cases this; exact Keeps.of_eq (by simp only [k]) (by simp only [k])
  | flushTimeout p => obtain ⟨u, h, k⟩ := execFlushTimeout_frame p s; have := h.symm.trans he; cases this; exact Keeps.of_eq (by simp only [k]) (by simp only [k])
  | selfTestDone p fails => obtain ⟨u, h, k⟩ := execSelfTestDone_frame p fails s; have := h.symm.trans he; cases this; exact Keeps.of_eq (by simp only [k]) (by simp only [k])
  | recentreDone p failed => obtain ⟨u, h, k⟩ := execRecentreDone_frame p failed s; have := h.symm.trans he; cases this; exact Keeps.of_eq (by simp only [k]) (by simp only [k])
  | resetOverrun p => obtain ⟨u, h, k⟩ := execResetOverrun_frame p s; have := h.symm.trans he; cases this; exact Keeps.of_eq (by simp only [k]) (by simp only [k])
  | pouncingDone p reads fails => exact pouncing_keeps p reads fails s t he
  | pouncingOverrun p => obtain ⟨u, h, k⟩ := execPouncingOverrun_frame p s; have := h.symm.trans he; cases this; exact Keeps.of_eq (by simp only [k]) (by simp only [k])
  | channelInitDone t k => obtain ⟨u, h, k⟩ := execChannelInitDone_frame t k s; have := h.symm.trans he; cases this; exact Keeps.of_eq (by simp only [k]) (by simp only [k])
  | moduleRestart code detail => obtain ⟨u, h, k⟩ := execModuleRestart_frame code detail s; have := h.symm.trans he; cases this; exact Keeps.of_eq (by simp only [k]) (by simp only [k])
  | powerGood romOk certRead readA readB => exact power_keeps romOk certRead readA readB s t he
  | channelTrainingDone x k ok => exact training_keeps x k ok s t he
  | engineSelfTestDone port ok => exact engine_keeps port ok s t he
  | escapementWindow t a => obtain ⟨u, h, k⟩ := execEscapementWindow_frame t a s; have := h.symm.trans he; cases this; exact Keeps.of_eq (by simp only [k]) (by simp only [k])
  | droopEvent t => obtain ⟨u, h, k⟩ := execDroopEvent_frame t s; have := h.symm.trans he; cases this; exact Keeps.of_eq (by simp only [k]) (by simp only [k])
  | rowMonitorSample row ma => obtain ⟨u, h, k⟩ := execRowMonitorSample_frame row ma s; have := h.symm.trans he; cases this; exact Keeps.of_eq (by simp only [k]) (by simp only [k])
  | coreRailOvercurrent row => obtain ⟨u, h, k⟩ := execCoreRailOvercurrent_frame row s; have := h.symm.trans he; cases this; exact Keeps.of_eq (by simp only [k]) (by simp only [k])
  | pllLossOfLock island => exact pll_keeps island s t he
  | oscillatorLoss  => obtain ⟨u, h, k⟩ := execOscillatorLoss_frame  s; have := h.symm.trans he; cases this; exact Keeps.of_eq (by simp only [k]) (by simp only [k])
  | inputUndervoltage  => obtain ⟨u, h, k⟩ := execInputUndervoltage_frame  s; have := h.symm.trans he; cases this; exact Keeps.of_eq (by simp only [k]) (by simp only [k])
  | inputOvervoltage  => obtain ⟨u, h, k⟩ := execInputOvervoltage_frame  s; have := h.symm.trans he; cases this; exact Keeps.of_eq (by simp only [k]) (by simp only [k])
  | inputOvercurrent  => obtain ⟨u, h, k⟩ := execInputOvercurrent_frame  s; have := h.symm.trans he; cases this; exact Keeps.of_eq (by simp only [k]) (by simp only [k])
  | inputRelease tooHigh => obtain ⟨u, h, k⟩ := execInputRelease_frame tooHigh s; have := h.symm.trans he; cases this; exact Keeps.of_eq (by simp only [k]) (by simp only [k])
  | vauxFault  => obtain ⟨u, h, k⟩ := execVauxFault_frame  s; have := h.symm.trans he; cases this; exact Keeps.of_eq (by simp only [k]) (by simp only [k])
  | inputPowerApplied slotId => obtain ⟨u, h, k⟩ := execInputPowerApplied_frame slotId s; have := h.symm.trans he; cases this; exact Keeps.of_eq (by simp only [k]) (by simp only [k])
  | railsRise  => obtain ⟨u, h, k⟩ := execRailsRise_frame  s; have := h.symm.trans he; cases this; exact Keeps.of_eq (by simp only [k]) (by simp only [k])
  | startConditionLoss removed => obtain ⟨u, h, k⟩ := execStartConditionLoss_frame removed s; have := h.symm.trans he; cases this; exact Keeps.of_eq (by simp only [k]) (by simp only [k])
  | modEnableDeassert slotId => obtain ⟨u, h, k⟩ := execModEnableDeassert_frame slotId s; have := h.symm.trans he; cases this; exact Keeps.of_eq (by simp only [k]) (by simp only [k])
  | modEnableAssert  => obtain ⟨u, h, k⟩ := execModEnableAssert_frame  s; have := h.symm.trans he; cases this; exact Keeps.of_eq (by simp only [k]) (by simp only [k])
  | perstNAssert  => obtain ⟨u, h, k⟩ := execPerstNAssert_frame  s; have := h.symm.trans he; cases this; exact Keeps.of_eq (by simp only [k]) (by simp only [k])
  | perstNRelease  => obtain ⟨u, h, k⟩ := execPerstNRelease_frame  s; have := h.symm.trans he; cases this; exact Keeps.of_eq (by simp only [k]) (by simp only [k])
  | stormHoldEnd  => obtain ⟨u, h, k⟩ := execStormHoldEnd_frame  s; have := h.symm.trans he; cases this; exact Keeps.of_eq (by simp only [k]) (by simp only [k])
  | railsRested  => obtain ⟨u, h, k⟩ := execRailsRested_frame  s; have := h.symm.trans he; cases this; exact Keeps.of_eq (by simp only [k]) (by simp only [k])
  | smbusBlockRead addr code a => obtain ⟨u, h, k⟩ := execSmbusBlockRead_frame addr code a s; have := h.symm.trans he; cases this; exact Keeps.of_eq (by simp only [k]) (by simp only [k])
  | smbusWrite addr code data => obtain ⟨u, h, k⟩ := execSmbusWrite_frame addr code data s; have := h.symm.trans he; cases this; exact Keeps.of_eq (by simp only [k]) (by simp only [k])
  | smbusTimeout  => obtain ⟨u, h, k⟩ := execSmbusTimeout_frame  s; have := h.symm.trans he; cases this; exact Keeps.of_eq (by simp only [k]) (by simp only [k])
  | functionLevelReset p => obtain ⟨u, h, k⟩ := execFunctionLevelReset_frame p s; have := h.symm.trans he; cases this; exact Keeps.of_eq (by simp only [k]) (by simp only [k])
  | pfFunctionLevelReset  => obtain ⟨u, h, k⟩ := execPfFunctionLevelReset_frame  s; have := h.symm.trans he; cases this; exact Keeps.of_eq (by simp only [k]) (by simp only [k])
  | dlDown  => obtain ⟨u, h, k⟩ := execDlDown_frame  s; have := h.symm.trans he; cases this; exact Keeps.of_eq (by simp only [k]) (by simp only [k])
  | vfEnable numVfs enable => obtain ⟨u, h, k⟩ := execVfEnable_frame numVfs enable s; have := h.symm.trans he; cases this; exact Keeps.of_eq (by simp only [k]) (by simp only [k])
  | busMasterEnable f on => obtain ⟨u, h, k⟩ := execBusMasterEnable_frame f on s; have := h.symm.trans he; cases this; exact Keeps.of_eq (by simp only [k]) (by simp only [k])
  | hostDmaSlot pf write => obtain ⟨u, h, k⟩ := execHostDmaSlot_frame pf write s; have := h.symm.trans he; cases this; exact Keeps.of_eq (by simp only [k]) (by simp only [k])
  | dmaReadCompletion id ok data => obtain ⟨u, h, k⟩ := execDmaReadCompletion_frame id ok data s; have := h.symm.trans he; cases this; exact Keeps.of_eq (by simp only [k]) (by simp only [k])
  | completionTimeout id => obtain ⟨u, h, k⟩ := execCompletionTimeout_frame id s; have := h.symm.trans he; cases this; exact Keeps.of_eq (by simp only [k]) (by simp only [k])
  | debugControlWrite t v => obtain ⟨u, h, k⟩ := execDebugControlWrite_frame t v s; have := h.symm.trans he; cases this; exact Keeps.of_eq (by simp only [k]) (by simp only [k])
  | debugMemoryWrite t off data => obtain ⟨u, h, k⟩ := execDebugMemoryWrite_frame t off data s; have := h.symm.trans he; cases this; exact Keeps.of_eq (by simp only [k]) (by simp only [k])
  | logEntryWrite p => obtain ⟨u, h, k⟩ := execLogEntryWrite_frame p s; have := h.symm.trans he; cases this; exact Keeps.of_eq (by simp only [k]) (by simp only [k])
  | oscillatorRecovery  => obtain ⟨u, h, k⟩ := execOscillatorRecovery_frame  s; have := h.symm.trans he; cases this; exact Keeps.of_eq (by simp only [k]) (by simp only [k])
  | vauxRecovery  => obtain ⟨u, h, k⟩ := execVauxRecovery_frame  s; have := h.symm.trans he; cases this; exact Keeps.of_eq (by simp only [k]) (by simp only [k])
  | modEnableHeldLow  => obtain ⟨u, h, k⟩ := execModEnableHeldLow_frame  s; have := h.symm.trans he; cases this; exact Keeps.of_eq (by simp only [k]) (by simp only [k])
  | dlUp rate width mps => obtain ⟨u, h, k⟩ := execDlUp_frame rate width mps s; have := h.symm.trans he; cases this; exact Keeps.of_eq (by simp only [k]) (by simp only [k])
  | retrainLimitRelease port => obtain ⟨u, h, k⟩ := execRetrainLimitRelease_frame port s; have := h.symm.trans he; cases this; exact Keeps.of_eq (by simp only [k]) (by simp only [k])
  | vecComplete t => obtain ⟨u, h, k⟩ := execVecComplete_frame t s; have := h.symm.trans he; cases this; exact Keeps.of_eq (by simp only [k]) (by simp only [k])
  | eraCeilingReceive p => obtain ⟨u, h, k⟩ := execEraCeilingReceive_frame p s; have := h.symm.trans he; cases this; exact Keeps.of_eq (by simp only [k]) (by simp only [k])
  | sidCeilingReceive p => obtain ⟨u, h, k⟩ := execSidCeilingReceive_frame p s; have := h.symm.trans he; cases this; exact Keeps.of_eq (by simp only [k]) (by simp only [k])
  | sidCeilingAck p => obtain ⟨u, h, k⟩ := execSidCeilingAck_frame p s; have := h.symm.trans he; cases this; exact Keeps.of_eq (by simp only [k]) (by simp only [k])
  | restoreLogChunk p => obtain ⟨u, h, k⟩ := execRestoreLogChunk_frame p s; have := h.symm.trans he; cases this; exact Keeps.of_eq (by simp only [k]) (by simp only [k])
  | buddyRefusal p => obtain ⟨u, h, k⟩ := execBuddyRefusal_frame p s; have := h.symm.trans he; cases this; exact Keeps.of_eq (by simp only [k]) (by simp only [k])

theorem step_keeps (s t : State) (h : step s = .next t) : Keeps s.boot t.boot := by
  unfold step at h
  split at h
  · cases h; exact Keeps.refl _
  · rename_i c rest _
    have := exec_keeps c { s with pending := rest } t h
    simpa using this

end Sys2Proof.Machine
end

