-- ==== Sys2Proof/Laws/CardingOps.lean ====
section
/-! SUPPORT. The operations of the carding engine: an entry that goes on, a message taken, a bucket that fails. -/

set_option linter.unusedSimpArgs false
set_option linter.unusedVariables false

namespace Sys2Proof.Machine

theorem PartAndPorts.refl (s : State) (p : PartId) : PartAndPorts s s p := ⟨rfl, fun _ _ => rfl⟩

theorem PartAndPorts.trans {s t u : State} {p : PartId} (h : PartAndPorts s t p) (k : PartAndPorts t u p) : PartAndPorts s u p := by
  obtain ⟨h1, h2⟩ := h
  obtain ⟨k1, k2⟩ := k
  refine ⟨?_, fun q hq => (k2 q hq).trans (h2 q hq)⟩
  rw [k1, h1]

theorem PartAndPorts.ofOnly {s t : State} {p : PartId} (h : OnlyPart s t p) : PartAndPorts s t p := by
  refine ⟨?_, h.2⟩
  rw [h.1]

theorem PartAndPorts.modCard (s : State) (p : PartId) (f : Carding → Carding) : PartAndPorts s (s.modCard p f) p := .ofOnly (OnlyPart.modPart _ _ _)

theorem PartAndPorts.inject (s : State) (p r : PartId) (vc : Nat) (h : Bool) (d o : Nat) (bs : Bytes) : PartAndPorts s (s.inject r vc h d o bs) p := by
  unfold State.inject
  split
  · exact .refl _ _
  · exact ⟨rfl, fun _ _ => rfl⟩

theorem PartAndPorts.complete (s : State) (p : PartId) (u : Bool) (q : Nat) (r : Result) :
    PartAndPorts s (s.complete (some p) u q r) p := .ofOnly (OnlyFn.complete s (some p) u q r)

theorem foldl_inject_pp (l : List (Nat × Bytes)) (p r : PartId) (vc : Nat) (h : Bool) (o : Nat) : ∀ s : State,
    PartAndPorts s (l.foldl (fun s m => s.inject r vc h m.1 o m.2) s) p := by
  induction l with
  | nil => intro s; exact .refl _ _
  | cons a l ih => intro s; exact (PartAndPorts.inject _ _ _ _ _ _ _ _).trans (ih _)

theorem inject_card (s : State) (p : PartId) (r : PartId) (vc : Nat) (h : Bool) (d o : Nat) (bs : Bytes) : (s.inject r vc h d o bs).parts = s.parts := by
  unfold State.inject; split <;> rfl

theorem foldl_inject_parts (l : List (Nat × Bytes)) (r : PartId) (vc : Nat) (h : Bool) (o : Nat) : ∀ s : State,
    (l.foldl (fun s m => s.inject r vc h m.1 o m.2) s).parts = s.parts := by
  induction l with
  | nil => intro s; rfl
  | cons a l ih => intro s; exact (ih _).trans (inject_card _ r _ _ _ _ _ _)

theorem modCard_msgs (s : State) (p : PartId) (f : Carding → Carding) : (s.modCard p f).parts[p].card = f s.parts[p].card := by simp [State.modCard]

theorem complete_card (s : State) (p : PartId) (u : Bool) (q : Nat) (r : Result) : (s.complete (some p) u q r).parts[p].card = s.parts[p].card := by
  rw [complete_side s p u q r]

/-- An error of a class under 3 is logged, and changes its partition alone (R447, R448). -/
theorem raise_low (s : State) (p : PartId) (code src ch d : Nat) (c : Option (Bool × Nat)) (h : ErrLog.clsOf code < 3) :
    OnlyPart s (s.raise p code src ch d c) p ∧ CommandSide s.parts[p] (s.raise p code src ch d c).parts[p] := by
  unfold State.raise
  dsimp only
  rw [if_neg (by omega), if_neg (by omega), if_neg (by omega)]
  have hm : OnlyPart s (s.meetClass p c (ErrLog.clsOf code)) p ∧ CommandSide s.parts[p] (s.meetClass p c (ErrLog.clsOf code)).parts[p] := by
    refine ⟨OnlyPart.meetClass _ _ _ _, ?_⟩
    unfold State.meetClass
    split
    · exact .refl _
    · simp [State.modInFlight, CommandSide]
  refine ⟨hm.1.trans ((OnlyFn.modLog _ (some p) _).trans (OnlyPart.episodeClose _ _)), hm.2.trans ?_⟩
  refine CommandSide.trans (b := (State.modLog (s.meetClass p c (ErrLog.clsOf code)) (some p) fun l => l.add (s.meetClass p c (ErrLog.clsOf code)).parts[p].count code src ch d c (s.meetClass p c (ErrLog.clsOf code)).parts[p].reset.isSome).parts[p]) ?_ ?_
  · simp [State.modLog, CommandSide]
  · obtain ⟨l, hl⟩ := episodeClose_part (State.modLog (s.meetClass p c (ErrLog.clsOf code)) (some p) fun l => l.add (s.meetClass p c (ErrLog.clsOf code)).parts[p].count code src ch d c (s.meetClass p c (ErrLog.clsOf code)).parts[p].reset.isSome) p
    rw [hl]; simp [CommandSide]

/-- Words of the engine's storage that are read in error change the partition's log and its commands alone (R281). -/
theorem engErrs_spec (p : PartId) (tag : Nat) (c : Option (Bool × Nat)) (l : List (Nat × Nat)) : ∀ s : State,
    OnlyPart s (s.engErrs p l tag c) p ∧ CommandSide s.parts[p] (s.engErrs p l tag c).parts[p] := by
  induction l with
  | nil => intro s; exact ⟨.refl _ _, .refl _⟩
  | cons a l ih =>
    intro s
    have h : OnlyPart s (if 2 ≤ a.2 then s.raise p 0x1D 0x40 0 tag c else s.raise p 0x06 0x40 0 0) p ∧
        CommandSide s.parts[p] (if 2 ≤ a.2 then s.raise p 0x1D 0x40 0 tag c else s.raise p 0x06 0x40 0 0).parts[p] := by
      split
      · exact raise_low _ _ _ _ _ _ _ (by decide)
      · exact raise_low _ _ _ _ _ _ _ (by decide)
    exact ⟨h.1.trans (ih _).1, h.2.trans (ih _).2⟩

theorem engErrs_card (s : State) (p : PartId) (l : List (Nat × Nat)) (tag : Nat) (c : Option (Bool × Nat)) :
    (s.engErrs p l tag c).parts[p].card = s.parts[p].card := by rw [(engErrs_spec p tag c l s).2]

theorem PartAndPorts.freeIf (u g : State) (p : PartId) (b : Bucket) (h : PartAndPorts u g p) (hm : g.parts[p].card.msgs = u.parts[p].card.msgs) :
    PartAndPorts u (if b.done then (if b.bkind = 3 ∧ b.rmask ≠ 0 ∧ b.held.isNone then g.inject p 1 false b.peer b.seq (b.marker 5 0) else g).freeBucket p b else g) p ∧
    (if b.done then (if b.bkind = 3 ∧ b.rmask ≠ 0 ∧ b.held.isNone then g.inject p 1 false b.peer b.seq (b.marker 5 0) else g).freeBucket p b else g).parts[p].card.msgs = u.parts[p].card.msgs := by
  by_cases hd : b.done
  · simp only [hd, if_true]
    unfold State.freeBucket
    dsimp only
    generalize hv : (if b.bkind = 3 ∧ b.rmask ≠ 0 ∧ b.held.isNone then g.inject p 1 false b.peer b.seq (b.marker 5 0) else g) = v
    have hv1 : PartAndPorts u v p ∧ v.parts[p].card.msgs = u.parts[p].card.msgs := by
      rw [← hv]; split
      · exact ⟨h.trans (PartAndPorts.inject _ _ _ _ _ _ _ _), by simp only [inject_card _ p]; exact hm⟩
      · exact ⟨h, hm⟩
    refine ⟨hv1.1.trans ((PartAndPorts.modCard _ _ _).trans (PartAndPorts.complete _ _ _ _ _)), ?_⟩
    rw [complete_card, modCard_msgs]; exact hv1.2
  · simp only [hd]; exact ⟨h, hm⟩

theorem raise_bucketFailed (s : State) (p : PartId) (tag seq : Nat) : OnlyPart s (s.raise p 0x19 0x40 0 tag (some (false, seq))) p :=
  (raise_low _ _ _ _ _ _ _ (by decide)).1

theorem discard_table (s : State) (p : PartId) (b : Bucket) : ∀ x ∈ (s.discardBucket p b).parts[p].card.table, x.tag ≠ b.tag := by
  unfold State.discardBucket; rw [modCard_msgs]; simp [Carding.purge]

/-- An entry that fails leaves the table, and nothing changes but its partition (R306). -/
theorem failBucket_only (s : State) (p : PartId) (b : Bucket) : OnlyPart s (s.failBucket p b) p ∧ ∀ x ∈ (s.failBucket p b).parts[p].card.table, x.tag ≠ b.tag := by
  unfold State.failBucket
  refine ⟨(raise_bucketFailed _ _ _ _).trans ((OnlyPart.modPart _ _ _).trans (OnlyFn.complete _ (some p) _ _ _)), ?_⟩
  rw [complete_card]; exact discard_table _ _ _

/-- What an entry may change as it goes on where its row reads well: its partition and the ring ports; no message (R296). -/
theorem advance_both (s : State) (p : PartId) (b : Bucket) :
    PartAndPorts s (s.advanceBucket p b) p ∧ (s.advanceBucket p b).parts[p].card.msgs = s.parts[p].card.msgs := by
  unfold State.advanceBucket
  dsimp only
  apply PartAndPorts.freeIf
  · exact (foldl_inject_pp _ _ _ _ _ _ _).trans (PartAndPorts.modCard _ _ _)
  · unfold State.setBucket; rw [modCard_msgs]; simp only [foldl_inject_parts]

theorem PartAndPorts.progress (s : State) (p : PartId) (b : Bucket) : PartAndPorts s (s.progress p b) p := by
  unfold State.progress
  dsimp only
  split
  · exact .ofOnly ((engErrs_spec _ _ _ _ _).1.trans (failBucket_only _ _ _).1)
  · exact (PartAndPorts.ofOnly (engErrs_spec _ _ _ _ _).1).trans (advance_both _ _ _).1

theorem progress_msgs (s : State) (p : PartId) (b : Bucket) (h : uncorrectable b.errs = []) :
    (s.progress p b).parts[p].card.msgs = s.parts[p].card.msgs := by
  unfold State.progress
  dsimp only
  rw [if_neg (by simpa using h), (advance_both _ _ _).2, engErrs_card]

theorem useNext_eq (p : PartId) (b : Bucket) (m : Msg) (s : State) (f : Nat → Bool) (h : s.nextMsg p f = some (b, m)) : s.useNext p f = s.useMsg p b m := by
  unfold State.useNext; rw [h]

theorem modCard_me (s : State) (p : PartId) (f : Carding → Carding) : (s.modCard p f).me = s.me := rfl

theorem find_map_tag (l : List Bucket) (tag : Nat) (b b' : Bucket) (h : l.find? (·.tag == tag) = some b) (hb : b'.tag = b.tag) :
    (l.map fun x => if x.tag == b'.tag then b' else x).find? (·.tag == tag) = some b' := by
  induction l with
  | nil => cases h
  | cons a l ih =>
    have hbt : b.tag = tag := by have := List.find?_some h; simpa using this
    simp only [List.map_cons, List.find?_cons]
    by_cases ha : a.tag = tag
    · have : (a.tag == b'.tag) = true := by simp [ha, hb, hbt]
      simp only [this, if_true]; simp [hb, hbt]
    · have : (a.tag == b'.tag) = false := by simp [ha, hb, hbt]
      simp only [this]; simp only [List.find?_cons] at h
      have h2 : (a.tag == tag) = false := by simp [ha]
      rw [h2] at h
      simp [h2]; simpa using ih h

end Sys2Proof.Machine
end

