-- ==== Sys2Proof/Laws/TileOps.lean ====
section
/-! SUPPORT. The operations of a tile: the fetch of a descriptor, its dispatch, a pass and its epilogue, a transfer. -/

set_option linter.unusedSimpArgs false
set_option linter.unusedVariables false

namespace Sys2Proof.Machine

theorem OnlyTile.refl (s : State) (x : TileId) : OnlyTile s s x := ⟨rfl, fun _ _ => rfl⟩

theorem OnlyTile.modTile (s : State) (x : TileId) (f : Tile → Tile) : OnlyTile s (s.modTile x f) x :=
  ⟨rfl, fun y hy => by simp [hy]⟩

theorem OnlyTile.trans {s t u : State} {x : TileId} (h : OnlyTile s t x) (k : OnlyTile t u x) : OnlyTile s u x := by
  obtain ⟨h1, h2⟩ := h
  obtain ⟨k1, k2⟩ := k
  refine ⟨?_, fun q hq => (k2 q hq).trans (h2 q hq)⟩
  rw [k1, h1]

theorem modTile_id (s : State) (x : TileId) (f : Tile → Tile) (h : f s.tiles[x] = s.tiles[x]) : s.modTile x f = s := by
  have : vmod s.tiles x f = s.tiles := by
    unfold vmod
    have h' : f s.tiles[x.val] = s.tiles[x.val] := h
    rw [show s.tiles[x] = s.tiles[x.val] from rfl, h']
    exact Vector.set_getElem_self _
  unfold State.modTile
  rw [this]

theorem imEcc_nil (s : State) (p : PartId) (x : TileId) (h : s.tiles[x].imErr = []) : s.imEcc p x = s := by
  unfold State.imEcc; dsimp only; rw [h]
  rw [List.filter_eq_nil_iff.mpr (by simp)]; rfl

theorem spEcc_nil (s : State) (p : PartId) (x : TileId) (o : Op) (h : s.tiles[x].spErr = []) : s.spEcc p x o = s := by
  have h1 : ∀ b, s.tiles[x].spErrs o.reads b = [] := by intro b; unfold Tile.spErrs; rw [h]; rfl
  unfold State.spEcc
  dsimp only
  simp only [h1]
  apply modTile_id
  have key : ∀ y : Tile, y.spErr = [] → ({ y with
      spErr := y.spErr.filter fun e => !(([] : List Nat) ++ []).contains (8 * e.1)
      poison := ([] : List Nat).foldl (fun ps a => setInsert (a / 64) ps) y.poison } : Tile) = y := by
    intro y hy; cases y; dsimp only at hy; subst hy; rfl
  exact key _ h

theorem rgEcc_nil (s : State) (p : PartId) (x : TileId) (o : Op) (n : Nat) (h : s.tiles[x].rgErr = []) : s.rgEcc p x o n = s := by
  unfold State.rgEcc
  split
  · rfl
  · dsimp only
    simp only [h, List.filter_nil, List.foldl_nil, List.any_nil, Bool.or_false]
    apply modTile_id
    have key : ∀ y : Tile, y.rgErr = [] → ({ (y.modOp o.id fun q => { q with bad := q.bad }) with
        rgErr := y.rgErr.filter fun e => e.1 / 16 != n } : Tile) = y := by
      intro y hy; cases y; dsimp only at hy; subst hy; simp [Tile.modOp]
    exact key _ h

theorem enqueue_nil (s : State) (p : PartId) (x : TileId) (o : Op) (n : Nat) (h1 : s.tiles[x].spErr = []) (h2 : s.tiles[x].rgErr = []) :
    s.enqueue p x o n = s.modTile x fun y => Tile.advance { y with
      ops := y.ops ++ [o]
      nextOp := y.nextOp + 1
      mark := y.mark.filter fun m => y.ops.any fun q => decide (q.id ≤ m.1) } := by
  unfold State.enqueue
  dsimp only
  rw [spEcc_nil _ _ _ _ (by simpa using h1), rgEcc_nil _ _ _ _ _ (by simpa using h2)]
  unfold State.modTile vmod
  simp

theorem fetch_eq (s : State) (x : TileId) (p : PartId) (k : Nat) (hk : k ∈ [1, 2, 3, 4, 5, 6, 15]) (hp : s.partOf x = some p)
    (hc : s.canDispatch p x = true) (hpc : s.tiles[x].pc < 4096) (him : s.tiles[x].imErr = []) (hkd : kindOf (s.tiles[x].descAt s.tiles[x].pc) = k) :
    s.fetchDispatch x [k] = (if !staticOk (s.dispCtx p x) s.tiles[x] (s.tiles[x].descAt s.tiles[x].pc) then s.stopTile p x s.tiles[x].pc
        else if onLastExec (s.tiles[x].descAt s.tiles[x].pc) s.tiles[x].loops == some false then s.modTile x Tile.advance
        else if k = 6 then s.modTile x fun y => State.beginLoop y (s.tiles[x].descAt s.tiles[x].pc)
        else if k = 15 then s.modTile x fun y => { y with atEnd := true, stepReq := false }
        else
          match judge (s.dispCtx p x) s.tiles[x] (s.tiles[x].descAt s.tiles[x].pc) with
          | .invalid => (s.endStream p x (s.tiles[x].descAt s.tiles[x].pc)).stopTile p x s.tiles[x].pc
          | .wait => s
          | .ok o => s.dispatchOp p x o) := by
  unfold State.fetchDispatch
  rw [hp]
  dsimp only
  rw [hc, hkd, imEcc_nil s p x him]
  have h1 : s.tiles[x].imBad s.tiles[x].pc = false := by unfold Tile.imBad; rw [him]; rfl
  rw [h1]
  simp only [Bool.not_true, Bool.false_eq_true, if_false]
  rw [if_neg (by omega), if_neg (by simp), if_neg (by simp only [List.mem_cons, List.not_mem_nil, or_false] at hk; omega)]
  all_goals rfl

theorem exec_fetch (c : Instr) (x : TileId) (k : Nat) (s : State)
    (h : (c, k) ∈ [(Instr.pass x, 1), (Instr.dma x, 2), (Instr.vec x, 3), (Instr.send x, 4), (Instr.recv x, 5), (Instr.loop x, 6), (Instr.endProgram x, 15)]) :
    exec c s = .next (s.fetchDispatch x [k]) ∧ k ∈ [1, 2, 3, 4, 5, 6, 15] := by
  simp only [List.mem_cons, Prod.mk.injEq, List.not_mem_nil, or_false] at h
  rcases h with ⟨rfl, rfl⟩ | ⟨rfl, rfl⟩ | ⟨rfl, rfl⟩ | ⟨rfl, rfl⟩ | ⟨rfl, rfl⟩ | ⟨rfl, rfl⟩ | ⟨rfl, rfl⟩ <;> exact ⟨rfl, by decide⟩

theorem tile_get (s : State) (x : TileId) (f : Tile → Tile) : (s.modTile x f).tiles[x] = f s.tiles[x] := vmod_same _ _ _

theorem completePass_drop (t : Tile) (o : Op) (he : o.epi = none) : ∀ q ∈ (t.completePass o).ops, q.id ≠ o.id := by
  unfold Tile.completePass
  dsimp only
  generalize t.passOut o _ _ = r
  generalize hy : (if r.ovf = true then _ else _ : Tile) = y
  rw [he]
  have hd : ∀ z : Tile, ∀ q ∈ (z.dropOp o.id).ops, q.id ≠ o.id := by
    intro z q hq; simp only [Tile.dropOp, List.mem_filter] at hq; simpa using hq.2
  split
  · exact hd _
  · exact hd _

theorem completePass_ovf (t : Tile) (o : Op)
    (hov : (t.passOut o ((PassDesc.parse o.desc).acc == 1 && !t.replayed.contains (PassDesc.parse o.desc).psum)
            (t.loaded o)).ovf = true) :
    (PassDesc.parse o.desc).psum ∈ (t.completePass o).overflowed ∧ (t.completePass o).sp = t.sp := by
  unfold Tile.completePass
  dsimp only
  generalize t.passOut o _ _ = r at *
  rw [if_pos hov]
  generalize hy : (if (PassDesc.parse o.desc).wkeep = true then _ else _ : Tile) = y
  have hy' : y.sp = t.sp := by rw [← hy]; split <;> rfl
  generalize hl : (if y.overflowed.contains (PassDesc.parse o.desc).psum = true then y.overflowed else y.overflowed ++ [(PassDesc.parse o.desc).psum]) = l
  have hm : (PassDesc.parse o.desc).psum ∈ l := by
    rw [← hl]; split
    · rename_i h; simpa using h
    · simp
  rw [if_pos (by simpa using hm)]
  exact ⟨hm, hy'⟩

theorem spWrite_ops (z : Tile) (a : Nat) (bs : Bytes) : (z.spWrite a bs).ops = z.ops := by unfold Tile.spWrite; split <;> rfl

theorem spPoison_ops (z : Tile) (a n : Nat) : (z.spPoison a n).ops = z.ops := by unfold Tile.spPoison; dsimp only; exact spWrite_ops _ _ _

theorem foldl_spPoison_ops (l : List Nat) (f : Nat → Nat) : ∀ z : Tile, (l.foldl (fun y l => y.spPoison (f l) 64) z).ops = z.ops := by
  induction l with
  | nil => intro z; rfl
  | cons a l ih => intro z; rw [List.foldl_cons, ih, spPoison_ops]

def SeqSame (a b : Tile) : Prop := b.ops = a.ops ∧ b.nextOp = a.nextOp ∧ b.pc = a.pc ∧ b.loops = a.loops ∧ b.stepReq = a.stepReq

def Later (s t : State) (p : PartId) (x : TileId) : Prop :=
  t = { s with parts := t.parts, tiles := t.tiles, host := { s.host with nextId := t.host.nextId } } ∧ PartsKept s t p ∧ TilesKept s t x ∧
    SeqSame s.tiles[x] t.tiles[x]

theorem Later.refl (s : State) (p : PartId) (x : TileId) : Later s s p x := ⟨rfl, fun _ _ => rfl, fun _ _ => rfl, rfl, rfl, rfl, rfl, rfl⟩

theorem Later.trans {s t u : State} {p : PartId} {x : TileId} (h : Later s t p x) (k : Later t u p x) : Later s u p x := by
  obtain ⟨h1, h2, h3, a1, a2, a3, a4, a5⟩ := h
  obtain ⟨k1, k2, k3, b1, b2, b3, b4, b5⟩ := k
  refine ⟨?_, fun q hq => (k2 q hq).trans (h2 q hq), fun q hq => (k3 q hq).trans (h3 q hq), b1.trans a1, b2.trans a2, b3.trans a3, b4.trans a4, b5.trans a5⟩
  rw [k1, h1]

theorem Later.modPart (s : State) (p : PartId) (x : TileId) (f : Part → Part) : Later s (s.modPart p f) p x :=
  ⟨rfl, fun q hq => by simp [hq], fun _ _ => rfl, rfl, rfl, rfl, rfl, rfl⟩

theorem Later.modTile (s : State) (p : PartId) (x : TileId) (f : Tile → Tile) (h : SeqSame s.tiles[x] (f s.tiles[x])) : Later s (s.modTile x f) p x :=
  ⟨rfl, fun _ _ => rfl, fun q hq => by simp [hq], by rw [tile_get]; exact h⟩

theorem Later.postChunk (s : State) (p : PartId) (x : TileId) (st : Stream) (e i : Nat) (bs : Bytes) (o : Owner) (h : Nat) :
    Later s (s.postChunk p st e i bs o h) p x := by
  unfold State.postChunk
  split
  · exact .refl _ _ _
  · exact (Later.modPart _ _ _ _).trans (Later.modPart _ _ _ _)

theorem Later.askChunk (s : State) (p : PartId) (x : TileId) (st : Stream) (i : Nat) (o : Owner) : Later s (s.askChunk p st i o) p x := by
  unfold State.askChunk
  dsimp only
  refine Later.trans (t := { s with host := { s.host with nextId := s.host.nextId + 2 } }) ?_ (Later.modPart _ _ _ _)
  exact ⟨rfl, fun _ _ => rfl, fun _ _ => rfl, rfl, rfl, rfl, rfl, rfl⟩

theorem Later.foldl {α : Type} (p : PartId) (x : TileId) (f : State → α → State) (h : ∀ s a, Later s (f s a) p x) (l : List α) : ∀ s : State, Later s (l.foldl f s) p x := by
  induction l with
  | nil => intro s; exact .refl _ _ _
  | cons a l ih => intro s; exact (h s a).trans (ih _)

theorem Later.hostReqs (s : State) (p : PartId) (x : TileId) (o : Op) (d : DmaDesc) (st : Stream) : Later s (s.hostReqs p x o d st) p x := by
  unfold State.hostReqs
  dsimp only
  split
  · refine Later.trans (Later.modPart _ _ _ _) (Later.foldl _ _ _ ?_ _ _)
    intro s a; exact Later.postChunk _ _ _ _ _ _ _ _ _
  · exact Later.foldl _ _ _ (fun s a => Later.askChunk _ _ _ _ _ _) _ _

theorem advance_congr (t u : Tile) (h : t.imem = u.imem) (k : t.imErr = u.imErr) (h1 : t.pc = u.pc) (h2 : t.loops = u.loops) :
    t.advance.pc = u.advance.pc ∧ t.advance.loops = u.advance.loops := by
  unfold Tile.advance Tile.goto
  rw [h1, h2, skipEpi_congr t u h k]
  exact ⟨rfl, rfl⟩

theorem advance_ops (t : Tile) : t.advance.ops = t.ops ∧ t.advance.nextOp = t.nextOp ∧ t.advance.stepReq = false ∧ t.advance.spErr = t.spErr ∧ t.advance.rgErr = t.rgErr := ⟨rfl, rfl, rfl, rfl, rfl⟩

def Disp (s t : State) (p : PartId) (x : TileId) (o : Op) : Prop :=
  t = { s with parts := t.parts, tiles := t.tiles, host := { s.host with nextId := t.host.nextId } } ∧
      PartsKept s t p ∧ TilesKept s t x ∧ t.tiles[x].ops = s.tiles[x].ops ++ [o] ∧ t.tiles[x].nextOp = s.tiles[x].nextOp + 1 ∧
      t.tiles[x].pc = s.tiles[x].advance.pc ∧ t.tiles[x].loops = s.tiles[x].advance.loops ∧ t.tiles[x].stepReq = false

theorem Disp.later {s t u : State} {p : PartId} {x : TileId} {o : Op} (h : Disp s t p x o) (k : Later t u p x) : Disp s u p x o := by
  obtain ⟨h1, h2, h3, a1, a2, a3, a4, a5⟩ := h
  obtain ⟨k1, k2, k3, b1, b2, b3, b4, b5⟩ := k
  refine ⟨?_, fun q hq => (k2 q hq).trans (h2 q hq), fun q hq => (k3 q hq).trans (h3 q hq), b1.trans a1, b2.trans a2, b3.trans a3, b4.trans a4, b5.trans a5⟩
  rw [k1, h1]

/-- enqueue after a tile change that keeps program, ops, errors. -/
theorem enqueue_disp (s : State) (p : PartId) (x : TileId) (o : Op) (n : Nat) (f : Tile → Tile) (h1 : s.tiles[x].spErr = []) (h2 : s.tiles[x].rgErr = [])
    (hf : ∀ t : Tile, (f t).spErr = t.spErr ∧ (f t).rgErr = t.rgErr ∧ (f t).imem = t.imem ∧ (f t).imErr = t.imErr ∧ (f t).pc = t.pc ∧ (f t).loops = t.loops ∧
      (f t).ops = t.ops ∧ (f t).nextOp = t.nextOp) :
    Disp s ((s.modTile x f).enqueue p x o n) p x o ∧ OnlyTile s ((s.modTile x f).enqueue p x o n) x := by
  obtain ⟨g1, g2, g3, g4, g5, g6, g7, g8⟩ := hf s.tiles[x]
  rw [enqueue_nil _ _ _ _ _ (by rw [tile_get, g1, h1]) (by rw [tile_get, g2, h2])]
  have ho : OnlyTile s ((s.modTile x f).modTile x fun y => Tile.advance { y with
      ops := y.ops ++ [o]
      nextOp := y.nextOp + 1
      mark := y.mark.filter fun m => y.ops.any fun q => decide (q.id ≤ m.1) }) x :=
    (OnlyTile.modTile _ _ _).trans (OnlyTile.modTile _ _ _)
  refine ⟨⟨rfl, fun _ _ => rfl, ho.2, ?_⟩, ho⟩
  rw [tile_get, tile_get]
  obtain ⟨c1, c2⟩ := advance_congr ({ f s.tiles[x] with
      ops := (f s.tiles[x]).ops ++ [o]
      nextOp := (f s.tiles[x]).nextOp + 1
      mark := (f s.tiles[x]).mark.filter fun m => (f s.tiles[x]).ops.any fun q => decide (q.id ≤ m.1) } : Tile) s.tiles[x] g3 g4 g5 g6
  refine ⟨?_, ?_, c1, c2, rfl⟩
  · rw [← g7]; rfl
  · rw [← g8]; rfl

theorem noteStep_same (t : Tile) (i n : Nat) : (t.noteStep i n) = { t with regSteps := (t.noteStep i n).regSteps } := by
  unfold Tile.noteStep; split <;> rfl

theorem dispatchOp_disp (s : State) (p : PartId) (x : TileId) (o : Op) (h1 : s.tiles[x].spErr = []) (h2 : s.tiles[x].rgErr = []) :
    Disp s (s.dispatchOp p x o) p x o ∧ (o.engine ≠ .dma → OnlyTile s (s.dispatchOp p x o) x) ∧
    (o.engine = .mesh → (s.dispatchOp p x o).tiles[x] = Tile.advance { s.tiles[x] with
      ops := s.tiles[x].ops ++ [o]
      nextOp := s.tiles[x].nextOp + 1
      mark := s.tiles[x].mark.filter fun m => s.tiles[x].ops.any fun q => decide (q.id ≤ m.1) }) := by
  have hid (s : State) : s.modTile x id = s := modTile_id s x id rfl
  unfold State.dispatchOp
  cases he : o.engine with
  | array =>
    dsimp only
    unfold State.dispatchPass
    dsimp only
    generalize passGrids s.tiles[x] _ _ _ = g
    obtain ⟨a, b⟩ := enqueue_disp s p x o (PassDesc.parse o.desc).tensor (fun y =>
      if o.epi.isSome = true then Tile.noteStep { State.seqDispatch y o with prevPass := some ⟨(PassDesc.parse o.desc).waddr, (PassDesc.parse o.desc).wfmt, (PassDesc.parse o.desc).acc, (PassDesc.parse o.desc).w2, (PassDesc.parse o.desc).split, g.wrows, g.wcols⟩ } (PassDesc.parse o.desc).tensor
        (Tile.outStep { State.seqDispatch y o with prevPass := some ⟨(PassDesc.parse o.desc).waddr, (PassDesc.parse o.desc).wfmt, (PassDesc.parse o.desc).acc, (PassDesc.parse o.desc).w2, (PassDesc.parse o.desc).split, g.wrows, g.wcols⟩ } (PassDesc.parse o.desc).stepofs)
      else { State.seqDispatch y o with prevPass := some ⟨(PassDesc.parse o.desc).waddr, (PassDesc.parse o.desc).wfmt, (PassDesc.parse o.desc).acc, (PassDesc.parse o.desc).w2, (PassDesc.parse o.desc).split, g.wrows, g.wcols⟩ }) h1 h2 (by
      intro t
      have hs : State.seqDispatch t o = { t with seqs := (State.seqDispatch t o).seqs, replayed := (State.seqDispatch t o).replayed, rlog := (State.seqDispatch t o).rlog } := by
        unfold State.seqDispatch; dsimp only; split <;> rfl
      split
      · rw [noteStep_same, hs]; exact ⟨rfl, rfl, rfl, rfl, rfl, rfl, rfl, rfl⟩
      · rw [hs]; exact ⟨rfl, rfl, rfl, rfl, rfl, rfl, rfl, rfl⟩)
    exact ⟨a, fun _ => b, fun h => by cases h⟩
  | vector =>
    dsimp only
    unfold State.dispatchVec
    dsimp only
    obtain ⟨a, b⟩ := enqueue_disp s p x o (VecDesc.parse o.desc).tensor (fun y => if o.epi.isSome = true then y.noteStep (VecDesc.parse o.desc).tensor (y.outStep (VecDesc.parse o.desc).stepofs) else y) h1 h2 (by
      intro t
      split
      · rw [noteStep_same]; exact ⟨rfl, rfl, rfl, rfl, rfl, rfl, rfl, rfl⟩
      · exact ⟨rfl, rfl, rfl, rfl, rfl, rfl, rfl, rfl⟩)
    exact ⟨a, fun _ => b, fun h => by cases h⟩
  | mesh =>
    dsimp only
    obtain ⟨a, b⟩ := enqueue_disp s p x o 0 id h1 h2 (fun t => ⟨rfl, rfl, rfl, rfl, rfl, rfl, rfl, rfl⟩)
    rw [hid] at a b
    refine ⟨a, fun _ => b, fun _ => ?_⟩
    rw [enqueue_nil _ _ _ _ _ h1 h2, tile_get]
  | dma =>
    dsimp only
    refine ⟨?_, fun h => absurd rfl h, fun h => by cases h⟩
    obtain ⟨a, -⟩ := enqueue_disp s p x o 0 id h1 h2 (fun t => ⟨rfl, rfl, rfl, rfl, rfl, rfl, rfl, rfl⟩)
    rw [hid] at a
    unfold State.dispatchDma
    dsimp only
    generalize s.enqueue p x o 0 = u at *
    refine a.later ?_
    generalize hv : (if (((_ : Bool) && _ && _ && _ && _ && _ && _) = true) then u.modTile x _ else u) = v
    have hv1 : Later u v p x := by
      rw [← hv]; split
      · exact Later.modTile _ _ _ _ ⟨rfl, rfl, rfl, rfl, rfl⟩
      · exact .refl _ _ _
    generalize hw : (if (((_ : Bool) && _ && _) = true) then v.modTile x _ else v) = w
    have hw1 : Later v w p x := by
      rw [← hw]; split
      · exact Later.modTile _ _ _ _ ⟨rfl, rfl, rfl, rfl, rfl⟩
      · exact .refl _ _ _
    refine (hv1.trans hw1).trans ?_
    split
    · split
      · exact .refl _ _ _
      · exact Later.hostReqs _ _ _ _ _ _
    · exact Later.modTile _ _ _ _ ⟨rfl, rfl, rfl, rfl, rfl⟩

/-- What stopping a tile may change (R64, R343): its partition's command side and the stop it notes; of the tiles, operations that can no
longer meet their partner, and the stop of the tile itself. -/
theorem stopTile_spec (s : State) (p : PartId) (x : TileId) (slot : Nat) :
    (s.stopTile p x slot) = { s with parts := (s.stopTile p x slot).parts, tiles := (s.stopTile p x slot).tiles } ∧ PartsKept s (s.stopTile p x slot) p ∧
    CommandSide { s.parts[p] with runStop := (s.stopTile p x slot).parts[p].runStop } (s.stopTile p x slot).parts[p] ∧
    (∀ y : TileId, y ≠ x → (s.stopTile p x slot).tiles[y] = { s.tiles[y] with ops := (s.stopTile p x slot).tiles[y].ops }) ∧
    (s.stopTile p x slot).tiles[x] = { s.tiles[x] with stopped := some slot, stepReq := false, ops := (s.stopTile p x slot).tiles[x].ops } ∧
    ∀ y : TileId, ∀ o ∈ (s.stopTile p x slot).tiles[y].ops, o ∈ s.tiles[y].ops := by
  have hr := raise_low s p 0x10 x.val 0 slot (s.runCmd p) (by decide)
  unfold State.stopTile
  dsimp only
  generalize s.raise p 0x10 x.val 0 slot (s.runCmd p) = r at *
  generalize hv : State.modPart (r.modTile x _) p _ = v
  have hvp : v.parts[p] = { r.parts[p] with runStop := v.parts[p].runStop } := by rw [← hv]; simp
  have hvo : v = { r with parts := v.parts, tiles := v.tiles } ∧ PartsKept r v p := by
    rw [← hv]; exact ⟨rfl, fun q hq => by simp [hq]⟩
  have hvt : ∀ y : TileId, v.tiles[y] = if y = x then { r.tiles[y] with stopped := some slot, stepReq := false } else r.tiles[y] := by
    intro y; rw [← hv]; by_cases h : y = x
    · subst h; simp
    · simp [h]
  have hrt : r.tiles = s.tiles := by rw [hr.1.1]
  have hf : ∀ (l : List (TileId × List Nat)) (w : State), (∀ y : TileId, (l.foldl (fun s c => s.modTile c.1 fun x => { x with ops := x.ops.filter fun o => !c.2.contains o.id }) w).tiles[y] =
      { w.tiles[y] with ops := (l.foldl (fun s c => s.modTile c.1 fun x => { x with ops := x.ops.filter fun o => !c.2.contains o.id }) w).tiles[y].ops }) ∧
      (l.foldl (fun s c => s.modTile c.1 fun x => { x with ops := x.ops.filter fun o => !c.2.contains o.id }) w) =
        { w with tiles := (l.foldl (fun s c => s.modTile c.1 fun x => { x with ops := x.ops.filter fun o => !c.2.contains o.id }) w).tiles } ∧
      ∀ y : TileId, ∀ o ∈ (l.foldl (fun s c => s.modTile c.1 fun x => { x with ops := x.ops.filter fun o => !c.2.contains o.id }) w).tiles[y].ops, o ∈ w.tiles[y].ops := by
    intro l
    induction l with
    | nil => intro w; exact ⟨fun _ => rfl, rfl, fun _ _ h => h⟩
    | cons a l ih =>
      intro w
      obtain ⟨i1, i2, i3⟩ := ih (w.modTile a.1 fun x => { x with ops := x.ops.filter fun o => !a.2.contains o.id })
      rw [List.foldl_cons]
      generalize List.foldl _ (w.modTile a.1 _) l = z at *
      refine ⟨?_, ?_, ?_⟩
      · intro y; rw [i1 y]
        by_cases h : y = a.1
        · subst h; simp
        · simp [h]
      · rw [i2]; rfl
      · intro y o ho
        have := i3 y o ho
        by_cases h : y = a.1
        · subst h; rw [tile_get] at this; exact (List.mem_filter.mp this).1
        · simpa [h] using this
  obtain ⟨f1, f2, f3⟩ := hf ((State.tilesOf v p).map fun t => (t, State.cutMesh v t)) v
  generalize List.foldl _ v _ = z at *
  have hzp : z.parts = v.parts := by rw [f2]
  refine ⟨?_, ?_, ?_, ?_, ?_, ?_⟩
  · rw [f2, hvo.1, hr.1.1]
  · intro q hq; rw [hzp, hvo.2 q hq, hr.1.2 q hq]
  · rw [hzp, hvp, hr.2]; rfl
  · intro y hy; rw [f1 y, hvt y, if_neg hy, hrt]
  · rw [f1 x, hvt x, if_pos rfl, hrt]
  · intro y o ho
    have h1 := f3 y o ho
    rw [hvt y, hrt] at h1
    by_cases h : y = x
    · rw [if_pos h] at h1; exact h1
    · rw [if_neg h] at h1; exact h1

end Sys2Proof.Machine
end

