-- ==== Sys2Proof/Laws/SealOps.lean ====
section
/-! SUPPORT. The operations of the seal slices, the channels and the root store. -/

set_option linter.unusedSimpArgs false
set_option linter.unusedVariables false

namespace Sys2Proof.Machine

theorem chan_get (s : State) (x : TileId) (k : ChanId) (f : Chan → Chan) :
    (s.modChan x k f).tiles[x] = { s.tiles[x] with chans := vmod s.tiles[x].chans k f } := vmod_same _ _ _

theorem slice_get (s : State) (x : TileId) (f : Seal → Seal) : (s.modSlice x f).tiles[x] = { s.tiles[x] with slice := f s.tiles[x].slice } := vmod_same _ _ _

theorem chan_same (v : Vector Chan 4) (k : ChanId) (f : Chan → Chan) : (vmod v k f)[k] = f v[k] := vmod_same _ _ _

theorem chan_ne (v : Vector Chan 4) (k j : ChanId) (f : Chan → Chan) (h : j ≠ k) : (vmod v k f)[j] = v[j] := vmod_ne _ _ _ _ h

theorem OnlyTile.modSlice (s : State) (x : TileId) (f : Seal → Seal) : OnlyTile s (s.modSlice x f) x := OnlyTile.modTile _ _ _

theorem OnlyTile.modChan (s : State) (x : TileId) (k : ChanId) (f : Chan → Chan) : OnlyTile s (s.modChan x k f) x := OnlyTile.modTile _ _ _

theorem writeServed_dma (s : State) (x : TileId) (r : SealReq) (y : TileId) (id : Nat) (h : r.owner = .tileDma y id) : s.writeServed x r = s := by
  unfold State.writeServed; rw [h]

theorem touch_reqs (y : Seal) (m : MetaId) : (y.touch m).reqs = y.reqs := by unfold Seal.touch; split <;> rfl

theorem readRoot_eq (u : State) (t : TileId) (i : Nat) (ix : Fin 2048) (r : Root) (h : State.rootIdx t i = ix) (hg : u.jewel.roots[ix] = r) :
    u.readRoot t i = (if (List.range 64).countP (fun b => r.flips.getLsbD b) = 0 then u
      else if (List.range 64).countP (fun b => r.flips.getLsbD b) = 1 then
        match State.partOf { u with jewel := { u.jewel with roots := u.jewel.roots.set ix { r with flips := 0 } } } t with
        | some p => State.raise { u with jewel := { u.jewel with roots := u.jewel.roots.set ix { r with flips := 0 } } } p 0x05 0x43 0
            (32 * (t.val - (State.tilesOf { u with jewel := { u.jewel with roots := u.jewel.roots.set ix { r with flips := 0 } } } p).headD t) + i)
        | none => { u with jewel := { u.jewel with roots := u.jewel.roots.set ix { r with flips := 0 } } }
      else if (List.range 64).countP (fun b => r.flips.getLsbD b) = 2 then u.mfatal 0x50 0x43 ix.val
      else { (u.draw 7).2 with jewel := { (u.draw 7).2.jewel with roots := (u.draw 7).2.jewel.roots.set ix { ctr := leNat (u.draw 7).1 % 2 ^ 56, flips := 0 } } }) := by
  subst h
  subst hg
  rfl

end Sys2Proof.Machine
end

