-- ==== Sys2Proof/Laws/BoardOps.lean ====
section
/-! SUPPORT. The operations of the board, the ports and the members: a row of tiles, a cause, a draw, the raising of an error. -/

set_option linter.unusedSimpArgs false
set_option linter.unusedVariables false

namespace Sys2Proof.Machine

theorem logRow_tiles (s : State) (r : Fin 8) (a b : RowMon) : (s.logRow r a b).tiles = s.tiles := by
  unfold State.logRow
  split
  · rfl
  · dsimp only
    by_cases hc : (if (b.high && !a.high) = true then 1 else if (b.low && !a.low) = true then 2 else 0) = 0 ∨ s.parts[‹PartId›].pwrLogged = true ∨ s.parts[‹PartId›].job.isNone = true
    · rw [if_pos hc]
    · rw [if_neg hc, (raise_low _ _ _ _ _ _ _ (by decide)).1.1]; rfl

theorem rowFold (f : Tile → Tile) (l : List TileId) (hn : l.Nodup) : ∀ s : State,
    (∀ x ∈ l, (l.foldl (fun s t => s.modTile t f) s).tiles[x] = f s.tiles[x]) ∧
    (∀ x, x ∉ l → (l.foldl (fun s t => s.modTile t f) s).tiles[x] = s.tiles[x]) ∧
    (l.foldl (fun s t => s.modTile t f) s) = { s with tiles := (l.foldl (fun s t => s.modTile t f) s).tiles } := by
  induction l with
  | nil => intro s; exact ⟨fun _ h => absurd h (by simp), fun _ _ => rfl, rfl⟩
  | cons a l ih =>
    intro s
    rw [List.nodup_cons] at hn
    obtain ⟨h1, h2, h3⟩ := ih hn.2 (s.modTile a f)
    simp only [List.foldl_cons]
    refine ⟨?_, ?_, ?_⟩
    · intro x hx
      rw [List.mem_cons] at hx
      rcases hx with rfl | hx
      · rw [h2 _ hn.1]; exact tile_get _ _ _
      · rw [h1 x hx]
        have : x ≠ a := fun h => hn.1 (h ▸ hx)
        congr 1; exact vmod_ne _ _ _ _ this
    · intro x hx
      rw [List.mem_cons, not_or] at hx
      rw [h2 x hx.2]; exact vmod_ne _ _ _ _ hx.1
    · rw [h3]; rfl

theorem rowTiles_nodup (r : Fin 8) : (State.rowTiles r).Nodup := by
  unfold State.rowTiles
  exact (List.nodup_finRange 64).filter _

theorem cause_boot (s : State) (c : Nat) : (s.cause c).board = s.board ∧ (s.cause c).boot = { s.boot with nextCause := (s.cause c).boot.nextCause } ∧
    s.cause c = { s with boot := (s.cause c).boot } := by
  unfold State.cause; split <;> exact ⟨rfl, rfl, rfl⟩

theorem OnlyPort.modPort (s : State) (i : PortId) (f : Port → Port) : OnlyPort s (s.modPort i f) i := ⟨rfl, fun j hj => by simp [hj]⟩

theorem port_get (s : State) (i : PortId) (f : Port → Port) : (s.modPort i f).ports[i] = f s.ports[i] := vmod_same _ _ _

theorem port_ne (s : State) (i j : PortId) (f : Port → Port) (h : j ≠ i) : (s.modPort i f).ports[j] = s.ports[j] := vmod_ne _ _ _ _ h

theorem part_get (s : State) (p : PartId) (f : Part → Part) : (s.modPart p f).parts[p] = f s.parts[p] := vmod_same _ _ _

theorem OnlyPart.modJob (s : State) (p : PartId) (f : Job → Job) : OnlyPart s (s.modJob p f) p := OnlyPart.modPart _ _ _

theorem draw_len (s : State) (n : Nat) : (s.draw n).1.length = n := by simp [State.draw]

theorem draw_rest (s : State) (n : Nat) : (s.draw n).2 = { s with free := (s.draw n).2.free } := rfl

theorem raiseModule_rest (s : State) (a b c : Nat) : s.raiseModule a b c = { s with jewel := (s.raiseModule a b c).jewel } := by
  rfl

theorem portOf_dim : ∀ (i : PortId) (b : Bool), (portOf (i.val / 2) b).val / 2 = i.val / 2 := by decide

theorem portOf_or : ∀ (i j : PortId), j.val / 2 = i.val / 2 → j = portOf (i.val / 2) true ∨ j = portOf (i.val / 2) false := by decide

theorem portOf_ne : ∀ (i : PortId), portOf (i.val / 2) true ≠ portOf (i.val / 2) false := by decide

theorem OnlyPort.trans {s t u : State} {i : PortId} (h : OnlyPort s t i) (k : OnlyPort t u i) : OnlyPort s u i := by
  obtain ⟨h1, h2⟩ := h
  obtain ⟨k1, k2⟩ := k
  refine ⟨?_, fun q hq => (k2 q hq).trans (h2 q hq)⟩
  rw [k1, h1]

theorem endRestart_window (s : State) : s.endRestart.jewel.window = s.jewel.window := by
  unfold State.endRestart
  repeat' (first | split | rfl)

end Sys2Proof.Machine
end

