-- ==== Sys2Proof/WellFormed.lean ====
section
/-! DEFINITION. Well-formed commands: the operands have the lengths and ranges in which the manual lays them out. A command
that is not well formed stands for nothing that can reach the block. -/

namespace Sys2Proof

/-- A line's error pattern names positions of the 72 symbols (R169). -/
def LineIn.wf : LineIn → Bool
  | .data errs => errs.all fun e => decide (e.1 < 72)
  | .noData => true

/-- The checks on a command's operands. -/
def Instr.wf : Instr → Bool
  | .sealGranuleRead _ _ lines => lines.all LineIn.wf
  | .counterMissFill _ _ lines mirrors => lines.all LineIn.wf && mirrors.all LineIn.wf
  | .sealGranuleWrite _ _ lines => lines.all LineIn.wf
  | .patrolRead _ _ line => line.wf
  | .dataFrameReceive _ _ _ wire => wire.length == 304
  | .idleFrameReceive _ _ _ wire => wire.length == 304
  | .crsync _ _ _ wire _ => wire.length == 304
  | .hello _ _ nport nonce digest _ => decide (nport < 8) && nonce.length == 32 && digest.length == 32
  | .selfTestDone _ fails => fails.all fun f => decide (1 ≤ f.2) && decide (f.2 ≤ 7)
  | .pouncingDone _ reads fails => reads.all (fun r => r.first.wf && r.second.wf) && fails.all fun f => decide (1 ≤ f.2) && decide (f.2 ≤ 7)
  | .escapementWindow _ a => a.issue.length == 6
  | .attest _ (some nonce) => nonce.length == 64
  | .barWrite _ _ _ data => decide (data.length ≤ 64)
  | .moduleRestart code _ => decide (0x50 ≤ code.toNat) && decide (code.toNat ≤ 0x55)
  | .dlUp rate width mps => decide (1 ≤ rate) && decide (rate ≤ 6) && decide (width ≤ 4) && decide (mps ≤ 3)
  | _ => true

end Sys2Proof
end

