-- ==== Sys2Proof/Tests/Slice0.lean ====
section
/-! SUPPORT. Tests: the checks of well-formedness, the manual's worked examples, and for each statement of the provers a
state and operands that meet its hypotheses. Expected values come from the manual. -/

namespace Sys2Proof.Tests

set_option Elab.async false

open Sys2Proof Sys2Proof.Machine

-- States: a module that is READY with two partitions, and what of it a test changes.

def im : Image :=
  { dev := true, npart := 2, track := false, tsize := [4, 1, 1, 1], coord := 0, dtmo := List.replicate 8 4, krng := [(1, 2), (3, 2)],
    sched := (List.range 64).map (· % 2), allow := List.replicate 64 0, roots := [zeros 1952], rootsDigest := [], torusDigest := zeros 32,
    svn := 0, gen := 1, mfw := zeros 64, mimg := zeros 64 }

def base : State :=
  { State.reset with
    boot := { State.reset.boot with mstate := .ready, phase := .ready, image := some im, slot := 1 }
    board := { State.reset.board with inputPower := true, vauxOk := true, pwrGood := true, modEnable := true, perstN := true }
    host := { State.reset.host with linkUp := true, vfEnable := true, numVfs := 2, credit := 113 } }

/-- The state with its first partition changed. -/
def p0 (f : Part → Part) : State := base.modPart 0 f

/-- The state with its first tile changed, its first partition as given. -/
def t0 (f : Part → Part) (g : Tile → Tile) : State := (p0 f).modTile 0 g

/-- A command with this SEQ, opcode and arguments. -/
def cmd (seq opc arg0 arg1 arg2 arg3 : Nat) : Cmd := ⟨seq, opc, 0, 0, 0, 0, [0, 0, 0, 0], 0, arg0, arg1, arg2, arg3⟩

/-- Its entry in the in-flight table, not started. -/
def ent (c : Cmd) : InFlight := ⟨c, false, none, 0, false, none, 0⟩

/-- A compact of a job of this module alone: job 1, one contributor, program and group. -/
def compact : Bytes :=
  let h := ascii "EZCP" ++ leBytes 2 1 ++ leBytes 2 1 ++ leBytes 4 5477 ++ ([1, 1, 1, 0, 0, 0x20, 0, 0] : Bytes) ++ leBytes 2 0 ++ ([0, 0] : Bytes) ++
    zeros 8 ++ leBytes 4 0 ++ leBytes 2 1 ++ zeros 2 ++ zeros 8 ++ ([0, 0, 0, 0, 1, 1, 1, 1] : Bytes) ++ zeros 8 ++ zeros 32 ++ zeros 32
  h ++ zeros 1960 ++ zeros 64 ++ ([0, 0, 0, 0, 1, 1, 1, 1, 0, 0, 0, 0, 0, 0, 0, 0] : Bytes) ++ zeros 3309

def job : Job :=
  { num := 1, compact := compact, mcomp := zeros 64, mprog := zeros 64, mpeer := zeros 64, kemDraw := 0, jr := some (zeros 32), link := some (zeros 32),
    imports := [], released := [], keySet := true, lossN := 0, dropKey := none, members := [⟨0, false, none, true, false, [], 1, 0, none⟩],
    announcing := false, nonce := none, owesReport := false, eraCeil := 1, eraAsked := none, sidCeil := 1024, sidAsked := none, sidNext := 0,
    eseq := List.replicate 32 0, keyset := none }

/-- The first partition RUNNING job 1 with these commands in flight. -/
def busy (l : List InFlight) (x : Part) : Part := { x with pstate := .running, job := some job, win := { x.win with table := l } }

-- Well-formedness: each check refuses a term that breaks it.

theorem test_wf_line : Instr.wf (.patrolRead 0 0 (.data [(72, 1)])) = false ∧ Instr.wf (.patrolRead 0 0 (.data [(71, 1)])) = true := by decide
theorem test_wf_granuleRead : Instr.wf (.sealGranuleRead 0 0 [.noData, .data [(72, 1)]]) = false := by decide
theorem test_wf_missFill : Instr.wf (.counterMissFill 0 0 [] [.data [(99, 1)]]) = false ∧ Instr.wf (.counterMissFill 0 0 [.data [(72, 1)]] []) = false := by decide
theorem test_wf_granuleWrite : Instr.wf (.sealGranuleWrite 0 0 [.data [(72, 1)]]) = false := by decide
theorem test_wf_dataFrame : Instr.wf (.dataFrameReceive 0 true 0 []) = false := by decide
theorem test_wf_idleFrame : Instr.wf (.idleFrameReceive 0 true 0 (zeros 303)) = false := by decide +kernel
theorem test_wf_crsync : Instr.wf (.crsync 0 true 0 (zeros 305) 0) = false := by decide +kernel
theorem test_wf_hello_nport : Instr.wf (.hello 0 0 8 (zeros 32) (zeros 32) 0) = false := by decide
theorem test_wf_hello_nonce : Instr.wf (.hello 0 0 7 (zeros 31) (zeros 32) 0) = false := by decide
theorem test_wf_hello_digest : Instr.wf (.hello 0 0 7 (zeros 32) (zeros 64) 0) = false := by decide
theorem test_wf_attest : Instr.wf (.attest none (some (zeros 63))) = false := by decide
theorem test_wf_barWrite : Instr.wf (.barWrite none 0 0 (zeros 65)) = false := by decide
theorem test_wf_moduleRestart : Instr.wf (.moduleRestart 0x4F 0) = false ∧ Instr.wf (.moduleRestart 0x56 0) = false := by decide
theorem test_wf_dlUp : Instr.wf (.dlUp 0 4 3) = false ∧ Instr.wf (.dlUp 7 4 3) = false ∧ Instr.wf (.dlUp 6 5 3) = false ∧ Instr.wf (.dlUp 6 4 4) = false := by decide
theorem test_wf_selfTest : Instr.wf (.selfTestDone 0 [(0, 0)]) = false ∧ Instr.wf (.selfTestDone 0 [(0, 8)]) = false ∧ Instr.wf (.selfTestDone 0 [(0, 1), (1, 7)]) = true := by decide
theorem test_wf_pouncing : Instr.wf (.pouncingDone 0 [⟨0, 0, 0, .data [(72, 1)], .noData⟩] []) = false ∧ Instr.wf (.pouncingDone 0 [] [(0, 8)]) = false := by decide
theorem test_wf_activity : Instr.wf (.escapementWindow 0 ⟨[0, 0, 0, 0, 0], 0, 0, 0, 0, 0, 0, 0, 0, 0, 0, 0⟩) = false := by decide

-- Witnesses: the block as a whole.

theorem test_stepRunsFront : ({ base with pending := [.fence 0] } : State).pending = .fence 0 :: [] := rfl
theorem test_emptyQueue : base.pending = [] := rfl
theorem test_fuses : ∃ t, step { base with boot := { base.boot with fuses := 1 } } = .next t ∧ (1 : BitVec 64).getLsbD 0 = true := ⟨_, rfl, by decide⟩
theorem test_flash : ∃ t, step base = .next t ∧ Mem.wfD erased [(7, 0)] = true := ⟨_, rfl, by decide⟩
theorem test_activeSlot : ∃ t, step base = .next t ∧ base.boot.image.isSome = true ∧ base.boot.slot = 1 ∧ slotBase base.boot.slot ≤ 0 ∧
    0x1FFFFFF < slotBase base.boot.slot + slotBytes := ⟨_, rfl, by decide, rfl, by decide, by decide⟩

-- The command window.

theorem test_barWrite_slots : base.answers (some 0) = true ∧ State.reset.answers (some 0) = false ∧ 63487 < 63488 := by decide +kernel
theorem test_barWrite_stores : ∃ t, exec (.barWrite (some 0) 0 63487 [7, 8]) base = .next t ∧ Mem.get (t.win (some 0)).slots 63487 = 7 ∧
    Mem.get (t.win (some 0)).slots 63488 = 0 := ⟨_, rfl, by decide +kernel, by decide +kernel⟩

/-- The first REDUCE of the example of 11 with its HCHK. -/
def slotBytes0 : Bytes :=
  let b := leBytes 4 0x0432FB79 ++ [0x30, 0x18] ++ leBytes 2 0 ++ leBytes 2 0x0C1A ++ leBytes 2 1 ++ zeros 8 ++ leBytes 8 0x20 ++
    leBytes 8 0xC350 ++ leBytes 8 0x100302123F0023FF ++ leBytes 8 0x0101010101010101 ++ leBytes 8 0x0101010101010101
  b ++ leBytes 4 (crc32c b)

/-- 11, the example: SEQ, its slot and byte, and the fields of the REDUCE. -/
theorem test_command_example : 0x0432FB79 = 40 + 50000 * 1409 + 1 ∧ (0x0432FB79 - 1) % 960 = 440 ∧
    Cmd.parse slotBytes0 = ⟨0x0432FB79, 0x30, 0x18, 0, 0x0C1A, 1, [0, 0, 0, 0], 0x20, 0xC350, 0x100302123F0023FF, 0x0101010101010101, 0x0101010101010101⟩ := by
  decide +kernel

/-- Its slot at the cursor of the first partition. -/
def inSlot (b : Bytes) (x : Part) : Part :=
  { x with pstate := .running, job := some { job with num := 0x0C1A }, win := { x.win with mcur := 440, mexp := 0x0432FB79, slots := Mem.write [] 28160 b } }

theorem test_slotTake : (p0 (inSlot slotBytes0)).examines (some 0) false = true ∧ (p0 (inSlot slotBytes0)).slotValid (some 0) false = true ∧
    (p0 (inSlot slotBytes0)).hasRoom (some 0) false = true ∧ (p0 (inSlot slotBytes0)).urgentFirst (some 0) false = false ∧
    Cmd.hchkOk ((p0 (inSlot slotBytes0)).slotAt (some 0) false) = true ∧
    (p0 (inSlot slotBytes0)).refusal (some 0) false (Cmd.parse ((p0 (inSlot slotBytes0)).slotAt (some 0) false)) = none := by decide +kernel
/-- An ABORT of SEQ 1 with its HCHK. -/
def urgent0 : Bytes := let b := leBytes 4 1 ++ [0x52] ++ zeros 55; b ++ leBytes 4 (crc32c b)

/-- R321: a valid urgent slot with room goes before it. -/
theorem test_urgentFirst : (p0 fun x => { inSlot slotBytes0 x with
    win := { (inSlot slotBytes0 x).win with slots := Mem.write (inSlot slotBytes0 x).win.slots 61440 urgent0 } }).urgentFirst (some 0) false = true := by decide +kernel

theorem test_slotTake_refused : (p0 fun x => { inSlot slotBytes0 x with pstate := .idle }).refusal (some 0) false
    (Cmd.parse ((p0 (inSlot slotBytes0)).slotAt (some 0) false)) = some stRejected := by decide +kernel

/-- The slot with its last byte changed. -/
def badSlot (x : Part) : Part := { inSlot (patch slotBytes0 63 [BitVec.ofNat 8 (byteAt slotBytes0 63 + 1)]) x with badMain := some 0, count := 10000 }

theorem test_badSlot : (p0 badSlot).examines (some 0) false = true ∧ (p0 badSlot).slotValid (some 0) false = true ∧
    (p0 badSlot).hasRoom (some 0) false = true ∧ (p0 badSlot).urgentFirst (some 0) false = false ∧
    Cmd.hchkOk ((p0 badSlot).slotAt (some 0) false) = false ∧
    (p0 badSlot).badAt (some 0) false = some 0 ∧ 0 + 10000 ≤ (p0 badSlot).seqCount (some 0) ∧
    (p0 fun x => { badSlot x with count := 9999 }).seqCount (some 0) < 0 + 10000 := by decide +kernel

def fence := ent (cmd 5 0x50 0 0 0 0)

theorem test_fence : ((p0 (busy [fence])).settled (some 0)).startable (some 0) .fence = some fence ∧ fence.urgent = false ∧
    ((p0 (busy [fence])).settled (some 0)).inFlight (some 0) false 5 = some fence := by decide +kernel
theorem test_fence_starts : (p0 (busy [fence])).mains (some 0) = fence :: [] ∧ State.clsOf fence = .fence ∧ fence.started = none ∧ fence.ends = none ∧
    (p0 (busy [fence])).waitState (some 0) fence.cmd = some true ∧ (p0 (busy [fence])).gate (some 0) fence.cmd.opc = none := by decide +kernel
theorem test_fence_holds : (p0 (busy [ent (cmd 4 0x30 0 0 0 0), fence])).mains (some 0) = [ent (cmd 4 0x30 0 0 0 0)] ++ fence :: [] ∧
    (p0 (busy [ent (cmd 4 0x30 0 0 0 0), fence])).startable (some 0) .reduce = some (ent (cmd 4 0x30 0 0 0 0)) := by decide +kernel
theorem test_fence_result : ∃ t, exec (.fence 0) (p0 (busy [fence])) = .next t ∧ t.parts[(0 : PartId)].win.table = [] := ⟨_, rfl, by decide +kernel⟩

def status (a0 a1 : Nat) := ent (cmd 6 0x51 a0 a1 0 0)

theorem test_status : ((p0 (busy [status 0 0x10007])).settled (some 0)).nextStatus (some 0) = some (status 0 0x10007) ∧
    ((p0 (busy [status 0 0x10007])).settled (some 0)).inFlight (some 0) false 6 = some (status 0 0x10007) := by decide +kernel
theorem test_status_dump : ((p0 (busy [status 0x1000 0])).settled (some 0)).nextStatus (some 0) = some (status 0x1000 0) ∧
    ((p0 (busy [status 0x1000 0])).settled (some 0)).inFlight (some 0) false 6 = some (status 0x1000 0) ∧ (status 0x1000 0).cmd.arg0 ≠ 0 := by decide +kernel

def abort : InFlight := ⟨cmd 9 0x52 5 0 0 0, true, none, 0, false, none, 0⟩

def aborting (l : List InFlight) : State := p0 (busy (l ++ [abort]))

theorem test_abort_absent : ((aborting []).settled (some 0)).urgentHead (some 0) (· == 0x52) = some abort ∧
    ((aborting []).settled (some 0)).inFlight (some 0) true 9 = some abort ∧ ((aborting []).settled (some 0)).inFlight (some 0) false 5 = none := by decide +kernel
theorem test_abort_waiting : ((aborting [fence]).settled (some 0)).inFlight (some 0) false 5 = some fence ∧ fence.started = none ∧ fence.ends = none ∧
    ((aborting [fence]).settled (some 0)).urgentHead (some 0) (· == 0x52) = some abort ∧
    ((aborting [fence]).settled (some 0)).inFlight (some 0) true 9 = some abort := by decide +kernel
theorem test_abort_jewel : ((aborting [{ ent (cmd 5 0x10 0 0 0 0) with started := some 0 }]).settled (some 0)).inFlight (some 0) false 5 =
    some { ent (cmd 5 0x10 0 0 0 0) with started := some 0 } ∧ ((aborting [{ ent (cmd 5 0x10 0 0 0 0) with started := some 0 }]).settled (some 0)).urgentHead (some 0) (· == 0x52) = some abort ∧
    ((aborting [{ ent (cmd 5 0x10 0 0 0 0) with started := some 0 }]).settled (some 0)).inFlight (some 0) true 9 = some abort ∧ (0x10 : Nat) ∈ [0x01, 0x02, 0x03, 0x04, 0x10, 0x60] := by decide +kernel
theorem test_abort_reset : ((aborting [{ ent (cmd 5 0x11 0 0 0 0) with started := some 0 }]).settled (some 0)).inFlight (some 0) false 5 =
    some { ent (cmd 5 0x11 0 0 0 0) with started := some 0 } ∧ ((aborting [{ ent (cmd 5 0x11 0 0 0 0) with started := some 0 }]).settled (some 0)).urgentHead (some 0) (· == 0x52) = some abort ∧
    ((aborting [{ ent (cmd 5 0x11 0 0 0 0) with started := some 0 }]).settled (some 0)).inFlight (some 0) true 9 = some abort ∧ (0x11 : Nat) ∈ [0x11, 0x30, 0x20, 0x21, 0x40, 0x41, 0x50] ∧
    ((aborting [{ ent (cmd 5 0x11 0 0 0 0) with started := some 0 }]).settled (some 0)).parts[(0 : PartId)].pstate = .running ∧ ((aborting [{ ent (cmd 5 0x11 0 0 0 0) with started := some 0 }]).settled (some 0)).parts[(0 : PartId)].reset = none := by decide +kernel

theorem test_timeout : (p0 fun x => { busy [{ ent (cmd 5 0x11 0 0 0 0) with started := some 0 }] x with count := 16001 }).expired (some 0)
    { ent (cmd 5 0x11 0 0 0 0) with started := some 0 } = true ∧ (p0 (busy [])).parts[(0 : PartId)].pstate = .running ∧
    (p0 (busy [])).parts[(0 : PartId)].reset = none ∧ ((p0 (busy [])).parts[(0 : PartId)].log.episode.map (·.level)).getD 0 < 4 := by decide +kernel
theorem test_timeout_pf : (∀ e ∈ base.pf.win.table, e.ends = none) ∧
    ({ base with pf := { base.pf with win := { base.pf.win with table := [{ ent (cmd 2 0x60 0 0 0 0) with started := some 0 }] }, count := 80000000000000 } } : State).expired none
      { ent (cmd 2 0x60 0 0 0 0) with started := some 0 } = true := by decide +kernel
theorem test_timeout_boundary : (p0 fun x => { busy [] x with count := 16000 }).expired (some 0)
    { ent (cmd 5 0x11 0 0 0 0) with started := some 0 } = false := by decide +kernel

-- Jobs.

/-- The first partition with a Jewel command in service. -/
def jewel (st : PState) (c : Cmd) (x : Part) : Part :=
  { x with pstate := st, win := { x.win with table := [{ ent c with started := some 0 }] }, service := some ⟨c.seq, c.opc, 1, none⟩ }

def openCmd : Cmd := { cmd 3 0x01 0 5477 0 0 with job := 1 }

theorem test_jobOpen : (p0 (jewel .idle openCmd)).serving (some 0) 0x01 = some openCmd ∧ (p0 (jewel .idle openCmd)).parts[(0 : PartId)].service = some ⟨3, 1, 1, none⟩ ∧
    (p0 (jewel .idle openCmd)).parts[(0 : PartId)].pstate = .idle := by decide +kernel
theorem test_jobOpen_compact : (p0 (jewel .idle openCmd)).compactOk 0 openCmd compact true = true := by decide +kernel
theorem test_jobOpen_refused : (p0 (jewel .idle openCmd)).compactOk 0 openCmd compact false = false := by decide +kernel

def closeCmd : Cmd := { cmd 4 0x02 1 0 0 0 with job := 1 }

theorem test_jobClose : (p0 fun x => { jewel .running closeCmd x with job := some job }).serving (some 0) 0x02 = some closeCmd ∧
    (p0 fun x => { jewel .running closeCmd x with job := some job }).parts[(0 : PartId)].pstate ≠ .failed := by decide +kernel
theorem test_jobClose_failed : (p0 (jewel .failed closeCmd)).serving (some 0) 0x02 = some closeCmd ∧
    (p0 (jewel .failed closeCmd)).parts[(0 : PartId)].pstate = .failed := by decide +kernel

/-- A key package of contributor 0 for job 1, its body an import secret and a root secret of zeros. -/
def package : Bytes :=
  let h := ascii "EZKP" ++ leBytes 2 1 ++ ([0, 3] : Bytes) ++ leBytes 2 1 ++ zeros 6 ++ zeros 64
  let e := Gcm.encrypt (shake256 32 (zeros 32 ++ ascii "EZM6410 KPKG" ++ h)) (zeros 12) h (zeros 64)
  h ++ zeros 1088 ++ zeros 12 ++ e.1 ++ e.2 ++ zeros 3309

def releaseCmd : Cmd := { cmd 4 0x03 0 4569 0 0 with job := 1 }

def releasing : State := p0 fun x => { jewel .opening releaseCmd x with job := some { job with jr := none, keySet := false } }

theorem test_keyRelease : releasing.serving (some 0) 0x03 = some releaseCmd ∧ releasing.parts[(0 : PartId)].service = some ⟨4, 3, 1, none⟩ := by decide +kernel
theorem test_keyRelease_job : releasing.parts[(0 : PartId)].job = some { job with jr := none, keySet := false } := rfl
theorem test_keyRelease_opens : releasing.openPackage 0 releaseCmd package true (some (zeros 32)) = some (some (zeros 32), some (zeros 32)) := by decide +kernel
theorem test_keyRelease_refused : releasing.openPackage 0 releaseCmd (zeros 4569) true (some (zeros 32)) = none := by decide +kernel

def attestCmd (room : Nat) : Cmd := { cmd 4 0x04 0 0x1000 room 0 with job := 1 }

def attesting (room : Nat) : State := p0 fun x => { jewel .running (attestCmd room) x with job := some job }

theorem test_attest : (attesting 6929).serving (some 0) 0x04 = some (attestCmd 6929) ∧ (attesting 6929).service (some 0) = some ⟨4, 4, 1, none⟩ := by decide +kernel
/-- R372: 3,620 bytes with the chain's length, then the chain and a signature of 3,309 bytes; here the chain is empty. -/
theorem test_attest_room : ((attesting 6929).report (some 0) (zeros 64) []).length = 6929 := by decide +kernel
theorem test_attest_noRoom : 6928 < ((attesting 6928).report (some 0) (zeros 64) []).length := by decide +kernel

-- Programs and copies.

/-- One END descriptor for tile 0 at slot 4,095, in clear: its segment. -/
def plainProgram : Bytes := leBytes 8 1 ++ leBytes 2 4095 ++ leBytes 2 1 ++ zeros 4 ++ ([0x0F] ++ zeros 63)

def programKey : Bytes := derived (derived (zeros 32) "EZM6410 PSEC") "EZM6410 PROG"

def program : Bytes :=
  let h := ascii "EZPG" ++ leBytes 2 1 ++ leBytes 2 1 ++ leBytes 4 80 ++ zeros 4 ++ shake256 64 plainProgram ++ zeros 12 ++ zeros 36
  let e := Gcm.encrypt programKey (zeros 12) h plainProgram
  h ++ e.1 ++ e.2

def loadEnt : InFlight := ent (cmd 5 0x10 0 224 0 0)

def programmed : Job := { job with compact := patch compact 2088 (shake256 64 plainProgram) }

def loading : State := p0 fun x => { busy [loadEnt] x with job := some programmed }

theorem test_loadProgram : (loading.settled (some 0)).startable (some 0) .tile = some loadEnt ∧ loadEnt.cmd.opc = 0x10 ∧ loadEnt.urgent = false ∧
    (loading.settled (some 0)).inFlight (some 0) false 5 = some loadEnt := by decide +kernel
theorem test_loadProgram_job : ((loading.settled (some 0)).parts[(0 : PartId)].job.bind (·.jr)).isSome = true := by decide +kernel
theorem test_loadProgram_accepted : (loading.loadImage 0 loadEnt.cmd program).2 = true := by decide +kernel
theorem test_loadProgram_refused : (loading.loadImage 0 loadEnt.cmd (zeros 224)).2 = false := by decide +kernel

def runEnt : InFlight := ent (cmd 6 0x11 4095 0xC350 0 0x3FFFC0)

theorem test_run : ((p0 (busy [runEnt])).settled (some 0)).startable (some 0) .tile = some runEnt ∧ runEnt.cmd.opc = 0x11 := by decide +kernel

/-- Stream 5 of the host: chunks 0 to 7 written. -/
def stream : Stream := ⟨5, false, 0xFF, 0, 0x10000, 0x20000, 0, 8, 16, 8, 0, false⟩

def copying (c : Cmd) (st : Stream) : State := p0 fun x => { busy [ent c] x with streams := [(0, st)] }

def copyInCmd : Cmd := cmd 7 0x20 5 0x0100000000000000 32768 0

theorem test_copyIn : ((copying copyInCmd stream).settled (some 0)).nextCopy 0 0 (some 0x20) = some (ent copyInCmd) ∧
    ((copying copyInCmd stream).settled (some 0)).stream 0 (copyInCmd.arg0 % 2 ^ 32) = some (0, stream) ∧ stream.owner = 0xFF ∧
    ((copying copyInCmd stream).settled (some 0)).copyPlaceOk 0 copyInCmd = true ∧ copyInCmd.arg0 / 2 ^ 32 + ceilDiv copyInCmd.arg2 4096 ≤ stream.hw := by
  decide +kernel
theorem test_copyIn_invalid : ((copying { copyInCmd with arg2 := 33280 } stream).settled (some 0)).nextCopy 0 0 (some 0x20) = some (ent { copyInCmd with arg2 := 33280 }) ∧
    ¬(0 + ceilDiv 33280 4096 ≤ stream.hw) ∧
    ((copying { copyInCmd with arg2 := 33280 } stream).settled (some 0)).inFlight (some 0) false 7 = some (ent { copyInCmd with arg2 := 33280 }) := by decide +kernel

/-- COPY_OUT of 8 chunks from chunk 8, up to LIMIT. -/
def copyOutCmd : Cmd := cmd 7 0x21 (8 * 2 ^ 32 + 5) 0x0100000000000000 32768 0

theorem test_copyOut : ((copying copyOutCmd stream).settled (some 0)).nextCopy 0 0 (some 0x21) = some (ent copyOutCmd) ∧
    ((copying copyOutCmd stream).settled (some 0)).stream 0 (copyOutCmd.arg0 % 2 ^ 32) = some (0, stream) ∧
    ((copying copyOutCmd stream).settled (some 0)).copyPlaceOk 0 copyOutCmd = true ∧ stream.preset = false ∧ stream.ended = false ∧
    copyOutCmd.arg0 / 2 ^ 32 + ceilDiv copyOutCmd.arg2 4096 = stream.limit ∧ stream.ksrc = 0 ∧ copyOutCmd.arg0 / 2 ^ 32 = stream.hwD := by decide +kernel
theorem test_copyOut_anew : copyInCmd.arg0 / 2 ^ 32 = 0 ∧ stream.epochD ≠ 0xFFFFFFFF ∧
    ((copying copyOutCmd stream).settled (some 0)).parts[(0 : PartId)].copies.any (·.sid == stream.sid) = false := by decide +kernel
theorem test_copyOut_released : State.releasedTo (patch compact 24 [1]) 0 0 = true := by decide +kernel

def bindCmd (sid : Nat) : Cmd := cmd 8 0x20 (0xFF * 2 ^ 32 + sid) 0x30000 0x40000 (16 * 2 ^ 32 + 1)

def binding (sid : Nat) (started : Option Nat) : State := p0 (busy [{ ent (bindCmd sid) with started := started }])

theorem test_bind : ((binding 1023 none).settled (some 0)).nextBind 0 1 (((binding 1023 none).settled (some 0)).bindReady 0) = some (ent (bindCmd 1023)) ∧
    ((binding 1023 none).settled (some 0)).inFlight (some 0) false 8 = some (ent (bindCmd 1023)) ∧
    ((binding 1023 none).settled (some 0)).parts[(0 : PartId)].job.isSome = true ∧ ((binding 1023 none).settled (some 0)).sidOk 0 (bindCmd 1023) job = true ∧
    State.sidNeeds (bindCmd 1023) job = none ∧ bits (bindCmd 1023).arg0 47 40 = 0 ∧ ((binding 1023 none).settled (some 0)).freeStream 0 = some 0 := by decide +kernel
theorem test_bind_waits : ((binding 1024 none).settled (some 0)).nextBind 0 1 (fun e => !((binding 1024 none).settled (some 0)).bindReady 0 e) = some (ent (bindCmd 1024)) ∧ ((binding 1024 none).settled (some 0)).sidOk 0 (bindCmd 1024) job = true ∧
    State.sidNeeds (bindCmd 1024) job = some 2048 ∧ ((binding 1024 none).settled (some 0)).inFlight (some 0) false 8 = some (ent (bindCmd 1024)) := by decide +kernel
theorem test_bind_invalid : ((binding 0x2000 none).settled (some 0)).nextBind 0 1 (((binding 0x2000 none).settled (some 0)).bindReady 0) = some (ent (bindCmd 0x2000)) ∧ ((binding 0x2000 none).settled (some 0)).sidOk 0 (bindCmd 0x2000) job = false ∧
    ((binding 0x2000 none).settled (some 0)).inFlight (some 0) false 8 = some (ent (bindCmd 0x2000)) := by decide +kernel
/-- A BIND under a key source that no contributor imported, one with every index taken, and one started before. -/
theorem test_bind_refused : bits (2 ^ 40 + (bindCmd 1023).arg0) 47 40 = 1 ∧ job.imports.any (·.1 + 1 == 1) = false := by decide +kernel
/-- A box of 8 partitions, whose share of the stream table is 256 entries. -/
def bound (n : Nat) : State :=
  let s := p0 fun x => { busy [] x with streams := (List.range n).map fun i => (i, stream) }
  { s with boot := { s.boot with image := some { im with npart := 8 } } }
theorem test_bind_full : ((bound 256).freeStream 0) = none ∧ ((bound 255).freeStream 0) = some 255 := by decide +kernel
theorem test_bind_started : ((binding 1023 (some 0)).settled (some 0)).nextBind 0 1 (((binding 1023 (some 0)).settled (some 0)).bindReady 0) =
      some { ent (bindCmd 1023) with started := some 0 } ∧ State.sidNeeds (bindCmd 1023) job = none ∧
    ((binding 1023 (some 0)).settled (some 0)).inFlight (some 0) false 8 = some { ent (bindCmd 1023) with started := some 0 } := by decide +kernel

theorem test_sidCeiling_leader : (binding 1024 (some 0)).nextBind 0 1 (fun e => !(binding 1024 (some 0)).bindReady 0 e) = some { ent (bindCmd 1024) with started := some 0 } ∧ (binding 1024 (some 0)).parts[(0 : PartId)].job.isSome = true ∧
    (binding 1024 (some 0)).isLeader 0 = true := by decide +kernel

/-- The same in a member that does not lead: the leader is the module at X = 1. -/
def led : Job := { job with compact := patch compact 20 [1] }

def memberOf (x : Part) : Part := { busy [{ ent (bindCmd 1024) with started := some 0 }] x with job := some led }

theorem test_sidCeiling_member : (p0 memberOf).isLeader 0 = false ∧ led.sidAsked ≠ some 2048 ∧
    (p0 memberOf).nextBind 0 1 (fun e => !(p0 memberOf).bindReady 0 e) = some { ent (bindCmd 1024) with started := some 0 } ∧ (routePort (p0 memberOf).me (Compact.leader led.compact)).isSome = true := by decide +kernel
theorem test_sidCeiling_asked : (p0 fun x => { memberOf x with job := some { led with sidAsked := some 2048 } }).isLeader 0 = false ∧
    ({ led with sidAsked := some 2048 } : Job).sidAsked = some 2048 := by decide +kernel

def unbindCmd : Cmd := cmd 9 0x20 5 0 0 2

theorem test_unbind : ((copying unbindCmd stream).settled (some 0)).nextBind 0 2 (((copying unbindCmd stream).settled (some 0)).unbindReady 0) = some (ent unbindCmd) ∧
    ((copying unbindCmd stream).settled (some 0)).inFlight (some 0) false 9 = some (ent unbindCmd) ∧
    (((copying unbindCmd stream).settled (some 0)).stream 0 (unbindCmd.arg0 % 2 ^ 32)).isSome = true ∧
    ((copying unbindCmd stream).settled (some 0)).streamBusy 0 (unbindCmd.arg0 % 2 ^ 32) = false := by decide +kernel
theorem test_unbind_invalid : ((copying { unbindCmd with arg0 := 6 } stream).settled (some 0)).nextBind 0 2 (((copying { unbindCmd with arg0 := 6 } stream).settled (some 0)).unbindReady 0) = some (ent { unbindCmd with arg0 := 6 }) ∧
    ((copying { unbindCmd with arg0 := 6 } stream).settled (some 0)).inFlight (some 0) false 9 = some (ent { unbindCmd with arg0 := 6 }) ∧
    ((copying { unbindCmd with arg0 := 6 } stream).settled (some 0)).stream 0 6 = none := by decide +kernel
/-- An UNBIND of a stream that a copy is using. -/
def unbindBusy : State := p0 fun x => { busy [ent unbindCmd] x with streams := [(0, stream)], copies := [State.newCopy copyInCmd true 0] }
theorem test_unbind_waits : (unbindBusy.settled (some 0)).streamBusy 0 5 = true ∧ ((unbindBusy.settled (some 0)).stream 0 5).isSome = true ∧
    (unbindBusy.settled (some 0)).nextBind 0 2 ((unbindBusy.settled (some 0)).unbindReady 0) = some (ent unbindCmd) := by decide +kernel

-- The carding engine.

/-- REDUCE of bucket 1: SUM of 1 row of 16 columns, wire format 03h, from tile 0 to tile 0. -/
def reduceCmd : Cmd := { cmd 5 0x30 0 (2 ^ 60 + 3 * 2 ^ 48 + 15 * 2 ^ 24) 1 1 with tag := 1, job := 1 }

theorem test_reduce : ((p0 (busy [ent reduceCmd])).settled (some 0)).startable (some 0) .reduce = some (ent reduceCmd) ∧
    ((p0 (busy [ent reduceCmd])).settled (some 0)).bucketOk 0 (((p0 (busy [ent reduceCmd])).settled (some 0)).newBucket 0 reduceCmd) (bits reduceCmd.arg1 55 48) = true ∧
    ((p0 (busy [ent reduceCmd])).settled (some 0)).parts[(0 : PartId)].card.table.length < 4096 / max 1 base.npart ∧
    ((p0 (busy [ent reduceCmd])).settled (some 0)).parts[(0 : PartId)].fuller.heldRes.find? (fun h => h.tag == 1 && h.step == 0 && h.bkind == 1) = none := by decide +kernel
theorem test_reduce_invalid : ((p0 (busy [ent { reduceCmd with arg2 := 0 }])).settled (some 0)).startable (some 0) .reduce = some (ent { reduceCmd with arg2 := 0 }) ∧
    (base.modPart 0 (busy [])).bucketOk 0 ((base.modPart 0 (busy [])).newBucket 0 { reduceCmd with arg2 := 0 }) 3 = false ∧
    ((p0 (busy [ent { reduceCmd with arg2 := 0 }])).settled (some 0)).inFlight (some 0) false 5 = some (ent { reduceCmd with arg2 := 0 }) := by decide +kernel

/-- The entry that command installs, one with three members along X of which this is the first. -/
def bucket0 : Bucket := (p0 (busy [])).newBucket 0 reduceCmd
def bucket3 (pos : Nat) : Bucket :=
  let b : Bucket := { bucket0 with dims := 1, ring := [[3 - pos, 4 - pos, 5 - pos], [0], [0], [0]].set 0 ((List.range 3).map (· + 0)), pos := [pos, 0, 0, 0], trows := 1, cols := 256 }
  { b with stages := List.replicate (b.stageDims.length + 1) [⟨0, 0, List.replicate 256 (0, 0)⟩] }

theorem test_reduce_full : 4096 / max 1 base.npart ≤ (List.replicate 2048 { bucket0 with tag := 2 }).length ∧
    (p0 fun x => { busy [] x with card := { x.card with table := List.replicate 2048 { bucket0 with tag := 2 } } }).bucketOk 0 bucket0 3 = true := by decide +kernel
theorem test_reduce_held : ([⟨1, 0, 1, []⟩] : List HeldResult).find? (fun h => h.tag == 1 && h.step == 0 && h.bkind == 1) = some ⟨1, 0, 1, []⟩ := by decide

/-- A panel of one row of 16 binary32 zeros of bucket 1. -/
def panel : Bytes := (PHdr.bytes ⟨1, 0, 0, 1, 1, 16, 0, 0, 0⟩) ++ zeros 48 ++ zeros 64

def op (engine : Engine) (d : Bytes) : Op := ⟨7, 3, engine, fit 64 d, none, [], true, true, [], [], false, none, [], [], [], [], [], false, false⟩

/-- SEND or RECV of `len` bytes at scratchpad address 0 with the carding engine. -/
def meshOp (kind len : Nat) : Op := op .mesh ([BitVec.ofNat 8 kind, 0, 0x40, 0] ++ leBytes 4 0 ++ leBytes 4 len)

def sending : State := t0 (fun x => { busy [] x with card := { x.card with table := [bucket0] } }) fun y => { y with sp := Mem.write [] 0 panel, ops := [meshOp 4 128] }

theorem test_contribution : sending.partOf 0 = some 0 ∧ sending.meshHead 0 4 0x40 = some (meshOp 4 128) ∧ sending.sendEntry 0 0 = some bucket0 ∧
    (sending.contribute 0 bucket0 (MeshDesc.parse (meshOp 4 128).desc)).isSome = true := by decide +kernel
theorem test_contribution_invalid : sending.contribute 0 { bucket0 with tag := 2 } (MeshDesc.parse (meshOp 4 128).desc) = none := by decide +kernel

/-- A whole message from the module at X = `src`. -/
def msg (src : Nat) (d : Bytes) : Msg := ⟨src, 0, 1, d, [], max 1 (ceilDiv d.length 256), true, false, []⟩

def got (b : Bucket) (m : Msg) : State :=
  let s := p0 fun x => { busy [] x with card := { x.card with table := [b], msgs := [m] } }
  { s with boot := { s.boot with image := some { im with coord := BitVec.ofNat 16 (b.pos.getD 0 0) } } }

/-- Element values 0 for `n` elements. -/
def elems (n : Nat) : List Elem := List.replicate n (0, 0)

theorem test_partial : judgeMsg (bucket3 1) 1 (msg 0 ((bucket3 1).elemMessage 1 0 0 0 0 (elems 128))) = some (.partialSum 0 0 0 128) ∧
    (got (bucket3 1) (msg 0 ((bucket3 1).elemMessage 1 0 0 0 0 (elems 128)))).nextMsg 0 (fun k => k == 1 || k == 0 || decide (6 < k)) =
      some (bucket3 1, msg 0 ((bucket3 1).elemMessage 1 0 0 0 0 (elems 128))) ∧ (takeRange ((bucket3 1).stages.getD 0 []) 0 128).isSome = true ∧
    (bucket3 1).posIn 0 + 1 < (bucket3 1).nmem 0 := by decide +kernel
theorem test_partial_last : judgeMsg (bucket3 2) 2 (msg 1 ((bucket3 2).elemMessage 1 0 1 128 0 (elems 128))) = some (.partialSum 0 1 128 128) ∧
    (bucket3 2).nmem 0 ≤ (bucket3 2).posIn 0 + 1 ∧ 1 ≠ (bucket3 2).posIn 0 := by decide +kernel
theorem test_final : judgeMsg (bucket3 0) 0 (msg 2 ((bucket3 0).elemMessage 2 0 0 0 0 (elems 128))) = some (.finalSum 0 0 128) ∧
    (got (bucket3 0) (msg 2 ((bucket3 0).elemMessage 2 0 0 0 0 (elems 128)))).nextMsg 0 (· == 2) =
      some (bucket3 0, msg 2 ((bucket3 0).elemMessage 2 0 0 0 0 (elems 128))) := by decide +kernel
theorem test_gather_up : judgeMsg (bucket3 1) 1 (msg 0 ((bucket3 1).elemMessage 3 0 0 0 0 (elems 128))) = some (.gather 0 0 0 128) ∧
    (got (bucket3 1) (msg 0 ((bucket3 1).elemMessage 3 0 0 0 0 (elems 128)))).nextMsg 0 (· == 3) =
      some (bucket3 1, msg 0 ((bucket3 1).elemMessage 3 0 0 0 0 (elems 128))) ∧ 0 < (bucket3 1).posIn 0 ∧ (bucket3 1).posIn 0 + 1 < (bucket3 1).nmem 0 := by decide +kernel
theorem test_gather_down : judgeMsg (bucket3 1) 1 (msg 2 ((bucket3 1).elemMessage 3 0 2 256 0 [])) = none ∧
    judgeMsg (bucket3 0) 0 (msg 1 ((bucket3 0).elemMessage 3 0 1 128 0 (elems 128))) = some (.gather 0 1 128 128) ∧ (bucket3 0).posIn 0 < 1 ∧ (bucket3 0).posIn 0 = 0 := by
  decide +kernel
theorem test_markers : judgeMsg (bucket3 1) 1 (msg 0 ((bucket3 1).marker 4 0)) = some (.mkup 0) ∧
    judgeMsg (bucket3 1) 1 (msg 2 ((bucket3 1).marker 5 0)) = some (.mkdn 0) ∧ 0 < (bucket3 1).posIn 0 ∧ (bucket3 1).bkind = 1 ∧
    (got (bucket3 1) (msg 0 ((bucket3 1).marker 4 0))).nextMsg 0 (· == 4) = some (bucket3 1, msg 0 ((bucket3 1).marker 4 0)) ∧
    (got (bucket3 1) (msg 2 ((bucket3 1).marker 5 0))).nextMsg 0 (· == 5) = some (bucket3 1, msg 2 ((bucket3 1).marker 5 0)) := by decide +kernel
theorem test_marker_mismatch : judgeMsg (bucket3 0) 0 (msg 1 ((bucket3 0).elemMessage 2 0 0 0 0 (elems 128))) = none ∧
    (got (bucket3 0) (msg 1 ((bucket3 0).elemMessage 2 0 0 0 0 (elems 128)))).nextMsg 0 (· == 2) =
      some (bucket3 0, msg 1 ((bucket3 0).elemMessage 2 0 0 0 0 (elems 128))) := by decide +kernel
/-- A SUM's first member, and a MOVE, keep a MKDN; a message whose header has a lost word. -/
theorem test_mkdn_kept : judgeMsg (bucket3 0) 0 (msg 1 ((bucket3 0).marker 5 0)) = some (.mkdn 0) ∧ ¬((bucket3 0).bkind = 1 ∧ 0 < (bucket3 0).posIn 0) ∧
    (got (bucket3 0) (msg 1 ((bucket3 0).marker 5 0))).nextMsg 0 (· == 5) = some (bucket3 0, msg 1 ((bucket3 0).marker 5 0)) := by decide +kernel
def lostMsg : Msg := { msg 2 ((bucket3 0).elemMessage 2 0 0 0 0 (elems 128)) with errs := [(0, 2)] }
theorem test_headLost : lostMsg.headLost = true ∧ (msg 0 []).headLost = false ∧ (got (bucket3 0) lostMsg).nextMsg 0 (· == 2) = some (bucket3 0, lostMsg) := by decide +kernel
/-- A slice's owner takes its own sum at the end of the line. -/
theorem test_partial_kept : judgeMsg (bucket3 2) 2 (msg 1 ((bucket3 2).elemMessage 1 0 2 256 0 [])) = none ∧
    (let b := { bucket3 2 with cols := 384, stages := [[⟨0, 0, List.replicate 384 (0, 0)⟩], []] }
     judgeMsg b 2 (msg 1 (b.elemMessage 1 0 2 256 0 (elems 128))) = some (.partialSum 0 2 256 128) ∧ b.nmem 0 ≤ b.posIn 0 + 1 ∧ 2 = b.posIn 0 ∧
     (takeRange (b.stages.getD 0 []) 256 128).isSome = true) := by decide +kernel

/-- The receiving end of a MOVE of 128 bytes from the module at X = 1. -/
def mover : Bucket := { bucket0 with bkind := 3, wfmt := 0, trows := 2, cmask := 0, rmask := 1, peer := 1 }

theorem test_move : judgeMsg mover 0 (msg 1 (mover.message 6 0 0 0 0 0 128 0 panel)) = some .move ∧
    (got mover (msg 1 (mover.message 6 0 0 0 0 0 128 0 panel))).nextMsg 0 (· == 6) = some (mover, msg 1 (mover.message 6 0 0 0 0 0 128 0 panel)) := by decide +kernel

/-- An entry with a held result of two panels for tile 0, and a tile that waits for `len` bytes of it. -/
def heldBucket : Bucket := { bucket0 with held := some [(0, panel ++ panel, false)] }
def receiving (len : Nat) : State := t0 (fun x => { busy [] x with card := { x.card with table := [heldBucket] } }) fun y => { y with ops := [meshOp 5 len] }

theorem test_delivery : (receiving 128).bucket 0 1 = some heldBucket ∧ (receiving 128).recvEntry 0 0 = some heldBucket ∧
    ((receiving 128).tilesOf 0).filter (fun t => bit heldBucket.rmask t.val) = [0] ∧ (receiving 128).meshHead 0 5 0x40 = some (meshOp 5 128) ∧
    heldBucket.cut.contains 0 = false ∧ heldBucket.delivery 0 = some ([panel, panel], false) ∧
    0 + 128 ∈ [panel, panel].foldl (fun (acc : List Nat) y => acc ++ [acc.getLastD 0 + y.length]) [0] ∧ 0 + 128 ≠ [panel, panel].flatten.length := by decide +kernel
theorem test_delivery_fill : (receiving 128).tiles[(0 : TileId)].ops = [meshOp 5 128] ∧ heldBucket.captured = false ∧
    ({ bucket0 with held := some [(0, panel, true)] } : Bucket).delivery 0 = some ([panel], true) ∧ 0 + 128 = [panel].flatten.length := by decide +kernel
theorem test_delivery_cut : 0 + 64 ∉ [panel, panel].foldl (fun (acc : List Nat) y => acc ++ [acc.getLastD 0 + y.length]) [0] ∧
    (receiving 64).meshHead 0 5 0x40 = some (meshOp 5 64) := by decide +kernel

-- Tile programs.

/-- A descriptor with its DCHK. -/
def sealed (d : Bytes) : Bytes := fit 60 d ++ leBytes 4 (crc32c (fit 60 d))

/-- One row and column of ZW16 with its header line; as weights and as activations it has the same bytes. -/
def tiny : Bytes := PHdr.bytes ⟨3, 0, 0, 0, 1, 1, 0, 0, 0⟩ ++ zeros 48 ++ zeros 64

/-- PASS of the panel at 0 by the panel at 1000h into partial sums at 2000h, ACC binary32, FIRST and LAST, no epilogue. -/
def passD : Bytes := sealed (([1, 3, 3, 3, 0, 0] : Bytes) ++ leBytes 2 0 ++ leBytes 4 0 ++ leBytes 4 0x1000 ++ leBytes 4 0x2000 ++ leBytes 2 8 ++
  leBytes 2 0 ++ leBytes 2 0xFFFF ++ zeros 4 ++ ([0, 0] : Bytes) ++ leBytes 4 0)
/-- DMA of one line from device address 0 of tile 0 under KEYID 1 to 3000h. -/
def dmaD : Bytes := sealed (([2, 0, 0, 0] : Bytes) ++ leBytes 4 0x3000 ++ leBytes 8 (2 ^ 56) ++ leBytes 4 64 ++ leBytes 2 0)
/-- VEC VOP 01h of the panels at 0 and 1000h to 4000h in ZW16, no epilogue. -/
def vecD : Bytes := sealed (([3, 0, 1, 3] : Bytes) ++ leBytes 4 0 ++ leBytes 4 0x1000 ++ leBytes 4 0 ++ leBytes 4 0x4000 ++ leBytes 2 0xFFFF ++ zeros 4 ++
  ([3, 0] : Bytes) ++ zeros 8 ++ zeros 4 ++ leBytes 2 0 ++ leBytes 2 0)
def sendD : Bytes := sealed (([4, 0, 0x40, 0] : Bytes) ++ leBytes 4 0 ++ leBytes 4 64)
def recvD : Bytes := sealed (([5, 0, 0x40, 0] : Bytes) ++ leBytes 4 0x5000 ++ leBytes 4 64)
def loopD : Bytes := sealed (([6, 0, 1, 0] : Bytes) ++ leBytes 4 2)
def endD : Bytes := sealed ([15] : Bytes)

/-- Tile 0 in a RUN with descriptor d at slot 4,095 or at `pc`. -/
def fetching (d : Bytes) (pc : Nat) : State :=
  t0 (fun x => { busy [] x with run := some 6 }) fun y =>
    { y with running := true, pc := pc, imem := Mem.write [] (64 * pc) d, sp := Mem.write (Mem.write [] 0 tiny) 0x1000 tiny }

def dispatched (d : Bytes) : Bool :=
  let s := fetching d 4095
  let x := s.dispCtx 0 0
  s.partOf 0 == some 0 && s.canDispatch 0 0 && s.tiles[(0 : TileId)].imErr.isEmpty && s.tiles[(0 : TileId)].descAt 4095 == d &&
    staticOk x s.tiles[(0 : TileId)] d && onLastExec d s.tiles[(0 : TileId)].loops == some true &&
    (match judge x s.tiles[(0 : TileId)] d with | .ok _ => true | _ => false)

theorem test_pass_dispatched : dispatched passD = true ∧ kindOf passD = 1 := by decide +kernel
theorem test_dma_dispatched : dispatched dmaD = true ∧ kindOf dmaD = 2 := by decide +kernel
theorem test_vec_dispatched : dispatched vecD = true ∧ kindOf vecD = 3 := by decide +kernel
theorem test_send_dispatched : dispatched sendD = true ∧ kindOf sendD = 4 := by decide +kernel
theorem test_recv_dispatched : dispatched recvD = true ∧ kindOf recvD = 5 := by decide +kernel
theorem test_dispatch_clean : (fetching passD 4095).tiles[(0 : TileId)].imErr = [] ∧ (fetching passD 4095).tiles[(0 : TileId)].spErr = [] ∧
    (fetching passD 4095).tiles[(0 : TileId)].rgErr = [] ∧ (fetching passD 4095).tiles[(0 : TileId)].pc < 4096 := by decide +kernel

theorem test_loop_begins : staticOk ((fetching loopD 7).dispCtx 0 0) (fetching loopD 7).tiles[(0 : TileId)] loopD = true ∧ kindOf loopD = 6 ∧
    onLastExec loopD [] = some true ∧ (fetching loopD 7).canDispatch 0 0 = true := by decide +kernel
theorem test_end : staticOk ((fetching endD 4095).dispCtx 0 0) (fetching endD 4095).tiles[(0 : TileId)] endD = true ∧ kindOf endD = 15 := by decide +kernel
theorem test_pastEnd : (fetching endD 4096).canDispatch 0 0 = true ∧ 4096 ≤ (fetching endD 4096).tiles[(0 : TileId)].pc := by decide +kernel
theorem test_imBad : ({ (fetching endD 4095).tiles[(0 : TileId)] with imErr := [(4095, 2)] } : Tile).imBad 4095 = true := by decide +kernel
theorem test_static_bad : staticOk ((fetching endD 4095).dispCtx 0 0) (fetching endD 4095).tiles[(0 : TileId)] (patch endD 63 [BitVec.ofNat 8 (byteAt endD 63 + 1)]) = false := by
  decide +kernel
theorem test_onLast : onLastExec (sealed [4, 0x40, 0x40, 0]) [⟨0, 2, 0, 2, false, []⟩] = some false := by decide +kernel
theorem test_judge_waits : judge ((fetching sendD 4095).dispCtx 0 0) { (fetching sendD 4095).tiles[(0 : TileId)] with ops := List.replicate 8 (meshOp 4 64) } sendD = .wait := by
  decide +kernel
theorem test_judge_invalid : judge ((fetching sendD 4095).dispCtx 0 0) (fetching sendD 4095).tiles[(0 : TileId)]
    (sealed (([4, 0, 0x40, 0] : Bytes) ++ leBytes 4 0x3FFFC0 ++ leBytes 4 128)) = .invalid := by decide +kernel

/-- Operations waiting at tile 0. -/
def waiting (l : List Op) : Tile := { base.tiles[(0 : TileId)] with ops := l }

theorem test_nextPass : (waiting [op .array passD]).nextPass = some (op .array passD) ∧ (op .array passD).epi = none := by decide +kernel
/-- A pass in ACC binary16 over 65,504 by 65,504, which leaves its range. -/
def big : Bytes := PHdr.bytes ⟨3, 0, 0, 0, 1, 1, 0, 0, 0⟩ ++ zeros 48 ++ ([0xFF, 0x7B] ++ zeros 62)
def pass16 : Op := op .array (patch passD 4 [1])
def overflowing : Tile := { waiting [pass16] with sp := Mem.write (Mem.write [] 0 big) 0x1000 big }
theorem test_pass_overflows : overflowing.nextPass = some pass16 ∧ (PassDesc.parse pass16.desc).acc = 1 ∧ overflowing.replayed = [] ∧
    (overflowing.passOut pass16 true (overflowing.loaded pass16)).ovf = true ∧ (overflowing.passOut pass16 false (overflowing.loaded pass16)).ovf = false := by decide +kernel
theorem test_replay : ({ waiting [] with overflowed := [0x2000] } : Tile).ops = [] ∧ ({ waiting [] with overflowed := [0x2000] } : Tile).overflowed = 0x2000 :: [] :=
  ⟨rfl, rfl⟩
theorem test_vectorWork : (waiting [{ op .array passD with epi := some (zeros 64), half := true }]).vectorWork = [{ op .array passD with epi := some (zeros 64), half := true }] ∧
    (waiting [{ op .vector vecD with epi := some (zeros 64) }]).vectorWork = [{ op .vector vecD with epi := some (zeros 64) }] ∧
    (waiting [op .vector vecD]).vectorWork = [op .vector vecD] := by decide +kernel
theorem test_dmaComplete : ((waiting [op .dma dmaD]).ops.filter (·.engine == .dma))[0]? = some (op .dma dmaD) ∧ base.dmaIdle 0 0 7 = true ∧
    ((DmaDesc.parse dmaD).comp && !(DmaDesc.parse dmaD).out) = false := by decide +kernel

/-- Tile 0 sends a line to tile 1, which receives `len` bytes. -/
def meeting (len : Nat) : State :=
  (base.modTile 0 fun y => { y with ops := [op .mesh ([4, 0, 1, 0] ++ leBytes 4 0 ++ leBytes 4 64)] }).modTile 1 fun y =>
    { y with ops := [op .mesh ([5, 0, 0, 0] ++ leBytes 4 64 ++ leBytes 4 len)] }

theorem test_mesh_meets : ((meeting 64).meshHead 0 4 1).isSome = true ∧ ((meeting 64).meshHead 1 5 0).isSome = true ∧ (meeting 64).partOf 0 = some 0 ∧
    (0 : TileId) ≠ 1 ∧ (∀ l ∈ linesOf 0 64, l ∉ (meeting 64).tiles[(0 : TileId)].poison) := by decide +kernel
theorem test_mesh_differs : ((meeting 128).meshHead 0 4 1).map (fun o => (MeshDesc.parse o.desc).len) ≠
    ((meeting 128).meshHead 1 5 0).map (fun o => (MeshDesc.parse o.desc).len) := by decide +kernel

theorem test_tileComplete : (fetching endD 0).tiles[(0 : TileId)].running = true ∧ (fetching endD 0).tiles[(0 : TileId)].reported = false ∧
    (fetching endD 0).tiles[(0 : TileId)].ops = [] ∧ (1 : TileId) ∈ base.tilesOf 0 ∧ base.tiles[(1 : TileId)].reported = false ∧
    ({ (fetching endD 0).tiles[(0 : TileId)] with atEnd := true } : Tile).atEnd = true := by decide +kernel
theorem test_tileMark : (p0 (busy [ent (cmd 5 0x40 0 0 9 0)])).markActs 0 9 = true ∧ ([] : List Op).all (fun o => decide (4 < o.id)) = true ∧
    base.tiles[(1 : TileId)].marked = false := by decide +kernel
theorem test_mark_reached : (t0 (busy [ent (cmd 5 0x40 0 0 9 0)]) fun y => { y with mark := [(4, 9, 7)] }).reachedMark 0 0 = some (4, 9, 7) ∧
    (t0 (busy []) fun y => { y with mark := [(4, 9, 7)] }).reachedMark 0 0 = none ∧ base.tiles[(0 : TileId)].marked = false := by decide +kernel
theorem test_lastReport :
    let s := (base.modPart 0 fun x => { busy [] x with run := some 6 })
    let s := (s.tilesOf 0).foldl (fun s t => s.modTile t fun y => { y with running := true, reported := decide (t.val ≠ 0), atEnd := true }) s
    s.parts[(0 : PartId)].run = some 6 ∧ s.parts[(0 : PartId)].runEnd = none ∧ s.tiles[(0 : TileId)].reported = false ∧ s.tiles[(0 : TileId)].ops = [] ∧
    s.tiles[(0 : TileId)].overflowed = [] ∧ ∀ y ∈ s.tilesOf 0, y ≠ 0 → s.tiles[y].reported = true := by decide +kernel

-- Seal slices and channels.

/-- A request for granule 0 of tile 0, its leaf and tag line in the counter cache. -/
def req (data : Option Bytes) : SealReq := ⟨0, 1, .tileDma 0 7, 0, 512, data, [], 0, false, false, (0, 1)⟩

def sealing (r : List SealReq) (x : Part) : State :=
  (base.modPart 0 fun _ => x).modTile 0 fun y => { y with slice := { y.slice with reqs := r, cache := [⟨.leaf 0, zeros 64, false⟩, ⟨.tagLine 0 0, zeros 64, false⟩] } }

theorem test_granuleRead : State.mustWait (sealing [req none] Part.fresh).tiles[(0 : TileId)].slice 0 (req none) = false ∧ (sealing [req none] Part.fresh).ready 0 0 false = true ∧
    (sealing [req none] Part.fresh).recordHeld 0 (req none) = false ∧ State.poisonHeld (sealing [req none] Part.fresh).tiles[(0 : TileId)].slice 0 = false ∧
    (sealing [req none] Part.fresh).refused 0 0 = false ∧ (sealing [req none] Part.fresh).tiles[(0 : TileId)].slice.find (.leaf (leafOfGran 0)) = some ⟨.leaf 0, zeros 64, false⟩ ∧
    leafMinor (zeros 64) 0 = 0 ∧ leafMajor (zeros 64) = 0 := by decide +kernel
theorem test_granuleRead_refused : (sealing [req none] { Part.fresh with ilock := true }).refused 0 0 = true := by decide +kernel
theorem test_granuleRead_waits : State.mustWait (sealing [req (some (zeros 512)), req none] Part.fresh).tiles[(0 : TileId)].slice 1 (req none) = true ∧ base.ready 0 0 false = false := by
  decide +kernel
/-- A slice with the copy of a granule under way: its turn, and the second of two out of turn. -/
def copyingGran : State := sealing [{ req none with owner := .checkpoint }, { req none with owner := .checkpoint, gran := 1 }] { Part.fresh with fuller := { Fuller.empty with ckpt := none } }
theorem test_copyTurn : copyingGran.copyTurn 0 0 { req none with owner := .checkpoint } = true ∧
    copyingGran.copyTurn 0 1 { req none with owner := .checkpoint, gran := 1 } = false ∧ copyingGran.copyTurn 0 0 (req none) = true := by decide +kernel
theorem test_granuleRead_zero : (sealing [req none] Part.fresh).neverWritten 0 0 = true ∧
    State.poisonHeld (sealing [req none, { req (some []) with owner := .poison }] Part.fresh).tiles[(0 : TileId)].slice 0 = true ∧
    (sealing [req none] Part.fresh).copyTurn 0 0 (req none) = true := by decide +kernel

def ckReq : SealReq := { req none with owner := .checkpoint }

theorem test_granuleWrite_held : State.uncopied (sealing [req (some (zeros 512)), ckReq] Part.fresh).tiles[(0 : TileId)].slice 0 = true := by decide +kernel
theorem test_granuleWrite : State.uncopied (sealing [req (some (zeros 512))] Part.fresh).tiles[(0 : TileId)].slice 0 = false ∧
    (sealing [req (some (zeros 512))] Part.fresh).ready 0 0 true = true ∧
    State.mustWait (sealing [req (some (zeros 512))] Part.fresh).tiles[(0 : TileId)].slice 0 (req (some (zeros 512))) = false := by decide +kernel
theorem test_granuleWrite_refused : (sealing [req (some (zeros 512))] { Part.fresh with ilock := true }).refused 0 0 = true ∧
    (sealing [req (some (zeros 512))] Part.fresh).tiles[(0 : TileId)].slice.skips = [] ∧ (req (some [])).owner = .tileDma 0 7 := by decide +kernel
theorem test_heldWrite : (sealing [{ req (some (zeros 512)) with held := true }] Part.fresh).tiles[(0 : TileId)].slice.reqs.findIdx?
    (fun r => r.held && !State.uncopied (sealing [{ req (some (zeros 512)) with held := true }] Part.fresh).tiles[(0 : TileId)].slice r.gran) = some 0 := by decide +kernel
theorem test_missFill : (base.modSlice 0 fun y => { y with reqs := [req none] }).ready 0 0 false = false := by decide +kernel
theorem test_ahead : State.ahead { Seal.empty with reqs := [req none] } { req none with gran := 511 } = true ∧
    State.ahead { Seal.empty with reqs := [req none] } { req none with gran := 512 } = false := by decide
theorem test_rootReq : (base.modSlice 0 fun y => { y with rootReqs := [(31, 7)] }).tiles[(0 : TileId)].slice.rootReqs = [(31, 7)] := by decide +kernel
theorem test_rootUpdate : State.rootIdx 63 31 = 2047 := by decide

/-- Channel 0 of tile 0 initialised, its patrol at line `n`. -/
def patrolling (n : Nat) : Chan := { Chan.fresh with trained := true, init := true, patrol := n }

theorem test_patrol_clean : (decodeLine (flipSyms ((patrolling 134217726).stored 134217726) []) none).1.outcome = .clean ∧
    (decodeLine (flipSyms ((patrolling 134217726).stored 134217726) []) none).2.2 = [] ∧ 134217726 + 1 < channelLines := by decide +kernel
/-- R172: three symbols in error are corrected. -/
theorem test_patrol_failed : ((p0 fun x => { x with pstate := .failed }).modChan 0 0 fun _ => patrolling 0).partOf 0 = some 0 ∧
    ((p0 fun x => { x with pstate := .failed }).modChan 0 0 fun _ => patrolling 0).parts[(0 : PartId)].pstate = .failed ∧
    ((p0 fun x => { x with pstate := .failed }).modChan 0 0 fun _ => patrolling 0).tiles[(0 : TileId)].chans[(0 : ChanId)].trained = true ∧
    (patrolling 0).selfRefresh = false ∧ base.parts[(0 : PartId)].pstate ≠ .failed := by decide +kernel
theorem test_patrols : base.tended 0 = true ∧ base.patrols 0 = true ∧ (p0 fun x => { x with pstate := .failed }).tended 0 = false ∧
    (p0 fun x => { x with reset := some ⟨0, .running, 0, false, false, false⟩ }).patrols 0 = false ∧ ¬(134217727 + 1 < channelLines) := by decide +kernel

theorem test_patrol_corr : (decodeLine (flipSyms ((patrolling 0).stored 0) [(0, 0xFF), (35, 1), (71, 0x80)]) none).1.outcome = .corr := by decide +kernel

theorem test_rootScrub : (0 : BitVec 64) ^^^ 0 = 0 ∧ ((List.range 64).countP fun b => ((0 : BitVec 64) ^^^ 3).getLsbD b) = 2 ∧
    ((List.range 64).countP fun b => ((0 : BitVec 64) ^^^ 0x8000000000000000).getLsbD b) = 1 ∧ base.partOf ⟨2047 / 32 % 64, by decide⟩ = some 1 := by decide +kernel
theorem test_rootScrub_moment : (488 * 2047) % 1000000 = 488 * 2047 ∧ (∀ i < 2048, 1000000 * 3 + 487 ≠ 488 * i) ∧ base.boot.image.isSome = true := by decide +kernel

-- Checkpoint, restore, staging.

def ckEntry (buddy : Nat) : InFlight := ent { cmd 5 0x40 (2 ^ 32 * 3 + 1) buddy 9 0 with job := 1 }

/-- The partition with a compact that permits checkpoints to a buddy, in a box of two members along X. -/
def pairJob : Job := { job with compact := patch (patch compact 17 [0x24]) 52 [2] }

def checkpointing (buddy : Nat) : State := p0 fun x => { busy [ckEntry buddy] x with job := some pairJob }

theorem test_checkpoint : ((checkpointing 1).settled (some 0)).nextFuller 0 0x40 = some (ckEntry 1) ∧ ((checkpointing 1).settled (some 0)).ckRefusal 0 (ckEntry 1).cmd = none ∧
    (0 : TileId) ∈ (checkpointing 1).tilesOf 0 ∧ ((checkpointing 1).settled (some 0)).tiles[(0 : TileId)].marked = false := by decide +kernel
theorem test_checkpoint_refused : (((checkpointing 0).settled (some 0)).ckRefusal 0 (ckEntry 0).cmd).isSome = true ∧
    ((checkpointing 0).settled (some 0)).nextFuller 0 0x40 = some (ckEntry 0) ∧ ((checkpointing 0).settled (some 0)).inFlight (some 0) false 5 = some (ckEntry 0) := by decide +kernel

def rsEntry (buddy : Nat) : InFlight := ent { cmd 5 0x41 (2 ^ 32 * 3 + 1) buddy 9 0 with job := 1 }

def restoring (buddy : Nat) : State := p0 fun x => { busy [rsEntry buddy] x with job := some pairJob }

theorem test_restore : (p0 fun x => { busy [] x with job := some pairJob }).restoreFrom 0 (rsEntry 1).cmd = true ∧
    (p0 fun x => { busy [] x with job := some pairJob }).restoreFrom 0 (rsEntry 0).cmd = false ∧
    ((p0 (busy [runEnt])).mains (some 0)).any (fun x => State.clsOf x == .tile && x.started.isSome) = false ∧
    (((p0 (busy [{ runEnt with started := some 0 }])).settled (some 0)).mains (some 0)).any (fun x => State.clsOf x == .tile && x.started.isSome) = true := by decide +kernel
theorem test_restore_next : ((restoring 1).settled (some 0)).nextFuller 0 0x41 = some (rsEntry 1) ∧ State.clsOf (rsEntry 1) = .tile ∧
    ((restoring 1).settled (some 0)).nextFuller 0 0x40 = none ∧ ((restoring 1).settled (some 0)).restoreFrom 0 (rsEntry 1).cmd = true ∧
    ((restoring 0).settled (some 0)).restoreFrom 0 (rsEntry 0).cmd = false ∧ (rsEntry 0).urgent = false ∧
    ((restoring 0).settled (some 0)).nextFuller 0 0x41 = some (rsEntry 0) ∧
    ((restoring 0).settled (some 0)).inFlight (some 0) false 5 = some (rsEntry 0) := by decide +kernel

/-- An image of firmware of 4,096 zero bytes with one policy root, for a torus of one module. It names the digest of an empty
public key, which the kernel hashes quickly. -/
def image : Bytes :=
  let r := ascii "EZFW" ++ leBytes 2 1 ++ zeros 2 ++ leBytes 8 0 ++ leBytes 4 4096 ++ leBytes 4 0 ++ zeros 40 ++ zeros 4096 ++ zeros 3309
  let o := ascii "EZCF" ++ leBytes 2 1 ++ ([0, 1] : Bytes) ++ leBytes 4 (256 + 1952 * 2 + 3309) ++ ([1, 0] : Bytes) ++ zeros 2 ++ ([1, 1, 1, 1] : Bytes) ++ zeros 4 ++
    List.replicate 8 20 ++ ([1, 4] : Bytes) ++ zeros 14 ++ zeros 64 ++ zeros 64 ++ shake256 64 [] ++ zeros 16 ++ zeros 1952 ++ zeros 1952 ++ zeros 3309
  r ++ o

theorem test_image : imageForm image = true ∧ imageFields (ownerOf image) = true ∧ imagePower (ownerOf image) = true ∧ image.length = 64 + 4096 + 3309 + 7469 := by decide +kernel
/-- R473: an image of a wrong form is refused before its signatures are looked at. -/
theorem test_image_refused : verifyImage (image.drop 1) [] 0 = 3 := by decide +kernel

def stageEnt : InFlight := ent (cmd 2 0x60 0x1000 14938 0 0)

def staging : State := { base with boot := { base.boot with dpk := [] }, pf := { base.pf with win := { base.pf.win with table := [stageEnt] } } }

theorem test_stage : (staging.settled none).startable none .jewel = some stageEnt ∧ stageEnt.cmd.opc = 0x60 ∧ (staging.settled none).service none = none ∧
    64 + 4096 + 3309 + 7469 = stageEnt.cmd.arg1 ∧ (staging.settled none).boot.dpk = [] := by decide +kernel
theorem test_image_verifies (h : ∀ k m g, Config.verifies k m g = true) : verifyImage image [] 0 = 0 := by
  have a : imageForm image = true := by decide +kernel
  have b : field image 8 8 = 0 := by decide +kernel
  have c : (sub (ownerOf image) 176 64 != shake256 64 []) = false := by decide +kernel
  have d : imageFields (ownerOf image) = true := by decide +kernel
  have e : imagePower (ownerOf image) = true := by decide +kernel
  have f : ¬(byteAt (ownerOf image) 6 = 0 ∧ byteAt (ownerOf image) 13 = 1) := by decide +kernel
  simp only [verifyImage, rsigOk, osigOk, a, b, c, d, e, f, h]
  rfl
/-- The same with its first pass done: the bytes read again agree with its digest, or do not. -/
def staged : State :=
  { staging with
    boot := { staging.boot with stage := some ⟨2, 3, shake256 64 [1, 2, 3]⟩ }
    pf := { staging.pf with win := { staging.pf.win with table := [{ stageEnt with started := some 0 }] } } }
theorem test_stage_again : (staged.settled none).staging = some ⟨2, 3, shake256 64 [1, 2, 3]⟩ ∧ stageEnt.ends = none ∧ stageEnt.cmd.seq = 2 ∧
    (staged.settled none).inFlight none false 2 = some { stageEnt with started := some 0 } ∧ shake256 64 [1, 2, 3] ≠ shake256 64 [1, 2, 4] ∧
    (staging.settled none).staging = none ∧ (staging.settled none).stageSlot = (2, 2) := by decide +kernel

/-- A partition with a message for its Fuller, or for its Jewel, from the module at X = 1. -/
def inbox3 (m : Option FullerMsg) (x : Part) : Part := { busy [] x with inbox3 := [(1, m)] }
def inbox2 (m : JewelMsg) (x : Part) : Part := { busy [] x with inbox2 := [(1, m)] }

/-- A checkpoint to the module at X = 1, every unit in. -/
def ck : Ckpt := ⟨5, 3, 9, false, some 1, 0, true, true, 0, zeros 64, 0, [], 4, 20, 0, [], [], [], [], [], 0, false⟩

theorem test_trailer : State.allIn ck = true ∧ ck.units = [] ∧ ck.trailerSent = false ∧ ck.buddy = some 1 := by decide +kernel
/-- The same for a host stream, with room for its last chunk and without. -/
def ckHost : Ckpt := { ck with buddy := none, sid := 5 }
theorem test_trailer_host : (p0 fun x => { busy [] x with streams := [(0, stream)] }).stream 0 5 = some (0, stream) ∧ ckHost.buddy = none ∧ ckHost.chunks < stream.limit ∧
    (p0 (busy [])).hostBusy (some 0) .checkpoint = false ∧ ((p0 (busy [])).ksrcSecret 0 stream.ksrc).isSome = true ∧ stream.limit ≤ ({ ckHost with chunks := 16 } : Ckpt).chunks := by
  decide +kernel
theorem test_trailerAck : ((p0 (inbox3 (some (.trailerAck 3)))).takeInbox3 0 (fun _ m => m.any (·.isTrailerAck))).map (fun x => (x.1, x.2.1)) = some (1, some (.trailerAck 3)) ∧
    ck.ckno = (3 : BitVec 32).toNat := by decide +kernel
theorem test_refusal : ((p0 (inbox3 (some (.refusal 3)))).takeInbox3 0 (fun _ m => m.any (·.isRefusal))).map (fun x => (x.1, x.2.1)) = some (1, some (.refusal 3)) := by decide +kernel
def rs (b : Nat) : Restore := ⟨5, 3, 9, some b, 0, 2, none, 0, none, [], false⟩
theorem test_refusal_restore : (p0 fun x => { inbox3 (some (.refusal 3)) x with fuller := { x.fuller with restore := some (rs 1) } }).parts[(0 : PartId)].fuller.restore = some (rs 1) ∧
    (rs 1).buddy = some 1 ∧ (rs 1).ckno = (3 : BitVec 32).toNat ∧ (rs 1).reported = false ∧ ck.buddy = some 1 ∧ ck.ckno = (3 : BitVec 32).toNat := by decide
theorem test_buddyChunk : ((p0 (inbox3 (some (.chunk 3 0 false [])))).takeInbox3 0 (fun src m => m.any (·.isChunk) || (m.isNone && ((p0 (inbox3 (some (.chunk 3 0 false [])))).client 0 src).isSome))).map
      (fun x => (x.1, x.2.1)) = some (1, some (.chunk 3 0 false [])) ∧ ((p0 (busy [])).openLog 0 1 3).isSome = true ∧
    ((p0 fun x => { busy [] x with fuller := { x.fuller with clients := [⟨1, 0, [], some 1, none⟩] } }).openLog 0 1 3).isNone = true := by decide +kernel
theorem test_buddyChunk_next : (p0 fun x => { busy [] x with fuller := { x.fuller with clients := [⟨1, 0, [], none, some (3, 1)⟩] } }).client 0 1 = some ⟨1, 0, [], none, some (3, 1)⟩ ∧ 1 ≠ 0 := by
  decide +kernel
theorem test_buddyChunk_poisoned : ((p0 fun x => { inbox3 none x with fuller := { x.fuller with clients := [⟨1, 0, [], none, some (3, 1)⟩] } }).client 0 1) =
      some ⟨1, 0, [], none, some (3, 1)⟩ ∧ (some (3, 2) : Option (Nat × Nat)) ≠ some (3, 1) ∧ (p0 (busy [])).client 0 1 = none := by decide +kernel
theorem test_logRequest : ((p0 (inbox3 (some (.logRequest 3)))).takeInbox3 0 (fun _ m => m.any (·.isLogRequest))).map (fun x => (x.1, x.2.1)) = some (1, some (.logRequest 3)) ∧
    ([(1, 5)] : List (Nat × Nat)).find? (·.1 == (3 : BitVec 32).toNat % 2) = some (1, 5) := by decide +kernel
theorem test_logChunk : ((p0 (inbox3 (some (.logChunk 3 0 5 [])))).takeInbox3 0 (fun src' m => m.any (·.isLogChunk) || (m.isNone && some 1 == some src'))).map (fun x => (x.1, x.2.1)) =
      some (1, some (.logChunk 3 0 5 [])) ∧
    ((p0 (inbox3 none)).takeInbox3 0 (fun src' m => m.any (·.isLogChunk) || (m.isNone && some 1 == some src'))).map (fun x => (x.1, x.2.1)) = some (1, none) := by decide +kernel
theorem test_restoreAgreement : ((p0 (inbox2 (.restoreValues 3 9 [] false))).takeInbox2 0 (fun _ m => m.isRestoreValues)).map (fun x => (x.1, x.2.1)) = some (1, .restoreValues 3 9 [] false) ∧
    (p0 (busy [])).isLeader 0 = true := by decide +kernel
theorem test_restoreAgreement_waits : ∃ m ∈ ({ job with members := [⟨0, false, none, true, false, [], 1, 0, none⟩, ⟨1, false, none, true, false, [], 1, 0, none⟩] } : Job).members,
    m.coord.toNat ≠ 1 ∧ m.restore = none := by decide
theorem test_logChunk_ckno : (some (rs 1)).any (fun x => x.ckno == (3 : BitVec 32).toNat) = true ∧ ({ rs 1 with reported := true } : Restore).reported = true := by decide
theorem test_checkpoint_marked : (checkpointing 1).parts[(0 : PartId)].fuller.ckpt = none ∧ ∃ x ∈ (checkpointing 1).tilesOf 0, (checkpointing 1).tiles[x].marked = false := by
  decide +kernel
theorem test_go : ((p0 fun x => { inbox2 (.go true) x with inbox2 := [(0, .go true)] }).takeInbox2 0 (fun _ m => m.isGo)).map (fun x => (x.1, x.2.1)) = some (0, .go true) ∧
    0 = Compact.leader ((p0 (busy [])).compact 0) := by decide +kernel

-- Power, clocks, temperature, supplies.

theorem test_escapement : base.boot.image = some im ∧ im.dev = true := ⟨rfl, rfl⟩
theorem test_escapement_modes : State.reset.boot.image = none ∧ ({ im with dev := false } : Image).dev = false ∧ (fetching endD 0).tiles[(0 : TileId)].droops = 0 := by decide +kernel

/-- 14, the example: the issue counts of a ZW8e4 projection at 16 W in windows 1, 2, 3 and on. -/
theorem test_escapement_example : (({ base.tiles[(19 : TileId)] with n := 1024 } : Tile).endWindow false false 48 1097728 0 0).n = 978 ∧
    (({ base.tiles[(19 : TileId)] with n := 978 } : Tile).endWindow false false 48 1054304 0 0).n = 972 ∧
    (({ base.tiles[(19 : TileId)] with n := 972 } : Tile).endWindow false false 48 1048640 0 0).n = 971 ∧
    (({ base.tiles[(19 : TileId)] with n := 971 } : Tile).endWindow false false 48 1047696 0 0).n = 971 := by decide +kernel

theorem test_rowMonitor : base.boot.image.isSome = true ∧ (19 : TileId) ∈ State.rowTiles 2 ∧ (24 : TileId) ∉ State.rowTiles 2 := by decide +kernel
theorem test_rail_off : State.reset.board.railCore[(0 : Fin 8)] = false ∧ State.reset.boot.vcore[(0 : Fin 8)] = 750 ∧ State.reset.boot.image = none := by decide +kernel
theorem test_overcurrent : ({ base.board with railCore := Vector.replicate 8 true } : Board).railCore[7] = true := by decide
theorem test_pll : (⟨63, by decide⟩ : Fin 76).val < 64 ∧ (65 ≤ (⟨72, by decide⟩ : Fin 76).val ∧ (⟨72, by decide⟩ : Fin 76).val < 73) ∧
    ((⟨64, by decide⟩ : Fin 76).val = 64 ∨ 73 ≤ (⟨64, by decide⟩ : Fin 76).val) ∧ ({ base with engines := base.engines.set 7 (some true) } : State).engines[(7 : PortId)] = some true := by
  decide +kernel
theorem test_pll_engine : base.engines[(7 : PortId)] ≠ some false ∧ ({ base with engines := base.engines.set 7 (some false) } : State).engines[(7 : PortId)] = some false ∧
    State.reset.board.pwrGood = false ∧ (73, 0x40) ∈ [(64, 0x41), (73, 0x40), (74, 0x42), (75, 0x43)] ∧ ({ base.board with oscLost := true } : Board).oscLost = true := by decide +kernel
theorem test_oscillator : base.board.vauxOk = true ∧ base.board.oscLost = false := ⟨rfl, rfl⟩
theorem test_die : base.board.vauxOk = true ∧ (16 * 115 ≤ (1840 : Int)) ∧ ¬(16 * 115 ≤ (1839 : Int)) := by decide
theorem test_package : base.board.pkgIgnored[(63 : Fin 64)] = false ∧ (16 * 105 ≤ (1680 : Int)) ∧
    ({ base.board with pkgUnread := base.board.pkgUnread.set 63 9 } : Board).pkgUnread[(63 : Fin 64)] + 1 = 10 := by decide +kernel
theorem test_package_ignored : ({ base.board with pkgIgnored := base.board.pkgIgnored.set 63 true } : Board).pkgIgnored[(63 : Fin 64)] = true ∧ State.reset.board.vauxOk = false ∧
    base.board.pkgUnread[(0 : Fin 64)] < 9 ∧ ({ base.board with tripLatch := true } : Board).tripLatch = true := by decide +kernel
theorem test_tripCool : ({ base with board := { base.board with tripWait := true, dieTemp := Vector.replicate 68 (some 1600), pkgTemp := Vector.replicate 64 (some 1520) } } : State).cool = true ∧
    ({ base with board := { base.board with tripWait := true, dieTemp := Vector.replicate 68 (some 1601), pkgTemp := Vector.replicate 64 (some 1520) } } : State).cool = false := by
  decide +kernel
theorem test_trip : base.board.pwrGood = true ∧ base.board.tripLatch = false := ⟨rfl, rfl⟩

theorem test_supplies : State.reset.board.inputPower = false ∧ ({ base with board := { base.board with pwrGood := false } } : State).mayStart = true ∧
    State.reset.mayStart = false ∧ base.board.inputPower = true ∧ State.reset.board.pwrGood = false ∧
    ({ base.board with vauxHold := true } : Board).vauxHold = true := by decide
theorem test_sideband : base.board.vauxOk = true ∧ base.board.modEnable = true ∧ ({ base.board with modEnable := false } : Board).modEnable = false ∧
    base.board.perstN = true ∧ base.boot.phase = .ready ∧ State.reset.boot.phase ≠ .training ∧ State.reset.boot.phase ≠ .ready ∧ State.reset.boot.phase ≠ .recovery := by decide
theorem test_sideband_held : ({ base.boot with phase := .training } : Boot).phase = .training ∧ State.reset.boot.phase = .none ∧ base.board.tripLatch = false := by decide
theorem test_stormHold : (0 + 2000000000 ≤ (⟨0, 0, 0, 0, 0, 2000000000⟩ : Clocks).vaux) ∧ (⟨0, 0, 0, 0, 0, 1999999999⟩ : Clocks).vaux < 0 + 2000000000 ∧
    ({ base.board with stormHold := true } : Board).stormHold = true := by decide

def analog : Analog := ⟨0, 0, 0, 0, 0, 0, 0, false, [], 0, 0⟩

theorem test_smbus : (0x5F : BitVec 7).toNat = 0x40 + base.board.slotId.toNat ∧ (0x5E : BitVec 7).toNat ≠ 0x40 + base.board.slotId.toNat ∧
    (List.range 8).all (fun c => (base.page c analog).isSome) = true ∧ 8 ≤ (8 : Byte).toNat := by decide +kernel
/-- R526: the bytes of each page. -/
theorem test_smbus_pages : ([0, 1, 2, 3, 4, 5, 6, 7] : List Nat).map (fun c => ((base.page c analog).getD []).length) = [16, 8, 16, 16, 32, 32, 8, 32] := by decide +kernel

-- Links, the hatband, the members of a job.

/-- Port i in this state, its count as given. -/
def portIn (i : PortId) (st : PortSt) (f : Port → Port) : State := base.modPort i fun o => f { o with state := st }

theorem test_ports : (portIn 3 .up id).ports[(3 : PortId)].state ≠ .unused ∧ (portIn 3 .down id).ports[(3 : PortId)].state = .down ∧
    (portIn 3 .hold fun o => { o with starts := [0, 0, 0, 0] }).ports[(3 : PortId)].recentStarts.length = 4 ∧
    (portIn 3 .hold fun o => { o with starts := [0, 0, 0] }).ports[(3 : PortId)].recentStarts.length < 4 ∧
    (portIn 3 .refused fun o => { o with count := 10 * portSecond }).ports[(3 : PortId)].refusedAt + 10 * portSecond ≤ 10 * portSecond ∧
    (portIn 3 .train id).ports[(3 : PortId)].state = .train := by decide +kernel
theorem test_ports_idle : (portIn 3 .unused id).ports[(3 : PortId)].state = .unused ∧ (portIn 3 .hold id).ports[(3 : PortId)].state = .hold ∧
    (portIn 3 .refused fun o => { o with refusedAt := 1, count := 10 * portSecond }).ports[(3 : PortId)].count < 1 + 10 * portSecond := by decide +kernel
theorem test_replayTimeout : (portIn 3 .up fun o => { o with replay := [⟨0, 0, ⟨0, 0, true, true, false, 0, 0, 0, 0, none, [], [], false, 0⟩⟩], count := 2000 }).ports[(3 : PortId)].replay ≠ [] ∧
    0 + 2000 ≤ 2000 ∧ 0 + 10000000 ≤ 10000000 := by decide +kernel
theorem test_replayTimeout_idle : (portIn 3 .up id).ports[(3 : PortId)].replay = [] ∧ (portIn 3 .up id).ports[(3 : PortId)].resend = [] := by decide +kernel

/-- Port 0 in ATTEST with its nonce drawn; in port 1 the neighbour has also said HELLO. -/
def attest : State := portIn 0 .attest fun o => { o with nonce := some (zeros 32) }
def greeted (i : PortId) : State := portIn i .attest fun o => { o with nonce := some (zeros 32), greeting := some ⟨[], 1, (if i.val = 0 then 1 else 0), zeros 32⟩ }

theorem test_hello : attest.ports[(0 : PortId)].state = .attest ∧ attest.ports[(0 : PortId)].greeting = none ∧ attest.helloRefusal 0 1 1 (zeros 32) = none ∧
    attest.helloRefusal 0 1 0 (zeros 32) = some 5 ∧ attest.helloRefusal 0 1 1 (zeros 31) = some 4 := by decide +kernel
theorem test_evidence : (greeted 1).ports[(1 : PortId)].greeting.isSome = true ∧ (greeted 1).ports[(1 : PortId)].nonce = some (zeros 32) ∧ (greeted 1).ports[(1 : PortId)].keys = none ∧
    portPlus 1 = false ∧ portPlus 0 = true ∧ (greeted 1).evidenceRefusal (patch (zeros 16) 12 [1]) true = none ∧ (greeted 1).evidenceRefusal (zeros 16) true = some 3 ∧
    (greeted 1).evidenceRefusal [] false = some 2 ∧ (greeted 0).ports[(0 : PortId)].greeting.isSome = true := by decide +kernel
theorem test_crsync : (portIn 0 .attest fun o => { o with keys := some ⟨[], [], [], []⟩ }).ports[(0 : PortId)].keys.isSome = true ∧ 380000 < 380001 ∧ 380000 ≤ 380000 := by decide +kernel
theorem test_session_other : (portIn 0 .train id).ports[(0 : PortId)].state ≠ .attest ∧ portPlus 0 = true ∧ (greeted 0).ports[(0 : PortId)].keys = none ∧
    (greeted 0).ports[(0 : PortId)].nonce = some (zeros 32) ∧ (greeted 0).evidenceRefusal (patch (zeros 16) 12 [1]) true = none := by decide +kernel

theorem test_engines : base.hatband[(0 : Nat)] = true ∧ ({ base with hatband := base.hatband.set 0 false } : State).hatband[(0 : Nat)] = false ∧
    ({ base with engines := Vector.replicate 8 (some true) } : State).nextSwitch = some 0 ∧ portOf 0 true = 0 ∧ portOf 0 false = 1 ∧
    base.engines[(0 : PortId)] = none ∧ 1 < base.tsize (portDim 0) := by decide +kernel
theorem test_engines_pass : base.boot.image = some im ∧ ({ base with engines := Vector.replicate 8 (some true) } : State).engines[portOf 0 true] = some true ∧
    ({ base with engines := Vector.replicate 8 (some true) } : State).engines[portOf 0 false] = some true ∧ base.engines[portOf 0 true] ≠ some true ∧ base.nextSwitch = some 0 ∧
    State.reset.nextSwitch = none ∧ base.tsize (portDim 7) ≤ 1 := by decide +kernel

theorem test_eraRaise : State.eraDue { job with eseq := List.replicate 32 (2 ^ 48) } = true ∧ State.eraDue { job with eseq := List.replicate 32 (2 ^ 48 - 1) } = false ∧
    job.eraAsked ≠ some (job.eraCeil + 1) := by decide +kernel
theorem test_ceilings : ((p0 (inbox2 (.eraRaise 2))).takeInbox2 0 (fun _ m => m.isEraRaise)).map (fun x => (x.1, x.2.1)) = some (1, .eraRaise 2) ∧
    ((p0 (inbox2 (.sidRaise 2048))).takeInbox2 0 (fun _ m => m.isSidRaise)).map (fun x => (x.1, x.2.1)) = some (1, .sidRaise 2048) ∧
    ((p0 (inbox2 (.eraAck 2))).takeInbox2 0 (fun _ m => m.isEraAck)).map (fun x => (x.1, x.2.1)) = some (1, .eraAck 2) ∧
    ((p0 (inbox2 (.sidAck 2048))).takeInbox2 0 (fun _ m => m.isSidAck)).map (fun x => (x.1, x.2.1)) = some (1, .sidAck 2048) ∧
    ((p0 fun x => { busy [] x with job := some { job with members := [⟨1, false, none, true, false, [], 1, 0, none⟩] } }).memberRec 0 1).isSome = true ∧
    1 = Compact.leader ((p0 fun x => { busy [] x with job := some led }).compact 0) := by decide +kernel
theorem test_ceilings_ack : ({ led with eraAsked := some 2, sidAsked := some 2048 } : Job).eraAsked = some 2 ∧ (p0 (busy [])).memberRec 0 1 = none ∧
    (p0 (busy [])).takeInbox2 0 (fun _ m => m.isEraRaise) = none ∧ State.eraDue led = false ∧ (p0 fun x => { busy [] x with job := some led }).isLeader 0 = false := by
  refine ⟨by decide, by decide +kernel, rfl, by decide, by decide +kernel⟩

theorem test_join : ((p0 (inbox2 (.opened 1 1))).takeInbox2 0 (fun _ m => m.isOpened)).map (fun x => (x.1, x.2.1)) = some (1, .opened 1 1) ∧
    (1 : BitVec 16).toNat = (p0 (busy [])).jobNum (some 0) ∧ (1 : Coord).toNat = 1 ∧ (p0 (busy [])).isLeader 0 = true := by decide +kernel
theorem test_join_other : (2 : BitVec 16).toNat ≠ (p0 (busy [])).jobNum (some 0) ∧ (p0 (busy [])).takeInbox2 0 (fun _ m => m.isOpened) = none := ⟨by decide +kernel, rfl⟩
theorem test_challenge : ((p0 (inbox2 (.challenge (zeros 64)))).takeInbox2 0 (fun _ m => m.isChallenge)).map (fun x => (x.1, x.2.1)) = some (1, .challenge (zeros 64)) ∧
    (p0 fun x => { busy [] x with job := some led, pstate := .opening }).isLeader 0 = false := by decide +kernel

/-- A member's report over a nonce of zeros that passes, but for its signature. -/
def report1 : Bytes := patch (patch (patch (zeros 4096) 12 [1]) 16 [1]) 18 [1]

theorem test_memberReport : (p0 (busy [])).reportOk 0 1 report1 true = true ∧ (p0 (busy [])).reportOk 0 1 report1 false = false ∧ sub report1 32 64 = zeros 64 ∧
    ((p0 (inbox2 (.report [1]))).takeInbox2 0 (fun _ m => m.isReport)).map (fun x => (x.1, x.2.1)) = some (1, .report [1]) := by decide +kernel
theorem test_memberReport_member : (p0 fun x => { busy [] x with job := some { job with members := [⟨1, true, some (zeros 64), false, false, [], 1, 0, none⟩] } }).memberRec 0 1 =
    some ⟨1, true, some (zeros 64), false, false, [], 1, 0, none⟩ ∧ sub (patch report1 32 [1]) 32 64 ≠ zeros 64 := by decide +kernel

/-- A key set of zeros for a member challenged over a nonce of zeros. -/
def keys1 : Bytes × Bytes := Gcm.encrypt (ksetKey (zeros 32) (zeros 64)) (zeros 12) [] (zeros 72)

theorem test_keyset : Gcm.decrypt (ksetKey (zeros 32) (zeros 64)) (zeros 12) [] keys1.1 keys1.2 = some (zeros 72) := by decide +kernel
theorem test_keyset_held : ({ led with nonce := some (zeros 64), keyset := some (zeros 72, 2, 1024) } : Job).keyset = some (zeros 72, 2, 1024) ∧
    Gcm.decrypt (ksetKey (zeros 32) (zeros 64)) (zeros 12) [] keys1.1 (zeros 16) = none ∧
    (p0 fun x => { busy [] x with job := some led, pstate := .opening }).parts[(0 : PartId)].pstate = .opening := by decide +kernel
theorem test_keyset_inbox : ((p0 (inbox2 (.keyset [] [] [] [] 0 0))).takeInbox2 0 (fun _ m => m.isKeyset)).map (fun x => (x.1, x.2.1)) = some (1, .keyset [] [] [] [] 0 0) ∧
    ((p0 (inbox2 .joined)).takeInbox2 0 (fun _ m => m.isJoined)).map (fun x => (x.1, x.2.1)) = some (1, .joined) ∧
    ((p0 fun x => { busy [] x with job := some { job with members := [⟨1, true, none, false, true, [], 1, 0, none⟩] } }).memberRec 0 1).any (·.keyed) = true := by decide +kernel

-- Frames, resets, starts, the host interface, debug.

/-- Link keys of zeros, and a frame of this kind in the first slot: its header sealed as the D+ end of the link sends it. -/
def keyed (o : Port) : Port := { o with state := .up, keys := some ⟨zeros 32, zeros 32, zeros 32, zeros 32⟩ }
def frame (kind fseq : Nat) : Bytes :=
  let h : Hdr := ⟨kind, 1, true, false, false, false, 0x1103, 0x1021, 0, 4, 0, 1, fseq, 4095, [0, 0, 0, 0], 0⟩
  let e := Gcm.encrypt (zeros 32) (linkIv false 0) [] h.bytes
  e.1 ++ e.2.take 8 ++ zeros 272

theorem test_dataFrame : ((base.modPort 0 keyed).ports[(0 : PortId)].keys).isSome = true ∧
    (State.openHdr ⟨zeros 32, zeros 32, zeros 32, zeros 32⟩ 0 0 (frame 1 0)).map (fun c => ((Hdr.parse c).kind, (Hdr.parse c).slot, (Hdr.parse c).nak, (Hdr.parse c).part, (Hdr.parse c).fseq)) =
      some (1, 0, false, 0, 0) ∧ (keyed Port.fresh).rxF = 4095 ∧ (4095 + 1) % 4096 = 0 ∧ base.slotPart 0 = some 0 := by decide +kernel
theorem test_idleFrame : (State.openHdr ⟨zeros 32, zeros 32, zeros 32, zeros 32⟩ 0 0 (frame 2 0)).map (fun c => (Hdr.parse c).kind) = some 2 := by decide +kernel
theorem test_badFrame : State.openHdr ⟨zeros 32, zeros 32, zeros 32, zeros 32⟩ 0 0 (zeros 304) = none ∧ base.ports[(0 : PortId)].keys = none := by decide +kernel
theorem test_slotMismatch : (0 : Nat) ≠ ({ keyed Port.fresh with rxc := 1 } : Port).rxc % 64 := by decide
/-- An IDLE frame that returns one credit: none is spent, or one. -/
theorem test_credits : (keyed Port.fresh).overReturned 0 [1, 0, 0, 0] = true ∧ (keyed Port.fresh).overReturned 0 [0, 0, 0, 0] = false ∧
    ({ keyed Port.fresh with spent := List.replicate 32 1 } : Port).overReturned 0 [1, 0, 0, 0] = false := by decide
theorem test_frame_kinds : (State.openHdr ⟨zeros 32, zeros 32, zeros 32, zeros 32⟩ 0 0 (frame 3 0)).map (fun c => (Hdr.parse c).kind) = some 3 ∧
    ({ base with boot := { base.boot with image := some { im with sched := [] } } } : State).slotPart 0 = none ∧ base.slotPart 1 = some 1 ∧
    (1 : Nat) ≠ ((keyed Port.fresh).rxF + 1) % 4096 := by decide +kernel
theorem test_frame_dropped : base.holdsJob 0 1 = false ∧ (p0 (busy [])).holdsJob 0 1 = true ∧ (p0 fun x => { busy [] x with pstate := .resetting }).parts[(0 : PartId)].pstate = .resetting := by
  decide +kernel
theorem test_frameSlot : (portIn 0 .up id).ports[(0 : PortId)].state = .up ∧
    ((((portIn 0 .up id).dropPassed 0).slotPart ((((portIn 0 .up id).dropPassed 0).ports[(0 : PortId)]).txc % 64)).filter ((portIn 0 .up id).dropPassed 0).slotsOpen) = none := by decide +kernel
/-- A frame of the first partition, waiting to go out of port 0 to the module at X = 1, and one being resent. -/
def outFrame : Frame := ⟨0, 2, true, true, true, 1, 0, 1, 1, none, zeros 256, [], false, 0⟩
def outPort (f : Port → Port) : State := (p0 (busy [])).modPort 0 fun o => f { keyed o with txq := [outFrame] }
theorem test_frameSlot_data : (((outPort id).dropPassed 0).slotPart 0).filter ((outPort id).dropPassed 0).slotsOpen = some 0 ∧ ((outPort id).dropPassed 0).ports[(0 : PortId)].txc % 64 = 0 ∧
    ((outPort id).dropPassed 0).slotVc 0 0 0 = some 2 ∧ (((outPort id).dropPassed 0).takeOut 0 0 2).2.isSome = true ∧ ((outPort id).dropPassed 0).ports[(0 : PortId)].resend = [] ∧
    (((outPort fun o => { o with txq := [] }).dropPassed 0).slotVc 0 0 0) = none := by decide +kernel
theorem test_frameSlot_resend :
    (((outPort fun o => { o with resend := [7], replay := [⟨7, 0, outFrame⟩] }).dropPassed 0).ports[(0 : PortId)].replay.find? fun r => r.fseq == 7 && r.slot == 0) = some ⟨7, 0, outFrame⟩ ∧
    (((outPort fun o => { o with resend := [7], replay := [⟨7, 1, outFrame⟩] }).dropPassed 0).ports[(0 : PortId)].replay.find? fun r => r.fseq == 7 && r.slot == 0) = none ∧
    ((outPort fun o => { o with resend := [7], replay := [⟨7, 1, outFrame⟩] }).dropPassed 0).ports[(0 : PortId)].resend = [7] := by decide +kernel
theorem test_frameSlot_says : attest.ports[(0 : PortId)].keys = none ∧ (portIn 0 .attest fun o => { o with keys := some ⟨[], [], [], []⟩ }).ports[(0 : PortId)].say = [] ∧
    (portIn 0 .attest fun o => { o with say := zeros 4096 }).ports[(0 : PortId)].say ≠ [] ∧ (portIn 0 .refused id).ports[(0 : PortId)].state = .refused ∧
    (portIn 0 .down id).ports[(0 : PortId)].state = .down := by decide +kernel

/-- 09, the example: the header's bytes 1 to 6, and the path of the move. -/
theorem test_frame_example : (Hdr.parse (frame 1 0)).vc < 4 ∧
    (⟨1, 1, true, false, false, false, 0x1103, 0x1021, 0, 4, 0, 1, 0, 0, [0, 0, 0, 0], 0⟩ : Hdr).bytes.take 7 = [0x01, 0x05, 0x03, 0x11, 0x21, 0x10, 0x20] ∧
    coordOf [3, 0, 1, 1] = 0x1103 ∧ coordOf [1, 2, 0, 1] = 0x1021 ∧ routePort 0x1021 0x1103 = some 4 ∧ routePort (coordOf [1, 2, 1, 1]) 0x1103 = some 3 ∧
    routePort (coordOf [1, 1, 1, 1]) 0x1103 = some 3 ∧ routePort (coordOf [1, 0, 1, 1]) 0x1103 = some 0 ∧ routePort (coordOf [2, 0, 1, 1]) 0x1103 = some 0 := by decide +kernel

/-- The first partition in a reset at event `ev`, or pouncing. -/
def resetting (ev : Nat) (failed : Bool) : State := p0 fun x => { busy [] x with pstate := .resetting, reset := some ⟨ev, .running, 0, failed, false, false⟩ }
def pouncing : State := p0 fun x => { x with pstate := .scrubbing, pounce := some ⟨false, 0, none, false⟩ }

theorem test_resets : (resetting 0 false).resetAt 0 = some 0 ∧ (resetting 1 false).resetAt 0 = some 1 ∧ (resetting 3 false).resetAt 0 = some 3 ∧
    (resetting 4 true).parts[(0 : PartId)].reset = some ⟨4, .running, 0, true, false, false⟩ ∧ (resetting 4 false).resetAt 0 ≠ some 3 ∧ base.resetAt 0 ≠ some 0 := by decide +kernel
theorem test_resetOverrun : 0 + 20000000 ≤ ({ resetting 1 false with clocks := ⟨0, 20000000, 0, 0, 0, 0⟩ } : State).clocks.jewel ∧
    ({ resetting 1 false with clocks := ⟨0, 19999999, 0, 0, 0, 0⟩ } : State).clocks.jewel < 0 + 20000000 := by decide
theorem test_reset_starts : base.resetAt 0 = none ∧ (base.raise 0 0x44 (balSrc 1) 0 1).resetAt 0 = none ∧ ((p0 (busy [])).raise 0 0x44 (balSrc 1) 0 1).resetAt 0 = some 0 ∧
    ((resetting 4 false).parts[(0 : PartId)].reset.any (·.failed)) = false ∧ ((resetting 4 true).parts[(0 : PartId)].reset.any (·.failed)) = true ∧
    (resetting 2 false).parts[(0 : PartId)].reset = some ⟨2, .running, 0, false, false, false⟩ ∧ base.parts[(0 : PartId)].reset = none ∧
    (0 : TileId) ∈ base.tilesOf 0 ∧ (63 : TileId) ∉ base.tilesOf 0 := by decide +kernel
theorem test_pouncing : pouncing.parts[(0 : PartId)].pounce = some ⟨false, 0, none, false⟩ ∧ pouncing.allInit 0 = false ∧
    ((pouncing.tilesOf 0).foldl (fun s t => s.modTile t fun y => { y with chans := Vector.replicate 4 { Chan.fresh with init := true } }) pouncing).allInit 0 = true ∧
    pounceLimit false = 5000000000 := by decide +kernel
theorem test_pouncing_late : 0 + pounceLimit false ≤ ({ pouncing with clocks := ⟨0, 5000000000, 0, 0, 0, 0⟩ } : State).clocks.jewel ∧
    pouncing.clocks.jewel < 0 + pounceLimit false ∧ base.parts[(0 : PartId)].pounce = none ∧ pouncing.parts[(0 : PartId)].pounce.isSome = true := by decide +kernel

theorem test_mfatal : base.board.pwrGood = true ∧ base.boot.mstate ≠ .powering ∧ base.boot.mstate ≠ .tripped ∧ base.restartsNow.length < 4 ∧
    4 ≤ ({ base with board := { base.board with restartTimes := [0, 0, 0] } } : State).restartsNow.length ∧ State.reset.boot.image = none ∧ State.reset.jewel.window = 0 ∧
    0x50 ≤ (0x55 : Byte).toNat ∧ (0x55 : Byte).toNat ≤ 0x55 := by decide +kernel
theorem test_restarts : base.board.tripLatch = false ∧ base.board.tripWait = false ∧ base.board.romHold = false ∧ ({ base.board with romHold := true } : Board).romHold = true ∧
    (0x51 : Byte).toNat = 0x51 ∧ (0x4F : Byte).toNat < 0x50 ∧ 0x55 < (0x56 : Byte).toNat ∧ State.reset.board.pwrGood = false := by decide
theorem test_jewelWindow : ({ base with jewel := { base.jewel with window := 3 }, clocks := ⟨0, 29999999, 0, 0, 0, 0⟩ } : State).clocks.jewel < 10000000 * 3 ∧
    10000000 * 3 ≤ ({ base with jewel := { base.jewel with window := 3 }, clocks := ⟨0, 30000000, 0, 0, 0, 0⟩ } : State).clocks.jewel ∧ base.npart = 2 ∧
    base.jewel.window = 0 ∧ State.reset.boot.image = none := by decide
theorem test_powerGood : ({ State.reset with board := base.board } : State).board.pwrGood = true ∧ State.reset.boot.phase = .none ∧ base.board.oscLost = false := ⟨rfl, rfl, rfl⟩
theorem test_perstRelease : ({ base.board with perstN := false } : Board).perstN = false ∧ ({ base.boot with phase := .heldT2 } : Boot).phase = .heldT2 ∧ base.boot.phase ≠ .heldT2 := by decide

/-- A start at t3, nothing trained; and its last channel to be initialised. -/
def startT3 : State := { base with boot := { base.boot with phase := .training, mstate := .training } }

theorem test_training : startT3.partOf 63 = some 1 ∧ startT3.boot.phase = .training ∧ startT3.tiles[(63 : TileId)].chans[(3 : ChanId)].trained = false ∧
    startT3.tiles[(63 : TileId)].chans[(3 : ChanId)].failed = 0 := by decide +kernel
theorem test_channelInit : pouncing.partOf 0 = some 0 ∧ pouncing.tiles[(0 : TileId)].chans[(0 : ChanId)].init = false ∧
    (pouncing.modChan 0 0 fun c => { c with mem := [], tree := none, init := true, patrol := 0 }).allInit 0 = false := by decide +kernel
theorem test_channelInit_other : base.parts[(0 : PartId)].pounce = none ∧ ({ base with boot := { base.boot with image := none } } : State).partOf 0 = none ∧
    (startT3.modChan 0 0 fun c => { c with trained := true }).tiles[(0 : TileId)].chans[(0 : ChanId)].trained = true ∧
    (pouncing.modChan 0 0 fun c => { c with init := true }).tiles[(0 : TileId)].chans[(0 : ChanId)].init = true := by decide +kernel
theorem test_channelInit_last :
    let s := ((pouncing.tilesOf 0).foldl (fun s t => s.modTile t fun y => { y with chans := Vector.replicate 4 { Chan.fresh with init := true } }) pouncing).modChan 0 3 fun c => { c with init := false }
    s.tiles[(0 : TileId)].chans[(3 : ChanId)].init = false ∧ (s.modChan 0 3 fun c => { c with mem := [], tree := none, init := true, patrol := 0 }).allInit 0 = true := by decide +kernel

theorem test_functions_early : ({ base with boot := { base.boot with phase := .recovery } } : State).host.linkUp = true ∧
    ({ base with boot := { base.boot with phase := .training } } : State).configured none = false := by decide +kernel

theorem test_functions : base.host.linkUp = true ∧ base.fnLive (some 1) = true ∧ base.fnLive (some 2) = false ∧ base.host.vfEnable = true ∧ State.reset.host.vfEnable = false ∧
    (base.dma (some 0)).flr = false ∧ State.reset.host.linkUp = false ∧ base.boot.phase = .ready ∧ base.board.perstN = true ∧ base.boot.phase ≠ .none ∧ base.boot.phase ≠ .romHold := by decide +kernel
theorem test_functions_off : ({ base with host := { base.host with vfEnable := false } } : State).host.vfEnable = false ∧
    (p0 fun x => { x with dma := { x.dma with flr := true } }).fnLive (some 0) = true ∧ ((p0 fun x => { x with dma := { x.dma with flr := true } }).dma (some 0)).flr = true ∧
    ({ base with host := { base.host with linkUp := false } } : State).host.linkUp = false ∧ ({ base with boot := { base.boot with phase := .recovery } } : State).boot.phase = .recovery ∧
    State.reset.board.perstN = false := by decide +kernel
theorem test_slots : base.slotDue false true = true ∧ base.slotDue true true = true ∧ ({ base with host := { base.host with wslot := 1 } } : State).slotDue false true = false ∧
    ({ base with host := { base.host with wslot := 1 }, clocks := ⟨37, 0, 0, 0, 0, 0⟩ } : State).slotDue false true = true ∧
    ({ base with host := { base.host with wslot := 1 }, clocks := ⟨36, 0, 0, 0, 0, 0⟩ } : State).slotDue false true = false ∧
    base.slotPart (base.slotIndex false true % 64) = some 0 ∧ base.mayIssue (some 0) = false ∧ base.readFn 0 = none ∧
    ({ im with sched := [] } : Image).sched.getD 0 15 = 15 := by decide +kernel
/-- A read that request 4 carries. -/
theorem test_readFn : (p0 fun x => { x with dma := { x.dma with reads := [⟨0, 64, 64, .command false 5, 0, false, some 4, none⟩] } }).readFn 4 = some 0 ∧
    (p0 fun x => { x with dma := { x.dma with bme := true } }).mayIssue (some 0) = true ∧
    ({ base with boot := { base.boot with image := some { im with sched := [] } } } : State).slotPart (base.slotIndex false true % 64) = none := by decide +kernel
/-- 17, the example: B for Max_Payload_Size 512 at full rate and width, the starts of write slots 0 to 3, and a round of 64. -/
theorem test_slots_example : creditOf 6 4 2 = 113 ∧ ([0, 1, 2, 3].map (slotStart 113)) = [0, 37, 73, 109] ∧ slotStart 113 64 = 2320 := by decide
theorem test_debug : base.debugOpen = true ∧ State.reset.debugOpen = false ∧ base.tiles[(0 : TileId)].halt = false ∧
    ({ base.tiles[(0 : TileId)] with halt := true } : Tile).halt = true := by decide +kernel
theorem test_debug_regions : 0x3FFFFF + 1 ≤ 0x400000 ∧ 0x43FFFF + 1 ≤ 0x440000 ∧ 0x45FFFF + 1 ≤ 0x460000 ∧ 0 < ([1] : Bytes).length := by decide

/-- 15, the example: the timeout opens episode 3 and is pinned, the failed channel is absorbed. -/
def log0 : ErrLog := { ErrLog.empty with eno := 41, epis := 2, written := 41 }
def log1 : ErrLog := (log0.add 6016777216000 0x30 0xFF 0 0x0432FB79 none false).write
def log2 : ErrLog := (log1.add 6016784216000 0x40 0x13 3 1 none true).write

theorem test_log_example : (log2.entries.find? (·.1 == 42)).map (·.2) = some ⟨0x30, 0xFF, 0, false, false, false, 42, 3, 0x0432FB79, 0x5E38F798⟩ ∧
    (log2.entries.find? (·.1 == 43)).map (·.2) = some ⟨0x40, 0x13, 3, false, true, false, 43, 3, 1, 0x5E39124B⟩ ∧
    (log2.entries.find? (·.1 == 0)).map (·.2) = some ⟨0x30, 0xFF, 0, true, false, false, 42, 3, 0x0432FB79, 0x5E38F798⟩ := by decide +kernel
/-- A log with one entry waiting, which opens its episode. -/
theorem test_log_waits : ∃ w, (log0.add 6016777216000 0x30 0xFF 0 0x0432FB79 none false).queue = [w] ∧ w.opens = true ∧ log0.queue = [] :=
  ⟨((log0.add 6016777216000 0x30 0xFF 0 0x0432FB79 none false).queue.getD 0 ⟨⟨0, 0, 0, false, false, false, 0, 0, 0, 0⟩, false, false⟩), by decide +kernel, by decide +kernel, rfl⟩

-- More of the manual's worked examples.

/-- 03: a ZW4B group at SCALE −3: the codes and the exponent byte; NANP, no overflow. -/
def group : List Sys2Proof.Machine.Num := [.fin false 104 0, .fin true 40 0, B32.dec 0x40E66666, B32.dec 0x418CCCCD, .fin false 56 0, .nan false] ++ List.replicate 26 (.fin false 0 0)

theorem test_zw4b_example : ((convPanel .zw4b .rne false (-3) (fun _ _ => 0) [group]).rows.map (·.take 6)) = [[5, 0xA, 0, 1, 4, 0]] ∧
    (convPanel .zw4b .rne false (-3) (fun _ _ => 0) [group]).exps = [8] ∧ (convPanel .zw4b .rne false (-3) (fun _ _ => 0) [group]).nan = true ∧
    (convPanel .zw4b .rne false (-3) (fun _ _ => 0) [group]).ovf = false := by decide +kernel

/-- 03: ZW8e4 at SCALE 1 in saturate mode: 460, 464 and −0.0001 with no overflow, 466 with. -/
theorem test_zw8e4_example : (convPanel .zw8e4 .rne false 1 (fun _ _ => 0) [[.fin false 460 0, .fin false 464 0, B32.dec 0xB8D1B717]]).rows = [[0x7E, 0x7E, 0x80]] ∧
    (convPanel .zw8e4 .rne false 1 (fun _ _ => 0) [[.fin false 460 0, .fin false 464 0, B32.dec 0xB8D1B717]]).ovf = false ∧
    (convPanel .zw8e4 .rne false 1 (fun _ _ => 0) [[.fin false 466 0]]).rows = [[0x7E]] ∧ (convPanel .zw8e4 .rne false 1 (fun _ _ => 0) [[.fin false 466 0]]).ovf = true := by decide +kernel

/-- 04: the scales of tensor 0131h at steps 50,000, 50,001 and 50,017, and the retry of the tile that holds 71.0. -/
def entry : RegEntry := ⟨List.replicate 16 0x4114CCCD, 0x428E0000, 50000, -2, 16, 0, 0, true, true⟩

theorem test_regulator_example : entry.choose .zw8e4 = -2 ∧ (entry.advance .zw8e4 50001).scale = 2 ∧ (entry.advance .zw8e4 50001).blvl = 1 ∧
    (entry.advance .zw8e4 50001).bcnt = 64 ∧ ({ entry with blvl := 1 } : RegEntry).choose .zw8e4 = -1 ∧
    ((({ entry with blvl := 1, bcnt := 1, ovf := false, cur := 0x4114CCCD } : RegEntry).advance .zw8e4 50065).blvl,
      (({ entry with blvl := 1, bcnt := 1, ovf := false, cur := 0x4114CCCD } : RegEntry).advance .zw8e4 50065).scale) = (0, -2) ∧
    ((convRetry (fun S => convPanel .zw8e4 .rne false S (fun _ _ => 0) [[.fin false 71 0]]) (-2) [0, 2]).1,
      (convRetry (fun S => convPanel .zw8e4 .rne false S (fun _ _ => 0) [[.fin false 71 0]]) (-2) [0, 2]).2.rows) = (0, [[0x71]]) := by decide +kernel

/-- 05: the index of the element at c = 1, j = 4, m = 100, n = 7. -/
theorem test_dropout_example : elemIndex { EpiDesc.parse (zeros 64) with ibase := 37752192, ipitch := 9216, iinc := [128, 0, 4718592, 0] } [4, 0, 1] 100 7 = 43392903 ∧
    43392903 / 8 * 8 = 0x2961F80 ∧ 43392903 % 8 = 7 := by decide

/-- 07: from device address 1100009812345640h of tile 19 to its leaf, tag, ancestors and root entry. -/
theorem test_seal_example : 0x12345640 / 512 = 0x91A2B ∧ 0x91A2B / 4 = 0x2468A ∧ 0x91A2B % 4 = 3 ∧ leafOfGran 0x91A2B = 9320 ∧ 0x91A2B % 64 = 43 ∧
    (MetaId.leaf 9320).place = (0, 0x1FE9D4680 / 64) ∧ (MetaId.leafTag 0 (2330 / 8)).place = (0, 0x1FF96A8D0 / 64) ∧ (granTagId 0x91A2B).place = (3, 0x1F6D23440 / 64) ∧
    granTagPos 0x91A2B = 2 ∧ (MetaId.leaf 9320).ancestors.map MetaId.place =
      [(2, 0x1FFB65D80 / 64), (2, 0x1FFF4B600 / 64), (0, 0x1FFFC8140 / 64), (0, 0x1FFFD7AC0 / 64), (0, 0x1FFFD9A00 / 64)] ∧
    (MetaId.leaf 9320).ancestors = [.node 1 1165, .node 2 145, .node 3 18, .node 4 2, .node 5 0] ∧ (State.rootIdx 19 0).val = 608 := by decide +kernel

/-- 10: the slices of a 589,824-element bucket along W, Z, Y, X. -/
theorem test_slices_example : sliceOf (0, 589824) 2 1 = (294912, 294912) ∧ sliceOf (294912, 294912) 2 0 = (294912, 147456) ∧
    sliceOf (294912, 147456) 4 0 = (294912, 36864) ∧ sliceOf (294912, 36864) 4 0 = (294912, 9216) := by decide

/-- 16: the row and module sums of the example's allowances. -/
theorem test_allowance_example : imagePower (zeros 112 ++ List.replicate 64 0x30) = true ∧ imagePower (zeros 112 ++ List.replicate 64 0x31) = true ∧
    imagePower (zeros 112 ++ List.replicate 16 0x30 ++ List.replicate 8 0x34 ++ List.replicate 40 0x30) = false ∧ 256 + 1952 * 3 + 3309 = 9421 ∧
    coordOf [1, 0, 1, 1] = 0x1101 := by decide +kernel

end Sys2Proof.Tests
end

section
/-! Architecture (01, R19, R29-R31): the tick of an empty queue, what a received frame does at its port, and the events of a
partition reset and of pouncing. -/

namespace Sys2Proof.Machine

/-! ### The tick of every island (R19, R434) -/

theorem State.tick_part (s : State) (p : PartId) : s.tick.parts[p] = { s.parts[p] with count := s.parts[p].count + 1 } := by
  simp [State.tick]

theorem State.tick_tile (s : State) (x : TileId) : s.tick.tiles[x] = { s.tiles[x] with count := s.tiles[x].count + 1 } := by
  simp [State.tick]

theorem State.tick_port (s : State) (i : PortId) : s.tick.ports[i] = { s.ports[i] with count := s.ports[i].count + 1 } := by
  simp [State.tick]

theorem step_of_emptyQueue (s : State) (h : s.pending = []) : step s = .next s.tick := by
  simp only [step, h]

/-- Settles O2: the step of an empty queue is the tick, which advances each count (log 22). -/
theorem emptyQueueTicks : Obligations.EmptyQueueTicks := fun s h =>
  ⟨s.tick, step_of_emptyQueue s h, rfl, rfl, rfl, rfl, rfl, rfl, rfl, s.tick_part, s.tick_tile, s.tick_port⟩

/-! ### A frame at a port (R250, R256, R260, R262) -/

/-- From s to u the port i alone changes, and it becomes o. -/
def PortBecomes (s u : State) (i : PortId) (o : Port) : Prop := OnlyPort s u i ∧ u.ports[i] = o

theorem PortBecomes.modPort {s v : State} {i : PortId} {o : Port} (h : PortBecomes s v i o) (f : Port → Port) :
    PortBecomes s (v.modPort i f) i (f o) :=
  ⟨h.1.trans (OnlyPort.modPort v i f), by rw [port_get, h.2]⟩

theorem PortBecomes.of_modPort (s : State) (i : PortId) (f : Port → Port) : PortBecomes s (s.modPort i f) i (f s.ports[i]) :=
  ⟨OnlyPort.modPort s i f, port_get s i f⟩

/-- What a header's ACK and NAK do to the replay buffer (R261). -/
def Port.gotBack (o : Port) (h : Hdr) : Port := if h.nak then (o.gotAck h.ack).goBack else o.gotAck h.ack

/-- s once a frame has taken its place in port i's sequence and its corrected codewords have counted (R250, R276). -/
def State.counted (s : State) (i : PortId) (n : Nat) : State := (s.countFec i n).modPort i fun o => { o with rxc := o.rxc + 1 }

/-- s once the frame has been counted and its ACK and NAK have reached the replay buffer (R261). -/
def State.acknowledged (s : State) (i : PortId) (n : Nat) (h : Hdr) : State := (s.counted i n).modPort i fun o => o.gotBack h

theorem counted_becomes (s : State) (i : PortId) (n : Nat) :
    PortBecomes s (s.counted i n) i { s.ports[i] with rxc := s.ports[i].rxc + 1, fecc := s.ports[i].fecc + n } :=
  (PortBecomes.of_modPort s i _).modPort _

theorem checkCredits_inBalance (s : State) (i : PortId) (p : Nat) (cret : List Nat) (h : s.ports[i].overReturned p cret = false) :
    s.checkCredits i (some p) cret = s.modPort i fun o => o.gotCret p cret := by
  simp [State.checkCredits, show s.ports[i.val].overReturned p cret = false from h]

/-- More credits back than were spent: BAL with the port as SRC and row 1 as DETAIL (R31; logs 25, 32). -/
theorem checkCredits_tooMany (s : State) (i : PortId) (p : Nat) (cret : List Nat) (h : s.ports[i].overReturned p cret = true) :
    s.checkCredits i (some p) cret = (s.modPort i fun o => o.gotCret p cret).raise (State.partIx p) 0x44 (0x48 + i.val) 0 1 := by
  simp [State.checkCredits, show s.ports[i.val].overReturned p cret = true from h]

section
variable (s : State) (i : PortId) (n : Nat) (wire : Bytes)

theorem receive_unkeyed (fec : Bool) (hk : s.ports[i].keys = none) : s.receive i fec n wire = s.countFec i n := by
  simp only [State.receive, hk]

variable {s i wire} {k : LinkKeys} (hk : s.ports[i].keys = some k)
include hk

theorem receive_undecoded : s.receive i false n wire = (s.counted i n).modPort i Port.frameFailed := by
  simp only [State.receive, hk]; rfl

theorem receive_unopened (ho : State.openHdr k i s.ports[i].rxc wire = none) :
    s.receive i true n wire = (s.counted i n).modPort i fun o => o.frameFailed.hopEvent := by
  simp only [State.receive, hk, ho]; rfl

variable {clear : Bytes} (ho : State.openHdr k i s.ports[i].rxc wire = some clear) {h : Hdr} (hh : h = Hdr.parse clear)
include ho hh

/-- The branches of a frame whose header opens: out of place, CRSYNC, IDLE, DATA out of order, DATA in order. -/
theorem receive_opened : s.receive i true n wire =
    if h.slot ≠ s.ports[i].rxc % 64 ∨ (((s.slotPart (s.ports[i].rxc % 64)).isSome ∨ h.kind = 1) ∧ s.slotPart (s.ports[i].rxc % 64) ≠ some h.part) ∨
        (h.kind ≠ 1 ∧ h.kind ≠ 2 ∧ h.kind ≠ 3) then
      (s.counted i n).modPort i fun o => o.frameFailed.hopEvent
    else if h.kind = 3 then ((s.counted i n).gotCrsync i h).tryUp i
    else
      let u := (s.acknowledged i n h).checkCredits i (s.slotPart (s.ports[i].rxc % 64)) h.cret
      if h.kind = 2 then u
      else if h.fseq ≠ (u.ports[i].rxF + 1) % 4096 then u.modPort i Port.frameFailed
      else (u.modPort i fun o => { o with rxF := h.fseq, bad := false }).accepted i k s.ports[i].rxc h clear (sub wire 32 256) (sub wire 288 16) := by
  subst hh
  simp only [State.receive, hk, ho]; rfl

theorem receive_misplaced (hs : h.slot ≠ s.ports[i].rxc % 64) :
    s.receive i true n wire = (s.counted i n).modPort i fun o => o.frameFailed.hopEvent := by
  rw [receive_opened n hk ho hh, if_pos (Or.inl hs)]

variable (hs : h.slot = s.ports[i].rxc % 64)
include hs

/-- In a slot of no partition an IDLE frame is in its place whatever its PART, and brings no credits (log 32). -/
theorem receive_idle_unassigned (hp : s.slotPart h.slot = none) (h2 : h.kind = 2) :
    s.receive i true n wire = s.acknowledged i n h := by
  rw [receive_opened n hk ho hh, ← hs, hp]
  simp [h2, State.checkCredits]

variable (hp : s.slotPart h.slot = some h.part)
include hp

theorem receive_crsync (h3 : h.kind = 3) : s.receive i true n wire = ((s.counted i n).gotCrsync i h).tryUp i := by
  rw [receive_opened n hk ho hh, ← hs, hp]
  simp [h3]

theorem receive_idle (h2 : h.kind = 2) :
    s.receive i true n wire = (s.acknowledged i n h).checkCredits i (some h.part) h.cret := by
  rw [receive_opened n hk ho hh, ← hs, hp]
  simp [h2]

variable {u : State} (hu : (s.acknowledged i n h).checkCredits i (some h.part) h.cret = u) (h1 : h.kind = 1)
include hu h1

theorem receive_data_outOfOrder (hf : h.fseq ≠ (u.ports[i].rxF + 1) % 4096) :
    s.receive i true n wire = u.modPort i Port.frameFailed := by
  rw [receive_opened n hk ho hh, ← hs, hp, hu]
  simp [h1, show h.fseq ≠ (u.ports[i.val].rxF + 1) % 4096 from hf]

theorem receive_data_inOrder (hf : h.fseq = (u.ports[i].rxF + 1) % 4096) :
    s.receive i true n wire =
      (u.modPort i fun o => { o with rxF := h.fseq, bad := false }).accepted i k s.ports[i].rxc h clear (sub wire 32 256) (sub wire 288 16) := by
  rw [receive_opened n hk ho hh, ← hs, hp, hu]
  simp [h1, ← show h.fseq = (u.ports[i.val].rxF + 1) % 4096 from hf]

end

theorem exec_frameReceive {c : Instr} {i : PortId} {fec : Bool} {n : Nat} {wire : Bytes}
    (hc : c ∈ [Instr.dataFrameReceive i fec n wire, Instr.idleFrameReceive i fec n wire]) (s : State) :
    exec c s = .next (s.receive i fec n wire).refreshWaits := by
  simp only [List.mem_cons, List.not_mem_nil, or_false] at hc
  obtain rfl | rfl := hc <;> rfl

/-- A frame of a closed job, or of a member in a reset, is dropped and its buffer freed (R256, R264). -/
theorem accepted_dropped (s : State) (i : PortId) (k : LinkKeys) (n : Nat) (h : Hdr) (clear body tag : Bytes)
    (hd : s.holdsJob (State.partIx h.part) h.job = false ∨ (h.dst = s.me ∧ s.parts[State.partIx h.part].pstate = .resetting)) :
    s.accepted i k n h clear body tag = s.modPort i fun o => (o.dropFrame h.part).free h.part h.vc := by
  by_cases hj : s.holdsJob (State.partIx h.part) h.job = false
  · simp [State.accepted, hj]
  · obtain ⟨hm, hr⟩ := hd.resolve_left hj
    rw [Fin.getElem_fin] at hr
    simp [State.accepted, hj, hm, hr]

theorem refreshWaits_part (s : State) (p : PartId) :
    s.refreshWaits.parts[p] = { s.parts[p] with card := { s.parts[p].card with table := s.refreshWaits.parts[p].card.table } } := by
  simp [State.refreshWaits]

/-- Settles O53: each branch of a frame at a port with keys changes the port alone, by the updates that its header asks for; what
else the frame does is the named operation run on that. -/
theorem framesReceived : Obligations.FramesReceived := by
  refine ⟨fun c i fec n wire s o hc => ?_, fun i k n h clear body tag s t ht => ⟨fun hj => ?_, fun hj hm hr => ?_⟩,
    fun u => ⟨rfl, refreshWaits_part u⟩⟩
  · simp only [exec_frameReceive hc]
    refine ⟨fun hk => ⟨s.countFec i n, by rw [receive_unkeyed s i n wire fec hk], PortBecomes.of_modPort ..⟩, fun k hk ho => ?_⟩
    have counted : PortBecomes s (s.counted i n) i o := ho ▸ counted_becomes s i n
    refine ⟨fun hfec => ?_, fun hfec hopen => ?_, fun clear h a hfec hopen hh ha => ?_⟩ <;> subst hfec
    · exact ⟨_, by rw [receive_undecoded n hk], counted.modPort Port.frameFailed⟩
    · exact ⟨_, by rw [receive_unopened n hk hopen], counted.modPort fun o => o.frameFailed.hopEvent⟩
    have acked : PortBecomes s (s.acknowledged i n h) i a := ha ▸ counted.modPort fun o => o.gotBack h
    refine ⟨fun hs => ?_, fun hs hp h2 => ?_, fun p hs hp hpart => ?_⟩
    · exact ⟨_, by rw [receive_misplaced n hk hopen hh hs], counted.modPort fun o => o.frameFailed.hopEvent⟩
    · exact ⟨_, by rw [receive_idle_unassigned n hk hopen hh hs hp h2], acked⟩
    subst hpart
    have credited := acked.modPort fun o => o.gotCret h.part h.cret
    have balanced (hb : a.overReturned h.part h.cret = false) := checkCredits_inBalance _ i h.part h.cret (acked.2 ▸ hb)
    refine ⟨fun h3 => ?_, fun h2 hb => ?_, fun h2 hb => ?_, fun h1 hb => ⟨fun hf => ?_, fun hf => ?_⟩⟩
    · exact ⟨_, by rw [receive_crsync n hk hopen hh hs hp h3], counted⟩
    · exact ⟨_, by rw [receive_idle n hk hopen hh hs hp h2, balanced hb], credited⟩
    · exact ⟨_, by rw [receive_idle n hk hopen hh hs hp h2, checkCredits_tooMany _ _ _ _ (acked.2 ▸ hb)], credited⟩
    · rw [← credited.2] at hf
      exact ⟨_, by rw [receive_data_outOfOrder n hk hopen hh hs hp (balanced hb) h1 hf], credited.modPort Port.frameFailed⟩
    · rw [← credited.2] at hf
      exact ⟨_, by rw [receive_data_inOrder n hk hopen hh hs hp (balanced hb) h1 hf],
        credited.modPort fun o => { o with rxF := h.fseq, bad := false }⟩
  · rw [← ht, accepted_dropped _ _ _ _ _ _ _ _ (Or.inl hj)]
    exact PortBecomes.of_modPort ..
  · rw [← ht, accepted_dropped _ _ _ _ _ _ _ _ (Or.inr ⟨hm, hr⟩)]
    exact PortBecomes.of_modPort ..

/-! ### The events of a partition reset and of pouncing (R203, R381, R382, R455, R457) -/

section
variable (s : State) (p : PartId)

theorem exec_partitionReset : exec (.partitionReset p none) s =
    if s.resetAt p = some 0 then .next ((s.stopPartition p).setReset p 1) else .next s := rfl

/-- A row of R29 out of balance is raised first, and may be what starts the reset (R31). -/
theorem exec_partitionReset_bal (r : Fin 7) : exec (.partitionReset p (some r)) s =
    exec (.partitionReset p none) (s.raise p 0x44 (balSrc (r.val + 1)) 0 (r.val + 1)) := rfl

theorem exec_resetFlushDone : exec (.resetFlushDone p) s =
    if s.resetAt p = some 1 then .next ((((s.tilesOf p).foldl (fun s t => s.flushTile t) s).clearPartition p).setReset p 3) else .next s := rfl

/-- A flush past its time is partition-fatal, and the reset goes on without it (R203; log 25). -/
theorem exec_flushTimeout : exec (.flushTimeout p) s =
    if s.resetAt p = some 1 then .next (((s.raise p 0x41 0xFF 0 0).clearAtRest p).setReset p 3) else .next s := rfl

theorem exec_selfTestDone (fails : List (TileId × Nat)) : exec (.selfTestDone p fails) s =
    if s.resetAt p = some 3 then .next ((s.selfTest p fails).setReset p 4) else .next s := rfl

theorem setReset_only (ev : Nat) : OnlyPart s (s.setReset p ev) p ∧
    (s.setReset p ev).parts[p] = { s.parts[p] with reset := s.parts[p].reset.map fun r => { r with ev := ev } } :=
  ⟨OnlyPart.modPart s p _, part_get s p _⟩

theorem exec_recentreDone (bad : List (TileId × ChanId)) (u : State)
    (hu : (bad.filter fun f => s.partOf f.1 == some p).foldl (fun s f => s.failChannel f.1 f.2 1) s = u) :
    exec (.recentreDone p bad) s =
      if s.resetAt p = some 4 then .next (State.endReset
        (if (u.parts[p].reset.any (·.failed)) = false then
          (u.tilesOf p).foldl (fun s t => s.modTile t fun x => { x with chans := x.chans.map fun c => { c with selfRefresh := false } }) u
        else u) p)
      else .next s := by
  subst hu
  simp only [← Bool.not_eq_true']; rfl

/-- At its limit a reset catches up on what it had still to stop and to zero, and ends in FAILED (R455; log 25). -/
theorem exec_resetOverrun {r : Reset} (hr : s.parts[p].reset = some r) (u : State) (hu : s.raise p 0x46 0x43 0 0 = u) :
    exec (.resetOverrun p) s =
      if r.start + 20000000 ≤ s.clocks.jewel then
        .next (State.endReset (if r.ev = 0 then (u.stopPartition p).clearAtRest p else if r.ev < 3 then u.clearAtRest p else u) p)
      else .next s := by
  subst hu
  change execResetOverrun p s = _
  simp only [execResetOverrun, hr, resetLimit]
  by_cases h : r.ev = 0
  · simp [h]
  · simp only [if_neg h]

theorem exec_resetOverrun_idle (hr : s.parts[p].reset = none) : exec (.resetOverrun p) s = .next s := by
  change execResetOverrun p s = _
  simp only [execResetOverrun, hr]

theorem exec_pouncingDone {q : Pounce} (hq : s.parts[p].pounce = some q) (reads : List ReadBack) (fails : List (TileId × Nat)) (u : State)
    (hu : reads.foldl (fun s r => s.verifyLine p r) s = u) : exec (.pouncingDone p reads fails) s =
      if s.allInit p = true then
        .next (State.tryReady (State.endRestart (State.episodeClose
          (if u.parts[p].pounce.isSome then (u.selfTest p fails).endPounce p else u) p)))
      else .next s := by
  subst hu
  change execPouncingDone p reads fails s = _
  simp only [execPouncingDone, hq, Option.isSome_some, Bool.true_and]

theorem exec_pouncingDone_idle (hq : s.parts[p].pounce = none) (reads : List ReadBack) (fails : List (TileId × Nat)) :
    exec (.pouncingDone p reads fails) s = .next s := by
  change execPouncingDone p reads fails s = _
  simp only [execPouncingDone, hq, Option.isSome_none, Bool.false_and, Bool.false_eq_true, if_false]

theorem exec_pouncingOverrun {q : Pounce} (hq : s.parts[p].pounce = some q) : exec (.pouncingOverrun p) s =
    if q.start + pounceLimit q.deep ≤ s.clocks.jewel then .next ((s.raise p 0x48 0x43 0 0).endRestart) else .next s := by
  change execPouncingOverrun p s = _
  simp only [execPouncingOverrun, hq]

theorem exec_pouncingOverrun_idle (hq : s.parts[p].pounce = none) : exec (.pouncingOverrun p) s = .next s := by
  change execPouncingOverrun p s = _
  simp only [execPouncingOverrun, hq]

/-- At t1 each tile of the partition halts, and no other tile changes (R457). -/
theorem stopPartition_tile (x : TileId) :
    (s.stopPartition p).tiles[x] = if x ∈ s.tilesOf p then s.tiles[x].halted else s.tiles[x] := by
  unfold State.stopPartition
  dsimp only
  rw [foldl_modTile _ (tilesOf_nodup _ _), tilesOf_boot _ s p (by simp)]
  simp

/-- At t3 each tile of the partition is cleared, and no other tile changes (R457). -/
theorem clearPartition_tile (x : TileId) :
    (s.clearPartition p).tiles[x] = if x ∈ s.tilesOf p then s.tiles[x].cleared else s.tiles[x] :=
  foldl_modTile _ (tilesOf_nodup s p) _ s x

end

/-- Settles O55: each event is its equation, taken where its turn has come and where it has not; the tiles of the partition are
halted and cleared, the others kept. -/
theorem resetsAndPouncingRun : Obligations.ResetsAndPouncingRun := by
  refine ⟨fun p s => ⟨?_, ?_, ?_, ?_, ?_, ?_, ?_, ?_, ?_, ?_, ?_, ?_, ?_⟩, fun p s x => ⟨fun hx => ?_, fun hx => ?_⟩⟩
  · intro h; rw [exec_partitionReset, if_pos h]
  · intro h; rw [exec_partitionReset, if_neg h]
  · rintro r u rfl
    rw [exec_partitionReset_bal, exec_partitionReset]
    exact ⟨fun h => if_pos h, fun h => if_neg h⟩
  · intro h; rw [exec_resetFlushDone, exec_flushTimeout]; exact ⟨if_pos h, if_pos h⟩
  · intro h; rw [exec_resetFlushDone, exec_flushTimeout]; exact ⟨if_neg h, if_neg h⟩
  · intro h
    exact ⟨⟨s.setReset p 4, by rw [exec_selfTestDone, if_pos h]; rfl, setReset_only s p 4⟩,
      fun fails => by rw [exec_selfTestDone, if_pos h]; rfl⟩
  · intro h fails; rw [exec_selfTestDone, if_neg h]
  · intro bad u h hu
    rw [exec_recentreDone s p bad u hu.symm, if_pos h]
    exact ⟨fun hf => by rw [if_neg (by rw [hf]; decide)], fun hf => by rw [if_pos hf]⟩
  · intro h bad; rw [exec_recentreDone s p bad _ rfl, if_neg h]
  · intro r u hr hu
    rw [exec_resetOverrun s p hr u hu.symm]
    refine ⟨fun hl => ?_, fun hl => if_neg (by omega)⟩
    rw [if_pos hl]
    refine ⟨fun h => by rw [if_pos h], fun h => ?_, fun h => ?_⟩
    · rw [if_neg (by omega), if_pos (by omega)]
    · rw [if_neg (by omega), if_neg (by omega)]
  · exact exec_resetOverrun_idle s p
  · intro q reads fails u hq hu
    rw [exec_pouncingDone s p hq reads fails u hu.symm, exec_pouncingOverrun s p hq]
    refine ⟨fun hi h => ?_, fun hi h => ?_, fun hi => if_neg (by rw [hi]; decide), fun h => if_pos h, fun h => if_neg (by omega)⟩
    · rw [if_pos hi, if_pos h]
    · rw [if_pos hi, h]; rfl
  · intro h
    exact ⟨exec_pouncingDone_idle s p h, exec_pouncingOverrun_idle s p h⟩
  · simp only [stopPartition_tile, clearPartition_tile, hx, if_true]
    exact ⟨rfl, rfl, rfl, rfl, rfl, rfl, rfl, rfl, rfl⟩
  · simp only [stopPartition_tile, clearPartition_tile, hx, if_false, and_self]

end Sys2Proof.Machine
end

section
/-! Tile programs (02): RUN starts the tiles, the sequencer takes the descriptor at the program counter, the engines complete, and the
tiles report and mark. -/

namespace Sys2Proof.Machine

/-! ### RUN starts the tiles (R59, R343) -/

/-- A tile as RUN starts it: at the entry slot, past the EPILOGUE descriptors that stand there, with nothing dispatched (R59, R60). -/
def Tile.startedAt (y : Tile) (entry step : Nat) : Tile :=
  { y with
    running := true, step := step, atEnd := false, reported := false, stopped := none, marked := false,
    mark := [], nextOp := 0, ops := [], kept := none, prevPass := none, seqs := [], rlog := [], overflowed := [],
    replayed := [], regUsed := [], regSteps := [],
    pc := (y.skipEpi 8192 (entry, [])).1, loops := (y.skipEpi 8192 (entry, [])).2 }

theorem startRun_eq (s : State) (p : PartId) (c : Cmd) : s.startRun p c =
    (s.tilesOf p).foldl (fun s t => s.modTile t fun y => y.startedAt c.arg0 c.arg1) (s.modPart p fun q =>
      { q with run := some c.seq, runStop := none, runEnd := none, regAtRun := s.tiles[s.firstTile p].reg }) := by
  unfold State.startRun Tile.goto
  refine congrArg (fun f => List.foldl f _ _) (funext fun s => funext fun t => congrArg (s.modTile t) (funext fun y => ?_))
  rw [skipEpi_congr _ y] <;> rfl

theorem startRun_rest (s : State) (p : PartId) (c : Cmd) : s.startRun p c =
    { s.modPart p fun q => { q with run := some c.seq, runStop := none, runEnd := none, regAtRun := s.tiles[s.firstTile p].reg } with
      tiles := (s.startRun p c).tiles } := by
  rw [startRun_eq]
  exact foldl_modTile_rest _ (fun _ y => y.startedAt c.arg0 c.arg1) _

theorem startRun_part (s : State) (p : PartId) (c : Cmd) : (s.startRun p c).parts[p] =
    { s.parts[p] with run := some c.seq, runStop := none, runEnd := none, regAtRun := (s.startRun p c).parts[p].regAtRun } := by
  rw [startRun_rest]
  simp

theorem startRun_tile (s : State) (p : PartId) (c : Cmd) (x : TileId) :
    (s.startRun p c).tiles[x] = if s.partOf x = some p then s.tiles[x].startedAt c.arg0 c.arg1 else s.tiles[x] := by
  rw [startRun_eq, foldl_modTile _ (tilesOf_nodup s p)]
  simp only [mem_tilesOf]
  rfl

theorem exec_run {p : PartId} {e : InFlight} {s u : State} (hu : s.settled (some p) = u)
    (he : u.startable (some p) .tile = some e) (hop : e.cmd.opc = 0x11) :
    exec (.run p) s = .next ((u.start (some p) false e.cmd.seq).startRun p e.cmd) := by
  subst hu
  change execRun p s = _
  simp only [execRun, he, Option.filter_some, hop, beq_self_eq_true, if_true]

/-- Settles O20: RUN starts its command, notes itself in its partition, and puts each tile of the partition at the entry slot. -/
theorem runStartsTiles : Obligations.RunStartsTiles := by
  intro p e s u hu he hop hurg hfl
  have hstart : OnlyPart u (u.start (some p) false e.cmd.seq) p := OnlyFn.start u (some p) _ _
  have hside := start_parts u p e.cmd.seq
  have hentry : (u.start (some p) false e.cmd.seq).inFlight (some p) false e.cmd.seq =
      some { e with started := some (u.seqCount (some p)) } := by
    have h := start_inFlight u (some p) e (by rw [hurg]; exact hfl)
    simp only [hurg] at h ⊢
    exact h
  refine ⟨_, exec_run hu he hop, ?_⟩
  generalize u.start (some p) false e.cmd.seq = v at *
  obtain ⟨hv, hkept⟩ := hstart
  have hrun := startRun_rest v p e.cmd
  have hpart := startRun_part v p e.cmd
  refine ⟨?_, fun q hq => ?_, ?_, ?_, fun x => ?_⟩
  · rw [hrun, hv]; rfl
  · rw [← hkept q hq, hrun]; simp [hq]
  · rw [CommandSide] at hside
    rw [CommandSide, hpart, hside]
  · rw [← hentry]
    refine inFlight_congr _ _ _ _ _ ?_
    simp only [State.win]; rw [hpart]
  · have htile := startRun_tile v p e.cmd x
    rw [show v.partOf x = u.partOf x by rw [hv]; rfl, show v.tiles = u.tiles by rw [hv]] at htile
    exact ⟨fun h => by rw [htile, if_neg h], fun h => by rw [htile, if_pos h]; rfl⟩

/-! ### The sequencer at the program counter (R56, R60-R69) -/

theorem stopTile_stopped (s : State) (p : PartId) (x : TileId) (slot : Nat) : (s.stopTile p x slot).tiles[x].stopped = some slot := by
  obtain ⟨-, -, -, -, hx, -⟩ := stopTile_spec s p x slot
  rw [hx]

theorem stopTile_stopped_other {s : State} {p : PartId} {x y : TileId} {slot : Nat} (h : y ≠ x) :
    (s.stopTile p x slot).tiles[y].stopped = s.tiles[y].stopped := by
  obtain ⟨-, -, -, hy, -, -⟩ := stopTile_spec s p x slot
  rw [hy y h]

/-- The stop of a tile leaves every scratchpad (R343). -/
theorem stopTile_sp (s : State) (p : PartId) (x y : TileId) (slot : Nat) : (s.stopTile p x slot).tiles[y].sp = s.tiles[y].sp := by
  obtain ⟨-, -, -, hy, hx, -⟩ := stopTile_spec s p x slot
  by_cases h : y = x
  · rw [h, hx]
  · rw [hy y h]

section
variable {s : State} {x : TileId} {p : PartId} {k : Nat} (hp : s.partOf x = some p) (hc : s.canDispatch p x = true)
include hp hc

theorem fetch_pastEnd (kinds : List Nat) (hpc : 4096 ≤ s.tiles[x].pc) : s.fetchDispatch x kinds = s.stopTile p x 4095 := by
  simp only [State.fetchDispatch, hp, hc, hpc, Bool.not_true, Bool.false_eq_true, if_true, if_false]

theorem fetch_badSlot (kinds : List Nat) (hpc : s.tiles[x].pc < 4096) (hbad : s.tiles[x].imBad s.tiles[x].pc = true) :
    s.fetchDispatch x kinds = s.stopTile p x s.tiles[x].pc := by
  simp only [State.fetchDispatch, hp, hc, hbad, Nat.not_le.mpr hpc, Bool.not_true, Bool.false_eq_true, if_true, if_false]

variable (hk : k ∈ [1, 2, 3, 4, 5, 6, 15]) (hpc : s.tiles[x].pc < 4096) (him : s.tiles[x].imErr = [])
  (hkd : kindOf (s.tiles[x].descAt s.tiles[x].pc) = k)
include hk hpc him hkd

theorem fetch_unsound (hst : staticOk (s.dispCtx p x) s.tiles[x] (s.tiles[x].descAt s.tiles[x].pc) = false) :
    s.fetchDispatch x [k] = s.stopTile p x s.tiles[x].pc := by
  rw [fetch_eq s x p k hk hp hc hpc him hkd, hst]
  rfl

variable (hst : staticOk (s.dispCtx p x) s.tiles[x] (s.tiles[x].descAt s.tiles[x].pc) = true)
include hst

theorem fetch_passedOver (hon : onLastExec (s.tiles[x].descAt s.tiles[x].pc) s.tiles[x].loops = some false) :
    s.fetchDispatch x [k] = s.modTile x Tile.advance := by
  rw [fetch_eq s x p k hk hp hc hpc him hkd, hst, hon]
  rfl

variable (hon : onLastExec (s.tiles[x].descAt s.tiles[x].pc) s.tiles[x].loops = some true)
include hon

theorem fetch_loop (h6 : k = 6) :
    s.fetchDispatch x [k] = s.modTile x fun y => State.beginLoop y (s.tiles[x].descAt s.tiles[x].pc) := by
  subst h6
  rw [fetch_eq s x p 6 hk hp hc hpc him hkd, hst, hon]
  rfl

theorem fetch_end (h15 : k = 15) : s.fetchDispatch x [k] = s.modTile x fun y => { y with atEnd := true, stepReq := false } := by
  subst h15
  rw [fetch_eq s x p 15 hk hp hc hpc him hkd, hst, hon]
  rfl

variable (hlt : k < 6)
include hlt

theorem fetch_waits (hj : judge (s.dispCtx p x) s.tiles[x] (s.tiles[x].descAt s.tiles[x].pc) = .wait) : s.fetchDispatch x [k] = s := by
  rw [fetch_eq s x p k hk hp hc hpc him hkd, hst, hon, if_neg (by decide), if_neg (by decide), if_neg (by omega), if_neg (by omega), hj]

theorem fetch_invalid (hj : judge (s.dispCtx p x) s.tiles[x] (s.tiles[x].descAt s.tiles[x].pc) = .invalid) :
    s.fetchDispatch x [k] = (s.endStream p x (s.tiles[x].descAt s.tiles[x].pc)).stopTile p x s.tiles[x].pc := by
  rw [fetch_eq s x p k hk hp hc hpc him hkd, hst, hon, if_neg (by decide), if_neg (by decide), if_neg (by omega), if_neg (by omega), hj]

theorem fetch_dispatches {o : Op} (hj : judge (s.dispCtx p x) s.tiles[x] (s.tiles[x].descAt s.tiles[x].pc) = .ok o) :
    s.fetchDispatch x [k] = s.dispatchOp p x o := by
  rw [fetch_eq s x p k hk hp hc hpc him hkd, hst, hon, if_neg (by decide), if_neg (by decide), if_neg (by omega), if_neg (by omega), hj]

end

/-- Settles O30: the sequencer's last branch dispatches what the checks resolve, and dispatch puts it in its engine's queue. -/
theorem descriptorDispatched : Obligations.DescriptorDispatched := by
  rintro x p c k d o s hck hp hc hpc him hsp hrg rfl hkd hst hon hj
  obtain ⟨hexec, hk⟩ := exec_fetch c x k s (List.mem_append_left [(Instr.loop x, 6), (Instr.endProgram x, 15)] hck)
  have hlt : k < 6 := by
    simp only [List.mem_cons, Prod.mk.injEq, List.not_mem_nil, or_false] at hck
    omega
  rw [fetch_dispatches hp hc hk hpc him hkd hst hon hlt hj] at hexec
  obtain ⟨⟨hrest, hparts, htiles, hops, hnext, hpc', hloops, hstep⟩, honly, hmesh⟩ := dispatchOp_disp s p x o hsp hrg
  exact ⟨_, hexec, hrest, hparts, htiles, hops, hnext, hpc', hloops, hstep, honly, hmesh⟩

/-- Settles O31: the branches of the sequencer in the order in which it takes them. -/
theorem sequencerFollowsProgram : Obligations.SequencerFollowsProgram := by
  rintro x p c k d s hck hp hc rfl
  obtain ⟨hexec, hk⟩ := exec_fetch c x k s hck
  rw [hexec]
  refine ⟨fun hpc => ?_, fun hpc hbad => ?_, fun hpc him hkd => ⟨fun hst => ?_, fun hst => ⟨fun hon => ?_, fun hon => ⟨fun h6 => ?_, fun h15 => ?_,
    fun hlt hj => ?_, fun hlt hj => ?_⟩⟩⟩⟩
  · exact ⟨_, by rw [fetch_pastEnd hp hc _ hpc], rfl, stopTile_stopped ..⟩
  · exact ⟨_, by rw [fetch_badSlot hp hc _ hpc hbad], rfl, stopTile_stopped ..⟩
  · exact ⟨_, by rw [fetch_unsound hp hc hk hpc him hkd hst], rfl, stopTile_stopped ..⟩
  · exact ⟨_, by rw [fetch_passedOver hp hc hk hpc him hkd hst hon], OnlyTile.modTile .., tile_get ..⟩
  · exact ⟨_, by rw [fetch_loop hp hc hk hpc him hkd hst hon h6], OnlyTile.modTile .., tile_get ..⟩
  · exact ⟨_, by rw [fetch_end hp hc hk hpc him hkd hst hon h15], OnlyTile.modTile .., tile_get ..⟩
  · rw [fetch_waits hp hc hk hpc him hkd hst hon hlt hj]
  · exact ⟨_, by rw [fetch_invalid hp hc hk hpc him hkd hst hon hlt hj], rfl, stopTile_stopped ..⟩

/-! ### The array and the vector unit (R44-R46, R117, R135) -/

/-- What scratchpad writes leave of a tile: all but its scratchpad, its poison bits and its words in error. -/
def SpOnly (y z : Tile) : Prop := z = { y with sp := z.sp, poison := z.poison, spErr := z.spErr }

theorem SpOnly.trans {a b c : Tile} (h : SpOnly a b) (k : SpOnly b c) : SpOnly a c := by
  unfold SpOnly at *
  rw [k, h]

theorem SpOnly.spWrite (y : Tile) (a : Nat) (bs : Bytes) : SpOnly y (y.spWrite a bs) := by
  unfold Tile.spWrite
  split <;> rfl

theorem SpOnly.foldl {α : Type} (f : Tile → α → Tile) (h : ∀ y a, SpOnly y (f y a)) (l : List α) (y : Tile) : SpOnly y (l.foldl f y) := by
  induction l generalizing y with
  | nil => rfl
  | cons a l ih => exact (h y a).trans (ih _)

theorem SpOnly.writeSums (y : Tile) (d : PassDesc) (rows : List (List Nat)) : SpOnly y (y.writeSums d rows) :=
  SpOnly.foldl _ (fun y _ => SpOnly.spWrite y _ _) _ _

@[simp] theorem Tile.pruneLog_kept (y : Tile) : y.pruneLog.kept = y.kept := by unfold Tile.pruneLog; split <;> rfl

@[simp] theorem Tile.pruneLog_overflowed (y : Tile) : y.pruneLog.overflowed = y.overflowed := by unfold Tile.pruneLog; split <;> rfl

@[simp] theorem Tile.endSeq_kept (y : Tile) (psum : Nat) : (y.endSeq psum).kept = y.kept := by simp [Tile.endSeq]

@[simp] theorem Tile.endSeq_overflowed (y : Tile) (psum : Nat) : (y.endSeq psum).overflowed = y.overflowed := by simp [Tile.endSeq]

theorem Tile.mem_dropOp {y : Tile} {id : Nat} {q : Op} (h : q ∈ (y.dropOp id).ops) : q.id ≠ id := by
  simpa using (List.mem_filter.mp h).2

theorem Tile.mem_modOp_half {y : Tile} {id : Nat} {w : Option Operand} {q : Op}
    (h : q ∈ (y.modOp id fun q => { q with half := true, weights := w }).ops) (hq : q.id = id) : q.half = true := by
  obtain ⟨r, -, rfl⟩ := List.mem_map.mp h
  by_cases hr : (r.id == id) = true
  · rw [if_pos hr]
  · rw [if_neg hr] at hq
    exact absurd (beq_iff_eq.mpr hq) hr

/-- What the array computes in the pass of o (R44-R46, R117). -/
def Tile.arrayOut (y : Tile) (o : Op) : PassOut :=
  y.passOut o ((PassDesc.parse o.desc).acc == 1 && !y.replayed.contains (PassDesc.parse o.desc).psum) (y.loaded o)

/-- A tile with the sums of the pass of o written, or its overflow noted, before the pass leaves the array (R46, R117). -/
def Tile.summed (y : Tile) (o : Op) : Tile :=
  let d := PassDesc.parse o.desc
  let r := y.arrayOut o
  let z := { y with kept := some r.w, shadow := y.loadShadow o.id }
  let z := if d.wkeep then { z with rlog := z.rlog.map fun l => if l.id == o.id then { l with weights := some r.w } else l } else z
  if r.ovf then { z with overflowed := if z.overflowed.contains d.psum then z.overflowed else z.overflowed ++ [d.psum] }
  else (z.writeSums d r.rows).seqAdd d.psum r.flags r.contribs

theorem completePass_eq (y : Tile) (o : Op) : y.completePass o =
    if (y.summed o).overflowed.contains (PassDesc.parse o.desc).psum then (y.summed o).dropOp o.id
    else if o.epi.isSome then
      (y.summed o).modOp o.id fun q => { q with half := true, weights := some { (y.arrayOut o).w with vals := [] } }
    else (if o.last then (y.summed o).endSeq (PassDesc.parse o.desc).psum else y.summed o).dropOp o.id := rfl

theorem summed_kept (y : Tile) (o : Op) : (y.summed o).kept = some (y.arrayOut o).w := by
  unfold Tile.summed
  extract_lets d r z z'
  have hz : z'.kept = some r.w := by unfold z'; split <;> rfl
  split
  · exact hz
  · rw [← hz, Tile.seqAdd, SpOnly.writeSums z' d r.rows]

/-- The weights of a pass stay in the cells of the array (R37). -/
theorem completePass_kept (y : Tile) (o : Op) : (y.completePass o).kept = some (y.arrayOut o).w := by
  rw [completePass_eq, ← summed_kept]
  split
  · rfl
  · split
    · rfl
    · split
      · exact Tile.endSeq_kept ..
      · rfl

/-- A LAST pass whose epilogue is still to come stays queued, half done, unless its sequence has overflowed (R135). -/
theorem completePass_half {y : Tile} {o q : Op} (he : o.epi.isSome = true) (hov : (PassDesc.parse o.desc).psum ∉ (y.completePass o).overflowed)
    (hq : q ∈ (y.completePass o).ops) (hid : q.id = o.id) : q.half = true := by
  rw [completePass_eq] at hov hq
  by_cases h : (y.summed o).overflowed.contains (PassDesc.parse o.desc).psum = true
  · rw [if_pos h] at hov
    exact absurd (List.elem_iff.mp h) hov
  · rw [if_neg h, if_pos he] at hq
    exact Tile.mem_modOp_half hq hid

theorem OnlyTile.foldl {α : Type} {x : TileId} {f : State → α → State} {l : List α} (h : ∀ s, ∀ a ∈ l, OnlyTile s (f s a) x) (s : State) :
    OnlyTile s (l.foldl f s) x := by
  induction l generalizing s with
  | nil => exact OnlyTile.refl s x
  | cons a l ih =>
    exact (h s a List.mem_cons_self).trans (ih (fun s b hb => h s b (List.mem_cons_of_mem a hb)) _)

/-- A replayed sequence is marked no longer (R117). -/
theorem replay_unmarked (s : State) (x : TileId) (psum : Nat) : psum ∉ (s.replay x psum).tiles[x].overflowed := by
  unfold State.replay
  extract_lets
  rw [tile_get]
  split <;> simp

/-- A replay without logged loads reads no memory but the tile's own (R121). -/
theorem replay_only {s : State} {x : TileId} (psum : Nat) (h : ∀ o ∈ s.tiles[x].rlog, o.engine ≠ .dma) : OnlyTile s (s.replay x psum) x := by
  unfold State.replay
  extract_lets
  refine ((OnlyTile.modTile ..).trans (OnlyTile.foldl (fun s o ho => ?_) _)).trans (OnlyTile.modTile ..)
  rw [if_neg (by simpa using h o (List.mem_filter.mp ho).1)]
  split
  · exact OnlyTile.modTile ..
  · exact OnlyTile.refl ..

section
variable {s : State} {x : TileId} {o : Op}

theorem exec_passComplete (h : s.tiles[x].nextPass = some o) : exec (.passComplete x) s = .next (s.modTile x fun y => y.completePass o) := by
  change execPassComplete x s = _
  simp only [execPassComplete, h]

theorem exec_accumReplay {psum : Nat} {rest : List Nat} (hops : s.tiles[x].ops = []) (hov : s.tiles[x].overflowed = psum :: rest) :
    exec (.accumReplay x) s = .next (s.replay x psum) := by
  change execAccumReplay x s = _
  simp only [execAccumReplay, hops, hov]

variable {os : List Op} (hw : s.tiles[x].vectorWork = o :: os)
include hw

theorem exec_epilogue_pass {eb : Bytes} (he : o.epi = some eb) (ha : o.engine = .array) (hh : o.half = true) :
    exec (.epilogue x) s = .next (s.modTile x fun y => y.finishPass o eb (s.dropKey x)) := by
  change execEpilogue x s = _
  simp only [execEpilogue, hw, he, ha, hh, beq_self_eq_true, if_true]

theorem exec_epilogue_vec {eb : Bytes} (he : o.epi = some eb) (hv : o.engine = .vector) (hh : o.half = false) :
    exec (.epilogue x) s = .next (s.modTile x fun y => (y.runVec o (s.dropKey x)).modOp o.id fun q => { q with half := true }) := by
  change execEpilogue x s = _
  simp only [execEpilogue, hw, he, hv, hh, show (Engine.vector == .array) = false from rfl, Bool.false_eq_true, if_false]

theorem exec_vecComplete_computed (hv : o.engine = .vector) (hh : o.half = true) :
    exec (.vecComplete x) s = .next (s.modTile x fun y => y.dropOp o.id) := by
  change execVecComplete x s = _
  simp only [execVecComplete, hw, hv, hh, beq_self_eq_true, Bool.true_or, Bool.and_self, if_true]

theorem exec_vecComplete_plain (hv : o.engine = .vector) (hh : o.half = false) (he : o.epi = none) :
    exec (.vecComplete x) s = .next (s.modTile x fun y => (y.runVec o (s.dropKey x)).dropOp o.id) := by
  change execVecComplete x s = _
  simp only [execVecComplete, hw, hv, hh, he, beq_self_eq_true, Option.isNone_none, Bool.or_true, Bool.and_self, Bool.false_eq_true, if_true, if_false]

end

/-- Settles O32: each event is the named operation on its tile, and what it leaves queued is read off that operation. -/
theorem enginesComplete : Obligations.EnginesComplete := by
  refine fun x s => ⟨fun o r hn hr => ?_, fun psum rest hops hov => ?_, fun o os hw => ⟨fun eb he ha hh => ?_, fun eb he hv hh => ?_,
    fun hv hh => ?_, fun hv hh he => ?_⟩⟩
  · subst hr
    refine ⟨_, exec_passComplete hn, OnlyTile.modTile .., ?_⟩
    rw [tile_get]
    exact ⟨rfl, completePass_kept .., completePass_drop _ _, fun he hov q hq hid => completePass_half he hov hq hid, completePass_ovf _ _⟩
  · exact ⟨_, exec_accumReplay hops hov, rfl, replay_unmarked s x psum, replay_only psum⟩
  · refine ⟨_, exec_epilogue_pass hw he ha hh, OnlyTile.modTile .., ?_⟩
    rw [tile_get]
    exact ⟨rfl, fun q hq => Tile.mem_dropOp hq⟩
  · exact ⟨_, exec_epilogue_vec hw he hv hh, OnlyTile.modTile .., tile_get ..⟩
  · exact ⟨_, exec_vecComplete_computed hw hv hh, OnlyTile.modTile .., tile_get ..⟩
  · exact ⟨_, exec_vecComplete_plain hw hv hh he, OnlyTile.modTile .., tile_get ..⟩

/-! ### Transfers (R73, R189, R234) -/

/-- An error of a class under 3 that a tile raises changes no tile (R447, R448). -/
theorem raiseTile_tile (s : State) (x y : TileId) {code : Nat} (ch d : Nat) (h : ErrLog.clsOf code < 3) :
    (s.raiseTile x code ch d).tiles[y] = s.tiles[y] := by
  unfold State.raiseTile
  split
  · rw [(raise_low s _ code x.val ch d _ h).1.1]
  · rfl

theorem endExpand_ops (s : State) (x : TileId) (o : Op) (d : DmaDesc) : (s.endExpand x o d).tiles[x].ops = s.tiles[x].ops := by
  have hpoison : (s.modTile x fun y => y.spPoison d.saddr d.rowlen).tiles[x].ops = s.tiles[x].ops := by rw [tile_get, spPoison_ops]
  unfold State.endExpand
  extract_lets
  split
  · exact hpoison
  · split
    · rw [tile_get, spWrite_ops]
    · exact hpoison
    · rw [raiseTile_tile _ _ _ _ _ (by decide)]
      exact hpoison

theorem endDma_ops (s : State) (x : TileId) (o : Op) : (s.endDma x o).tiles[x].ops = s.tiles[x].ops.filter (·.id != o.id) := by
  unfold State.endDma
  rw [tile_get, Tile.dropOp]
  split
  · rw [endExpand_ops]
  · rfl

theorem endDma_uncompressed {s : State} {x : TileId} {o : Op} (h : ((DmaDesc.parse o.desc).comp && !(DmaDesc.parse o.desc).out) = false) :
    s.endDma x o = s.modTile x fun y => y.dropOp o.id := by
  unfold State.endDma
  dsimp only
  rw [h]
  rfl

theorem exec_dmaComplete {s : State} {x : TileId} {p : PartId} {i : Nat} {o : Op}
    (ho : (s.tiles[x].ops.filter (·.engine == .dma))[i]? = some o) (hp : s.partOf x = some p) (hi : s.dmaIdle p x o.id = true) :
    exec (.dmaComplete x i) s = .next (s.endDma x o) := by
  change execDmaComplete x i s = _
  simp only [execDmaComplete, ho, hp, hi, if_true]

/-- The SEND of x to y and the RECV it meets leave their tiles (R73). -/
def State.metMesh (s : State) (x y : TileId) (a b : Op) : State := (s.modTile x fun z => z.dropOp a.id).modTile y fun z => z.dropOp b.id

section
variable {s : State} {x y : TileId} {p : PartId} {a b : Op}

theorem metMesh_rest (s : State) (x y : TileId) (a b : Op) : s.metMesh x y a b = { s with tiles := (s.metMesh x y a b).tiles } := rfl

theorem metMesh_src (h : x ≠ y) : (s.metMesh x y a b).tiles[x] = s.tiles[x].dropOp a.id := by
  simp [State.metMesh, h]

theorem metMesh_dst (h : x ≠ y) : (s.metMesh x y a b).tiles[y] = s.tiles[y].dropOp b.id := by
  simp [State.metMesh, h.symm]

theorem metMesh_other {z : TileId} (hx : z ≠ x) (hy : z ≠ y) : (s.metMesh x y a b).tiles[z] = s.tiles[z] := by
  simp [State.metMesh, hx, hy]

theorem meshMove_only (s : State) (x y : TileId) (m n : MeshDesc) : OnlyTile s (s.meshMove x y m n) y := OnlyTile.modTile ..

theorem meshMove_ops (s : State) (x y : TileId) (m n : MeshDesc) : (s.meshMove x y m n).tiles[y].ops = s.tiles[y].ops := by
  unfold State.meshMove
  extract_lets
  rw [tile_get, foldl_spPoison_ops _ (fun l => n.addr + 64 * l - m.addr), spWrite_ops]

/-- Lines without poison arrive as they were sent (R73, R210). -/
theorem meshMove_clean {m n : MeshDesc} (h : ∀ l ∈ linesOf m.addr m.len, l ∉ s.tiles[x].poison) :
    (s.meshMove x y m n).tiles[y] = s.tiles[y].spWrite n.addr (s.tiles[x].sp.read m.addr m.len) := by
  have hbad : (linesOf m.addr m.len).filter (s.tiles[x].poison.contains ·) = [] := List.filter_eq_nil_iff.mpr (by simpa using h)
  unfold State.meshMove
  rw [tile_get, hbad]
  rfl

variable (ha : s.meshHead x 4 y.val = some a) (hb : s.meshHead y 5 x.val = some b) (hp : s.partOf x = some p)
include ha hb hp

theorem exec_mesh_equal (h : (MeshDesc.parse a.desc).len = (MeshDesc.parse b.desc).len) : exec (.meshTransferDone x y) s =
    .next ((s.meshMove x y (MeshDesc.parse a.desc) (MeshDesc.parse b.desc)).metMesh x y a b) := by
  change execMeshTransferDone x y s = _
  simp only [execMeshTransferDone, ha, hb, hp, if_pos h]
  rfl

theorem exec_mesh_differ (h : (MeshDesc.parse a.desc).len ≠ (MeshDesc.parse b.desc).len) : exec (.meshTransferDone x y) s =
    .next (((s.metMesh x y a b).stopTile p x a.slot).stopTile p y b.slot) := by
  change execMeshTransferDone x y s = _
  simp only [execMeshTransferDone, ha, hb, hp, if_neg h]
  rfl

end

/-- Settles O33: the end of a DMA drops its operation; a transfer that meets drops both, after it has moved its bytes or before it
stops both tiles. -/
theorem transfersComplete : Obligations.TransfersComplete := by
  refine ⟨fun x p i o s ho hp hi => ?_, ?_⟩
  · refine ⟨_, exec_dmaComplete ho hp hi, rfl, endDma_ops s x o, fun h => ?_⟩
    rw [endDma_uncompressed h]
    exact ⟨OnlyTile.modTile .., tile_get ..⟩
  · rintro x y p a b _ _ s ha hb hp rfl rfl
    refine ⟨fun hlen hxy => ?_, fun hlen hxy => ?_⟩
    · refine ⟨_, exec_mesh_differ ha hb hp hlen, rfl, ?_, stopTile_stopped .., ?_, ?_⟩
      · rw [stopTile_stopped_other hxy, stopTile_stopped]
      · rw [stopTile_sp, stopTile_sp, metMesh_src hxy]; rfl
      · rw [stopTile_sp, stopTile_sp, metMesh_dst hxy]; rfl
    · obtain ⟨hrest, hkept⟩ := meshMove_only s x y (MeshDesc.parse a.desc) (MeshDesc.parse b.desc)
      refine ⟨_, exec_mesh_equal ha hb hp hlen, ?_, fun z hx hy => ?_, ?_, ?_, fun hclean => ?_⟩
      · rw [metMesh_rest, hrest]
      · rw [metMesh_other hx hy, hkept z hy]
      · rw [metMesh_src hxy, hkept x hxy]; rfl
      · rw [metMesh_dst hxy, Tile.dropOp, meshMove_ops]
      · rw [metMesh_dst hxy, meshMove_clean hclean]

/-! ### The report of a tile and its mark (R65, R343, R393) -/

section
variable {s : State} {x : TileId} {p : PartId}

theorem exec_tileComplete (hp : s.partOf x = some p) (hr : s.tiles[x].running = true) (hn : s.tiles[x].reported = false)
    (hops : s.tiles[x].ops = []) (hov : s.tiles[x].overflowed = []) (hend : s.tiles[x].atEnd = true ∨ s.parts[p].runStop.isSome = true) :
    exec (.tileComplete x) s = .next (s.tileReport p x) := by
  change execTileComplete x s = _
  simp only [execTileComplete, hp, hr, hn, hops, hov, Bool.not_false, Bool.true_and, List.isEmpty_nil, Bool.and_true]
  rw [if_pos (by simpa using hend)]

/-- While a tile of the partition has still to report, a report is noted and nothing more happens (R65). -/
theorem tileReport_early {y : TileId} (hy : y ∈ s.tilesOf p) (hne : y ≠ x) (hn : s.tiles[y].reported = false) :
    s.tileReport p x = s.modTile x fun z => { z with reported := true } := by
  have hall : ¬ ((s.tilesOf p).all fun t => (s.modTile x fun z => { z with reported := true }).tiles[t].reported) = true := by
    rw [List.all_eq_true]
    intro h
    have hry := h y hy
    rw [(OnlyTile.modTile s x _).2 y hne, hn] at hry
    cases hry
  unfold State.tileReport
  extract_lets u
  split
  · rfl
  · rw [if_neg]
    intro h
    exact hall (Bool.and_eq_true_iff.mp h).1

theorem tileReport_last {q : Nat} (hq : s.parts[p].run = some q) (he : s.parts[p].runEnd = none)
    (h : ∀ y, y ∈ s.tilesOf p → y ≠ x → s.tiles[y].reported = true) :
    s.tileReport p x = (s.modTile x fun z => { z with reported := true }).finishRun p q := by
  have hall : ((s.tilesOf p).all fun t => (s.modTile x fun z => { z with reported := true }).tiles[t].reported) = true := by
    rw [List.all_eq_true]
    intro y hy
    by_cases hne : y = x
    · rw [hne, tile_get]
    · simpa [hne] using h y hy hne
  unfold State.tileReport
  extract_lets u
  have hqu : u.parts[p].run = some q := hq
  have heu : u.parts[p].runEnd = none := he
  simp only [hqu, heu]
  exact if_pos (Bool.and_eq_true_iff.mpr ⟨hall, rfl⟩)

/-- While a tile of the partition does not stand at its mark, nothing freezes (R394). -/
theorem tryFreeze_unmarked {y : TileId} (hy : y ∈ s.tilesOf p) (hm : s.tiles[y].marked = false) : s.tryFreeze p = s := by
  unfold State.tryFreeze
  split
  · rfl
  · extract_lets
    rw [if_pos]
    simp only [Bool.or_eq_true, Bool.not_eq_true', List.all_eq_false]
    exact .inr ⟨y, hy, by simp only [hm]; decide⟩

/-- s once tile x of partition p stands at its mark m (R393). -/
def State.atMark (s : State) (p : PartId) (x : TileId) (m : Nat × Nat × Nat) : State :=
  (s.modTile x fun y => { y with marked := true, mark := y.mark.filter fun k => decide (m.1 < k.1) }).modFuller p
    fun f => { f with marks := f.marks ++ [(x, m.2.1, m.2.2)] }

theorem atMark_parts (s : State) (p : PartId) (x : TileId) (m : Nat × Nat × Nat) : PartsKept s (s.atMark p x m) p := fun q hq => by
  simp [State.atMark, State.modFuller, hq]

theorem atMark_marked (s : State) (p : PartId) (x : TileId) (m : Nat × Nat × Nat) : (s.atMark p x m).tiles[x].marked = true := by
  simp [State.atMark, State.modFuller]

theorem atMark_tiles (s : State) (p : PartId) (x : TileId) (m : Nat × Nat × Nat) : TilesKept s (s.atMark p x m) x := fun y hy => by
  simp [State.atMark, State.modFuller, hy]

theorem exec_tileMark {m : Nat × Nat × Nat} (hp : s.partOf x = some p) (hr : s.reachedMark p x = some m) (hm : s.tiles[x].marked = false) :
    exec (.tileMark x) s = .next ((s.atMark p x m).tryFreeze p) := by
  change execTileMark x s = _
  simp only [execTileMark, hp, hr, hm, Bool.false_eq_true, if_false]
  rfl

end

/-- Settles O34: a report that is not the last, and a mark that is not the last, change what they note; the last report is
`finishRun`, the last mark `tryFreeze`. -/
theorem tilesReportAndMark : Obligations.TilesReportAndMark := by
  refine fun x p s hp => ⟨fun hr hn hops hov hend => ⟨?_, fun q hq he hall => ?_⟩, ?_⟩
  · rintro ⟨y, hy, hne, hny⟩
    refine ⟨_, exec_tileComplete hp hr hn hops hov hend, ?_⟩
    rw [tileReport_early hy hne hny]
    exact ⟨OnlyTile.modTile .., tile_get ..⟩
  · exact ⟨_, exec_tileComplete hp hr hn hops hov hend, tileReport_last hq he hall⟩
  · intro m u hr hm hu
    obtain rfl : u = s.atMark p x m := hu
    refine ⟨_, exec_tileMark hp hr hm, rfl, ?_⟩
    rintro ⟨y, hy, hne, hmy⟩
    have hkept := atMark_tiles s p x m
    rw [tryFreeze_unmarked (s := s.atMark p x m) hy (by rw [hkept y hne, hmy])]
    exact ⟨rfl, atMark_parts s p x m, hkept, atMark_marked s p x m⟩

end Sys2Proof.Machine
end

section
/-! Scaling (04): JOB_OPEN opens the partition's job over a compact that passes every check. -/

namespace Sys2Proof.Machine

/-- The job that JOB_OPEN opens over compact c in partition p, its ML-KEM key pair drawn after the slot secrets (R111, R145, R338). -/
def openedJob (s : State) (p : PartId) (c : Bytes) : Job :=
  { num := Compact.job c, compact := c, mcomp := shake256 64 c, mprog := zeros 64, mpeer := zeros 64,
    kemDraw := s.free + (s.keyRange p).2, jr := none, link := none, imports := [], released := [], keySet := false, lossN := 0,
    dropKey := Compact.dropkey c, members := (Compact.members c).map fun m => ⟨BitVec.ofNat 16 m, false, none, m == s.me, false, [], 1, 0, none⟩,
    announcing := Compact.leader c != s.me, nonce := none, owesReport := false, eraCeil := 1, eraAsked := none, sidCeil := 0,
    sidAsked := none, sidNext := 0, eseq := List.replicate 32 0, keyset := none }

/-- A partition in OPENING with job j and these slot secrets: its tags and its counts are cleared (R329, R338, R370). -/
def Part.opened (x : Part) (j : Job) (secrets : List (Nat × Bytes)) : Part :=
  { x with job := some j, slotSecrets := secrets, pstate := .opening, integ := 0, ilock := false, pwrLogged := false,
           win := { x.win with tags := [], fenceCnt := 0 }, log := { x.log with errCnt := 0 } }

/-- A tile whose regulator store is empty (R111). -/
def Tile.emptyRegulator (y : Tile) : Tile := { y with reg := [], rgErr := [], regUsed := [], regSteps := [] }

section
variable (s : State) (p : PartId) (c : Bytes)

theorem openJob_eq : s.openJob p c =
    (s.tilesOf p).foldl (fun s t => s.modTile t Tile.emptyRegulator)
      ({ s with free := s.free + (s.keyRange p).2 + 1 }.modPart p fun x => x.opened (openedJob s p c) (s.drawSlots p).1) := by
  have hdraw : s.drawSlots p = ((s.drawSlots p).1, { s with free := s.free + (s.keyRange p).2 }) :=
    Prod.ext rfl (drawSlots_spec s p).2
  unfold State.openJob
  rw [hdraw]
  rfl

theorem openJob_rest : s.openJob p c =
    { { s with free := s.free + (s.keyRange p).2 + 1 }.modPart p (fun x => x.opened (openedJob s p c) (s.drawSlots p).1) with
      tiles := (s.openJob p c).tiles } := by
  rw [openJob_eq]
  exact foldl_modTile_rest _ (fun _ => Tile.emptyRegulator) _

theorem openJob_parts_free :
    s.openJob p c = { s with parts := (s.openJob p c).parts, tiles := (s.openJob p c).tiles, free := s.free + (s.keyRange p).2 + 1 } := by
  rw [openJob_rest]
  rfl

theorem openJob_part : (s.openJob p c).parts[p] = s.parts[p].opened (openedJob s p c) (s.drawSlots p).1 := by
  rw [openJob_rest]
  exact part_get ..

theorem openJob_partsKept : PartsKept s (s.openJob p c) p := fun q hq => by
  rw [openJob_rest]
  exact (OnlyPart.modPart { s with free := s.free + (s.keyRange p).2 + 1 } p _).2 q hq

theorem openJob_tile (x : TileId) :
    (s.openJob p c).tiles[x] = if s.partOf x = some p then s.tiles[x].emptyRegulator else s.tiles[x] := by
  rw [openJob_eq, foldl_modTile _ (tilesOf_nodup s p)]
  simp only [mem_tilesOf]
  rfl

end

section
variable {s : State} {p : PartId} {c : Cmd} {v : Service} {b : Bytes} {sigOk : Bool}

theorem exec_jobOpen_unread (hc : s.serving (some p) 0x01 = some c) (hv : s.parts[p].service = some v) :
    exec (.jobOpen p none sigOk) s = .next (noted s (some p) v stFailed 2 0) := by
  change execJobOpen p none sigOk s = _
  simp only [execJobOpen, hc, outcome_noted s (some p) v _ _ _ hv]

theorem exec_jobOpen_refused (hc : s.serving (some p) 0x01 = some c) (hv : s.parts[p].service = some v)
    (h : s.parts[p].pstate ≠ .idle ∨ s.compactOk p c b sigOk = false) :
    exec (.jobOpen p (some b) sigOk) s = .next (noted s (some p) v stRefused 2 0) := by
  have hfail : ¬ (s.parts[p].pstate == .idle && s.compactOk p c b sigOk) = true := by
    rw [Bool.and_eq_true_iff, beq_iff_eq]
    rintro ⟨hi, hok⟩
    exact h.elim (· hi) fun hbad => Bool.false_ne_true (hbad.symm.trans hok)
  change execJobOpen p (some b) sigOk s = _
  simp only [execJobOpen, hc]
  rw [if_neg hfail, outcome_noted s (some p) v _ _ _ hv]

theorem exec_jobOpen_opened (hc : s.serving (some p) 0x01 = some c) (hv : s.parts[p].service = some v)
    (hi : s.parts[p].pstate = .idle) (hok : s.compactOk p c b sigOk = true) :
    exec (.jobOpen p (some b) sigOk) s = .next (noted (s.openJob p b) (some p) v stOk 0 0) := by
  have hv' : (s.openJob p b).service (some p) = some v := by
    change (s.openJob p b).parts[p].service = some v
    rw [openJob_part]
    exact hv
  change execJobOpen p (some b) sigOk s = _
  simp only [execJobOpen, hc]
  rw [if_pos (Bool.and_eq_true_iff.mpr ⟨beq_iff_eq.mpr hi, hok⟩), outcome_noted _ _ v _ _ _ hv']

end

/-- Settles O15: an unread compact and a failed check only note their outcome; a compact that passes leaves `openJob`'s state, and the
noting of its OK touches the partition alone. -/
theorem jobOpenOpensJob : Obligations.JobOpenOpensJob := by
  intro p c v sigOk s hc hv
  refine ⟨exec_jobOpen_unread hc hv, fun b h => exec_jobOpen_refused hc hv h, fun b hi hok => ?_⟩
  obtain ⟨⟨hrest, hkept⟩, hpart⟩ := noted_only (s.openJob p b) p v stOk 0 0
  have hopened := exec_jobOpen_opened hc hv hi hok
  generalize noted (s.openJob p b) (some p) v stOk 0 0 = t at *
  have htiles : t.tiles = (s.openJob p b).tiles := by rw [hrest]
  have hfree : t.free = s.free + (s.keyRange p).2 + 1 := by rw [hrest, openJob_parts_free]
  have hsecrets : t.parts[p].slotSecrets = (s.drawSlots p).1 := by rw [hpart, openJob_part]; rfl
  refine ⟨t, openedJob s p b, hopened, ?_, fun q hq => (hkept q hq).trans (openJob_partsKept s p b q hq), ?_,
    rfl, rfl, rfl, rfl, rfl, rfl, rfl, rfl, rfl, hsecrets.trans (drawSlots_spec s p).1, by omega, fun x => ?_⟩
  · rw [htiles, hfree, hrest, openJob_parts_free]
  · rw [hsecrets, hpart, openJob_part]
    rfl
  · rw [htiles]
    exact openJob_tile s p b x

end Sys2Proof.Machine
end

section
/-! Memory (06): patrol and refresh of a channel, and the events that take a start on from power good to a channel initialised. -/

namespace Sys2Proof.Machine

/-! ### Patrol and refresh (R175, R178, R180, R460) -/

/-- The channel once its patrol has read line n: it stands at the next line, and a pass that ends starts the counts of the next. -/
def Chan.patrolledTo (n : Nat) (c : Chan) : Chan :=
  { c with patrol := if n + 1 = channelLines then 0 else n + 1
           corrLogged := c.corrLogged && !decide (n + 1 = channelLines)
           pins := if n + 1 = channelLines then List.replicate 24 0 else c.pins }

/-- s once the patrol has read line n of a channel and dealt with its outcome: a corrected line is written back, an
uncorrectable one goes to the seal slice. -/
def State.patrolLine (s : State) (x : TileId) (k : ChanId) (n : Nat) (l : LineIn) : State :=
  match (s.readLine x k n l none).1.outcome, l with
  | .corr, .data errs =>
    (s.readLine x k n l none).2.modChan x k fun c => c.storeLine n (decodeLine (flipSyms (c.stored n) errs) none).2.1
  | .uncorr, _ => (s.readLine x k n l none).2.patrolFail x k n l
  | _, _ => (s.readLine x k n l none).2

theorem Chan.patrolledTo_of_lt {n : Nat} (h : n + 1 < channelLines) (c : Chan) : c.patrolledTo n = { c with patrol := n + 1 } := by
  have hne : n + 1 ≠ channelLines := Nat.ne_of_lt h
  simp only [Chan.patrolledTo, if_neg hne, decide_eq_false hne, Bool.not_false, Bool.and_true]

section
variable (s : State) (x : TileId) (k : ChanId)

theorem modChan_chan_same (f : Chan → Chan) : (s.modChan x k f).tiles[x].chans[k] = f s.tiles[x].chans[k] := by
  rw [chan_get, chan_same]

theorem modChan_chan_ne (f : Chan → Chan) {j : ChanId} (h : j ≠ k) : (s.modChan x k f).tiles[x].chans[j] = s.tiles[x].chans[j] := by
  rw [chan_get, chan_ne _ _ _ _ h]

theorem exec_refresh : exec (.refresh x k) s =
    if s.tiles[x].chans[k].trained && !s.tiles[x].chans[k].selfRefresh && s.tended x then
      .next (s.modChan x k fun c => { c with refreshes := c.refreshes + 1 })
    else .next s := rfl

theorem exec_patrolRead (l : LineIn) : exec (.patrolRead x k l) s =
    if s.tiles[x].chans[k].trained && s.tiles[x].chans[k].init && !s.tiles[x].chans[k].selfRefresh && s.tended x && s.patrols x then
      .next ((s.patrolLine x k s.tiles[x].chans[k].patrol l).modChan x k (Chan.patrolledTo s.tiles[x].chans[k].patrol))
    else .next s := rfl

variable (n : Nat) (errs : List (Nat × BitVec 8))

theorem readLine_outcome (keyid : Option Nat) : (s.readLine x k n (.data errs) keyid).1 =
    (decodeLine (flipSyms (s.tiles[x].chans[k].stored n) errs) keyid).1 := rfl

theorem readLine_clean (keyid : Option Nat)
    (h : (decodeLine (flipSyms (s.tiles[x].chans[k].stored n) errs) keyid).1.outcome = .clean) :
    (s.readLine x k n (.data errs) keyid).2 = s := by
  simp [State.readLine, h, -Fin.getElem_fin]

theorem patrolLine_clean (h : (decodeLine (flipSyms (s.tiles[x].chans[k].stored n) errs) none).1.outcome = .clean) :
    s.patrolLine x k n (.data errs) = s := by
  simp only [State.patrolLine, readLine_outcome, h, readLine_clean s x k n errs none h]

theorem patrolLine_corr (h : (decodeLine (flipSyms (s.tiles[x].chans[k].stored n) errs) none).1.outcome = .corr) :
    s.patrolLine x k n (.data errs) = (s.readLine x k n (.data errs) none).2.modChan x k fun c =>
      c.storeLine n (decodeLine (flipSyms (c.stored n) errs) none).2.1 := by
  simp only [State.patrolLine, readLine_outcome, h]

end

/-- Settles O38: each of the two is one guarded update of its channel; before the last line of a pass it moves the patrol alone, on
the state that the outcome of the read leaves. -/
theorem patrolAndRefresh : Obligations.PatrolAndRefresh := by
  intro x k s
  simp only [exec_refresh, exec_patrolRead]
  refine ⟨fun hidle => ?_, fun hidle l => ?_, fun htrained hself htended => ⟨?_, fun hinit hpatrols l n hn => ?_⟩⟩
  · obtain h | h | h := hidle <;> simp [h, -Fin.getElem_fin]
  · obtain h | h := hidle <;> simp [h, -Fin.getElem_fin]
  · refine ⟨_, if_pos (by simp [htrained, hself, htended, -Fin.getElem_fin]), OnlyTile.modChan s x k _, fun j hj => ?_, ?_⟩
    · exact modChan_chan_ne s x k _ hj
    · exact modChan_chan_same s x k _
  · subst hn
    refine ⟨_, if_pos (by simp [htrained, hinit, hself, htended, hpatrols, -Fin.getElem_fin]), by rw [modChan_chan_same]; rfl, ?_⟩
    rintro errs d rfl rfl hlt
    rw [funext (Chan.patrolledTo_of_lt hlt)]
    refine ⟨fun hclean _ => ?_, fun hcorr => by rw [patrolLine_corr s x k _ errs hcorr]⟩
    rw [patrolLine_clean s x k _ errs hclean]
    exact ⟨OnlyTile.modChan s x k _, fun j hj => modChan_chan_ne s x k _ hj, modChan_chan_same s x k _⟩

/-! ### The steps of a start (R182, R477-R482, R519, R532) -/

section
variable (s : State) (cert a b : Bool)

theorem exec_powerGood (romOk : Bool) : exec (.powerGood romOk cert a b) s =
    if !s.board.pwrGood || s.boot.phase != .none || s.board.oscLost then .next s
    else if romOk then .next (s.beginStart cert a b).afterChoice else .next (s.beginStart cert a b).holdRom := rfl

/-- A ROM hold keeps the rails off (R480; log 30). -/
theorem holdRom_board : s.holdRom.board.pwrGood = false ∧ s.holdRom.board.romHold = true := ⟨rfl, rfl⟩

/-- The key of the Jewel's own slot is drawn at each start (R182). -/
theorem beginStart_slot0 : (s.beginStart cert a b).jewel.slot0 = some (s.preempt.draw 32).1 := rfl

theorem beginStart_booting : (s.beginStart cert a b).boot.mstate = .booting ∧ (s.beginStart cert a b).boot.derived = true ∧
    (s.beginStart cert a b).clocks.jewel = 0 := ⟨rfl, rfl, rfl⟩

theorem exec_perstNRelease (u : State)
    (hu : u = { s with board := { s.board with perstN := true, perstReset := false, lastEdge := s.clocks.vaux } }) :
    exec .perstNRelease s =
      if !s.board.vauxOk || s.board.perstN then .next s else if s.boot.phase = .heldT2 then .next u.applyImage else .next u := by
  subst hu; rfl

end

section
variable (s : State) (x : TileId) (k : ChanId)

/-- s once a channel of partition p has trained or failed: after the partition's last one it scrubs, and the start goes on where that
was all it waited for (R478 t4). -/
def State.trainingDone (s : State) (p : PartId) : State :=
  State.tryReady (State.endRestart (if s.allTrained p && s.parts[p].pstate == .off then s.enterScrub p else s))

theorem exec_channelTrainingDone {p : PartId} (hp : s.partOf x = some p) (ok : Bool) : exec (.channelTrainingDone x k ok) s =
    if s.boot.phase != .training || s.tiles[x].chans[k].trained || s.tiles[x].chans[k].failed != 0 then .next s
    else .next ((if ok then s.modChan x k fun c => { c with trained := true, selfRefresh := false } else s.failChannel x k 1).trainingDone p) := by
  change execChannelTrainingDone x k ok s = _
  simp only [execChannelTrainingDone, hp]
  rfl

theorem exec_channelTrainingDone_unowned (hp : s.partOf x = none) (ok : Bool) : exec (.channelTrainingDone x k ok) s = .next s := by
  change execChannelTrainingDone x k ok s = _
  simp only [execChannelTrainingDone, hp]

theorem exec_channelInitDone {p : PartId} {q : Pounce} (hp : s.partOf x = some p) (hq : s.parts[p].pounce = some q) (u : State)
    (hu : u = s.modChan x k fun c => { c with mem := [], tree := none, wiped := none, init := true, patrol := 0 }) :
    exec (.channelInitDone x k) s =
      if s.tiles[x].chans[k].init then .next s
      else if u.allInit p then .next ((u.beginPounce p false none true).modPart p fun y => { y with pounce := some q })
      else .next u := by
  subst hu
  change execChannelInitDone x k s = _
  simp only [execChannelInitDone, hp, hq]

theorem exec_channelInitDone_unowned (hp : s.partOf x = none) : exec (.channelInitDone x k) s = .next s := by
  change execChannelInitDone x k s = _
  simp only [execChannelInitDone, hp]

theorem exec_channelInitDone_idle {p : PartId} (hp : s.partOf x = some p) (hq : s.parts[p].pounce = none) :
    exec (.channelInitDone x k) s = .next s := by
  change execChannelInitDone x k s = _
  simp only [execChannelInitDone, hp, hq]

end

/-- Settles O57: each event of a start is its equation, taken where the start waits for it and where it does not; what power good
leaves is what `beginStart` and `holdRom` set. -/
theorem startGoesOn : Obligations.StartGoesOn := by
  refine ⟨fun cert a b s => ⟨fun hpwr hphase hosc => ?_, fun hidle r => ?_, ?_, beginStart_booting s cert a b⟩,
    fun s u => ⟨fun hvaux hperst hu => ?_, fun hidle => ?_⟩,
    fun x k p s u v hp hu hv => ⟨fun hphase htrained hfailed => ?_, fun hidle ok => ?_⟩,
    fun x k p q s u hp hq hu => ?_,
    fun x k p s => ⟨fun hp => ⟨exec_channelTrainingDone_unowned s x k hp, exec_channelInitDone_unowned s x k hp⟩,
      exec_channelInitDone_idle s x k⟩⟩
  · have hrun : (!s.board.pwrGood || s.boot.phase != .none || s.board.oscLost) = false := by simp [hpwr, hphase, hosc]
    simp only [exec_powerGood, hrun]
    exact ⟨rfl, rfl, holdRom_board _⟩
  · rw [exec_powerGood, if_pos]
    obtain h | h | h := hidle <;> simp [h]
  · exact ⟨_, beginStart_slot0 s cert a b, draw_len _ 32⟩
  · have hrun : (!s.board.vauxOk || s.board.perstN) = false := by simp [hvaux, hperst]
    simp only [exec_perstNRelease s u hu, hrun]
    exact ⟨fun h => if_pos h, fun h => if_neg h⟩
  · rw [exec_perstNRelease s _ rfl, if_pos]
    obtain h | h := hidle <;> simp [h]
  · subst hu hv
    have hrun : (s.boot.phase != .training || s.tiles[x].chans[k].trained || s.tiles[x].chans[k].failed != 0) = false := by
      simp [hphase, htrained, hfailed, -Fin.getElem_fin]
    simp only [exec_channelTrainingDone s x k hp, hrun]
    exact ⟨rfl, rfl⟩
  · rw [exec_channelTrainingDone s x k hp, if_pos]
    obtain h | h | h := hidle <;> simp [h, -Fin.getElem_fin]
  · rw [exec_channelInitDone s x k hp hq u hu]
    refine ⟨fun hinit hall => ?_, fun hinit hall => ?_, fun hinit => if_pos hinit⟩
    · rw [if_neg (by rw [hinit]; decide), if_pos hall]
    · rw [if_neg (by rw [hinit]; decide), if_neg (by rw [hall]; decide)]

end Sys2Proof.Machine
end

section
/-! Seal slices (07): reads and writes of granules, counter-cache misses, and the root store. -/

namespace Sys2Proof.Machine

/-! ### A slice that serves no line of memory (R190, R212, R215) -/

/-- A slice that has served request i, and serves no command any more. -/
def Seal.without (y : Seal) (i : Nat) : Seal := { y with reqs := y.reqs.eraseIdx i, who := none }

theorem State.modSlice_modSlice (s : State) (x : TileId) (f g : Seal → Seal) :
    (s.modSlice x f).modSlice x g = s.modSlice x fun y => g (f y) := by
  simp [State.modSlice, State.modTile, vmod]

theorem Seal.touch_who (y : Seal) (m : MetaId) (w : Option (Bool × Nat)) : { y.touch m with who := w } = { y with who := w }.touch m := by
  simp only [Seal.touch, Seal.find]
  split <;> rfl

section
variable {s : State} {x : TileId} {g : Nat}

/-- Whether a slice refuses a granule is the partition's lockout and the slice's lost nodes (R212, R215). -/
theorem refused_modSlice {f : Seal → Seal} (hf : (f s.tiles[x].slice).lost = s.tiles[x].slice.lost) :
    (s.modSlice x f).refused x g = s.refused x g := by
  simp only [State.refused, Seal.lostAbove, slice_get, hf]
  rfl

theorem neverWritten_modSlice {f : Seal → Seal} (hf : (f s.tiles[x].slice).cache = s.tiles[x].slice.cache) :
    (s.modSlice x f).neverWritten x g = s.neverWritten x g := by
  simp only [State.neverWritten, Seal.find, slice_get, hf]

theorem readGranule_refused (keyid : Nat) (lines : List LineIn) (h : s.refused x g = true) :
    s.readGranule x g keyid lines = (s, lines, poisonedOut) := if_pos h

theorem mergeWrite_refused (keyid lo hi : Nat) (data : Bytes) (psn : List Nat) (lines : List LineIn) (h : s.refused x g = true) :
    s.mergeWrite x g keyid lo hi data psn lines = s := if_pos h

/-- A granule never written reads as zeros, from its leaf alone (R190). -/
theorem readGranule_neverWritten (keyid : Nat) (lines : List LineIn) (hr : s.refused x g = false) (hn : s.neverWritten x g = true) :
    s.readGranule x g keyid lines =
      (s.modSlice x fun y => (y.touch (.leaf (leafOfGran g))).touch (granTagId g), lines, ⟨zeros 512, []⟩) := by
  obtain ⟨c, hc, h0⟩ : ∃ c, s.tiles[x].slice.find (.leaf (leafOfGran g)) = some c ∧
      (leafMinor c.data (g % 64) = 0 ∧ leafMajor c.data = 0) := by
    simpa [State.neverWritten, Option.any_eq_true] using hn
  refine (if_neg (ne_true_of_eq_false hr)).trans ?_
  simp only [hc, if_pos h0]

end

/-! ### A read and a write of a granule (R188, R190, R205, R206, R208, R210, R400) -/

section
variable {s : State} {x : TileId} {i : Nat} {r : SealReq}

/-- A request that no line of memory answers leaves its slice's list, and nothing else of the module changes. -/
theorem modSlice_served {f : Seal → Seal} (hf : (f s.tiles[x].slice).reqs = s.tiles[x].slice.reqs.eraseIdx i) :
    OnlyTile s (s.modSlice x f) x ∧ (s.modSlice x f).tiles[x].chans = s.tiles[x].chans ∧
      (s.modSlice x f).tiles[x].slice.reqs = s.tiles[x].slice.reqs.eraseIdx i := by
  refine ⟨OnlyTile.modSlice s x f, ?_, ?_⟩
  · rw [slice_get]
  · rw [slice_get]; exact hf

theorem doRead_poisonHeld (lines : List LineIn) (h : State.poisonHeld s.tiles[x].slice r.gran = true) :
    s.doRead x i r lines = (s.dropReq x i).served x r poisonedOut := if_pos h

theorem doRead_refused (lines : List LineIn) (hp : State.poisonHeld s.tiles[x].slice r.gran = false) (hr : s.refused x r.gran = true) :
    s.doRead x i r lines = (s.modSlice x fun y => y.without i).served x r poisonedOut := by
  refine (if_neg (ne_true_of_eq_false hp)).trans ?_
  simp only [State.dropReq, State.modSlice_modSlice]
  rw [readGranule_refused]
  · rw [State.modSlice_modSlice]; rfl
  · rw [← hr]; exact refused_modSlice rfl

theorem doRead_neverWritten (lines : List LineIn) (hp : State.poisonHeld s.tiles[x].slice r.gran = false)
    (hr : s.refused x r.gran = false) (hn : s.neverWritten x r.gran = true) :
    s.doRead x i r lines =
      (s.modSlice x fun y => ((y.without i).touch (.leaf (leafOfGran r.gran))).touch (granTagId r.gran)).served x r ⟨zeros 512, []⟩ := by
  refine (if_neg (ne_true_of_eq_false hp)).trans ?_
  simp only [State.dropReq, State.modSlice_modSlice]
  rw [readGranule_neverWritten]
  · simp only [State.modSlice_modSlice, Seal.touch_who]; rfl
  · rw [← hr]; exact refused_modSlice rfl
  · rw [← hn]; exact neverWritten_modSlice rfl

theorem exec_sealGranuleRead (hi : s.tiles[x].slice.reqs[i]? = some r) (hd : r.data = none) (lines : List LineIn) :
    exec (.sealGranuleRead x i lines) s =
      if !State.mustWait s.tiles[x].slice i r && s.ready x r.gran false && !s.recordHeld x r && s.copyTurn x i r then
        .next (s.doRead x i r lines)
      else .next s := by
  change execSealGranuleRead x i lines s = _
  simp only [execSealGranuleRead, hi, hd, Option.isNone_none, Bool.true_and]

/-- A write that a slice refuses writes nothing, whatever was to become of its leaf (R212, R215). -/
theorem writeReq_refused (data : Bytes) (lines : List LineIn) (hr : s.refused x r.gran = true) (hs : s.tiles[x].slice.skips = []) :
    s.writeReq x r data lines = s := by
  have hnone : s.skipsWrap x r = false := by simp [State.skipsWrap, hr]
  simp only [State.writeReq, hs, hnone, List.any_nil, Bool.false_eq_true, if_false]
  exact mergeWrite_refused _ _ _ _ _ _ hr

theorem doWrite_refused {y : TileId} {id : Nat} (data : Bytes) (lines : List LineIn) (ho : r.owner = .tileDma y id)
    (hr : s.refused x r.gran = true) (hs : s.tiles[x].slice.skips = []) :
    s.doWrite x i r data lines = s.modSlice x fun y => y.without i := by
  have hkept : (s.modSlice x fun y => { y with who := s.ownerCmd x r.owner }).writeReq x r data lines =
      s.modSlice x fun y => { y with who := s.ownerCmd x r.owner } :=
    writeReq_refused _ _ (by rw [← hr]; exact refused_modSlice rfl) (by rw [slice_get]; exact hs)
  simp only [State.doWrite, State.asCmd, hkept, hr, Bool.not_true, Bool.false_and, Bool.false_eq_true, if_false]
  rw [writeServed_dma _ _ _ y id ho]
  simp only [State.dropReq, State.modSlice_modSlice]
  rfl

theorem exec_sealGranuleWrite {d : Bytes} (hi : s.tiles[x].slice.reqs[i]? = some r) (hd : r.data = some d) (lines : List LineIn) :
    exec (.sealGranuleWrite x i lines) s =
      if State.uncopied s.tiles[x].slice r.gran then
        .next (s.modSlice x fun y => { y with reqs := y.reqs.modify i fun q => { q with held := true } })
      else if r.held || State.mustWait s.tiles[x].slice i r || !s.ready x r.gran true then .next s
      else .next (s.doWrite x i r d lines) := by
  change execSealGranuleWrite x i lines s = _
  simp only [execSealGranuleWrite, hi, hd]

theorem exec_heldGranuleWrite
    (hi : s.tiles[x].slice.reqs.findIdx? (fun r => r.held && !State.uncopied s.tiles[x].slice r.gran) = some i) :
    exec (.heldGranuleWrite x) s =
      .next (s.modSlice x fun y => { y with reqs := y.reqs.modify i fun q => { q with held := false } }) := by
  change execHeldGranuleWrite x s = _
  simp only [execHeldGranuleWrite, hi]

end

/-- Settles O35: a read that nothing keeps back is `doRead`, and where no line answers it only its slice changes before its owner is
served. -/
theorem granuleReadServed : Obligations.GranuleReadServed := by
  intro x i r lines s hi hd
  rw [exec_sealGranuleRead hi hd]
  refine ⟨fun hwait => if_neg ?_, fun hfree hready hrec hturn =>
    ⟨_, if_pos ?_, rfl, doRead_poisonHeld lines, fun hp => ⟨fun hr => ?_, fun hr hn => ?_⟩⟩⟩
  · obtain h | h | h | h := hwait <;> simp [h, -Fin.getElem_fin]
  · simp [hfree, hready, hrec, hturn, -Fin.getElem_fin]
  · exact ⟨_, doRead_refused lines hp hr, modSlice_served rfl⟩
  · exact ⟨_, doRead_neverWritten lines hp hr hn, modSlice_served (by rw [touch_reqs, touch_reqs]; rfl)⟩

/-- Settles O36: a write is held, waits or is performed by the branch it meets, and a refused one only leaves its slice's list. -/
theorem granuleWritePerformed : Obligations.GranuleWritePerformed := by
  refine fun x s => ⟨fun i r d lines hi hd => ?_, fun i hi => ?_⟩
  · rw [exec_sealGranuleWrite hi hd]
    refine ⟨fun huncopied => ⟨_, if_pos huncopied, OnlyTile.modSlice s x _, slice_get s x _⟩, fun hcopied => ?_⟩
    rw [if_neg (ne_true_of_eq_false hcopied)]
    refine ⟨fun hwait => if_pos ?_, fun hheld hfree hready => ⟨_, if_neg ?_, rfl, fun y id ho hr hs => ?_⟩⟩
    · obtain h | h | h := hwait <;> simp [h, -Fin.getElem_fin]
    · simp [hheld, hfree, hready, -Fin.getElem_fin]
    · rw [doWrite_refused d lines ho hr hs]
      obtain ⟨honly, hchans, -⟩ := modSlice_served (s := s) (x := x) (i := i) (f := fun y => y.without i) rfl
      exact ⟨honly, hchans, by rw [slice_get]; rfl⟩
  · exact ⟨_, exec_heldGranuleWrite hi, OnlyTile.modSlice s x _, slice_get s x _⟩

/-! ### Counter-cache misses and root updates (R199, R200, R202) -/

section
variable (s : State) (x : TileId)

/-- A miss counts in development mode alone (R386, R500). -/
theorem countMiss_tile : OnlyTile s (s.countMiss x) x ∧
    (s.countMiss x).tiles[x] = { s.tiles[x] with ccmiss := s.tiles[x].ccmiss + s.dev.toNat } := by
  unfold State.countMiss
  cases hdev : s.dev
  · exact ⟨OnlyTile.refl s x, rfl⟩
  · exact ⟨OnlyTile.modTile s x _, tile_get s x _⟩

theorem exec_counterMissFill {i : Nat} {r : SealReq} (hi : s.tiles[x].slice.reqs[i]? = some r) (lines mirrors : List LineIn) :
    exec (.counterMissFill x i lines mirrors) s =
      if s.ready x r.gran r.data.isSome || !State.ahead s.tiles[x].slice r then .next s
      else .next ((s.asCmd x (s.ownerCmd x r.owner) fun s => s.fillMiss x r.gran r.keyid r.data.isSome lines mirrors).countMiss x) := by
  change execCounterMissFill x i lines mirrors s = _
  simp only [execCounterMissFill, hi]

/-- s with entry ix of the root store replaced. -/
def State.setRoot (s : State) (ix : Fin 2048) (r : Root) : State :=
  { s with jewel := { s.jewel with roots := s.jewel.roots.set ix r } }

theorem setRoot_same (ix : Fin 2048) (r : Root) : (s.setRoot ix r).jewel.roots[ix] = r := by
  simp [State.setRoot]

theorem setRoot_ne {ix j : Fin 2048} (r : Root) (h : j ≠ ix) : (s.setRoot ix r).jewel.roots[j] = s.jewel.roots[j] := by
  have hne : ix.val ≠ j.val := fun e => h (Fin.ext e.symm)
  simp [State.setRoot, Vector.getElem_set_ne, hne]

theorem exec_rootUpdate {q : Nat × Nat} {rest : List (Nat × Nat)} (h : s.tiles[x].slice.rootReqs = q :: rest) :
    exec (.rootUpdate x) s = .next ((s.setRoot (State.rootIdx x q.1) ⟨q.2, 0⟩).modSlice x fun y => { y with rootReqs := rest }) := by
  change execRootUpdate x s = _
  simp only [execRootUpdate, h]
  rfl

end

/-- Settles O37: a fill is its equation with the miss it counts, and a root update sets one entry and takes the oldest request. -/
theorem metadataFilledRootWritten : Obligations.MetadataFilledRootWritten := by
  refine fun x s => ⟨fun i r lines mirrors hi => ?_, fun q rest h => ?_⟩
  · rw [exec_counterMissFill s x hi]
    refine ⟨fun hidle => if_pos ?_, fun hready hahead => ?_⟩
    · obtain h | h := hidle <;> simp [h, -Fin.getElem_fin]
    · obtain ⟨honly, htile⟩ := countMiss_tile
        (s.asCmd x (s.ownerCmd x r.owner) fun s => s.fillMiss x r.gran r.keyid r.data.isSome lines mirrors) x
      exact ⟨_, _, if_neg (by simp [hready, hahead, -Fin.getElem_fin]), rfl, honly, htile⟩
  · obtain ⟨-, hkept⟩ := OnlyTile.modSlice (s.setRoot (State.rootIdx x q.1) ⟨q.2, 0⟩) x fun y => { y with rootReqs := rest }
    exact ⟨_, exec_rootUpdate s x h, rfl, hkept, slice_get _ x _, setRoot_same s _ _, fun j hj => setRoot_ne s _ hj⟩

/-! ### The scrub of the root store (R195, R213) -/

section
variable {s : State}

theorem scrubDue_none (h : ∀ i < 2048, s.clocks.jewel % 1000000 ≠ 488 * i) : s.scrubDue = none := by
  refine dif_neg fun hdue => ?_
  exact h _ hdue.2 (Nat.mul_div_cancel' (Nat.dvd_of_mod_eq_zero hdue.1)).symm

theorem scrubDue_some {ix : Fin 2048} (h : s.clocks.jewel % 1000000 = 488 * ix.val) : s.scrubDue = some ix := by
  have hix : s.clocks.jewel % 1000000 / 488 = ix.val := by omega
  have hdue : s.clocks.jewel % 1000000 % 488 = 0 ∧ s.clocks.jewel % 1000000 / 488 < 2048 := by omega
  exact (dif_pos hdue).trans (congrArg some (Fin.ext hix))

/-- Entry ix of the root store is entry ix mod 32 of tile ix / 32 (R195). -/
theorem rootIdx_split (ix : Fin 2048) : State.rootIdx ⟨ix.val / 32 % 64, Nat.mod_lt _ (by decide)⟩ (ix.val % 32) = ix := by
  apply Fin.ext
  simp only [State.rootIdx]
  omega

theorem exec_rootScrub_idle (flips : BitVec 64) (himg : s.boot.image.isSome = true) (h : s.scrubDue = none) :
    exec (.rootScrub flips) s = .next s := by
  change execRootScrub flips s = _
  have hrun : s.boot.image.isNone = false := by simpa using himg
  simp only [execRootScrub, hrun, h]
  rfl

/-- s once the bits now in error of entry ix are known, and the scrub stands at the next entry. -/
def State.scrubbing (s : State) (ix : Fin 2048) (flips : BitVec 64) : State :=
  { s with jewel := { s.jewel with
    roots := s.jewel.roots.set ix { s.jewel.roots[ix] with flips := s.jewel.roots[ix].flips ^^^ flips }
    scrub := (ix.val + 1) % 2048 } }

theorem exec_rootScrub {ix : Fin 2048} (flips : BitVec 64) (himg : s.boot.image.isSome = true) (h : s.scrubDue = some ix) :
    exec (.rootScrub flips) s = .next ((s.scrubbing ix flips).readRoot ⟨ix.val / 32 % 64, Nat.mod_lt _ (by decide)⟩ (ix.val % 32)) := by
  change execRootScrub flips s = _
  have hrun : s.boot.image.isNone = false := by simpa using himg
  simp only [execRootScrub, hrun, h]
  rfl

end

/-- Settles O39: at an entry's cycle the scrub is `readRoot` on the entry as it now stands, whose number of bits in error picks the
branch. -/
theorem rootScrubbed : Obligations.RootScrubbed := by
  refine fun flips s himg => ⟨fun hidle => exec_rootScrub_idle flips himg (scrubDue_none hidle), fun ix r u hdue hr hu => ?_⟩
  subst hr
  have hentry : u.jewel.roots[ix] = { s.jewel.roots[ix] with flips := s.jewel.roots[ix].flips ^^^ flips } := by
    subst hu; simp
  rw [exec_rootScrub flips himg (scrubDue_some hdue), show s.scrubbing ix flips = u from hu.symm,
    readRoot_eq u _ _ ix _ (rootIdx_split ix) hentry]
  refine ⟨fun hclean => ?_, fun htwo => ?_, fun p hone hp => ?_⟩
  · refine ⟨u, congrArg Host.Outcome.next (if_pos (by simp only [hclean]; decide)), by rw [hu], ?_, fun j hj => ?_⟩
    · rw [hentry, hclean]
    · subst hu; exact setRoot_ne s _ hj
  · rw [if_neg (by rw [htwo]; decide), if_neg (by rw [htwo]; decide), if_pos htwo]
  · rw [if_neg (by rw [hone]; decide), if_pos hone]
    have hpart (roots : Vector Root 2048) : ({ u with jewel := { u.jewel with roots := roots } } : State).partOf
        ⟨ix.val / 32 % 64, Nat.mod_lt _ (by decide)⟩ = some p := by subst hu; exact hp
    simp only [hpart]
    subst hu
    rfl

end Sys2Proof.Machine
end

section
/-! COPY_IN and COPY_OUT (07, R222, R223; 11, R347; 12, R379): when they start, and what they ask of the host and of a seal slice. -/

namespace Sys2Proof.Machine

theorem nextCopy_ends {s : State} {p : PartId} {mode opc : Nat} {e : InFlight} (h : s.nextCopy p mode (some opc) = some e) :
    e.ends = none := by
  obtain ⟨hstart, -⟩ := Option.filter_eq_some_iff.mp h
  exact (startable_spec _ _ _ _ hstart).2.2.2

/-- A copy that its stream or its place refuses ends at once as INVALID (R347). -/
theorem endNow_invalid {u : State} {p : PartId} {e : InFlight} (hurg : e.urgent = false) (hends : e.ends = none)
    (hfl : u.inFlight (some p) false e.cmd.seq = some e) :
    OnlyPart u (u.endNow p e.cmd.seq { status := stInvalid, cls := 2 }) p ∧
      Ended u (u.endNow p e.cmd.seq { status := stInvalid, cls := 2 }) (some p) e stInvalid 2 0 :=
  ⟨(endNow_only u p _ _).1, endNow_ended u p e _ hurg rfl rfl hends hfl⟩

/-! ### COPY_IN (R223, R347) -/

/-- The pair of reads that asks for chunk i of a stream, numbered from id (R223). -/
def chunkReads (st : Stream) (o : Owner) (id i : Nat) : List HostRead :=
  [⟨id, st.dbase + 4096 * i, 4096, o, i, false, none, none⟩, ⟨id + 1, st.tbase + 16 * i, 16, o, i, true, none, none⟩]

/-- The chunks of a run are asked for in order, two reads each. -/
theorem askChunk_fold_reads (p : PartId) (st : Stream) (o : Owner) (i n : Nat) (s : State) :
    ((List.range n).foldl (fun s j => s.askChunk p st (i + j) o) s).parts[p].dma.reads =
      s.parts[p].dma.reads ++ ((List.range n).map fun k => chunkReads st o (s.host.nextId + 2 * k) (i + k)).flatten := by
  induction n with
  | zero => simp
  | succ n ih =>
    obtain ⟨-, -, hid, -⟩ := askChunk_fold p st o (i + ·) (List.range n) s
    simp only [List.length_range] at hid
    simp only [List.range_succ, List.foldl_append, List.foldl_cons, List.foldl_nil, List.map_append, List.flatten_append,
      List.map_cons, List.map_nil, List.flatten_cons, List.flatten_nil, List.append_nil]
    rw [← List.append_assoc, ← ih, ← hid]
    simp [State.askChunk, chunkReads]

section
variable {p : PartId} {e : InFlight} {s u : State} (hu : s.settled (some p) = u)
include hu

theorem exec_copyIn_starts (he : u.nextCopy p 0 (some 0x20) = some e) {i : Nat} {st : Stream}
    (hst : u.stream p (e.cmd.arg0 % 2 ^ 32) = some (i, st))
    (hok : st.owner = 0xFF ∧ u.copyPlaceOk p e.cmd = true ∧ e.cmd.arg0 / 2 ^ 32 + ceilDiv e.cmd.arg2 4096 ≤ st.hw) :
    exec (.copyIn p) s = .next ((u.start (some p) false e.cmd.seq).startCopyIn p e.cmd st) := by
  subst hu
  change execCopyIn p s = _
  simp only [execCopyIn, he, hst, if_pos hok]

theorem exec_copyIn_invalid (he : u.nextCopy p 0 (some 0x20) = some e)
    (hno : ∀ i st, u.stream p (e.cmd.arg0 % 2 ^ 32) = some (i, st) →
      ¬(st.owner = 0xFF ∧ u.copyPlaceOk p e.cmd = true ∧ e.cmd.arg0 / 2 ^ 32 + ceilDiv e.cmd.arg2 4096 ≤ st.hw)) :
    exec (.copyIn p) s = .next (u.endNow p e.cmd.seq { status := stInvalid, cls := 2 }) := by
  subst hu
  change execCopyIn p s = _
  simp only [execCopyIn, he]
  cases hst : (s.settled (some p)).stream p (e.cmd.arg0 % 2 ^ 32) with
  | none => rfl
  | some st => exact if_neg (hno st.1 st.2 hst)

end

/-- s with copy k listed. -/
def State.listCopy (s : State) (p : PartId) (k : Copy) : State := s.modPart p fun x => { x with copies := x.copies ++ [k] }

/-- What COPY_IN changes as it starts: its partition, and the number of the next read. -/
theorem startCopyIn_spec (s : State) (p : PartId) (c : Cmd) (st : Stream) :
    s.startCopyIn p c st = { s with parts := (s.startCopyIn p c st).parts, host := { s.host with nextId := (s.startCopyIn p c st).host.nextId } } ∧
    PartsKept s (s.startCopyIn p c st) p ∧
    (s.startCopyIn p c st).parts[p] =
      { s.parts[p] with copies := s.parts[p].copies ++ [State.newCopy c true st.epoch], dma := (s.startCopyIn p c st).parts[p].dma } ∧
    (s.startCopyIn p c st).host.nextId = s.host.nextId + 2 * ceilDiv c.arg2 4096 ∧
    (s.startCopyIn p c st).parts[p].dma.reads = s.parts[p].dma.reads ++ ((List.range (ceilDiv c.arg2 4096)).map fun k =>
      chunkReads st (.copy c.seq) (s.host.nextId + 2 * k) (c.arg0 / 2 ^ 32 + k)).flatten := by
  have hfold : s.startCopyIn p c st = (List.range (ceilDiv c.arg2 4096)).foldl
      (fun s j => s.askChunk p st (c.arg0 / 2 ^ 32 + j) (.copy c.seq)) (s.listCopy p (State.newCopy c true st.epoch)) := by
    simp only [State.startCopyIn, State.newCopy, Nat.add_sub_cancel_left]
    rfl
  have hlisted : (s.listCopy p (State.newCopy c true st.epoch)).parts[p] =
    { s.parts[p] with copies := s.parts[p].copies ++ [State.newCopy c true st.epoch] } := part_get s p _
  obtain ⟨hrest, hkept, hid, -, hpart⟩ := askChunk_fold p st (.copy c.seq) (c.arg0 / 2 ^ 32 + ·) (List.range (ceilDiv c.arg2 4096))
    (s.listCopy p (State.newCopy c true st.epoch))
  have hreads := askChunk_fold_reads p st (.copy c.seq) (c.arg0 / 2 ^ 32) (ceilDiv c.arg2 4096) (s.listCopy p (State.newCopy c true st.epoch))
  rw [← hfold] at hrest hkept hid hpart hreads
  rw [hlisted] at hpart hreads
  rw [List.length_range] at hid
  exact ⟨hrest, fun q hq => (hkept q hq).trans (State.modPart_ne s p q _ hq), hpart, hid, hreads⟩

/-! ### COPY_OUT (R222, R347, R379) -/

section
variable {p : PartId} {e : InFlight} {s u : State} (hu : s.settled (some p) = u)
include hu

theorem exec_copyOut_starts (he : u.nextCopy p 0 (some 0x21) = some e) {i : Nat} {st : Stream}
    (hst : u.stream p (e.cmd.arg0 % 2 ^ 32) = some (i, st)) (howner : st.owner = 0xFF) (hplace : u.copyPlaceOk p e.cmd = true)
    (hpreset : st.preset = false) (hended : st.ended = false)
    (hlimit : e.cmd.arg0 / 2 ^ 32 + ceilDiv e.cmd.arg2 4096 ≤ st.limit)
    (hkey : st.ksrc = 0 ∨ State.releasedTo (u.compact p) (e.cmd.arg1 / 2 ^ 56 - (u.keyRange p).1) (st.ksrc - 1) = true)
    (hchunk : e.cmd.arg0 / 2 ^ 32 = st.hwD ∨
      (e.cmd.arg0 / 2 ^ 32 = 0 ∧ st.epochD ≠ 0xFFFFFFFF ∧ u.parts[p].copies.any (·.sid == st.sid) = false)) :
    exec (.copyOut p) s = .next ((u.start (some p) false e.cmd.seq).startCopyOut p e.cmd st) := by
  subst hu
  change execCopyOut p s = _
  simp only [execCopyOut, he, hst]
  have hanew (h : e.cmd.arg0 / 2 ^ 32 = 0 ∧ 0 < st.hwD) :
      st.epochD ≠ 0xFFFFFFFF ∧ (s.settled (some p)).parts[p].copies.any (·.sid == st.sid) = false := by
    obtain hc | ⟨-, hepoch, hany⟩ := hchunk
    · omega
    · exact ⟨hepoch, hany⟩
  refine (if_neg ?form).trans ((if_neg ?key).trans ((if_neg ?busy).trans (if_neg ?epochs)))
  case form =>
    rw [howner, hplace, hpreset]
    rintro (h | h | h | ⟨hne, hne0⟩ | h)
    · exact h rfl
    · cases h
    · cases h
    · exact hchunk.elim hne fun hc => hne0 hc.1
    · omega
  case key =>
    rintro ⟨hne, hheld⟩
    exact absurd (hkey.resolve_left hne) (ne_true_of_eq_false hheld)
  case busy =>
    rintro ⟨h0, hlt, hany⟩
    exact ne_true_of_eq_false (hanew ⟨h0, hlt⟩).2 hany
  case epochs =>
    rintro (h | ⟨h0, hlt, hepoch⟩)
    · exact ne_true_of_eq_false hended h
    · exact (hanew ⟨h0, hlt⟩).1 hepoch

theorem exec_copyOut_invalid (he : u.nextCopy p 0 (some 0x21) = some e)
    (hno : ∀ i st, u.stream p (e.cmd.arg0 % 2 ^ 32) = some (i, st) → st.owner ≠ 0xFF ∨ u.copyPlaceOk p e.cmd = false ∨ st.preset = true ∨
      (e.cmd.arg0 / 2 ^ 32 ≠ st.hwD ∧ e.cmd.arg0 / 2 ^ 32 ≠ 0) ∨ st.limit < e.cmd.arg0 / 2 ^ 32 + ceilDiv e.cmd.arg2 4096) :
    exec (.copyOut p) s = .next (u.endNow p e.cmd.seq { status := stInvalid, cls := 2 }) := by
  subst hu
  change execCopyOut p s = _
  simp only [execCopyOut, he]
  cases hst : (s.settled (some p)).stream p (e.cmd.arg0 % 2 ^ 32) with
  | none => rfl
  | some st => exact if_pos (hno st.1 st.2 hst)

end

/-- The copy that a COPY_OUT lists: one that writes chunk 0 where chunks are written opens the stream's next epoch (R222). -/
def copyOutOf (c : Cmd) (st : Stream) : Copy :=
  State.newCopy c false (if c.arg0 / 2 ^ 32 = 0 ∧ 0 < st.hwD then st.epochD + 1 else st.epochD)

/-- A stream's entry x once such a copy is dispatched: its extent ends with the copy, and a new epoch starts empty (R222, R223). -/
def Stream.copiedOut (x : Stream) (c : Cmd) (st : Stream) : Stream :=
  { x with
    hwD := (copyOutOf c st).chunkEnd, epochD := (copyOutOf c st).epoch
    epoch := if c.arg0 / 2 ^ 32 = 0 ∧ 0 < st.hwD then (copyOutOf c st).epoch else x.epoch
    hw := if c.arg0 / 2 ^ 32 = 0 ∧ 0 < st.hwD then 0 else x.hw }

/-- The partition with such a copy listed. -/
def Part.copyingOut (x : Part) (c : Cmd) (st : Stream) : Part :=
  { x with
    copies := x.copies ++ [copyOutOf c st]
    streams := x.streams.map fun y => if y.2.sid == (copyOutOf c st).sid then (y.1, y.2.copiedOut c st) else y }

/-- The reads that such a copy asks of its tile's seal slice, a granule each. -/
def copyOutReqs (c : Cmd) (st : Stream) : List SealReq :=
  (List.range (c.arg2 / 512)).map fun g =>
    ⟨(copyOutOf c st).ofs / 512 + g, (copyOutOf c st).keyid, .copy c.seq, 0, 512, none, [], 512 * g, false, false,
      ((copyOutOf c st).ofs / 512 + g, 1)⟩

theorem startCopyOut_eq (s : State) (p : PartId) (c : Cmd) (st : Stream) : s.startCopyOut p c st =
    (s.modPart p fun x => x.copyingOut c st).addReqs (copyOutOf c st).tile (copyOutReqs c st) := by
  simp only [State.startCopyOut, State.modStream, State.modPart_modPart, decide_eq_true_eq]
  rfl

/-- A command's start touches its partition's window alone. -/
theorem start_window (s : State) (p : PartId) (seq : Nat) : OnlyPart s (s.start (some p) false seq) p ∧
    ∃ w, (s.start (some p) false seq).parts[p] = { s.parts[p] with win := w } :=
  ⟨OnlyFn.start s (some p) _ _, _, part_get s p _⟩

theorem startCopyOut_part (s : State) (p : PartId) (c : Cmd) (st : Stream) :
    (s.startCopyOut p c st).parts[p] = s.parts[p].copyingOut c st := by
  rw [startCopyOut_eq]
  exact part_get s p _

theorem startCopyOut_rest (s : State) (p : PartId) (c : Cmd) (st : Stream) :
    s.startCopyOut p c st = { s with parts := (s.startCopyOut p c st).parts, tiles := (s.startCopyOut p c st).tiles } ∧
      PartsKept s (s.startCopyOut p c st) p ∧ TilesKept s (s.startCopyOut p c st) (copyOutOf c st).tile := by
  rw [startCopyOut_eq]
  exact ⟨rfl, fun q hq => State.modPart_ne s p q _ hq, fun y hy => State.modSlice_ne _ _ y _ hy⟩

theorem startCopyOut_tile (s : State) (p : PartId) (c : Cmd) (st : Stream) :
    (s.startCopyOut p c st).tiles[(copyOutOf c st).tile] = { s.tiles[(copyOutOf c st).tile] with
      slice := { s.tiles[(copyOutOf c st).tile].slice with
        reqs := s.tiles[(copyOutOf c st).tile].slice.reqs ++ copyOutReqs c st } } := by
  rw [startCopyOut_eq]
  exact slice_get _ _ _

/-- Settles O21: the branches of COPY_IN and COPY_OUT; a copy that starts marks its command started, and then asks for what it
moves. -/
theorem copiesStart : Obligations.CopiesStart := by
  refine ⟨fun p e s u hu he => ⟨fun i st hst howner hplace hhw => ?_, fun hurg hfl hno => ?_⟩,
    fun p e s u hu he => ⟨fun i st hst howner hplace hpreset hended hlimit hkey hchunk => ?_, fun hurg hfl hno => ?_⟩⟩
  · refine ⟨_, exec_copyIn_starts hu he hst ⟨howner, hplace, hhw⟩, ?_⟩
    obtain ⟨⟨hv, hvkept⟩, w, hwin⟩ := start_window u p e.cmd.seq
    generalize u.start (some p) false e.cmd.seq = v at *
    obtain ⟨hrest, hkept, hpart, hid, hreads⟩ := startCopyIn_spec v p e.cmd st
    have hhost : v.host = u.host := by rw [hv]
    rw [hhost] at hid hreads
    rw [hwin] at hpart hreads
    refine ⟨?_, fun q hq => (hkept q hq).trans (hvkept q hq), ?_, hid, hreads⟩
    · rw [hrest, hhost, hv]
    · rw [CommandSide, hpart]
  · exact ⟨_, exec_copyIn_invalid hu he hno, endNow_invalid hurg (nextCopy_ends he) hfl⟩
  · refine ⟨_, copyOutOf e.cmd st, exec_copyOut_starts hu he hst howner hplace hpreset hended hlimit hkey hchunk, ?_⟩
    obtain ⟨⟨hv, hvkept⟩, w, hwin⟩ := start_window u p e.cmd.seq
    generalize u.start (some p) false e.cmd.seq = v at *
    obtain ⟨hrest, hkept, htiles⟩ := startCopyOut_rest v p e.cmd st
    have hpart := startCopyOut_part v p e.cmd st
    have htile := startCopyOut_tile v p e.cmd st
    have hvtiles : v.tiles = u.tiles := by rw [hv]
    rw [hwin] at hpart
    refine ⟨?_, fun q hq => (hkept q hq).trans (hvkept q hq), rfl, ?_, ?_, fun y hy => ?_, ?_⟩
    · rw [hrest, hv]
    · rw [CommandSide, hpart]; rfl
    · rw [hpart]; rfl
    · rw [htiles y hy, hvtiles]
    · rw [htile, hvtiles]; rfl
  · exact ⟨_, exec_copyOut_invalid hu he hno, endNow_invalid hurg (nextCopy_ends he) hfl⟩

end Sys2Proof.Machine
end

section
/-! The ring (09): the messages by which the members of a job join their leader (12, R377, R378, R534) and raise their ceilings (R254;
13, R414), how a port trains and attests its neighbour, its optical engines and switches, and what it sends. -/

namespace Sys2Proof.Machine

/-! ### A partition's job and the messages of its Jewel (R257) -/

/-- From s to u the partition p alone changes, and it becomes x. -/
def PartBecomes (s u : State) (p : PartId) (x : Part) : Prop := OnlyPart s u p ∧ u.parts[p] = x

theorem PartBecomes.of_modJob {s : State} {p : PartId} {j : Job} (hj : s.parts[p].job = some j) (f : Job → Job) :
    PartBecomes s (s.modJob p f) p { s.parts[p] with job := some (f j) } := by
  refine ⟨OnlyPart.modJob s p f, (part_get s p _).trans ?_⟩
  rw [hj, Option.map_some]

theorem sendJewel_parts (s : State) (p : PartId) (dst : Nat) (m : JewelMsg) : (s.sendJewel p dst m).parts = s.parts :=
  inject_card s p p ..

theorem OnlyPart.sendJewel {s u : State} {p : PartId} (h : OnlyPart s u p) (dst : Nat) (m : JewelMsg) :
    PartAndPorts s (u.sendJewel p dst m) p :=
  (PartAndPorts.ofOnly h).trans (PartAndPorts.inject u p p ..)

/-! ### Joining (R377, R378, R534) -/

section
variable {s u : State} {p : PartId} {src : Nat}

theorem exec_opened {job : BitVec 16} {coord : Coord} (h : s.takeInbox2 p (fun _ m => m.isOpened) = some (src, .opened job coord, u)) :
    exec (.opened p) s = if u.isLeader p = true ∧ job.toNat = u.jobNum (some p) ∧ coord.toNat = src then
      .next (u.modMember p src fun m => { m with announced := true, joined := false, nonce := none }) else .next u := by
  change execOpened p s = _
  simp only [execOpened, h, Bool.and_eq_true, beq_iff_eq, and_assoc]

theorem exec_challenge {n : Bytes} (h : s.takeInbox2 p (fun _ m => m.isChallenge) = some (src, .challenge n, u)) :
    exec (.challenge p) s = if src = Compact.leader (u.compact p) ∧ u.parts[p].pstate = .opening ∧ u.isLeader p = false then
      .next (u.modJob p fun j => { j with nonce := some (fit 64 n), owesReport := true, announcing := false }) else .next u := by
  change execChallenge p s = _
  simp only [execChallenge, h]

theorem exec_memberReport {r : Bytes} (h : s.takeInbox2 p (fun _ m => m.isReport) = some (src, .report r, u)) (ok : Bool) :
    exec (.memberReport p ok) s = .next (if u.isLeader p = true then u.judgeReport p src r ok else u) := by
  change execMemberReport p ok s = _
  simp only [execMemberReport, h]
  exact (apply_ite Host.Outcome.next _ _ _).symm

theorem exec_joined (h : s.takeInbox2 p (fun _ m => m.isJoined) = some (src, .joined, u)) :
    exec (.joined p) s = if u.isLeader p = true ∧ (u.memberRec p src).any (·.keyed) = true then
      .next ((u.modMember p src fun m => { m with joined := true }).checkJoined p) else .next u := by
  change execJoined p s = _
  simp only [execJoined, h, Bool.and_eq_true]

/-- A key set that the leader sent over the last challenge is held where it opens (R377 t4). -/
theorem exec_keyset {ct iv body tag ss n : Bytes} {era sid : Nat} {j : Job}
    (h : s.takeInbox2 p (fun _ m => m.isKeyset) = some (src, .keyset ct iv body tag era sid, u)) (hj : u.parts[p].job = some j)
    (hn : j.nonce = some n) (hsrc : src = Compact.leader (u.compact p)) (hopen : u.parts[p].pstate = .opening) :
    exec (.keyset p (some ss)) s = .next (((Gcm.decrypt (ksetKey ss n) iv [] body tag).map fun b =>
      u.modJob p fun j => { j with keyset := some (b, era, sid) }).getD u) := by
  change execKeyset p (some ss) s = _
  simp only [execKeyset, h, hj, Option.bind_some, hn, if_pos (And.intro hsrc hopen)]
  cases Gcm.decrypt (ksetKey ss n) iv [] body tag <;> rfl

/-! A report at the leader: judged where it answers the challenge under way, else of no effect (R377 t2; log 38). -/

theorem judgeReport_unknown (r : Bytes) (ok : Bool) (hm : u.memberRec p src = none) : u.judgeReport p src r ok = u := by
  simp only [State.judgeReport, hm]

theorem judgeReport_asked {m : MemberRec} {n : Bytes} (r : Bytes) (ok : Bool) (hm : u.memberRec p src = some m) (hn : m.nonce = some n) :
    u.judgeReport p src r ok = if sub r 32 64 ≠ n then u else if u.reportOk p src r ok = true then u.sendKeyset p m n r else
      (u.modMember p src fun m => { m with announced := false, nonce := none }).raise p 0x1B 0x43 0 src := by
  simp only [State.judgeReport, hm, hn]

end

/-- A member's job with a key set installed: its secrets, its ceilings, and its counts of ESEQ (R253, R254, R377 t4, R414). -/
def Job.installed (j : Job) (b : Bytes) (era sid : Nat) : Job :=
  { j with
    jr := some (sub b 0 32)
    link := some (sub b 32 32)
    imports := State.ksetImports b
    released := State.ksetReleased b
    keySet := true
    eraCeil := max 1 era
    eraAsked := none
    sidCeil := sid
    sidAsked := none
    sidNext := sid
    eseq := if era = 0 then j.eseq else List.replicate 32 (era * 2 ^ 48)
    keyset := none }

theorem installKeys_eq {s : State} {p : PartId} {j : Job} {b : Bytes} {era sid : Nat} (hj : s.parts[p].job = some j)
    (hk : j.keyset = some (b, era, sid)) : s.installKeys p =
      (s.modPart p fun x => { x with pstate := .running, job := some (j.installed b era sid) }).sendJewel p (Compact.leader j.compact) .joined := by
  simp only [State.installKeys, hj, hk]
  rfl

/-- Settles O52: each message is its equation, which acts on the leader's record of the member or on the member's job where it comes
from whom it must, and is taken without effect elsewhere. -/
theorem membersJoin : Obligations.MembersJoin := by
  refine fun p src s u => ⟨fun job coord h => ?_, fun n j h hj => ?_, fun r ok h => ?_,
    fun ct iv body tag era sid ss n b j h hj hn hsrc hopen => ?_, fun j b era sid hj hk => ?_, fun h => ?_, ?_⟩
  · rw [exec_opened h]
    refine ⟨fun hl hjob hc => ⟨_, if_pos ⟨hl, hjob, hc⟩, OnlyPart.modJob .., rfl⟩, fun hno => if_neg ?_⟩
    simpa only [Classical.not_and_iff_not_or_not, Bool.not_eq_true, ne_eq] using hno
  · rw [exec_challenge h]
    refine ⟨fun hsrc hopen hl => ⟨_, if_pos ⟨hsrc, hopen, hl⟩, PartBecomes.of_modJob hj _⟩, fun hno => if_neg ?_⟩
    simpa only [Classical.not_and_iff_not_or_not, Bool.not_eq_false, ne_eq] using hno
  · rw [exec_memberReport h]
    refine ⟨fun m n hl hm hn hr => ?_, fun m n hm hn hr => ?_, fun hno => ?_⟩
    · rw [if_pos hl, judgeReport_asked r ok hm hn, if_neg (not_not_intro hr)]
      exact ⟨fun hok => ⟨_, rfl, if_pos hok⟩, fun hok => ⟨_, rfl, if_neg (ne_true_of_eq_false hok)⟩⟩
    · rw [judgeReport_asked r ok hm hn, if_pos hr, ite_self]
    · obtain hl | hm := hno
      · rw [if_neg (ne_true_of_eq_false hl)]
      · rw [judgeReport_unknown r ok hm, ite_self]
  · rw [exec_keyset h hj hn hsrc hopen]
    refine ⟨fun hb => ?_, fun hb => ?_⟩ <;> rw [hb]
    · exact ⟨_, rfl, PartBecomes.of_modJob hj _⟩
    · rfl
  · rw [installKeys_eq hj hk]
    refine ⟨(OnlyPart.modPart ..).sendJewel .., ?_⟩
    simp only [sendJewel_parts]
    exact part_get s p _
  · rw [exec_joined h]
    refine ⟨fun hl hk => ⟨_, if_pos ⟨hl, hk⟩, rfl⟩, fun hno => if_neg ?_⟩
    simpa only [Classical.not_and_iff_not_or_not, Bool.not_eq_true] using hno
  · refine ⟨fun h => ?_, fun h => ?_, fun h ok => ?_, fun h kem => ?_, fun h => ?_⟩
    · change execOpened p s = _
      simp only [execOpened, h]
    · change execChallenge p s = _
      simp only [execChallenge, h]
    · change execMemberReport p ok s = _
      simp only [execMemberReport, h]
    · change execKeyset p kem s = _
      simp only [execKeyset, h]
    · change execJoined p s = _
      simp only [execJoined, h]

/-! ### Era and SID ceilings (R254, R414) -/

section
variable {s u : State} {p : PartId} {src n : Nat}

theorem exec_eraRaise {j : Job} (hj : s.parts[p].job = some j) : exec (.eraRaise p) s =
    if State.eraDue j = false ∨ j.eraAsked = some (j.eraCeil + 1) then .next s
    else if s.isLeader p = true then
      .next ((s.modJob p fun j => { j with eraCeil := j.eraCeil + 1 }).modMember p s.me fun m => { m with eraCeil := j.eraCeil + 1 })
    else .next ((s.modJob p fun j => { j with eraAsked := some (j.eraCeil + 1) }).sendJewel p (Compact.leader j.compact)
      (.eraRaise (j.eraCeil + 1))) := by
  change execEraRaise p s = _
  simp only [execEraRaise, hj, Bool.or_eq_true, Bool.not_eq_true', beq_iff_eq]

theorem exec_eraCeilingReceive (h : s.takeInbox2 p (fun _ m => m.isEraRaise) = some (src, .eraRaise n, u)) :
    exec (.eraCeilingReceive p) s = if u.isLeader p = true ∧ (u.memberRec p src).isSome = true then
      .next ((u.modMember p src fun m => { m with eraCeil := max m.eraCeil n }).sendJewel p src (.eraAck n)) else .next u := by
  change execEraCeilingReceive p s = _
  simp only [execEraCeilingReceive, h, Bool.and_eq_true]

theorem exec_sidCeilingReceive (h : s.takeInbox2 p (fun _ m => m.isSidRaise) = some (src, .sidRaise n, u)) :
    exec (.sidCeilingReceive p) s = if u.isLeader p = true ∧ (u.memberRec p src).isSome = true then
      .next ((u.modMember p src fun m => { m with sidCeil := max m.sidCeil n }).sendJewel p src (.sidAck n)) else .next u := by
  change execSidCeilingReceive p s = _
  simp only [execSidCeilingReceive, h, Bool.and_eq_true]

theorem exec_eraAck {j : Job} (h : s.takeInbox2 p (fun _ m => m.isEraAck) = some (src, .eraAck n, u)) (hj : u.parts[p].job = some j) :
    exec (.eraAck p) s = if src = Compact.leader (u.compact p) ∧ j.eraAsked = some n then
      .next (u.modJob p fun j => { j with eraCeil := n, eraAsked := none }) else .next u := by
  change execEraAck p s = _
  simp only [execEraAck, h, hj, Option.bind_some]

theorem exec_sidCeilingAck {j : Job} (h : s.takeInbox2 p (fun _ m => m.isSidAck) = some (src, .sidAck n, u)) (hj : u.parts[p].job = some j) :
    exec (.sidCeilingAck p) s = if src = Compact.leader (u.compact p) ∧ j.sidAsked = some n then
      .next (u.modJob p fun j => { j with sidCeil := n, sidAsked := none }) else .next u := by
  change execSidCeilingAck p s = _
  simp only [execSidCeilingAck, h, hj, Option.bind_some]

end

/-- Settles O51: each row is its equation; a ceiling that the leader raises stands in its job and its own record, and a message between
the two changes a partition and what waits in the ports. -/
theorem ceilingsRaised : Obligations.CeilingsRaised := by
  refine fun p src n s u => ⟨fun j hj hdue hasked => ?_, fun j hj hno => ?_, fun h => ?_, fun j h hj => ?_, fun h => ?_, fun j h hj => ?_, ?_⟩
  · have hgo : ¬(State.eraDue j = false ∨ j.eraAsked = some (j.eraCeil + 1)) := by simp [hdue, hasked]
    rw [exec_eraRaise hj, if_neg hgo]
    refine ⟨fun hl => ⟨_, if_pos hl, (OnlyPart.modJob ..).trans (OnlyPart.modJob ..), ?_⟩,
      fun hl => ⟨_, if_neg (ne_true_of_eq_false hl), (OnlyPart.modJob ..).sendJewel .., ?_⟩⟩
    · have hraised := (PartBecomes.of_modJob hj fun j => { j with eraCeil := j.eraCeil + 1 }).2
      rw [State.modMember, (PartBecomes.of_modJob (by rw [hraised]) _).2]
      rfl
    · simp only [sendJewel_parts]
      exact (PartBecomes.of_modJob hj _).2
  · rw [exec_eraRaise hj, if_pos hno]
  · rw [exec_eraCeilingReceive h]
    refine ⟨fun hl hm => ⟨_, if_pos ⟨hl, hm⟩, (OnlyPart.modJob ..).sendJewel .., rfl⟩, fun hno => if_neg ?_⟩
    simpa only [Classical.not_and_iff_not_or_not, Bool.not_eq_true, Option.isSome_eq_false_iff, Option.isNone_iff_eq_none] using hno
  · rw [exec_eraAck h hj]
    exact ⟨fun hsrc hn => ⟨_, if_pos ⟨hsrc, hn⟩, PartBecomes.of_modJob hj _⟩, fun hno => if_neg (Classical.not_and_iff_not_or_not.mpr hno)⟩
  · rw [exec_sidCeilingReceive h]
    refine ⟨fun hl hm => ⟨_, if_pos ⟨hl, hm⟩, (OnlyPart.modJob ..).sendJewel .., rfl⟩, fun hno => if_neg ?_⟩
    simpa only [Classical.not_and_iff_not_or_not, Bool.not_eq_true, Option.isSome_eq_false_iff, Option.isNone_iff_eq_none] using hno
  · rw [exec_sidCeilingAck h hj]
    exact ⟨fun hsrc hn => ⟨_, if_pos ⟨hsrc, hn⟩, PartBecomes.of_modJob hj _⟩, fun hno => if_neg (Classical.not_and_iff_not_or_not.mpr hno)⟩
  · refine ⟨fun h => ?_, fun h => ?_, fun h => ?_, fun h => ?_⟩
    · change execEraCeilingReceive p s = _
      simp only [execEraCeilingReceive, h]
    · change execEraAck p s = _
      simp only [execEraAck, h]
    · change execSidCeilingReceive p s = _
      simp only [execSidCeilingReceive, h]
    · change execSidCeilingAck p s = _
      simp only [execSidCeilingAck, h]

/-! ### Lanes, training and acknowledgements of a port (R261, R262, R270, R273, R274) -/

/-- A command that changes one port where its guard holds, and nothing elsewhere: where it holds. -/
theorem PortBecomes.of_guarded {c : Instr} {s : State} {i : PortId} {f : Port → Port} {g : Prop} [Decidable g]
    (hc : exec c s = if g then .next (s.modPort i f) else .next s) (hg : g) :
    ∃ t, exec c s = .next t ∧ PortBecomes s t i (f s.ports[i]) :=
  ⟨_, hc.trans (if_pos hg), .of_modPort s i f⟩

section
variable (i : PortId) (s : State)

theorem exec_laneSignalLoss (b : Bool) : exec (.laneSignalLoss i b) s =
    if s.ports[i].state ≠ .unused ∧ s.ports[i].state ≠ .bypassed then
      .next (s.modPort i fun o => o.unlink (if b then .hold else .down)) else .next s := by
  change execLaneSignalLoss i b s = _
  unfold execLaneSignalLoss
  cases s.ports[i].state <;> rfl

theorem exec_signalHoldExpiry : exec (.signalHoldExpiry i) s =
    if s.ports[i].state = .down ∨ s.ports[i].state = .hold then .next (s.modPort i Port.startTrain) else .next s := by
  change execSignalHoldExpiry i s = _
  unfold execSignalHoldExpiry
  cases s.ports[i].state <;> rfl

theorem exec_retrainLimitRelease : exec (.retrainLimitRelease i) s =
    if s.ports[i].state = .hold ∧ s.ports[i].recentStarts.length < 4 then .next (s.modPort i Port.startTrain) else .next s := rfl

theorem exec_refusedRetry : exec (.refusedRetry i) s =
    if s.ports[i].state = .refused ∧ s.ports[i].refusedAt + 10 * portSecond ≤ s.ports[i].count then .next (s.modPort i Port.startTrain)
    else .next s := rfl

theorem exec_laneLock : exec (.laneLock i) s =
    if s.ports[i].state = .train then .next ((s.draw 32).2.modPort i fun o =>
      { o with state := .attest, nonce := some (s.draw 32).1, say := (s.draw 32).2.helloBytes i (s.draw 32).1 })
    else .next s := rfl

theorem exec_replayTimeout : exec (.replayTimeout i) s =
    if s.ports[i].state = .up ∧ s.ports[i].replay ≠ [] ∧ s.ports[i].resend = [] ∧ s.ports[i].ackCount + 2000 ≤ s.ports[i].count then
      .next (s.modPort i Port.goBack) else .next s := by
  change execReplayTimeout i s = _
  simp [execReplayTimeout]

theorem exec_ackStallRetrain : exec (.ackStallRetrain i) s =
    if s.ports[i].state = .up ∧ s.ports[i].replay ≠ [] ∧ s.ports[i].ackCount + 10000000 ≤ s.ports[i].count then
      .next (s.modPort i Port.startTrain) else .next s := by
  change execAckStallRetrain i s = _
  simp [execAckStallRetrain]

end

theorem goBack_of_outstanding {o : Port} (h : o.replay ≠ []) :
    o.goBack = { o with resend := o.replay.map (·.fseq), gobk := o.gobk + 1 } := by
  simp [Port.goBack, h]

/-- A start of training leaves no link keys, and trains where the limit of R274 allows it. -/
theorem startTrain_link (o : Port) : o.startTrain.keys = none ∧ o.startTrain.state = if o.recentStarts.length < 4 then .train else .hold := by
  have hlimit : o.startTrain = if o.recentStarts.length < 4 then _ else _ := rfl
  rw [hlimit]
  split <;> exact ⟨rfl, rfl⟩

/-- A draw and a change of port i leave the other pieces of the state, and the other ports. -/
theorem draw_modPort (s : State) (n : Nat) (i : PortId) (f : Port → Port) :
    (s.draw n).2.modPort i f = { s with ports := ((s.draw n).2.modPort i f).ports, free := ((s.draw n).2.modPort i f).free } ∧
      PortsKept s ((s.draw n).2.modPort i f) i ∧ ((s.draw n).2.modPort i f).ports[i] = f s.ports[i] :=
  ⟨rfl, fun j hj => port_ne _ i j f hj, port_get _ i f⟩

/-- Settles O48: each row but LANE_LOCK is one guarded change of its port; with the lanes locked the port's nonce is drawn too. -/
theorem portsTrain : Obligations.PortsTrain := by
  refine fun i s => ⟨fun b => ⟨fun hu hb => ?_, fun hoff => ?_⟩, fun h => ?_, fun hd hh => ?_, fun h hn => ?_, fun hno => ?_, fun h hn => ?_,
    fun hno => ?_, fun h => ?_, fun hno => ?_, fun hup hr => ⟨fun hs hc => ?_, fun hc => ?_⟩, fun hno => ⟨?_, ?_⟩, startTrain_link⟩
  · exact PortBecomes.of_guarded (exec_laneSignalLoss i s b) ⟨hu, hb⟩
  · rw [exec_laneSignalLoss, if_neg]
    exact fun ⟨hu, hb⟩ => hoff.elim hu hb
  · exact PortBecomes.of_guarded (exec_signalHoldExpiry i s) h
  · rw [exec_signalHoldExpiry, if_neg (not_or.mpr ⟨hd, hh⟩)]
  · exact PortBecomes.of_guarded (exec_retrainLimitRelease i s) ⟨h, hn⟩
  · rw [exec_retrainLimitRelease, if_neg]
    exact fun ⟨h, hn⟩ => hno.elim (· h) (Nat.not_le.mpr hn)
  · exact PortBecomes.of_guarded (exec_refusedRetry i s) ⟨h, hn⟩
  · rw [exec_refusedRetry, if_neg]
    exact fun ⟨h, hn⟩ => hno.elim (· h) (Nat.not_lt.mpr hn)
  · obtain ⟨hrest, hkept, hport⟩ := draw_modPort s 32 i fun o =>
      { o with state := .attest, nonce := some (s.draw 32).1, say := s.helloBytes i (s.draw 32).1 }
    exact ⟨_, (s.draw 32).1, (exec_laneLock i s).trans (if_pos h), hrest, hkept, draw_len s 32, hport⟩
  · rw [exec_laneLock, if_neg hno]
  · rw [← goBack_of_outstanding hr]
    exact PortBecomes.of_guarded (exec_replayTimeout i s) ⟨hup, hr, hs, hc⟩
  · exact PortBecomes.of_guarded (exec_ackStallRetrain i s) ⟨hup, hr, hc⟩
  · rw [exec_replayTimeout, if_neg]
    exact fun ⟨hup, hr, _⟩ => hno.elim (· hup) hr
  · rw [exec_ackStallRetrain, if_neg]
    exact fun ⟨hup, hr, _⟩ => hno.elim (· hup) hr

/-! ### HELLO, evidence and the loop (R270-R272, R276) -/

/-- A port once its neighbour's HELLO is noted (R270 t2, t3). -/
def Port.greeted (o : Port) (coord : Coord) (nport : Nat) (nonce : Bytes) (dist : Nat) (wrap : Bool) (ek : Option Nat) : Port :=
  { o with greeting := some ⟨[], coord.toNat, nport, nonce⟩, neighbour := coord.toNat, ndist := dist, wrap := wrap, ekDraw := ek }

section
variable (i : PortId) (n : Nat) (s : State)

theorem countFec_becomes : PortBecomes s (s.countFec i n) i { s.ports[i] with fecc := s.ports[i].fecc + n } := .of_modPort s i _

/-- What a port knows of its attestation does not depend on the codewords corrected in a frame. -/
theorem countFec_attestation : (s.countFec i n).ports[i].state = s.ports[i].state ∧ (s.countFec i n).ports[i].greeting = s.ports[i].greeting ∧
    (s.countFec i n).ports[i].nonce = s.ports[i].nonce ∧ (s.countFec i n).ports[i].keys = s.ports[i].keys := by
  simp only [(countFec_becomes i n s).2, and_self]

theorem exec_crsync (fec : Bool) (wire : Bytes) (ps : Nat) : exec (.crsync i fec n wire ps) s =
    if s.ports[i].state = .attest ∧ s.ports[i].keys.isSome = true then
      if 380000 < ps then .next ((s.countFec i n).modPort i fun o => o.refuse 6)
      else .next ((s.modPort i fun o => { o with loopOk := true }).receive i fec n wire).refreshWaits
    else .next (s.receive i fec n wire).refreshWaits := rfl

end

section
variable {i : PortId} {s : State} (ha : s.ports[i].state = .attest) (n : Nat)
include ha

/-- A HELLO in ATTEST: the port is refused, or its neighbour is noted, and the D+ end draws its encapsulation key and has its
evidence to say. -/
theorem exec_hello (coord : Coord) (nport : Nat) (nonce digest : Bytes) (hg : s.ports[i].greeting = none) :
    exec (.hello i coord nport nonce digest n) s = .next ((s.helloRefusal i coord.toNat nport digest).elim
      (if portPlus i = true then
        ({ (s.countFec i n).modPort i fun o => o.greeted coord nport nonce (s.stepsTo i coord.toNat)
            (decide (coordDim coord.toNat (portDim i) < coordDim s.me (portDim i))) (some s.free) with free := s.free + 1 } : State).sayEvidence
          i (s.ports[i].nonce.getD []) nonce (ekOf s.free) true
      else
        (s.countFec i n).modPort i fun o => o.greeted coord nport nonce (s.stepsTo i coord.toNat)
          (decide (coordDim s.me (portDim i) < coordDim coord.toNat (portDim i))) none)
      fun r => (s.countFec i n).modPort i fun o => o.refuse r) := by
  obtain ⟨hst, hgr, hno, -⟩ := countFec_attestation i n s
  have hsame : (s.countFec i n).helloRefusal i coord.toNat nport digest = s.helloRefusal i coord.toNat nport digest := rfl
  change execHello i coord nport nonce digest n s = _
  simp only [execHello, hst, hgr, hno, hsame, ha, hg, Option.isNone_none, and_self, if_true]
  cases s.helloRefusal i coord.toNat nport digest with
  | some r => rfl
  | none => cases portPlus i <;> rfl

variable {g : Greeting} {mine : Bytes} (hg : s.ports[i].greeting = some g) (hn : s.ports[i].nonce = some mine) (hk : s.ports[i].keys = none)
include hg hn hk

/-- The D+ end's evidence at the D- end: the port is refused, or holds its keys and has its own evidence to say. -/
theorem exec_evidenceDPlus (chain report ek : Bytes) (ok : Bool) (hp : portPlus i = false) :
    exec (.evidenceDPlus i chain report ek ok n) s = .next ((s.evidenceRefusal report ok).elim
      (({ s.countFec i n with free := s.free + 1 } : State).modPort i (fun o => o.keyed
          (linkKeys false ((List.range 32).map (Config.kemSsByte ek s.free)) g.peerNonce mine (keyDigest (reportKey report)) (keyDigest s.boot.dpk))
          (keyDigest (reportKey report))) |>.sayEvidence i g.peerNonce mine ((List.range 1088).map (Config.kemCtByte ek s.free)) false)
      fun r => (s.countFec i n).modPort i fun o => o.refuse r) := by
  obtain ⟨hst, hgr, hno, hke⟩ := countFec_attestation i n s
  have hsame : (s.countFec i n).evidenceRefusal report ok = s.evidenceRefusal report ok := rfl
  change execEvidenceDPlus i chain report ek ok n s = _
  simp only [execEvidenceDPlus, hst, hgr, hno, hke, hsame, ha, hg, hn, hk, hp]
  cases s.evidenceRefusal report ok <;> rfl

/-- The D- end's evidence at the D+ end: the port is refused, also where decapsulation fails, or holds its keys. -/
theorem exec_evidenceDMinus (chain report ct : Bytes) (ok : Bool) (kem : Option Bytes) (hp : portPlus i = true) :
    exec (.evidenceDMinus i chain report ct ok kem n) s = .next ((s.countFec i n).modPort i fun o => (s.evidenceRefusal report ok).elim
      (kem.elim (o.refuse 2) fun ss =>
        o.keyed (linkKeys true ss mine g.peerNonce (keyDigest s.boot.dpk) (keyDigest (reportKey report))) (keyDigest (reportKey report)))
      fun r => o.refuse r) := by
  obtain ⟨hst, hgr, hno, hke⟩ := countFec_attestation i n s
  have hsame : (s.countFec i n).evidenceRefusal report ok = s.evidenceRefusal report ok := rfl
  change execEvidenceDMinus i chain report ct ok kem n s = _
  simp only [execEvidenceDMinus, hst, hgr, hno, hke, hsame, ha, hg, hn, hk, hp]
  cases s.evidenceRefusal report ok <;> cases kem <;> rfl

end

section
variable {i : PortId} {s : State} (ha : s.ports[i].state ≠ .attest) (n : Nat)
include ha

theorem exec_hello_idle (coord : Coord) (nport : Nat) (nonce digest : Bytes) :
    exec (.hello i coord nport nonce digest n) s = .next (s.countFec i n) := by
  obtain ⟨hst, -⟩ := countFec_attestation i n s
  exact if_neg fun h => ha (hst.symm.trans h.1)

theorem exec_evidenceDPlus_idle (chain report ek : Bytes) (ok : Bool) :
    exec (.evidenceDPlus i chain report ek ok n) s = .next (s.countFec i n) := by
  obtain ⟨hst, -⟩ := countFec_attestation i n s
  change execEvidenceDPlus i chain report ek ok n s = _
  unfold execEvidenceDPlus
  dsimp only
  split
  · exact if_pos (.inl (hst.symm ▸ ha))
  · rfl

theorem exec_evidenceDMinus_idle (chain report ct : Bytes) (ok : Bool) (kem : Option Bytes) :
    exec (.evidenceDMinus i chain report ct ok kem n) s = .next (s.countFec i n) := by
  obtain ⟨hst, -⟩ := countFec_attestation i n s
  change execEvidenceDMinus i chain report ct ok kem n s = _
  unfold execEvidenceDMinus
  dsimp only
  split
  · exact if_pos (.inl (hst.symm ▸ ha))
  · rfl

end

/-- Settles O49: in ATTEST each row refuses the port, notes its neighbour or keys it, on the port as the frame's corrected codewords
left it; elsewhere it counts them alone. -/
theorem sessionsFormed : Obligations.SessionsFormed := by
  intro i n s o ho
  have counted : PortBecomes s (s.countFec i n) i o := ho ▸ countFec_becomes i n s
  refine ⟨fun ha => ⟨fun coord nport nonce digest hg => ?_, fun g mine chain report ek ok hg hn hk hp => ?_,
    fun g mine chain report ct ok hg hn hk hp => ?_, fun fec wire ps hk => ?_⟩, fun ha => ⟨fun coord nport nonce digest => ?_,
    fun chain report ek ok kem => ?_, fun fec wire ps => ?_⟩⟩
  · rw [exec_hello ha n coord nport nonce digest hg]
    refine ⟨fun r hr => ?_, fun hr => ⟨fun hp => ?_, fun hp => ?_⟩⟩ <;> rw [hr]
    · exact ⟨_, rfl, counted.modPort fun o => o.refuse r⟩
    · rw [hp]
      exact ⟨_, rfl, counted.modPort fun o => o.greeted coord nport nonce _ _ none⟩
    · obtain ⟨⟨-, hkept⟩, hport⟩ := counted.modPort fun o => o.greeted coord nport nonce (s.stepsTo i coord.toNat)
        (decide (coordDim coord.toNat (portDim i) < coordDim s.me (portDim i))) (some s.free)
      rw [hp]
      exact ⟨_, _, rfl, rfl, rfl, hkept, hport⟩
  · rw [exec_evidenceDPlus ha n hg hn hk chain report ek ok hp]
    refine ⟨fun r hr => ?_, fun hr => ?_⟩ <;> rw [hr]
    · exact ⟨_, rfl, counted.modPort fun o => o.refuse r⟩
    · obtain ⟨⟨-, hkept⟩, hport⟩ := counted.modPort fun o => o.keyed (linkKeys false ((List.range 32).map (Config.kemSsByte ek s.free))
        g.peerNonce mine (keyDigest (reportKey report)) (keyDigest s.boot.dpk)) (keyDigest (reportKey report))
      exact ⟨_, _, _, rfl, rfl, rfl, hkept, rfl, hport⟩
  · refine ⟨fun r kem hr => ?_, fun hr => ⟨?_, fun ss => ?_⟩⟩ <;> rw [exec_evidenceDMinus ha n hg hn hk chain report ct ok _ hp, hr]
    · exact ⟨_, rfl, counted.modPort fun o => o.refuse r⟩
    · exact ⟨_, rfl, counted.modPort fun o => o.refuse 2⟩
    · exact ⟨_, rfl, counted.modPort fun o => o.keyed _ _⟩
  · rw [exec_crsync, if_pos ⟨ha, hk⟩]
    refine ⟨fun hps => ⟨_, if_pos hps, counted.modPort fun o => o.refuse 6⟩, fun hps => if_neg (Nat.not_lt.mpr hps)⟩
  · exact ⟨_, exec_hello_idle ha n coord nport nonce digest, counted⟩
  · exact ⟨⟨_, exec_evidenceDPlus_idle ha n chain report ek ok, counted⟩,
      ⟨_, exec_evidenceDMinus_idle ha n chain report ek ok kem, counted⟩⟩
  · rw [exec_crsync, if_neg fun h => ha h.1]

/-! ### Optical engines and hatband switches (R277, R278, R280, R478) -/

/-- A port as the switch of its dimension closes (R277). -/
def Port.bypass (o : Port) : Port :=
  if o.state = .unused then o else { o.unlink .bypassed with replay := [], spent := List.replicate 32 0 }

/-- The switch of a port's dimension. -/
def portSwitch (i : PortId) : Fin 4 := ⟨i.val / 2, by omega⟩

/-- s with the verdict on an engine (R278, R280). -/
def State.judgeEngine (s : State) (i : PortId) (ok : Bool) : State := { s with engines := s.engines.set i (some ok) }

section
variable (i : PortId) (s : State)

theorem closeDim_eq (d : Fin 4) : s.closeDim d =
    { (s.modPort (portOf d.val true) Port.bypass).modPort (portOf d.val false) Port.bypass with hatband := s.hatband.set d true } := rfl

theorem closeDim_other (j : PortId) (hj : j.val / 2 ≠ i.val / 2) : (s.closeDim (portSwitch i)).ports[j] = s.ports[j] := by
  have hne (b : Bool) : j ≠ portOf (i.val / 2) b := fun h => hj (h ▸ portOf_dim i b)
  exact (port_ne _ _ j _ (hne false)).trans (port_ne s _ j _ (hne true))

theorem closeDim_own (j : PortId) (hj : j.val / 2 = i.val / 2) : (s.closeDim (portSwitch i)).ports[j] = s.ports[j].bypass := by
  obtain rfl | rfl := portOf_or i j hj
  · exact (port_ne _ _ _ _ (portOf_ne i)).trans (port_get s _ _)
  · exact (port_get _ _ _).trans (congrArg Port.bypass (port_ne s _ _ _ (portOf_ne i).symm))

/-- A failed engine: its verdict, an entry in the module log, the switch closed, and perhaps READY. -/
theorem engineFail_eq : s.engineFail i =
    (((s.judgeEngine i false).raiseModule 0x08 (0x48 + i.val) i.val).closeDim (portSwitch i)).tryReady := rfl

theorem engineFail_ports (j : PortId) : (s.engineFail i).ports[j] = (s.closeDim (portSwitch i)).ports[j] := by
  simp only [engineFail_eq, State.tryReady_frame, closeDim_eq]
  rfl

theorem exec_opticalEngineFail (h : i.val / 2 < 4) :
    exec (.opticalEngineFail i) s = if s.hatband[i.val / 2] = true then .next s else .next (s.engineFail i) := rfl

theorem exec_hatbandOpen {d : Fin 4} {im : Image} (him : s.boot.image = some im) (hd : s.nextSwitch = some d) : exec .hatbandOpen s =
    if s.engines[portOf d.val true] = some true ∧ s.engines[portOf d.val false] = some true then
      .next (State.tryReady { (s.modPort (portOf d.val true) fun o => { o with state := .down }).modPort (portOf d.val false)
        (fun o => { o with state := .down }) with hatband := s.hatband.set d false })
    else .next s := by
  change execHatbandOpen s = _
  simp only [execHatbandOpen, him, hd]

theorem exec_hatbandOpen_idle (h : s.boot.image = none ∨ s.nextSwitch = none) : exec .hatbandOpen s = .next s := by
  change execHatbandOpen s = _
  unfold execHatbandOpen
  split
  case h_1 im d him hd => simp [him, hd] at h
  case h_2 => rfl

theorem exec_engineSelfTestDone (ok : Bool) : exec (.engineSelfTestDone i ok) s =
    if s.boot.image.isSome = true ∧ s.engines[i].isNone = true ∧ 1 < s.tsize (portDim i) then
      .next (if ok = true then s.judgeEngine i ok else (s.judgeEngine i ok).raiseModule 0x08 (0x48 + i.val) i.val).tryReady
    else .next s := rfl

end

/-- Settles O50: a failed engine closes its dimension's switch, whose two ports alone change; the other events are their equations. -/
theorem enginesAndSwitches : Obligations.EnginesAndSwitches := by
  refine fun s => ⟨fun i h hopen => ?_, fun i h hopen => ?_, fun d im him hd ha hb => ?_, exec_hatbandOpen_idle s, fun d hd hno => ?_,
    fun i u v hu hv => ⟨fun him he hn => ?_, fun hno ok => ?_⟩⟩
  · rw [exec_opticalEngineFail i s h, if_pos hopen]
  · refine ⟨_, (exec_opticalEngineFail i s h).trans (if_neg (ne_true_of_eq_false hopen)), rfl, ?_, ?_, fun j hj => ?_, fun j hj => ?_⟩
    · simp only [engineFail_eq, State.tryReady_frame]
      rfl
    · simp only [engineFail_eq, State.tryReady_frame]
      rfl
    · exact (engineFail_ports i s j).trans (closeDim_other i s j hj)
    · exact (engineFail_ports i s j).trans (closeDim_own i s j hj)
  · rw [exec_hatbandOpen s him hd, if_pos ⟨ha, hb⟩]
  · cases him : s.boot.image with
    | none => exact exec_hatbandOpen_idle s (.inl him)
    | some im => rw [exec_hatbandOpen s him hd, if_neg (Classical.not_and_iff_not_or_not.mpr hno)]
  · subst hu hv
    have hgo := And.intro him (And.intro (Option.isNone_iff_eq_none.mpr he) hn)
    exact ⟨(exec_engineSelfTestDone i s true).trans (if_pos hgo), (exec_engineSelfTestDone i s false).trans (if_pos hgo)⟩
  · rw [exec_engineSelfTestDone, if_neg]
    rintro ⟨him, he, hn⟩
    rcases hno with h | h | h
    · simp [h] at him
    · exact h (Option.isNone_iff_eq_none.mp he)
    · omega

/-! ### What a port sends in a frame slot (R244, R248, R258, R261, R264, R270) -/

section
variable {i : PortId} {s v : State} {slot : Nat}

theorem exec_frameSlotSend_up (h : s.ports[i].state = .up) : exec (.frameSlotSend i) s = .next (s.sendSlot i).refreshWaits := by
  change execFrameSlotSend i s = _
  simp only [execFrameSlotSend, h]

/-- While credits settle the slot carries CRSYNC and counts as sent; before, a TRAIN frame goes out. -/
theorem exec_frameSlotSend_training (h : s.ports[i].state = .train ∨ s.ports[i].state = .attest) : exec (.frameSlotSend i) s =
    if s.ports[i].keys.isSome = true ∧ s.ports[i].say = [] then
      .next (((s.emit i (s.backHdr i 3 (s.ports[i].txc % 64)) true (zeros 256) [] false).modPort i fun o =>
        { o with crSent := if o.crSent.contains (s.ports[i].txc % 64) then o.crSent else o.crSent ++ [s.ports[i].txc % 64] }).tryUp i)
    else .next (s.sendTrain i) := by
  change execFrameSlotSend i s = _
  obtain h | h := h <;> simp only [execFrameSlotSend, h]

theorem exec_frameSlotSend_refused (h : s.ports[i].state = .refused) : exec (.frameSlotSend i) s =
    .next ((s.draw 304).2.modPort i fun o => { o with wire := laneSlices (s.draw 304).1 }) := by
  change execFrameSlotSend i s = _
  simp only [execFrameSlotSend, h]

theorem exec_frameSlotSend_off
    (h : s.ports[i].state = .unused ∨ s.ports[i].state = .bypassed ∨ s.ports[i].state = .down ∨ s.ports[i].state = .hold) :
    exec (.frameSlotSend i) s = .next s := by
  change execFrameSlotSend i s = _
  obtain h | h | h | h := h <;> simp only [execFrameSlotSend, h]

/-! A slot of a port that is UP, once the frames that would pass their target have been dropped. -/

section
variable (hv : v = s.dropPassed i) (hslot : slot = v.ports[i].txc % 64)
include hv hslot

theorem sendSlot_goBack {f : Nat} {rest : List Nat} (hf : v.ports[i].resend = f :: rest) : s.sendSlot i =
    ((v.ports[i].replay.find? fun r => r.fseq == f && r.slot == slot).map fun r =>
      (v.modPort i fun o => { o with resend := rest }).emitData i slot f r.frame).getD (v.emitIdle i slot) := by
  subst hv hslot
  simp only [State.sendSlot, hf]
  cases List.find? (fun r => r.fseq == f && r.slot == (s.dropPassed i).ports[i].txc % 64) (s.dropPassed i).ports[i].replay <;> rfl

variable (hr : v.ports[i].resend = [])
include hr

theorem sendSlot_unserved (hp : (v.slotPart slot).filter v.slotsOpen = none) : s.sendSlot i = v.emitIdle i slot := by
  subst hv hslot
  simp only [State.sendSlot, hr, hp]

variable {p : Nat} (hp : (v.slotPart slot).filter v.slotsOpen = some p)
include hp

theorem sendSlot_notReady (hvc : v.slotVc i p slot = none) : s.sendSlot i = v.emitIdle i slot := by
  subst hv hslot
  simp only [State.sendSlot, hr, hp, hvc]

variable {vc : Nat} {w : State} (hvc : v.slotVc i p slot = some vc)
include hvc

theorem sendSlot_frame {f : Frame} (hw : v.takeOut i p vc = (w, some f)) :
    s.sendSlot i = (w.modPort i fun o => o.record1 f slot).emitData i slot w.ports[i].nextF f := by
  subst hv hslot
  simp only [State.sendSlot, hr, hp, hvc, hw]

theorem sendSlot_stopped (hw : v.takeOut i p vc = (w, none)) : s.sendSlot i = w.emitIdle i slot := by
  subst hv hslot
  simp only [State.sendSlot, hr, hp, hvc, hw]

end

end

/-- A TRAIN frame: its header, the next 256 bytes of what this end has to say, and free bytes to fill it (R248; log 33). -/
theorem sendTrain_spec (s : State) (i : PortId) : ∃ bs : Bytes,
    s.sendTrain i = { s with ports := (s.sendTrain i).ports, free := (s.sendTrain i).free } ∧
    PortsKept s (s.sendTrain i) i ∧ bs.length + (s.ports[i].say.take 256).length = 272 ∧ (s.sendTrain i).ports[i] = { s.ports[i] with
      wire := laneSlices ([4] ++ zeros 31 ++ s.ports[i].say.take 256 ++ bs), say := s.ports[i].say.drop 256 } := by
  obtain ⟨hrest, hkept, hport⟩ := draw_modPort s 272 i fun o =>
    { o with wire := laneSlices ([4] ++ zeros 31 ++ s.ports[i].say.take 256 ++ (s.draw 272).1.drop (s.ports[i].say.take 256).length),
             say := o.say.drop 256 }
  refine ⟨(s.draw 272).1.drop (s.ports[i].say.take 256).length, hrest, hkept, ?_, hport⟩
  rw [List.length_drop, draw_len, List.length_take]
  omega

/-- Settles O54: each state of a port is an equation of its frame slot, and each branch of a slot of a port that is UP one of what it
sends. -/
theorem frameSlotsSent : Obligations.FrameSlotsSent := by
  refine fun i s v slot hv hslot => ⟨fun hup => ?_, fun htrain => ⟨fun hk hsay => ?_, fun hno => ?_⟩, fun href => ?_, exec_frameSlotSend_off⟩
  · rw [exec_frameSlotSend_up hup]
    refine ⟨fun f rest r hf hfind => ?_, fun f rest hf hfind => ?_, fun hr hp => ?_, fun p hr hp =>
      ⟨fun hvc => ?_, fun vc w f hvc hw => ?_, fun vc w hvc hw => ?_⟩⟩
    · rw [sendSlot_goBack hv hslot hf, hfind, Option.map_some, Option.getD_some]
    · rw [sendSlot_goBack hv hslot hf, hfind, Option.map_none, Option.getD_none]
    · rw [sendSlot_unserved hv hslot hr hp]
    · rw [sendSlot_notReady hv hslot hr hp hvc]
    · rw [sendSlot_frame hv hslot hr hp hvc hw]
    · rw [sendSlot_stopped hv hslot hr hp hvc hw]
  · exact ⟨_, rfl, (exec_frameSlotSend_training htrain).trans (if_pos ⟨hk, hsay⟩)⟩
  · obtain ⟨bs, hspec⟩ := sendTrain_spec s i
    refine ⟨_, bs, (exec_frameSlotSend_training htrain).trans (if_neg ?_), hspec⟩
    exact fun ⟨hk, hsay⟩ => hno.elim (Option.isSome_iff_ne_none.mp hk) (· hsay)
  · obtain ⟨hrest, hkept, hport⟩ := draw_modPort s 304 i fun o => { o with wire := laneSlices (s.draw 304).1 }
    exact ⟨_, (s.draw 304).1, exec_frameSlotSend_refused href, hrest, hkept, draw_len s 304, hport⟩

end Sys2Proof.Machine
end

section
/-! Carding (10, R285, R286, R303, R308; 13, R412): REDUCE installs its bucket entry. -/

namespace Sys2Proof.Machine

/-! ### What the ring ports hold for an entry (R257, R303) -/

theorem take_table {c c' : Carding} {cap : Nat} {f : Frame} {bad : Bool} (h : c.take cap f bad = some c') : c'.table = c.table := by
  unfold Carding.take at h
  dsimp only at h
  repeat' split at h
  all_goals cases h <;> rfl

theorem hand_card (y : Part) (m : Msg) : (y.hand m).card = y.card := by
  unfold Part.hand
  split
  · rfl
  · split <;> rfl

theorem takeFrame_table {y y' : Part} {cap : Nat} {f : Frame} {bad : Bool} (h : y.takeFrame cap f bad = some y') :
    y'.card.table = y.card.table := by
  unfold Part.takeFrame at h
  split at h
  · obtain ⟨c, hc, rfl⟩ := Option.map_eq_some_iff.mp h
    exact take_table hc
  · dsimp only at h
    split at h
    · cases h; rfl
    · cases h
      split
      · rw [hand_card]
      · rfl

theorem drainPort_spec (s : State) (p : PartId) (q : PortId) : PartAndPorts s (s.drainPort p q) p ∧
    (s.drainPort p q).parts[p].card.table = s.parts[p].card.table := by
  unfold State.drainPort
  refine ⟨⟨rfl, fun r hr => State.modPart_ne _ _ _ _ hr⟩, ?_⟩
  refine (congrArg (·.card.table) (State.modPart_same s p _)).trans ?_
  refine List.foldlRecOn (motive := fun (a : Part × List RxFrame × List (Nat × Nat) × List Nat) => a.1.card.table = s.parts[p].card.table)
    _ _ rfl fun a ha f _ => ?_
  dsimp only
  split
  · exact ha
  · split
    · rename_i y hy
      exact (takeFrame_table hy).trans ha
    · exact ha

theorem drainRx_spec (s : State) (p : PartId) : PartAndPorts s (s.drainRx p) p ∧
    (s.drainRx p).parts[p].card.table = s.parts[p].card.table := by
  unfold State.drainRx
  refine List.foldlRecOn (motive := fun v => PartAndPorts s v p ∧ v.parts[p].card.table = s.parts[p].card.table) _ _
    ⟨.refl s p, rfl⟩ fun v hv q _ => ?_
  obtain ⟨hframe, htable⟩ := drainPort_spec v p q
  exact ⟨hv.1.trans hframe, htable.trans hv.2⟩

/-! ### What an entry may change of itself as it goes on (R296) -/

/-- Of an entry, at most its state, its values, what it has sent and its waits differ. -/
def Bucket.Worked (b c : Bucket) : Prop :=
  c = { b with bstate := c.bstate, stages := c.stages, result := c.result, sent := c.sent, maxw := c.maxw, since := c.since }

namespace Bucket.Worked

theorem refl (b : Bucket) : b.Worked b := rfl

theorem trans {a b c : Bucket} (h : a.Worked b) (k : b.Worked c) : a.Worked c := by
  unfold Worked at *
  rw [k, h]

theorem sends (b : Bucket) (sent : List (Nat × Nat × Nat)) (result : List Piece) : b.Worked { b with sent := sent, result := result } := rfl

theorem putStage (b : Bucket) (i : Nat) (c : Piece) : b.Worked (b.putStage i c) := by
  unfold Bucket.putStage
  dsimp only
  split <;> rfl

/-- The same of a step that also sends messages: said of the pair, so that no check of it runs a walk over the messages of a slice. -/
def OfSending (a c : Bucket × List (Nat × Bytes)) : Prop := a.1.Worked c.1

theorem OfSending.foldl {α : Type} {f : Bucket × List (Nat × Bytes) → α → Bucket × List (Nat × Bytes)}
    (hf : ∀ a x, OfSending a (f a x)) (l : List α) (a : Bucket × List (Nat × Bytes)) : OfSending a (l.foldl f a) := by
  induction l generalizing a with
  | nil => exact refl _
  | cons x l ih => exact (hf a x).trans (ih (f a x))

theorem sendPartials (b : Bucket) (me : Nat) : OfSending (b, []) (b.sendPartials me) := by
  refine .foldl (fun a d => .foldl (fun a y => ?_) _ a) _ (b, [])
  dsimp only
  split
  · exact refl _
  · split
    · exact refl _
    · exact sends _ _ _

theorem sendGathers (b : Bucket) (me : Nat) : OfSending (b, []) (b.sendGathers me) := by
  refine .foldl (fun a d => .foldl (fun a y => ?_) _ a) _ (b, [])
  dsimp only
  split
  · exact refl _
  · split
    · exact refl _
    · exact sends _ _ _

theorem sendMoves (b : Bucket) : b.Worked b.sendMoves.1 := by
  unfold Bucket.sendMoves
  split <;> rfl

theorem endWait (b : Bucket) (now : Nat) : b.Worked (b.endWait now) := by
  unfold Bucket.endWait
  split <;> rfl

theorem delivered {b c : Bucket} (h : b.Worked c) : c.delivered = b.delivered := by rw [h]; rfl

theorem done {b c : Bucket} (h : b.Worked c) : c.done = b.done := by rw [h]; rfl

theorem tag {b c : Bucket} (h : b.Worked c) : c.tag = b.tag := by rw [h]

theorem bkind {b c : Bucket} (h : b.Worked c) : c.bkind = b.bkind := by rw [h]

/-- What is undelivered of a SUM stays so. -/
theorem early {b c : Bucket} (h : b.Worked c) (hearly : b.bkind = 1 → b.delivered = false) (hk : c.bkind = 1) : c.delivered = false :=
  h.delivered.trans (hearly (h.bkind.symm.trans hk))

end Bucket.Worked

/-- A SUM that has not been delivered has no markers to send, and nothing else has any (R301). -/
theorem sendMarkers_early {b : Bucket} (h : b.bkind = 1 → b.delivered = false) (me : Nat) : b.sendMarkers me = (b, []) := by
  unfold Bucket.sendMarkers
  rw [if_pos]
  by_cases hk : b.bkind = 1
  · simp [h hk]
  · exact .inl hk

theorem work_early {b : Bucket} (h : b.bkind = 1 → b.delivered = false) (me : Nat) : b.Worked (b.work me).1 := by
  unfold Bucket.work
  dsimp only
  generalize hb0 : (if b.bkind = 1 ∧ b.held.isNone ∧ b.complete ∧ (b.stages.getD 0 []).isEmpty then b.putStage 0 b.localFold else b) = b0
  have h0 : b.Worked b0 := by
    rw [← hb0]
    split
    · exact .putStage b 0 _
    · exact .refl b
  have h1 : b.Worked ((b0.sendPartials me).1.sendGathers me).1.sendMoves.1 :=
    ((h0.trans (Bucket.Worked.sendPartials b0 me)).trans (Bucket.Worked.sendGathers _ me)).trans (.sendMoves _)
  rw [sendMarkers_early (h1.early h)]
  exact h1.trans rfl

theorem setBucket_mem {s : State} {p : PartId} {y b : Bucket} (hy : y ∈ s.parts[p].card.table) (ht : y.tag = b.tag) :
    b ∈ (s.setBucket p b).parts[p].card.table := by
  rw [State.setBucket, modCard_msgs]
  exact List.mem_map.mpr ⟨y, hy, if_pos (by rw [ht]; exact beq_self_eq_true _)⟩

/-- An entry that is not done when it goes on stays in the table. -/
theorem advanceBucket_keeps {s : State} {p : PartId} {b : Bucket} (hin : ∃ y ∈ s.parts[p].card.table, y.tag = b.tag)
    (hdone : b.done = false) (hearly : b.bkind = 1 → b.delivered = false) :
    ∃ b' ∈ (s.advanceBucket p b).parts[p].card.table, b.Worked b' := by
  obtain ⟨y, hy, htag⟩ := hin
  have hwait := Bucket.Worked.endWait b s.clocks.carding
  have hw : b.Worked ((b.endWait s.clocks.carding).work s.me).1 :=
    hwait.trans (work_early (hwait.early hearly) s.me)
  unfold State.advanceBucket
  dsimp only
  generalize (b.endWait s.clocks.carding).work s.me = r at *
  have hsince (c : Option Nat) : b.Worked { r.1 with since := c } := hw.trans rfl
  have hnot (c : Option Nat) : ¬({ r.1 with since := c } : Bucket).done = true := by rw [(hsince c).done, hdone]; decide
  rw [if_neg (hnot _)]
  exact ⟨_, setBucket_mem (y := y) (by rw [foldl_inject_parts]; exact hy) (htag.trans hw.tag.symm), hsince _⟩

/-- An entry whose row and buffers read well, and which has no contribution yet, goes on as it is (R281). -/
theorem progress_new {b : Bucket} (he : b.errs = []) (hc : b.contribs = []) (s : State) (p : PartId) :
    s.progress p b = s.advanceBucket p b := by
  have hb : ({ b with errs := [], contribs := [] } : Bucket) = b := by rw [← he, ← hc]
  unfold State.progress Bucket.bufErrs
  rw [he, hc]
  simp only [List.map_nil, List.flatten_nil, List.append_nil, State.engErrs, List.foldl_nil, uncorrectable, List.filter_nil, ne_eq,
    not_true_eq_false, if_false]
  rw [hb]

theorem PartAndPorts.installBucket (s : State) (p : PartId) (b : Bucket) : PartAndPorts s (s.installBucket p b) p := by
  unfold State.installBucket
  exact ((PartAndPorts.modCard s p _).trans (drainRx_spec _ p).1).trans (.progress _ p b)

/-- An entry that is not done when it is installed stands in the table (R285, R303). -/
theorem installBucket_stands {b : Bucket} (he : b.errs = []) (hc : b.contribs = []) (hdone : b.done = false)
    (hearly : b.bkind = 1 → b.delivered = false) (s : State) (p : PartId) :
    ∃ b' ∈ (s.installBucket p b).parts[p].card.table, b.Worked b' := by
  unfold State.installBucket
  dsimp only
  rw [progress_new he hc]
  refine advanceBucket_keeps ⟨b, ?_, rfl⟩ hdone hearly
  rw [(drainRx_spec _ p).2, modCard_msgs]
  exact List.mem_append_right _ (List.mem_singleton_self b)

/-! ### REDUCE -/

theorem maskTiles_ne_nil {m : Nat} (h : m ≠ 0) (hlt : m < 2 ^ 64) : maskTiles m ≠ [] := by
  obtain ⟨i, hi⟩ := Nat.exists_testBit_of_ne_zero h
  have h64 : i < 64 := Nat.lt_of_not_le fun hge => by
    rw [Nat.testBit_lt_two_pow (Nat.lt_of_lt_of_le hlt (Nat.pow_le_pow_right (by decide) hge))] at hi
    cases hi
  exact List.ne_nil_of_mem (List.mem_filter.mpr ⟨List.mem_range.mpr h64, hi⟩)

/-- An entry from which no tile has received is delivered only where none receives (R299). -/
theorem delivered_none {b : Bucket} (hg : b.gone = []) (hr : b.rmask ≠ 0) (hlt : b.rmask < 2 ^ 64) : b.delivered = false := by
  obtain ⟨t, ht⟩ := List.exists_mem_of_ne_nil _ (maskTiles_ne_nil hr hlt)
  unfold Bucket.delivered
  rw [hg]
  exact List.all_eq_false.mpr ⟨t, ht, by simp⟩

/-- The masks of a valid REDUCE: a SUM and a SEED have receivers, and a MOVE has receivers or senders (R286). -/
theorem bucketOk_masks {u : State} {p : PartId} {b : Bucket} {wfmt : Nat} (h : u.bucketOk p b wfmt = true) :
    (b.bkind = 3 ∧ b.cmask ≠ 0) ∨ b.rmask ≠ 0 := by
  unfold State.bucketOk at h
  simp only [Bool.and_eq_true, decide_eq_true_eq] at h
  obtain ⟨⟨⟨⟨⟨⟨-, hlo⟩, hhi⟩, -⟩, -⟩, -⟩, hkind⟩ := h
  split at hkind
  · exact .inr (by simpa using (Bool.and_eq_true_iff.mp (Bool.and_eq_true_iff.mp hkind).1).2)
  · exact .inr (by simpa using (Bool.and_eq_true_iff.mp (Bool.and_eq_true_iff.mp hkind).1).2)
  · rename_i hsum hseed
    have hmove : b.bkind = 3 := by
      change b.bkind ≠ 1 at hsum
      change b.bkind ≠ 2 at hseed
      omega
    by_cases hr : b.rmask = 0
    · rw [hr] at hkind
      have hsend := (Bool.and_eq_true_iff.mp (Bool.and_eq_true_iff.mp hkind).1).1
      exact .inl ⟨hmove, by simpa using hsend⟩
    · exact .inr hr

/-- A new entry, from which nothing has been delivered, is not done (R301, R308, R310). -/
theorem new_undone {u : State} {p : PartId} {b : Bucket} {wfmt : Nat} (h : u.bucketOk p b wfmt = true) (hlt : b.rmask < 2 ^ 64)
    (hheld : b.held = none) (hg : b.gone = []) (hm : b.mkdn = []) : b.done = false ∧ (b.bkind = 1 → b.delivered = false) := by
  unfold Bucket.done
  rw [hheld, hm]
  rcases bucketOk_masks h with ⟨hk, hc⟩ | hr
  · simp [hk, hc]
  · simp [delivered_none hg hr hlt]

/-- The matrix a SEED draws is all that sets it apart as it is installed (R308). -/
theorem seed_result (b : Bucket) (drawn : List Piece) :
    ∃ r, (if b.bkind = 2 then { b with result := drawn } else b) = { b with result := r } := by
  split
  · exact ⟨_, rfl⟩
  · exact ⟨b.result, rfl⟩

theorem start_fields (u : State) (p : PartId) (q : Nat) : (u.start (some p) false q).parts[p].fuller = u.parts[p].fuller ∧
    (u.start (some p) false q).compact p = u.compact p := by
  have hside := start_parts u p q
  unfold State.compact
  rw [hside]
  exact ⟨rfl, rfl⟩

section
variable {p : PartId} {e : InFlight} {b : Bucket} {s u : State}
variable (hu : s.settled (some p) = u) (he : u.startable (some p) .reduce = some e) (hb : b = u.newBucket p e.cmd)
include hu he hb

theorem exec_reduce_invalid (hok : u.bucketOk p b (bits e.cmd.arg1 55 48) = false) :
    exec (.reduce p) s = .next (u.endNow p e.cmd.seq { status := stInvalid, cls := 2 }) := by
  subst hu hb
  change execReduce p s = _
  simp only [execReduce, he, hok, Bool.not_false, if_true]

variable (hok : u.bucketOk p b (bits e.cmd.arg1 55 48) = true)
include hok

theorem exec_reduce_full (hfull : 4096 / max 1 u.npart ≤ u.parts[p].card.table.length) :
    exec (.reduce p) s = .next (u.endNow p e.cmd.seq { status := stNores, cls := 2 }) := by
  subst hu hb
  change execReduce p s = _
  simp only [execReduce, he, hok, Bool.not_true, Bool.false_eq_true, if_false, if_pos hfull]

variable (hroom : u.parts[p].card.table.length < 4096 / max 1 u.npart)
include hroom

theorem exec_reduce_new
    (hheld : u.parts[p].fuller.heldRes.find? (fun h => h.tag == b.tag && h.step == b.step && h.bkind == b.bkind) = none) :
    exec (.reduce p) s = .next ((u.start (some p) false e.cmd.seq).installBucket p
      (if b.bkind = 2 then { b with result := [State.seedPiece b ((Compact.dropkey (u.compact p)).getD [])] } else b)) := by
  subst hu hb
  change execReduce p s = _
  have hful : (State.start _ (some p) false e.cmd.seq).parts[p].fuller = _ := (start_fields (s.settled (some p)) p e.cmd.seq).1
  simp only [execReduce, he, hok, Bool.not_true, Bool.false_eq_true, if_false, if_neg (Nat.not_le.mpr hroom), hful, hheld]
  rw [(start_fields (s.settled (some p)) p e.cmd.seq).2]

theorem exec_reduce_held {h : HeldResult}
    (hheld : u.parts[p].fuller.heldRes.find? (fun h => h.tag == b.tag && h.step == b.step && h.bkind == b.bkind) = some h) :
    exec (.reduce p) s = .next (State.installBucket (((u.start (some p) false e.cmd.seq).readHeld p h e.cmd.seq).1.modFuller p fun f =>
      { f with heldRes := f.heldRes.erase h }) p
        { b with held := some ((u.start (some p) false e.cmd.seq).readHeld p h e.cmd.seq).2, dims := 0, expc := 0 }) := by
  subst hu hb
  change execReduce p s = _
  have hful : (State.start _ (some p) false e.cmd.seq).parts[p].fuller = _ := (start_fields (s.settled (some p)) p e.cmd.seq).1
  simp only [execReduce, he, hok, Bool.not_true, Bool.false_eq_true, if_false, if_neg (Nat.not_le.mpr hroom), hful, hheld]

end

/-- Settles O24: each outcome of a REDUCE is its equation; an entry that is installed new is not done, and so it stands in the table
(`installBucket_stands`). -/
theorem reduceInstallsEntry : Obligations.ReduceInstallsEntry := by
  intro p e b s u hu he hb
  obtain ⟨-, -, -, hends⟩ := startable_spec _ _ _ _ he
  refine ⟨fun hurg hfl => ?_, fun hok hroom => ⟨fun hheld => ?_, fun h hheld => ?_⟩⟩
  · have hended (st : Nat) : OnlyPart u (u.endNow p e.cmd.seq { status := st, cls := 2 }) p ∧
        CommandSide u.parts[p] (u.endNow p e.cmd.seq { status := st, cls := 2 }).parts[p] ∧
        Ended u (u.endNow p e.cmd.seq { status := st, cls := 2 }) (some p) e st 2 0 :=
      ⟨(endNow_only u p _ _).1, (endNow_only u p _ _).2, endNow_ended u p e { status := st, cls := 2 } hurg rfl rfl hends hfl⟩
    exact ⟨fun hok => ⟨_, exec_reduce_invalid hu he hb hok, hended stInvalid⟩,
      fun hok hfull => ⟨_, exec_reduce_full hu he hb hok hfull, hended stNores⟩⟩
  · have hstart : PartAndPorts u (u.start (some p) false e.cmd.seq) p := .ofOnly (OnlyFn.start u (some p) false e.cmd.seq)
    refine ⟨_, exec_reduce_new hu he hb hok hroom hheld, hstart.trans (.installBucket _ p _), rfl, fun hlt => ?_⟩
    obtain ⟨r, hr⟩ := seed_result b [State.seedPiece b ((Compact.dropkey (u.compact p)).getD [])]
    rw [hr]
    subst hb
    obtain ⟨hdone, hearly⟩ := new_undone hok hlt rfl rfl rfl
    obtain ⟨b', hmem, hwork⟩ := installBucket_stands (b := { u.newBucket p e.cmd with result := r }) rfl rfl hdone hearly
      (u.start (some p) false e.cmd.seq) p
    exact ⟨b', hmem, by rw [hwork]; rfl, by rw [hwork], by rw [hwork]; rfl, by rw [hwork]; rfl⟩
  · exact ⟨_, _, exec_reduce_held hu he hb hok hroom hheld, rfl, rfl⟩

end Sys2Proof.Machine
end

section
/-! Carding (10, R289, R299; 13, R395): what the tiles of a partition send to the carding engine and receive from it. -/

namespace Sys2Proof.Machine

/-! ### CARDING_CONTRIBUTION (R289, R310) -/

/-- A SEND that keeps the rules brings one contribution of its tile (R289). -/
theorem contribute_some {s : State} {x : TileId} {b : Bucket} {m : MeshDesc} {r : Bucket × State} (h : s.contribute x b m = some r) :
    ∃ c : Contribution, c.tile = x.val ∧ r.1 = State.putContribution b c := by
  have hold : ((b.contribs.find? (·.tile == x.val)).getD ⟨x.val, 0, 0, [], [], []⟩).tile = x.val := by
    cases hf : b.contribs.find? (·.tile == x.val) with
    | none => rfl
    | some c => simpa using List.find?_some hf
  unfold State.contribute at h
  dsimp only at h
  generalize (b.contribs.find? (·.tile == x.val)).getD _ = old at h hold
  split at h
  · split at h
    · cases h
    · split at h
      · cases h
      · cases h; exact ⟨_, by exact hold, rfl⟩
  · split at h
    · cases h
    · cases h; exact ⟨_, by exact hold, rfl⟩

section
variable {x : TileId} {p : PartId} {o : Op} {b : Bucket} {s : State}
variable (hp : s.partOf x = some p) (ho : s.meshHead x 4 0x40 = some o) (hb : s.sendEntry p x.val = some b)
include hp ho hb

theorem exec_cardingContribution {r : Bucket × State} (hr : s.contribute x b (MeshDesc.parse o.desc) = some r) :
    exec (.cardingContribution x) s =
      .next (State.progress { (s.modTile x fun y => y.dropOp o.id) with free := r.2.free } p r.1) := by
  change execCardingContribution x s = _
  simp only [execCardingContribution, hp, ho, hb, hr]

theorem exec_cardingContribution_invalid (hr : s.contribute x b (MeshDesc.parse o.desc) = none) :
    exec (.cardingContribution x) s = .next (((s.modTile x fun y => y.dropOp o.id).failBucket p b).stopTile p x o.slot) := by
  change execCardingContribution x s = _
  simp only [execCardingContribution, hp, ho, hb, hr]

end

/-- A stop leaves the carding engine's share of the partition as it was (R64). -/
theorem stopTile_card (s : State) (p : PartId) (x : TileId) (slot : Nat) : (s.stopTile p x slot).parts[p].card = s.parts[p].card := by
  obtain ⟨-, -, hside, -⟩ := stopTile_spec s p x slot
  rw [hside]

/-- Settles O25: the two ways of a SEND, whose entry goes on (`PartAndPorts.progress`) or fails before the tile stops (`stopTile_spec`). -/
theorem contributionJoinsEntry : Obligations.ContributionJoinsEntry := by
  intro x p o b s hp ho hb
  refine ⟨fun r hr => ?_, fun hr => ?_⟩
  · obtain ⟨hrest, hkept⟩ := PartAndPorts.progress { (s.modTile x fun y => y.dropOp o.id) with free := r.2.free } p r.1
    refine ⟨_, exec_cardingContribution hp ho hb hr, rfl, ?_, hkept, fun y hy => ?_, ?_, contribute_some hr⟩
    · rw [hrest]; rfl
    · rw [hrest]; exact State.modTile_ne _ _ _ _ hy
    · rw [hrest]; exact State.modTile_same _ _ _
  · have hexec := exec_cardingContribution_invalid hp ho hb hr
    obtain ⟨⟨hfrest, hfkept⟩, htags⟩ := failBucket_only (s.modTile x fun y => y.dropOp o.id) p b
    generalize (s.modTile x fun y => y.dropOp o.id).failBucket p b = v at *
    obtain ⟨hrest, hkept, -⟩ := stopTile_spec v p x o.slot
    refine ⟨_, hexec, rfl, ?_, fun q hq => (hkept q hq).trans (hfkept q hq), stopTile_stopped v p x o.slot, ?_⟩
    · rw [hrest, hfrest]; rfl
    · rw [stopTile_card]; exact htags

/-! ### BUCKET_DELIVERY (R299, R395) -/

/-- The bytes of the delivery that a tile has had so far. -/
def Bucket.givenTo (b : Bucket) (t : Nat) : Nat := ((b.given.find? (·.1 == t)).map (·.2)).getD 0

/-- Where the panels of a delivery end, its start with them: the places at which a RECV may end (R299). -/
def panelEnds (ps : List Bytes) : List Nat := ps.foldl (fun (acc : List Nat) y => acc ++ [acc.getLastD 0 + y.length]) [0]

/-- The entry once tile t has had n bytes of its delivery, which ends after `all`. -/
def Bucket.gives (b : Bucket) (t n all : Nat) : Bucket :=
  { b with given := (t, n) :: b.given.filter (·.1 != t), gone := if n = all then b.gone ++ [t] else b.gone }

/-- The entry once it gives tile t no more, whose RECV would have cut a panel. -/
def Bucket.cuts (b : Bucket) (t : Nat) : Bucket := { b with cut := b.cut ++ [t] }

/-- The tile once a RECV of these bytes has completed. -/
def Tile.receive (y : Tile) (o : Op) (m : MeshDesc) (dl : List Bytes × Bool) (from_ : Nat) : Tile :=
  (if dl.2 then y.spPoison m.addr m.len else y.spWrite m.addr (sub dl.1.flatten from_ m.len)).dropOp o.id

theorem Bucket.gives_ne {b : Bucket} {t n all : Nat} (h : n ≠ b.givenTo t) : b.gives t n all ≠ b := by
  intro heq
  have hg := congrArg (·.givenTo t) heq
  simp [givenTo, gives] at hg
  exact h hg

theorem Bucket.cuts_ne (b : Bucket) (t : Nat) : b.cuts t ≠ b := fun heq => by
  have hlen := congrArg (·.cut.length) heq
  simp [cuts] at hlen

/-- An entry that no checkpoint has captured leaves no record of its delivery (R395). -/
theorem capRecord_uncaptured {s : State} {p : PartId} {b : Bucket} (h : b.captured = false) (t : Nat) (bs : Bytes) (bad : Bool) :
    s.capRecord p b t bs bad = s := by
  unfold State.capRecord
  split
  · rfl
  · simp [h]

theorem setBucket_bucket {s : State} {p : PartId} {tag : Nat} {b b' : Bucket} (h : s.bucket p tag = some b) (ht : b'.tag = b.tag) :
    (s.setBucket p b').bucket p tag = some b' := by
  unfold State.bucket at *
  rw [State.setBucket, modCard_msgs]
  exact find_map_tag _ _ b b' h ht

section
variable {p : PartId} {x : TileId} {b : Bucket} {o : Op} {m : MeshDesc} {dl : List Bytes × Bool} {s : State}
variable (hrecv : s.recvEntry p x.val = some b) (ho : s.meshHead x 5 0x40 = some o) (hcut : b.cut.contains x.val = false)
variable (hdl : b.delivery x.val = some dl) (hm : m = MeshDesc.parse o.desc)
include hrecv ho hcut hdl hm

theorem deliverOne_eq {n : Nat} (hn : n = b.givenTo x.val + m.len) : s.deliverOne p b.tag x =
    if (panelEnds dl.1).contains n then
      let v := (s.modTile x fun y => y.receive o m dl (b.givenTo x.val)).setBucket p (b.gives x.val n dl.1.flatten.length)
      some (if n = dl.1.flatten.length then v.capRecord p (b.gives x.val n dl.1.flatten.length) x.val dl.1.flatten dl.2 else v)
    else some (((s.setBucket p (b.cuts x.val)).modTile x fun y => y.dropOp o.id).stopTile p x o.slot) := by
  subst hm hn
  simp only [State.deliverOne, hrecv, ho, hdl, hcut, ne_eq, not_true_eq_false, Bool.false_eq_true, or_self, if_false, beq_iff_eq]
  change (if (!(panelEnds dl.1).contains (b.givenTo x.val + (MeshDesc.parse o.desc).len)) = true then _ else _) = _
  cases (panelEnds dl.1).contains (b.givenTo x.val + (MeshDesc.parse o.desc).len) <;> rfl

theorem deliverOne_whole {n : Nat} (hn : n = b.givenTo x.val + m.len) (hends : n ∈ panelEnds dl.1)
    (hcap : n = dl.1.flatten.length → b.captured = false) : s.deliverOne p b.tag x =
    some ((s.modTile x fun y => y.receive o m dl (b.givenTo x.val)).setBucket p (b.gives x.val n dl.1.flatten.length)) := by
  rw [deliverOne_eq hrecv ho hcut hdl hm hn, if_pos (List.contains_iff_mem.mpr hends)]
  by_cases hlast : n = dl.1.flatten.length
  · have hkeep : (b.gives x.val n dl.1.flatten.length).captured = false := hcap hlast
    simp only [if_pos hlast, capRecord_uncaptured hkeep]
  · simp only [if_neg hlast]

theorem deliverOne_cut {n : Nat} (hn : n = b.givenTo x.val + m.len) (hends : n ∉ panelEnds dl.1) : s.deliverOne p b.tag x =
    some (((s.setBucket p (b.cuts x.val)).modTile x fun y => y.dropOp o.id).stopTile p x o.slot) := by
  rw [deliverOne_eq hrecv ho hcut hdl hm hn, if_neg (mt List.contains_iff_mem.mp hends)]

end

theorem bucket_tag {s : State} {p : PartId} {tag : Nat} {b : Bucket} (h : s.bucket p tag = some b) : b.tag = tag := by
  simpa using List.find?_some h

/-- Where one receiving tile holds one posted operation, what the delivery does to it is all that is done before the entry goes on. -/
theorem exec_bucketDelivery_one {p : PartId} {tag : BitVec 16} {x : TileId} {b b' : Bucket} {o : Op} {s v : State}
    (hb : s.bucket p tag.toNat = some b) (htiles : (s.tilesOf p).filter (fun t => bit b.rmask t.val) = [x])
    (hops : s.tiles[x].ops = [o]) (hone : s.deliverOne p b.tag x = some v) (hv : v.bucket p tag.toNat = some b') (hne : b' ≠ b) :
    exec (.bucketDelivery p tag) s = .next (v.progress p b') := by
  change execBucketDelivery p tag s = _
  rw [bucket_tag hb] at hone
  simp only [execBucketDelivery, hb, htiles, List.foldl_cons, List.foldl_nil, hops, List.length_singleton, State.deliverTile, hone, hv,
    if_neg hne]

/-- Settles O29: the RECV takes whole panels or is cut; either changes the entry, which then goes on. -/
theorem deliveryFillsRecv : Obligations.DeliveryFillsRecv := by
  intro p tag x b o m g dl s hb hrecv htiles hops ho hcut hdl hm hlen hg
  change g = b.givenTo x.val at hg
  refine ⟨fun hends hcap => ?_, fun hends => ?_⟩
  · have hone := deliverOne_whole (n := g + m.len) hrecv ho hcut hdl hm (by rw [hg]) hends hcap
    rw [← hg] at hone
    have hne : b.gives x.val (g + m.len) dl.1.flatten.length ≠ b := Bucket.gives_ne (by omega)
    have hvb := setBucket_bucket (s := s.modTile x fun y => y.receive o m dl g) hb
      (show (b.gives x.val (g + m.len) dl.1.flatten.length).tag = b.tag from rfl)
    obtain ⟨hrest, hkept⟩ := PartAndPorts.progress ((s.modTile x fun y => y.receive o m dl g).setBucket p
      (b.gives x.val (g + m.len) dl.1.flatten.length)) p (b.gives x.val (g + m.len) dl.1.flatten.length)
    refine ⟨_, _, exec_bucketDelivery_one hb htiles hops hone hvb hne, rfl, rfl, ?_, fun q hq => ?_, fun y hy => ?_, ?_⟩
    · rw [hrest]; rfl
    · rw [hkept q hq]; exact State.modPart_ne _ _ _ _ hq
    · rw [hrest]; exact State.modTile_ne _ _ _ _ hy
    · rw [hrest]; exact State.modTile_same _ _ _
  · have hone := deliverOne_cut (n := g + m.len) hrecv ho hcut hdl hm (by rw [hg]) hends
    obtain ⟨-, -, -, -, htile, hsub⟩ := stopTile_spec ((s.setBucket p (b.cuts x.val)).modTile x fun y => y.dropOp o.id) p x o.slot
    have hcard := stopTile_card ((s.setBucket p (b.cuts x.val)).modTile x fun y => y.dropOp o.id) p x o.slot
    rw [tile_get] at htile
    have hdrop : (s.tiles[x].dropOp o.id).ops = [] := by rw [Tile.dropOp, hops]; simp
    replace hsub := hsub x
    rw [tile_get, show ((s.setBucket p (b.cuts x.val)).tiles[x].dropOp o.id).ops = [] from hdrop] at hsub
    generalize hv : ((s.setBucket p (b.cuts x.val)).modTile x fun y => y.dropOp o.id).stopTile p x o.slot = v at *
    have hvb : v.bucket p tag.toNat = some (b.cuts x.val) := by
      rw [← setBucket_bucket hb (show (b.cuts x.val).tag = b.tag from rfl)]
      unfold State.bucket
      rw [hcard]
      rfl
    have hkept : (v.progress p (b.cuts x.val)).tiles = v.tiles := by rw [(PartAndPorts.progress v p (b.cuts x.val)).1]
    refine ⟨_, _, exec_bucketDelivery_one hb htiles hops hone hvb (b.cuts_ne x.val), rfl, by rw [← hv]; rfl, ?_, ?_, ?_⟩
    · rw [hkept, htile]
    · rw [hkept, htile]; rfl
    · rw [hkept]; exact List.eq_nil_iff_forall_not_mem.mpr fun q hq => nomatch hsub q hq

end Sys2Proof.Machine
end

section
/-! Carding (10): what the messages of the ring do to their entry (R294, R295, R298, R301, R306, R310). -/

namespace Sys2Proof.Machine

/-! ### A message is taken (R281, R306) -/

theorem tookMsg_only (s : State) (p : PartId) (b : Bucket) (m : Msg) : OnlyPart s (tookMsg s p b m) p ∧
    (tookMsg s p b m).parts[p].card.msgs = s.parts[p].card.msgs.erase m := by
  refine ⟨(OnlyPart.modPart s p _).trans (engErrs_spec _ _ _ _ _).1, ?_⟩
  rw [tookMsg, engErrs_card, modCard_msgs]

theorem tookMsg_me (s : State) (p : PartId) (b : Bucket) (m : Msg) : (tookMsg s p b m).me = s.me := by
  rw [(tookMsg_only s p b m).1.1]; rfl

/-- A message has been used: nothing has changed but its partition and what waits in the ring ports, and it has left the store where its
entry's row reads well (an entry whose row does not fails, and its messages go with it). -/
def Used (s t : State) (p : PartId) (b : Bucket) (m : Msg) : Prop :=
  PartAndPorts s t p ∧ (uncorrectable b.errs = [] → t.parts[p].card.msgs = s.parts[p].card.msgs.erase m)

theorem Used.progress {s v : State} {p : PartId} {b b' : Bucket} {m : Msg} (h : Used s v p b m) (hb : b'.errs = b.errs) :
    Used s (v.progress p b') p b m :=
  ⟨h.1.trans (.progress v p b'), fun he => (progress_msgs v p b' (by rw [hb]; exact he)).trans (h.2 he)⟩

theorem Used.inject {s v : State} {p : PartId} {b : Bucket} {m : Msg} (h : Used s v p b m) (vc : Nat) (hop : Bool) (dst own : Nat)
    (bs : Bytes) : Used s (v.inject p vc hop dst own bs) p b m :=
  ⟨h.1.trans (.inject v p p vc hop dst own bs), fun he => by rw [inject_card v p]; exact h.2 he⟩

theorem Used.took (s : State) (p : PartId) (b : Bucket) (m : Msg) : Used s (tookMsg s p b m) p b m :=
  ⟨.ofOnly (tookMsg_only s p b m).1, fun _ => (tookMsg_only s p b m).2⟩

/-! ### What a message taken does (R294, R295, R298, R301, R310) -/

/-- A GATHER is passed on down or up its line, but for one that has come to the end of it (R295). -/
def State.passGather (w : State) (p : PartId) (b : Bucket) (m : Msg) (d from_ : Nat) : State :=
  if (from_ < b.posIn d ∧ b.nmem d ≤ b.posIn d + 1) ∨ (b.posIn d < from_ ∧ b.posIn d = 0) then w
  else w.inject p 0 false (b.coordAt w.me d (if from_ < b.posIn d then b.posIn d + 1 else b.posIn d - 1)) b.seq
    (b.elemMessage 3 d m.slice m.first m.scale m.piece.elems)

/-- A MKDN goes on down the line of a SUM (R301). -/
def State.passMkdn (w : State) (p : PartId) (b : Bucket) (d : Nat) : State :=
  if b.bkind = 1 ∧ 0 < b.posIn d then w.inject p 0 false (b.coordAt w.me d (b.posIn d - 1)) b.seq (b.marker 5 d) else w

/-- A MOVE's bytes as they arrive: one that is lost reads as zero (R310, log 49). -/
def Msg.moveByte (m : Msg) (j : Nat) : Byte := if m.lost (32 + j) then 0 else m.data.getD (32 + j) 0

/-- The entry once a MOVE's bytes have joined it. -/
def Bucket.append (b : Bucket) (m : Msg) : Bucket :=
  { b with moved := b.moved ++ (List.range m.count).map m.moveByte,
           movedFl := b.movedFl ||| m.mflags ||| if m.bad = [] ∧ uncorrectable m.errs = [] then 0 else flPois }

/-- The entry's answer to a message, by what the message means to it. -/
def State.useAs (w : State) (p : PartId) (b : Bucket) (m : Msg) : Option MsgUse → State
  | none => w.failBucket p b
  | some (.partialSum i sl a n) => w.usePartial p b m i sl a n
  | some (.finalSum i _ _) => w.progress p (b.putStage (i + 1) m.piece)
  | some (.gather d from_ _ _) => (w.passGather p b m d from_).progress p { b with result := addPiece b.result m.piece }
  | some (.mkup d) => w.progress p { b with mkup := b.mkup ++ [d] }
  | some (.mkdn d) => (w.passMkdn p b d).progress p { b with mkdn := b.mkdn ++ [d] }
  | some .move => w.progress p (b.append m)

section
variable {p : PartId} {b : Bucket} {m : Msg} {s : State} {f : Nat → Bool} (h : s.nextMsg p f = some (b, m))
include h

theorem useNext_headLost (hl : m.headLost = true) : s.useNext p f = tookMsg s p b m := by
  rw [useNext_eq p b m s f h]
  simp only [State.useMsg, tookMsg, hl, if_true]

theorem useNext_judged (hl : m.headLost = false) : s.useNext p f = (tookMsg s p b m).useAs p b m (judgeMsg b s.me m) := by
  rw [useNext_eq p b m s f h, ← tookMsg_me s p b m]
  simp only [State.useMsg, tookMsg, hl]
  generalize (s.modCard p _).engErrs p m.errs _ _ = w
  cases judgeMsg b w.me m with
  | none => rfl
  | some use =>
    cases use with
    | partialSum | finalSum | mkup => rfl
    | gather | mkdn => simp [State.useAs, State.passGather, State.passMkdn]
    | move => simp only [State.useAs, Bucket.append, List.isEmpty_iff]; rfl

theorem exec_used {c : Instr} {use : Option MsgUse} (hc : exec c s = .next (s.useNext p f)) (hl : m.headLost = false)
    (hj : judgeMsg b s.me m = use) : exec c s = .next ((tookMsg s p b m).useAs p b m use) := by
  rw [hc, useNext_judged h hl, hj]

end

/-! ### PARTIAL (R294) -/

/-- The count of arrivals is all that the end of a slice changes. -/
theorem countSlice_eq (b : Bucket) (i sl a n : Nat) : ∃ c, State.countSlice b i sl a n = { b with arrc := c } := by
  unfold State.countSlice
  dsimp only
  split
  · exact ⟨_, rfl⟩
  · exact ⟨b.arrc, rfl⟩

theorem putStage_errs (b : Bucket) (i : Nat) (c : Piece) : (b.putStage i c).errs = b.errs := by
  rw [Bucket.Worked.putStage b i c]

section
variable {p : PartId} {b b' : Bucket} {m : Msg} {i sl a n d : Nat} {v : Int × List Elem} {es : List Elem} {w : State}
variable (hv : takeRange (b.stages.getD i []) a n = some v) (hd : d = b.stageDims.getD i 0)
variable (hes : es = List.zipWith (foldElem b.wire m.scale v.1) m.piece.elems v.2) (hb : b' = State.countSlice b i sl a n)
include hv hd hes hb

/-- The sum goes to the next member of the line, to the slice's owner, or stays. -/
theorem usePartial_eq : w.usePartial p b m i sl a n =
    if b.posIn d + 1 < b.nmem d then
      (w.inject p 0 false (b.coordAt w.me d (b.posIn d + 1)) b.seq (b'.elemMessage 1 d sl a (max m.scale v.1) es)).progress p b'
    else if sl ≠ b.posIn d then
      (w.inject p 0 false (b.coordAt w.me d sl) b.seq (b'.elemMessage 2 d sl a (max m.scale v.1) es)).progress p b'
    else w.progress p (b'.putStage (i + 1) ⟨a, max m.scale v.1, es⟩) := by
  subst hd hes hb
  obtain ⟨c, hc⟩ := countSlice_eq b i sl a n
  simp only [State.usePartial, hv, hc]
  rfl

end

/-- Settles O26: the message is used as `usePartial_eq` says, and each of its three ways is an entry that goes on. -/
theorem partialAddedAndPassed : Obligations.PartialAddedAndPassed := by
  rintro p b b' m i sl a n d v es s w hnext hhead rfl hjudge hv hd hes hb
  have hexec : exec (.partialMsg p) s = .next ((tookMsg s p b m).usePartial p b m i sl a n) := exec_used hnext rfl hhead hjudge
  have htook := Used.took s p b m
  obtain ⟨c, hc⟩ := countSlice_eq b i sl a n
  have hsend (dst : Nat) (bs : Bytes) : Used s (((tookMsg s p b m).inject p 0 false dst b.seq bs).progress p b') p b m :=
    (htook.inject _ _ _ _ _).progress (by rw [hb, hc])
  have hkeep : Used s ((tookMsg s p b m).progress p (b'.putStage (i + 1) ⟨a, max m.scale v.1, es⟩)) p b m :=
    htook.progress (by rw [putStage_errs, hb, hc])
  rw [hexec, usePartial_eq hv hd hes hb, tookMsg_me]
  by_cases hnxt : b.posIn d + 1 < b.nmem d
  · rw [if_pos hnxt]
    exact ⟨_, rfl, (hsend _ _).1, (hsend _ _).2, fun _ => rfl, fun h => absurd hnxt (by omega), fun h => absurd hnxt (by omega)⟩
  · rw [if_neg hnxt]
    by_cases hown : sl = b.posIn d
    · rw [if_neg fun h => h hown]
      exact ⟨_, rfl, hkeep.1, hkeep.2, fun h => absurd h hnxt, fun _ h => absurd hown h, fun _ _ => rfl⟩
    · rw [if_pos hown]
      exact ⟨_, rfl, (hsend _ _).1, (hsend _ _).2, fun h => absurd h hnxt, fun _ _ => rfl, fun _ h => absurd h hown⟩

/-! ### FINAL, GATHER and MOVE (R295, R310) -/

section
variable {p : PartId} {b : Bucket} {m : Msg} {d f : Nat} {w : State}

theorem passGather_up (h : f < b.posIn d) (hn : b.posIn d + 1 < b.nmem d) : w.passGather p b m d f =
    w.inject p 0 false (b.coordAt w.me d (b.posIn d + 1)) b.seq (b.elemMessage 3 d m.slice m.first m.scale m.piece.elems) := by
  rw [State.passGather, if_neg (by omega), if_pos h]

theorem passGather_down (h : b.posIn d < f) (hn : 0 < b.posIn d) : w.passGather p b m d f =
    w.inject p 0 false (b.coordAt w.me d (b.posIn d - 1)) b.seq (b.elemMessage 3 d m.slice m.first m.scale m.piece.elems) := by
  rw [State.passGather, if_neg (by omega), if_neg (by omega)]

theorem passGather_end (h : (f < b.posIn d ∧ b.nmem d ≤ b.posIn d + 1) ∨ (b.posIn d < f ∧ b.posIn d = 0)) :
    w.passGather p b m d f = w := if_pos h

theorem Used.passGather {s : State} (h : Used s w p b m) : Used s (w.passGather p b m d f) p b m := by
  unfold State.passGather
  split
  · exact h
  · exact h.inject _ _ _ _ _

end

theorem append_moved (b : Bucket) (m : Msg) : (b.append m).moved.length = b.moved.length + m.count ∧
    (b.append m).moved.take b.moved.length = b.moved ∧
    ∀ j, j < m.count → (b.append m).moved.getD (b.moved.length + j) 0 = m.moveByte j := by
  refine ⟨by simp [Bucket.append], List.take_left, fun j hj => ?_⟩
  simp [Bucket.append, hj]

/-- Settles O27: each message is used by its branch (`exec_used`), after which its entry goes on. -/
theorem valueMessagesTaken : Obligations.ValueMessagesTaken := by
  rintro p b m s w hhead rfl
  have htook := Used.took s p b m
  refine ⟨fun i a n hnext hjudge => ?_, fun d f a n hnext hjudge => ?_, fun hnext hjudge => ?_⟩
  · exact ⟨_, exec_used hnext rfl hhead hjudge, rfl, htook.progress (putStage_errs b (i + 1) m.piece)⟩
  · obtain ⟨hframe, hmsgs⟩ := (htook.passGather (d := d) (f := f)).progress (b' := { b with result := addPiece b.result m.piece }) rfl
    refine ⟨_, exec_used hnext rfl hhead hjudge, hframe, hmsgs, fun hup hn => ?_, fun hdown hn => ?_, fun hend => ?_⟩
    · rw [State.useAs, passGather_up hup hn, tookMsg_me]
    · rw [State.useAs, passGather_down hdown hn, tookMsg_me]
    · rw [State.useAs, passGather_end hend]
  · obtain ⟨hframe, hmsgs⟩ := htook.progress (b' := b.append m) rfl
    obtain ⟨hlen, htake, hbyte⟩ := append_moved b m
    exact ⟨_, b.append m, exec_used hnext rfl hhead hjudge, rfl, hframe, hmsgs, rfl, hlen, htake, hbyte, rfl⟩

/-! ### MKUP and MKDN, and messages that do not match (R298, R301) -/

theorem Used.passMkdn {s w : State} {p : PartId} {b : Bucket} {m : Msg} {d : Nat} (h : Used s w p b m) :
    Used s (w.passMkdn p b d) p b m := by
  unfold State.passMkdn
  split
  · exact h.inject _ _ _ _ _
  · exact h

/-- Each command of the engine's messages uses the next one of its types. -/
theorem exec_message {p : PartId} {c : Instr} {f : Nat → Bool} (s : State)
    (h : (c, f) ∈ [(Instr.partialMsg p, fun k => k == 1 || k == 0 || decide (6 < k)), (Instr.finalMsg p, (· == 2)),
      (Instr.gather p, (· == 3)), (Instr.mkup p, (· == 4)), (Instr.mkdn p, (· == 5)), (Instr.moveMsg p, (· == 6))]) :
    exec c s = .next (s.useNext p f) := by
  simp only [List.mem_cons, Prod.mk.injEq, List.not_mem_nil, or_false] at h
  obtain ⟨rfl, rfl⟩ | ⟨rfl, rfl⟩ | ⟨rfl, rfl⟩ | ⟨rfl, rfl⟩ | ⟨rfl, rfl⟩ | ⟨rfl, rfl⟩ := h <;> rfl

/-- Settles O28: a marker joins its entry's and the entry goes on; what does not match fails it, and a lost header is only dropped. -/
theorem markersCounted : Obligations.MarkersCounted := by
  rintro p b m s w rfl
  have htook := Used.took s p b m
  obtain ⟨honly, hmsgs⟩ := tookMsg_only s p b m
  refine ⟨fun d hnext hhead hjudge => ?_, fun d hnext hhead hjudge => ?_, fun c f hc hnext => ⟨fun hhead => ?_, fun hhead hjudge => ?_⟩⟩
  · exact ⟨_, exec_used hnext rfl hhead hjudge, rfl, htook.progress rfl⟩
  · obtain ⟨hframe, hleft⟩ := (htook.passMkdn (d := d)).progress (b' := { b with mkdn := b.mkdn ++ [d] }) rfl
    refine ⟨_, exec_used hnext rfl hhead hjudge, hframe, hleft, fun hsum hpos => ?_, fun hstay => ?_⟩
    · rw [State.useAs, State.passMkdn, if_pos ⟨hsum, hpos⟩, tookMsg_me]
    · rw [State.useAs, State.passMkdn, if_neg hstay]
  · exact ⟨_, (exec_message s hc).trans (congrArg _ (useNext_headLost hnext hhead)), rfl, honly, hmsgs⟩
  · obtain ⟨hfail, htags⟩ := failBucket_only (tookMsg s p b m) p b
    exact ⟨_, exec_used hnext (exec_message s hc) hhead hjudge, rfl, honly.trans hfail, htags⟩

end Sys2Proof.Machine
end

section
/-! Carding (10, R313; 11, R339; 12, R381): JOB_CLOSE ends every other command, retires the job and its buckets, and pounces. -/

namespace Sys2Proof.Machine

/-! ### What a JOB_CLOSE leaves once it has cut the other commands (R313, R339) -/

/-- The last 64 keys of the buckets discarded so far, once those of the table have joined them (R303, R313). -/
def Carding.lastDead (c : Carding) : List (Nat × Nat × Nat × Nat) :=
  (c.dead ++ c.table.map (·.key)).drop ((c.dead ++ c.table.map (·.key)).length - 64)

theorem Carding.lastDead_idem (c : Carding) (h : List Msg) :
    ({ table := [], msgs := h, dead := c.lastDead } : Carding).lastDead = c.lastDead := by
  simp only [lastDead, List.map_nil, List.append_nil]
  exact last64_idem _

/-- The state once JOB_CLOSE has cut the other commands, dropped the transfers of the partition's data and left the Jewel's service. -/
def State.closing (s : State) (p : PartId) (seq : Nat) : State := ((s.cutOthers p seq).dropData (some p)).setService (some p) none

section
variable {p : PartId} {s : State} {k : Nat}

theorem closing_only : OnlyPart s (s.closing p k) p :=
  ((cutOthers_spec s p k).1.trans (OnlyFn.modDma _ (some p) _)).trans (OnlyPart.modPart _ _ _)

theorem closing_win : (s.closing p k).parts[p].win = (s.cutOthers p k).parts[p].win := by
  simp [State.closing, State.setService, State.dropData]

theorem closing_part : (s.closing p k).parts[p] = { s.parts[p] with
    win := (s.closing p k).parts[p].win, dma := (s.closing p k).parts[p].dma, log := (s.closing p k).parts[p].log, service := none,
    card := ⟨[], [], s.parts[p].card.lastDead⟩ } := by
  obtain ⟨-, hside, -⟩ := cutOthers_spec s p k
  obtain ⟨-, hpart, -⟩ := discardBuckets_spec s p
  rw [CommandSide, hpart] at hside
  have h : (s.closing p k).parts[p] = { (s.cutOthers p k).parts[p] with
      dma := (s.closing p k).parts[p].dma, service := none } := by simp [State.closing, State.setService, State.dropData]
  rw [h, hside]
  rfl

theorem closing_inFlight {e : InFlight} (h : s.inFlight (some p) false k = some e) :
    ∃ e', (s.closing p k).inFlight (some p) false k = some e' ∧ e'.cmd = e.cmd ∧ e'.ends = e.ends := by
  obtain ⟨e', he, hsame⟩ := cutOthers_keep s p k e h
  exact ⟨e', by rw [← he]; exact inFlight_congr _ _ _ _ _ (congrArg Window.table closing_win), hsame⟩

theorem discardBuckets_empty (h : s.parts[p].card.table = []) : (s.discardBuckets p).parts[p] =
    { s.parts[p] with card := ⟨[], [], s.parts[p].card.lastDead⟩ } := by
  unfold State.discardBuckets Carding.lastDead
  rw [h]
  simp

/-- The partition and the ring ports once the job is gone (R339). -/
theorem retire_closing : (s.closing p k).retire p = { s with
      parts := ((s.closing p k).retire p).parts, ports := s.ports.map fun o => o.discard p.val s.coord.toNat false true } ∧
    PartsKept s ((s.closing p k).retire p) p ∧
    ((s.closing p k).retire p).parts[p] = { s.parts[p] with
      win := (s.closing p k).parts[p].win, dma := ((s.closing p k).retire p).parts[p].dma,
      log := ((s.closing p k).retire p).parts[p].log, service := none, job := none, slotSecrets := [], streams := [],
      card := { Carding.empty with dead := s.parts[p].card.lastDead }, fuller := Fuller.empty, integ := 0, ilock := false,
      copies := [], run := none, runStop := none, runEnd := none, asm := [], inbox2 := [], inbox3 := [] } := by
  obtain ⟨hrest, hkept, hret⟩ := retire_spec (s.closing p k) p
  have hclose := closing_part (s := s) (p := p) (k := k)
  have hcard : (s.closing p k).parts[p].card = ⟨[], [], s.parts[p].card.lastDead⟩ := by rw [hclose]
  have hdisc := discardBuckets_empty (s := s.closing p k) (p := p) (by rw [hcard])
  rw [hcard, Carding.lastDead_idem] at hdisc
  obtain ⟨hw, hwkept⟩ := closing_only (s := s) (p := p) (k := k)
  refine ⟨?_, fun q hq => (hkept q hq).trans (hwkept q hq), ?_⟩
  · rw [hrest, hw]; rfl
  · rw [hret, hdisc, hclose]

end

/-! ### Pouncing (R381 steps 1 to 5) -/

/-- The state as pouncing begins, up to the scrub of the tiles: the secret for the trees drawn, for a deep pounce the throwaway key. -/
def State.pounceDrawn (u : State) (p : PartId) (deep : Bool) (close : Option Nat) : State :=
  { u.modPart p fun x => { x with
      pstate := .scrubbing, treeSecret := some (u.draw 32).1, reset := none, log := ErrLog.empty, win := { x.win with tags := [] },
      pounce := some ⟨deep, u.clocks.jewel, close, false⟩ } with free := u.free + if deep then 2 else 1 }

/-- The key under which a deep pounce overwrites the data. -/
def State.throwawayKey (u : State) (deep : Bool) : Option Bytes := if deep then some ((u.draw 32).2.draw 32).1 else none

theorem beginPounce_eq (s : State) (p : PartId) (deep : Bool) (close : Option Nat) : s.beginPounce p deep close false =
    ((s.retire p).tilesOf p).foldl (fun v x => (v.modTile x State.scrubTile).resetTree x ((s.retire p).draw 32).1
      ((s.retire p).throwawayKey deep)) ((s.retire p).pounceDrawn p deep close) := by
  cases deep <;> rfl

theorem beginPounce_spec {s t u : State} {p : PartId} {deep : Bool} {close : Option Nat} (ht : s.beginPounce p deep close false = t)
    (hu : s.retire p = u) :
    t = { u with parts := t.parts, tiles := t.tiles, jewel := { u.jewel with roots := t.jewel.roots }, free := t.free } ∧ PartsKept u t p ∧
    t.parts[p] = { u.parts[p] with
      pstate := .scrubbing, treeSecret := some (u.draw 32).1, reset := none, log := ErrLog.empty, win := { u.parts[p].win with tags := [] },
      pounce := some ⟨deep, u.clocks.jewel, close, false⟩ } ∧
    (∀ x : TileId, t.tiles[x] = if u.partOf x = some p then pounced u.tiles[x] x (u.draw 32).1 (u.throwawayKey deep) else u.tiles[x]) ∧
    ∀ i : Fin 2048, t.jewel.roots[i] = if ((u.tilesOf p).any fun x => x.val == i.val / 32) then ⟨0, 0⟩ else u.jewel.roots[i] := by
  rw [beginPounce_eq, hu] at ht
  obtain ⟨hrest, htiles, hroots⟩ := scrub_fold p (u.draw 32).1 (u.throwawayKey deep) _ (tilesOf_nodup u p) (u.pounceDrawn p deep close)
  rw [ht] at hrest htiles hroots
  refine ⟨by rw [hrest]; rfl, fun q hq => ?_, ?_, fun x => ?_, hroots⟩
  · rw [hrest]; simp [State.pounceDrawn, hq]
  · rw [hrest]; simp [State.pounceDrawn]
  · simp only [← mem_tilesOf]; exact htiles x

/-! ### JOB_CLOSE -/

theorem exec_jobClose {p : PartId} {c : Cmd} {s : State} (h : s.serving (some p) 0x02 = some c) : exec (.jobClose p) s =
    if s.parts[p].pstate = .failed then .next (((s.closing p c.seq).retire p).complete (some p) false c.seq { status := stOk })
    else .next ((s.closing p c.seq).beginPounce p (bit c.arg0 0) (some c.seq) false) := by
  change execJobClose p s = _
  have hp : (s.closing p c.seq).parts[p].pstate = s.parts[p].pstate := by rw [closing_part]
  rw [← hp]
  simp only [execJobClose, h]
  rfl

/-- The one command left in the table completes, and the table is empty (R339). -/
theorem complete_last {u t : State} {p : PartId} {k : Nat} {e : InFlight} (ht : u.complete (some p) false k { status := stOk } = t)
    (hfl : u.inFlight (some p) false k = some e) (hends : e.ends = none)
    (hlast : ∀ x ∈ u.parts[p].win.table, x.urgent = false ∧ x.cmd.seq = k) :
    Ended u t (some p) e stOk 0 0 ∧ t.parts[p].win.table = [] := by
  obtain ⟨hurg, hseq⟩ := hlast e (List.mem_of_find?_eq_some hfl)
  have hended := complete_ended u (some p) e { status := stOk } rfl rfl (by rw [hurg, hseq]; exact hfl) hends
  rw [hurg, hseq, ht] at hended
  refine ⟨hended, hended.1.trans (List.filter_eq_nil_iff.mpr fun x hx => ?_)⟩
  obtain ⟨hxu, hxq⟩ := hlast x hx
  simp [hxu, hxq, hurg, hseq]

/-- Settles O16: what is left of the partition's commands and job (`retire_closing`) goes on to the JOB_CLOSE's completion in FAILED
(`complete_last`), and to pouncing (`beginPounce_spec`) elsewhere. -/
theorem jobCloseRetiresJob : Obligations.JobCloseRetiresJob := by
  intro p c e s hserve hfl hends
  obtain ⟨e', hfl', hcmd, hends'⟩ := closing_inFlight hfl
  obtain ⟨hrest, hkept, hpart⟩ := retire_closing (s := s) (p := p) (k := c.seq)
  rw [exec_jobClose hserve]
  generalize hu : (s.closing p c.seq).retire p = u at *
  have huwin : u.parts[p].win = (s.closing p c.seq).parts[p].win := by rw [hpart]
  have hufl : u.inFlight (some p) false c.seq = some e' := by
    rw [← hfl']; exact inFlight_congr _ _ _ _ _ (congrArg Window.table huwin)
  have hothers : ∀ x ∈ u.parts[p].win.table, x.urgent = false ∧ x.cmd.seq = c.seq := by
    rw [huwin, closing_win]; exact (cutOthers_spec s p c.seq).2.2
  by_cases hf : s.parts[p].pstate = .failed
  · rw [if_pos hf]
    have honly := complete_parts u p false c.seq { status := stOk }
    have hside := complete_side u p false c.seq { status := stOk }
    generalize ht : u.complete (some p) false c.seq { status := stOk } = t at *
    obtain ⟨hended, htable⟩ := complete_last ht hufl (hends'.trans hends) hothers
    rw [CommandSide, hpart] at hside
    refine ⟨t, rfl, ?_⟩
    rw [hside]
    refine ⟨rfl, rfl, rfl, rfl, rfl, rfl, rfl, fun x hx => ?_, fun q hq => (honly.2 q hq).trans (hkept q hq), by rw [honly.1, hrest],
      fun _ => ⟨hf, ?_, ?_, ?_, htable, u, e', hcmd, hended⟩, fun h => absurd hf h⟩
    · change x ∈ t.parts[p].win.table at hx
      rw [htable] at hx
      cases hx
    all_goals rw [honly.1, hrest]
  · rw [if_neg hf]
    generalize ht : (s.closing p c.seq).beginPounce p (bit c.arg0 0) (some c.seq) false = t
    obtain ⟨htrest, htkept, htpart, htiles, hroots⟩ := beginPounce_spec ht hu
    rw [hpart] at htpart
    have hfree : u.free = s.free := by rw [hrest]
    have htfl : t.inFlight (some p) false c.seq = some e' := by
      rw [← hufl]; exact inFlight_congr _ _ _ _ _ (by simp only [State.win]; rw [htpart, huwin])
    refine ⟨t, rfl, ?_⟩
    rw [htpart]
    refine ⟨rfl, rfl, rfl, rfl, rfl, rfl, rfl, by rw [huwin] at hothers; exact hothers, fun q hq => (htkept q hq).trans (hkept q hq),
      by rw [htrest, hrest], fun h => absurd h hf, fun _ => ⟨rfl, rfl, ⟨e', htfl, hcmd⟩, by rw [hrest], ?_⟩⟩
    have htilesOf : u.tilesOf p = s.tilesOf p := by rw [hrest]; rfl
    refine ⟨(u.draw 32).1, u.throwawayKey (bit c.arg0 0), rfl, by rw [← hfree]; rfl, by rw [← hfree]; rfl, fun x => ?_, fun i => ?_⟩
    · rw [htiles x, hrest]; rfl
    · rw [hroots i, htilesOf, hrest]

end Sys2Proof.Machine
end

section
/-! The command window (11, R315-R323): the window at reset, a write to it, the slot taken at a cursor, and a slot whose HCHK fails. -/

namespace Sys2Proof.Machine

/-- Settles O7: `State.reset` gives each part its fresh value, which reads off the fields. -/
theorem resetIsUnpowered : Obligations.ResetIsUnpowered := by
  refine ⟨rfl, rfl, rfl, rfl, rfl, fun p => ?_, fun f => ?_, fun i => ?_, rfl, rfl⟩
  · simp [State.reset, Part.fresh]
  · cases f <;> simp [State.reset, State.win, Part.fresh, Window.empty]
  · simp [State.reset, Port.fresh]

/-! ### The waits for a bad slot (R318) -/

theorem setBad_badAt_other (s : State) (f : Fn) (u : Bool) (b : Option Nat) : (s.setBad f u b).badAt f (!u) = s.badAt f (!u) := by
  cases f <;> cases u <;> simp [State.setBad, State.badAt]

theorem slotAt_congr {s t : State} {f : Fn} (h : t.win f = s.win f) (u : Bool) : t.slotAt f u = s.slotAt f u := by
  simp only [State.slotAt, h]

theorem slotValid_congr {s t : State} {f : Fn} (h : t.win f = s.win f) (u : Bool) : t.slotValid f u = s.slotValid f u := by
  simp only [State.slotValid, slotAt_congr h, h]

theorem OnlyFn.forgetBad (s : State) (f : Fn) (u : Bool) : OnlyFn s (s.forgetBad f u) f := by
  unfold State.forgetBad
  split
  · exact .refl s f
  · exact .setBad s f u none

theorem forgetBad_win (s : State) (f : Fn) (u : Bool) : (s.forgetBad f u).win f = s.win f := by
  unfold State.forgetBad
  split
  · rfl
  · exact setBad_win s f u none

theorem forgetBad_badAt (s : State) (f : Fn) (u : Bool) :
    (s.forgetBad f u).badAt f u = if s.slotValid f u then s.badAt f u else none := by
  unfold State.forgetBad
  split
  · rfl
  · exact setBad_badAt s f u none

theorem forgetBad_badAt_other (s : State) (f : Fn) (u : Bool) : (s.forgetBad f u).badAt f (!u) = s.badAt f (!u) := by
  unfold State.forgetBad
  split
  · rfl
  · exact setBad_badAt_other s f u none

/-! ### BAR_WRITE (R315, R494) -/

/-- The bytes of the slots end at offset 63,487: what a write says beyond it is discarded. -/
theorem get_write_slots (m : Mem) (off : Nat) (data : Bytes) (a : Nat) : Mem.get (m.write off (data.take (63488 - off))) a =
    if off ≤ a ∧ a < off + data.length ∧ a < 63488 then data.getD (a - off) 0 else Mem.get m a := by
  have hlen : (off ≤ a ∧ a < off + (data.take (63488 - off)).length) ↔ (off ≤ a ∧ a < off + data.length ∧ a < 63488) := by
    rw [List.length_take]; omega
  unfold Mem.get Mem.write
  rw [Mem.getD_writeD]
  simp only [hlen]
  split
  · rename_i h
    rw [List.getD_eq_getElem?_getD, List.getElem?_take_of_lt (by omega), List.getD_eq_getElem?_getD]
  · rfl

/-- The function's window with the bytes of a write stored. -/
def State.stored (s : State) (f : Fn) (off : Nat) (data : Bytes) : State :=
  s.modWin f fun w => { w with slots := w.slots.write off (data.take (63488 - off)) }

theorem exec_barWrite {f : Fn} {off : Nat} {s : State} (data : Bytes) (ha : s.answers f = true) (hoff : off < 63488) :
    exec (.barWrite f 0 off data) s = .next (((s.stored f off data).forgetBad f false).forgetBad f true) := by
  change execBarWrite f 0 off data s = _
  exact if_pos ⟨rfl, ha, hoff⟩

theorem exec_barWrite_discarded {f : Fn} {bar off : Nat} {s : State} (data : Bytes)
    (h : bar ≠ 0 ∨ s.answers f = false ∨ 63488 ≤ off) : exec (.barWrite f bar off data) s = .next s := by
  change execBarWrite f bar off data s = _
  refine if_neg ?_
  rintro ⟨hbar, ha, hoff⟩
  obtain h | h | h := h
  · exact h hbar
  · exact ne_true_of_eq_false h ha
  · omega

/-- Settles O8: a write that is stored changes the slots alone, and then each cursor's wait is judged by the SEQ it shows now. -/
theorem barWriteStoresSlots : Obligations.BarWriteStoresSlots := by
  refine ⟨fun f off data s ha hoff => ⟨_, exec_barWrite data ha hoff, ?_⟩, fun f bar off data s h => exec_barWrite_discarded data h⟩
  have honly : OnlyFn s (s.stored f off data) f := .modWin s f _
  have hwin : (s.stored f off data).win f = { s.win f with slots := (s.win f).slots.write off (data.take (63488 - off)) } :=
    State.modWin_win s f _
  have hbad (u : Bool) : (s.stored f off data).badAt f u = s.badAt f u := modWin_badAt s f u _
  generalize s.stored f off data = v at *
  have hmain : (v.forgetBad f false).win f = v.win f := forgetBad_win v f false
  have hboth : ((v.forgetBad f false).forgetBad f true).win f = v.win f := (forgetBad_win _ f true).trans hmain
  refine ⟨(honly.trans (.forgetBad v f false)).trans (.forgetBad _ f true), ?_, fun a => ?_, fun u => ?_⟩
  · rw [hboth, hwin]
  · rw [hboth, hwin]
    exact get_write_slots _ off data a
  · rw [slotValid_congr hboth, ← hbad]
    cases u with
    | false => exact (forgetBad_badAt_other _ f true).trans (forgetBad_badAt v f false)
    | true =>
      rw [forgetBad_badAt, slotValid_congr hmain]
      exact congrArg (ite _ · none) (forgetBad_badAt_other v f false)

/-! ### The slot at a cursor (R316, R318, R319) -/

/-- A window whose queue has moved past the slot at its cursor (R316). -/
def Window.passed (w : Window) (urgent : Bool) : Window :=
  { w with
    mcur := if urgent then w.mcur else (w.mcur + 1) % 960
    mseq := if urgent then w.mseq else w.mexp
    mexp := if urgent then w.mexp else nextSeq w.mexp
    ucur := if urgent then (w.ucur + 1) % 32 else w.ucur
    useq := if urgent then w.uexp else w.useq
    uexp := if urgent then nextSeq w.uexp else w.uexp }

theorem passSlot_win (s : State) (f : Fn) (urgent : Bool) : (s.passSlot f urgent).win f = (s.win f).passed urgent := by
  refine (State.modWin_win s f _).trans ?_
  cases urgent <;> rfl

/-- s with the slot at the cursor passed, and no bad slot waited for there. -/
def State.passed (s : State) (f : Fn) (urgent : Bool) : State := (s.passSlot f urgent).setBad f urgent none

section
variable (s : State) (f : Fn) (urgent : Bool)

theorem OnlyFn.passed : OnlyFn s (s.passed f urgent) f := (OnlyFn.passSlot s f urgent).trans (.setBad _ f urgent none)

theorem passed_win : (s.passed f urgent).win f = (s.win f).passed urgent := (setBad_win _ f urgent none).trans (passSlot_win s f urgent)

theorem passed_dma : (s.passed f urgent).dma f = s.dma f := (setBad_dma _ f urgent none).trans (modWin_dma s f _)

theorem passed_seqCount : (s.passed f urgent).seqCount f = s.seqCount f :=
  (setBad_seqCount _ f urgent none).trans (modWin_seqCount s f _)

theorem passed_badAt : (s.passed f urgent).badAt f urgent = none := setBad_badAt _ f urgent none

end

/-- Ending the commands whose turn ends without a start leaves the slots and the cursors. -/
theorem settled_slots (s : State) (f : Fn) : WindowFrame (s.win f) ((s.settled f).win f) := settle_slots s f _

/-- A command refused at once frees nothing and enters no table; its record is queued where CPL has room for one (R323). -/
theorem refuse_spec (s : State) (f : Fn) (urgent : Bool) (c : Cmd) (st : Nat) :
    WindowFrame (s.win f) ((s.refuse f urgent c st).win f) ∧ ((s.refuse f urgent c st).win f).table = (s.win f).table ∧
    ((s.refuse f urgent c st).win f).fenceCnt = (s.win f).fenceCnt + (if urgent then 0 else 1) ∧
    (s.refuse f urgent c st).badAt f urgent = s.badAt f urgent ∧
    ((s.refuse f urgent c st).dma f).writes = (s.dma f).writes ++ (if c.cpl ≠ 0 ∧ c.cpl % 32 = 0 then
      recordWrites ⟨c, urgent, none, 0, false, none, 0⟩ (recordBytes c urgent st (statusCls st) 0 (s.seqCount f) 0 0) else []) := by
  unfold State.refuse
  dsimp only
  split
  · simp only [State.postRecord, modDma_win, modDma_dma, modDma_badAt, modWin_dma, modWin_badAt, modWin_seqCount, State.modWin_win]
    exact ⟨rfl, trivial, by cases urgent <;> rfl, trivial, rfl⟩
  · simp only [modWin_dma, modWin_badAt, State.modWin_win, List.append_nil]
    exact ⟨rfl, trivial, by cases urgent <;> rfl, trivial, trivial⟩

section
variable {s : State} {f : Fn} {urgent : Bool}

theorem exec_slotTake (he : s.examines f urgent = true) (hv : s.slotValid f urgent = true) (hr : s.hasRoom f urgent = true)
    (hu : s.urgentFirst f urgent = false) : exec (.slotTake f urgent) s = .next (s.takeSlot f urgent) := by
  change execSlotTake f urgent s = _
  exact if_pos (by simp only [State.takable, he, hv, hr, hu, Bool.not_false, Bool.and_self])

theorem takeSlot_bad (h : Cmd.hchkOk (s.slotAt f urgent) = false) :
    s.takeSlot f urgent = s.setBad f urgent (some ((s.badAt f urgent).getD (s.seqCount f))) :=
  if_neg (ne_true_of_eq_false h)

theorem takeSlot_refused (h : Cmd.hchkOk (s.slotAt f urgent) = true) {st : Nat}
    (hr : s.refusal f urgent (Cmd.parse (s.slotAt f urgent)) = some st) :
    s.takeSlot f urgent = (s.passed f urgent).refuse f urgent (Cmd.parse (s.slotAt f urgent)) st := by
  unfold State.takeSlot
  simp only [h, if_true, refusal_passSlot, hr]
  rfl

/-- s with command c at the end of the in-flight table, its tag pending (R319, R329). -/
def State.enter (s : State) (f : Fn) (urgent : Bool) (c : Cmd) : State :=
  s.modWin f fun w => { w with table := w.table ++ [⟨c, urgent, none, 0, false, none, 0⟩], tags := setTag w.tags c.tag .pending }

theorem takeSlot_entered (h : Cmd.hchkOk (s.slotAt f urgent) = true) (hr : s.refusal f urgent (Cmd.parse (s.slotAt f urgent)) = none) :
    s.takeSlot f urgent = ((s.passed f urgent).enter f urgent (Cmd.parse (s.slotAt f urgent))).settled f := by
  unfold State.takeSlot
  simp only [h, if_true, refusal_passSlot, hr]
  rfl

end

/-- Settles O9: past the slot (`State.passed`) the command is refused, which enters no table, or enters it before the waiting
commands are settled; neither moves the cursors again (`WindowFrame`). -/
theorem slotTakeTakesSlot : Obligations.SlotTakeTakesSlot := by
  intro f urgent s he hv hroom hfirst
  rw [exec_slotTake he hv hroom hfirst]
  refine ⟨fun hok => ⟨_, rfl, ?_⟩, fun hbad => ⟨_, rfl, takeSlot_bad hbad⟩⟩
  have honly := OnlyFn.passed s f urgent
  have hwin := passed_win s f urgent
  have hdma := passed_dma s f urgent
  have hcount := passed_seqCount s f urgent
  have hbadAt := passed_badAt s f urgent
  cases hr : s.refusal f urgent (Cmd.parse (s.slotAt f urgent)) with
  | some st =>
    rw [takeSlot_refused hok hr]
    generalize s.passed f urgent = v at *
    obtain ⟨hframe, htable, -, hkeep, hwrites⟩ := refuse_spec v f urgent (Cmd.parse (s.slotAt f urgent)) st
    rw [hwin] at hframe htable
    rw [hdma, hcount] at hwrites
    obtain ⟨hmcur, hmseq, hmexp, hucur, huseq, huexp, hslots⟩ := hframe.fields
    exact ⟨(honly.trans (.refuse v f urgent _ st)).marks, hmcur, hmseq, hmexp, hucur, huseq, huexp, hslots, hkeep.trans hbadAt,
      htable, hwrites⟩
  | none =>
    rw [takeSlot_entered hok hr]
    have henter : OnlyFn (s.passed f urgent) ((s.passed f urgent).enter f urgent (Cmd.parse (s.slotAt f urgent))) f := .modWin _ f _
    have hew : ((s.passed f urgent).enter f urgent (Cmd.parse (s.slotAt f urgent))).win f = _ := State.modWin_win _ f _
    have heb : ((s.passed f urgent).enter f urgent (Cmd.parse (s.slotAt f urgent))).badAt f urgent = _ := modWin_badAt _ f urgent _
    rw [hwin] at hew
    generalize (s.passed f urgent).enter f urgent (Cmd.parse (s.slotAt f urgent)) = v at *
    have hframe := settled_slots v f
    rw [hew] at hframe
    obtain ⟨hmcur, hmseq, hmexp, hucur, huseq, huexp, hslots⟩ := hframe.fields
    exact ⟨(honly.trans henter).marks.trans (.settled v f), hmcur, hmseq, hmexp, hucur, huseq, huexp, hslots,
      (settle_badAt v f urgent _).trans (heb.trans hbadAt), v, rfl, congrArg Window.table hew⟩

section
variable {s : State} {f : Fn} {urgent : Bool} {c0 : Nat}

theorem exec_badslot_waits (hb : s.badAt f urgent = some c0) (h : s.seqCount f < c0 + 10000) : exec (.badslot f urgent) s = .next s := by
  change execBadslot f urgent s = _
  simp only [execBadslot, hb, Nat.not_le.mpr h, decide_false, Bool.and_false, Bool.false_eq_true, if_false]

theorem exec_badslot_skips (he : s.examines f urgent = true) (hv : s.slotValid f urgent = true)
    (hk : Cmd.hchkOk (s.slotAt f urgent) = false) (hb : s.badAt f urgent = some c0) (h : c0 + 10000 ≤ s.seqCount f) :
    exec (.badslot f urgent) s = .next ((s.passed f urgent).modWin f fun w =>
      { w with badSlot := satInc w.badSlot, badSeq := field (s.slotAt f urgent) 0 4 }) := by
  change execBadslot f urgent s = _
  simp only [execBadslot, hb, he, hv, hk, h, decide_true, Bool.not_false, Bool.and_self, if_true]
  rfl

end

/-- Settles O10: until the 10,000 cycles are over the slot stays; after them it is passed with a count and a name, and no write is
queued. -/
theorem badSlotSkipped : Obligations.BadSlotSkipped := by
  intro f urgent s he hv hk
  refine ⟨fun hroom hfirst => ?_, fun c0 hb h => exec_badslot_waits hb h, fun c0 hb h => ⟨_, exec_badslot_skips he hv hk hb h, ?_⟩⟩
  · rw [exec_slotTake he hv hroom hfirst, takeSlot_bad hk]
    exact ⟨_, rfl, .setBad s f urgent _, setBad_badAt s f urgent _, setBad_win s f urgent _, setBad_dma s f urgent _⟩
  · refine ⟨(OnlyFn.passed s f urgent).trans (.modWin _ f _), ?_, ?_, ?_⟩
    · rw [modWin_badAt, passed_badAt]
    · rw [modWin_dma, passed_dma]
    · rw [State.modWin_win, passed_win]
      rfl

end Sys2Proof.Machine
end

section
/-! The sequencer's own commands (11, R325-R331, R350): FENCE, STATUS and ABORT, and the expiry of a command's timeout (15, R448, R454). -/

namespace Sys2Proof.Machine

/-! ### What an ending reads of the state (R319, R332) -/

/-- An ending reads the in-flight table, the tags, the queued writes and the sequencer's count, and so it may be told from any state
that has them. -/
theorem Ended.of_eq {s u t : State} {f : Fn} {e : InFlight} {st cls result : Nat} (h : Ended u t f e st cls result)
    (htable : (u.win f).table = (s.win f).table) (htags : (u.win f).tags = (s.win f).tags)
    (hwrites : (u.dma f).writes = (s.dma f).writes) (hcount : u.seqCount f = s.seqCount f) : Ended s t f e st cls result := by
  unfold Ended at h ⊢
  rwa [htable, htags, hwrites, hcount] at h

theorem inFlight_key {s : State} {f : Fn} {u : Bool} {q : Nat} {e : InFlight} (h : s.inFlight f u q = some e) :
    e.urgent = u ∧ e.cmd.seq = q := by
  have hkey := List.find?_some h
  rwa [Bool.and_eq_true, beq_iff_eq, beq_iff_eq] at hkey

/-- A completion frees its entry, settles its tag, and counts for the next FENCE where it is a main command's and not OK (R330). -/
theorem completeNow_win {s : State} {f : Fn} {u : Bool} {q : Nat} {e : InFlight} (h : s.inFlight f u q = some e) (r : Result)
    (record : Bool) : (s.completeNow f u q r record).win f = { s.win f with
      table := (s.win f).table.filter fun x => !(x.urgent == u && x.cmd.seq == q)
      tags := setTag (s.win f).tags e.cmd.tag (if r.status == stOk || r.status == stPoisoned then .done else .failed)
      fenceCnt := if u || r.status == stOk then (s.win f).fenceCnt else (s.win f).fenceCnt + 1 } := by
  unfold State.completeNow
  rw [h]
  dsimp only
  split
  · rw [State.postRecord, modDma_win, State.modWin_win]
  · cases f with
    | none => rw [State.episodeForget, modLog_win, State.modWin_win]
    | some p => dsimp only; rw [episodeClose_win, State.episodeForget, modLog_win, State.modWin_win]

theorem completeNow_fenceCnt {s : State} {f : Fn} {u : Bool} {q : Nat} {e : InFlight} (h : s.inFlight f u q = some e) (r : Result)
    (record : Bool) : ((s.completeNow f u q r record).win f).fenceCnt =
      (s.win f).fenceCnt + (if u = false ∧ r.status ≠ stOk then 1 else 0) := by
  rw [completeNow_win h]
  cases u with
  | true => simp
  | false => by_cases hok : r.status = stOk <;> simp [hok]

/-! ### FENCE (R327, R329, R330) -/

theorem startable_headOf {s : State} {f : Fn} {k : CmdClass} {e : InFlight} (h : s.startable f k = some e) : s.headOf f k = some e := by
  obtain ⟨x, hx, hgate⟩ := Option.bind_eq_some_iff.mp h
  rw [Option.ite_none_right_eq_some] at hgate
  obtain ⟨-, hxe⟩ := hgate
  rwa [← Option.some.inj hxe]

theorem fence_startable {s : State} {f : Fn} {e : InFlight} {r : List InFlight} (hm : s.mains f = e :: r) (hc : State.clsOf e = .fence)
    (hs : e.started = none) (he : e.ends = none) (hw : s.waitState f e.cmd = some true) (hg : s.gate f e.cmd.opc = none) :
    s.startable f .fence = some e := by
  have hhead : s.headOf f .fence = some e := by simp [State.headOf, hm, hc, hs, he, List.findIdx?_cons]
  simp [State.startable, hhead, hw, hg]

section
variable {p : PartId} {e : InFlight} {s u : State}

theorem exec_fence (hu : s.settled (some p) = u) (he : u.startable (some p) .fence = some e) : exec (.fence p) s =
    .next ((u.modWin (some p) fun w => { w with fenceCnt := 0 }).complete (some p) false e.cmd.seq
      { status := stOk, result := u.parts[p].win.fenceCnt }) := by
  subst hu
  change execFence p s = _
  simp only [execFence, he]

/-- The FENCE ends with the count that it found, and leaves the count at 0. -/
theorem fence_ended (he : u.startable (some p) .fence = some e) (hurg : e.urgent = false)
    (hfl : u.inFlight (some p) false e.cmd.seq = some e) {t : State}
    (ht : (u.modWin (some p) fun w => { w with fenceCnt := 0 }).complete (some p) false e.cmd.seq
      { status := stOk, result := u.parts[p].win.fenceCnt } = t) :
    OnlyPart u t p ∧ t.parts[p].win.fenceCnt = 0 ∧ Ended u t (some p) e stOk 0 u.parts[p].win.fenceCnt := by
  have hends := (startable_spec _ _ _ _ he).2.2.2
  have honly : OnlyPart u (u.modWin (some p) fun w => { w with fenceCnt := 0 }) p := OnlyFn.modWin u (some p) _
  have hwin : (u.modWin (some p) fun w => { w with fenceCnt := 0 }).win (some p) = _ := State.modWin_win u (some p) _
  have hdma : (u.modWin (some p) fun w => { w with fenceCnt := 0 }).dma (some p) = _ := modWin_dma u (some p) _
  have hcount : (u.modWin (some p) fun w => { w with fenceCnt := 0 }).seqCount (some p) = _ := modWin_seqCount u (some p) _
  generalize u.modWin (some p) _ = v at *
  have hvfl : v.inFlight (some p) false e.cmd.seq = some e := by
    rw [← hfl]; exact inFlight_congr u v _ _ _ (by rw [hwin])
  have hnow := complete_now v (some p) e { status := stOk, result := u.parts[p].win.fenceCnt } (by rw [hurg]; exact hvfl) hends
  have hended := complete_ended v (some p) e { status := stOk, result := u.parts[p].win.fenceCnt } rfl rfl (by rw [hurg]; exact hvfl) hends
  rw [hurg] at hnow hended
  rw [ht] at hnow hended
  refine ⟨honly.trans (ht ▸ OnlyFn.complete v (some p) _ _ _), ?_, hended.of_eq (by rw [hwin]) (by rw [hwin]) (by rw [hdma]) hcount⟩
  have hcnt := completeNow_fenceCnt hvfl { status := stOk, result := u.parts[p].win.fenceCnt } true
  rw [← hnow, hwin] at hcnt
  exact hcnt

end

theorem jobOpen_fenceCnt {p : PartId} {c : Cmd} {v : Service} {b : Bytes} {sigOk : Bool} {s : State}
    (hc : s.serving (some p) 0x01 = some c) (hv : s.parts[p].service = some v) (hi : s.parts[p].pstate = .idle)
    (hok : s.compactOk p c b sigOk = true) : ∃ t, exec (.jobOpen p (some b) sigOk) s = .next t ∧ t.parts[p].win.fenceCnt = 0 := by
  refine ⟨_, exec_jobOpen_opened hc hv hi hok, ?_⟩
  rw [(noted_only (s.openJob p b) p v stOk 0 0).2, openJob_part]
  rfl

/-- Settles O11: a FENCE starts at the head of the main commands alone (`headOf_fence`, `fence_startable`), holds what comes after it
(`headOf_before`), and ends with the count that each completion and each refusal adds to. -/
theorem fenceCompletes : Obligations.FenceCompletes := by
  refine ⟨fun p e s he hurg hfl => ?_, fun f e s h => headOf_fence s f e (startable_headOf h),
    fun f e r s hm hc hs he hw hg => fence_startable hm hc hs he hw hg,
    fun f e x l r k s hm hc h => headOf_before s f e x l r k hm hc (startable_headOf h),
    fun f e urgent q r record s h => completeNow_fenceCnt h r record,
    fun f urgent c st s => (refuse_spec s f urgent c st).2.2.1,
    fun p c v b sigOk s hc hv hi hok => jobOpen_fenceCnt hc hv hi hok, fun f s => .settled s f⟩
  have hsettled : PartAndMarks s (s.settled (some p)) p := FnAndMarks.settled s (some p)
  have hexec := exec_fence rfl he
  generalize s.settled (some p) = u at *
  generalize ht : (u.modWin (some p) fun w => { w with fenceCnt := 0 }).complete (some p) false e.cmd.seq _ = t at *
  obtain ⟨honly, hcnt, hended⟩ := fence_ended he hurg hfl ht
  exact ⟨t, hexec, hsettled.trans honly.marks, hcnt, hended⟩

/-! ### STATUS (R350) -/

/-- s once the SETV of a STATUS has set the partition's stream view. -/
def State.setView (s : State) (f : Fn) (c : Cmd) : State :=
  match f with
  | some p => if bit c.arg1 16 then s.modPart p fun x => { x with vbase := bits c.arg1 10 0 } else s
  | none => s

section
variable (s : State) (f : Fn) (c : Cmd)

theorem OnlyFn.setView : OnlyFn s (s.setView f c) f := by
  cases f with
  | none => exact .refl s none
  | some p =>
    unfold State.setView
    dsimp only
    split
    · exact OnlyPart.modPart s p _
    · exact OnlyPart.refl s p

theorem setView_command : (s.setView f c).win f = s.win f ∧ (s.setView f c).dma f = s.dma f ∧
    (s.setView f c).seqCount f = s.seqCount f := by
  cases f with
  | none => exact ⟨rfl, rfl, rfl⟩
  | some p =>
    unfold State.setView
    dsimp only
    split
    · simp [State.win, State.dma, State.seqCount]
    · exact ⟨rfl, rfl, rfl⟩

theorem setView_vbase (p : PartId) : (s.setView (some p) c).parts[p].vbase =
    if bit c.arg1 16 then bits c.arg1 10 0 else s.parts[p].vbase := by
  unfold State.setView
  dsimp only
  split
  · rw [part_get]
  · rfl

end

/-- The dump shows nothing of what waits to be written. -/
theorem statusDump_postWrite (s : State) (f : Fn) (w : HostWrite) : (s.postWrite f w).statusDump f = s.statusDump f := by
  cases f with
  | none => rfl
  | some p =>
    have hpart : (s.postWrite (some p) w).parts[p] = { s.parts[p] with
        dma := { s.parts[p].dma with writes := s.parts[p].dma.writes ++ [w] } } := part_get s p _
    have htiles : (s.postWrite (some p) w).tilesOf p = s.tilesOf p := rfl
    simp only [State.statusDump, State.mirror, hpart, htiles]
    rfl

section
variable {f : Fn} {e : InFlight} {s u : State} (hu : s.settled f = u) (he : u.nextStatus f = some e)
include hu he

theorem exec_status_plain (h0 : e.cmd.arg0 = 0) : exec (.status f) s =
    .next (((u.start f e.urgent e.cmd.seq).setView f e.cmd).complete f e.urgent e.cmd.seq { status := stOk }) := by
  subst hu
  change execStatus f s = _
  simp only [execStatus, he, h0, if_true]
  rfl

theorem exec_status_dump (h0 : e.cmd.arg0 ≠ 0) : exec (.status f) s =
    .next (((u.start f e.urgent e.cmd.seq).setView f e.cmd).postWrite f
      ⟨.other, e.cmd.arg0, ((u.start f e.urgent e.cmd.seq).setView f e.cmd).statusDump f, .command e.urgent e.cmd.seq, none⟩) := by
  subst hu
  change execStatus f s = _
  simp only [execStatus, he, h0, if_false]
  rfl

end

/-- Settles O12: a STATUS starts and sets the view (`State.setView`), and then it completes, or its dump is queued. -/
theorem statusCompletes : Obligations.StatusCompletes := by
  intro f e s u hu he hfl
  obtain ⟨hstarted, hends⟩ := nextStatus_spec u f e he
  obtain ⟨-, hsdma, hscount⟩ := start_tags u f e.urgent e.cmd.seq
  have hentry := start_inFlight u f e hfl
  have honly := (OnlyFn.start u f e.urgent e.cmd.seq).trans (.setView _ f e.cmd)
  obtain ⟨hwin, hdma, hcount⟩ := setView_command (u.start f e.urgent e.cmd.seq) f e.cmd
  have hview (p : PartId) (hf : f = some p) : ((u.start f e.urgent e.cmd.seq).setView f e.cmd).parts[p].vbase =
      if bit e.cmd.arg1 16 then bits e.cmd.arg1 10 0 else u.parts[p].vbase := by
    subst hf; rw [setView_vbase, start_vbase]
  refine ⟨fun h0 => ⟨_, exec_status_plain hu he h0, ?_⟩, fun h0 => ⟨_, exec_status_dump hu he h0, ?_⟩⟩
  · generalize (u.start f e.urgent e.cmd.seq).setView f e.cmd = v at *
    refine ⟨honly.trans (.complete v f _ _ _), ?_, fun p hf => ?_⟩
    · exact start_complete_ended u v f e { status := stOk } rfl rfl hends hfl hwin (hdma.trans hsdma) (hcount.trans hscount)
    · rw [← hview p hf]; subst hf; exact complete_vbase v p _ _ _
  · generalize (u.start f e.urgent e.cmd.seq).setView f e.cmd = v at *
    refine ⟨honly.trans (.modDma v f _), ?_, ?_, fit_len _ _, fun p hf => ?_⟩
    · rw [← hentry]
      exact inFlight_congr _ _ _ _ _ (congrArg Window.table ((modDma_win v f _).trans hwin))
    · rw [statusDump_postWrite, State.postWrite, modDma_dma, hdma, hsdma]
    · rw [← hview p hf]; subst hf; rw [State.postWrite, State.modDma_some, part_get]

/-! ### ABORT (R331) -/

/-- A command that ends before it starts completes, and what its marks held is no part of its ending (R327, R393). -/
theorem endUnstarted_ended {s : State} {f : Fn} {e : InFlight} (st : Nat) (h : s.inFlight f e.urgent e.cmd.seq = some e)
    (he : e.ends = none) : Ended s (s.endUnstarted f e st) f e st 0 0 := by
  cases f with
  | none => exact complete_ended s none e { status := st } rfl rfl h he
  | some p =>
    have hwin := unmark_win s p e.cmd
    have hended := complete_ended (s.unmark p e.cmd) (some p) e { status := st } rfl rfl
      (by rw [← h]; exact inFlight_congr _ _ _ _ _ (by rw [hwin])) he
    exact hended.of_eq (by rw [hwin]) (by rw [hwin]) (by rw [unmark_dma]) (unmark_seqCount s p e.cmd)

/-- A change of the main commands is none of an urgent one. -/
theorem modInFlight_urgent {s : State} {f : Fn} {q k : Nat} {g : InFlight → InFlight} (hg : ∀ e, (g e).urgent = e.urgent) :
    (s.modInFlight f false q g).inFlight f true k = s.inFlight f true k := by
  unfold State.inFlight State.modInFlight
  rw [State.modWin_win]
  induction (s.win f).table with
  | nil => rfl
  | cons x xs ih =>
    rw [List.map_cons]
    cases hx : x.urgent with
    | true =>
      rw [if_neg (by simp)]
      simp only [List.find?_cons]
      rw [← ih]
    | false =>
      have hmod : (if false == false && x.cmd.seq == q then g x else x).urgent = false := by
        split
        · exact (hg x).trans hx
        · exact hx
      rw [List.find?_cons_of_neg (by rw [hmod]; simp), List.find?_cons_of_neg (by simp [hx])]
      exact ih

/-- t0 of a partition reset where none is under way (R336, R457). -/
theorem startReset_begins {s : State} {p : PartId} (a b : Bool) (hr : s.parts[p].reset = none)
    (hp : s.parts[p].pstate = .idle ∨ s.parts[p].pstate = .opening ∨ s.parts[p].pstate = .running) :
    (s.startReset p a b).parts[p] = { s.parts[p] with
      win := { s.parts[p].win with table := s.parts[p].win.table.map fun e => { e with ends := some (e.ends.getD stCut) } }
      pstate := .resetting, reset := some ⟨0, s.parts[p].pstate, s.clocks.jewel, a, b, false⟩ } := by
  have hmarked : (s.markEnds p).parts[p] = { s.parts[p] with win := { s.parts[p].win with
      table := s.parts[p].win.table.map fun e => { e with ends := some (e.ends.getD stCut) } } } := part_get s p _
  unfold State.startReset
  obtain hp | hp | hp := hp <;> simp only [hr, hp, part_get, hmarked]

section
variable {f : Fn} {a : InFlight} {s u : State}

theorem exec_abort (hu : s.settled f = u) (ha : u.urgentHead f (· == 0x52) = some a) : exec (.abort f) s = .next (u.abortTarget f a) := by
  subst hu
  change execAbort f s = _
  simp only [execAbort, ha]

theorem abortTarget_missing (h : u.inFlight f false a.cmd.arg0 = none) :
    u.abortTarget f a = u.complete f true a.cmd.seq { status := stNotaborted, result := 4 } := by
  simp only [State.abortTarget, h]

theorem abortTarget_waiting {x : InFlight} (h : u.inFlight f false a.cmd.arg0 = some x) (hx : x.started = none) :
    u.abortTarget f a = (u.endUnstarted f x stAborted).complete f true a.cmd.seq { status := stOk, result := 1 } := by
  simp only [State.abortTarget, h, hx, Option.isNone_none, if_true]

theorem abortTarget_kept {x : InFlight} (h : u.inFlight f false a.cmd.arg0 = some x) (hx : x.started.isSome = true)
    (hc : ([0x11, 0x30, 0x20, 0x21, 0x40, 0x41, 0x50] : List Nat).contains x.cmd.opc = false) :
    u.abortTarget f a = u.complete f true a.cmd.seq { status := stNotaborted, result := 3 } := by
  have hstarted : x.started.isNone = false := by rw [← Option.not_isSome, hx]; rfl
  cases f <;> simp only [State.abortTarget, h, hstarted, hc, Bool.false_eq_true, if_false]

/-- s with its main command q marked to complete as ABORTED. -/
def State.markAborted (s : State) (p : PartId) (q : Nat) : State :=
  s.modInFlight (some p) false q fun e => { e with ends := some stAborted }

theorem abortTarget_reset {p : PartId} {x : InFlight} (h : u.inFlight (some p) false a.cmd.arg0 = some x) (hx : x.started.isSome = true)
    (hc : ([0x11, 0x30, 0x20, 0x21, 0x40, 0x41, 0x50] : List Nat).contains x.cmd.opc = true) :
    u.abortTarget (some p) a =
      ((u.markAborted p x.cmd.seq).complete (some p) true a.cmd.seq { status := stOk, result := 2 }).startReset p false false := by
  have hstarted : x.started.isNone = false := by rw [← Option.not_isSome, hx]; rfl
  simp only [State.abortTarget, h, hstarted, hc, Bool.false_eq_true, if_false]
  rfl

/-- An urgent command that no reset has in store ends with its status. -/
theorem complete_urgent {v : State} (r : Result) (hf : r.flags = 0) (hm : r.maxw = 0) (hurg : a.urgent = true) (hends : a.ends = none)
    (h : v.inFlight f true a.cmd.seq = some a) : OnlyFn v (v.complete f true a.cmd.seq r) f ∧
      Ended v (v.complete f true a.cmd.seq r) f a r.status r.cls r.result := by
  have hended := complete_ended v f a r hf hm (by rw [hurg]; exact h) hends
  rw [hurg] at hended
  exact ⟨.complete v f true _ r, hended⟩

end

/-- The reset that an ABORT starts: the ABORT has its record, the target is marked ABORTED, and every other command has an ending. -/
theorem abort_resets {u : State} {p : PartId} {a : InFlight} {q : Nat} (hurg : a.urgent = true) (hends : a.ends = none)
    (hfl : u.inFlight (some p) true a.cmd.seq = some a) (hrun : u.parts[p].pstate = .running) (hr : u.parts[p].reset = none) {t : State}
    (ht : ((u.markAborted p q).complete (some p) true a.cmd.seq { status := stOk, result := 2 }).startReset p false false = t) :
    OnlyPart u t p ∧ t.parts[p].pstate = .resetting ∧
    t.parts[p].reset = some ⟨0, .running, u.clocks.jewel, false, false, false⟩ ∧
    t.parts[p].dma.writes = u.parts[p].dma.writes ++ (if a.cmd.cpl = 0 then [] else
      recordWrites a (recordBytes a.cmd true stOk a.cls 0 (u.seqCount (some p)) 2 a.maxw)) ∧
    ∀ y ∈ t.parts[p].win.table, y.ends.isSome = true ∧ (y.urgent = false → y.cmd.seq = q → y.ends = some stAborted) := by
  have hmark : OnlyPart u (u.markAborted p q) p := OnlyFn.modInFlight u (some p) _ _ _
  have hmpart : (u.markAborted p q).parts[p] = { u.parts[p] with win := { u.parts[p].win with
      table := u.parts[p].win.table.map fun e => if e.urgent == false && e.cmd.seq == q then { e with ends := some stAborted } else e } } :=
    part_get u p _
  have hmfl : (u.markAborted p q).inFlight (some p) true a.cmd.seq = some a := 
    (modInFlight_urgent (g := fun e => { e with ends := some stAborted }) fun _ => rfl).trans hfl
  generalize u.markAborted p q = v at *
  obtain ⟨hcomp, htable, -, hwrites⟩ := complete_urgent { status := stOk, result := 2 } rfl rfl hurg hends hmfl
  have hside := complete_side v p true a.cmd.seq { status := stOk, result := 2 }
  generalize v.complete (some p) true a.cmd.seq _ = w at *
  have hclock : w.clocks = u.clocks := by rw [(hmark.trans hcomp).1]
  obtain ⟨hwstate, -, -, -, -, -, -, -, -, -, -, -, hwreset, -⟩ := hside.fields
  rw [hmpart] at hwstate hwreset
  have hbegin := startReset_begins false false (hwreset.trans hr) (.inr (.inr (hwstate.trans hrun)))
  have hreset : OnlyPart w t p := ht ▸ OnlyPart.startReset w p false false
  rw [ht, hwstate, hclock] at hbegin
  refine ⟨(hmark.trans hcomp).trans hreset, by rw [hbegin], by rw [hbegin, ← hrun], ?_, fun y hy => ?_⟩
  · have hvdma : v.dma (some p) = u.parts[p].dma := by simp only [State.dma, hmpart]
    have hvcount : v.seqCount (some p) = u.seqCount (some p) := by simp only [State.seqCount, hmpart]
    rw [hvdma, hvcount, hurg] at hwrites
    rw [hbegin]
    simpa [statusCls, stOk, State.dma] using hwrites
  · rw [hbegin] at hy
    obtain ⟨z, hz, rfl⟩ := List.mem_map.mp hy
    refine ⟨rfl, fun hzu hzq => ?_⟩
    have hzv : z ∈ v.parts[p].win.table := (List.mem_filter.mp (show z ∈ _ from htable ▸ hz)).1
    rw [hmpart] at hzv
    obtain ⟨x, -, rfl⟩ := List.mem_map.mp hzv
    by_cases hkey : (x.urgent == false && x.cmd.seq == q) = true
    · simp only [hkey, if_true, Option.getD_some]
    · simp only [hkey, if_false, Bool.false_eq_true] at hzu hzq
      exact absurd (by rw [hzu, hzq]; simp) hkey

/-- Settles O13: by the target, a branch of `State.abortTarget` each; a target that a reset ends is marked before the reset starts, which
leaves the mark (`abort_resets`). -/
theorem abortActsByTarget : Obligations.AbortActsByTarget := by
  intro f a s u hu ha hfl
  obtain ⟨hurg, -, -, hends⟩ := urgentHead_spec u f _ a ha
  rw [exec_abort hu ha]
  refine ⟨fun hx => ⟨_, rfl, ?_⟩, fun x hx hnew hxends => ?_, fun x hx hst hopc => ⟨_, rfl, ?_⟩,
    fun x p hf hx hst hopc hrun hr => ⟨_, rfl, ?_⟩⟩
  · rw [abortTarget_missing hx]
    exact complete_urgent { status := stNotaborted, result := 4 } rfl rfl hurg hends hfl
  · obtain ⟨hxu, hxq⟩ := inFlight_key hx
    have htarget := endUnstarted_ended stAborted (by rw [hxu, hxq]; exact hx) hxends
    have hframe := FnAndMarks.endUnstarted u f x stAborted
    refine ⟨u.endUnstarted f x stAborted, _, rfl, ?_⟩
    rw [abortTarget_waiting hx hnew]
    have hvfl := (inFlight_filter u _ f x.urgent true x.cmd.seq a.cmd.seq htarget.1 (.inl (by rw [hxu]; decide))).trans hfl
    obtain ⟨honly, hended⟩ := complete_urgent { status := stOk, result := 1 } rfl rfl hurg hends hvfl
    exact ⟨hframe.trans honly.marks, htarget, hended⟩
  · have hkept : ∀ n ∈ ([0x01, 0x02, 0x03, 0x04, 0x10, 0x60] : List Nat),
        ([0x11, 0x30, 0x20, 0x21, 0x40, 0x41, 0x50] : List Nat).contains n = false := by decide
    rw [abortTarget_kept hx hst (hkept _ hopc)]
    exact complete_urgent { status := stNotaborted, result := 3 } rfl rfl hurg hends hfl
  · subst hf
    have hclock : s.clocks = u.clocks := by rw [← hu]; exact (State.settled_frame s (some p)).2.2.1.symm
    rw [abortTarget_reset hx hst (List.contains_iff_mem.mpr hopc), hclock]
    exact abort_resets hurg hends hfl hrun hr rfl

/-! ### COMMAND_TIMEOUT (R325, R336, R448, R454) -/

/-- s with these commands of partition p marked to complete as TIMEOUT. -/
def State.markTimeouts (s : State) (p : PartId) (es : List InFlight) : State :=
  es.foldl (fun s e => s.modInFlight (some p) e.urgent e.cmd.seq fun x => { x with ends := some stTimeout }) s

/-- s with a TIMEOUT raised for each of these commands of partition p. -/
def State.raiseTimeouts (s : State) (p : PartId) (es : List InFlight) : State :=
  es.foldl (fun s e => s.raise p 0x30 0xFF 0 e.cmd.seq (some (e.urgent, e.cmd.seq))) s

/-- The marks change the endings of the table, and no more of the partition (R336). -/
theorem markTimeouts_spec (p : PartId) (es : List InFlight) (s : State) :
    OnlyPart s (s.markTimeouts p es) p ∧ CommandSide s.parts[p] (s.markTimeouts p es).parts[p] ∧
    (s.markTimeouts p es).clocks = s.clocks ∧ (s.markTimeouts p es).parts[p].log = s.parts[p].log ∧
    (s.markTimeouts p es).parts[p].win.table = s.parts[p].win.table.map fun x =>
      if es.any (fun e => x.urgent == e.urgent && x.cmd.seq == e.cmd.seq) then { x with ends := some stTimeout } else x := by
  obtain ⟨honly, hside, hclock, htable⟩ := mark_fold p es s
  refine ⟨honly, hside, hclock, ?_, htable⟩
  refine List.foldlRecOn (motive := fun v : State => v.parts[p].log = s.parts[p].log) es _ rfl fun v hv e _ => ?_
  rw [State.modInFlight, State.modWin_some, part_get]
  exact hv

/-- The commands of partition p whose timeouts have expired (R454). -/
def State.timedOut (s : State) (p : PartId) : List InFlight := s.parts[p].win.table.filter (s.expired (some p))

theorem exec_commandTimeout_part {p : PartId} {s : State}
    (h : ((s.markTimeouts p (s.timedOut p)).raiseTimeouts p (s.timedOut p)).parts[p].reset.isSome = true) :
    exec (.commandTimeout (some p)) s = .next ((s.markTimeouts p (s.timedOut p)).raiseTimeouts p (s.timedOut p)) := by
  change execCommandTimeout (some p) s = _
  exact if_pos h

/-- The first TIMEOUT raised starts the partition reset, and the others find it under way (R336, R448). -/
theorem raiseTimeouts_spec {p : PartId} {es : List InFlight} {s : State} (hes : es ≠ []) (hr : s.parts[p].reset = none)
    (hp : s.parts[p].pstate = .idle ∨ s.parts[p].pstate = .opening ∨ s.parts[p].pstate = .running)
    (hl : (s.parts[p].log.episode.map (·.level)).getD 0 < 4) :
    OnlyPart s (s.raiseTimeouts p es) p ∧ (s.raiseTimeouts p es).parts[p].pstate = .resetting ∧
    (s.raiseTimeouts p es).parts[p].reset = some ⟨0, s.parts[p].pstate, s.clocks.jewel, false, false, false⟩ ∧
    (s.raiseTimeouts p es).parts[p].win.table.map (fun e => (e.cmd, e.urgent, e.ends)) =
      s.parts[p].win.table.map fun e => (e.cmd, e.urgent, some (e.ends.getD stCut)) := by
  cases es with
  | nil => exact absurd rfl hes
  | cons e es =>
    obtain ⟨honly, -, hfirst⟩ := raise_timeout s p e.cmd.seq (e.urgent, e.cmd.seq)
    obtain ⟨hreset, hstate, htable⟩ := hfirst hr hp hl
    obtain ⟨honly', hreset', hstate', htable'⟩ := raise_timeout_fold p es _ _ hreset
    exact ⟨honly.trans honly', hstate'.trans hstate, hreset', htable'.trans htable⟩

/-- An entry of the table as the reset leaves it: its command as before, with an ending, which is TIMEOUT where it has expired. -/
theorem timedOut_entry {p : PartId} {es : List InFlight} {s t : State}
    (ht : t.parts[p].win.table.map (fun e => (e.cmd, e.urgent, e.ends)) =
      (s.markTimeouts p es).parts[p].win.table.map fun e => (e.cmd, e.urgent, some (e.ends.getD stCut))) :
    t.parts[p].win.table.map (fun e => (e.cmd, e.urgent)) = s.parts[p].win.table.map (fun e => (e.cmd, e.urgent)) ∧
    ∀ e' ∈ t.parts[p].win.table, e'.ends.isSome = true ∧
      ∀ e ∈ es, e'.urgent = e.urgent → e'.cmd.seq = e.cmd.seq → e'.ends = some stTimeout := by
  obtain ⟨-, -, -, -, htable⟩ := markTimeouts_spec p es s
  rw [htable, List.map_map] at ht
  refine ⟨?_, fun e' he' => ?_⟩
  · have hkeys := congrArg (List.map fun x : Cmd × Bool × Option Nat => (x.1, x.2.1)) ht
    simp only [List.map_map] at hkeys
    refine hkeys.trans (List.map_congr_left fun x _ => ?_)
    simp only [Function.comp_apply]
    split <;> rfl
  · have hmem : (e'.cmd, e'.urgent, e'.ends) ∈ t.parts[p].win.table.map fun e => (e.cmd, e.urgent, e.ends) := List.mem_map_of_mem he'
    rw [ht] at hmem
    obtain ⟨x, -, hx⟩ := List.mem_map.mp hmem
    simp only [Function.comp_apply] at hx
    injection hx with hcmd hx
    injection hx with hurg hends
    refine ⟨by rw [← hends]; rfl, fun e he hu hq => ?_⟩
    have hkey : (es.any fun e => x.urgent == e.urgent && x.cmd.seq == e.cmd.seq) = true := by
      have hxu : x.urgent = e'.urgent := by rw [← hurg]; split <;> rfl
      have hxc : x.cmd = e'.cmd := by rw [← hcmd]; split <;> rfl
      exact List.any_eq_true.mpr ⟨e, he, by simp [hxu, hxc, hu, hq]⟩
    rw [← hends, if_pos hkey]
    rfl

/-- s with the TIMEOUT of a command of the physical function raised, and what ran for it withdrawn. -/
def State.withdrawPf (s : State) (e : InFlight) : State :=
  let s := { s with pf := { s.pf with service := s.pf.service.filter (·.seq != e.cmd.seq) } }
  (s.raiseModule 0x30 0xFF e.cmd.seq).dropRequests none (.command e.urgent e.cmd.seq)

/-- s once that command has left the table (R454). -/
def State.timeOutPf (s : State) (e : InFlight) : State :=
  (s.withdrawPf e).complete none e.urgent e.cmd.seq { status := stTimeout, cls := 4 }

theorem exec_commandTimeout_pf (s : State) : exec (.commandTimeout none) s =
    .next ((s.pf.win.table.filter (s.expired none)).foldl (fun s e => s.timeOutPf e) s) := rfl

/-- Where nothing of the table waits for an ending, a completion takes its entry out. -/
theorem complete_table {s : State} {f : Fn} (h : ∀ e ∈ (s.win f).table, e.ends = none) (u : Bool) (q : Nat) (r : Result) :
    ((s.complete f u q r).win f).table = (s.win f).table.filter fun x => !(x.urgent == u && x.cmd.seq == q) := by
  have hnone : ((s.inFlight f u q).any fun e => e.ends.isSome) = false := by
    cases hfl : s.inFlight f u q with
    | none => rfl
    | some e => simp [h e (List.mem_of_find?_eq_some hfl)]
  rw [State.complete, if_neg (ne_true_of_eq_false hnone)]
  exact completeNow_table s f u q r true

theorem timeOutPf_spec {s : State} (h : ∀ e ∈ s.pf.win.table, e.ends = none) (e : InFlight) : OnlyFn s (s.timeOutPf e) none ∧
    (s.timeOutPf e).pf.win.table = s.pf.win.table.filter fun x => !(x.urgent == e.urgent && x.cmd.seq == e.cmd.seq) :=
  ⟨OnlyFn.trans (t := s.withdrawPf e) rfl (.complete _ none _ _ _), complete_table (s := s.withdrawPf e) (f := none) h _ _ _⟩

theorem timeOutPf_fold (es : List InFlight) {s : State} (h : ∀ e ∈ s.pf.win.table, e.ends = none) :
    OnlyFn s (es.foldl (fun s e => s.timeOutPf e) s) none ∧ (es.foldl (fun s e => s.timeOutPf e) s).pf.win.table =
      s.pf.win.table.filter fun x => !(es.any fun e => x.urgent == e.urgent && x.cmd.seq == e.cmd.seq) := by
  induction es generalizing s with
  | nil => exact ⟨.refl s none, (List.filter_eq_self.mpr fun _ _ => rfl).symm⟩
  | cons e es ih =>
    obtain ⟨honly, htable⟩ := timeOutPf_spec h e
    obtain ⟨honly', htable'⟩ := ih (s := s.timeOutPf e) fun x hx => h x (List.mem_filter.mp (htable ▸ hx)).1
    refine ⟨honly.trans honly', htable'.trans ?_⟩
    rw [htable, List.filter_filter]
    refine List.filter_congr fun x _ => ?_
    rw [List.any_cons, Bool.not_or, Bool.and_comm]

/-- Settles O14: the marks (`State.markTimeouts`) stand before the first TIMEOUT raised starts the reset, whose CUT goes to what has no
ending yet; the commands of the physical function are taken out one by one. -/
theorem timeoutStartsReset : Obligations.TimeoutStartsReset := by
  refine ⟨fun p s hsome hr hp hl => ?_, fun s h => ⟨_, exec_commandTimeout_pf s, ?_⟩⟩
  · obtain ⟨hmark, hside, hclock, hlog, -⟩ := markTimeouts_spec p (s.timedOut p) s
    have hexec := exec_commandTimeout_part (p := p) (s := s)
    have hentry {t : State} := timedOut_entry (p := p) (es := s.timedOut p) (s := s) (t := t)
    have hes : s.timedOut p ≠ [] := by
      obtain ⟨e, he, hexp⟩ := hsome
      exact List.ne_nil_of_mem (List.mem_filter.mpr ⟨he, hexp⟩)
    generalize s.markTimeouts p _ = v at *
    obtain ⟨hvstate, -, -, -, -, -, -, -, -, -, -, -, hvreset, -⟩ := hside.fields
    rw [← hlog] at hl
    rw [← hvstate] at hp
    obtain ⟨honly, hstate, hreset, htable⟩ := raiseTimeouts_spec hes (hvreset.trans hr) hp hl
    rw [hvstate, hclock] at hreset
    refine ⟨_, hexec (by rw [hreset]; rfl), hmark.trans honly, hstate, hreset, ?_⟩
    obtain ⟨hkeys, hends⟩ := hentry htable
    exact ⟨hkeys, fun e he => (hends e he).1, fun e he hexp e' he' => (hends e' he').2 e (List.mem_filter.mpr ⟨he, hexp⟩)⟩
  · obtain ⟨honly, htable⟩ := timeOutPf_fold (s.pf.win.table.filter (s.expired none)) h
    refine ⟨honly, htable.trans (List.filter_congr fun x _ => ?_)⟩
    rw [List.any_filter]

end Sys2Proof.Machine
end

section
/-! Jobs, programs and streams (11, R340-R342, R345, R346; 12, R372; 13, R414): ATTEST, LOAD_PROGRAM, BIND and UNBIND. -/

namespace Sys2Proof.Machine

/-! ### ATTEST (R340, R372) -/

/-- The bytes of a report that the manual does not give: two drawn ones for the physical function (log 1). -/
def State.reportFree (s : State) (f : Fn) : Bytes := if f = none then (List.range 2).map (Config.freeByte s.free) else []

/-- s once they have been drawn. -/
def State.reportDrawn (s : State) (f : Fn) : State := { s with free := s.free + if f = none then 1 else 0 }

theorem noted_reportDrawn (s : State) (f : Fn) (v : Service) (st cls result : Nat) : noted (s.reportDrawn f) f v st cls result =
    { noted s f v st cls result with free := (noted (s.reportDrawn f) f v st cls result).free } := by
  cases f <;> rfl

theorem noted_reported (s : State) (f : Fn) (w : HostWrite) (v : Service) (st cls result : Nat) :
    noted ((s.reportDrawn f).postWrite f w) f v st cls result =
      { noted (s.postWrite f w) f v st cls result with free := (noted ((s.reportDrawn f).postWrite f w) f v st cls result).free } ∧
    (noted ((s.reportDrawn f).postWrite f w) f v st cls result).free = s.free + if f = none then 1 else 0 := by
  cases f <;> exact ⟨rfl, rfl⟩

section
variable {f : Fn} {c : Cmd} {v : Service} {s : State} (hc : s.serving f 0x04 = some c) (hv : s.service f = some v)
include hc hv

theorem exec_attest_unread : exec (.attest f none) s = .next (noted s f v stFailed 2 0) := by
  change execAttest f none s = _
  simp only [execAttest, hc, outcome_noted s f v _ _ _ hv]

variable {n r : Bytes} (hr : r = s.report f n (s.reportFree f))
include hr

theorem exec_attest_long (h : c.arg2 < r.length) :
    exec (.attest f (some n)) s = .next (noted (s.reportDrawn f) f v stInvalid 2 0) := by
  have hv' : (s.reportDrawn f).service f = some v := by cases f <;> exact hv
  rw [← outcome_noted _ f v _ _ _ hv']
  rw [hr] at h
  change execAttest f (some n) s = _
  simp only [execAttest, hc]
  cases f <;> exact if_pos h

theorem exec_attest_reported (h : r.length ≤ c.arg2) : exec (.attest f (some n)) s =
    .next (noted ((s.reportDrawn f).postWrite f ⟨.other, c.arg1, r, .command false c.seq, none⟩) f v stOk 0 r.length) := by
  have hv' (w : HostWrite) : ((s.reportDrawn f).postWrite f w).service f = some v := by
    cases f with
    | none => exact hv
    | some p => exact (congrArg Part.service (part_get _ p _)).trans hv
  rw [← outcome_noted _ f v _ _ _ (hv' _)]
  rw [hr] at h ⊢
  change execAttest f (some n) s = _
  simp only [execAttest, hc]
  cases f <;> exact if_neg (Nat.not_lt.mpr h)

end

/-- Settles O18: the report is the one over the bytes drawn (log 1), and the draw moves the model's counter alone. -/
theorem attestReports : Obligations.AttestReports := by
  intro f c v s hc hv
  refine ⟨exec_attest_unread hc hv, fun n r hr => ⟨fun h => ⟨_, exec_attest_long hc hv hr h, noted_reportDrawn s f v _ _ _⟩,
    fun h => ⟨_, exec_attest_reported hc hv hr h, noted_reported s f _ v _ _ _⟩⟩⟩

/-! ### LOAD_PROGRAM (R341, R342) -/

section
variable {p : PartId} {e : InFlight} {s u : State} (hu : s.settled (some p) = u) (he : u.startable (some p) .tile = some e)
  (hop : e.cmd.opc = 0x10)
include hu he hop

theorem exec_loadProgram_unread : exec (.loadProgram p none) s = .next (u.endNow p e.cmd.seq { status := stFailed, cls := 2 }) := by
  subst hu
  change execLoadProgram p none s = _
  simp only [execLoadProgram, he, Option.filter_some, hop, beq_self_eq_true, if_true]

theorem exec_loadProgram_read (b : Bytes) : exec (.loadProgram p (some b)) s = .next ((u.loadImage p e.cmd b).1.endNow p e.cmd.seq
    { status := if (u.loadImage p e.cmd b).2 then stOk else stRefused, cls := if (u.loadImage p e.cmd b).2 then 0 else 2 }) := by
  subst hu
  change execLoadProgram p (some b) s = _
  simp only [execLoadProgram, he, Option.filter_some, hop, beq_self_eq_true, if_true]

end

/-- Loading an image changes no command of its partition. -/
theorem loadImage_command {s : State} {p : PartId} (c : Cmd) (b : Bytes) {j : Job} {jr : Bytes} (hj : s.parts[p].job = some j)
    (hr : j.jr = some jr) : ∃ k, (s.loadImage p c b).1.parts[p] = { s.parts[p] with job := k } := by
  obtain ⟨-, -, -, -, hrefused, hloaded⟩ := loadImage_spec s p c b j jr hj hr
  cases h : (s.loadImage p c b).2 with
  | false => exact ⟨s.parts[p].job, by rw [hrefused h]⟩
  | true =>
    obtain ⟨plain, segs, -, -, -, hpart, -⟩ := hloaded h
    exact ⟨_, hpart⟩

/-- The LOAD_PROGRAM starts and ends at once on the state with the image loaded or refused. -/
theorem endNow_loaded {v u : State} {p : PartId} {e : InFlight} (r : Result) (hf : r.flags = 0) (hm : r.maxw = 0) (hurg : e.urgent = false)
    (hends : e.ends = none) (hfl : u.inFlight (some p) false e.cmd.seq = some e) {k : Option Job}
    (hpart : v.parts[p] = { u.parts[p] with job := k }) : Ended u (v.endNow p e.cmd.seq r) (some p) e r.status r.cls r.result := by
  have hwin : v.win (some p) = u.win (some p) := by simp only [State.win, hpart]
  have hdma : v.dma (some p) = u.dma (some p) := by simp only [State.dma, hpart]
  have hcount : v.seqCount (some p) = u.seqCount (some p) := by simp only [State.seqCount, hpart]
  refine (endNow_ended v p e r hurg hf hm hends ?_).of_eq (by rw [hwin]) (by rw [hwin]) (by rw [hdma]) hcount
  rw [← hfl]
  exact inFlight_congr u v _ _ _ (by rw [hwin])

/-- Settles O19: `loadImage_spec` says what an image leaves of tiles and job; the command then ends on its partition's side alone. -/
theorem loadProgramMeasures : Obligations.LoadProgramMeasures := by
  intro p e j jr s u hu he hop hurg hfl hj hjr
  have hends := (startable_spec _ _ _ _ he).2.2.2
  refine ⟨⟨_, exec_loadProgram_unread hu he hop, (endNow_only u p _ _).1, endNow_ended u p e _ hurg rfl rfl hends hfl,
    (endNow_only u p _ _).2⟩, fun b => ⟨_, exec_loadProgram_read hu he hop b, ?_⟩⟩
  obtain ⟨hrest, hkept, htiles, hothers, hrefused, hloaded⟩ := loadImage_spec u p e.cmd b j jr hj hjr
  obtain ⟨k, hpart⟩ := loadImage_command e.cmd b hj hjr
  generalize (u.loadImage p e.cmd b).2 = ok at *
  generalize (u.loadImage p e.cmd b).1 = v at *
  have hended := endNow_loaded { status := if ok then stOk else stRefused, cls := if ok then 0 else 2 } rfl rfl hurg hends hfl hpart
  obtain ⟨⟨hend, hendkept⟩, hside⟩ := endNow_only v p e.cmd.seq
    { status := if ok then stOk else stRefused, cls := if ok then 0 else 2 }
  generalize v.endNow p e.cmd.seq _ = t at *
  have htt : t.tiles = v.tiles := by rw [hend]
  refine ⟨by rw [htt, hend, hrest], fun q hq => (hendkept q hq).trans (hkept q hq), by rw [htt]; exact htiles,
    by rw [htt]; exact hothers, fun h => ?_, fun h => ?_⟩
  · subst h
    obtain ⟨plain, segs, hplain, hprog, hsegs, hjob, himem⟩ := hloaded rfl
    rw [hjob] at hside
    exact ⟨hended, plain, segs, hplain, hprog, hsegs, hside, by rw [htt]; exact himem⟩
  · subst h
    rw [hrefused rfl] at hside
    exact ⟨hended, hside⟩

/-! ### A BIND or UNBIND that starts, or goes on once it has waited (R328, R345) -/

/-- s with command e started, if it has not been already. -/
def State.begun (s : State) (p : PartId) (e : InFlight) : State := if e.started.isSome then s else s.start (some p) false e.cmd.seq

theorem begun_window (s : State) (p : PartId) (e : InFlight) : OnlyPart s (s.begun p e) p ∧
    ∃ w, (s.begun p e).parts[p] = { s.parts[p] with win := w } := by
  unfold State.begun
  split
  · exact ⟨.refl s p, _, rfl⟩
  · exact start_window s p e.cmd.seq

section
variable {u v : State} {p : PartId} {e : InFlight}

theorem begun_inFlight (hurg : e.urgent = false) (hfl : u.inFlight (some p) false e.cmd.seq = some e) :
    (u.begun p e).inFlight (some p) false e.cmd.seq = some { e with started := some (e.started.getD (u.seqCount (some p))) } := by
  unfold State.begun
  cases hs : e.started with
  | some n =>
    rw [Option.isSome_some, if_pos rfl, hfl, Option.getD_some, ← hs]
  | none =>
    rw [Option.isSome_none, if_neg Bool.false_ne_true, Option.getD_none]
    have hentry := start_inFlight u (some p) e (by rw [hurg]; exact hfl)
    simp only [hurg] at hentry ⊢
    exact hentry

/-- Its completion is the ending of e, whether it has waited or not. -/
theorem begun_ended (r : Result) (hf : r.flags = 0) (hm : r.maxw = 0) (hurg : e.urgent = false) (hends : e.ends = none)
    (hfl : u.inFlight (some p) false e.cmd.seq = some e) (hwin : v.win (some p) = (u.begun p e).win (some p))
    (hdma : v.dma (some p) = u.dma (some p)) (hcount : v.seqCount (some p) = u.seqCount (some p)) :
    Ended u (v.complete (some p) false e.cmd.seq r) (some p) e r.status r.cls r.result := by
  unfold State.begun at hwin
  split at hwin
  · have hended := complete_ended v (some p) e r hf hm (by rw [← hfl, hurg]; exact inFlight_congr u v _ _ _ (by rw [hwin])) hends
    rw [hurg] at hended
    exact hended.of_eq (by rw [hwin]) (by rw [hwin]) (by rw [hdma]) hcount
  · have hended := start_complete_ended u v (some p) e r hf hm hends (by rw [hurg]; exact hfl) (by rw [hurg]; exact hwin) hdma hcount
    rwa [hurg] at hended

/-- A BIND or UNBIND that ends without a change of the stream table. -/
theorem begun_ends (r : Result) (hf : r.flags = 0) (hm : r.maxw = 0) (hurg : e.urgent = false) (hends : e.ends = none)
    (hfl : u.inFlight (some p) false e.cmd.seq = some e) :
    OnlyPart u ((u.begun p e).complete (some p) false e.cmd.seq r) p ∧
    CommandSide u.parts[p] ((u.begun p e).complete (some p) false e.cmd.seq r).parts[p] ∧
    Ended u ((u.begun p e).complete (some p) false e.cmd.seq r) (some p) e r.status r.cls r.result := by
  obtain ⟨honly, w, hpart⟩ := begun_window u p e
  refine ⟨honly.trans (complete_parts _ p false _ r), CommandSide.trans ?_ (complete_side _ p false _ r),
    begun_ended r hf hm hurg hends hfl rfl ?_ ?_⟩
  · rw [hpart]; rfl
  · simp only [State.dma, hpart]
  · simp only [State.seqCount, hpart]

/-- One that changes its partition by g as it ends, which is no part of its ending. -/
theorem begun_modPart_ends (r : Result) (hf : r.flags = 0) (hm : r.maxw = 0) (hurg : e.urgent = false) (hends : e.ends = none)
    (hfl : u.inFlight (some p) false e.cmd.seq = some e) {g : Part → Part}
    (hg : ∀ x, (g x).win = x.win ∧ (g x).dma = x.dma ∧ (g x).count = x.count)
    (hv : ((u.begun p e).modPart p g).complete (some p) false e.cmd.seq r = v) :
    OnlyPart u v p ∧ Ended u v (some p) e r.status r.cls r.result ∧ ∃ w, CommandSide (g { u.parts[p] with win := w }) v.parts[p] := by
  obtain ⟨honly, w, hpart⟩ := begun_window u p e
  obtain ⟨hgwin, hgdma, hgcount⟩ := hg (u.begun p e).parts[p]
  have hgpart := part_get (u.begun p e) p g
  have hended := begun_ended (v := (u.begun p e).modPart p g) r hf hm hurg hends hfl
  have hside := complete_side ((u.begun p e).modPart p g) p false e.cmd.seq r
  have hframe : OnlyPart u v p :=
    (honly.trans (OnlyPart.modPart _ p g)).trans (hv ▸ complete_parts ((u.begun p e).modPart p g) p false e.cmd.seq r)
  generalize (u.begun p e).modPart p g = y at *
  rw [hv] at hended hside
  refine ⟨hframe, hended ?_ ?_ ?_, w, ?_⟩
  · simp only [State.win, hgpart, hgwin]
  · simp only [State.dma, hgpart]
    rw [hgdma, hpart]
  · simp only [State.seqCount, hgpart]
    rw [hgcount, hpart]
  · rw [← hpart, ← hgpart]; exact hside

/-- One that waits on has its start and nothing else. -/
theorem begun_waits (hurg : e.urgent = false) (hfl : u.inFlight (some p) false e.cmd.seq = some e) :
    OnlyPart u (u.begun p e) p ∧ CommandSide u.parts[p] (u.begun p e).parts[p] ∧
    (u.begun p e).inFlight (some p) false e.cmd.seq = some { e with started := some (e.started.getD (u.seqCount (some p))) } := by
  obtain ⟨honly, w, hpart⟩ := begun_window u p e
  refine ⟨honly, ?_, begun_inFlight hurg hfl⟩
  rw [hpart]; rfl

variable (u p e)

theorem begun_stream (sid : Nat) : (u.begun p e).stream p sid = u.stream p sid := by
  obtain ⟨-, w, hpart⟩ := begun_window u p e
  simp only [State.stream, hpart]

theorem begun_freeStream : (u.begun p e).freeStream p = u.freeStream p := by
  obtain ⟨honly, w, hpart⟩ := begun_window u p e
  have hn : (u.begun p e).npart = u.npart := by rw [honly.1]; rfl
  simp only [State.freeStream, hpart, hn]

theorem begun_sidOk (c : Cmd) (j : Job) : (u.begun p e).sidOk p c j = u.sidOk p c j := by
  have hme : (u.begun p e).me = u.me := by rw [(begun_window u p e).1.1]; rfl
  simp only [State.sidOk, hme, begun_stream]

theorem begun_streamBusy (sid : Nat) : (u.begun p e).streamBusy p sid = u.streamBusy p sid := by
  obtain ⟨honly, w, hpart⟩ := begun_window u p e
  have htiles : (u.begun p e).tiles = u.tiles := by rw [honly.1]
  have hof : (u.begun p e).tilesOf p = u.tilesOf p := by rw [honly.1]; rfl
  simp only [State.streamBusy, hpart, htiles, hof]

end

/-! ### The stream table (R221, R345, R346) -/

/-- The lowest free index: no entry has it, and every lower one is taken. -/
theorem freeStream_spec {s : State} {p : PartId} {i : Nat} (h : s.freeStream p = some i) :
    (∀ x ∈ s.parts[p].streams, x.1 ≠ i) ∧ ∀ k < i, ∃ x ∈ s.parts[p].streams, x.1 = k := by
  obtain ⟨hfree, -, htaken⟩ := List.find?_range_eq_some.mp h
  rw [Bool.not_eq_true', List.any_eq_false] at hfree
  refine ⟨fun x hx hxi => hfree x hx (beq_iff_eq.mpr hxi), fun k hk => ?_⟩
  have hany := htaken k hk
  rw [Bool.not_not, List.any_eq_true] at hany
  obtain ⟨x, hx, hxk⟩ := hany
  exact ⟨x, hx, beq_iff_eq.mp hxk⟩

/-- The stream table with an entry at index i. -/
def putStream (l : List (Nat × Stream)) (i : Nat) (st : Stream) : List (Nat × Stream) :=
  l.filter (decide <| ·.1 < i) ++ (i, st) :: l.filter (decide <| i < ·.1)

theorem mem_putStream_self (l : List (Nat × Stream)) (i : Nat) (st : Stream) : (i, st) ∈ putStream l i st := by simp [putStream]

theorem mem_putStream_other (l : List (Nat × Stream)) {i : Nat} (st : Stream) {x : Nat × Stream} (h : x.1 ≠ i) :
    x ∈ putStream l i st ↔ x ∈ l := by
  have hne : x ≠ (i, st) := fun hx => h (by rw [hx])
  have hside : x.1 < i ∨ i < x.1 := Nat.lt_or_gt_of_ne h
  simp only [putStream, List.mem_append, List.mem_cons, List.mem_filter, decide_eq_true_eq, hne, false_or, ← and_or_left, hside, and_true]

/-- The entry that a BIND fills (R221, R346). -/
def boundStream (c : Cmd) : Stream :=
  ⟨c.arg0 % 2 ^ 32, bit c.arg0 48, bits c.arg0 39 32, bits c.arg0 47 40, c.arg1, c.arg2, 0,
    if bit c.arg0 48 then c.arg3 / 2 ^ 32 else 0, c.arg3 / 2 ^ 32, if bit c.arg0 48 then c.arg3 / 2 ^ 32 else 0, 0, false⟩

/-- A partition with that entry at index i of its streams; later SIDs lie above this one (R414). -/
def Part.bound (x : Part) (c : Cmd) (i : Nat) : Part :=
  { x with
    streams := putStream x.streams i (boundStream c)
    job := x.job.map fun j => { j with sidNext := max j.sidNext (c.arg0 % 2 ^ 13 + 1) } }

/-- Bits 12 to 0 of a SID are bits 12 to 0 of the argument. -/
theorem sid_number (n : Nat) : n % 2 ^ 32 % 2 ^ 13 = n % 2 ^ 13 := Nat.mod_mod_of_dvd n (by decide)

section
variable {s : State} {p : PartId} {c : Cmd} {j : Job}

theorem bindStream_refused (hk : bits c.arg0 47 40 ≠ 0) (hj : j.imports.any (·.1 + 1 == bits c.arg0 47 40) = false) :
    s.bindStream p c j = s.complete (some p) false c.seq { status := stRefused } := if_pos ⟨hk, hj⟩

variable (hk : bits c.arg0 47 40 = 0 ∨ j.imports.any (·.1 + 1 == bits c.arg0 47 40) = true)
include hk

theorem bindStream_keyed : ¬(bits c.arg0 47 40 ≠ 0 ∧ j.imports.any (·.1 + 1 == bits c.arg0 47 40) = false) := by
  rintro ⟨h0, hnone⟩
  exact ne_true_of_eq_false hnone (hk.resolve_left h0)

theorem bindStream_full (hfree : s.freeStream p = none) : s.bindStream p c j = s.complete (some p) false c.seq { status := stNores } := by
  refine (if_neg (bindStream_keyed hk)).trans ?_
  rw [hfree]

theorem bindStream_bound {i : Nat} (hfree : s.freeStream p = some i) :
    s.bindStream p c j = (s.modPart p fun x => x.bound c i).complete (some p) false c.seq { status := stOk, result := i } := by
  refine (if_neg (bindStream_keyed hk)).trans ?_
  simp only [hfree, sid_number]
  rfl

end

/-! ### BIND (R345, R346, R414) -/

section
variable {p : PartId} {e : InFlight} {j : Job} {s u : State} (hu : s.settled (some p) = u)
  (he : u.nextBind p 1 (u.bindReady p) = some e) (hj : u.parts[p].job = some j)
include hu he hj

theorem exec_bind : exec (.bind p) s =
    if !u.sidOk p e.cmd j then .next ((u.begun p e).complete (some p) false e.cmd.seq { status := stInvalid, cls := 2 })
    else if (State.sidNeeds e.cmd j).isSome then .next (u.begun p e) else .next ((u.begun p e).bindStream p e.cmd j) := by
  subst hu
  change execBind p s = _
  simp only [execBind, he, hj]
  rw [← State.begun, begun_sidOk]

theorem exec_bind_binds (hok : u.sidOk p e.cmd j = true) (hneeds : State.sidNeeds e.cmd j = none) :
    exec (.bind p) s = .next ((u.begun p e).bindStream p e.cmd j) := by
  rw [exec_bind hu he hj, hok, hneeds]
  rfl

end

/-- The BIND that takes index i: its entry stands in the table, and every other one as before. -/
theorem bound_ends {u : State} {p : PartId} {e : InFlight} {j : Job} {i : Nat} (hurg : e.urgent = false) (hends : e.ends = none)
    (hfl : u.inFlight (some p) false e.cmd.seq = some e) (hj : u.parts[p].job = some j) {t : State}
    (ht : ((u.begun p e).modPart p fun x => x.bound e.cmd i).complete (some p) false e.cmd.seq { status := stOk, result := i } = t) :
    OnlyPart u t p ∧ Ended u t (some p) e stOk 0 i ∧ t.parts[p].streams = putStream u.parts[p].streams i (boundStream e.cmd) ∧
    CommandSide { u.parts[p] with
      job := some { j with sidNext := max j.sidNext (e.cmd.arg0 % 2 ^ 13 + 1) }, streams := t.parts[p].streams } t.parts[p] := by
  obtain ⟨honly, hended, w, hside⟩ := begun_modPart_ends (g := fun x => x.bound e.cmd i) { status := stOk, result := i } rfl rfl
    hurg hends hfl (fun _ => ⟨rfl, rfl, rfl⟩) ht
  simp only [Part.bound, hj, Option.map_some] at hside
  have hstreams : t.parts[p].streams = putStream u.parts[p].streams i (boundStream e.cmd) := by rw [hside]
  exact ⟨honly, hended, hstreams, by rw [hstreams]; exact hside⟩

/-! ### UNBIND (R345) -/

/-- A partition with the stream of a SID released. -/
def Part.unbound (x : Part) (sid : Nat) : Part := { x with streams := x.streams.filter (·.2.sid != sid) }

section
variable {p : PartId} {e : InFlight} {s u : State} (hu : s.settled (some p) = u) (he : u.nextBind p 2 (u.unbindReady p) = some e)
include hu he

theorem exec_unbind : exec (.unbind p) s =
    if (u.stream p (e.cmd.arg0 % 2 ^ 32)).isNone then
      .next ((u.begun p e).complete (some p) false e.cmd.seq { status := stInvalid, cls := 2 })
    else if u.streamBusy p (e.cmd.arg0 % 2 ^ 32) then .next (u.begun p e)
    else .next (((u.begun p e).modPart p fun x => x.unbound (e.cmd.arg0 % 2 ^ 32)).complete (some p) false e.cmd.seq { status := stOk }) := by
  subst hu
  change execUnbind p s = _
  simp only [execUnbind, he]
  rw [← State.begun, begun_stream, begun_streamBusy]
  rfl

end

/-- Settles O22: each branch of BIND and UNBIND on the started command (`State.begun`); the index a BIND takes is the lowest free one
(`freeStream_spec`), and streamBusy (log 37) says what an UNBIND waits for. -/
theorem bindsTakeAndRelease : Obligations.BindsTakeAndRelease := by
  refine ⟨fun p e j s u hu he hends hurg hfl hj => ⟨fun hok => ?_, fun hok hneeds => ?_,
      fun hok hneeds => ⟨fun hk0 hk => ?_, fun hk => ⟨fun hfree => ?_, fun i hfree => ?_⟩⟩⟩,
    fun p e s u hu he hends hurg hfl => ⟨fun hst => ?_, fun hst hbusy => ?_, fun hst hbusy => ?_⟩⟩
  · rw [exec_bind hu he hj, hok]
    exact ⟨_, rfl, begun_ends { status := stInvalid, cls := 2 } rfl rfl hurg hends hfl⟩
  · rw [exec_bind hu he hj, hok, hneeds]
    exact ⟨_, rfl, begun_waits hurg hfl⟩
  · refine ⟨_, exec_bind_binds hu he hj hok hneeds, ?_⟩
    rw [bindStream_refused hk0 hk]
    exact begun_ends { status := stRefused } rfl rfl hurg hends hfl
  · refine ⟨_, exec_bind_binds hu he hj hok hneeds, ?_⟩
    rw [bindStream_full hk ((begun_freeStream u p e).trans hfree)]
    exact begun_ends { status := stNores } rfl rfl hurg hends hfl
  · obtain ⟨hfreeIx, htaken⟩ := freeStream_spec hfree
    refine ⟨hfreeIx, htaken, _, exec_bind_binds hu he hj hok hneeds, ?_⟩
    rw [bindStream_bound hk ((begun_freeStream u p e).trans hfree)]
    obtain ⟨honly, hended, hstreams, hside⟩ := bound_ends (i := i) hurg hends hfl hj rfl
    refine ⟨honly, hended, hside, ?_, fun x hx => ?_⟩
    · rw [hstreams]; exact mem_putStream_self _ i _
    · rw [hstreams]; exact mem_putStream_other _ _ hx
  · rw [exec_unbind hu he, hst]
    exact ⟨_, rfl, begun_ends { status := stInvalid, cls := 2 } rfl rfl hurg hends hfl⟩
  · rw [exec_unbind hu he, if_neg (by rw [← Option.not_isSome, hst]; decide), if_pos hbusy]
    exact ⟨_, rfl, begun_waits hurg hfl⟩
  · rw [exec_unbind hu he, if_neg (by rw [← Option.not_isSome, hst]; decide), if_neg (ne_true_of_eq_false hbusy)]
    obtain ⟨honly, hended, w, hside⟩ := begun_modPart_ends (g := fun x => x.unbound (e.cmd.arg0 % 2 ^ 32)) { status := stOk }
      rfl rfl hurg hends hfl (fun _ => ⟨rfl, rfl, rfl⟩) rfl
    exact ⟨_, rfl, honly, hended, hside⟩

end Sys2Proof.Machine
end

section
/-! Logs and images (11, R349, R351; 13, R393, R405, R408; 16, R486): how CHECKPOINT, RESTORE and NVM_STAGE start, and end where they may
not. -/

namespace Sys2Proof.Machine

theorem nextFuller_ends {s : State} {p : PartId} {opc : Nat} {e : InFlight} (h : s.nextFuller p opc = some e) : e.ends = none := by
  obtain ⟨hstart, -⟩ := Option.filter_eq_some_iff.mp h
  exact (startable_spec _ _ _ _ hstart).2.2.2

/-- A command that ends as it starts, on its partition's side alone. -/
theorem endNow_ends {u : State} {p : PartId} {e : InFlight} (r : Result) (hf : r.flags = 0) (hm : r.maxw = 0) (hurg : e.urgent = false)
    (hends : e.ends = none) (hfl : u.inFlight (some p) false e.cmd.seq = some e) : OnlyPart u (u.endNow p e.cmd.seq r) p ∧
      CommandSide u.parts[p] (u.endNow p e.cmd.seq r).parts[p] ∧ Ended u (u.endNow p e.cmd.seq r) (some p) e r.status r.cls r.result :=
  ⟨(endNow_only u p _ r).1, (endNow_only u p _ r).2, endNow_ended u p e r hurg hf hm hends hfl⟩

/-! ### CHECKPOINT (R349, R393, R396, R405) -/

/-- What Fuller holds of a CHECKPOINT that has started and not frozen. -/
def openedCkpt (c : Cmd) : Ckpt :=
  { seq := c.seq, ckno := c.arg0 / 2 ^ 32, step := c.arg2, narrow := bit c.arg0 2,
    buddy := if bits c.arg0 1 0 = 1 then some (c.arg1 % 65536) else none, sid := c.arg1 % 2 ^ 32, started := true, frozen := false,
    entry := 0, pland := [], lossn := 0, units := [], chunks := 0, nunit := 0, left := 0, narrowing := [], caps := [], capsLeft := [],
    capOfs := [], bms := [], turn := 64, trailerSent := false }

theorem startCkpt_eq (s : State) (p : PartId) (c : Cmd) :
    s.startCkpt p c = (s.modFuller p fun f => { f with ckpt := some (openedCkpt c) }).tryFreeze p := rfl

/-- Where a tile has still to reach its mark, the start is all that happens (R394). -/
theorem startCkpt_unmarked {s : State} {p : PartId} {c : Cmd} {y : TileId} (hy : y ∈ s.tilesOf p) (hm : s.tiles[y].marked = false) :
    s.startCkpt p c = s.modFuller p fun f => { f with ckpt := some (openedCkpt c) } := by
  rw [startCkpt_eq]
  exact tryFreeze_unmarked hy hm

section
variable {p : PartId} {e : InFlight} {s u : State} (hu : s.settled (some p) = u) (he : u.nextFuller p 0x40 = some e)
include hu he

theorem exec_checkpoint_refused {st : Nat} (h : u.ckRefusal p e.cmd = some st) :
    exec (.checkpoint p) s = .next (u.endNow p e.cmd.seq { status := st, cls := 2 }) := by
  subst hu
  change execCheckpoint p s = _
  simp only [execCheckpoint, he, h]

theorem exec_checkpoint_starts (h : u.ckRefusal p e.cmd = none) :
    exec (.checkpoint p) s = .next ((u.start (some p) false e.cmd.seq).startCkpt p e.cmd) := by
  subst hu
  change execCheckpoint p s = _
  simp only [execCheckpoint, he, h]

end

theorem checkpoint_opened {u : State} {p : PartId} {e : InFlight} {y : TileId} (hy : y ∈ u.tilesOf p) (hm : u.tiles[y].marked = false) :
    OnlyPart u ((u.start (some p) false e.cmd.seq).startCkpt p e.cmd) p ∧
    ((u.start (some p) false e.cmd.seq).startCkpt p e.cmd).parts[p].fuller = { u.parts[p].fuller with ckpt := some (openedCkpt e.cmd) } := by
  obtain ⟨honly, w, hpart⟩ := start_window u p e.cmd.seq
  have hunmarked : (u.start (some p) false e.cmd.seq).startCkpt p e.cmd = _ := startCkpt_unmarked (c := e.cmd) hy hm
  rw [hunmarked]
  refine ⟨honly.trans (OnlyPart.modPart _ p _), ?_⟩
  rw [State.modFuller, part_get, hpart]

/-! ### RESTORE (R328, R406, R408) -/

theorem hand_fuller (y : Part) (m : Msg) : (y.hand m).fuller = y.fuller := by
  unfold Part.hand
  split
  · rfl
  · split <;> rfl

theorem takeFrame_fuller {y y' : Part} {cap : Nat} {f : Frame} {bad : Bool} (h : y.takeFrame cap f bad = some y') :
    y'.fuller = y.fuller := by
  unfold Part.takeFrame at h
  split at h
  · obtain ⟨c, -, rfl⟩ := Option.map_eq_some_iff.mp h
    rfl
  · dsimp only at h
    split at h
    · cases h; rfl
    · cases h
      split
      · rw [hand_fuller]
      · rfl

theorem drainPort_fuller (s : State) (p : PartId) (q : PortId) : (s.drainPort p q).parts[p].fuller = s.parts[p].fuller := by
  unfold State.drainPort
  refine (congrArg Part.fuller (part_get s p _)).trans ?_
  refine List.foldlRecOn (motive := fun (a : Part × List RxFrame × List (Nat × Nat) × List Nat) => a.1.fuller = s.parts[p].fuller)
    _ _ rfl fun a ha f _ => ?_
  dsimp only
  split
  · exact ha
  · split
    · rename_i y hy
      exact (takeFrame_fuller hy).trans ha
    · exact ha

/-- What the ring ports hand over is no part of what Fuller holds. -/
theorem drainRx_fuller (s : State) (p : PartId) : (s.drainRx p).parts[p].fuller = s.parts[p].fuller :=
  List.foldlRecOn (motive := fun v : State => v.parts[p].fuller = s.parts[p].fuller) _ _ rfl
    fun v hv q _ => (drainPort_fuller v p q).trans hv

/-- What Fuller holds of a RESTORE that has started and waits for its trailer, n chunks long on its stream (R408). -/
def openedRestore (c : Cmd) (n : Nat) : Restore :=
  { seq := c.seq, ckno := c.arg0 / 2 ^ 32, step := c.arg2, buddy := if bits c.arg0 1 0 = 1 then some (c.arg1 % 65536) else none,
    sid := c.arg1 % 2 ^ 32, nchunk := n, trailer := none, next := 0, record := none, caps := [], reported := false }

/-- s with every CHECKPOINT cut, the bucket entries discarded and the RESTORE held by Fuller. -/
def State.restoring (s : State) (p : PartId) (c : Cmd) (n : Nat) : State :=
  ((s.cutCkpts p).discardBuckets p).modFuller p fun f => { f with heldRes := [], restore := some (openedRestore c n) }

theorem restoring_part (s : State) (p : PartId) (c : Cmd) (n : Nat) : (s.restoring p c n).parts[p].card.table = [] ∧
    (s.restoring p c n).parts[p].fuller.heldRes = [] ∧ (s.restoring p c n).parts[p].fuller.restore = some (openedRestore c n) := by
  obtain ⟨-, hpart, -⟩ := discardBuckets_spec (s.cutCkpts p) p
  rw [State.restoring, State.modFuller, part_get]
  exact ⟨by rw [hpart], rfl, rfl⟩

/-- The chunks of the stream that a RESTORE from the host names. -/
def State.logChunks (s : State) (p : PartId) (c : Cmd) : Nat := ((s.stream p (c.arg1 % 2 ^ 32)).map (·.2.limit)).getD 0

/-- s with the trailer of the log asked for: of the buddy, or of the host as the last of n chunks. -/
def State.askLog (s : State) (p : PartId) (c : Cmd) (n : Nat) : State :=
  match (openedRestore c n).buddy with
  | some b => s.sendFuller p b c.seq (.logRequest (BitVec.ofNat 32 (c.arg0 / 2 ^ 32)))
  | none => s.askNext p (c.arg1 % 2 ^ 32) (n - 1)

theorem startRestore_eq (s : State) (p : PartId) (c : Cmd) :
    s.startRestore p c = ((s.restoring p c (s.logChunks p c)).drainRx p).askLog p c (s.logChunks p c) := rfl

theorem askLog_part (s : State) (p : PartId) (c : Cmd) (n : Nat) :
    (s.askLog p c n).parts[p] = { s.parts[p] with dma := (s.askLog p c n).parts[p].dma } := by
  unfold State.askLog
  split
  · rw [State.sendFuller, inject_card s p]
  · unfold State.askNext
    split
    · rw [State.askChunk, State.modDma_some, part_get]
    · rfl

/-- A RESTORE that starts leaves its partition with no entry, no held result, and itself to go on with (R406, R408). -/
theorem startRestore_part (s : State) (p : PartId) (c : Cmd) :
    (s.startRestore p c).parts[p].card.table = [] ∧ (s.startRestore p c).parts[p].fuller.heldRes = [] ∧
    (s.startRestore p c).parts[p].fuller.restore = some (openedRestore c (s.logChunks p c)) := by
  obtain ⟨htable, hheld, hrestore⟩ := restoring_part s p c (s.logChunks p c)
  rw [startRestore_eq]
  generalize s.restoring p c (s.logChunks p c) = v at *
  have hdrained := (drainRx_spec v p).2
  have hfuller := drainRx_fuller v p
  rw [askLog_part]
  generalize v.drainRx p = w at *
  exact ⟨hdrained.trans htable, (congrArg Fuller.heldRes hfuller).trans hheld, (congrArg Fuller.restore hfuller).trans hrestore⟩

/-- While a Tile-class command runs, none of its class has its turn (R328). -/
theorem nextFuller_tileBusy {u : State} {p : PartId}
    (h : ((u.mains (some p)).any fun x => State.clsOf x == .tile && x.started.isSome) = true) : u.nextFuller p 0x41 = none := by
  have hrunning : ((u.mains (some p)).filter fun e => State.clsOf e == .tile && e.started.isSome).length ≠ 0 := by
    obtain ⟨x, hx, hrun⟩ := List.any_eq_true.mp h
    exact Nat.ne_of_gt (List.length_pos_of_mem (List.mem_filter.mpr ⟨hx, hrun⟩))
  have hhead : u.headOf (some p) .tile = none := by
    unfold State.headOf
    dsimp only
    split
    · rfl
    · exact if_neg (by rw [beq_eq_false_iff_ne.mpr hrunning]; exact Bool.false_ne_true)
  change ((u.startable (some p) .tile).filter (·.cmd.opc == 0x41)) = none
  rw [State.startable, hhead]
  rfl

section
variable {p : PartId} {e : InFlight} {s u : State} (hu : s.settled (some p) = u)
include hu

theorem exec_restore_invalid (he : u.nextFuller p 0x41 = some e) (h : u.restoreFrom p e.cmd = false) :
    exec (.restore p) s = .next (u.endNow p e.cmd.seq { status := stInvalid, cls := 2 }) := by
  subst hu
  change execRestore p s = _
  simp only [execRestore, he, h, Bool.not_false, if_true]

theorem exec_restore_starts (he : u.nextFuller p 0x41 = some e) (h : u.restoreFrom p e.cmd = true) :
    exec (.restore p) s = .next ((u.start (some p) false e.cmd.seq).startRestore p e.cmd) := by
  subst hu
  change execRestore p s = _
  simp only [execRestore, he, h, Bool.not_true, Bool.false_eq_true, if_false]

theorem exec_restore_waits (h : u.nextFuller p 0x41 = none) : exec (.restore p) s = .next u := by
  subst hu
  change execRestore p s = _
  simp only [execRestore, h]

end

/-! ### NVM_STAGE (R351, R481, R486) -/

section
variable {e : InFlight} {s u : State} (hu : s.settled none = u) (hstage : u.staging = none) (he : u.startable none .jewel = some e)
  (hop : e.cmd.opc = 0x60) (hserv : u.service none = none)
include hu hstage he hop hserv

theorem exec_nvmStage_unread : exec (.nvmStage none) s = .next (u.stageEnd e.cmd.seq { status := stFailed, cls := 2 }) := by
  subst hu
  change execNvmStage none s = _
  simp only [execNvmStage, hstage, he, Option.filter_some, hop, beq_self_eq_true, if_true, hserv, Option.isSome_none, Bool.false_eq_true,
    if_false]

theorem exec_nvmStage_read (img : Bytes) {code : Nat}
    (hcode : code = if img.length ≠ e.cmd.arg1 then 3 else verifyImage img u.boot.dpk u.boot.blown) :
    exec (.nvmStage (some img)) s = if code = 0 then .next (u.stageBegin e.cmd.seq img)
      else .next (u.stageEnd e.cmd.seq { status := stRefused, cls := 2, result := code }) := by
  subst hu hcode
  change execNvmStage (some img) s = _
  simp only [execNvmStage, hstage, he, Option.filter_some, hop, beq_self_eq_true, if_true, hserv, Option.isSome_none, Bool.false_eq_true,
    if_false]

end

theorem exec_nvmStage_again {s u : State} {g : Stage} (hu : s.settled none = u) (hstage : u.staging = some g) (obj : Option Bytes) :
    exec (.nvmStage obj) s = .next (u.stageFinish g obj) := by
  subst hu
  change execNvmStage obj s = _
  simp only [execNvmStage, hstage]

theorem stageEnd_ends {u : State} {e : InFlight} (r : Result) (hf : r.flags = 0) (hm : r.maxw = 0) (hurg : e.urgent = false)
    (hends : e.ends = none) (hfl : u.inFlight none false e.cmd.seq = some e) :
    OnlyFn u (u.stageEnd e.cmd.seq r) none ∧ Ended u (u.stageEnd e.cmd.seq r) none e r.status r.cls r.result := by
  have hended := start_complete_ended u (u.start none e.urgent e.cmd.seq) none e r hf hm hends (by rw [hurg]; exact hfl) rfl
    (start_tags _ _ _ _).2.1 (start_tags _ _ _ _).2.2
  rw [hurg] at hended
  exact ⟨(OnlyFn.start u none false _).trans (.complete _ none false _ r), hended⟩

/-- Pass 1 starts the command, erases the slot that is not active, and keeps the image's length and digest (R486). -/
theorem stageBegin_spec (u : State) (seq : Nat) (img : Bytes) :
    u.stageBegin seq img = { u with pf := (u.stageBegin seq img).pf, boot := (u.stageBegin seq img).boot } ∧
    (u.stageBegin seq img).boot = { u.boot with
      flash := u.boot.flash.filter fun c => decide (c.1 < slotBase u.stageSlot.1) || decide (slotBase u.stageSlot.1 + slotBytes ≤ c.1)
      stage := some ⟨seq, img.length, shake256 64 img⟩ } :=
  ⟨rfl, rfl⟩

/-- u with the stage over. -/
def State.unstaged (u : State) : State := { u with boot := { u.boot with stage := none } }

/-- A completion on a state whose physical function is u's: it leaves the flash, and is the ending of e as u has it. -/
theorem stage_completes {u v : State} {e : InFlight} (r : Result) (hf : r.flags = 0) (hm : r.maxw = 0) (hurg : e.urgent = false)
    (hends : e.ends = none) (hfl : u.inFlight none false e.cmd.seq = some e) (hpf : v.pf = u.pf) :
    (v.complete none false e.cmd.seq r).boot = v.boot ∧ Ended u (v.complete none false e.cmd.seq r) none e r.status r.cls r.result := by
  have hwin : v.win none = u.win none := congrArg Pf.win hpf
  have hended := complete_ended v none e r hf hm (by rw [← hfl, hurg]; exact inFlight_congr u v _ _ _ (by rw [hwin])) hends
  rw [hurg] at hended
  exact ⟨(State.complete_frame v none false _ r).1,
    hended.of_eq (by rw [hwin]) (by rw [hwin]) (congrArg (·.dma.writes) hpf) (congrArg Pf.count hpf)⟩

section
variable (u : State) (g : Stage) (img : Bytes)

theorem stageFinish_unread : u.stageFinish g none = u.unstaged.complete none false g.seq { status := stFailed, cls := 2 } := rfl

theorem stageFinish_same (h : img.length = g.len ∧ shake256 64 img = g.digest) : u.stageFinish g (some img) =
    (u.unstaged.writeStage u.stageSlot.1 u.stageSlot.2 (fit g.len img) true).complete none false g.seq
      { status := stOk, result := u.stageSlot.1 } := by
  unfold State.stageFinish
  simp only [h, and_self, decide_true, if_true]
  rfl

theorem stageFinish_differs (h : ¬(img.length = g.len ∧ shake256 64 img = g.digest)) : u.stageFinish g (some img) =
    (u.unstaged.writeStage u.stageSlot.1 u.stageSlot.2 (fit g.len img) false).complete none false g.seq { status := stRefused, cls := 2 } := by
  unfold State.stageFinish
  simp only [h, decide_false, Bool.false_eq_true, if_false]
  rfl

end

/-- Settles O40: each row by its branches; a start is read off what Fuller then holds (`openedCkpt`, `openedRestore`; log 37 in
restoreFrom), the two passes of a stage off the flash (log 30). -/
theorem logsAndImagesStart : Obligations.LogsAndImagesStart := by
  refine ⟨fun p e s u hu he => ⟨fun st hst hurg hfl => ⟨_, exec_checkpoint_refused hu he hst, ?_⟩,
      fun h => ⟨_, exec_checkpoint_starts hu he h, rfl, ?_⟩⟩,
    fun p e s u hu he => ⟨fun h hurg hfl => ⟨_, exec_restore_invalid hu he h, ?_⟩, fun h => ⟨_, exec_restore_starts hu he h, rfl, ?_⟩⟩,
    fun p s u hu h => exec_restore_waits hu (nextFuller_tileBusy h),
    fun e s u hu hurg hfl hstage he hop hserv => ⟨⟨_, exec_nvmStage_unread hu hstage he hop hserv, ?_⟩,
      fun img code hcode => ⟨fun h => ?_, fun h => ?_⟩⟩,
    fun e g s u hu hurg hends hfl hstage hseq => ?_⟩
  · exact endNow_ends { status := st, cls := 2 } rfl rfl hurg (nextFuller_ends he) hfl
  · rintro ⟨y, hy, hm⟩
    obtain ⟨honly, hfuller⟩ := checkpoint_opened (e := e) hy hm
    exact ⟨honly, openedCkpt e.cmd, hfuller, rfl, rfl, rfl, rfl, rfl⟩
  · exact endNow_ends { status := stInvalid, cls := 2 } rfl rfl hurg (nextFuller_ends he) hfl
  · obtain ⟨htable, hheld, hrestore⟩ := startRestore_part (u.start (some p) false e.cmd.seq) p e.cmd
    exact ⟨htable, hheld, _, hrestore, rfl, rfl, rfl, rfl⟩
  · exact stageEnd_ends { status := stFailed, cls := 2 } rfl rfl hurg (startable_spec _ _ _ _ he).2.2.2 hfl
  · rw [exec_nvmStage_read hu hstage he hop hserv img hcode, if_neg h]
    exact ⟨_, rfl, stageEnd_ends { status := stRefused, cls := 2, result := code } rfl rfl hurg (startable_spec _ _ _ _ he).2.2.2 hfl⟩
  · rw [exec_nvmStage_read hu hstage he hop hserv img hcode, if_pos h]
    exact ⟨_, rfl, stageBegin_spec u e.cmd.seq img⟩
  · have hfl' : u.inFlight none false e.cmd.seq = some e := by rw [hseq]; exact hfl
    refine ⟨⟨_, exec_nvmStage_again hu hstage none, ?_⟩, fun img => ⟨fun h => ⟨_, exec_nvmStage_again hu hstage (some img), ?_⟩,
      fun h => ⟨_, exec_nvmStage_again hu hstage (some img), ?_⟩⟩⟩
    · rw [stageFinish_unread, ← hseq]
      exact stage_completes { status := stFailed, cls := 2 } rfl rfl hurg hends hfl' rfl
    · rw [stageFinish_same u g img h, ← hseq]
      exact stage_completes { status := stOk, result := u.stageSlot.1 } rfl rfl hurg hends hfl' rfl
    · rw [stageFinish_differs u g img h, ← hseq]
      exact stage_completes { status := stRefused, cls := 2 } rfl rfl hurg hends hfl' rfl

end Sys2Proof.Machine
end

section
/-! Tenancy (12, R374-R376): KEY_RELEASE takes the key package of a contributor. -/

namespace Sys2Proof.Machine

section
variable {s : State} {p : PartId} {c : Cmd} {v : Service} {sigOk : Bool} {kem : Option Bytes} {b : Bytes}
variable (hc : s.serving (some p) 0x03 = some c) (hv : s.parts[p].service = some v)
include hc hv

theorem exec_keyRelease_unread : exec (.keyRelease p none sigOk kem) s = .next (noted s (some p) v stFailed 2 0) := by
  change execKeyRelease p none sigOk kem s = _
  simp only [execKeyRelease, hc, outcome_noted s (some p) v _ _ _ hv]

theorem exec_keyRelease_refused (h : s.openPackage p c b sigOk kem = none) :
    exec (.keyRelease p (some b) sigOk kem) s = .next (noted s (some p) v stRefused 2 0) := by
  change execKeyRelease p (some b) sigOk kem s = _
  simp only [execKeyRelease, hc, h, outcome_noted s (some p) v _ _ _ hv]

theorem exec_keyRelease_taken {j : Job} {imp root : Option Bytes} (hj : s.parts[p].job = some j)
    (h : s.openPackage p c b sigOk kem = some (imp, root)) :
    exec (.keyRelease p (some b) sigOk kem) s = .next (noted (s.takePackage p (byteAt b 6) imp root) (some p) v stOk 0 0) := by
  have hv' : (s.takePackage p (byteAt b 6) imp root).service (some p) = some v := by
    obtain ⟨j', _, _, hpart, _⟩ := takePackage_spec s p (byteAt b 6) imp root j hj
    exact (congrArg Part.service hpart).trans hv
  change execKeyRelease p (some b) sigOk kem s = _
  simp only [execKeyRelease, hc, h, outcome_noted _ (some p) v _ _ _ hv']

end

/-- Settles O17: an unread package and a failed check only note their outcome; a package that passes leaves `takePackage`'s state, and
the noting of its OK touches the partition's service and its reads alone. -/
theorem keyReleaseTakesPackage : Obligations.KeyReleaseTakesPackage := by
  intro p c v j sigOk kem s hc hv hj
  refine ⟨exec_keyRelease_unread hc hv, fun b h => exec_keyRelease_refused hc hv h, fun b imp root h => ?_⟩
  obtain ⟨j', hrest, hkept, hpart, htaken⟩ := takePackage_spec s p (byteAt b 6) imp root j hj
  obtain ⟨⟨hnrest, hnkept⟩, hnpart⟩ := noted_only (s.takePackage p (byteAt b 6) imp root) p v stOk 0 0
  refine ⟨_, j', exec_keyRelease_taken hc hv hj h, ?_, fun q hq => (hnkept q hq).trans (hkept q hq), ?_, htaken⟩
  · rw [hnrest, hrest]
  · rw [hnpart, hpart]

end Sys2Proof.Machine
end

section
/-! Power (14, R421-R426, R429, R435, R445, R533; 12, R385): the end of an escapement window, and a droop event. -/

namespace Sys2Proof.Machine

section
variable (x : TileId) {s : State}

theorem exec_escapementWindow {im : Image} (him : s.boot.image = some im) (w : Activity) : exec (.escapementWindow x w) s =
    .next (s.modTile x fun y => y.endWindow im.dev s.board.rows[x.val / 8].high (im.allow.getD x.val 0) (estimate w) w.bankcf w.ewait) := by
  change execEscapementWindow x w s = _
  simp only [execEscapementWindow, him]

theorem exec_droopEvent {im : Image} (him : s.boot.image = some im) : exec (.droopEvent x) s =
    .next (s.modTile x fun y => { y with droops := y.droops + im.dev.toNat, droopBubbles := y.droopBubbles + 32 }) := by
  have hdev : s.dev = im.dev := by rw [State.dev, him]; rfl
  change execDroopEvent x s = _
  rw [execDroopEvent, if_neg (by simp [him]), hdev]
  cases im.dev <;> rfl

theorem exec_escapement_unapplied (him : s.boot.image = none) :
    (∀ w, exec (.escapementWindow x w) s = .next s) ∧ exec (.droopEvent x) s = .next s := by
  refine ⟨fun w => ?_, ?_⟩
  · change execEscapementWindow x w s = _
    simp only [execEscapementWindow, him]
  · change execDroopEvent x s = _
    exact if_pos (Option.isNone_iff_eq_none.mpr him)

end

/-! ### The next issue count and the next frequency step (R423, R435) -/

theorem nextIssue_bounds (n a k e : Nat) : 64 ≤ nextIssue n a k e ∧ nextIssue n a k e ≤ 1024 := by
  unfold nextIssue
  omega

theorem nextFreq_confidential (high : Bool) (y : Tile) (a e : Nat) : nextFreq false high y a e = 0 := rfl

theorem nextFreq_fallsBack (dev high : Bool) {y : Tile} {a e : Nat} (h : a < e ∨ y.droops ≠ 0) : nextFreq dev high y a e = 0 := by
  cases dev with
  | false => rfl
  | true => exact if_pos h

theorem nextFreq_le_succ (dev high : Bool) (y : Tile) (a e : Nat) : nextFreq dev high y a e ≤ y.freq + 1 := by
  unfold nextFreq
  split
  · exact Nat.zero_le _
  · split
    · exact Nat.zero_le _
    · split <;> omega

/-! ### The end of a window -/

section
variable (y : Tile) (high : Bool) (code e bankcf ewait : Nat)

/-- Its counters are those of `Tile.profile`; the issue count, the frequency step and the sums of the window are the rest. -/
theorem endWindow_rest (dev : Bool) : y.endWindow dev high code e bankcf ewait =
    { y with n := nextIssue y.n (allowance code y.freq) y.k e, freq := nextFreq dev high y (allowance code y.freq) e,
             estSum := y.estSum + e, droops := 0, droopBubbles := 0, bubbles := (y.profile dev bankcf ewait).bubbles,
             bankcf := (y.profile dev bankcf ewait).bankcf, ewait := (y.profile dev bankcf ewait).ewait } := by
  cases dev <;> rfl

theorem profile_confidential : y.profile false bankcf ewait = y := rfl

theorem profile_development : y.profile true bankcf ewait =
    { y with bubbles := y.bubbles + (if y.freq = 0 then 1024 - y.n else 0) + y.droopBubbles, bankcf := y.bankcf + bankcf,
             ewait := y.ewait + ewait } := rfl

end

/-- Settles O42: the window's end is `Tile.endWindow` over the estimate of its events; the weights of Config are the model's (log 40). -/
theorem escapementWindowEnds : Obligations.EscapementWindowEnds := by
  intro x s
  refine ⟨exec_escapement_unapplied x, fun im him => ⟨fun w e a he ha => ?_, _, exec_droopEvent x him, .modTile s x _, tile_get s x _⟩⟩
  have hest : estimate w = e := he.symm
  have hallow : allowance (im.allow.getD x.val 0) s.tiles[x].freq = a := ha.symm
  refine ⟨_, exec_escapementWindow x him w, .modTile s x _, ?_⟩
  rw [tile_get, endWindow_rest, hest, hallow]
  refine ⟨rfl, (nextIssue_bounds ..).1, (nextIssue_bounds ..).2, fun hdev => ?_, fun hdev => ?_, rfl⟩
  · rw [hdev, profile_confidential]
    exact ⟨rfl, rfl, rfl, rfl⟩
  · rw [hdev, profile_development]
    exact ⟨nextFreq_fallsBack true _, nextFreq_le_succ true _ s.tiles[x] a e, rfl, rfl, rfl⟩

end Sys2Proof.Machine
end

section
/-! Faults (15, R446, R451, R455, R458, R461, R462): a module-fatal error restarts the module. -/

namespace Sys2Proof.Machine

/-! ### What a module-fatal error leaves of the state (R33, R458, R461, R462) -/

/-- s with the error in the module log, every activity ended and the restart under way (R461 t0 to t2). -/
def State.restartedBy (s : State) (code src detail : Nat) : State :=
  let u := (s.modLog none fun l => l.add s.clocks.jewel code src 0 detail none false).preempt
  { u with
    boot := { u.boot with mstate := .restarting, nextCause := 3 }
    board := { s.board with restartTimes := s.restartsNow, lastCause := code, restarting := some code, mrst := some (code, false) } }

/-- s in the restart hold: its rails off (R462). -/
def State.restartHeld (s : State) : State := { s.railsOff with board := { s.railsOff.board with restartHold := true } }

section
variable (s : State) (code src detail : Nat)

/-- A trip, a wait for it to cool and a ROM hold govern; rails off let through the loss of the oscillator alone (R436, R440, R480). -/
theorem mfatal_governed (h : s.board.tripLatch = true ∨ s.board.tripWait = true ∨ s.board.romHold = true ∨
    (s.board.pwrGood = false ∧ code ≠ 0x52)) : s.mfatal code src detail = s := by
  refine if_pos ?_
  rcases h with h | h | h | ⟨h, hcode⟩
  · simp only [h, Bool.or_true, Bool.true_or]
  · simp only [h, Bool.or_true, Bool.true_or]
  · simp only [h, Bool.or_true]
  · simp only [h, bne_iff_ne.mpr hcode, Bool.not_false, Bool.and_self, Bool.true_or]

theorem mfatal_restarts (hgood : s.board.pwrGood = true) (hlatch : s.board.tripLatch = false) (hwait : s.board.tripWait = false)
    (hrom : s.board.romHold = false) : s.mfatal code src detail =
      if 4 ≤ s.restartsNow.length then (s.restartedBy code src detail).restartHeld else s.restartedBy code src detail := by
  refine if_neg ?_
  simp only [hgood, hlatch, hwait, hrom, Bool.not_true, Bool.false_and, Bool.or_false, Bool.false_eq_true, not_false_eq_true]

theorem restartedBy_part (p : PartId) : (s.restartedBy code src detail).parts[p] = s.parts[p].lost := Vector.getElem_map ..

theorem restartedBy_tile (x : TileId) : (s.restartedBy code src detail).tiles[x] = s.tiles[x].lost := Vector.getElem_map ..

theorem restartHeld_part (p : PartId) : s.restartHeld.parts[p] = { s.parts[p] with win := State.unpowerWin s.parts[p].win } :=
  Vector.getElem_map ..

theorem restartHeld_tile (x : TileId) : s.restartHeld.tiles[x] =
    { s.tiles[x] with chans := s.tiles[x].chans.map fun c => { c with init := false } } := Vector.getElem_map ..

end

/-! ### The events that raise one (R451, R455) -/

section
variable (d : BitVec 32) (s : State)

theorem exec_moduleRestart {code : Byte} (h : 0x50 ≤ code.toNat ∧ code.toNat ≤ 0x55) :
    exec (.moduleRestart code d) s = .next (s.mfatal code.toNat (mfatalSrc code.toNat d.toNat) d.toNat) := if_pos h

theorem exec_moduleRestart_other {code : Byte} (h : code.toNat < 0x50 ∨ 0x55 < code.toNat) :
    exec (.moduleRestart code d) s = .next s := if_neg (by omega)

/-- The source of a module-fatal error of no clock is the Jewel. -/
theorem mfatalSrc_jewel {code : Nat} (h : code ≠ 0x51 ∧ code ≠ 0x52) (n : Nat) : mfatalSrc code n = 0x43 :=
  (if_neg h.1).trans (if_neg h.2)

/-- A PLL that loses lock names the island it clocks. -/
theorem mfatalSrc_pll {n src : Nat} (h : (n, src) ∈ [(64, 0x41), (73, 0x40), (74, 0x42), (75, 0x43)]) : mfatalSrc 0x51 n = src := by
  simp only [List.mem_cons, Prod.mk.injEq, List.not_mem_nil, or_false] at h
  rcases h with ⟨rfl, rfl⟩ | ⟨rfl, rfl⟩ | ⟨rfl, rfl⟩ | ⟨rfl, rfl⟩ <;> rfl

end

end Sys2Proof.Machine
end

section
/-! Tenancy (12, R362, R363): the Jewel's service windows; module restarts end with them (15, R461). -/

namespace Sys2Proof.Machine

/-! ### A service window ends and the next begins (R362, R363) -/

/-- s with window w - 1 of k partitions ended: its partition's command counts it, and the physical function's counts every one. -/
def State.windowEnded (s : State) (k w : Nat) : State :=
  let u := if k = 0 ∨ w = 0 then s else s.endWindow (some (State.partIx ((w - 1) % k)))
  if w = 0 then u else u.endWindow none

/-- s with window w of k partitions begun: the physical function's next command starts, then what its partition is served with. -/
def State.windowBegun (s : State) (k w : Nat) : State :=
  let u := s.beginService none [0x04]
  if k = 0 then u
  else (u.beginService (some (State.partIx (w % k))) [0x01, 0x02, 0x03, 0x04]).windowMessages (State.partIx (w % k))

/-- s with its sequence of windows gone on to the next one. -/
def State.nextWindow (s : State) : State :=
  let u := (s.windowEnded s.npart s.jewel.window).windowBegun s.npart s.jewel.window
  { u with jewel := { u.jewel with window := s.jewel.window + 1 } }

section
variable {s : State}

theorem exec_jewelWindow_early (h : s.clocks.jewel < 10000000 * s.jewel.window) : exec .jewelWindow s = .next s := if_pos h

theorem exec_jewelWindow (h : 10000000 * s.jewel.window ≤ s.clocks.jewel) :
    exec .jewelWindow s = .next s.nextWindow.endRestart.advanceFuse := if_neg (Nat.not_lt.mpr h)

theorem nextWindow_window : s.nextWindow.endRestart.advanceFuse.jewel.window = s.jewel.window + 1 := by
  simp only [State.advanceFuse_frame, endRestart_window]
  rfl

/-- Between two partitions' windows: one ends, the physical function is served, and the next one begins. -/
theorem windows_of_partitions {k w : Nat} (hk : k ≠ 0) (hw : w ≠ 0) : (s.windowEnded k w).windowBegun k w =
    ((((s.endWindow (some (State.partIx ((w - 1) % k)))).endWindow none).beginService none [0x04]).beginService
      (some (State.partIx (w % k))) [0x01, 0x02, 0x03, 0x04]).windowMessages (State.partIx (w % k)) := by
  simp only [State.windowEnded, State.windowBegun, hk, hw, or_self, if_false]

theorem endRestart_unapplied (h : s.boot.image = none) : s.endRestart = s := if_pos (by rw [h]; rfl)

theorem advanceFuse_unapplied (h : s.boot.image = none) : s.advanceFuse = s := by
  unfold State.advanceFuse
  rw [h]
  rfl

/-- Before an image is applied the first window is the physical function's alone. -/
theorem nextWindow_unapplied (him : s.boot.image = none) (hw : s.jewel.window = 0) : s.nextWindow.endRestart.advanceFuse =
    { s.beginService none [0x04] with jewel := { (s.beginService none [0x04]).jewel with window := 1 } } := by
  have hk : s.npart = 0 := by rw [State.npart, him]; rfl
  have hnext : s.nextWindow =
      { s.beginService none [0x04] with jewel := { (s.beginService none [0x04]).jewel with window := 1 } } := by
    simp only [State.nextWindow, State.windowEnded, State.windowBegun, hk, hw, true_or, if_true]
  have him' : s.nextWindow.boot.image = none := by
    rw [hnext]
    simp only [State.beginService_frame, him]
  rw [endRestart_unapplied him', advanceFuse_unapplied him', hnext]

end

/-- Settles O56: a restart leaves `State.restartedBy`, and the fourth within 600 s its rails off (`State.restartHeld`); the command slots
kept but for that hold are log 25's, what governs a module that is off log 31's. The windows go on by `State.nextWindow`. -/
theorem moduleRestarts : Obligations.ModuleRestarts := by
  refine ⟨fun code d s => ⟨fun h => ?_, fun h src hsrc => ?_, fun h => ?_, exec_moduleRestart_other d s⟩, fun s => rfl,
    fun code src d s t ht => ⟨fun h => ht.symm.trans (mfatal_governed s code src d h), fun hgood hlatch hwait hrom => ?_⟩,
    fun s w k hw hk => ?_⟩
  · rw [exec_moduleRestart d s (by omega), mfatalSrc_jewel (by omega)]
  · rw [exec_moduleRestart d s (by omega), h, mfatalSrc_pll hsrc]
  · rw [exec_moduleRestart d s (by omega), h]
    rfl
  · subst ht
    rw [mfatal_restarts s code src d hgood hlatch hwait hrom]
    by_cases hfour : 4 ≤ s.restartsNow.length
    · rw [if_pos hfour]
      refine ⟨rfl, rfl, rfl, rfl, rfl, rfl, rfl, rfl, fun p => ?_, fun x => ?_, rfl, rfl, rfl,
        fun h => absurd hfour (Nat.not_le.mpr h), fun _ => ⟨rfl, rfl⟩⟩
      · rw [restartHeld_part, restartedBy_part, if_pos hfour]
        rfl
      · rw [restartHeld_tile, restartedBy_tile]
        exact ⟨rfl, rfl, rfl⟩
    · rw [if_neg hfour]
      refine ⟨rfl, rfl, rfl, rfl, rfl, rfl, rfl, rfl, fun p => ?_, fun x => ?_, rfl, rfl, rfl,
        fun _ => ⟨hgood, rfl⟩, fun h => absurd h hfour⟩
      · rw [restartedBy_part, if_neg hfour]
        rfl
      · rw [restartedBy_tile]
        exact ⟨rfl, rfl, rfl⟩
  · subst hw hk
    refine ⟨exec_jewelWindow_early, fun h => ⟨_, exec_jewelWindow h, nextWindow_window, nextWindow_unapplied, ?_⟩⟩
    intro a b u v hk hw ha hb hu hv
    rw [hv, hu, hb, ha, State.nextWindow, windows_of_partitions hk hw]

end Sys2Proof.Machine
end

section
/-! Faults and debug (15, R451, R452; 17, R500; 12, R385): what waits for a log is written, and the debug window of a tile. -/

namespace Sys2Proof.Machine

/-! ### The debug window (R385, R500) -/

section
variable (x : TileId) {s : State}

theorem exec_debugControlWrite (h : s.debugOpen = true) (v : Byte) : exec (.debugControlWrite x v) s =
    .next (s.modTile x fun y => { y with halt := v.getLsbD 0, stepReq := v.getLsbD 0 && v.getLsbD 1 }) := if_pos h

theorem exec_debugControlWrite_closed (h : s.debugOpen = false) (v : Byte) : exec (.debugControlWrite x v) s = .next s :=
  if_neg (Bool.not_eq_true _ ▸ h)

theorem exec_debugMemoryWrite (h : s.debugOpen = true) (hh : s.tiles[x].halt = true) (off : Nat) (d : Bytes) :
    exec (.debugMemoryWrite x off d) s = .next (s.modTile x fun y => y.debugWrite off d) := if_pos (Bool.and_eq_true_iff.mpr ⟨h, hh⟩)

theorem exec_debugMemoryWrite_discarded (h : s.debugOpen = false ∨ s.tiles[x].halt = false) (off : Nat) (d : Bytes) :
    exec (.debugMemoryWrite x off d) s = .next s :=
  if_neg (Bool.not_eq_true _ ▸ Bool.and_eq_false_iff.mpr h)

end

/-! A memory takes of a debug write what falls into its region. -/

/-- m with the part written of a debug write that falls into the region of size bytes from base. -/
def Mem.writeRegion (m : Mem) (base size off : Nat) (d : Bytes) : Mem :=
  m.write (regionPart base size off d).1 (regionPart base size off d).2

section
variable (m : Mem) {base size off : Nat} {d : Bytes}

theorem Mem.writeRegion_inside (hlo : base ≤ off) (hhi : off + d.length ≤ base + size) :
    m.writeRegion base size off d = m.write (off - base) d := by
  simp only [Mem.writeRegion, regionPart, Nat.max_eq_right hlo, Nat.min_eq_right hhi, sub, Nat.sub_self, List.drop_zero,
    Nat.add_sub_cancel_left, List.take_length]

theorem Mem.writeRegion_outside (h : off + d.length ≤ base ∨ base + size ≤ off) : m.writeRegion base size off d = m := by
  have hlen : min (base + size) (off + d.length) - max base off = 0 := by omega
  simp only [Mem.writeRegion, regionPart, hlen, sub, List.take_zero]
  rfl

end

theorem Tile.spWrite_sp (y : Tile) (a : Nat) (bs : Bytes) : (y.spWrite a bs).sp = y.sp.write a bs := by
  unfold Tile.spWrite
  split
  case isTrue h => rw [List.eq_nil_of_length_eq_zero h]; rfl
  case isFalse => rfl

section
variable (y : Tile) (off : Nat) (d : Bytes)

theorem debugWrite_rest : y.debugWrite off d =
    { y with sp := (y.debugWrite off d).sp, poison := (y.debugWrite off d).poison, spErr := (y.debugWrite off d).spErr,
             imem := (y.debugWrite off d).imem, imErr := (y.debugWrite off d).imErr, reg := (y.debugWrite off d).reg,
             rgErr := (y.debugWrite off d).rgErr } := by
  unfold Tile.debugWrite
  dsimp only
  rw [SpOnly.spWrite y (regionPart 0 0x400000 off d).1 (regionPart 0 0x400000 off d).2]

/-- The scratchpad lies lowest in the window, the instruction memory above it, the regulator store highest. -/
theorem debugWrite_memories : (y.debugWrite off d).sp = y.sp.writeRegion 0 0x400000 off d ∧
    (y.debugWrite off d).imem = y.imem.writeRegion 0x400000 0x40000 off d ∧
    (y.debugWrite off d).reg = y.reg.writeRegion 0x440000 0x20000 off d := by
  unfold Tile.debugWrite
  dsimp only
  refine ⟨Tile.spWrite_sp .., ?_⟩
  rw [SpOnly.spWrite y (regionPart 0 0x400000 off d).1 (regionPart 0 0x400000 off d).2]
  exact ⟨rfl, rfl⟩

end

/-! ### The entries of a log (R451, R452) -/

section
variable {l : ErrLog}

theorem ErrLog.write_idle (h : l.queue = []) : l.write = l := by
  unfold ErrLog.write
  rw [h]

theorem ErrLog.write_oldest {w : LogWait} {q : List LogWait} (h : l.queue = w :: q) :
    l.write.queue = q ∧ l.write.written = l.written + 1 ∧ l.write.drop = false := by
  unfold ErrLog.write
  rw [h]
  exact ⟨rfl, rfl, rfl⟩

/-- The rotating entry stays where entry 0 is written too, which is no place of the rotation. -/
theorem ErrLog.write_rotating {w : LogWait} {q : List LogWait} (h : l.queue = w :: q) :
    (1 + l.written % 63, { w.entry with drop := l.drop }) ∈ l.write.entries := by
  have hpos : 0 < 1 + l.written % 63 := by omega
  unfold ErrLog.write
  rw [h]
  dsimp only
  split
  · simp [hpos]
  · simp

theorem ErrLog.write_pinned {w : LogWait} {q : List LogWait} (h : l.queue = w :: q) (ho : w.opens = true) :
    (0, { w.entry with drop := l.drop, pin := true }) ∈ l.write.entries := by
  unfold ErrLog.write
  rw [h]
  dsimp only
  rw [if_pos ho]
  simp

end

/-- Settles O60: a debug write goes to one tile, each memory taking the part of its region (`Mem.writeRegion`); that STEP wants HALT
set with it is log 29's. LOG_ENTRY_WRITE is `ErrLog.write` on one log. -/
theorem debugAndLogWrites : Obligations.DebugAndLogWrites := by
  intro x s
  refine ⟨fun h v => ⟨_, exec_debugControlWrite x h v, .modTile s x _, tile_get s x _⟩, fun h hh off d => ?_,
    fun _ hh => exec_debugMemoryWrite_discarded x (.inr hh),
    fun h => ⟨exec_debugControlWrite_closed x h, exec_debugMemoryWrite_discarded x (.inl h)⟩, fun f l hl => ?_⟩
  · refine ⟨_, exec_debugMemoryWrite x h hh off d, .modTile s x _, ?_⟩
    obtain ⟨hsp, him, hreg⟩ := debugWrite_memories s.tiles[x] off d
    rw [tile_get]
    refine ⟨debugWrite_rest .., ?_⟩
    rw [hsp, him, hreg]
    exact ⟨
      fun _ hhi => ⟨Mem.writeRegion_inside _ (Nat.zero_le _) (by omega), Mem.writeRegion_outside _ (by omega),
        Mem.writeRegion_outside _ (by omega)⟩,
      fun _ hlo hhi => ⟨Mem.writeRegion_outside _ (by omega), Mem.writeRegion_inside _ hlo (by omega),
        Mem.writeRegion_outside _ (by omega)⟩,
      fun _ hlo hhi => ⟨Mem.writeRegion_outside _ (by omega), Mem.writeRegion_outside _ (by omega),
        Mem.writeRegion_inside _ hlo (by omega)⟩⟩
  · refine ⟨s.modLog f ErrLog.write, rfl, .modLog s f _, ?_, ErrLog.write_idle, fun w q hq => ?_⟩
    · subst hl
      cases f with
      | none => rfl
      | some p => exact congrArg Part.log (part_get s p _)
    · obtain ⟨hqueue, hwritten, hdrop⟩ := ErrLog.write_oldest hq
      exact ⟨hqueue, hwritten, hdrop, ErrLog.write_rotating hq, ErrLog.write_pinned hq⟩

end Sys2Proof.Machine
end

section
/-! Checkpoint (13): the SID ceiling that a waiting BIND asks for (R414), and the messages of checkpoint and restore, each taken from its
inbox (R402-R404, R406, R408, R410, R411). -/

namespace Sys2Proof.Machine

/-! ### The SID ceiling (R414) -/

/-- The ceiling a BIND needs is the least multiple of 1,024 above its SID's number. -/
theorem sidNeeds_spec {c : Cmd} {j : Job} {n : Nat} (h : State.sidNeeds c j = some n) :
    n % 1024 = 0 ∧ c.arg0 % 2 ^ 13 < n ∧ n ≤ c.arg0 % 2 ^ 13 + 1024 := by
  unfold State.sidNeeds at h
  dsimp only at h
  split at h
  · cases h
  · cases h
    omega

/-- A message with a route waits in that port alone, as the frames that carry its payloads (R257, R266). -/
theorem inject_routed {s : State} {dst : Nat} {q : PortId} (h : routePort s.me dst = some q) (p : PartId) (vc : Nat) (hop : Bool)
    (own : Nat) (bs : Bytes) :
    ∃ fs : List Frame, s.inject p vc hop dst own bs = s.modPort q (fun o => { o with txq := o.txq ++ fs }) ∧
      fs.map (·.payload) = payloadsOf bs ∧ ∀ x ∈ fs, x.vc = vc ∧ x.hop = hop ∧ x.dst = dst ∧ x.part = p.val := by
  simp only [State.inject, h]
  refine ⟨_, rfl, ?_, fun x hx => ?_⟩
  · rw [List.map_map]
    exact List.zipIdx_map_fst 0 _
  · obtain ⟨y, -, rfl⟩ := List.mem_map.mp hx
    exact ⟨rfl, rfl, rfl, rfl⟩

theorem exec_sidCeilingRaise {s : State} {p : PartId} {e : InFlight} {j : Job} {n : Nat}
    (he : s.nextBind p 1 (fun e => !s.bindReady p e) = some e) (hj : s.parts[p].job = some j) (hn : State.sidNeeds e.cmd j = some n) :
    exec (.sidCeilingRaise p) s =
      if s.isLeader p = true then .next (s.modPart p fun x => { x with job := some { j with sidCeil := n } })
      else if j.sidAsked = some n then .next s
      else .next ((s.modPart p fun x => { x with job := some { j with sidAsked := some n } }).sendJewel p (Compact.leader j.compact)
        (.sidRaise n)) := by
  change execSidCeilingRaise p s = _
  simp only [execSidCeilingRaise, he, hj, hn]

/-- Settles O23: the row is its equation; the leader raises its own ceiling at once (log 38), and what it is asked changes the asker's job
alone and waits as one message in the port of its route. -/
theorem sidCeilingAsked : Obligations.SidCeilingAsked := by
  intro p e j n s he hj hn
  obtain ⟨hmult, habove, hleast⟩ := sidNeeds_spec hn
  rw [exec_sidCeilingRaise he hj hn]
  refine ⟨hmult, habove, hleast, fun hl => if_pos hl, fun hl hask => ?_, fun hl hask => ?_⟩
  · rw [if_neg (ne_true_of_eq_false hl), if_neg hask]
    obtain ⟨hrest, hkept⟩ := (OnlyPart.modPart s p fun x => { x with job := some { j with sidAsked := some n } }).sendJewel
      (Compact.leader j.compact) (.sidRaise n)
    refine ⟨_, rfl, hrest, hkept, ?_, fun q hq => ?_⟩
    · simp only [sendJewel_parts]
      exact part_get s p _
    · obtain ⟨fs, hsent, hpayload, hframe⟩ := inject_routed
        (s := s.modPart p fun x => { x with job := some { j with sidAsked := some n } }) hq p 2 true 0 (Config.vc2Bytes (.sidRaise n))
      rw [State.sendJewel, hsent]
      exact ⟨fun r hr => port_ne _ q r _ hr, fs, port_get _ q _, hpayload, hframe⟩
  · rw [if_neg (ne_true_of_eq_false hl), if_pos hask]

/-! ### What Fuller holds (R402, R408) -/

theorem modFuller_get (s : State) (p : PartId) (f : Fuller → Fuller) : (s.modFuller p f).parts[p].fuller = f s.parts[p].fuller :=
  congrArg Part.fuller (part_get s p _)

theorem OnlyPart.modFuller (s : State) (p : PartId) (f : Fuller → Fuller) : OnlyPart s (s.modFuller p f) p := .modPart s p _

/-- The completion of a command is no part of what Fuller holds. -/
theorem complete_fuller (s : State) (p : PartId) (u : Bool) (q : Nat) (r : Result) :
    (s.complete (some p) u q r).parts[p].fuller = s.parts[p].fuller := by
  rw [complete_side s p u q r]

theorem sendFuller_parts (s : State) (p : PartId) (dst own : Nat) (m : FullerMsg) : (s.sendFuller p dst own m).parts = s.parts :=
  inject_card s p p ..

theorem modCkpt_ckpt {s : State} {p : PartId} {c : Ckpt} (hc : s.parts[p].fuller.ckpt = some c) (f : Ckpt → Ckpt) :
    (s.modCkpt p f).parts[p].fuller.ckpt = some (f c) := by
  rw [State.modCkpt, modFuller_get, hc, Option.map_some]

theorem endCkpt_ckpt (s : State) (p : PartId) (c : Ckpt) : (s.endCkpt p c).parts[p].fuller.ckpt = none := by
  rw [State.endCkpt, complete_fuller, modFuller_get]

/-- A RESTORE that has ended is held no more. -/
theorem endRestore_restore (s : State) (p : PartId) (r : Result) : (s.endRestore p r).parts[p].fuller.restore = none := by
  unfold State.endRestore
  split
  · assumption
  · rw [complete_fuller, modFuller_get]

/-! ### CHECKPOINT_TRAILER (R402, R403) -/

section
variable {p : PartId} {c : Ckpt} {s : State} (hc : s.parts[p].fuller.ckpt = some c) (hin : State.allIn c = true) (hunits : c.units = [])
  (hsent : c.trailerSent = false)
include hc hin hunits hsent

theorem exec_checkpointTrailer_buddy {b : Nat} (hb : c.buddy = some b) : exec (.checkpointTrailer p) s =
    .next ((s.sendFuller p b c.seq (.chunk (BitVec.ofNat 32 c.ckno) c.chunks true (s.trailerOf p c).bytes)).modCkpt p fun c =>
      { c with trailerSent := true }) := by
  change execCheckpointTrailer p s = _
  simp only [execCheckpointTrailer, hc, hin, hunits, hsent, hb, Bool.not_true, List.isEmpty_nil, Bool.or_self, Bool.false_eq_true, if_false]

theorem exec_checkpointTrailer_host (hb : c.buddy = none) (hidle : s.hostBusy (some p) .checkpoint = false) :
    exec (.checkpointTrailer p) s = .next (s.hostTrailer p c) := by
  change execCheckpointTrailer p s = _
  simp only [execCheckpointTrailer, hc, hin, hunits, hsent, hb, hidle, Bool.not_true, List.isEmpty_nil, Bool.or_self, Bool.false_eq_true,
    if_false]

end

/-- The writes of a chunk change their partition alone, and nothing that Fuller holds. -/
theorem postChunk_only (s : State) (p : PartId) (st : Stream) (epoch i : Nat) (bs : Bytes) (o : Owner) (hw : Nat) :
    OnlyPart s (s.postChunk p st epoch i bs o hw) p ∧
    (s.postChunk p st epoch i bs o hw).parts[p].fuller = s.parts[p].fuller := by
  unfold State.postChunk
  split
  · exact ⟨.refl s p, rfl⟩
  · dsimp only
    refine ⟨(OnlyFn.modDma s (some p) _).trans (OnlyFn.modDma _ (some p) _), ?_⟩
    simp only [State.postWrite, State.modDma_some, part_get]

section
variable {p : PartId} {c : Ckpt} {s : State} {st : Nat × Stream} (hst : s.stream p c.sid = some st)
include hst

theorem hostTrailer_limit (h : st.2.limit ≤ c.chunks) : s.hostTrailer p c = s.failCkpt p stFailed := by
  simp only [State.hostTrailer, hst, h, true_or, if_true]

theorem hostTrailer_sent (hc : s.parts[p].fuller.ckpt = some c) (h : c.chunks < st.2.limit)
    (hkey : (s.ksrcSecret p st.2.ksrc).isSome = true) :
    (s.hostTrailer p c).parts[p].fuller.ckpt = some { c with trailerSent := true } ∧ OnlyPart s (s.hostTrailer p c) p := by
  have hgo : ¬(st.2.limit ≤ c.chunks ∨ (s.ksrcSecret p st.2.ksrc).isNone = true) := by
    rw [← Option.not_isSome, hkey]
    simpa using h
  obtain ⟨honly, hfuller⟩ := postChunk_only s p st.2 st.2.epoch c.chunks (s.trailerOf p c).bytes .checkpoint (c.chunks + 1)
  simp only [State.hostTrailer, hst, if_neg hgo]
  refine ⟨modCkpt_ckpt ?_ _, (honly.trans (.modPart _ p _)).trans (.modFuller _ p _)⟩
  rw [State.modStream, part_get]
  exact (congrArg Fuller.ckpt hfuller).trans hc

end

/-! ### The buddy's answers to its member (R402, R406, R410) -/

section
variable {s u : State} {p : PartId} {src : Nat}

theorem exec_buddyTrailerAck {n : BitVec 32} {c : Ckpt}
    (h : s.takeInbox3 p (fun _ m => m.any (·.isTrailerAck)) = some (src, some (.trailerAck n), u)) (hc : u.parts[p].fuller.ckpt = some c) :
    exec (.buddyTrailerAck p) s =
      if c.trailerSent = true ∧ c.buddy = some src ∧ c.ckno = n.toNat then .next (u.endCkpt p c) else .next u := by
  change execBuddyTrailerAck p s = _
  simp only [execBuddyTrailerAck, h, hc, Bool.and_eq_true, beq_iff_eq, and_assoc]

theorem exec_buddyRefusal {n : BitVec 32}
    (h : s.takeInbox3 p (fun _ m => m.any (·.isRefusal)) = some (src, some (.refusal n), u)) :
    exec (.buddyRefusal p) s = .next (u.refusedLog p src n.toNat) := by
  change execBuddyRefusal p s = _
  simp only [execBuddyRefusal, h]

variable {ckno : Nat}

theorem refusedLog_ckpt {c : Ckpt} (hc : u.parts[p].fuller.ckpt = some c) (hb : c.buddy = some src) (hn : c.ckno = ckno) :
    u.refusedLog p src ckno = u.failCkpt p stFailed := by
  simp only [State.refusedLog, hc, Option.any_some, hb, hn, BEq.rfl, Bool.and_self, if_true]

theorem refusedLog_restore {x : Restore} (hc : u.parts[p].fuller.ckpt = none) (hx : u.parts[p].fuller.restore = some x)
    (hb : x.buddy = some src) (hn : x.ckno = ckno) (hr : x.reported = false) : u.refusedLog p src ckno = u.failRestore p := by
  simp only [State.refusedLog, hc, Option.any_none, hx, Option.any_some, hb, hn, hr, BEq.rfl, Bool.not_false, Bool.and_self,
    Bool.false_eq_true, if_false, if_true]

theorem refusedLog_idle (hc : u.parts[p].fuller.ckpt = none) (hx : u.parts[p].fuller.restore = none) :
    u.refusedLog p src ckno = u := by
  simp only [State.refusedLog, hc, hx, Option.any_none, Bool.false_eq_true, if_false]

end

/-! ### BUDDY_CHUNK and BUDDY_LOG_REQUEST (R404, R406, R408) -/

section
variable {s u : State} {p : PartId} {src : Nat}

section
variable {n : BitVec 32} {i : Nat} {last : Bool} {d : Bytes}
  (h : s.takeInbox3 p (fun src m => m.any (·.isChunk) || (m.isNone && (s.client p src).isSome)) = some (src, some (.chunk n i last d), u))
include h

theorem exec_buddyChunk_first (hi : i = 0) : exec (.buddyChunk p) s =
    .next (((u.openLog p src n.toNat).map fun w => w.takeChunk p src 0 last (some d)).getD (u.refuseLog p src n.toNat)) := by
  change execBuddyChunk p s = _
  simp only [execBuddyChunk, h, if_pos hi]
  cases u.openLog p src n.toNat <;> rfl

theorem exec_buddyChunk_next {c : Client} (hi : i ≠ 0) (hc : u.client p src = some c) : exec (.buddyChunk p) s =
    if c.recv = some (n.toNat, i) then .next (u.takeChunk p src i last (some d)) else .next u := by
  change execBuddyChunk p s = _
  simp only [execBuddyChunk, h, if_neg hi, hc, Option.any_some, beq_iff_eq]

end

/-- A poisoned chunk stands for the next one of the log that its sender is writing. -/
theorem exec_buddyChunk_poisoned {c : Client} {r : Nat × Nat}
    (h : s.takeInbox3 p (fun src m => m.any (·.isChunk) || (m.isNone && (s.client p src).isSome)) = some (src, none, u))
    (hc : u.client p src = some c) (hr : c.recv = some r) :
    exec (.buddyChunk p) s = .next (u.takeChunk p src r.2 false none) := by
  change execBuddyChunk p s = _
  simp only [execBuddyChunk, h, hc, Option.bind_some, hr]

/-- A log that the buddy does not have is refused (log 37). -/
theorem exec_buddyLogRequest {n : BitVec 32}
    (h : s.takeInbox3 p (fun _ m => m.any (·.isLogRequest)) = some (src, some (.logRequest n), u)) :
    exec (.buddyLogRequest p) s = .next (((u.client p src).bind fun c => (c.logs.find? (·.1 == n.toNat % 2)).map fun l =>
      u.returnLog p src n.toNat l.2 c ((l.2 - 1) :: List.range (l.2 - 1))).getD (u.sendFuller p src 0 (.refusal n))) := by
  change execBuddyLogRequest p s = _
  simp only [execBuddyLogRequest, h]
  cases u.client p src with
  | none => rfl
  | some c =>
    dsimp only [Option.bind_some]
    cases c.logs.find? (·.1 == n.toNat % 2) <;> rfl

end

/-! ### RESTORE_LOG_CHUNK, RESTORE_AGREEMENT and GO (R408, R410, R411) -/

section
variable {s u : State} {p : PartId} {src : Nat}

section
variable {x : Restore} (hx : s.parts[p].fuller.restore = some x) (hb : x.buddy = some src)
include hx hb

theorem exec_restoreLogChunk {n : BitVec 32} {i k : Nat} {d : Bytes}
    (h : s.takeInbox3 p (fun src' m => m.any (·.isLogChunk) || (m.isNone && some src == some src')) = some (src, some (.logChunk n i k d), u))
    (hn : (u.parts[p].fuller.restore.any fun x => x.ckno == n.toNat) = true) :
    exec (.restoreLogChunk p) s = .next (u.restoreChunk p i k (some d)) := by
  change execRestoreLogChunk p s = _
  simp only [execRestoreLogChunk, hx, Option.bind_some, hb, h, hn, BEq.rfl, Bool.and_self, if_true]

theorem exec_restoreLogChunk_poisoned
    (h : s.takeInbox3 p (fun src' m => m.any (·.isLogChunk) || (m.isNone && some src == some src')) = some (src, none, u)) :
    exec (.restoreLogChunk p) s = .next (u.restoreChunk p 0 0 none) := by
  change execRestoreLogChunk p s = _
  simp only [execRestoreLogChunk, hx, Option.bind_some, hb, h, BEq.rfl, if_true]

end

/-- Whatever has been read of the log, a chunk that failed fails the RESTORE (R410). -/
theorem restoreChunk_failed (u : State) (p : PartId) (chunk n : Nat) : u.restoreChunk p chunk n none = u.failRestore p := by
  unfold State.restoreChunk
  cases h : u.parts[p].fuller.restore with
  | none => simp only [State.failRestore, State.endRestore, h]
  | some x => rfl

theorem exec_restoreAgreement {ckno : BitVec 32} {step : BitVec 48} {capd : Bytes} {narw : Bool}
    (h : s.takeInbox2 p (fun _ m => m.isRestoreValues) = some (src, .restoreValues ckno step capd narw, u)) (hl : u.isLeader p = true) :
    exec (.restoreAgreement p) s = .next (u.noteRestore p src (ckno.toNat, step.toNat, capd, narw)) := by
  change execRestoreAgreement p s = _
  simp only [execRestoreAgreement, h, if_pos hl]

/-- While a member's values are missing, the leader does not answer (R411). -/
theorem decideRestore_waits {s : State} {p : PartId} {j : Job} {m : MemberRec} (hj : s.parts[p].job = some j) (hm : m ∈ j.members)
    (hr : m.restore = none) : s.decideRestore p = s := by
  have hmissing : (j.members.all (·.restore.isSome)) = false := List.all_eq_false.mpr ⟨m, hm, by rw [hr]; exact Bool.false_ne_true⟩
  simp only [State.decideRestore, hj, hmissing, Bool.not_false, Bool.or_true, if_true]

/-- While another member's values are missing, a member's values are noted in its record and that is all. -/
theorem noteRestore_waits {j : Job} {m : MemberRec} (hj : u.parts[p].job = some j) (hm : m ∈ j.members) (hother : m.coord.toNat ≠ src)
    (hr : m.restore = none) (v : Nat × Nat × Bytes × Bool) :
    u.noteRestore p src v = u.modMember p src fun m => { m with restore := some v } := by
  refine decideRestore_waits (congrArg Part.job (PartBecomes.of_modJob hj _).2) (List.mem_map.mpr ⟨m, hm, ?_⟩) hr
  exact if_neg (by rwa [beq_iff_eq])

theorem exec_goMsg {yes : Bool} (h : s.takeInbox2 p (fun _ m => m.isGo) = some (src, .go yes, u))
    (hsrc : src = Compact.leader (u.compact p)) : exec (.goMsg p) s = .next (u.restoreGo p yes) := by
  change execGoMsg p s = _
  simp only [execGoMsg, h, if_pos hsrc]

theorem restoreGo_reported {x : Restore} (hx : u.parts[p].fuller.restore = some x) (hr : x.reported = true) (yes : Bool) :
    u.restoreGo p yes = u.endRestore p (if yes then
      { status := stOk, result := ((x.trailer.map (·.entry)).getD 0) % 4096 + 65536 * ((x.trailer.map (·.narw)).getD false).toNat }
    else { status := stRefused, cls := 2 }) := by
  simp only [State.restoreGo, hx, hr, Bool.not_true, Bool.false_eq_true, if_false]
  exact (apply_ite (u.endRestore p) _ _ _).symm

end

/-- Settles O41: each row is its equation on the message that it takes; a refusal for want of the log is log 37's, one taken as the end of
a RESTORE log 46's. -/
theorem logMessagesTaken : Obligations.LogMessagesTaken := by
  refine fun p src s u => ⟨fun c hc hin hunits hsent => ⟨fun b hb => ?_, fun st hb hidle hst => ?_⟩, fun n c h hc hsent hb hn => ?_,
    fun n h => ?_, fun n i last d h => ⟨fun w hi hw => ?_, fun hi hw => ?_, fun c hi hc => ?_⟩,
    fun c r h hc hr => exec_buddyChunk_poisoned h hc hr, fun n h => ?_, fun x hx hb => ⟨fun n i k d h hn => ?_, fun h => ?_⟩,
    fun ckno step capd narw j h hl hj => ?_, fun yes x h hsrc hx hr => ?_⟩
  · exact ⟨_, exec_checkpointTrailer_buddy hc hin hunits hsent hb, rfl, modCkpt_ckpt (by simp only [sendFuller_parts, hc]) _⟩
  · rw [exec_checkpointTrailer_host hc hin hunits hsent hb hidle]
    exact ⟨fun hfits hkey => ⟨_, rfl, hostTrailer_sent hst hc hfits hkey⟩, fun hfull => congrArg _ (hostTrailer_limit hst hfull)⟩
  · exact ⟨_, (exec_buddyTrailerAck h hc).trans (if_pos ⟨hsent, hb, hn⟩), rfl, endCkpt_ckpt u p c⟩
  · rw [exec_buddyRefusal h]
    exact ⟨fun c hc hb hn => congrArg _ (refusedLog_ckpt hc hb hn),
      fun x hc hx hb hn hr => congrArg _ (refusedLog_restore hc hx hb hn hr), fun hc hx => congrArg _ (refusedLog_idle hc hx)⟩
  · rw [exec_buddyChunk_first h hi, hw, Option.map_some, Option.getD_some]
  · rw [exec_buddyChunk_first h hi, hw, Option.map_none, Option.getD_none]
  · rw [exec_buddyChunk_next h hi hc]
    exact ⟨fun hr => if_pos hr, fun hr => if_neg hr⟩
  · rw [exec_buddyLogRequest h]
    refine ⟨fun c l hc hl => ?_, fun hc => ?_⟩
    · rw [hc, Option.bind_some, hl, Option.map_some, Option.getD_some]
    · rw [hc, Option.bind_none, Option.getD_none]
  · exact exec_restoreLogChunk hx hb h hn
  · rw [exec_restoreLogChunk_poisoned hx hb h, restoreChunk_failed]
  · refine ⟨_, exec_restoreAgreement h hl, rfl, fun ⟨m, hm, hother, hr⟩ => ?_⟩
    rw [noteRestore_waits hj hm hother hr]
    exact PartBecomes.of_modJob hj _
  · rw [exec_goMsg h hsrc, restoreGo_reported hx hr]
    exact ⟨_, rfl, endRestore_restore .., rfl⟩

end Sys2Proof.Machine
end

section
/-! Power (14, R419, R427-R430, R433, R436): a row monitor's sample, an overcurrent of a core rail, and what a lost clock does. -/

namespace Sys2Proof.Machine

/-! ### The row monitors and the core rails (R419, R427-R430) -/

/-- s with f at each tile of a row. -/
def State.modRow (s : State) (row : Fin 8) (f : Tile → Tile) : State := (State.rowTiles row).foldl (fun s x => s.modTile x f) s

/-- A change of the board and of a row changes these and nothing else. -/
theorem modRow_spec {s u : State} {b : Board} {row : Fin 8} {f : Tile → Tile} (hu : u = ({ s with board := b } : State).modRow row f) :
    u = { s with board := u.board, tiles := u.tiles } ∧ u.board = b ∧ (∀ x ∈ State.rowTiles row, u.tiles[x] = f s.tiles[x]) ∧
    ∀ x : TileId, x ∉ State.rowTiles row → u.tiles[x] = s.tiles[x] := by
  obtain ⟨hrow, hothers, hrest⟩ := rowFold f _ (rowTiles_nodup row) { s with board := b }
  subst hu
  have hboard : (({ s with board := b } : State).modRow row f).board = b := congrArg State.board hrest
  exact ⟨hrest.trans (by rw [hboard]; rfl), hboard, hrow, hothers⟩

/-- The estimates of a row's tiles since the last sample (R428). -/
def State.rowEstimate (s : State) (row : Fin 8) : Nat := (State.rowTiles row).foldl (fun n x => n + s.tiles[x].estSum) 0

/-- s after a row monitor's sample of pm against the estimate e, before PWRDIS and the log follow it (R428, R429). -/
def State.sampled (s : State) (row : Fin 8) (pm e : Nat) : State :=
  ({ s with board := { s.board with rows := s.board.rows.set row (s.board.rows[row].sample pm e) } } : State).modRow row fun y =>
    { y with k := (s.board.rows[row].sample pm e).factor pm e, estSum := 0 }

section
variable (row : Fin 8)

/-- The power of a sample is the row's fused core voltage times its current, in the units of log 40. -/
theorem exec_rowMonitorSample (ma : Nat) {s : State} (h : s.boot.image.isSome = true) {pm e : Nat} (hpm : pm = s.boot.vcore[row] * ma)
    (he : e = s.rowEstimate row) : exec (.rowMonitorSample row ma) s =
      .next ((s.sampled row pm e).setPwrDis.logRow row s.board.rows[row] (s.board.rows[row].sample pm e)) := by
  subst hpm he
  exact if_neg (by rw [← Option.not_isSome, h]; decide)

theorem exec_rowMonitorSample_unapplied (ma : Nat) (s : State) (h : s.boot.image = none) : exec (.rowMonitorSample row ma) s = .next s :=
  if_pos (Option.isNone_iff_eq_none.mpr h)

theorem exec_coreRailOvercurrent {s : State} (h : s.board.railCore[row] = true) :
    exec (.coreRailOvercurrent row) s = .next ((s.rowOff row).raiseRow row 0x42 0x50 row.val) := if_pos h

theorem exec_coreRailOvercurrent_off {s : State} (h : s.board.railCore[row] = false) : exec (.coreRailOvercurrent row) s = .next s :=
  if_neg (ne_true_of_eq_false h)

/-- The channels of a row whose rails go off have lost their contents (R419). -/
theorem rowOff_eq (s : State) : s.rowOff row =
    ({ s with board := { s.board with railCore := s.board.railCore.set row false, railMem := s.board.railMem.set row false } } : State).modRow
      row fun y => { y with chans := y.chans.map fun c => { c with init := false } } := rfl

end

/-! ### PLLs and the core oscillator (R433, R436) -/

section
variable {i : Fin 76} {s : State}

theorem exec_pllLossOfLock_off (h : s.board.pwrGood = false) : exec (.pllLossOfLock i) s = .next s := if_pos h

variable (hgood : s.board.pwrGood = true)
include hgood

theorem exec_pllLossOfLock_tile (h : i.val < 64) : exec (.pllLossOfLock i) s = .next (s.raiseTile ⟨i.val, h⟩ 0x43 0 0) :=
  (if_neg (by rw [hgood]; decide)).trans (dif_pos h)

/-- The PLL of a ring port counts once as a failure of its engine (log 31). -/
theorem exec_pllLossOfLock_port (h : 65 ≤ i.val ∧ i.val < 73) {q : PortId} (hq : q.val = i.val - 65) :
    exec (.pllLossOfLock i) s = if s.engines[q] = some false then .next s else .next (s.engineFail q) := by
  obtain rfl : q = ⟨i.val - 65, Nat.sub_lt_left_of_lt_add h.1 h.2⟩ := Fin.ext hq
  exact (if_neg (by rw [hgood]; decide)).trans ((dif_neg (by omega)).trans (dif_pos h))

theorem exec_pllLossOfLock_shared (h : i.val = 64 ∨ 73 ≤ i.val) :
    exec (.pllLossOfLock i) s = .next (s.mfatal 0x51 (mfatalSrc 0x51 i.val) i.val) :=
  (if_neg (by rw [hgood]; decide)).trans ((dif_neg (by omega)).trans (dif_neg (by omega)))

end

section
variable {s : State}

theorem exec_oscillatorLoss (hvaux : s.board.vauxOk = true) (hrun : s.board.oscLost = false) : exec .oscillatorLoss s =
    .next { s.mfatal 0x52 0x50 0 with board := { (s.mfatal 0x52 0x50 0).board with oscLost := true } } :=
  if_pos (by rw [hvaux, hrun]; rfl)

theorem exec_oscillatorLoss_ignored (h : s.board.vauxOk = false ∨ s.board.oscLost = true) : exec .oscillatorLoss s = .next s := by
  refine if_neg ?_
  obtain h | h := h <;> simp [h]

theorem exec_oscillatorRecovery (s : State) : exec .oscillatorRecovery s =
    .next { s with board := { s.board with oscLost := false }, boot := { s.boot with mstate :=
      (if s.board.pwrGood then s.boot.mstate else State.offState { s.board with oscLost := false }) } } := by
  change execOscillatorRecovery s = _
  unfold execOscillatorRecovery
  cases h : s.board.pwrGood <;> simp [h]

end

/-- A PLL that neither a tile nor a port has: its island is the source of a module-fatal error. -/
theorem sharedPll_island {n src : Nat} (h : (n, src) ∈ [(64, 0x41), (73, 0x40), (74, 0x42), (75, 0x43)]) : n = 64 ∨ 73 ≤ n := by
  simp only [List.mem_cons, Prod.mk.injEq, List.not_mem_nil, or_false] at h
  omega

/-- Settles O43: a sample changes its row's monitor and tiles (`State.sampled`, in the units of log 40), an overcurrent its row's rails
and channels (`rowOff_eq`); a PLL that loses lock acts by its island, and a port's once, before its engine's self-test too (log 31). -/
theorem railsAndClocksFail : Obligations.RailsAndClocksFail := by
  refine ⟨fun row ma pm e s him hpm he => ?_, exec_rowMonitorSample_unapplied, fun row s => ⟨fun hon => ?_,
    exec_coreRailOvercurrent_off row⟩, fun i s => ⟨exec_pllLossOfLock_off, fun hgood => ⟨exec_pllLossOfLock_tile hgood,
    fun h q hq => ?_, fun src hsrc => ?_⟩⟩, fun s => ⟨fun hvaux hrun => ⟨_, _, rfl, exec_oscillatorLoss hvaux hrun, rfl⟩,
    exec_oscillatorLoss_ignored⟩, fun s => ⟨_, exec_oscillatorRecovery s, rfl, fun h => if_pos h,
    fun h => if_neg (ne_true_of_eq_false h)⟩⟩
  · obtain ⟨hrest, hboard, hrow, hothers⟩ := modRow_spec (rfl : s.sampled row pm e = _)
    have htiles : ((s.sampled row pm e).setPwrDis.logRow row s.board.rows[row] (s.board.rows[row].sample pm e)).tiles =
        (s.sampled row pm e).tiles := by simp only [logRow_tiles, State.setPwrDis_frame]
    refine ⟨_, _, exec_rowMonitorSample row ma him hpm he, rfl, hrest, hboard, ?_, htiles, ?_⟩
    · simp only [State.logRow_frame, State.setPwrDis_frame]
    · rw [htiles]
      exact ⟨hrow, hothers⟩
  · exact ⟨_, _, exec_coreRailOvercurrent row hon, rfl, modRow_spec (rowOff_eq row s)⟩
  · rw [exec_pllLossOfLock_port hgood h hq]
    exact ⟨fun hworks => if_neg hworks, fun hfailed => if_pos hfailed⟩
  · rw [exec_pllLossOfLock_shared hgood (sharedPll_island hsrc), mfatalSrc_pll hsrc]

end Sys2Proof.Machine
end

section
/-! Temperatures (14, R438-R440, R442): what a reading of a sensor does, and the trip. -/

namespace Sys2Proof.Machine

/-! ### The trip (R439, R440) -/

section
variable (kind idx : Nat) {s : State}

theorem trip_latched (h : s.board.tripLatch = true) : s.trip kind idx = s := if_pos h

/-- The module off with the cause of a trip latched. The log closes its episode, and MRST waits for the next start (log 31). -/
def State.tripped (s : State) (kind idx : Nat) : State :=
  let u := s.preempt.railsOff.modLog none fun l => { l with episode := none }
  { u with
    boot := { u.boot with mstate := .tripped }
    board := { u.board with tripLatch := true, tripKind := kind, tripIdx := idx, tripWait := false, restarting := none, mrst := some (0xFF, true) } }

theorem trip_latches (h : s.board.tripLatch = false) : s.trip kind idx = s.tripped kind idx := if_neg (ne_true_of_eq_false h)

end

/-! ### Readings (R438, R439, R442) -/

section
variable {s : State}

/-- s with a reading of die sensor i, or none where its self-check failed (log 31). -/
def State.dieRead (s : State) (i : Fin 68) (v : Option Int) : State :=
  { s with board := { s.board with dieTemp := s.board.dieTemp.set i v } }

section
variable (i : Fin 68) (hvaux : s.board.vauxOk = true)
include hvaux

theorem exec_dieSensorRead (c : Int) : exec (.dieSensorRead i (some c)) s =
    if 16 * 115 ≤ c then .next ((s.dieRead i (some c)).trip 1 i.val) else .next (s.dieRead i (some c)) :=
  if_neg (by rw [hvaux]; decide)

theorem exec_dieSensorRead_faulty : exec (.dieSensorRead i none) s = .next ((s.dieRead i none).trip 2 i.val) :=
  if_neg (by rw [hvaux]; decide)

end

theorem exec_dieSensorRead_unpowered (h : s.board.vauxOk = false) (i : Fin 68) (v : Option Int) : exec (.dieSensorRead i v) s = .next s :=
  if_pos (by rw [h]; rfl)

section
variable {i : Fin 64} (hvaux : s.board.vauxOk = true) (hread : s.board.pkgIgnored[i] = false)
include hvaux hread

theorem exec_packageTempRead (c : Int) {u : State}
    (hu : u = { s with board := { s.board with pkgTemp := s.board.pkgTemp.set i (some c), pkgUnread := s.board.pkgUnread.set i 0 } }) :
    exec (.packageTempRead i (some c)) s = if 16 * 105 ≤ c then .next (u.trip 3 i.val) else .next u := by
  subst hu
  exact if_neg (by rw [hvaux, hread]; decide)

theorem exec_packageTempRead_unanswered {u : State}
    (hu : u = { s with board := { s.board with pkgUnread := s.board.pkgUnread.set i (s.board.pkgUnread[i] + 1) } }) :
    exec (.packageTempRead i none) s = if 9 ≤ s.board.pkgUnread[i] then .next (u.packageLost i) else .next u := by
  subst hu
  exact (if_neg (by rw [hvaux, hread]; decide)).trans (ite_congr (propext Nat.succ_le_succ_iff) (fun _ => rfl) fun _ => rfl)

end

theorem exec_packageTempRead_ignored {i : Fin 64} (h : s.board.vauxOk = false ∨ s.board.pkgIgnored[i] = true) (v : Option Int) :
    exec (.packageTempRead i v) s = .next s := by
  refine if_pos ?_
  obtain h | h := h <;> simp [h, -Fin.getElem_fin]

theorem exec_tripCool : exec .tripCool s =
    if s.board.tripWait = true ∧ s.cool = true then .next { s with board := { s.board with tripWait := false } } else .next s := by
  change execTripCool s = _
  simp only [execTripCool, Bool.and_eq_true]

end

/-- Settles O44: each reading is its equation, a failed self-check emptying what is kept (log 31); what a trip leaves is `State.tripped`. -/
theorem temperaturesRead : Obligations.TemperaturesRead := by
  refine ⟨fun i c s u hvaux hu => ?_, fun i s u hvaux hu => ?_, fun i s hvaux hread => ⟨fun c u hu => ?_, fun u hu => ?_⟩,
    fun s v => ⟨fun h i => exec_dieSensorRead_unpowered h i v, fun i h => exec_packageTempRead_ignored h v⟩,
    fun s => ⟨fun hwait hcool => ?_, fun h => ?_⟩, fun k i s => ⟨trip_latched k i, fun h => ?_⟩⟩
  · subst hu
    rw [exec_dieSensorRead i hvaux]
    exact ⟨fun h => if_pos h, fun h => if_neg (Int.not_le.mpr h)⟩
  · subst hu
    exact exec_dieSensorRead_faulty i hvaux
  · rw [exec_packageTempRead hvaux hread c hu]
    exact ⟨fun h => if_pos h, fun h => if_neg (Int.not_le.mpr h)⟩
  · rw [exec_packageTempRead_unanswered hvaux hread hu]
    exact ⟨fun h => if_pos h, fun h => if_neg (Nat.not_le.mpr h)⟩
  · rw [exec_tripCool, if_pos ⟨hwait, hcool⟩]
  · rw [exec_tripCool, if_neg]
    rintro ⟨hwait, hcool⟩
    rw [hwait, hcool] at h
    exact absurd h (by decide)
  · rw [trip_latches k i h]
    exact ⟨rfl, rfl, rfl, rfl, rfl, rfl, rfl, rfl, rfl, rfl, rfl, rfl, rfl⟩

end Sys2Proof.Machine
end

section
/-! Supplies and sideband inputs (14, R418, R440; 15, R462; 18, R514-R522): what turns the module off, and what lets it start. -/

namespace Sys2Proof.Machine

/-! ### The input and the rails (R418, R514-R517) -/

section
variable {s : State}

section
variable (hvaux : s.board.vauxOk = true)
include hvaux

theorem exec_inputFaults :
    exec .inputUndervoltage s = .next (s.inputFault fun b => { b with underVolt := true }) ∧
    exec .inputOvervoltage s = .next (s.inputFault fun b => { b with overVolt := true }) ∧
    exec .inputOvercurrent s = .next (s.inputFault fun b => { b with overCurrent := true, ocReleased := false }) :=
  ⟨if_pos hvaux, if_pos hvaux, if_pos hvaux⟩

theorem exec_vauxFault : exec .vauxFault s = .next
    { s.inputFault fun b => { b with vauxHold := true } with
      boot := { (s.inputFault fun b => { b with vauxHold := true }).boot with derived := false }
      board := { (s.inputFault fun b => { b with vauxHold := true }).board with
        vauxOk := false, dieTemp := Vector.replicate 68 none, pkgTemp := Vector.replicate 64 none, smbus := none } } :=
  if_neg (by rw [hvaux]; decide)

end

/-- Without VAUX nothing watches the input. -/
theorem exec_supply_unpowered (hvaux : s.board.vauxOk = false) : exec .vauxFault s = .next s ∧ exec .inputUndervoltage s = .next s ∧
    exec .inputOvervoltage s = .next s ∧ exec .inputOvercurrent s = .next s :=
  ⟨if_pos (by rw [hvaux]; rfl), if_neg (ne_true_of_eq_false hvaux), if_neg (ne_true_of_eq_false hvaux),
    if_neg (ne_true_of_eq_false hvaux)⟩

theorem inputFault_board (f : Board → Board) :
    (s.inputFault f).board = (({ s with board := f s.board } : State).moduleOff).board := (State.cause_frame _ 1).1

/-- A fault of the input turns every rail but VAUX off and closes the hatband; flash and fuses stay (R33, R418). -/
theorem inputFault_off (f : Board → Board) :
    (s.inputFault f).board.pwrGood = false ∧ (s.inputFault f).board.railCore = Vector.replicate 8 false ∧
    (s.inputFault f).board.railMem = Vector.replicate 8 false ∧ (s.inputFault f).board.railPeri = false ∧
    (s.inputFault f).board.railOpt = false ∧ (s.inputFault f).boot.flash = s.boot.flash ∧ (s.inputFault f).boot.fuses = s.boot.fuses ∧
    (s.inputFault f).host.linkUp = false ∧ (s.inputFault f).hatband = Vector.replicate 4 true := by
  obtain ⟨-, -, hflash, hfuses, -⟩ := s.inputFault_frame f
  rw [inputFault_board]
  refine ⟨rfl, rfl, rfl, rfl, rfl, hflash, hfuses, ?_⟩
  simp only [State.inputFault, State.cause_frame]
  exact ⟨rfl, rfl⟩

theorem exec_inputRelease_under : exec (.inputRelease false) s = .next { s with board := { s.board with underVolt := false } } := by
  change execInputRelease false s = _
  simp only [execInputRelease, Bool.and_false, Bool.not_false, Bool.and_true]

theorem exec_inputRelease_over : exec (.inputRelease true) s = .next { s with board := { s.board with overVolt := false } } := by
  change execInputRelease true s = _
  simp only [execInputRelease, Bool.and_true, Bool.not_true, Bool.and_false]

theorem exec_railsRise (hstart : s.mayStart = true) (hoff : s.board.pwrGood = false) : exec .railsRise s = .next { s with board :=
    { s.board with railCore := Vector.replicate 8 true, railMem := Vector.replicate 8 true, railPeri := true, railOpt := true, pwrGood := true } } :=
  if_neg (by rw [hstart, hoff]; decide)

theorem exec_railsRise_ignored (h : s.mayStart = false ∨ s.board.pwrGood = true) : exec .railsRise s = .next s := by
  refine if_pos ?_
  obtain h | h := h <;> simp [h]

/-- s with its input power removed: what VAUX kept is gone but for the wait for cool sensors; the next cause is a power-on (R440, R488;
log 31). -/
def State.inputRemoved (s : State) : State :=
  let u := s.moduleOff.cause 1
  { u with
    board := u.board.unpowered
    boot := { u.boot with mstate := .powering, derived := false, nextCause := 1 }
    clocks := ⟨0, 0, 0, 0, 0, 0⟩
    jewel := { u.jewel with log := ErrLog.empty } }

theorem exec_startConditionLoss (hin : s.board.inputPower = true) (removed : Bool) :
    exec (.startConditionLoss removed) s = if removed then .next s.inputRemoved else .next (s.moduleOff.cause 1) :=
  if_neg (by rw [hin]; decide)

theorem inputRemoved_spec : s.inputRemoved.board.vauxOk = false ∧ s.inputRemoved.board.tripLatch = false ∧
    s.inputRemoved.board.tripWait = (s.board.tripWait || s.board.tripLatch) ∧ s.inputRemoved.boot.mstate = .powering ∧
    s.inputRemoved.clocks = ⟨0, 0, 0, 0, 0, 0⟩ ∧ s.inputRemoved.jewel.log = ErrLog.empty ∧ s.inputRemoved.boot.flash = s.boot.flash ∧
    s.inputRemoved.boot.fuses = s.boot.fuses := by
  refine ⟨rfl, rfl, ?_, rfl, rfl, rfl, ?_, ?_⟩
  · exact (congrArg (fun b : Board => b.unpowered.tripWait) (State.cause_frame s.moduleOff 1).1 :)
  · simp only [State.inputRemoved, State.cause_frame, State.moduleOff_frame]
  · simp only [State.inputRemoved, State.cause_frame, State.moduleOff_frame]

end

/-- Settles O45: each row is its equation; what a fault of the input leaves is `inputFault_off`, what its removal leaves
`State.inputRemoved`, where the wait for cool sensors, POWERING and the cause of a power-on are log 31's (R440, R488). -/
theorem suppliesComeAndGo : Obligations.SuppliesComeAndGo := by
  refine fun s => ⟨exec_inputFaults, exec_inputRelease_under, exec_inputRelease_over, inputFault_off,
    fun slot => ⟨fun h => if_neg (ne_true_of_eq_false h), fun h => if_pos h⟩, exec_railsRise, exec_railsRise_ignored,
    fun h => exec_startConditionLoss h false, fun h => ⟨_, exec_startConditionLoss h true, rfl, inputRemoved_spec⟩,
    fun h r => if_pos (by rw [h]; rfl), fun h => if_neg (ne_true_of_eq_false h), fun h => if_pos h, fun h => ?_,
    exec_supply_unpowered, fun hin hhold => if_pos (by rw [hin, hhold]; rfl), fun h => if_neg ?_⟩
  · obtain ⟨hgood, -, -, -, -, hflash, -, -, hclosed⟩ := inputFault_off (s := s) fun b => { b with vauxHold := true }
    refine ⟨_, exec_vauxFault h, rfl, ?_, hgood, rfl, hflash, hclosed⟩
    exact congrArg Board.vauxHold (inputFault_board _)
  · obtain h | h := h <;> simp [h]

/-! ### The sideband inputs (R440, R462, R516-R522) -/

section
variable {s : State}

section
variable (hvaux : s.board.vauxOk = true)
include hvaux

theorem exec_modEnableDeassert (h : s.board.modEnable = true) (slot : BitVec 5) : exec (.modEnableDeassert slot) s =
    .next (((({ s with board := { s.board with
      modEnable := false, slotId := slot, ocReleased := s.board.overCurrent, romReleased := s.board.romHold } } : State).moduleOff).cause
      2).countReset) := if_neg (by rw [hvaux, h]; decide)

theorem modEnable_low (h : s.board.modEnable = false) : ¬(!s.board.vauxOk || s.board.modEnable) = true := by
  rw [hvaux, h]; decide

theorem exec_perstNAssert (h : s.board.perstN = true) : exec .perstNAssert s = .next (State.countReset
    (if s.boot.phase = .training ∨ s.boot.phase = .ready ∨ s.boot.phase = .recovery then
      (({ s with board := { s.board with perstN := false, perstReset := true } } : State).moduleOff).cause 2
    else { s with board := { s.board with perstN := false } })) := by
  refine (if_neg (by rw [hvaux, h]; decide)).trans ?_
  cases s.boot.phase <;> simp

end

theorem exec_modEnableDeassert_ignored (h : s.board.vauxOk = false ∨ s.board.modEnable = false) (slot : BitVec 5) :
    exec (.modEnableDeassert slot) s = .next s := by
  refine if_pos ?_
  obtain h | h := h <;> simp [h]

theorem exec_modEnableLow_ignored (h : s.board.vauxOk = false ∨ s.board.modEnable = true) :
    exec .modEnableAssert s = .next s ∧ exec .modEnableHeldLow s = .next s := by
  have hidle : (!s.board.vauxOk || s.board.modEnable) = true := by obtain h | h := h <;> simp [h]
  exact ⟨if_pos hidle, if_pos hidle⟩

theorem exec_perstNAssert_ignored (h : s.board.vauxOk = false ∨ s.board.perstN = false) : exec .perstNAssert s = .next s := by
  refine if_pos ?_
  obtain h | h := h <;> simp [h]

/-- The 2 s of R521 are 2 * 10^9 counts of VAUX (log 14). -/
theorem exec_stormHoldEnd (hstorm : s.board.stormHold = true) (hquiet : s.board.lastEdge + 2000000000 ≤ s.clocks.vaux) :
    exec .stormHoldEnd s = .next { s with board := { s.board with stormHold := false, resetTimes := [] } } :=
  if_pos (Bool.and_eq_true_iff.mpr ⟨hstorm, decide_eq_true hquiet⟩)

theorem exec_stormHoldEnd_early (h : s.board.stormHold = false ∨ s.clocks.vaux < s.board.lastEdge + 2000000000) :
    exec .stormHoldEnd s = .next s :=
  if_neg (Bool.not_eq_true _ ▸ Bool.and_eq_false_iff.mpr (h.imp_right fun h => decide_eq_false (Nat.not_le.mpr h)))

end

/-- Settles O46: each row is its equation, taken on an edge and not on the level that holds; the length of a second is log 14's. -/
theorem sidebandInputsAct : Obligations.SidebandInputsAct := by
  refine ⟨fun s hvaux => ⟨fun slot u h hu => ?_, fun h => ?_, fun h => ?_, fun h => ?_⟩,
    fun s => ⟨exec_stormHoldEnd, exec_stormHoldEnd_early, exec_modEnableDeassert_ignored, exec_modEnableLow_ignored, exec_perstNAssert_ignored⟩⟩
  · subst hu
    exact exec_modEnableDeassert hvaux h slot
  · exact ⟨_, if_neg (modEnable_low hvaux h), rfl, rfl⟩
  · exact ⟨_, if_neg (modEnable_low hvaux h), rfl, rfl, fun hl => if_pos hl, fun hl => if_neg (ne_true_of_eq_false hl)⟩
  · rw [exec_perstNAssert hvaux h]
    exact ⟨fun hlate => by rw [if_pos hlate], fun ⟨htrain, hready, hrec⟩ => by rw [if_neg (by simp [htrain, hready, hrec])]⟩

end Sys2Proof.Machine
end

section
/-! The block as a whole (95): a step runs the front command, and every command answers a next state with the queue as it was. -/

namespace Sys2Proof.Machine

theorem step_of_front {c : Instr} {rest : List Instr} {s : State} (h : s.pending = c :: rest) :
    step s = exec c { s with pending := rest } := by
  simp only [step, h]

/-- Settles O1: the branch of a step with a command waiting (`step_of_front`); that there is one queue is log 15. -/
theorem stepRunsFront : Obligations.StepRunsFront := fun _ _ _ => step_of_front

/-- From s the outcome is a next state, which holds the same queue. -/
def Proceeds (s : State) (o : Host.Outcome State Fault Refusal) : Prop := ∃ t, o = .next t ∧ t.pending = s.pending

/-- A command's frame, which names the queue among what it keeps, says that the command proceeds. -/
theorem Proceeds.of_frame {s : State} {o : Host.Outcome State Fault Refusal} {Kept : State → Prop} (h : ∃ u, o = .next u ∧ Kept u)
    (hq : ∀ u, Kept u → u.pending = s.pending := by intro _ k; simp only [k]) : Proceeds s o :=
  h.imp fun u ⟨hu, k⟩ => ⟨hu, hq u k⟩

/-- That each command has an effect on every path, and none a fault, is the model's choice (log 17). -/
theorem exec_proceeds (c : Instr) (s : State) : Proceeds s (exec c s) :=
  match c with
  | .slotTake f urgent => Proceeds.of_frame (execSlotTake_frame f urgent s)
  | .badslot f urgent => Proceeds.of_frame (execBadslot_frame f urgent s)
  | .barWrite f bar off data => Proceeds.of_frame (execBarWrite_frame f bar off data s)
  | .jobOpen p obj sigOk => Proceeds.of_frame (execJobOpen_frame p obj sigOk s)
  | .jobClose p => Proceeds.of_frame (execJobClose_frame p s)
  | .keyRelease p obj sigOk kem => Proceeds.of_frame (execKeyRelease_frame p obj sigOk kem s)
  | .attest f nonce => Proceeds.of_frame (execAttest_frame f nonce s)
  | .loadProgram p obj => Proceeds.of_frame (execLoadProgram_frame p obj s)
  | .run p => Proceeds.of_frame (execRun_frame p s)
  | .copyIn p => Proceeds.of_frame (execCopyIn_frame p s)
  | .copyOut p => Proceeds.of_frame (execCopyOut_frame p s)
  | .bind p => Proceeds.of_frame (execBind_frame p s)
  | .unbind p => Proceeds.of_frame (execUnbind_frame p s)
  | .reduce p => Proceeds.of_frame (execReduce_frame p s)
  | .checkpoint p => Proceeds.of_frame (execCheckpoint_frame p s)
  | .restore p => Proceeds.of_frame (execRestore_frame p s)
  | .fence p => Proceeds.of_frame (execFence_frame p s)
  | .status f => Proceeds.of_frame (execStatus_frame f s)
  | .abort f => Proceeds.of_frame (execAbort_frame f s)
  | .nvmStage obj => Proceeds.of_frame (execNvmStage_frame obj s)
  | .commandTimeout f => Proceeds.of_frame (execCommandTimeout_frame f s)
  | .jewelWindow => Proceeds.of_frame (execJewelWindow_frame s)
  | .jewelWatchdogExpiry => Proceeds.of_frame (execJewelWatchdogExpiry_frame s)
  | .pass t => Proceeds.of_frame (execPass_frame t s)
  | .passComplete t => Proceeds.of_frame (execPassComplete_frame t s)
  | .accumReplay t => Proceeds.of_frame (execAccumReplay_frame t s)
  | .epilogue t => Proceeds.of_frame (execEpilogue_frame t s)
  | .vec t => Proceeds.of_frame (execVec_frame t s)
  | .dma t => Proceeds.of_frame (execDma_frame t s)
  | .dmaComplete t ix => Proceeds.of_frame (execDmaComplete_frame t ix s)
  | .send t => Proceeds.of_frame (execSend_frame t s)
  | .recv t => Proceeds.of_frame (execRecv_frame t s)
  | .meshTransferDone src dst => Proceeds.of_frame (execMeshTransferDone_frame src dst s)
  | .loop t => Proceeds.of_frame (execLoop_frame t s)
  | .endProgram t => Proceeds.of_frame (execEndProgram_frame t s)
  | .tileComplete t => Proceeds.of_frame (execTileComplete_frame t s)
  | .sealGranuleRead t ix lines => Proceeds.of_frame (execSealGranuleRead_frame t ix lines s)
  | .counterMissFill t ix lines mirrors => Proceeds.of_frame (execCounterMissFill_frame t ix lines mirrors s)
  | .sealGranuleWrite t ix lines => Proceeds.of_frame (execSealGranuleWrite_frame t ix lines s)
  | .rootUpdate t => Proceeds.of_frame (execRootUpdate_frame t s)
  | .patrolRead t k line => Proceeds.of_frame (execPatrolRead_frame t k line s)
  | .refresh t k => Proceeds.of_frame (execRefresh_frame t k s)
  | .packageTempRead pkg temp => Proceeds.of_frame (execPackageTempRead_frame pkg temp s)
  | .dieSensorRead ix temp => Proceeds.of_frame (execDieSensorRead_frame ix temp s)
  | .tripCool => Proceeds.of_frame (execTripCool_frame s)
  | .rootScrub flips => Proceeds.of_frame (execRootScrub_frame flips s)
  | .dataFrameReceive port fecOk fecc wire => Proceeds.of_frame (execDataFrameReceive_frame port fecOk fecc wire s)
  | .idleFrameReceive port fecOk fecc wire => Proceeds.of_frame (execIdleFrameReceive_frame port fecOk fecc wire s)
  | .frameSlotSend port => Proceeds.of_frame (execFrameSlotSend_frame port s)
  | .replayTimeout port => Proceeds.of_frame (execReplayTimeout_frame port s)
  | .ackStallRetrain port => Proceeds.of_frame (execAckStallRetrain_frame port s)
  | .laneSignalLoss port back => Proceeds.of_frame (execLaneSignalLoss_frame port back s)
  | .signalHoldExpiry port => Proceeds.of_frame (execSignalHoldExpiry_frame port s)
  | .laneLock port => Proceeds.of_frame (execLaneLock_frame port s)
  | .hello port coord nport nonce digest fecc => Proceeds.of_frame (execHello_frame port coord nport nonce digest fecc s)
  | .evidenceDPlus port chain report ek authOk fecc => Proceeds.of_frame (execEvidenceDPlus_frame port chain report ek authOk fecc s)
  | .evidenceDMinus port chain report ct authOk kem fecc => Proceeds.of_frame (execEvidenceDMinus_frame port chain report ct authOk kem fecc s)
  | .refusedRetry port => Proceeds.of_frame (execRefusedRetry_frame port s)
  | .crsync port fecOk fecc wire loopPs => Proceeds.of_frame (execCrsync_frame port fecOk fecc wire loopPs s)
  | .opticalEngineFail port => Proceeds.of_frame (execOpticalEngineFail_frame port s)
  | .hatbandOpen => Proceeds.of_frame (execHatbandOpen_frame s)
  | .cardingContribution t => Proceeds.of_frame (execCardingContribution_frame t s)
  | .partialMsg p => Proceeds.of_frame (execPartialMsg_frame p s)
  | .finalMsg p => Proceeds.of_frame (execFinalMsg_frame p s)
  | .gather p => Proceeds.of_frame (execGather_frame p s)
  | .mkup p => Proceeds.of_frame (execMkup_frame p s)
  | .mkdn p => Proceeds.of_frame (execMkdn_frame p s)
  | .moveMsg p => Proceeds.of_frame (execMoveMsg_frame p s)
  | .bucketDelivery p tag => Proceeds.of_frame (execBucketDelivery_frame p tag s)
  | .eraRaise p => Proceeds.of_frame (execEraRaise_frame p s)
  | .eraAck p => Proceeds.of_frame (execEraAck_frame p s)
  | .opened p => Proceeds.of_frame (execOpened_frame p s)
  | .challenge p => Proceeds.of_frame (execChallenge_frame p s)
  | .memberReport p authOk => Proceeds.of_frame (execMemberReport_frame p authOk s)
  | .keyset p kem => Proceeds.of_frame (execKeyset_frame p kem s)
  | .joined p => Proceeds.of_frame (execJoined_frame p s)
  | .sidCeilingRaise p => Proceeds.of_frame (execSidCeilingRaise_frame p s)
  | .restoreAgreement p => Proceeds.of_frame (execRestoreAgreement_frame p s)
  | .goMsg p => Proceeds.of_frame (execGoMsg_frame p s)
  | .tileMark t => Proceeds.of_frame (execTileMark_frame t s)
  | .heldGranuleWrite t => Proceeds.of_frame (execHeldGranuleWrite_frame t s)
  | .checkpointTrailer p => Proceeds.of_frame (execCheckpointTrailer_frame p s)
  | .buddyChunk p => Proceeds.of_frame (execBuddyChunk_frame p s)
  | .buddyTrailerAck p => Proceeds.of_frame (execBuddyTrailerAck_frame p s)
  | .buddyLogRequest p => Proceeds.of_frame (execBuddyLogRequest_frame p s)
  | .partitionReset p bal => Proceeds.of_frame (execPartitionReset_frame p bal s)
  | .resetFlushDone p => Proceeds.of_frame (execResetFlushDone_frame p s)
  | .flushTimeout p => Proceeds.of_frame (execFlushTimeout_frame p s)
  | .selfTestDone p fails => Proceeds.of_frame (execSelfTestDone_frame p fails s)
  | .recentreDone p failed => Proceeds.of_frame (execRecentreDone_frame p failed s)
  | .resetOverrun p => Proceeds.of_frame (execResetOverrun_frame p s)
  | .pouncingDone p reads fails => Proceeds.of_frame (execPouncingDone_frame p reads fails s)
  | .pouncingOverrun p => Proceeds.of_frame (execPouncingOverrun_frame p s)
  | .channelInitDone t k => Proceeds.of_frame (execChannelInitDone_frame t k s)
  | .moduleRestart code detail => Proceeds.of_frame (execModuleRestart_frame code detail s)
  | .powerGood romOk certRead readA readB => Proceeds.of_frame (execPowerGood_frame romOk certRead readA readB s)
  | .channelTrainingDone t k ok => Proceeds.of_frame (execChannelTrainingDone_frame t k ok s)
  | .engineSelfTestDone port ok => Proceeds.of_frame (execEngineSelfTestDone_frame port ok s)
  | .escapementWindow t a => Proceeds.of_frame (execEscapementWindow_frame t a s)
  | .droopEvent t => Proceeds.of_frame (execDroopEvent_frame t s)
  | .rowMonitorSample row ma => Proceeds.of_frame (execRowMonitorSample_frame row ma s)
  | .coreRailOvercurrent row => Proceeds.of_frame (execCoreRailOvercurrent_frame row s)
  | .pllLossOfLock island => Proceeds.of_frame (execPllLossOfLock_frame island s)
  | .oscillatorLoss => Proceeds.of_frame (execOscillatorLoss_frame s)
  | .inputUndervoltage => Proceeds.of_frame (execInputUndervoltage_frame s)
  | .inputOvervoltage => Proceeds.of_frame (execInputOvervoltage_frame s)
  | .inputOvercurrent => Proceeds.of_frame (execInputOvercurrent_frame s)
  | .inputRelease tooHigh => Proceeds.of_frame (execInputRelease_frame tooHigh s)
  | .vauxFault => Proceeds.of_frame (execVauxFault_frame s)
  | .inputPowerApplied slotId => Proceeds.of_frame (execInputPowerApplied_frame slotId s)
  | .railsRise => Proceeds.of_frame (execRailsRise_frame s)
  | .startConditionLoss removed => Proceeds.of_frame (execStartConditionLoss_frame removed s)
  | .modEnableDeassert slotId => Proceeds.of_frame (execModEnableDeassert_frame slotId s)
  | .modEnableAssert => Proceeds.of_frame (execModEnableAssert_frame s)
  | .perstNAssert => Proceeds.of_frame (execPerstNAssert_frame s)
  | .perstNRelease => Proceeds.of_frame (execPerstNRelease_frame s)
  | .stormHoldEnd => Proceeds.of_frame (execStormHoldEnd_frame s)
  | .railsRested => Proceeds.of_frame (execRailsRested_frame s)
  | .smbusBlockRead addr code a => Proceeds.of_frame (execSmbusBlockRead_frame addr code a s)
  | .smbusWrite addr code data => Proceeds.of_frame (execSmbusWrite_frame addr code data s)
  | .smbusTimeout => Proceeds.of_frame (execSmbusTimeout_frame s)
  | .functionLevelReset p => Proceeds.of_frame (execFunctionLevelReset_frame p s)
  | .pfFunctionLevelReset => Proceeds.of_frame (execPfFunctionLevelReset_frame s)
  | .dlDown => Proceeds.of_frame (execDlDown_frame s)
  | .vfEnable numVfs enable => Proceeds.of_frame (execVfEnable_frame numVfs enable s)
  | .busMasterEnable f on => Proceeds.of_frame (execBusMasterEnable_frame f on s)
  | .hostDmaSlot pf write => Proceeds.of_frame (execHostDmaSlot_frame pf write s)
  | .dmaReadCompletion id ok data => Proceeds.of_frame (execDmaReadCompletion_frame id ok data s)
  | .completionTimeout id => Proceeds.of_frame (execCompletionTimeout_frame id s)
  | .debugControlWrite t v => Proceeds.of_frame (execDebugControlWrite_frame t v s)
  | .debugMemoryWrite t off data => Proceeds.of_frame (execDebugMemoryWrite_frame t off data s)
  | .logEntryWrite p => Proceeds.of_frame (execLogEntryWrite_frame p s)
  | .oscillatorRecovery => Proceeds.of_frame (execOscillatorRecovery_frame s)
  | .vauxRecovery => Proceeds.of_frame (execVauxRecovery_frame s)
  | .modEnableHeldLow => Proceeds.of_frame (execModEnableHeldLow_frame s)
  | .dlUp rate width mps => Proceeds.of_frame (execDlUp_frame rate width mps s)
  | .retrainLimitRelease port => Proceeds.of_frame (execRetrainLimitRelease_frame port s)
  | .vecComplete t => Proceeds.of_frame (execVecComplete_frame t s)
  | .eraCeilingReceive p => Proceeds.of_frame (execEraCeilingReceive_frame p s)
  | .sidCeilingReceive p => Proceeds.of_frame (execSidCeilingReceive_frame p s)
  | .sidCeilingAck p => Proceeds.of_frame (execSidCeilingAck_frame p s)
  | .restoreLogChunk p => Proceeds.of_frame (execRestoreLogChunk_frame p s)
  | .buddyRefusal p => Proceeds.of_frame (execBuddyRefusal_frame p s)

theorem stepsOn_always (s : State) : stepsOn s := by
  cases hq : s.pending with
  | nil => exact ⟨s.tick, step_of_emptyQueue s hq⟩
  | cons c rest =>
    obtain ⟨t, ht, _⟩ := exec_proceeds c { s with pending := rest }
    exact ⟨t, (step_of_front hq).trans ht⟩

/-- Settles O3: the frame of each command (`exec_proceeds`), and the tick on an empty queue. -/
theorem noStepStops : Obligations.NoStepStops := ⟨exec_proceeds, stepsOn_always⟩

end Sys2Proof.Machine
end

section
/-! Start-up (16, R465, R483, R487): what every step keeps of the fuses and of the flash, read off `step_keeps`. -/

namespace Sys2Proof.Machine

/-- Settles O4: `advanceFuse` alone writes the fuses, by setting a step (`advanceFuse_keeps`). -/
theorem fusesNeverClear : Obligations.FusesNeverClear := fun s t i hstep hblown => by
  obtain ⟨hfuses, -, -⟩ := step_keeps s t hstep
  exact hfuses i hblown

/-- Settles O5: what writes the flash, the boot records, an erased slot and a staged image, writes it in the canonical form (log 3). -/
theorem flashStaysCanonical : Obligations.FlashStaysCanonical := fun s t hstep hform => by
  obtain ⟨-, hflash, -⟩ := step_keeps s t hstep
  exact hflash hform

/-- Settles O6: an image is staged in the other slot (`stage_slot`), and the boot records lie past both. -/
theorem activeSlotKept : Obligations.ActiveSlotKept := fun s t a hstep himage hslot hlow hhigh => by
  obtain ⟨-, -, hkept⟩ := step_keeps s t hstep
  exact hkept himage hslot a hlow hhigh

end Sys2Proof.Machine
end

section
/-! The host interface (17): the link and its functions, and the slots and completions of device-initiated DMA. -/

namespace Sys2Proof.Machine

/-! ### Link, function-level resets, VF Enable, Bus Master Enable (R479, R493, R499, R501-R504) -/

section
variable {s : State}

theorem configured_linkDown (h : s.host.linkUp = false) (f : Fn) : s.configured f = false := by
  simp [State.configured, h]

theorem configured_starting (hr : s.boot.phase ≠ .recovery) (hy : s.boot.phase ≠ .ready) (f : Fn) : s.configured f = false := by
  simp [State.configured, hr, hy]

theorem configured_recovery (hl : s.host.linkUp = true) (hr : s.boot.phase = .recovery) (f : Fn) : s.configured f = f.isNone := by
  simp [State.configured, hl, hr]

theorem configured_ready (hl : s.host.linkUp = true) (hy : s.boot.phase = .ready) (f : Fn) : s.configured f = true := by
  simp [State.configured, hl, hy]

theorem exec_functionLevelReset {p : PartId} (hc : s.configured (some p) = true) (hf : s.fnLive (some p) = true) :
    exec (.functionLevelReset p) s = .next (s.flr p) := if_pos (by rw [hc, hf]; rfl)

theorem exec_functionLevelReset_ignored {p : PartId} (h : s.configured (some p) = false ∨ s.fnLive (some p) = false) :
    exec (.functionLevelReset p) s = .next s := if_neg (by obtain h | h := h <;> simp [h])

theorem exec_pfFunctionLevelReset (hc : s.configured none = true) : exec .pfFunctionLevelReset s = .next s.pfFlr := if_pos hc

theorem exec_busMasterEnable {f : Fn} (hc : s.configured f = true) (hf : s.fnLive f = true) (hr : (s.dma f).flr = false) (on : Bool) :
    exec (.busMasterEnable f on) s = .next (s.modDma f fun d => { d with bme := on }) := if_pos (by rw [hc, hf, hr]; rfl)

theorem exec_busMasterEnable_ignored {f : Fn} (h : s.configured f = false ∨ s.fnLive f = false ∨ (s.dma f).flr = true) (on : Bool) :
    exec (.busMasterEnable f on) s = .next s := if_neg (by obtain h | h | h := h <;> simp [h])

/-- NumVFs is written while VF Enable is clear alone (R493). -/
theorem exec_vfEnable_clear (hc : s.configured none = true) (hv : s.host.vfEnable = false) (n : Option Nat) (on : Bool) :
    exec (.vfEnable n on) s = .next { s with host := { s.host with numVfs := n.getD s.host.numVfs, vfEnable := on } } := by
  simp [exec, execVfEnable, hc, hv]

theorem exec_vfEnable_kept (hc : s.configured none = true) (hv : s.host.vfEnable = true) (n : Option Nat) :
    exec (.vfEnable n true) s = .next { s with host := { s.host with vfEnable := true } } := by
  simp [exec, execVfEnable, hc, hv]

/-- Clearing VF Enable resets the functions that were live (log 26). -/
theorem exec_vfEnable_cleared (hc : s.configured none = true) (hv : s.host.vfEnable = true) (n : Option Nat) :
    exec (.vfEnable n false) s = .next ((s.partsUsed.filter fun p => s.fnLive (some p)).foldl (fun s p => s.flr p)
      { s with host := { s.host with vfEnable := false } }) := by
  simp [exec, execVfEnable, hc, hv]

/-- A function that answers no configuration request keeps its state (R479, R504). -/
theorem exec_unanswered (h : ∀ f, s.configured f = false) :
    (∀ p, exec (.functionLevelReset p) s = .next s) ∧ exec .pfFunctionLevelReset s = .next s ∧
      (∀ n on, exec (.vfEnable n on) s = .next s) ∧ ∀ f on, exec (.busMasterEnable f on) s = .next s :=
  ⟨fun p => exec_functionLevelReset_ignored (.inl (h _)), if_neg (ne_true_of_eq_false (h none)),
    fun _ _ => if_pos (by rw [h none]; rfl), fun _ => exec_busMasterEnable_ignored (.inl (h _))⟩

theorem exec_dlDown (h : s.host.linkUp = true) : exec .dlDown s =
    .next (s.partsUsed.foldl (fun s p => s.flr p) (State.pfFlr { s with host := { s.host with linkUp := false } })) := if_pos h

/-- The link can train while a start is under way with PERST_N high (log 28). -/
theorem exec_dlUp (hl : s.host.linkUp = false) (hp : s.board.perstN = true) (hn : s.boot.phase ≠ .none) (hr : s.boot.phase ≠ .romHold)
    (rate width mps : Nat) : exec (.dlUp rate width mps) s = .next { s with host := { s.host with
      linkUp := true, rate := rate, width := width, mps := min 3 mps, credit := creditOf rate width mps
      wslot := 0, rslot := 0, pfWslot := 0, pfRslot := 0, upAt := s.clocks.hostIf } } :=
  if_neg (by simp [hl, hp, hn, hr])

theorem exec_dlUp_ignored
    (h : s.host.linkUp = true ∨ s.board.perstN = false ∨ s.boot.phase = .none ∨ s.boot.phase = .romHold) (rate width mps : Nat) :
    exec (.dlUp rate width mps) s = .next s := if_pos (by obtain h | h | h | h := h <;> simp [h])

end

/-- Settles O58: each row is its equation, taken where the function answers configuration requests and where it does not; whom a
cleared VF Enable resets is log 26's, and when the link trains log 28's. -/
theorem functionsResetAndEnabled : Obligations.FunctionsResetAndEnabled := by
  refine fun s => ⟨fun hl => ⟨exec_dlDown hl, exec_dlUp_ignored (.inl hl), fun hr => ?recovery, fun hr hy => ?starting⟩,
    fun hl hy => ?ready, fun hl => ?linkDown⟩
  case recovery =>
    have hc := configured_recovery hl hr
    exact ⟨exec_pfFunctionLevelReset (hc none), fun p => exec_functionLevelReset_ignored (.inl (hc (some p)))⟩
  case starting =>
    obtain ⟨hfn, hpf, hvf, hbme⟩ := exec_unanswered (configured_starting hr hy)
    exact ⟨hpf, hfn, hvf, hbme⟩
  case ready =>
    have hc := configured_ready hl hy
    exact ⟨fun p => exec_functionLevelReset (hc _), fun p hf => exec_functionLevelReset_ignored (.inr hf),
      exec_pfFunctionLevelReset (hc none), exec_vfEnable_clear (hc none),
      fun hv n => ⟨exec_vfEnable_kept (hc none) hv n, exec_vfEnable_cleared (hc none) hv n⟩,
      fun f on hf hr => ⟨_, exec_busMasterEnable (hc f) hf hr on, OnlyFn.modDma s f _, modDma_dma s f _⟩,
      fun f on h => exec_busMasterEnable_ignored (.inr h) on⟩
  case linkDown =>
    obtain ⟨hfn, hpf, hvf, hbme⟩ := exec_unanswered (configured_linkDown hl)
    exact ⟨fun r w m hp hn hr => exec_dlUp hl hp hn hr r w m, fun r w m h => exec_dlUp_ignored (.inr h) r w m, hfn, hpf,
      if_neg (ne_true_of_eq_false hl), hvf, hbme⟩

/-! ### Host slots and read completions (R496-R498) -/

section
variable {s : State} {w : Bool}

theorem nextSlot_rest (s : State) (w : Bool) : s.nextSlot false w =
    { s with host := { s.host with wslot := (s.nextSlot false w).host.wslot, rslot := (s.nextSlot false w).host.rslot } } := by
  cases w <;> rfl

theorem nextSlot_slotIndex (s : State) (w : Bool) : (s.nextSlot false w).slotIndex false w = s.slotIndex false w + 1 := by
  cases w <;> rfl

/-- Whether a function may issue does not turn on the slot sequences. -/
theorem nextSlot_mayIssue (s : State) (w : Bool) (f : Fn) : (s.nextSlot false w).mayIssue f = s.mayIssue f := by
  cases w <;> cases f <;> rfl

theorem allot_barred {f : Fn} (h : s.mayIssue f = false) (w : Bool) : s.allot f w = s := if_pos (by rw [h]; rfl)

theorem partIx_val (p : PartId) : State.partIx p.val = p := Fin.ext (Nat.mod_eq_of_lt p.isLt)

theorem exec_hostDmaSlot_early {pf : Bool} (h : s.slotDue pf w = false) : exec (.hostDmaSlot pf w) s = .next s :=
  if_pos (by rw [h]; rfl)

theorem exec_hostDmaSlot_pf (h : s.slotDue true w = true) : exec (.hostDmaSlot true w) s = .next ((s.nextSlot true w).allot none w) := by
  simp only [exec, execHostDmaSlot, h]; rfl

theorem slotPart_nextSlot (s : State) (w : Bool) (k : Nat) : (s.nextSlot false w).slotPart k = s.slotPart k := rfl

theorem exec_hostDmaSlot_part {p : PartId} (h : s.slotDue false w = true) (hp : s.slotPart (s.slotIndex false w % 64) = some p.val) :
    exec (.hostDmaSlot false w) s = .next ((s.nextSlot false w).allot (some p) w) := by
  simp only [exec, execHostDmaSlot, h, slotPart_nextSlot, hp, partIx_val]; rfl

theorem exec_hostDmaSlot_idle (h : s.slotDue false w = true) (hp : s.slotPart (s.slotIndex false w % 64) = none) :
    exec (.hostDmaSlot false w) s = .next (s.nextSlot false w) := by
  simp only [exec, execHostDmaSlot, h, slotPart_nextSlot, hp]; rfl

/-- A request's end reaches each read it carries, in the order of the queue. -/
theorem endRead_of_readFn {id : Nat} {p : PartId} (h : s.readFn id = some p) {rs : List HostRead} {base : Nat}
    (hrs : rs = (s.dma (some p)).reads.filter (·.issued == some id)) (hbase : base = (rs.head?.map (·.addr)).getD 0) (data : Option Bytes) :
    s.endRead id data = rs.foldl (fun s r => s.readDone p r (data.map fun bs => fit r.len (sub bs (r.addr - base) r.len))) s := by
  subst hrs hbase
  simp only [State.endRead, h]

theorem endRead_unissued {id : Nat} (h : s.readFn id = none) (data : Option Bytes) : s.endRead id data = s := by
  simp only [State.endRead, h]

end

/-- Settles O59: a slot is its owner's allotment after the sequence has moved on; a request's end is `endRead`, with its data where it
completed and with none where it failed. -/
theorem hostSlotsAllotted : Obligations.HostSlotsAllotted := by
  refine fun pf w s => ⟨exec_hostDmaSlot_early, fun hdue => ⟨fun hpf => ?_, fun p hpf hp => ⟨?_, fun hbar => ?_⟩, fun hpf hp => ?_⟩,
    fun id bs p rs base h hrs hbase => ⟨?_, ?_, ?_⟩, fun id ok bs h => ⟨?_, ?_⟩⟩
  · subst hpf
    exact exec_hostDmaSlot_pf hdue
  · subst hpf
    exact exec_hostDmaSlot_part hdue hp
  · subst hpf
    have hbarred : (s.nextSlot false w).allot (some p) w = s.nextSlot false w := allot_barred ((nextSlot_mayIssue s w _).trans hbar) w
    exact ⟨_, (exec_hostDmaSlot_part hdue hp).trans (congrArg _ hbarred), nextSlot_rest s w, nextSlot_slotIndex s w⟩
  · subst hpf
    exact exec_hostDmaSlot_idle hdue hp
  · exact congrArg _ (endRead_of_readFn h hrs hbase (some bs))
  · exact congrArg _ (endRead_of_readFn h hrs hbase none)
  · exact congrArg _ (endRead_of_readFn h hrs hbase none)
  · exact congrArg _ (endRead_unissued h _)
  · exact congrArg _ (endRead_unissued h none)

end Sys2Proof.Machine
end

section
/-! The module's sideband (18): SMBus telemetry. -/

namespace Sys2Proof.Machine

/-! ### SMBus (R525, R526) -/

/-- What a Block Read of the data returns ends with one PEC byte, the CRC-8 of the transaction (log 41). -/
theorem blockRead_pec (addr : Nat) (code : Byte) (pg : Bytes) :
    ∃ pec, blockRead addr code pg = leBytes 1 pg.length ++ pg ++ pec ∧ pec.length = 1 := ⟨_, rfl, rfl⟩

theorem page_of_lt (s : State) (a : Analog) {n : Nat} (h : n < 8) : ∃ pg, s.page n a = some pg := by
  interval_cases n <;> exact ⟨_, rfl⟩

theorem page_none (s : State) (a : Analog) {n : Nat} (h : 8 ≤ n) : s.page n a = none := by
  obtain ⟨k, rfl⟩ := Nat.exists_eq_add_of_le' h
  rfl

section
variable {s : State} {addr : BitVec 7}

theorem smbus_acknowledged (hv : s.board.vauxOk = true) (ha : addr.toNat = 0x40 + s.board.slotId.toNat) :
    ¬(!s.board.vauxOk || addr.toNat != 0x40 + s.board.slotId.toNat) = true := by
  simp [hv, ha]

theorem smbus_unacknowledged (h : s.board.vauxOk = false ∨ addr.toNat ≠ 0x40 + s.board.slotId.toNat) :
    (!s.board.vauxOk || addr.toNat != 0x40 + s.board.slotId.toNat) = true := by
  obtain h | h := h <;> simp [h]

end

/-- Settles O47: the rows' equations at the module's address and elsewhere; that the PEC is always clocked and its code are log 41's. -/
theorem smbusAnswers : Obligations.SmbusAnswers := by
  refine fun addr code a d s => ⟨fun hv ha => ?_, fun h => ?_, rfl⟩
  · have hread : exec (.smbusBlockRead addr code a) s =
        .next { s with board := { s.board with smbus := (s.page code.toNat a).map (blockRead addr.toNat code) } } :=
      if_neg (smbus_acknowledged hv ha)
    refine ⟨fun pg hpg => ?_, fun hc => ?_, fun hc => ?_, if_neg (smbus_acknowledged hv ha)⟩
    · obtain ⟨pec, hpec, hlen⟩ := blockRead_pec addr.toNat code pg
      exact ⟨pec, by rw [hread, hpg, Option.map_some, hpec], hlen⟩
    · exact page_of_lt s a hc
    · rw [hread, page_none s a hc, Option.map_none]
  · exact ⟨if_pos (smbus_unacknowledged h), if_pos (smbus_unacknowledged h)⟩

end Sys2Proof.Machine
end
